-- ==== Sys2Proof/Word.lean ====
section
/-!
DEFINITION. Word.lean: the word types of the Q9 (R11, R12, R18).
-/

namespace Sys2Proof

/-- One byte of memory. -/
abbrev Byte := BitVec 8

/-- A 32-bit register value (R18, R73). -/
abbrev W32 := BitVec 32

/-- A 64-bit register value: an X pair, an S register, a PC (R18, R73, R139). -/
abbrev W64 := BitVec 64

end Sys2Proof
end

