-- ==== Sys2Proof/Machine/Fp.lean ====
section
/-!
DEFINITION. Machine/Fp.lean: number formats and exact arithmetic (01_number_formats.md, R17-R43). A finite value is
sign, magnitude `m` and exponent `e`, standing for m x 2^e; results are computed exactly and rounded once (R22).
-/

namespace Sys2Proof.Machine

/-- A floating-point format (R19): exponent bits, fraction bits; whether it has infinities; whether a finite value
beyond the largest finite one saturates (R24). -/
structure Fmt where
  eb : Nat
  fb : Nat
  hasInf : Bool := true
  sat : Bool := false
deriving DecidableEq, Repr

def fp64 : Fmt := ⟨11, 52, true, false⟩
def fp32 : Fmt := ⟨8, 23, true, false⟩
def fp16 : Fmt := ⟨5, 10, true, false⟩
def bf16 : Fmt := ⟨8, 7, true, false⟩
def e5m2 : Fmt := ⟨5, 2, true, true⟩
def e4m3 : Fmt := ⟨4, 3, false, true⟩

/-- The width of a format in bits. -/
def Fmt.width (f : Fmt) : Nat := 1 + f.eb + f.fb

/-- The exponent bias (R19). -/
def Fmt.bias (f : Fmt) : Nat := 2 ^ (f.eb - 1) - 1

/-- The bit pattern of the largest finite value (R19). -/
def Fmt.maxFinite (f : Fmt) : Nat :=
  if f.hasInf then (2 ^ f.eb - 1) * 2 ^ f.fb - 1 else 2 ^ (f.eb + f.fb) - 2

/-- The bit pattern of +infinity, or of the largest finite value in a format without infinities (R24). -/
def Fmt.infBits (f : Fmt) : Nat := if f.hasInf then (2 ^ f.eb - 1) * 2 ^ f.fb else f.maxFinite

/-- The canonical NaN (R19, R21). -/
def Fmt.nanBits (f : Fmt) : Nat :=
  if f.hasInf then (2 ^ f.eb - 1) * 2 ^ f.fb + 2 ^ (f.fb - 1) else 2 ^ (f.eb + f.fb) - 1

/-- A value of any format: NaN, an infinity, or sign and m x 2^e. -/
inductive FVal where
  | nan
  | inf (neg : Bool)
  | fin (neg : Bool) (m : Nat) (e : Int)
deriving DecidableEq, Repr

/-- The value a bit pattern encodes (R19). -/
def Fmt.decode (f : Fmt) (bits : Nat) : FVal :=
  let neg := bits / 2 ^ (f.eb + f.fb) % 2 == 1
  let ef := bits / 2 ^ f.fb % 2 ^ f.eb
  let fr := bits % 2 ^ f.fb
  let top := 2 ^ f.eb - 1
  if ef == 0 then .fin neg fr (1 - (f.bias : Int) - f.fb)
  else if f.hasInf && ef == top then (if fr == 0 then .inf neg else .nan)
  else if !f.hasInf && ef == top && fr == 2 ^ f.fb - 1 then .nan
  else .fin neg (2 ^ f.fb + fr) ((ef : Int) - f.bias - f.fb)

/-- m / 2^sh rounded to nearest, ties to even (R22). -/
def roundShift (m sh : Nat) : Nat :=
  if sh > Nat.log2 m + 1 then 0
  else
    let q := m / 2 ^ sh
    let r := m % 2 ^ sh
    if 2 * r > 2 ^ sh ∨ (2 * r = 2 ^ sh ∧ q % 2 = 1 ∧ sh ≠ 0) then q + 1 else q

/-- The magnitude pattern of m x 2^e rounded once (R22), before the overflow decision. -/
def Fmt.roundMag (f : Fmt) (m : Nat) (e : Int) : Nat :=
  if m = 0 then 0
  else
    let low : Int := 1 - (f.bias : Int) - f.fb
    let q : Int := Max.max ((Nat.log2 m : Int) + e - f.fb) low
    let n := if q ≤ e then m * 2 ^ (e - q).toNat else roundShift m (q - e).toNat
    (q - low).toNat * 2 ^ f.fb + n

/-- The sign bit in place. -/
def Fmt.sign (f : Fmt) (neg : Bool) : Nat := if neg then 2 ^ (f.eb + f.fb) else 0

/-- The bit pattern of a value in the format (R22, R24): overflow after rounding gives an infinity, or the largest
finite value where the format saturates; a NaN is canonical. -/
def Fmt.encode (f : Fmt) : FVal → Nat
  | .nan => f.nanBits
  | .inf neg => f.sign neg + f.infBits
  | .fin neg m e =>
    -- an exponent beyond every format overflows without forming the huge pattern
    if m ≠ 0 ∧ (Nat.log2 m : Int) + e > 2 * (f.bias : Int) + 4 then
      f.sign neg + (if f.sat then f.maxFinite else f.infBits)
    else
      let b := f.roundMag m e
      f.sign neg + (if b > f.maxFinite then (if f.sat then f.maxFinite else f.infBits) else b)

/-- Exact sum of signed magnitudes on a common exponent. -/
def alignSum (n1 : Bool) (m1 : Nat) (e1 : Int) (n2 : Bool) (m2 : Nat) (e2 : Int) : Int × Int :=
  let e := Min.min e1 e2
  let a : Int := (m1 * 2 ^ (e1 - e).toNat : Nat)
  let b : Int := (m2 * 2 ^ (e2 - e).toNat : Nat)
  ((if n1 then -a else a) + (if n2 then -b else b), e)

/-- The exact sum, with the sign of a zero result by R23. -/
def FVal.add : FVal → FVal → FVal
  | .nan, _ => .nan
  | _, .nan => .nan
  | .inf a, .inf b => if a = b then .inf a else .nan
  | .inf a, _ => .inf a
  | _, .inf b => .inf b
  | .fin n1 m1 e1, .fin n2 m2 e2 =>
    if m1 = 0 ∧ m2 = 0 then .fin (n1 && n2) 0 0
    else if m1 = 0 then .fin n2 m2 e2
    else if m2 = 0 then .fin n1 m1 e1
    else
      let r := alignSum n1 m1 e1 n2 m2 e2
      if r.1 = 0 then .fin false 0 0 else .fin (decide (r.1 < 0)) r.1.natAbs r.2

/-- Sign inversion. -/
def FVal.neg : FVal → FVal
  | .nan => .nan
  | .inf a => .inf (!a)
  | .fin n m e => .fin (!n) m e

/-- The exact product (R23, R196). -/
def FVal.mul : FVal → FVal → FVal
  | .nan, _ => .nan
  | _, .nan => .nan
  | .inf a, .inf b => .inf (a != b)
  | .inf a, .fin n m _ => if m = 0 then .nan else .inf (a != n)
  | .fin n m _, .inf b => if m = 0 then .nan else .inf (n != b)
  | .fin n1 m1 e1, .fin n2 m2 e2 => .fin (n1 != n2) (m1 * m2) (e1 + e2)

/-- Less-than of two values that are not NaN, with -0 below +0 (R40). -/
def FVal.ltTotal : FVal → FVal → Bool
  | .nan, _ => false
  | _, .nan => false
  | .inf a, .inf b => a && !b
  | .inf a, .fin _ _ _ => a
  | .fin _ _ _, .inf b => !b
  | .fin n1 m1 e1, .fin n2 m2 e2 =>
    if m1 = 0 ∧ m2 = 0 then n1 && !n2
    else decide ((alignSum n1 m1 e1 (!n2) m2 e2).1 < 0)

/-- Less-than with -0 equal to +0; false when either is NaN (R200). -/
def FVal.lt (a b : FVal) : Bool :=
  match a, b with
  | .fin _ 0 _, .fin _ 0 _ => false
  | _, _ => a.ltTotal b

/-- Equality with -0 equal to +0; false when either is NaN (R200). -/
def FVal.eqv (a b : FVal) : Bool :=
  match a, b with
  | .nan, _ => false
  | _, .nan => false
  | _, _ => !a.lt b && !b.lt a

def FVal.isNan : FVal → Bool
  | .nan => true
  | _ => false

/-! ## Operations on bit patterns -/

def Fmt.add (f : Fmt) (x y : Nat) : Nat := f.encode ((f.decode x).add (f.decode y))
def Fmt.sub (f : Fmt) (x y : Nat) : Nat := f.encode ((f.decode x).add (f.decode y).neg)
def Fmt.mul (f : Fmt) (x y : Nat) : Nat := f.encode ((f.decode x).mul (f.decode y))

/-- x x y + c, rounded once (R196). -/
def Fmt.fma (f : Fmt) (x y c : Nat) : Nat := f.encode (((f.decode x).mul (f.decode y)).add (f.decode c))

/-- The lesser under R40: one NaN gives the other operand, two give the canonical NaN. -/
def Fmt.min (f : Fmt) (x y : Nat) : Nat :=
  let a := f.decode x
  let b := f.decode y
  if a.isNan then (if b.isNan then f.nanBits else y)
  else if b.isNan then x else if b.ltTotal a then y else x

/-- The greater under R40. -/
def Fmt.max (f : Fmt) (x y : Nat) : Nat :=
  let a := f.decode x
  let b := f.decode y
  if a.isNan then (if b.isNan then f.nanBits else y)
  else if b.isNan then x else if a.ltTotal b then y else x

/-- Conversion between formats (R24). -/
def Fmt.convert (src dst : Fmt) (x : Nat) : Nat := dst.encode (src.decode x)

/-- An integer in a format (R25, R201). -/
def Fmt.ofInt (f : Fmt) (x : Int) : Nat := f.encode (.fin (decide (x < 0)) x.natAbs 0)

/-- Truncation toward zero, as an integer (R25). -/
def truncMag (m : Nat) (e : Int) : Nat := if e ≥ 0 then m * 2 ^ e.toNat else m / 2 ^ (-e).toNat

/-- Conversion to an integer range [lo, hi] toward zero; NaN gives 0, beyond the range the nearest limit (R25). -/
def FVal.toRange (lo hi : Int) : FVal → Int
  | .nan => 0
  | .inf neg => if neg then lo else hi
  | .fin neg m e =>
    if m ≠ 0 ∧ (Nat.log2 m : Int) + e > 80 then (if neg then lo else hi)
    else
      let t : Int := truncMag m e
      Max.max lo (Min.min hi (if neg then -t else t))

/-! ## Rounding to integral and scaling (R198) -/

/-- Directions of FRND. -/
inductive Rnd where
  | near | zero | down | up
deriving DecidableEq, Repr

/-- m / 2^sh to an integer in the direction given. -/
def roundDir (r : Rnd) (neg : Bool) (m sh : Nat) : Nat :=
  if m = 0 then 0
  else if sh > Nat.log2 m + 1 then
    match r with
    | .near | .zero => 0
    | .down => if neg then 1 else 0
    | .up => if neg then 0 else 1
  else
    let q := m / 2 ^ sh
    let exact := m % 2 ^ sh == 0
    match r with
    | .near => roundShift m sh
    | .zero => q
    | .down => if neg && !exact then q + 1 else q
    | .up => if !neg && !exact then q + 1 else q

/-- A value rounded to integral, sign kept (R198). -/
def FVal.integral (r : Rnd) : FVal → FVal
  | .nan => .nan
  | .inf n => .inf n
  | .fin n m e => if e ≥ 0 then .fin n m e else .fin n (roundDir r n m (-e).toNat) 0

/-- a x 2^k, exact (R198 FSCALE). -/
def FVal.scale (k : Int) : FVal → FVal
  | .nan => .nan
  | .inf n => .inf n
  | .fin n m e => .fin n m (e + k)

/-! ## Correctly rounded functions (R31) -/

/-- Integer square root by bits from `i` down. -/
def isqrtGo (n : Nat) : Nat → Nat → Nat
  | 0, r => r
  | i + 1, r => isqrtGo n i (if (r + 2 ^ i) * (r + 2 ^ i) ≤ n then r + 2 ^ i else r)

/-- The integer square root of n. -/
def isqrt (n : Nat) : Nat := isqrtGo n (Nat.log2 n / 2 + 1) 0

/-- A quotient of magnitudes with a sticky low bit: 2^64 or more significant bits of it. -/
def quotSticky (m1 m2 : Nat) : Nat × Int :=
  let k := Nat.log2 m2 + 64
  let q := m1 * 2 ^ k / m2
  let r := m1 * 2 ^ k % m2
  (2 * q + (if r = 0 then 0 else 1), -(k : Int) - 1)

/-- a / b (R31 DIV). -/
def FVal.div : FVal → FVal → FVal
  | .nan, _ => .nan
  | _, .nan => .nan
  | .inf _, .inf _ => .nan
  | .inf a, .fin n _ _ => .inf (a != n)
  | .fin n _ _, .inf b => .fin (n != b) 0 0
  | .fin n1 m1 e1, .fin n2 m2 e2 =>
    if m2 = 0 then (if m1 = 0 then .nan else .inf (n1 != n2))
    else if m1 = 0 then .fin (n1 != n2) 0 0
    else
      let q := quotSticky m1 m2
      .fin (n1 != n2) q.1 (e1 - e2 + q.2)

/-- The value 1. -/
def FVal.one : FVal := .fin false 1 0

/-- SQRT (R31). -/
def FVal.sqrt : FVal → FVal
  | .nan => .nan
  | .inf neg => if neg then .nan else .inf false
  | .fin neg m e =>
    if m = 0 then .fin neg 0 0
    else if neg then .nan
    else
      let odd := e % 2 = 1
      let m' := (if odd then 2 * m else m) * 2 ^ 128
      let h : Int := ((if odd then e - 1 else e) - 128) / 2
      let r := isqrt m'
      .fin false (2 * r + (if r * r = m' then 0 else 1)) (h - 1)

/-- RSQ (R31). -/
def FVal.rsq : FVal → FVal
  | .nan => .nan
  | .inf neg => if neg then .nan else .fin false 0 0
  | .fin neg m e =>
    if m = 0 then .inf neg
    else if neg then .nan
    else
      let odd := e % 2 = 1
      let m' := if odd then 2 * m else m
      let h : Int := (if odd then e - 1 else e) / 2
      let t := Nat.log2 m' + 64
      let r := isqrt (2 ^ (2 * t) / m')
      .fin false (2 * r + (if r * r * m' = 2 ^ (2 * t) then 0 else 1)) (-h - t - 1)

def Fmt.div (f : Fmt) (x y : Nat) : Nat := f.encode ((f.decode x).div (f.decode y))
def Fmt.rcp (f : Fmt) (x : Nat) : Nat := f.encode (FVal.one.div (f.decode x))
def Fmt.sqrt (f : Fmt) (x : Nat) : Nat := f.encode (f.decode x).sqrt
def Fmt.rsq (f : Fmt) (x : Nat) : Nat := f.encode (f.decode x).rsq

/-! ## FCLASS (R199) -/

/-- The class mask of an FP32 pattern. -/
def fclass32 (x : Nat) : Nat :=
  let sub := x / 2 ^ 23 % 256 == 0
  match fp32.decode x with
  | .nan => 2 ^ 8
  | .inf true => 2 ^ 0
  | .inf false => 2 ^ 7
  | .fin neg m _ =>
    if m = 0 then (if neg then 2 ^ 3 else 2 ^ 4)
    else if sub then (if neg then 2 ^ 2 else 2 ^ 5)
    else (if neg then 2 ^ 1 else 2 ^ 6)

/-! ## The 4-bit family (R26-R30) -/

/-- Magnitude in eighths of magnitude index i under block type T (R27, R28). -/
def q4Mag (t i : Nat) : Nat :=
  match t with
  | 0 => 8 * i
  | 1 => [0, 4, 8, 12, 16, 24, 32, 48].getD i 0
  | 2 => [0, 1, 2, 4, 8, 16, 32, 64].getD i 0
  | _ => [0, 8, 16, 24, 32, 48, 64, 96].getD i 0

/-- The fitting magnitude Mfit (R28). -/
def q4Fit (t : Nat) : Nat :=
  match t with
  | 0 => 7
  | 1 => 6
  | 2 => 8
  | _ => 12

/-- decode(T, code) x 2^(E-32) for the scale byte (R26, R27); negative zero codes give +0. -/
def q4Decode (scale code : Nat) : FVal :=
  let t := scale / 64 % 4
  let e : Int := (scale % 64 : Nat)
  let c := code % 16
  if t = 0 then
    (if c < 8 then .fin false c (e - 32) else .fin true (16 - c) (e - 32))
  else
    let m := q4Mag t (c % 8)
    .fin (decide (c ≥ 8) && m != 0) m (e - 32 - 3)

/-- Whether m x 2^e <= k x 2^x, exactly. -/
def leScaled (m : Nat) (e : Int) (k : Nat) (x : Int) : Bool :=
  decide ((alignSum false m e true k x).1 ≤ 0)

/-- The block exponent for a largest magnitude `a` and a fitting magnitude `fit` (R29, R362 step 5). -/
def blockExp (fit : Nat) : FVal → Nat
  | .nan => 0
  | .inf _ => 63
  | .fin _ m e =>
    if m = 0 then 0
    else ((List.range 64).find? fun (x : Nat) => leScaled m e fit ((x : Int) - 32)).getD 63

/-- QSCALE of a largest magnitude (R29). -/
def q4Scale (t : Nat) (amax : FVal) : Nat := t * 64 + blockExp (q4Fit t) amax

/-- The greatest magnitude of a list of FP32 patterns, ignoring NaN; +0 for none (R29). -/
def amaxOf (xs : List Nat) : FVal :=
  xs.foldl (fun acc x =>
    match fp32.decode x with
    | .nan => acc
    | .inf _ => .inf false
    | .fin _ m e => if acc.ltTotal (.fin false m e) then .fin false m e else acc) (.fin false 0 0)

/-- The magnitude index nearest to m x 2^e / 2^(E-32), ties to the even index (R30). -/
def q4Index (t top : Nat) (e32 : Int) (m : Nat) (e : Int) : Nat :=
  ((List.range top).filter fun i =>
    -- the midpoint of indexes i and i+1, in sixteenths
    let mid := q4Mag t i + q4Mag t (i + 1)
    let c := (alignSum false m e true mid (e32 - 4)).1
    decide (c > 0) || (decide (c = 0) && (i + 1) % 2 == 0)).length

/-- QPACK of an FP32 pattern under a scale byte (R30). -/
def q4Pack (scale x : Nat) : Nat :=
  let t := scale / 64 % 4
  let e32 : Int := ((scale % 64 : Nat) : Int) - 32
  let pos (neg : Bool) (i : Nat) : Nat :=
    if i = 0 then 0 else if neg then (if t = 0 then 16 - i else 8 + i) else i
  let top (neg : Bool) : Nat := if t = 0 ∧ neg then 8 else 7
  match fp32.decode x with
  | .nan => 0
  | .inf neg => pos neg (top neg)
  | .fin neg m e => pos neg (q4Index t (top neg) e32 m e)

/-! ## Orders of summation (R36, R37) -/

/-- One level of the pairwise tree: neighbours added, a lone last operand added to the padding `zero`. -/
def treeLevel {α : Type} (add : α → α → α) (zero : α) : List α → List α
  | [] => []
  | [x] => [add x zero]
  | x :: y :: r => add x y :: treeLevel add zero r

/-- Levels of the tree until one value remains; at least one level (R36). -/
def treeGo {α : Type} (add : α → α → α) (zero : α) : Nat → List α → α
  | 0, xs => xs.headD zero
  | n + 1, xs =>
    match treeLevel add zero xs with
    | [] => zero
    | [x] => x
    | ys => treeGo add zero n ys

/-- The pairwise tree over a list (R36). -/
def pairwise {α : Type} (add : α → α → α) (zero : α) (xs : List α) : α := treeGo add zero xs.length xs

/-- Inclusive prefix in order: y0 := x0, yi := add y(i-1) xi (R37). -/
def prefixGo {α : Type} (add : α → α → α) : α → List α → List α
  | _, [] => []
  | acc, x :: xs => let y := add acc x; y :: prefixGo add y xs

def inclusivePrefix {α : Type} (add : α → α → α) : List α → List α
  | [] => []
  | x :: xs => x :: prefixGo add x xs

/-- The canonical form of a pattern: NaNs replaced by the canonical NaN (R21). -/
def Fmt.canon (f : Fmt) (x : Nat) : Nat := if (f.decode x).isNan then f.nanBits else x

/-! ## Activation tables (R32-R35) -/

/-- The header fields of an activation table that ACT uses (R32). -/
structure ActHeader where
  sgn : Nat := 0
  ebits : Nat := 0
  mbits : Nat := 0
  ebase : Nat := 0
  xlo : Nat := 0
  xhi : Nat := 0
deriving DecidableEq, Repr

/-- A segment: c0, c1, c2 and the origin xs (R32). -/
structure ActSegment where
  c0 : Nat := 0
  c1 : Nat := 0
  c2 : Nat := 0
  xs : Nat := 0
deriving DecidableEq, Repr

/-- min(max(x, XLO), XHI) by exact comparison, -0 and +0 kept as given (R34). -/
def actClamp (h : ActHeader) (x : Nat) : Nat :=
  let lo := if (fp32.decode x).lt (fp32.decode h.xlo) then h.xlo else x
  if (fp32.decode h.xhi).lt (fp32.decode lo) then h.xhi else lo

/-- The segment index of a clamped argument (R34). -/
def actIndex (h : ActHeader) (xc : Nat) : Nat :=
  let s := xc / 2 ^ 31 % 2
  let e := xc / 2 ^ 23 % 256
  let m := xc % 2 ^ 23
  let pick : Nat × Nat :=
    if e < h.ebase then (0, 0)
    else if e - h.ebase > 2 ^ h.ebits - 1 then (2 ^ h.ebits - 1, 2 ^ h.mbits - 1)
    else (e - h.ebase, m / 2 ^ (23 - h.mbits))
  (if h.sgn = 1 then s * 2 ^ (h.ebits + h.mbits) else 0) + pick.1 * 2 ^ h.mbits + pick.2

/-- ACT of an FP32 pattern against a header and its 256 segments (R34). -/
def actEval (h : ActHeader) (seg : Nat → ActSegment) (x : Nat) : Nat :=
  if (fp32.decode x).isNan then fp32.nanBits
  else
    let xc := actClamp h x
    let g := seg (actIndex h xc)
    let d := fp32.sub xc g.xs
    let y := fp32.fma g.c2 d g.c1
    fp32.fma y d g.c0

end Sys2Proof.Machine
end

