-- ==== Sys2Proof/Config.lean ====
section
/-!
DEFINITION. Config.lean: what the spec leaves to the implementation or does not give a value for. Every
constant here is opaque: it has no body, so a claim about it holds for every value.
-/

namespace Sys2Proof

/-- Whether the spc atomic with request serial `n` fails spuriously (R110, R231; DESIGN CHOICE, log 12). -/
opaque Config.spuriousFailure : Nat → Bool

/-- The value a spurious failure of the spc atomic with serial `n` returns (R110: "may return a value that
was never current"; DESIGN CHOICE, log 12). -/
opaque Config.spuriousOld : Nat → W64

/-- A register that no liveness record names, after the restore of a block that stopped at a PRE: the spec gives it no value
(R258; DESIGN CHOICE, log 30). -/
opaque Config.unsavedReg : Nat → W32

/-- Byte `a` of a partition's save area after image `n` has spilled into it: the spec gives the image no layout (R261; DESIGN CHOICE,
log 39). -/
opaque Config.imageByte : Nat → Nat → Byte

/-- SHAKE256 with a 64-byte output (R423, R425). The spec names the function and does not define it; DESIGN CHOICE, log 13. -/
opaque Config.shake256 : List Byte → BitVec 512

/-- The secret fused into the control die (R425; DESIGN CHOICE, log 13). -/
opaque Config.fusedSecret : BitVec 256

/-- ML-DSA-65 key generation: the 1952-byte public key of a seed (R425; DESIGN CHOICE, log 13). -/
opaque Config.mldsaPublic : BitVec 256 → List Byte

/-- ML-DSA-65 signature, 3309 bytes, of a message under the key of a seed (R425; DESIGN CHOICE, log 13). -/
opaque Config.mldsaSign : BitVec 256 → List Byte → List Byte

/-- The certificate of a device identity key, at most 5980 bytes, signed with the Kuvex key (R425; DESIGN CHOICE, log 13). -/
opaque Config.certificate : List Byte → List Byte

end Sys2Proof
end

