-- ==== Sys2Proof/Syntax.lean ====
section
/-!
DEFINITION. Syntax.lean: the steps of the Q9, one constructor of `Instr` for each row of
spec/opcode_table.json. A row with an encoding is an instruction word (R71, R87); a row without one is a
step of an engine, of the control complex or of the outside world (95_what_each_step_holds.md), and its
operands carry what the spec leaves to that unit's choice (DESIGN CHOICE, log 1).
-/

namespace Sys2Proof

/-- What a 7-bit register field names (R73). -/
inductive Reg where
  | v (n : Fin 96)
  | s (n : Fin 16)
  | k (n : Fin 6)
  | q (n : Fin 8)
  | z
  | id
deriving DecidableEq, Repr

/-- A predicate index p0-p15 (R74, class P). -/
abbrev Pred := BitVec 4

/-- Memory order ORD (R72). -/
inductive Order where
  | rlx | acq | rel | ar
deriving DecidableEq, Repr

/-- Scope SC, values 0-11 (R72). -/
inductive Scope where
  | fib | quad | gang | blk | clu | sec | die | dev | fab | bank | chan | home
deriving DecidableEq, Repr

/-- Use class USE, values 0-5 (R72, R82). -/
inductive Use where
  | plain | unp | com | nor | qnt | spc
deriving DecidableEq, Repr

/-- Cache hint CH (R72, R224). -/
inductive Hint where
  | normal | strm | keep | nol1
deriving DecidableEq, Repr

/-- Element format of FADD-FMAX (R196). -/
inductive FFmt where
  | f32 | h2 | b2 | d
deriving DecidableEq, Repr

/-- Width of LD and LDS (R223). -/
inductive LdW where
  | b8 | s8 | b16 | s16 | b32 | b64 | b128 | b256
deriving DecidableEq, Repr

/-- Width of ST and STS (R223). -/
inductive StW where
  | b8 | b16 | b32 | b64 | b128 | b256
deriving DecidableEq, Repr

/-- Matrix element formats FMT 0-5 (R88). -/
inductive MFmt where
  | e4e4 | e5e4 | e4q4 | q4q4 | i8i8 | bfbf
deriving DecidableEq, Repr

/-- Format R with two source slots and their policy bits (R71, R81). -/
structure R3 where
  wa : Bool
  wb : Bool
  d : Reg
  a : Reg
  b : Reg
deriving DecidableEq, Repr

/-- Format R with one source slot. -/
structure R2 where
  wa : Bool
  d : Reg
  a : Reg
deriving DecidableEq, Repr

/-- Format I: destination, source and IMM9 (R171). -/
structure RI where
  wa : Bool
  d : Reg
  a : Reg
  imm : BitVec 9
deriving DecidableEq, Repr

/-- Format I with a predicate destination (R172). -/
structure PI where
  wa : Bool
  p : Pred
  a : Reg
  imm : BitVec 9
deriving DecidableEq, Repr

/-- Format R with a predicate destination and two sources (R174, R200, R240). -/
structure PR where
  wa : Bool
  wb : Bool
  p : Pred
  a : Reg
  b : Reg
deriving DecidableEq, Repr

/-- Format W (R173). -/
structure WI where
  d : Reg
  imm : BitVec 18
deriving DecidableEq, Repr

/-- FADD-FMAX: an element format and three slots (R196). -/
structure F3 where
  fmt : FFmt
  wa : Bool
  wb : Bool
  d : Reg
  a : Reg
  b : Reg
deriving DecidableEq, Repr

/-- Three register slots with policy bits required to be 0 (R81): TROLLEY, MXCTL, CARR, MEMX, FAB. -/
structure G3 where
  d : Reg
  a : Reg
  b : Reg
deriving DecidableEq, Repr

/-- Format M, loads (R223). -/
structure LdOp where
  w : LdW
  ord : Order
  sc : Scope
  d : Reg
  a : Reg
  ch : Hint
deriving DecidableEq, Repr

/-- Format M, stores (R223). -/
structure StOp where
  w : StW
  ord : Order
  sc : Scope
  d : Reg
  a : Reg
  ch : Hint
deriving DecidableEq, Repr

/-- Format M, scratchpad loads; CH is 0 (R226). -/
structure LdsOp where
  w : LdW
  ord : Order
  sc : Scope
  d : Reg
  a : Reg
deriving DecidableEq, Repr

/-- Format M, scratchpad stores; CH is 0 (R226). -/
structure StsOp where
  w : StW
  ord : Order
  sc : Scope
  d : Reg
  a : Reg
deriving DecidableEq, Repr

/-- Format M with two registers and no hint: CELL, ARRIVE (R227, R236). -/
structure MOp where
  ord : Order
  sc : Scope
  d : Reg
  a : Reg
deriving DecidableEq, Repr

/-- Format M, prefetch (R247). -/
structure PfOp where
  ord : Order
  sc : Scope
  a : Reg
  ch : Hint
deriving DecidableEq, Repr

/-- Format M with an order and a scope only: FENCE, BAR (R233, R235). -/
structure SyncOp where
  ord : Order
  sc : Scope
deriving DecidableEq, Repr

/-- Format X (R229). -/
structure AtomOp where
  ord : Order
  sc : Scope
  d : Reg
  a : Reg
  use : Use
deriving DecidableEq, Repr

/-- Format MX, register fragment (R344). -/
structure MmaROp where
  fmt : MFmt
  bsel : BitVec 2
  d : Reg
  a : Reg
  b : Reg
deriving DecidableEq, Repr

/-- Format MX, scratchpad tile; BSEL is 0 (R344). -/
structure MmaSOp where
  fmt : MFmt
  d : Reg
  a : Reg
  b : Reg
deriving DecidableEq, Repr

/-- Names a fibre: slot `slot` of the block with serial `block` (R138), the access processor of a core
(R311), or a control core (R416). -/
inductive FKey where
  | fib (block slot : Nat)
  | ap (core : Nat)
  | ctl (n : Nat)
deriving DecidableEq, Repr

/-- What one element of a fabric packet asks of its destination (R391, R403). -/
inductive PacketReq where
  | read (n : Nat)
  | write (data : List Byte)
  | atomic (op : Nat) (wide : Bool) (operand expected : W64)
  | cellStore (md : Bool) (seq : BitVec 32) (value : W64)
  | cellLoad
  | leaseRequest (us : Nat)
  | leaseRenew (us : Nat)
  | writeBack (gen : BitVec 16) (line : List (Nat × Byte))
  | leaseDrop (gen : BitVec 16)
  | expiryNotice
deriving DecidableEq, Repr

/-- One element of a packet: its physical address, its lease class and its request (R391), and its order at fabric scope, which
says whether its agent releases with it or acquires (R103, R104; DESIGN CHOICE, log 66). -/
structure PacketElem where
  addr : Nat
  lclass : Nat
  what : PacketReq
  ord : Order := .rlx
deriving DecidableEq, Repr

/-- A packet of the fabric (R398, R401): source and destination with incarnations, traffic class, sequence
number, tenant, elements, and the intermediate it still goes to first on a non-minimal path (R395). -/
structure Packet where
  src : Nat
  dst : Nat
  cls : Nat
  seq : Nat
  srcInc : BitVec 32
  dstInc : BitVec 32
  tenant : Nat
  elems : List PacketElem
  via : Option Nat := none
deriving DecidableEq, Repr

/-- A firmware image as the boot ROM meets it (R423): its bytes and the outcome of its checks. -/
structure BootImage where
  bytes : List Byte
  signed : Bool
  wellFormed : Bool
deriving DecidableEq, Repr

/-- The operands of a step that has no instruction word. Such a step is not issued by a program: its unit, and
whatever the spec leaves to that unit, to the control complex or to the outside world, is plain data of the machine
(DESIGN CHOICE, log 1). Each meaning says which of these fields it reads. -/
structure StepArgs where
  fibre : FKey := .ap 0
  reg : Reg := .z
  unit : Nat := 0
  sub : Nat := 0
  item : Nat := 0
  opt : Option Nat := none
  word : W64 := 0
  nats : List Nat := []
  bytes : List Byte := []
  packet : Option Packet := none
  images : List BootImage := []
deriving DecidableEq, Repr

/-- One constructor for each row of spec/opcode_table.json: the instruction words in the table's order, then the steps
that have no word, in the table's order. -/
inductive Instr where
  -- SYS (R185-R189)
  | nop (bits : BitVec 23)
  | trap (code : BitVec 14)
  | eret
  | bkpt
  | pre (i : BitVec 14)
  | idem (r : BitVec 7) (stop : Bool)
  | rdsr (d : Reg) (n : BitVec 14)
  | wrsr (d : Reg) (n : BitVec 14)
  -- IALU.A (R167)
  | add (o : R3) | sub (o : R3) | and (o : R3) | or (o : R3) | xor (o : R3) | andn (o : R3)
  | min (o : R3) | max (o : R3)
  -- IALU.B (R168)
  | minn (o : R3) | maxn (o : R3) | shl (o : R3) | shr (o : R3) | sar (o : R3) | rol (o : R3)
  | absd (o : R3) | bfe (o : R3)
  -- IALU.C (R169)
  | mul (o : R3) | mulh (o : R3) | mulhn (o : R3) | mad (o : R3) | clz (o : R2) | popc (o : R2)
  | brev (o : R2) | bfi (o : R3)
  -- IALU.W (R170)
  | add64 (o : R3) | sub64 (o : R3) | shl64 (o : R3) | shr64 (o : R3) | madw (o : R3) | madws (o : R3)
  | mov64 (o : R2) | sext64 (o : R2)
  -- MOVE (R176)
  | mov (o : R2) | rdl (d : Reg) | bcs (o : R2) | rdp (d : Reg) | wrp (wa : Bool) (a : Reg)
  | sel (wa : Bool) (d a : Reg) (p : Pred) | rdw (d : Reg)
  -- IMM.A, IMM.B, IMM.C (R171, R172)
  | addi (o : RI) | andi (o : RI) | ori (o : RI) | xori (o : RI)
  | shli (o : RI) | shri (o : RI) | sari (o : RI) | muli (o : RI)
  | cmpiEq (o : PI) | cmpiLt (o : PI) | cmpiLtn (o : PI) | cmpiLe (o : PI)
  -- WIDE (R173)
  | ldi (o : WI) | ldih (o : WI)
  -- CMP (R174), FCMP (R200)
  | cmpEq (o : PR) | cmpNe (o : PR) | cmpLt (o : PR) | cmpLe (o : PR) | cmpLtn (o : PR) | cmpLen (o : PR)
  | tst (o : PR)
  | fcmpEq (o : PR) | fcmpLt (o : PR) | fcmpLe (o : PR) | fcmpUn (o : PR)
  -- PRED (R175)
  | pand (d a b : Pred) | por (d a b : Pred) | pxor (d a b : Pred) | pandn (d a b : Pred)
  | pnot (d a : Pred) | pset (d : Pred) | pclr (d : Pred)
  -- BRANCH (R177)
  | brp (neg : Bool) (p : Pred) (off : BitVec 19) | bra (off : BitVec 19) | call (off : BitVec 19)
  -- CTL (R178-R184)
  | jmpr (wa : Bool) (a : Reg) | callr (wa : Bool) (a : Reg) | ret | reconv | fork (o : R3) | endF
  | wbase (n : BitVec 4) | trl (o : R3)
  -- FADD-FMAX (R196)
  | fadd (o : F3) | fsub (o : F3) | fmul (o : F3) | ffma (o : F3) | fmin (o : F3) | fmax (o : F3)
  -- FMISC (R198, R199)
  | fabs (o : R2) | fneg (o : R2) | fclass (o : R2) | frndN (o : R2) | frndZ (o : R2) | frndD (o : R2)
  | frndU (o : R2) | fscale (o : R3)
  -- CVT (R201), CVT8 (R202), Q4 (R203-R205)
  | cvtFS (o : R2) | cvtSF (o : R2) | cvtFN (o : R2) | cvtNF (o : R2) | packH2 (o : R3) | packB2 (o : R3)
  | unpkH (o : R2) | unpkB (o : R2)
  | packE4 (o : R3) | packE5 (o : R3) | unpkE4 (o : R2) | unpkE5 (o : R2) | packI8 (o : R3) | unpkI8 (o : R2)
  | qscale (o : R3) | qpack (o : R3) | qunpk (o : R3)
  -- SFU (R206-R209)
  | rcp (o : R2) | rsq (o : R2) | sqrt (o : R2) | div (o : R3) | act (o : R2) (t : BitVec 3)
  | actld (wa : Bool) (a : Reg) (t : BitVec 3) | actsw (t : BitVec 3)
  -- QUAD (R213)
  | qxh (o : R2) | qxv (o : R2) | qxd (o : R2) | qbc (o : R3) | qadd (o : R2) | qmax (o : R2) | qmin (o : R2)
  | qhlp (p : Pred)
  -- XLANE (R216), GCOLL (R217)
  | shflIdx (o : R3) | shflUp (o : R3) | shflDn (o : R3) | shflXor (o : R3) | bcast (o : R3)
  | voteAny (d a : Pred) | voteAll (d a : Pred) | ballot (d : Reg) (a : Pred)
  | gredFadd (o : R2) | gredIadd (o : R2) | gredFmax (o : R2) | gredFmin (o : R2) | gscanFadd (o : R2)
  | gscanIadd (o : R2) | matchV (o : R2)
  -- LD, ST, LDS, STS, CELL (R223-R227)
  | ld (o : LdOp) | st (o : StOp) | lds (o : LdsOp) | sts (o : StsOp) | ldc (o : MOp) | stc (o : MOp)
  | stcMd (o : MOp)
  -- ATOM.A, ATOM.B (R229-R231)
  | aadd (o : AtomOp) | afadd (o : AtomOp) | amin (o : AtomOp) | amax (o : AtomOp) | aminn (o : AtomOp)
  | amaxn (o : AtomOp) | aand (o : AtomOp) | aor (o : AtomOp) | axor (o : AtomOp) | axch (o : AtomOp)
  | acas (o : AtomOp) | ainc (o : AtomOp) | aadd64 (o : AtomOp) | acas64 (o : AtomOp) | axch64 (o : AtomOp)
  | ahadd (o : AtomOp)
  -- SYNC (R233-R238)
  | fence (o : SyncOp) | cflush | bar (o : SyncOp) | arrive (o : MOp) | arriveBk (o : MOp) | rfence | invl1
  -- WAIT (R239-R243)
  | twph (o : PR) | twtl (wb : Bool) (p : Pred) (t : BitVec 3) (b : Reg) | twge (o : PR)
  | tlrd (d : Reg) (t : BitVec 3)
  -- AP (R244-R246, R312-R314)
  | apgo (o : R3) | apstop | qstat (d : Reg) (q : BitVec 3) | qdrain (q : BitVec 3)
  | qbind (wa : Bool) (a : Reg) (q : BitVec 3) | qreq (o : R3) | qwr (o : R3) | apend
  -- PF (R247)
  | pfL1 (o : PfOp) | pfL2 (o : PfOp)
  -- TROLLEY (R299-R309)
  | tcpy (o : G3) | tgath (o : G3) | tscat (o : G3) | tfill (o : G3) | tred (o : G3)
  -- MMA (R348-R351), MXCTL (R353-R359), CARR (R360-R365)
  | mmaR (o : MmaROp) | mmaS (o : MmaSOp) | mmapR (o : MmaROp) | mmapS (o : MmaSOp)
  | mxacq | mxrel | mxdrain (o : G3) | mxzero (d : Reg) (i : Bool) | mxacqP | mxrelP | mxstat (d : Reg)
  | cralloc (d a : Reg) | crload (o : G3) | crldv (o : G3) | crpin (a : Reg) | crunpin (a : Reg)
  | crfree (a : Reg) | crstat (d a : Reg) | crdetach (a : Reg)
  -- MEMX (R372-R385)
  | bxc (o : G3) | rdx (d a : Reg) | ssconv (o : G3)
  -- FAB (R408-R412), LNCH (R190-R193)
  | devid (d a : Reg) | wlease (o : G3) | wrenew (o : G3) | wdrop (a : Reg) | cstat (d : Reg)
  | launch (o : R3) | lqstat (o : R2)
  -- steps with no instruction word; their operands stand in `StepArgs`
  | tryWaitHintExpiry | queueEntryFilled | trolleyChunkDelivered | trolleyOperationComplete
  | carriageLoadComplete | accumulatorAbsorb | drainTilePerform | sum | axpy | maxv | copy | fill | aop
  | waitflag | setflag | waitflagLimitExpiry | bankCommandComplete | bankDrainApply | stackReduction
  | sqpeakRead | sqspillRead | registerFill | coachForm | reconvWindowExpiry | timerExpiry | faultServiceMap
  | faultServiceReject | parkTimeout | nativeSwitchOut | launchDependenceMet | blockPlace | stopDeadline
  | blockSave | blockRestore | blockRetire | rollback | debugStop | debugRegisterWrite | debugRelease
  | actTableLoadDone | tlbWalkComplete | sliceRequestAccept | spillReturn | homeWritePerform
  | wayGroupConverted | wayGroupRestored | scrubStep | thermLt1 | thermLt2 | thermLt3 | thermActionEnd
  | thermctlWrite | powerClockStep | cartAgeExpiry | cartSend | elementStatus | packetArrival | transitForward
  | linkReplay | e2eAck | e2eTimeout | portFailure | peerRejoin | writeLeaseExpiry | holderLeaseExpiry
  | orphanClear | powerOn | hostDoorbell | cxlMemRead | cxlMemWrite | attestReport | attestCertificate
  | partcfgWrite | shadowUndoDrainDone | fotEntryWrite | granuleZeroingDone | controlWindowWrite
  | ethernetFrame | contextSwitchRequest | tlbInvalidation
deriving DecidableEq, Repr

/-- Steps with no instruction word: the rows of the table that carry no encoding. -/
def Instr.isEvent : Instr → Bool
  | .tryWaitHintExpiry | .queueEntryFilled | .trolleyChunkDelivered | .trolleyOperationComplete
  | .carriageLoadComplete | .accumulatorAbsorb | .drainTilePerform | .sum | .axpy | .maxv | .copy | .fill
  | .aop | .waitflag | .setflag | .waitflagLimitExpiry | .bankCommandComplete | .bankDrainApply
  | .stackReduction | .sqpeakRead | .sqspillRead | .registerFill | .coachForm | .reconvWindowExpiry
  | .timerExpiry | .faultServiceMap | .faultServiceReject | .parkTimeout | .nativeSwitchOut
  | .launchDependenceMet | .blockPlace | .stopDeadline | .blockSave | .blockRestore | .blockRetire | .rollback
  | .debugStop | .debugRegisterWrite | .debugRelease | .actTableLoadDone | .tlbWalkComplete
  | .sliceRequestAccept | .spillReturn | .homeWritePerform | .wayGroupConverted | .wayGroupRestored
  | .scrubStep | .thermLt1 | .thermLt2 | .thermLt3 | .thermActionEnd | .thermctlWrite | .powerClockStep
  | .cartAgeExpiry | .cartSend | .elementStatus | .packetArrival | .transitForward | .linkReplay | .e2eAck
  | .e2eTimeout | .portFailure | .peerRejoin | .writeLeaseExpiry | .holderLeaseExpiry | .orphanClear | .powerOn
  | .hostDoorbell | .cxlMemRead | .cxlMemWrite | .attestReport | .attestCertificate | .partcfgWrite
  | .shadowUndoDrainDone | .fotEntryWrite | .granuleZeroingDone | .controlWindowWrite | .ethernetFrame
  | .contextSwitchRequest | .tlbInvalidation => true
  | _ => false

end Sys2Proof
end

