-- ==== Sys2Proof/Decode.lean ====
section
/-!
DEFINITION. Decode.lean: the instruction words (R71, R72, R87), total on any word. A word that is not an
instruction is refused under the name of the trap of R92 that its own bits decide: ILL_OPC (check 1), ILL_FIELD
(check 2), ILL_OPND for a P-class field above 15 (R74), ILL_ORD for an order on a word that takes none (R82). What
depends on the fibre (declared registers, role, privilege) is checked when the word is issued. The encoder
stands after the decoder.
-/

namespace Sys2Proof

/-- Why a word is refused. -/
inductive Ill where
  | illOpc | illField | illOpnd | illOrd
deriving DecidableEq, Repr

/-- Bits [hi:lo] of a word, as a number (R11). -/
def fieldOf (w hi lo : Nat) : Nat := w / 2 ^ lo % 2 ^ (hi - lo + 1)

/-- A register field (R73). -/
def Reg.ofField (n : Nat) : Reg :=
  if h : n < 96 then .v ⟨n, h⟩
  else if h : n < 112 then .s ⟨n - 96, by omega⟩
  else if h : n < 118 then .k ⟨n - 112, by omega⟩
  else if h : n < 126 then .q ⟨n - 118, by omega⟩
  else if n = 126 then .z else .id

/-- ORD (R72). -/
def Order.ofField : Nat → Order
  | 0 => .rlx | 1 => .acq | 2 => .rel | _ => .ar

/-- SC, values 0-11; 12-15 are reserved (R72). -/
def Scope.ofField : Nat → Option Scope
  | 0 => some .fib | 1 => some .quad | 2 => some .gang | 3 => some .blk | 4 => some .clu | 5 => some .sec
  | 6 => some .die | 7 => some .dev | 8 => some .fab | 9 => some .bank | 10 => some .chan | 11 => some .home
  | _ => none

/-- USE, values 0-5; 6-7 are reserved (R72). -/
def Use.ofField : Nat → Option Use
  | 0 => some .plain | 1 => some .unp | 2 => some .com | 3 => some .nor | 4 => some .qnt | 5 => some .spc
  | _ => none

/-- CH (R72). -/
def Hint.ofField : Nat → Hint
  | 0 => .normal | 1 => .strm | 2 => .keep | _ => .nol1

/-- The minor of FADD-FMAX (R196). -/
def FFmt.ofField : Nat → Option FFmt
  | 0 => some .f32 | 1 => some .h2 | 2 => some .b2 | 3 => some .d | _ => none

/-- The minor of LD and LDS (R223). -/
def LdW.ofField : Nat → LdW
  | 0 => .b8 | 1 => .s8 | 2 => .b16 | 3 => .s16 | 4 => .b32 | 5 => .b64 | 6 => .b128 | _ => .b256

/-- The minor of ST and STS; 6 and 7 are reserved (R223). -/
def StW.ofField : Nat → Option StW
  | 0 => some .b8 | 1 => some .b16 | 2 => some .b32 | 3 => some .b64 | 4 => some .b128 | 5 => some .b256
  | _ => none

/-- FMT; 6 and 7 are reserved (R88). -/
def MFmt.ofField : Nat → Option MFmt
  | 0 => some .e4e4 | 1 => some .e5e4 | 2 => some .e4q4 | 3 => some .q4q4 | 4 => some .i8i8 | 5 => some .bfbf
  | _ => none

/-- The raw fields of format R (R71). -/
structure RawR where
  wa : Bool
  wb : Bool
  d : Nat
  a : Nat
  b : Nat

/-- The raw fields of formats M and X (R71); `low` is bits [2:0]: WA[2] CH[1:0], or USE. -/
structure RawM where
  ord : Nat
  sc : Nat
  d : Nat
  a : Nat
  low : Nat

/-- Format R. -/
def rawR (w : Nat) : RawR :=
  ⟨fieldOf w 22 22 == 1, fieldOf w 21 21 == 1, fieldOf w 20 14, fieldOf w 13 7, fieldOf w 6 0⟩

/-- Formats M and X. -/
def rawM (w : Nat) : RawM :=
  ⟨fieldOf w 22 21, fieldOf w 20 17, fieldOf w 16 10, fieldOf w 9 3, fieldOf w 2 0⟩

/-- The result of the two checks a word's own bits decide: field values (check 2) before P-class fields (check 3). -/
def verdict (fieldsOk predsOk : Bool) (i : Instr) : Except Ill Instr :=
  if fieldsOk then (if predsOk then .ok i else .error .illOpnd) else .error .illField

/-- Three register slots. -/
def RawR.r3 (r : RawR) (c : R3 → Instr) : Except Ill Instr :=
  .ok (c ⟨r.wa, r.wb, Reg.ofField r.d, Reg.ofField r.a, Reg.ofField r.b⟩)

/-- Destination and source A; B and WB are unused (R79). -/
def RawR.r2 (r : RawR) (c : R2 → Instr) : Except Ill Instr :=
  verdict (r.b == 0 && !r.wb) true (c ⟨r.wa, Reg.ofField r.d, Reg.ofField r.a⟩)

/-- Destination only. -/
def RawR.r1 (r : RawR) (c : Reg → Instr) : Except Ill Instr :=
  verdict (r.a == 0 && r.b == 0 && !r.wa && !r.wb) true (c (Reg.ofField r.d))

/-- Source A only. -/
def RawR.srcA (r : RawR) (c : Bool → Reg → Instr) : Except Ill Instr :=
  verdict (r.d == 0 && r.b == 0 && !r.wb) true (c r.wa (Reg.ofField r.a))

/-- No operand. -/
def RawR.r0 (r : RawR) (i : Instr) : Except Ill Instr :=
  verdict (r.d == 0 && r.a == 0 && r.b == 0 && !r.wa && !r.wb) true i

/-- A predicate destination and two sources. -/
def RawR.pr (r : RawR) (c : PR → Instr) : Except Ill Instr :=
  verdict true (r.d < 16) (c ⟨r.wa, r.wb, BitVec.ofNat 4 r.d, Reg.ofField r.a, Reg.ofField r.b⟩)

/-- Three predicates; policy bits must be 0 (R81). -/
def RawR.p3 (r : RawR) (c : Pred → Pred → Pred → Instr) : Except Ill Instr :=
  verdict (!r.wa && !r.wb) (r.d < 16 && r.a < 16 && r.b < 16)
    (c (BitVec.ofNat 4 r.d) (BitVec.ofNat 4 r.a) (BitVec.ofNat 4 r.b))

/-- Two predicates. -/
def RawR.p2 (r : RawR) (c : Pred → Pred → Instr) : Except Ill Instr :=
  verdict (r.b == 0 && !r.wa && !r.wb) (r.d < 16 && r.a < 16) (c (BitVec.ofNat 4 r.d) (BitVec.ofNat 4 r.a))

/-- One predicate. -/
def RawR.p1 (r : RawR) (c : Pred → Instr) : Except Ill Instr :=
  verdict (r.a == 0 && r.b == 0 && !r.wa && !r.wb) (r.d < 16) (c (BitVec.ofNat 4 r.d))

/-- Three register slots, policy bits required to be 0 (R81). -/
def RawR.g3 (r : RawR) (c : G3 → Instr) : Except Ill Instr :=
  verdict (!r.wa && !r.wb) true (c ⟨Reg.ofField r.d, Reg.ofField r.a, Reg.ofField r.b⟩)

/-- D and A, policy bits 0, B unused. -/
def RawR.g2 (r : RawR) (c : Reg → Reg → Instr) : Except Ill Instr :=
  verdict (r.b == 0 && !r.wa && !r.wb) true (c (Reg.ofField r.d) (Reg.ofField r.a))

/-- A only, policy bits 0. -/
def RawR.g1 (r : RawR) (c : Reg → Instr) : Except Ill Instr :=
  verdict (r.d == 0 && r.b == 0 && !r.wa && !r.wb) true (c (Reg.ofField r.a))

/-- SYS (R78, R185-R189). -/
def decSys (mn : Nat) (r : RawR) (w : Nat) : Except Ill Instr :=
  let n : BitVec 14 := BitVec.ofNat 14 (r.a * 128 + r.b)
  match mn with
  | 0 => .ok (.nop (BitVec.ofNat 23 (fieldOf w 22 0)))
  | 1 => verdict (r.d == 0 && !r.wa && !r.wb) true (.trap n)
  | 2 => r.r0 .eret
  | 3 => r.r0 .bkpt
  | 4 => verdict (r.d == 0 && !r.wa && !r.wb) true (.pre n)
  | 5 => verdict (r.d == 0 && r.b < 2 && !r.wa && !r.wb) true (.idem (BitVec.ofNat 7 r.a) (r.b == 1))
  | 6 => verdict (!r.wa && !r.wb) true (.rdsr (Reg.ofField r.d) n)
  | _ => verdict (!r.wa && !r.wb) true (.wrsr (Reg.ofField r.d) n)

/-- IALU.A (R167). -/
def decIaluA (mn : Nat) (r : RawR) : Except Ill Instr :=
  match mn with
  | 0 => r.r3 .add | 1 => r.r3 .sub | 2 => r.r3 .and | 3 => r.r3 .or
  | 4 => r.r3 .xor | 5 => r.r3 .andn | 6 => r.r3 .min | _ => r.r3 .max

/-- IALU.B (R168). -/
def decIaluB (mn : Nat) (r : RawR) : Except Ill Instr :=
  match mn with
  | 0 => r.r3 .minn | 1 => r.r3 .maxn | 2 => r.r3 .shl | 3 => r.r3 .shr
  | 4 => r.r3 .sar | 5 => r.r3 .rol | 6 => r.r3 .absd | _ => r.r3 .bfe

/-- IALU.C (R169). -/
def decIaluC (mn : Nat) (r : RawR) : Except Ill Instr :=
  match mn with
  | 0 => r.r3 .mul | 1 => r.r3 .mulh | 2 => r.r3 .mulhn | 3 => r.r3 .mad
  | 4 => r.r2 .clz | 5 => r.r2 .popc | 6 => r.r2 .brev | _ => r.r3 .bfi

/-- IALU.W (R170). -/
def decIaluW (mn : Nat) (r : RawR) : Except Ill Instr :=
  match mn with
  | 0 => r.r3 .add64 | 1 => r.r3 .sub64 | 2 => r.r3 .shl64 | 3 => r.r3 .shr64
  | 4 => r.r3 .madw | 5 => r.r3 .madws | 6 => r.r2 .mov64 | _ => r.r2 .sext64

/-- MOVE (R176). -/
def decMove (mn : Nat) (r : RawR) : Except Ill Instr :=
  match mn with
  | 0 => r.r2 .mov
  | 1 => r.r1 .rdl
  | 2 => r.r2 .bcs
  | 3 => r.r1 .rdp
  | 4 => r.srcA .wrp
  | 5 => verdict (!r.wb) (r.b < 16) (.sel r.wa (Reg.ofField r.d) (Reg.ofField r.a) (BitVec.ofNat 4 r.b))
  | 6 => r.r1 .rdw
  | _ => .error .illOpc

/-- Format I, register destination. -/
def decImm (w : Nat) (c : RI → Instr) : Except Ill Instr :=
  .ok (c ⟨fieldOf w 23 23 == 1, Reg.ofField (fieldOf w 22 16), Reg.ofField (fieldOf w 15 9),
    BitVec.ofNat 9 (fieldOf w 8 0)⟩)

/-- Format I, shift immediate 0-31 (R79). -/
def decShiftImm (w : Nat) (c : RI → Instr) : Except Ill Instr :=
  if fieldOf w 8 0 < 32 then decImm w c else .error .illField

/-- Format I, predicate destination (R172). -/
def decCmpi (w : Nat) (c : PI → Instr) : Except Ill Instr :=
  verdict true (fieldOf w 22 16 < 16) (c ⟨fieldOf w 23 23 == 1, BitVec.ofNat 4 (fieldOf w 22 16),
    Reg.ofField (fieldOf w 15 9), BitVec.ofNat 9 (fieldOf w 8 0)⟩)

/-- IMM.A (R171). -/
def decImmA (w : Nat) : Except Ill Instr :=
  match fieldOf w 25 24 with
  | 0 => decImm w .addi | 1 => decImm w .andi | 2 => decImm w .ori | _ => decImm w .xori

/-- IMM.B (R171). -/
def decImmB (w : Nat) : Except Ill Instr :=
  match fieldOf w 25 24 with
  | 0 => decShiftImm w .shli | 1 => decShiftImm w .shri | 2 => decShiftImm w .sari | _ => decImm w .muli

/-- IMM.C (R172). -/
def decImmC (w : Nat) : Except Ill Instr :=
  match fieldOf w 25 24 with
  | 0 => decCmpi w .cmpiEq | 1 => decCmpi w .cmpiLt | 2 => decCmpi w .cmpiLtn | _ => decCmpi w .cmpiLe

/-- WIDE (R173). -/
def decWide (w : Nat) : Except Ill Instr :=
  let o : WI := ⟨Reg.ofField (fieldOf w 24 18), BitVec.ofNat 18 (fieldOf w 17 0)⟩
  if fieldOf w 25 25 == 0 then .ok (.ldi o) else .ok (.ldih o)

/-- CMP (R174). -/
def decCmp (mn : Nat) (r : RawR) : Except Ill Instr :=
  match mn with
  | 0 => r.pr .cmpEq | 1 => r.pr .cmpNe | 2 => r.pr .cmpLt | 3 => r.pr .cmpLe
  | 4 => r.pr .cmpLtn | 5 => r.pr .cmpLen | 6 => r.pr .tst | _ => .error .illOpc

/-- FCMP (R200). -/
def decFcmp (mn : Nat) (r : RawR) : Except Ill Instr :=
  match mn with
  | 0 => r.pr .fcmpEq | 1 => r.pr .fcmpLt | 2 => r.pr .fcmpLe | 3 => r.pr .fcmpUn | _ => .error .illOpc

/-- PRED (R175). -/
def decPred (mn : Nat) (r : RawR) : Except Ill Instr :=
  match mn with
  | 0 => r.p3 .pand | 1 => r.p3 .por | 2 => r.p3 .pxor | 3 => r.p3 .pandn
  | 4 => r.p2 .pnot | 5 => r.p1 .pset | 6 => r.p1 .pclr | _ => .error .illOpc

/-- BRANCH (R177). -/
def decBranch (w : Nat) : Except Ill Instr :=
  let neg := fieldOf w 23 23 == 1
  let p := fieldOf w 22 19
  let off : BitVec 19 := BitVec.ofNat 19 (fieldOf w 18 0)
  match fieldOf w 25 24 with
  | 0 => .ok (.brp neg (BitVec.ofNat 4 p) off)
  | 1 => verdict (!neg && p == 0) true (.bra off)
  | 2 => verdict (!neg && p == 0) true (.call off)
  | _ => .error .illOpc

/-- CTL (R178-R184). TRL with WA or WB set decodes: the lists of R49 and R81 do not name it (DESIGN CHOICE, log 64). -/
def decCtl (mn : Nat) (r : RawR) : Except Ill Instr :=
  match mn with
  | 0 => r.srcA .jmpr
  | 1 => r.srcA .callr
  | 2 => r.r0 .ret
  | 3 => r.r0 .reconv
  | 4 => r.r3 .fork
  | 5 => r.r0 .endF
  | 6 => verdict (r.d == 0 && r.b == 0 && r.a < 16 && !r.wa && !r.wb) true (.wbase (BitVec.ofNat 4 r.a))
  | _ => r.r3 .trl

/-- FADD-FMAX (R196). -/
def decF3 (mn : Nat) (r : RawR) (c : F3 → Instr) : Except Ill Instr :=
  match FFmt.ofField mn with
  | some f => .ok (c ⟨f, r.wa, r.wb, Reg.ofField r.d, Reg.ofField r.a, Reg.ofField r.b⟩)
  | none => .error .illOpc

/-- FMISC (R198). -/
def decFmisc (mn : Nat) (r : RawR) : Except Ill Instr :=
  match mn with
  | 0 => r.r2 .fabs | 1 => r.r2 .fneg | 2 => r.r2 .fclass | 3 => r.r2 .frndN
  | 4 => r.r2 .frndZ | 5 => r.r2 .frndD | 6 => r.r2 .frndU | _ => r.r3 .fscale

/-- CVT (R201). -/
def decCvt (mn : Nat) (r : RawR) : Except Ill Instr :=
  match mn with
  | 0 => r.r2 .cvtFS | 1 => r.r2 .cvtSF | 2 => r.r2 .cvtFN | 3 => r.r2 .cvtNF
  | 4 => r.r3 .packH2 | 5 => r.r3 .packB2 | 6 => r.r2 .unpkH | _ => r.r2 .unpkB

/-- CVT8 (R202). -/
def decCvt8 (mn : Nat) (r : RawR) : Except Ill Instr :=
  match mn with
  | 0 => r.r3 .packE4 | 1 => r.r3 .packE5 | 2 => r.r2 .unpkE4 | 3 => r.r2 .unpkE5
  | 4 => r.r3 .packI8 | 5 => r.r2 .unpkI8 | _ => .error .illOpc

/-- Q4 (R203-R205). -/
def decQ4 (mn : Nat) (r : RawR) : Except Ill Instr :=
  match mn with
  | 0 => r.r3 .qscale | 1 => r.r3 .qpack | 2 => r.r3 .qunpk | _ => .error .illOpc

/-- SFU (R206-R209). The table number stands in B, 0-7, and WB must be 0 (R79, R81). -/
def decSfu (mn : Nat) (r : RawR) : Except Ill Instr :=
  let t : BitVec 3 := BitVec.ofNat 3 r.b
  let tOk : Bool := r.b < 8 && !r.wb
  match mn with
  | 0 => r.r2 .rcp
  | 1 => r.r2 .rsq
  | 2 => r.r2 .sqrt
  | 3 => r.r3 .div
  | 4 => verdict tOk true (.act ⟨r.wa, Reg.ofField r.d, Reg.ofField r.a⟩ t)
  | 5 => verdict (tOk && r.d == 0) true (.actld r.wa (Reg.ofField r.a) t)
  | 6 => verdict (tOk && r.d == 0 && r.a == 0 && !r.wa) true (.actsw t)
  | _ => .error .illOpc

/-- QUAD (R213). -/
def decQuad (mn : Nat) (r : RawR) : Except Ill Instr :=
  match mn with
  | 0 => r.r2 .qxh | 1 => r.r2 .qxv | 2 => r.r2 .qxd | 3 => r.r3 .qbc
  | 4 => r.r2 .qadd | 5 => r.r2 .qmax | 6 => r.r2 .qmin | _ => r.p1 .qhlp

/-- XLANE (R216). -/
def decXlane (mn : Nat) (r : RawR) : Except Ill Instr :=
  match mn with
  | 0 => r.r3 .shflIdx | 1 => r.r3 .shflUp | 2 => r.r3 .shflDn | 3 => r.r3 .shflXor | 4 => r.r3 .bcast
  | 5 => r.p2 .voteAny
  | 6 => r.p2 .voteAll
  | _ => verdict (r.b == 0 && !r.wa && !r.wb) (r.a < 16) (.ballot (Reg.ofField r.d) (BitVec.ofNat 4 r.a))

/-- GCOLL (R217). -/
def decGcoll (mn : Nat) (r : RawR) : Except Ill Instr :=
  match mn with
  | 0 => r.r2 .gredFadd | 1 => r.r2 .gredIadd | 2 => r.r2 .gredFmax | 3 => r.r2 .gredFmin
  | 4 => r.r2 .gscanFadd | 5 => r.r2 .gscanIadd | 6 => r.r2 .matchV | _ => .error .illOpc

/-- A scope of formats M and X; reserved values and a set bit 2 or hint that is not admitted raise ILL_FIELD (R83). -/
def RawM.scoped (r : RawM) (lowOk : Bool) (c : Scope → Instr) : Except Ill Instr :=
  match Scope.ofField r.sc with
  | some sc => if lowOk then .ok (c sc) else .error .illField
  | none => .error .illField

/-- LD (R223). -/
def decLd (mn : Nat) (r : RawM) : Except Ill Instr :=
  r.scoped (r.low < 4) fun sc =>
    .ld ⟨LdW.ofField mn, Order.ofField r.ord, sc, Reg.ofField r.d, Reg.ofField r.a, Hint.ofField r.low⟩

/-- ST (R223). -/
def decSt (mn : Nat) (r : RawM) : Except Ill Instr :=
  match StW.ofField mn with
  | some w => r.scoped (r.low < 4) fun sc =>
      .st ⟨w, Order.ofField r.ord, sc, Reg.ofField r.d, Reg.ofField r.a, Hint.ofField r.low⟩
  | none => .error .illOpc

/-- LDS (R226). -/
def decLds (mn : Nat) (r : RawM) : Except Ill Instr :=
  r.scoped (r.low == 0) fun sc =>
    .lds ⟨LdW.ofField mn, Order.ofField r.ord, sc, Reg.ofField r.d, Reg.ofField r.a⟩

/-- STS (R226). -/
def decSts (mn : Nat) (r : RawM) : Except Ill Instr :=
  match StW.ofField mn with
  | some w => r.scoped (r.low == 0) fun sc =>
      .sts ⟨w, Order.ofField r.ord, sc, Reg.ofField r.d, Reg.ofField r.a⟩
  | none => .error .illOpc

/-- A word of format M with two registers and CH 0. -/
def RawM.mop (r : RawM) (c : MOp → Instr) : Except Ill Instr :=
  r.scoped (r.low == 0) fun sc => c ⟨Order.ofField r.ord, sc, Reg.ofField r.d, Reg.ofField r.a⟩

/-- CELL (R227). -/
def decCell (mn : Nat) (r : RawM) : Except Ill Instr :=
  match mn with
  | 0 => r.mop .ldc | 1 => r.mop .stc | 2 => r.mop .stcMd | _ => .error .illOpc

/-- A word of format X (R229). -/
def RawM.atom (r : RawM) (c : AtomOp → Instr) : Except Ill Instr :=
  match Use.ofField r.low with
  | some u => r.scoped true fun sc => c ⟨Order.ofField r.ord, sc, Reg.ofField r.d, Reg.ofField r.a, u⟩
  | none => .error .illField

/-- ATOM.A (R230). -/
def decAtomA (mn : Nat) (r : RawM) : Except Ill Instr :=
  match mn with
  | 0 => r.atom .aadd | 1 => r.atom .afadd | 2 => r.atom .amin | 3 => r.atom .amax
  | 4 => r.atom .aminn | 5 => r.atom .amaxn | 6 => r.atom .aand | _ => r.atom .aor

/-- ATOM.B (R230). -/
def decAtomB (mn : Nat) (r : RawM) : Except Ill Instr :=
  match mn with
  | 0 => r.atom .axor | 1 => r.atom .axch | 2 => r.atom .acas | 3 => r.atom .ainc
  | 4 => r.atom .aadd64 | 5 => r.atom .acas64 | 6 => r.atom .axch64 | _ => r.atom .ahadd

/-- SYNC words with D and A zero (R233-R235). -/
def RawM.sync (r : RawM) (c : SyncOp → Instr) : Except Ill Instr :=
  r.scoped (r.low == 0 && r.d == 0 && r.a == 0) fun sc => c ⟨Order.ofField r.ord, sc⟩

/-- SYNC words with no operand, which allow rlx at scope 0 only (R82, R83). -/
def RawM.bare (r : RawM) (i : Instr) : Except Ill Instr :=
  match Scope.ofField r.sc with
  | some _ =>
    if r.low == 0 && r.d == 0 && r.a == 0 then
      if r.ord == 0 && r.sc == 0 then .ok i else .error .illOrd
    else .error .illField
  | none => .error .illField

/-- SYNC (R233-R238). -/
def decSync (mn : Nat) (r : RawM) : Except Ill Instr :=
  match mn with
  | 0 => r.sync .fence
  | 1 => r.bare .cflush
  | 2 => r.sync .bar
  | 3 => r.mop .arrive
  | 4 => r.mop .arriveBk
  | 5 => r.bare .rfence
  | 6 => r.bare .invl1
  | _ => .error .illOpc

/-- WAIT (R239-R243). The context of TWTL and TLRD is an immediate 0-7 in A. -/
def decWait (mn : Nat) (r : RawR) : Except Ill Instr :=
  match mn with
  | 0 => r.pr .twph
  | 1 => verdict (r.a < 8 && !r.wa) (r.d < 16)
      (.twtl r.wb (BitVec.ofNat 4 r.d) (BitVec.ofNat 3 r.a) (Reg.ofField r.b))
  | 2 => r.pr .twge
  | 3 => verdict (r.a < 8 && r.b == 0 && !r.wa && !r.wb) true (.tlrd (Reg.ofField r.d) (BitVec.ofNat 3 r.a))
  | _ => .error .illOpc

/-- AP (R245, R246, R312-R314). QREQ, QWR and APEND decode as words of the access processor; issued by a fibre they
raise ILL_OPC (R89). -/
def decAp (mn : Nat) (r : RawR) : Except Ill Instr :=
  let q : BitVec 3 := BitVec.ofNat 3 r.b
  let qOk : Bool := r.b < 8 && !r.wb
  match mn with
  | 0 => r.r3 .apgo
  | 1 => r.r0 .apstop
  | 2 => verdict (qOk && r.a == 0 && !r.wa) true (.qstat (Reg.ofField r.d) q)
  | 3 => verdict (qOk && r.d == 0 && r.a == 0 && !r.wa) true (.qdrain q)
  | 4 => verdict (qOk && r.d == 0) true (.qbind r.wa (Reg.ofField r.a) q)
  | 5 => r.r3 .qreq
  | 6 => r.r3 .qwr
  | _ => r.r0 .apend

/-- PF (R247). -/
def decPf (mn : Nat) (r : RawM) : Except Ill Instr :=
  let c (k : PfOp → Instr) : Except Ill Instr :=
    r.scoped (r.low < 4 && r.d == 0) fun sc =>
      k ⟨Order.ofField r.ord, sc, Reg.ofField r.a, Hint.ofField r.low⟩
  match mn with
  | 0 => c .pfL1
  | 1 => c .pfL2
  | _ => .error .illOpc

/-- TROLLEY (R299). -/
def decTrolley (mn : Nat) (r : RawR) : Except Ill Instr :=
  match mn with
  | 0 => r.g3 .tcpy | 1 => r.g3 .tgath | 2 => r.g3 .tscat | 3 => r.g3 .tfill | 4 => r.g3 .tred
  | _ => .error .illOpc

/-- MMA.R and MMAP.R (R344). -/
def decMmaR (w : Nat) (c : MmaROp → Instr) : Except Ill Instr :=
  match MFmt.ofField (fieldOf w 25 23) with
  | some f =>
    verdict (fieldOf w 22 21 == 0 || (f != .i8i8 && f != .bfbf)) true
      (c ⟨f, BitVec.ofNat 2 (fieldOf w 22 21), Reg.ofField (fieldOf w 20 14), Reg.ofField (fieldOf w 13 7),
        Reg.ofField (fieldOf w 6 0)⟩)
  | none => .error .illField

/-- MMA.S and MMAP.S (R344). -/
def decMmaS (w : Nat) (c : MmaSOp → Instr) : Except Ill Instr :=
  match MFmt.ofField (fieldOf w 25 23) with
  | some f =>
    verdict (fieldOf w 22 21 == 0) true
      (c ⟨f, Reg.ofField (fieldOf w 20 14), Reg.ofField (fieldOf w 13 7), Reg.ofField (fieldOf w 6 0)⟩)
  | none => .error .illField

/-- MXCTL (R344). -/
def decMxctl (mn : Nat) (r : RawR) : Except Ill Instr :=
  match mn with
  | 0 => r.r0 .mxacq
  | 1 => r.r0 .mxrel
  | 2 => r.g3 .mxdrain
  | 3 => verdict (r.a < 2 && r.b == 0 && !r.wa && !r.wb) true (.mxzero (Reg.ofField r.d) (r.a == 1))
  | 4 => r.r0 .mxacqP
  | 5 => r.r0 .mxrelP
  | 6 => r.r1 .mxstat
  | _ => .error .illOpc

/-- CARR (R344). -/
def decCarr (mn : Nat) (r : RawR) : Except Ill Instr :=
  match mn with
  | 0 => r.g2 .cralloc | 1 => r.g3 .crload | 2 => r.g3 .crldv | 3 => r.g1 .crpin
  | 4 => r.g1 .crunpin | 5 => r.g1 .crfree | 6 => r.g2 .crstat | _ => r.g1 .crdetach

/-- MEMX (R372, R380, R385). -/
def decMemx (mn : Nat) (r : RawR) : Except Ill Instr :=
  match mn with
  | 0 => r.g3 .bxc | 1 => r.g2 .rdx | 2 => r.g3 .ssconv | _ => .error .illOpc

/-- FAB (R408). -/
def decFab (mn : Nat) (r : RawR) : Except Ill Instr :=
  match mn with
  | 0 => r.g2 .devid | 1 => r.g3 .wlease | 2 => r.g3 .wrenew | 3 => r.g1 .wdrop | 4 => r.r1 .cstat
  | _ => .error .illOpc

/-- LNCH (R190, R193). -/
def decLnch (mn : Nat) (r : RawR) : Except Ill Instr :=
  match mn with
  | 0 => r.r3 .launch | 1 => r.r2 .lqstat | _ => .error .illOpc

/-- The instruction of a word given as a number (R71, R87, R92). -/
def decodeNat (w : Nat) : Except Ill Instr :=
  let mn := fieldOf w 25 23
  match fieldOf w 31 26 with
  | 0x00 => decSys mn (rawR w) w
  | 0x01 => decIaluA mn (rawR w)
  | 0x02 => decIaluB mn (rawR w)
  | 0x03 => decIaluC mn (rawR w)
  | 0x04 => decIaluW mn (rawR w)
  | 0x05 => decMove mn (rawR w)
  | 0x06 => decImmA w
  | 0x07 => decImmB w
  | 0x08 => decImmC w
  | 0x09 => decWide w
  | 0x0A => decCmp mn (rawR w)
  | 0x0B => decFcmp mn (rawR w)
  | 0x0C => decPred mn (rawR w)
  | 0x0D => decBranch w
  | 0x0E => decCtl mn (rawR w)
  | 0x10 => decF3 mn (rawR w) .fadd
  | 0x11 => decF3 mn (rawR w) .fsub
  | 0x12 => decF3 mn (rawR w) .fmul
  | 0x13 => decF3 mn (rawR w) .ffma
  | 0x14 => decF3 mn (rawR w) .fmin
  | 0x15 => decF3 mn (rawR w) .fmax
  | 0x16 => decFmisc mn (rawR w)
  | 0x17 => decCvt mn (rawR w)
  | 0x18 => decCvt8 mn (rawR w)
  | 0x19 => decQ4 mn (rawR w)
  | 0x1A => decSfu mn (rawR w)
  | 0x1B => decQuad mn (rawR w)
  | 0x1C => decXlane mn (rawR w)
  | 0x1D => decGcoll mn (rawR w)
  | 0x20 => decLd mn (rawM w)
  | 0x21 => decSt mn (rawM w)
  | 0x22 => decLds mn (rawM w)
  | 0x23 => decSts mn (rawM w)
  | 0x24 => decCell mn (rawM w)
  | 0x25 => decAtomA mn (rawM w)
  | 0x26 => decAtomB mn (rawM w)
  | 0x27 => decSync mn (rawM w)
  | 0x28 => decWait mn (rawR w)
  | 0x29 => decAp mn (rawR w)
  | 0x2A => decPf mn (rawM w)
  | 0x2C => decTrolley mn (rawR w)
  | 0x30 => decMmaR w .mmaR
  | 0x31 => decMmaS w .mmaS
  | 0x32 => decMmaR w .mmapR
  | 0x33 => decMmaS w .mmapS
  | 0x34 => decMxctl mn (rawR w)
  | 0x35 => decCarr mn (rawR w)
  | 0x38 => decMemx mn (rawR w)
  | 0x3A => decFab mn (rawR w)
  | 0x3C => decLnch mn (rawR w)
  | _ => .error .illOpc

/-- The instruction of a 32-bit word. -/
def decode (w : W32) : Except Ill Instr := decodeNat w.toNat

/-- The instruction the decoder reads from the word `w` of the opcode table; every word is 32 bits (R12). -/
def decodeTableWord (nbits w : Nat) : Option Instr :=
  if nbits ≤ 32 then
    match decode (BitVec.ofNat 32 w) with
    | .ok i => some i
    | .error _ => none
  else none

/-! ## The encoder (R71, R72, R73, R87) -/

/-- The value of a register field (R73). -/
def Reg.field : Reg → Nat
  | .v n => n.val
  | .s n => 96 + n.val
  | .k n => 112 + n.val
  | .q n => 118 + n.val
  | .z => 126
  | .id => 127

def Order.field : Order → Nat
  | .rlx => 0 | .acq => 1 | .rel => 2 | .ar => 3

def Scope.field : Scope → Nat
  | .fib => 0 | .quad => 1 | .gang => 2 | .blk => 3 | .clu => 4 | .sec => 5 | .die => 6 | .dev => 7 | .fab => 8
  | .bank => 9 | .chan => 10 | .home => 11

def Use.field : Use → Nat
  | .plain => 0 | .unp => 1 | .com => 2 | .nor => 3 | .qnt => 4 | .spc => 5

def Hint.field : Hint → Nat
  | .normal => 0 | .strm => 1 | .keep => 2 | .nol1 => 3

def FFmt.field : FFmt → Nat
  | .f32 => 0 | .h2 => 1 | .b2 => 2 | .d => 3

def LdW.field : LdW → Nat
  | .b8 => 0 | .s8 => 1 | .b16 => 2 | .s16 => 3 | .b32 => 4 | .b64 => 5 | .b128 => 6 | .b256 => 7

def StW.field : StW → Nat
  | .b8 => 0 | .b16 => 1 | .b32 => 2 | .b64 => 3 | .b128 => 4 | .b256 => 5

def MFmt.field : MFmt → Nat
  | .e4e4 => 0 | .e5e4 => 1 | .e4q4 => 2 | .q4q4 => 3 | .i8i8 => 4 | .bfbf => 5

def bitOf (b : Bool) : Nat := if b then 1 else 0

/-- Format R. -/
def encR (maj mn : Nat) (wa wb : Bool) (d a b : Nat) : Nat :=
  maj * 2 ^ 26 + mn * 2 ^ 23 + bitOf wa * 2 ^ 22 + bitOf wb * 2 ^ 21 + d * 2 ^ 14 + a * 2 ^ 7 + b

/-- Format I. -/
def encI (maj mn : Nat) (wa : Bool) (d a imm : Nat) : Nat :=
  maj * 2 ^ 26 + mn * 2 ^ 24 + bitOf wa * 2 ^ 23 + d * 2 ^ 16 + a * 2 ^ 9 + imm

/-- Format W. -/
def encW (maj mn d imm : Nat) : Nat := maj * 2 ^ 26 + mn * 2 ^ 25 + d * 2 ^ 18 + imm

/-- Format B. -/
def encB (maj mn : Nat) (neg : Bool) (p off : Nat) : Nat :=
  maj * 2 ^ 26 + mn * 2 ^ 24 + bitOf neg * 2 ^ 23 + p * 2 ^ 19 + off

/-- Formats M and X; `low` is bits [2:0]. -/
def encM (maj mn ord sc d a low : Nat) : Nat :=
  maj * 2 ^ 26 + mn * 2 ^ 23 + ord * 2 ^ 21 + sc * 2 ^ 17 + d * 2 ^ 10 + a * 2 ^ 3 + low

/-- Format MX. -/
def encMX (maj fmt bsel d a b : Nat) : Nat :=
  maj * 2 ^ 26 + fmt * 2 ^ 23 + bsel * 2 ^ 21 + d * 2 ^ 14 + a * 2 ^ 7 + b

def R3.enc (o : R3) (maj mn : Nat) : Option Nat := some (encR maj mn o.wa o.wb o.d.field o.a.field o.b.field)
def R2.enc (o : R2) (maj mn : Nat) : Option Nat := some (encR maj mn o.wa false o.d.field o.a.field 0)
def RI.enc (o : RI) (maj mn : Nat) : Option Nat := some (encI maj mn o.wa o.d.field o.a.field o.imm.toNat)
def PI.enc (o : PI) (maj mn : Nat) : Option Nat := some (encI maj mn o.wa o.p.toNat o.a.field o.imm.toNat)
def PR.enc (o : PR) (maj mn : Nat) : Option Nat := some (encR maj mn o.wa o.wb o.p.toNat o.a.field o.b.field)
def F3.enc (o : F3) (maj : Nat) : Option Nat :=
  some (encR maj o.fmt.field o.wa o.wb o.d.field o.a.field o.b.field)
def G3.enc (o : G3) (maj mn : Nat) : Option Nat := some (encR maj mn false false o.d.field o.a.field o.b.field)
def MOp.enc (o : MOp) (maj mn : Nat) : Option Nat :=
  some (encM maj mn o.ord.field o.sc.field o.d.field o.a.field 0)
def AtomOp.enc (o : AtomOp) (maj mn : Nat) : Option Nat :=
  some (encM maj mn o.ord.field o.sc.field o.d.field o.a.field o.use.field)
def SyncOp.enc (o : SyncOp) (mn : Nat) : Option Nat := some (encM 0x27 mn o.ord.field o.sc.field 0 0 0)
def PfOp.enc (o : PfOp) (mn : Nat) : Option Nat :=
  some (encM 0x2A mn o.ord.field o.sc.field 0 o.a.field o.ch.field)
def MmaROp.enc (o : MmaROp) (maj : Nat) : Option Nat :=
  some (encMX maj o.fmt.field o.bsel.toNat o.d.field o.a.field o.b.field)
def MmaSOp.enc (o : MmaSOp) (maj : Nat) : Option Nat :=
  some (encMX maj o.fmt.field 0 o.d.field o.a.field o.b.field)

/-- Destination, source and immediates that stand in A:B or in B, with no policy bit set. -/
def encSys (mn d ab : Nat) : Option Nat := some (encR 0 mn false false d (ab / 128) (ab % 128))

/-- The word of an instruction as a number; none for a step that has no word. -/
def encodeNat : Instr → Option Nat
  | .nop bits => some bits.toNat
  | .trap code => encSys 1 0 code.toNat
  | .eret => encSys 2 0 0
  | .bkpt => encSys 3 0 0
  | .pre i => encSys 4 0 i.toNat
  | .idem r stop => some (encR 0 5 false false 0 r.toNat (bitOf stop))
  | .rdsr d n => encSys 6 d.field n.toNat
  | .wrsr d n => encSys 7 d.field n.toNat
  | .add o => o.enc 0x01 0
  | .sub o => o.enc 0x01 1
  | .and o => o.enc 0x01 2
  | .or o => o.enc 0x01 3
  | .xor o => o.enc 0x01 4
  | .andn o => o.enc 0x01 5
  | .min o => o.enc 0x01 6
  | .max o => o.enc 0x01 7
  | .minn o => o.enc 0x02 0
  | .maxn o => o.enc 0x02 1
  | .shl o => o.enc 0x02 2
  | .shr o => o.enc 0x02 3
  | .sar o => o.enc 0x02 4
  | .rol o => o.enc 0x02 5
  | .absd o => o.enc 0x02 6
  | .bfe o => o.enc 0x02 7
  | .mul o => o.enc 0x03 0
  | .mulh o => o.enc 0x03 1
  | .mulhn o => o.enc 0x03 2
  | .mad o => o.enc 0x03 3
  | .clz o => o.enc 0x03 4
  | .popc o => o.enc 0x03 5
  | .brev o => o.enc 0x03 6
  | .bfi o => o.enc 0x03 7
  | .add64 o => o.enc 0x04 0
  | .sub64 o => o.enc 0x04 1
  | .shl64 o => o.enc 0x04 2
  | .shr64 o => o.enc 0x04 3
  | .madw o => o.enc 0x04 4
  | .madws o => o.enc 0x04 5
  | .mov64 o => o.enc 0x04 6
  | .sext64 o => o.enc 0x04 7
  | .mov o => o.enc 0x05 0
  | .rdl d => some (encR 0x05 1 false false d.field 0 0)
  | .bcs o => o.enc 0x05 2
  | .rdp d => some (encR 0x05 3 false false d.field 0 0)
  | .wrp wa a => some (encR 0x05 4 wa false 0 a.field 0)
  | .sel wa d a p => some (encR 0x05 5 wa false d.field a.field p.toNat)
  | .rdw d => some (encR 0x05 6 false false d.field 0 0)
  | .addi o => o.enc 0x06 0
  | .andi o => o.enc 0x06 1
  | .ori o => o.enc 0x06 2
  | .xori o => o.enc 0x06 3
  | .shli o => o.enc 0x07 0
  | .shri o => o.enc 0x07 1
  | .sari o => o.enc 0x07 2
  | .muli o => o.enc 0x07 3
  | .cmpiEq o => o.enc 0x08 0
  | .cmpiLt o => o.enc 0x08 1
  | .cmpiLtn o => o.enc 0x08 2
  | .cmpiLe o => o.enc 0x08 3
  | .ldi o => some (encW 0x09 0 o.d.field o.imm.toNat)
  | .ldih o => some (encW 0x09 1 o.d.field o.imm.toNat)
  | .cmpEq o => o.enc 0x0A 0
  | .cmpNe o => o.enc 0x0A 1
  | .cmpLt o => o.enc 0x0A 2
  | .cmpLe o => o.enc 0x0A 3
  | .cmpLtn o => o.enc 0x0A 4
  | .cmpLen o => o.enc 0x0A 5
  | .tst o => o.enc 0x0A 6
  | .fcmpEq o => o.enc 0x0B 0
  | .fcmpLt o => o.enc 0x0B 1
  | .fcmpLe o => o.enc 0x0B 2
  | .fcmpUn o => o.enc 0x0B 3
  | .pand d a b => some (encR 0x0C 0 false false d.toNat a.toNat b.toNat)
  | .por d a b => some (encR 0x0C 1 false false d.toNat a.toNat b.toNat)
  | .pxor d a b => some (encR 0x0C 2 false false d.toNat a.toNat b.toNat)
  | .pandn d a b => some (encR 0x0C 3 false false d.toNat a.toNat b.toNat)
  | .pnot d a => some (encR 0x0C 4 false false d.toNat a.toNat 0)
  | .pset d => some (encR 0x0C 5 false false d.toNat 0 0)
  | .pclr d => some (encR 0x0C 6 false false d.toNat 0 0)
  | .brp neg p off => some (encB 0x0D 0 neg p.toNat off.toNat)
  | .bra off => some (encB 0x0D 1 false 0 off.toNat)
  | .call off => some (encB 0x0D 2 false 0 off.toNat)
  | .jmpr wa a => some (encR 0x0E 0 wa false 0 a.field 0)
  | .callr wa a => some (encR 0x0E 1 wa false 0 a.field 0)
  | .ret => some (encR 0x0E 2 false false 0 0 0)
  | .reconv => some (encR 0x0E 3 false false 0 0 0)
  | .fork o => o.enc 0x0E 4
  | .endF => some (encR 0x0E 5 false false 0 0 0)
  | .wbase n => some (encR 0x0E 6 false false 0 n.toNat 0)
  | .trl o => o.enc 0x0E 7
  | .fadd o => o.enc 0x10
  | .fsub o => o.enc 0x11
  | .fmul o => o.enc 0x12
  | .ffma o => o.enc 0x13
  | .fmin o => o.enc 0x14
  | .fmax o => o.enc 0x15
  | .fabs o => o.enc 0x16 0
  | .fneg o => o.enc 0x16 1
  | .fclass o => o.enc 0x16 2
  | .frndN o => o.enc 0x16 3
  | .frndZ o => o.enc 0x16 4
  | .frndD o => o.enc 0x16 5
  | .frndU o => o.enc 0x16 6
  | .fscale o => o.enc 0x16 7
  | .cvtFS o => o.enc 0x17 0
  | .cvtSF o => o.enc 0x17 1
  | .cvtFN o => o.enc 0x17 2
  | .cvtNF o => o.enc 0x17 3
  | .packH2 o => o.enc 0x17 4
  | .packB2 o => o.enc 0x17 5
  | .unpkH o => o.enc 0x17 6
  | .unpkB o => o.enc 0x17 7
  | .packE4 o => o.enc 0x18 0
  | .packE5 o => o.enc 0x18 1
  | .unpkE4 o => o.enc 0x18 2
  | .unpkE5 o => o.enc 0x18 3
  | .packI8 o => o.enc 0x18 4
  | .unpkI8 o => o.enc 0x18 5
  | .qscale o => o.enc 0x19 0
  | .qpack o => o.enc 0x19 1
  | .qunpk o => o.enc 0x19 2
  | .rcp o => o.enc 0x1A 0
  | .rsq o => o.enc 0x1A 1
  | .sqrt o => o.enc 0x1A 2
  | .div o => o.enc 0x1A 3
  | .act o t => some (encR 0x1A 4 o.wa false o.d.field o.a.field t.toNat)
  | .actld wa a t => some (encR 0x1A 5 wa false 0 a.field t.toNat)
  | .actsw t => some (encR 0x1A 6 false false 0 0 t.toNat)
  | .qxh o => o.enc 0x1B 0
  | .qxv o => o.enc 0x1B 1
  | .qxd o => o.enc 0x1B 2
  | .qbc o => o.enc 0x1B 3
  | .qadd o => o.enc 0x1B 4
  | .qmax o => o.enc 0x1B 5
  | .qmin o => o.enc 0x1B 6
  | .qhlp p => some (encR 0x1B 7 false false p.toNat 0 0)
  | .shflIdx o => o.enc 0x1C 0
  | .shflUp o => o.enc 0x1C 1
  | .shflDn o => o.enc 0x1C 2
  | .shflXor o => o.enc 0x1C 3
  | .bcast o => o.enc 0x1C 4
  | .voteAny d a => some (encR 0x1C 5 false false d.toNat a.toNat 0)
  | .voteAll d a => some (encR 0x1C 6 false false d.toNat a.toNat 0)
  | .ballot d a => some (encR 0x1C 7 false false d.field a.toNat 0)
  | .gredFadd o => o.enc 0x1D 0
  | .gredIadd o => o.enc 0x1D 1
  | .gredFmax o => o.enc 0x1D 2
  | .gredFmin o => o.enc 0x1D 3
  | .gscanFadd o => o.enc 0x1D 4
  | .gscanIadd o => o.enc 0x1D 5
  | .matchV o => o.enc 0x1D 6
  | .ld o => some (encM 0x20 o.w.field o.ord.field o.sc.field o.d.field o.a.field o.ch.field)
  | .st o => some (encM 0x21 o.w.field o.ord.field o.sc.field o.d.field o.a.field o.ch.field)
  | .lds o => some (encM 0x22 o.w.field o.ord.field o.sc.field o.d.field o.a.field 0)
  | .sts o => some (encM 0x23 o.w.field o.ord.field o.sc.field o.d.field o.a.field 0)
  | .ldc o => o.enc 0x24 0
  | .stc o => o.enc 0x24 1
  | .stcMd o => o.enc 0x24 2
  | .aadd o => o.enc 0x25 0
  | .afadd o => o.enc 0x25 1
  | .amin o => o.enc 0x25 2
  | .amax o => o.enc 0x25 3
  | .aminn o => o.enc 0x25 4
  | .amaxn o => o.enc 0x25 5
  | .aand o => o.enc 0x25 6
  | .aor o => o.enc 0x25 7
  | .axor o => o.enc 0x26 0
  | .axch o => o.enc 0x26 1
  | .acas o => o.enc 0x26 2
  | .ainc o => o.enc 0x26 3
  | .aadd64 o => o.enc 0x26 4
  | .acas64 o => o.enc 0x26 5
  | .axch64 o => o.enc 0x26 6
  | .ahadd o => o.enc 0x26 7
  | .fence o => o.enc 0
  | .cflush => some (encM 0x27 1 0 0 0 0 0)
  | .bar o => o.enc 2
  | .arrive o => o.enc 0x27 3
  | .arriveBk o => o.enc 0x27 4
  | .rfence => some (encM 0x27 5 0 0 0 0 0)
  | .invl1 => some (encM 0x27 6 0 0 0 0 0)
  | .twph o => o.enc 0x28 0
  | .twtl wb p t b => some (encR 0x28 1 false wb p.toNat t.toNat b.field)
  | .twge o => o.enc 0x28 2
  | .tlrd d t => some (encR 0x28 3 false false d.field t.toNat 0)
  | .apgo o => o.enc 0x29 0
  | .apstop => some (encR 0x29 1 false false 0 0 0)
  | .qstat d q => some (encR 0x29 2 false false d.field 0 q.toNat)
  | .qdrain q => some (encR 0x29 3 false false 0 0 q.toNat)
  | .qbind wa a q => some (encR 0x29 4 wa false 0 a.field q.toNat)
  | .qreq o => o.enc 0x29 5
  | .qwr o => o.enc 0x29 6
  | .apend => some (encR 0x29 7 false false 0 0 0)
  | .pfL1 o => o.enc 0
  | .pfL2 o => o.enc 1
  | .tcpy o => o.enc 0x2C 0
  | .tgath o => o.enc 0x2C 1
  | .tscat o => o.enc 0x2C 2
  | .tfill o => o.enc 0x2C 3
  | .tred o => o.enc 0x2C 4
  | .mmaR o => o.enc 0x30
  | .mmaS o => o.enc 0x31
  | .mmapR o => o.enc 0x32
  | .mmapS o => o.enc 0x33
  | .mxacq => some (encR 0x34 0 false false 0 0 0)
  | .mxrel => some (encR 0x34 1 false false 0 0 0)
  | .mxdrain o => o.enc 0x34 2
  | .mxzero d i => some (encR 0x34 3 false false d.field (bitOf i) 0)
  | .mxacqP => some (encR 0x34 4 false false 0 0 0)
  | .mxrelP => some (encR 0x34 5 false false 0 0 0)
  | .mxstat d => some (encR 0x34 6 false false d.field 0 0)
  | .cralloc d a => some (encR 0x35 0 false false d.field a.field 0)
  | .crload o => o.enc 0x35 1
  | .crldv o => o.enc 0x35 2
  | .crpin a => some (encR 0x35 3 false false 0 a.field 0)
  | .crunpin a => some (encR 0x35 4 false false 0 a.field 0)
  | .crfree a => some (encR 0x35 5 false false 0 a.field 0)
  | .crstat d a => some (encR 0x35 6 false false d.field a.field 0)
  | .crdetach a => some (encR 0x35 7 false false 0 a.field 0)
  | .bxc o => o.enc 0x38 0
  | .rdx d a => some (encR 0x38 1 false false d.field a.field 0)
  | .ssconv o => o.enc 0x38 2
  | .devid d a => some (encR 0x3A 0 false false d.field a.field 0)
  | .wlease o => o.enc 0x3A 1
  | .wrenew o => o.enc 0x3A 2
  | .wdrop a => some (encR 0x3A 3 false false 0 a.field 0)
  | .cstat d => some (encR 0x3A 4 false false d.field 0 0)
  | .launch o => o.enc 0x3C 0
  | .lqstat o => o.enc 0x3C 1
  | .tryWaitHintExpiry => none
  | .queueEntryFilled => none
  | .trolleyChunkDelivered => none
  | .trolleyOperationComplete => none
  | .carriageLoadComplete => none
  | .accumulatorAbsorb => none
  | .drainTilePerform => none
  | .sum => none
  | .axpy => none
  | .maxv => none
  | .copy => none
  | .fill => none
  | .aop => none
  | .waitflag => none
  | .setflag => none
  | .waitflagLimitExpiry => none
  | .bankCommandComplete => none
  | .bankDrainApply => none
  | .stackReduction => none
  | .sqpeakRead => none
  | .sqspillRead => none
  | .registerFill => none
  | .coachForm => none
  | .reconvWindowExpiry => none
  | .timerExpiry => none
  | .faultServiceMap => none
  | .faultServiceReject => none
  | .parkTimeout => none
  | .nativeSwitchOut => none
  | .launchDependenceMet => none
  | .blockPlace => none
  | .stopDeadline => none
  | .blockSave => none
  | .blockRestore => none
  | .blockRetire => none
  | .rollback => none
  | .debugStop => none
  | .debugRegisterWrite => none
  | .debugRelease => none
  | .actTableLoadDone => none
  | .tlbWalkComplete => none
  | .sliceRequestAccept => none
  | .spillReturn => none
  | .homeWritePerform => none
  | .wayGroupConverted => none
  | .wayGroupRestored => none
  | .scrubStep => none
  | .thermLt1 => none
  | .thermLt2 => none
  | .thermLt3 => none
  | .thermActionEnd => none
  | .thermctlWrite => none
  | .powerClockStep => none
  | .cartAgeExpiry => none
  | .cartSend => none
  | .elementStatus => none
  | .packetArrival => none
  | .transitForward => none
  | .linkReplay => none
  | .e2eAck => none
  | .e2eTimeout => none
  | .portFailure => none
  | .peerRejoin => none
  | .writeLeaseExpiry => none
  | .holderLeaseExpiry => none
  | .orphanClear => none
  | .powerOn => none
  | .hostDoorbell => none
  | .cxlMemRead => none
  | .cxlMemWrite => none
  | .attestReport => none
  | .attestCertificate => none
  | .partcfgWrite => none
  | .shadowUndoDrainDone => none
  | .fotEntryWrite => none
  | .granuleZeroingDone => none
  | .controlWindowWrite => none
  | .ethernetFrame => none
  | .contextSwitchRequest => none
  | .tlbInvalidation => none

/-- The word of an instruction, none for a step that has no word. -/
def encode (i : Instr) : Option W32 := (encodeNat i).map (BitVec.ofNat 32)

/-- The word of an instruction as TINFO shows it; 0 for a step that has no word. -/
def Instr.word (i : Instr) : W32 := (encode i).getD 0

end Sys2Proof
end

