-- ==== Sys2Proof/Machine/Slots.lean ====
section
/-!
DEFINITION. Machine/Slots.lean: the register slots of every instruction (R78, and the chapters R78 refers to),
the classes each admits (R74), and the instruction groups of R80, R82, R84 and R89.
-/

namespace Sys2Proof

/-- Classes a register slot admits (R74, R78). -/
inductive SlotKind where
  /-- V -/
  | v
  /-- V S -/
  | vs
  /-- V S and a queue port: Qi where read, Qo where written -/
  | vsq
  /-- X -/
  | x
  /-- X S -/
  | xs
  /-- S -/
  | s
  /-- `n` consecutive registers vN up, N a multiple of `al` -/
  | grp (n al : Nat)
  /-- V X S of a special register (R428); true for a 64-bit one -/
  | sr (wide : Bool)
  /-- await set of TRL (R86) -/
  | trl
  /-- queue of QREQ (q0-q5, false) or QWR (q6-q7, true) -/
  | queue (out : Bool)
deriving DecidableEq, Repr

/-- A register slot of one word. `pol` is its policy bit (R81). -/
structure Slot where
  kind : SlotKind
  reg : Reg
  rd : Bool := true
  wr : Bool := false
  pol : Bool := false
deriving DecidableEq, Repr

/-- Whether the slot admits what its field names (R74, R78, R86). WRSR's slot does not admit id (R428; DESIGN CHOICE, log 91). -/
def Slot.admits (t : Slot) : Bool :=
  match t.kind, t.reg with
  | .v, .v _ | .v, .k _ | .v, .z | .vs, .v _ | .vs, .k _ | .vs, .s _ | .vs, .z => true
  | .vsq, .v _ | .vsq, .k _ | .vsq, .s _ | .vsq, .z => true
  | .v, .id | .vs, .id | .vsq, .id => !t.wr
  | .vsq, .q n => if n.val < 6 then t.rd && !t.wr else t.wr && !t.rd
  | .x, .v n | .xs, .v n => n.val % 2 = 0
  | .x, .z | .xs, .z | .xs, .s _ | .s, .s _ | .s, .z => true
  | .grp _ al, .v n => n.val % al = 0
  | .sr _, .v _ | .sr _, .k _ | .sr _, .s _ | .sr _, .z => true
  | .trl, .v _ | .trl, .s _ | .trl, .z => true
  | .queue out, .q n => decide (out = decide (6 ≤ n.val))
  | _, _ => false

/-- Whether the slot carries 64 bits. -/
def Slot.wide (t : Slot) : Bool :=
  match t.kind, t.reg with
  | .x, _ | .xs, _ => true
  | .sr w, .v n => w && decide (n.val % 2 = 0)
  | .sr w, _ => w
  | _, _ => false

/-- The window fields of the v registers the slot covers (R75). -/
def Slot.fields (t : Slot) : List Nat :=
  match t.kind, t.reg with
  | .grp n _, .v f => (List.range n).map (f.val + ·)
  | _, .v f => if t.wide then [f.val, f.val + 1] else [f.val]
  | _, _ => []

def R3.slots (o : R3) (d a b : SlotKind) : List Slot :=
  [⟨a, o.a, true, false, o.wa⟩, ⟨b, o.b, true, false, o.wb⟩, ⟨d, o.d, false, true, false⟩]

/-- As `R3.slots` for an instruction that also reads D. -/
def R3.slotsD (o : R3) (d a b : SlotKind) : List Slot :=
  [⟨a, o.a, true, false, o.wa⟩, ⟨b, o.b, true, false, o.wb⟩, ⟨d, o.d, true, true, false⟩]

def R2.slots (o : R2) (d a : SlotKind) : List Slot :=
  [⟨a, o.a, true, false, o.wa⟩, ⟨d, o.d, false, true, false⟩]

def RI.slots (o : RI) : List Slot := [⟨.vsq, o.a, true, false, o.wa⟩, ⟨.vsq, o.d, false, true, false⟩]

def PI.slots (o : PI) : List Slot := [⟨.vsq, o.a, true, false, o.wa⟩]

def PR.slots (o : PR) (a b : SlotKind) : List Slot := [⟨a, o.a, true, false, o.wa⟩, ⟨b, o.b, true, false, o.wb⟩]

def F3.slots (o : F3) (readsD : Bool) : List Slot :=
  let k : SlotKind := if o.fmt = .d then .x else .v
  [⟨k, o.a, true, false, o.wa⟩, ⟨k, o.b, true, false, o.wb⟩, ⟨k, o.d, readsD, true, false⟩]

/-- Three slots of TROLLEY, MXCTL, CARR, MEMX, FAB (R344, R372, R408). -/
def G3.slots (o : G3) (d a b : SlotKind) : List Slot := [⟨a, o.a, true, false, false⟩, ⟨b, o.b, true, false, false⟩, ⟨d, o.d, false, true, false⟩]

def rdSlot (k : SlotKind) (r : Reg) : Slot := ⟨k, r, true, false, false⟩
def wrSlot (k : SlotKind) (r : Reg) : Slot := ⟨k, r, false, true, false⟩

/-- Register slot of loaded data (R78, R223). -/
def LdW.kind : LdW → SlotKind
  | .b64 => .xs
  | .b128 => .grp 4 4
  | .b256 => .grp 8 8
  | .b8 | .s8 | .b16 | .s16 | .b32 => .vs

/-- Register slot of stored data (R78, R223). -/
def StW.kind : StW → SlotKind
  | .b64 => .xs
  | .b128 => .grp 4 4
  | .b256 => .grp 8 8
  | .b8 | .b16 | .b32 => .vs

/-- Bytes a loaded width covers (R223). -/
def LdW.bytes : LdW → Nat
  | .b8 | .s8 => 1
  | .b16 | .s16 => 2
  | .b32 => 4
  | .b64 => 8
  | .b128 => 16
  | .b256 => 32

/-- Bytes a stored width covers (R223). -/
def StW.bytes : StW → Nat
  | .b8 => 1
  | .b16 => 2
  | .b32 => 4
  | .b64 => 8
  | .b128 => 16
  | .b256 => 32

/-- Signed value of a loaded width, as the bits written to D (R223). -/
def LdW.extend (w : LdW) (v : Nat) : Nat :=
  match w with
  | .s8 => ((BitVec.ofNat 8 v).signExtend 32).toNat
  | .s16 => ((BitVec.ofNat 16 v).signExtend 32).toNat
  | _ => v

/-- Slots of a 32-bit or 64-bit atomic. AINC does not read D; com does not write it (R82, R230). -/
def AtomOp.slots (o : AtomOp) (k : SlotKind) (reads : Bool) : List Slot :=
  [rdSlot .xs o.a, ⟨k, o.d, reads, decide (o.use ≠ .com), false⟩]

/-- Special registers transferred as 64 bits (R428). -/
def srWide (n : Nat) : Bool := n ∈ [0x000, 0x001, 0x002, 0x004, 0x006, 0x007, 0x008, 0x009, 0x00B, 0x00D, 0x00E]

/-- The register slots of a word: sources A then B, then D. The slots of TRL are not read, and WA and WB of TRL are accepted
and have no effect (R49, R81; DESIGN CHOICE, log 64). -/
def Instr.slots : Instr → List Slot
  | .rdsr d n => [wrSlot (.sr (srWide n.toNat)) d]
  | .wrsr d n => [rdSlot (.sr (srWide n.toNat)) d]
  | .add o | .sub o | .and o | .or o | .xor o | .andn o | .min o | .max o | .minn o | .maxn o | .shl o | .shr o
  | .sar o | .rol o | .absd o | .bfe o | .mul o | .mulh o | .mulhn o => o.slots .vsq .vsq .vsq
  | .mad o | .bfi o => o.slotsD .vs .vsq .vsq
  | .clz o | .popc o | .brev o => o.slots .vsq .vsq
  | .add64 o | .sub64 o => o.slots .xs .xs .xs
  | .shl64 o | .shr64 o => o.slots .xs .xs .v
  | .madw o | .madws o => o.slotsD .xs .v .v
  | .mov64 o => o.slots .xs .xs
  | .sext64 o => o.slots .xs .v
  | .mov o => o.slots .vsq .vsq
  | .rdl d => [wrSlot .xs d]
  | .bcs o => [⟨.v, o.a, true, false, o.wa⟩, ⟨.s, o.d, true, true, false⟩]
  | .rdp d | .rdw d => [wrSlot .v d]
  | .wrp wa a => [⟨.v, a, true, false, wa⟩]
  | .sel wa d a _ => [⟨.vsq, a, true, false, wa⟩, ⟨.vs, d, true, true, false⟩]
  | .addi o | .andi o | .ori o | .xori o | .shli o | .shri o | .sari o | .muli o => o.slots
  | .cmpiEq o | .cmpiLt o | .cmpiLtn o | .cmpiLe o => o.slots
  | .ldi o => [wrSlot .vs o.d]
  | .ldih o => [⟨.vs, o.d, true, true, false⟩]
  | .cmpEq o | .cmpNe o | .cmpLt o | .cmpLe o | .cmpLtn o | .cmpLen o | .tst o => o.slots .vsq .vsq
  | .fcmpEq o | .fcmpLt o | .fcmpLe o | .fcmpUn o => o.slots .v .v
  | .jmpr wa a | .callr wa a => [⟨.xs, a, true, false, wa⟩]
  | .fork o => o.slots .v .xs .vs
  | .trl o => [⟨.trl, o.a, false, false, false⟩, ⟨.trl, o.b, false, false, false⟩, ⟨.trl, o.d, false, false, false⟩]
  | .fadd o | .fsub o | .fmul o | .fmin o | .fmax o => o.slots false
  | .ffma o => o.slots true
  | .fabs o | .fneg o | .fclass o | .frndN o | .frndZ o | .frndD o | .frndU o => o.slots .v .v
  | .fscale o => o.slots .v .v .v
  | .cvtFS o | .cvtSF o | .cvtFN o | .cvtNF o => o.slots .v .v
  | .packH2 o | .packB2 o => o.slots .v .v .v
  | .unpkH o | .unpkB o | .unpkE4 o | .unpkE5 o | .unpkI8 o => o.slots .x .v
  | .packE4 o | .packE5 o | .packI8 o | .qpack o => o.slotsD .v .v .v
  | .qscale o | .qunpk o => o.slots .v .v .v
  | .rcp o | .rsq o | .sqrt o => o.slots .v .v
  | .div o => o.slots .v .v .v
  | .act o _ => o.slots .v .v
  | .actld wa a _ => [⟨.xs, a, true, false, wa⟩]
  | .qxh o | .qxv o | .qxd o | .qadd o | .qmax o | .qmin o => o.slots .v .v
  | .qbc o | .shflIdx o | .shflUp o | .shflDn o | .shflXor o | .bcast o => o.slots .v .v .v
  | .ballot d _ => [wrSlot .v d]
  | .gredFadd o | .gredIadd o | .gredFmax o | .gredFmin o | .gscanFadd o | .gscanIadd o | .matchV o => o.slots .v .v
  | .ld o => [rdSlot .xs o.a, wrSlot o.w.kind o.d]
  | .st o => [rdSlot .xs o.a, rdSlot o.w.kind o.d]
  | .lds o => [rdSlot .v o.a, wrSlot o.w.kind o.d]
  | .sts o => [rdSlot .v o.a, rdSlot o.w.kind o.d]
  | .ldc o => [rdSlot .xs o.a, wrSlot (.grp 4 4) o.d]
  | .stc o | .stcMd o => [rdSlot .xs o.a, rdSlot (.grp 4 4) o.d]
  | .aadd o | .afadd o | .amin o | .amax o | .aminn o | .amaxn o | .aand o | .aor o | .axor o | .axch o
  | .ahadd o => o.slots .vs true
  | .ainc o => o.slots .vs false
  | .acas o => o.slots .x true
  | .aadd64 o | .axch64 o => o.slots .xs true
  | .acas64 o => o.slots (.grp 4 4) true
  | .arrive o | .arriveBk o => [rdSlot .v o.a, rdSlot .vs o.d]
  | .twph o | .twge o => o.slots .v .vs
  | .twtl wb _ _ b => [⟨.xs, b, true, false, wb⟩]
  | .tlrd d _ => [wrSlot .xs d]
  | .apgo o => o.slots .xs .xs .vs
  | .qstat d _ => [wrSlot .v d]
  | .qbind wa a _ => [⟨.vs, a, true, false, wa⟩]
  | .qreq o => [⟨.x, o.a, true, false, o.wa⟩, ⟨.v, o.b, true, false, o.wb⟩, ⟨.queue false, o.d, false, false, false⟩]
  | .qwr o => [⟨.x, o.a, true, false, o.wa⟩, ⟨.v, o.b, true, false, o.wb⟩, ⟨.queue true, o.d, false, false, false⟩]
  | .pfL1 o | .pfL2 o => [rdSlot .xs o.a]
  | .tcpy o | .tgath o | .tscat o | .tfill o | .tred o => o.slots .xs .xs (.grp 4 4)
  | .mmaR o | .mmapR o =>
    [rdSlot (.grp (if o.fmt = .q4q4 then 17 else 33) 16) o.a, rdSlot .vs o.b, rdSlot .s o.d]
  | .mmaS o | .mmapS o => [rdSlot .s o.a, rdSlot .vs o.b, rdSlot .s o.d]
  | .mxdrain o => o.slots .xs .s (.grp 4 4)
  | .mxzero d _ => [rdSlot .s d]
  | .mxstat d | .cstat d => [wrSlot .vs d]
  | .cralloc d a | .crstat d a => [rdSlot .vs a, wrSlot .vs d]
  | .crload o => o.slots .xs .xs .vs
  | .crldv o => [rdSlot (.grp 32 16) o.a, rdSlot .vs o.b, rdSlot .vs o.d]
  | .crpin a | .crunpin a | .crfree a | .crdetach a => [rdSlot .vs a]
  | .bxc o => o.slots .xs .xs (.grp 4 4)
  | .rdx d a => [rdSlot .xs a, wrSlot .xs d]
  | .ssconv o => o.slots .xs .vs .vs
  | .devid d a => [rdSlot .xs a, wrSlot .vs d]
  | .wlease o | .wrenew o => o.slots .xs .xs .vs
  | .wdrop a => [rdSlot .xs a]
  | .launch o => o.slots .xs .xs .vs
  | .lqstat o => o.slots .xs .vs
  | _ => []

/-- The predicates a word names, written or read; an access processor has p0-p7 only (R311). -/
def Instr.preds : Instr → List Pred
  | .sel _ _ _ p | .brp _ p _ | .pset p | .pclr p => [p]
  | .cmpiEq o | .cmpiLt o | .cmpiLtn o | .cmpiLe o => [o.p]
  | .cmpEq o | .cmpNe o | .cmpLt o | .cmpLe o | .cmpLtn o | .cmpLen o | .tst o => [o.p]
  | .pand d a b | .por d a b | .pxor d a b | .pandn d a b => [d, a, b]
  | .pnot d a => [d, a]
  | _ => []

/-- The registers of a slot that the word does not read although its range covers them: the scale register of an
MMA.R of FMT 4 or 5 (R335), the fourth register of a cell store (R227). -/
def Instr.unread : Instr → List Nat
  | .stc o | .stcMd o =>
    match o.d with
    | .v n => [n.val + 3]
    | _ => []
  | .mmaR o | .mmapR o =>
    match o.fmt, o.a with
    | .i8i8, .v n | .bfbf, .v n => [n.val + 32]
    | _, _ => []
  | _ => []

/-- Bit 0 of TINFO[63:32] of an EMPTY_READ at the `n`-th slot of a word: 0 for source A, 1 for source B; the one register
source of TWTL is its B (R241, R254). -/
def Instr.emptySlot (i : Instr) (n : Nat) : Nat :=
  match i with
  | .twtl _ _ _ _ => 1
  | _ => n

/-- Long-latency producers (R80): they mark D empty at issue, and a k register is no destination of theirs (R76). A pop that
must wait is one too: see `State.popWaits`. -/
def Instr.longLatency : Instr → Bool
  | .ld _ | .lds _ | .ldc _ | .rcp _ | .rsq _ | .sqrt _ | .div _ | .act _ _ | .wlease _ | .wrenew _ => true
  | .aadd o | .afadd o | .amin o | .amax o | .aminn o | .amaxn o | .aand o | .aor o | .axor o | .axch o
  | .acas o | .ainc o | .aadd64 o | .acas64 o | .axch64 o | .ahadd o => decide (o.use ≠ .com)
  | _ => false

/-- Run-ending instructions (R84). -/
def Instr.runEnding : Instr → Bool
  | .trl _ | .brp _ _ _ | .bra _ | .call _ | .jmpr _ _ | .callr _ _ | .ret | .fork _ | .endF | .reconv
  | .shflIdx _ | .shflUp _ | .shflDn _ | .shflXor _ | .bcast _ | .voteAny _ _ | .voteAll _ _ | .ballot _ _
  | .gredFadd _ | .gredIadd _ | .gredFmax _ | .gredFmin _ | .gscanFadd _ | .gscanIadd _ | .matchV _
  | .bar _ | .twph _ | .twtl _ _ _ _ | .twge _ | .pre _ | .trap _ | .eret | .mxacq | .mxacqP => true
  | _ => false

/-- Major opcode of the word. -/
def Instr.major (i : Instr) : Nat := i.word.toNat / 2 ^ 26

/-- Whether a scope is one of 0 to 8, 1 to 8 (R82). -/
def Scope.upTo (lo hi : Nat) (s : Scope) : Bool := decide (lo ≤ s.field) && decide (s.field ≤ hi)

/-- The row of R82 for an access that admits the orders of `ords` beside rlx, at scopes up to `hi`. -/
def ordRow (ords : List Order) (hi : Nat) (o : Order) (sc : Scope) : Bool :=
  if o = .rlx then sc.upTo 0 hi else decide (o ∈ ords) && sc.upTo 1 hi

/-- The row of R82 for atomics, with the table of use classes. -/
def AtomOp.ordOk (o : AtomOp) (com qnt spc : Bool) : Bool :=
  ordRow [.acq, .rel, .ar] 8 o.ord o.sc &&
    match o.use with
    | .plain => true
    | .unp | .nor => decide (o.ord = .rlx)
    | .com => decide (o.ord = .rlx) && com
    | .qnt => decide (o.ord = .rlx) && qnt
    | .spc => decide (o.ord = .rlx) && spc

/-- Whether ORD, SC and USE are a combination R82 lists (R83). -/
def Instr.ordOk : Instr → Bool
  | .ld o => ordRow (if o.w = .b128 ∨ o.w = .b256 then [] else [.acq]) 8 o.ord o.sc
  | .st o => ordRow (if o.w = .b128 ∨ o.w = .b256 then [] else [.rel]) 8 o.ord o.sc
  | .lds o => ordRow (if o.w = .b128 ∨ o.w = .b256 then [] else [.acq]) 4 o.ord o.sc
  | .sts o => ordRow (if o.w = .b128 ∨ o.w = .b256 then [] else [.rel]) 4 o.ord o.sc
  | .ldc o => ordRow [.acq] 8 o.ord o.sc
  | .stc o | .stcMd o => ordRow [.rel] 8 o.ord o.sc
  | .aadd o => o.ordOk true true false
  | .ainc o => o.ordOk true true false
  | .acas o => o.ordOk false false true
  | .axch o | .acas64 o | .axch64 o => o.ordOk false false false
  | .afadd o | .amin o | .amax o | .aminn o | .amaxn o | .aand o | .aor o | .axor o | .aadd64 o | .ahadd o =>
    o.ordOk true false false
  | .fence o => decide (o.ord ≠ .rlx) && o.sc.upTo 1 8
  | .bar o => decide (o.ord = .rlx ∨ o.ord = .ar) && o.sc.upTo 3 4
  | .arrive o | .arriveBk o => decide (o.ord = .rlx ∨ o.ord = .rel) && o.sc.upTo 3 4
  | .pfL1 o | .pfL2 o => decide (o.ord = .rlx) && decide (o.sc = .fib)
  | _ => true

/-- The instructions that carry no dependence between fibres (R106). -/
def Instr.crossFibre : Instr → Bool
  | .qxh _ | .qxv _ | .qxd _ | .qbc _ | .qadd _ | .qmax _ | .qmin _ | .shflIdx _ | .shflUp _ | .shflDn _ | .shflXor _ | .bcast _
  | .voteAny _ _ | .voteAll _ _ | .ballot _ _ | .gredFadd _ | .gredIadd _ | .gredFmax _ | .gredFmin _ | .gscanFadd _ | .gscanIadd _
  | .matchV _ => true
  | _ => false

/-- The cross-fibre instructions whose members take part as they execute it: QUAD (R212). -/
def Instr.quad : Instr → Bool
  | .qxh _ | .qxv _ | .qxd _ | .qbc _ | .qadd _ | .qmax _ | .qmin _ => true
  | _ => false

/-- Words that access memory or command a unit that does: ACTLD, and the majors LD up to ATOM.B, SYNC, PF, AP, TROLLEY, the
matrix majors, MEMX, FAB, LNCH (R87). -/
def Instr.accesses (i : Instr) : Bool := decide (0x20 ≤ i.major) || (match i with | .actld _ _ _ => true | _ => false)

/-- The predicates a word reads as operands of a value or an address; RDP reads all (R175, R176). -/
def Instr.predsRead : Instr → List Nat
  | .sel _ _ _ p => [p.toNat]
  | .pand _ a b | .por _ a b | .pxor _ a b | .pandn _ a b => [a.toNat, b.toNat]
  | .pnot _ a => [a.toNat]
  | .rdp _ => List.range 16
  | _ => []

/-- The predicates a word writes from its sources, or anew; WRP writes all (R174, R175, R176, R213). -/
def Instr.predsWritten : Instr → List Nat
  | .cmpiEq o | .cmpiLt o | .cmpiLtn o | .cmpiLe o => [o.p.toNat]
  | .cmpEq o | .cmpNe o | .cmpLt o | .cmpLe o | .cmpLtn o | .cmpLen o | .tst o
  | .fcmpEq o | .fcmpLt o | .fcmpLe o | .fcmpUn o | .twph o | .twge o => [o.p.toNat]
  | .pand d _ _ | .por d _ _ | .pxor d _ _ | .pandn d _ _ | .pnot d _ | .voteAny d _ | .voteAll d _ => [d.toNat]
  | .pset p | .pclr p | .twtl _ p _ _ => [p.toNat]
  | .wrp _ _ => List.range 16
  | _ => []

end Sys2Proof
end

