-- ==== Sys2Proof/Machine/Data.lean ====
section
/-!
DEFINITION. Machine/Data.lean: byte memory in one canonical form, little-endian words over it, and finite
maps kept as lists.
-/

namespace Sys2Proof.Machine

/-- A finite map; a key it does not list has the value its reader supplies. -/
abbrev Map (κ α : Type) := List (κ × α)

/-- The value listed for `k`. -/
def Map.at? {κ α : Type} [DecidableEq κ] : Map κ α → κ → Option α
  | [], _ => none
  | (x, v) :: r, k => if x = k then some v else Map.at? r k

/-- The value for `k`, `d` where none is listed. -/
def Map.atD {κ α : Type} [DecidableEq κ] (m : Map κ α) (k : κ) (d : α) : α := (Map.at? m k).getD d

/-- Sets the value for `k`. -/
def Map.put {κ α : Type} [DecidableEq κ] : Map κ α → κ → α → Map κ α
  | [], k, v => [(k, v)]
  | (x, w) :: r, k, v => if x = k then (k, v) :: r else (x, w) :: Map.put r k v

/-- Removes `k`. -/
def Map.del {κ α : Type} [DecidableEq κ] : Map κ α → κ → Map κ α
  | [], _ => []
  | (x, w) :: r, k => if x = k then Map.del r k else (x, w) :: Map.del r k

/-- Changes the value for `k`, starting from `d` where none is listed. -/
def Map.upd {κ α : Type} [DecidableEq κ] (m : Map κ α) (k : κ) (d : α) (f : α → α) : Map κ α :=
  Map.put m k (f (Map.atD m k d))

/-- Bytes at addresses: addresses strictly rising, no entry equal to 0, which is what an unlisted address
reads as (DESIGN CHOICE, log 11). -/
abbrev Memory := List Host.Cell

/-- The canonical form, from address `lo` up. -/
def Memory.wfFrom (lo : Nat) : Memory → Bool
  | [] => true
  | (x, c) :: r => decide (lo ≤ x) && decide (c ≠ 0) && Memory.wfFrom (x + 1) r

/-- The canonical form. -/
def Memory.wf (m : Memory) : Bool := Memory.wfFrom 0 m

/-- One byte. -/
def Memory.read : Memory → Nat → Byte
  | [], _ => 0
  | (x, c) :: r, a => if x = a then c else Memory.read r a

/-- Writes one byte, keeping the canonical form. -/
def Memory.write : Memory → Nat → Byte → Memory
  | [], a, b => if b = 0 then [] else [(a, b)]
  | (x, c) :: r, a, b =>
    if a < x then (if b = 0 then (x, c) :: r else (a, b) :: (x, c) :: r)
    else if a = x then (if b = 0 then r else (a, b) :: r)
    else (x, c) :: Memory.write r a b

/-- `n` bytes from `a` up. -/
def Memory.bytes (m : Memory) (a : Nat) : Nat → List Byte
  | 0 => []
  | n + 1 => Memory.read m a :: Memory.bytes m (a + 1) n

/-- Writes a list of bytes from `a` up. -/
def Memory.writeBytes (m : Memory) (a : Nat) : List Byte → Memory
  | [] => m
  | b :: bs => Memory.writeBytes (Memory.write m a b) (a + 1) bs

/-- Little-endian value of a list of bytes (R12). -/
def ofBytes : List Byte → Nat
  | [] => 0
  | b :: bs => b.toNat + 256 * ofBytes bs

/-- The `n` little-endian bytes of a value (R12). -/
def toBytes : Nat → Nat → List Byte
  | 0, _ => []
  | n + 1, v => BitVec.ofNat 8 v :: toBytes n (v / 256)

/-- Reads `n` bytes as one little-endian value (R12). -/
def Memory.get (m : Memory) (a n : Nat) : Nat := ofBytes (Memory.bytes m a n)

/-- Writes `n` bytes of a value, least significant first (R12). -/
def Memory.put (m : Memory) (a n v : Nat) : Memory := Memory.writeBytes m a (toBytes n v)

/-- Zeroes `n` bytes. -/
def Memory.clear (m : Memory) (a n : Nat) : Memory := m.filter fun c => decide (c.1 < a ∨ a + n ≤ c.1)

/-- A little-endian field of `n` bytes at offset `off` of a record (R12). -/
def field (r : List Byte) (off n : Nat) : Nat := ofBytes ((r.drop off).take n)

/-- Bits [hi:lo] of a value. -/
def bits (v hi lo : Nat) : Nat := v / 2 ^ lo % 2 ^ (hi + 1 - lo)

/-- `v` set to the nearest limit of [lo, hi] (R91). -/
def clamp (lo hi v : Nat) : Nat := if v < lo then lo else if hi < v then hi else v


/-- A list with later repeats removed, its order kept. -/
def dedup {α : Type} [DecidableEq α] (l : List α) : List α :=
  (l.foldl (fun acc x => if x ∈ acc then acc else x :: acc) []).reverse

end Sys2Proof.Machine
end

