-- ==== Sys2Proof/Machine/State.lean ====
section
/-!
DEFINITION. Machine/State.lean: everything the spec gives the machine to hold, as plain data, and the machine
right after reset. INVENTORY.md lists each field with the rule that names it and its reset value.
-/

namespace Sys2Proof.Machine

/-- Reasons the machine stops with a fault. No architectural event is one: traps, launch errors and refusals of the
fabric are next states. -/
inductive Fault where
  /-- Raised by `step` for a turn of a coach or an access processor while the compute dies are not released, and for one of a
  control core before its firmware is measured (R423, R424). Safe: the hardware runs nothing there. -/
  | heldInReset
deriving DecidableEq, Repr

/-- Reasons a step has no meaning. -/
inductive Refusal where
  /-- Raised by an arm of `exec` whose instruction has no meaning yet. Safe. -/
  | notModelled (mnemonic : String)
  /-- Raised by an engine's or the outside world's step, or by a turn of the agenda, that cannot occur in this
  state: what it needs has not happened. Safe: the agenda offers steps, and this one does not happen here. -/
  | notEnabled (step : String)
  /-- Raised by `exec` of an instruction word when no fibre, access processor or control core has the turn.
  Safe: the hardware executes a word only for one of these. -/
  | noAgent
deriving DecidableEq, Repr

/-- What a poisoned or remotely faulted load leaves on its destination (R222). -/
inductive Mark where
  | poison (addr : W64)
  | remote (addr : W64) (code : BitVec 8) (lane : Nat)
deriving DecidableEq, Repr

/-- A v register: value, full/empty bit (R80), mark (R222). -/
structure RegCell where
  val : W32 := 0
  full : Bool := true
  mark : Option Mark := none
deriving DecidableEq, Repr

/-- An s register (R73, R80, R222). -/
structure SCell where
  val : W64 := 0
  full : Bool := true
  mark : Option Mark := none
deriving DecidableEq, Repr

/-- A trap: cause code (R254) and what TPC, TADDR and TINFO will hold. -/
structure Trap where
  cause : Nat
  pc : W64
  addr : W64 := 0
  info : W64 := 0
deriving DecidableEq, Repr

/-- An entry of a gang's trap queue (R250). -/
structure TrapEntry where
  lane : Nat
  trap : Trap
deriving DecidableEq, Repr

/-- A translation fault that parks a fibre (R255), or that a continuation awaits (R257). -/
structure PageFault where
  trap : Trap
  page : Nat
deriving DecidableEq, Repr

/-- What a fibre waits for (R152). `reg`/`pred` operands are kept resolved. -/
inductive Wait where
  /-- ready or awaiting its await set -/
  | ready
  /-- at BAR; true for cluster scope (R235) -/
  | bar (clu : Bool)
  /-- at a gang collective (R214) -/
  | coll (i : Instr)
  /-- at RECONV; the cycle at which its group was opened (R158) -/
  | reconv (opened : Nat)
  /-- TWPH on a scratchpad byte address with a parity; the cycle of issue and the hint (R239, R240) -/
  | twph (p : Pred) (key : Nat) (parity : Bool) (since hint : Nat)
  /-- TWTL on a context for a value, with its word, which a fault that it reports shows (R241, R254) -/
  | twtl (p : Pred) (t : Nat) (n : W64) (since hint : Nat) (word : W32)
  /-- TWGE on a scratchpad word for a value (R242) -/
  | twge (p : Pred) (key : Nat) (v : W32) (since hint : Nat)
  /-- at MXACQ or MXACQ.P (R353) -/
  | mxacq (paired : Bool)
  /-- at a PRE while a stop is requested, with its liveness entry (R258) -/
  | pre (entry : List Byte)
  /-- parked on a translation fault since a CLOCK time (R255, R256) -/
  | parked (f : PageFault) (since : Nat)
  /-- its trap queue entry is not yet delivered (R251) -/
  | queued
  /-- at an ERET that waits for the service field (R257) -/
  | eret
  /-- stopped for the debugger (R263) -/
  | debug
  /-- its launch ended as a launch error (R252) -/
  | dead
deriving DecidableEq, Repr

/-- Status of a fibre slot (R156). -/
inductive FStatus where
  | free | live | helper
deriving DecidableEq, Repr

/-- The snapshot of an open idempotent region (R188, R259). -/
structure Snap where
  index : Nat
  pc : W64
  regs : List (Nat × W32)
  p : BitVec 16
  wb : BitVec 8
  lr : W64
deriving DecidableEq, Repr

/-- A fibre (R139); also the state of an access processor (R311) and of a control core (R416). -/
structure Fibre where
  pc : W64 := 0
  p : BitVec 16 := 0
  wb : BitVec 8 := 0
  lr : W64 := 0
  /-- physical registers; an unlisted one is zero and full -/
  regs : Map Nat RegCell := []
  /-- k0-k5; an unlisted one is 0 (R76) -/
  k : Map Nat W32 := []
  await : List Reg := []
  status : FStatus := .live
  wait : Wait := .ready
  whint : W64 := 0
  tcause : W64 := 0
  tpc : W64 := 0
  taddr : W64 := 0
  tinfo : W64 := 0
  /-- its trap queue entry has been delivered and it has not executed ERET (R251) -/
  service : Bool := false
  /-- the fault of the compatibility continuation it stands in (R257) -/
  continuing : Option PageFault := none
  /-- its trap service began inside its continuation, and ends first -/
  inner : Bool := false
  /-- a TIMER raised during service, held until ERET (R252); a DEBUG_STOP due at the next run boundary (R253) -/
  heldTimer : Bool := false
  heldDebug : Bool := false
  region : Option Snap := none
  /-- cycle since which it has been ready, and cycle at which its previous run ended (R161); a fibre that has had no run
  stands as one whose run ended at 0, before every other (DESIGN CHOICE, log 65) -/
  readySince : Nat := 0
  lastEnd : Nat := 0
  /-- destination of the pop it waits to perform, emptied at issue (R80), and whether it still takes the word: not once the
  debugger has written it (R263) -/
  pop : Option (Reg × Bool) := none
  /-- serial from which leased lines may answer it: what an INVL1 of its own leaves (R238) -/
  fresh : Nat := 0
  /-- entries read of q0-q5 and pushed to q6-q7, by queue (R244, R313) -/
  cursor : Map Nat Nat := []
deriving DecidableEq, Repr

/-- The gang copies of the special registers (R90); a control core has its own (R417). -/
structure GangSr where
  runcyc : Nat := 0
  tmrcmp : W64 := 0
  tvec : W64 := 0
  cont : W64 := 0
  rcvwin : Nat := 256
deriving DecidableEq, Repr

/-- A gang (R138, R139). -/
structure Gang where
  s : Map Nat SCell := []
  trapq : List TrapEntry := []
  sr : GangSr := {}
  /-- the control complex holds the gang's debug attachment (R263) -/
  debug : Bool := false
  /-- it owned the matrix engine when its block was stopped, and resumes once it owns it again (R331) -/
  held : Bool := false
deriving DecidableEq, Repr

/-- A coach on a pipe (R153): its block, its members' slots, the words executed in the run, whether it stalls, and the CLOCK
since which it has not: that of its last word, its formation or the end of a stall (R154). -/
structure Coach where
  block : Nat
  members : List Nat
  run : Nat := 0
  stalled : Bool := false
  since : Nat := 0
  /-- members that have performed the current word while others still wait for a unit it commands -/
  served : List Nat := []
deriving DecidableEq, Repr

/-- Why a stop is requested (R258). -/
inductive StopWhy where
  | preempt | switch | faults | rollback
deriving DecidableEq, Repr

/-- Stop state of a block (R258, R261). -/
inductive StopPhase where
  | running
  | requested (why : StopWhy) (since : Nat)
  | stopped (why : StopWhy) (deadline : Bool)
  | saved (why : StopWhy)
deriving DecidableEq, Repr

/-- Launch states (R145). -/
inductive LState where
  | accepted | pending | placing | running | retired
deriving DecidableEq, Repr

/-- An accepted launch (R140-R147, R264). -/
structure Launch where
  part : Nat
  queue : Nat
  /-- virtual address of the record in memory, and the copy taken of its 256 bytes -/
  recAt : Nat
  record : List Byte
  state : LState := .accepted
  /-- core, context and ticket of SIG -/
  sig : Option (Nat × Nat × Nat) := none
  /-- blocks placed, and whether placement is paused -/
  cursor : Nat := 0
  paused : Bool := false
  /-- cause of the launch error that ended it -/
  error : Option Nat := none
  nonRecoverable : Bool := false
  rollbacks : Nat := 0
  /-- order in which the launch was wholly placed -/
  placed : Nat := 0
  /-- an uncorrectable error has been consumed and rollback is due -/
  mustRollback : Bool := false
  /-- line images, latest first -/
  undo : List (Nat × List Byte) := []
deriving DecidableEq, Repr

/-- What makes a rollback-capable launch non-recoverable (R192, R264, R378). -/
inductive NonRec where
  | logFull | remote | cell | launch | bank
deriving DecidableEq, Repr

/-- A launch queue (R145, R148, R193). Its status also holds the launch errors of its launches, as LAUNCHID and cause
(R146), and the events that made a launch of it non-recoverable (R264). -/
structure LQueue where
  held : List Nat := []
  cause : Nat := 0
  offset : Nat := 0
  lastRetired : Option Nat := none
  errors : List (Nat × Nat) := []
  lost : List (Nat × NonRec) := []
deriving DecidableEq, Repr

/-- A partition (R418, R420, R145, R149, R256). -/
structure Partition where
  cfg : W64 := 0
  ptbase : W64 := 0
  savebase : W64 := 0
  savesize : W64 := 0
  quota : BitVec 16 := 0x2040
  parkthr : Nat := 40
  predeadline : Nat := 20000
  qprio : Map Nat Nat := []
  pendShadow : Bool := false
  pendUndo : Bool := false
  overSince : Option Nat := none
  /-- its blocks are being stopped for a context switch or a native switch-out, whose image is to take its carriages without a
  holder (R327) -/
  switching : Bool := false
  /-- next sector of the placement round-robin, as an index of the partition's sectors -/
  rr : Nat := 0
deriving DecidableEq, Repr

/-- An agent of the memory model (R95): a fibre, access processor or control core; an engine's operation for one of
these; an executor; a stack's reducer; the host; an agent of another device. -/
inductive Party where
  | agent (k : FKey)
  | engine (k : FKey) (op : Nat)
  | exec (bank : Nat) (e1 : Bool)
  | reducer (stack : Nat)
  | host
  | device (d : Nat)
deriving DecidableEq, Repr

/-- A write that some agents need not have observed yet (R99, R102): where it stands, the bytes it replaced, who performed it
and when, the agents it happens before everything of, and those that have read it or a later one. -/
structure Hidden where
  id : Nat
  scr : Bool
  at_ : Nat
  old : List Byte
  by_ : Party
  clock : Nat
  known : List Party
  read : List Party := []
  /-- the request or matrix operation that performed it; part of a drain's tile (R119) -/
  req : Option Nat := none
  tile : Bool := false
deriving DecidableEq, Repr

/-- A release sequence (R103): the release's agent and scope, the bytes of its location with the first write of the sequence
and the write that ended it, the writes that happen before the release, and the agents that have read a member. With
`through`, what R113 gives a reader of an executor's write to that bank. -/
structure Msg where
  head : Party
  sc : Scope
  scr : Bool
  cells : List (Nat × Nat × Option Nat)
  carry : List Nat
  through : Option Nat := none
  readers : List Party := []
deriving DecidableEq, Repr

/-- The release that the completion of an engine's operation is (R7): the ticket, the operation's agent, its scope, what
happens before it. -/
structure Completion where
  core : Nat
  ctx : Nat
  ticket : Nat
  head : Party
  sc : Scope
  carry : List Nat
deriving DecidableEq, Repr

/-- A relaxed load of a scratchpad whose value has not come back: its request, its agent, the storage it reads. It may take a
later value while its agent has not touched that storage again (R102, R105). -/
structure Late where
  req : Nat
  who : Party
  cells : List (Nat × Nat)
deriving DecidableEq, Repr

/-- What precedes a cross-fibre instruction in the program order of another fibre that took part in it: the fibre that may restore
the order, the writes that happen before, and what had been issued (R106). -/
structure Crossed where
  fibre : FKey
  carry : List Nat
  issued : List Nat
deriving DecidableEq, Repr

/-- What the memory model remembers of the writes performed since it was turned on (R95-R114; DESIGN CHOICE, log 66): the
writes with the agents that have still not observed them, newest first; release sequences; completions; release fences and
ar fences with what they carry; what preceded cross-fibre instructions; what registers and predicates depend on; loads of
scratchpads that may still take a later value; releases sent to other devices, with what they wait for and what they carry. -/
structure Veil where
  on : Bool := false
  next : Nat := 1
  hidden : List Hidden := []
  msgs : List Msg := []
  done : List Completion := []
  fences : List (Party × Scope × List Nat) := []
  ars : List (Party × Scope × List Nat) := []
  crossed : List Crossed := []
  taint : Map (FKey × Nat) (List Msg) := []
  late : List Late := []
  abroad : List (Nat × List Nat × List Nat) := []
deriving DecidableEq, Repr

/-- A line at which a write of an engine, the host or another device waits for leases: no lease is granted on it, and later
accesses stand behind it (R281, R341). `line` is its home and line number, `behind` what arrived before the write. -/
structure LineHold where
  line : Nat × Nat
  owner : Party
  behind : List Nat
deriving DecidableEq, Repr

/-- A TLB entry (R273, R276): partition, first virtual byte, log2 of the page size, leaf PTE. -/
structure Tlb where
  part : Nat
  base : Nat
  size : Nat
  pte : W64
deriving DecidableEq, Repr

/-- A page of a sector's L2 TLB miss queue, with the agents that wait for it in the order of their accesses (R276). A result
`some r` is a walk that ended with PAGE_NP reason `r`. `walking`: one of the die's walkers has taken it; `filled`: its walk has
filled the TLBs, and the agents it still lists repeat their accesses, in this order. -/
structure Miss where
  sector : Nat
  part : Nat
  page : Nat
  result : Option Nat := none
  waiters : List Party := []
  walking : Bool := false
  filled : Bool := false
deriving DecidableEq, Repr

/-- A leased line in an L1 or in a remote-sector copy (R279, R285); `serial` orders the reads at the homes that brought the
lines. -/
structure Line where
  la : Nat
  data : List Byte
  exp : Nat
  serial : Nat := 0
  /-- the home that granted the lease (R275), and the serial that remembered writes had reached then (R102) -/
  home : Nat := 0
  mark : Nat := 0
deriving DecidableEq, Repr

/-- A line that a slice holds, in one of its ways: one it is the home of, or a leased copy of another home's
(R279, R285, R288). -/
structure SLine where
  la : Nat
  way : Nat
  copy : Option Line := none
deriving DecidableEq, Repr

/-- Who a memory request acts for (R95). -/
inductive Origin where
  | fibre (k : FKey)
  | remote (dev tenant cls seq idx : Nat)
  | host
  /-- an engine, a walk, the host or a prefetch whose visit of a line goes through a spill queue (R286) -/
  | unit
deriving DecidableEq, Repr

/-- Where a request's returned value goes (R80, R312). -/
inductive Dst where
  | none
  | regs (rs : List Nat)
  | sreg (block gang n : Nat)
  | queue (core q entry lane : Nat)
deriving DecidableEq, Repr

/-- What a memory request does (R223, R227, R230, R410). -/
inductive What where
  | load (w : LdW)
  /-- a word of a scratchpad, read at issue; the address stands in `va` (R223) -/
  | lds (w : LdW)
  | ldc
  | store (n : Nat) (data : Nat)
  | cell (md : Bool) (seq : BitVec 32) (value : W64)
  | atom (op : Nat) (use : Use) (d e : W64)
  | wlease (renew : Bool) (us : Nat)
  /-- a line of another device, for a record, a table or code that stands there -/
  | line
  /-- the end of the lease of a held region, with its write-backs -/
  | wdrop
  /-- bytes of a held region written back under its generation (R407) -/
  | back (gen : Nat) (cells : List (Nat × Byte))
  /-- a result of the special-function unit; for ACT the table and bank it uses (R207) -/
  | sfu (bank : Option (Nat × Bool))
  /-- the SIG ticket into the record of an accepted launch, whose LAUNCHID LAUNCH writes once it stands there (R143) -/
  | sig (ticket lid : Nat)
  /-- the visit of a line by what is no request (R286) -/
  | visit
deriving DecidableEq, Repr

/-- How far a request has come (R286, R281, R403). -/
inductive Stage where
  | inFlight
  | queued
  | spilled
  | served (v : Nat) (poison : Bool)
  /-- in a cart; sent from one; sent without one -/
  | cart
  | sent
  | remote
  /-- discarded in favour of a newer cell store (R125, R127) -/
  | discarded (by_ : Nat)
  /-- a write of frame-owner entries, until their granules are zeroed, and the value it then returns (R421) -/
  | zeroing (granules : List Nat) (v : Nat)
deriving DecidableEq, Repr

/-- A memory request from issue to completion. -/
structure Req where
  id : Nat
  org : Origin
  core : Nat
  /-- gang and gang-lane it acts for -/
  gang : Nat × Nat := (0, 0)
  lane : Nat := 0
  part : Nat
  va : W64
  pa : Nat
  /-- the other device the page names (R391) -/
  dev : Option Nat := none
  /-- members of the multicast group still to answer (R402) -/
  members : List Nat := []
  /-- lease class of the access and of its page (R224, R280, R282, R285) -/
  lcls : Nat := 0
  pcls : Nat := 0
  hsec : Nat := 3
  uc : Bool := false
  noAlloc : Bool := false
  strm : Bool := false
  what : What
  ord : Order := .rlx
  sc : Scope := .fib
  dst : Dst := .none
  /-- requests and matrix operations that must be done first (R104, R118) -/
  deps : List Nat := []
  /-- fibres of its coach that release to its location in the same word (R271; DEDUCED, log 78) -/
  mates : List FKey := []
  word : W32 := 0
  /-- launch whose undo log takes the write (R264) -/
  undo : Option Nat := none
  /-- the lowest-numbered member of a multicast group that refused, and its code (R402) -/
  refused : Option (Nat × Nat) := none
  /-- issued to a region held under a write lease, behind the fetch of its line (R407) -/
  held : Bool := false
  /-- the multicast store whose copy for this device it is (R402) -/
  copy : Option Nat := none
  /-- CLOCK at which it was sent to another device, and whether it waits there for another holder's write lease (R399) -/
  sentAt : Nat := 0
  excused : Bool := false
  stage : Stage := .inFlight
  /-- slice queue it occupies, as die * 48 + sector * 16 + slice; 2000 up: the queue of a controller (R292) -/
  slice : Nat := 0
  since : Nat := 0
  /-- CLOCK before which its response does not leave the slice (R286) -/
  hold : Nat := 0
  /-- a qnt atomic's quantum also serves this many earlier qnt atomics of its core on the location; the count it takes from
  the quantum of a later one (R110; DESIGN CHOICE, log 67) -/
  ahead : Nat := 0
  count : Option Nat := none
deriving DecidableEq, Repr

/-- A slice (R286-R289). -/
structure Slice where
  /-- lines it holds, least recently used first -/
  lines : List SLine := []
  /-- CLOCK until which entries of its queue stay taken whose request has been performed -/
  busy : List Nat := []
  /-- CLOCK at which an agent of a block (its serial + 1), or anyone else (0), last sent it a request (R316) -/
  callers : Map Nat Nat := []
  peak : Nat := 0
  spills : Nat := 0
  groups : Nat := 0
  /-- groups converted when the SSCONV it now carries out began, and the serial that bank commands queued since the start
  of its current group have reached -/
  base : Nat := 0
  mark : Nat := 0
  /-- group counts still to reach, in the order in which SSCONVs named them, with the ticket that awaits each:
  core, context, ticket -/
  targets : List (Nat × Nat × Nat × Nat) := []
  /-- the group in conversion has stopped taking lines and drains, since this CLOCK (R289) -/
  draining : Option Nat := none
deriving DecidableEq, Repr

/-- The first fault recorded on a timeline context (R308): the gang it is reported to. -/
structure CtxFault where
  gang : Nat × Nat
  cause : Nat
  addr : W64
  info : W64 := 0
  /-- address of the operation's record; 0 where it has none -/
  record : Nat := 0
deriving DecidableEq, Repr

/-- A timeline context (R7, R8, R305). -/
structure Ctx where
  issued : Nat := 0
  value : Nat := 0
  done : List Nat := []
  /-- the first ticket whose operation's completion scope is die or wider (R7, R114) -/
  wide : Option Nat := none
  faults : List CtxFault := []
  /-- tickets of rollback-capable launches that have not retired, with the launch (R264) -/
  rb : List (Nat × Nat) := []
deriving DecidableEq, Repr

/-- State of one bank of an activation table (R210). -/
inductive TabState where
  | zero | loading | ready | poisoned
deriving DecidableEq, Repr

/-- One bank of an activation table: state, address of its last ACTLD, its 4160 bytes. -/
structure TabBank where
  state : TabState := .zero
  addr : Nat := 0
  part : Nat := 0
  bytes : List Byte := []
  /-- the 64 bytes of the header that ACTLD has read and checked, and whether they came poisoned (R208) -/
  header : Option (List Byte × Bool) := none
  /-- serial of its load and the fibre that issued it, whose reads its reads are (R208) -/
  id : Nat := 0
  fibre : Option FKey := none
  /-- block for whose restore it is loaded, and a fault that waits for service (R211) -/
  restore : Option Nat := none
  fault : Option PageFault := none
deriving DecidableEq, Repr

/-- An activation table (R210): its two banks and which of them is active. -/
structure ActTable where
  bank0 : TabBank := {}
  bank1 : TabBank := {}
  active : Bool := false
deriving DecidableEq, Repr

/-- An entry of q0-q7 (R244, R312, R313): 32 words, absent where none; lanes that have read it. -/
structure QEntry where
  serial : Nat
  words : List (Option W32)
  ready : Bool
  read : List Nat := []
deriving DecidableEq, Repr

/-- A queue of a core (R244). -/
structure Queue where
  bound : Option (Nat × Nat) := none
  entries : List QEntry := []
  next : Nat := 0
deriving DecidableEq, Repr

/-- A trolley operation (R299-R308). Its record and command group stand as at issue. -/
structure TrolleyOp where
  id : Nat
  core : Nat
  fibre : FKey
  /-- 0 TCPY, 1 TGATH, 2 TSCAT, 3 TFILL, 4 TRED -/
  kind : Nat
  record : List Byte
  recAt : Nat
  group : List W32
  ticket : Nat
  deps : List Nat := []
  word : W32 := 0
  done : List Nat := []
  fault : Option PageFault := none
  aborted : Bool := false
  remote : Bool := false
deriving DecidableEq, Repr

/-- Carriage states (R323). -/
inductive CState where
  | ready | loading | stale | evicted | saved
deriving DecidableEq, Repr

/-- How a carriage was loaded, for a reload (R327, R362): record, its address and loading partition, fibre. -/
structure CrLoad where
  record : List Byte
  recAt : Nat
  part : Nat
  fibre : FKey
  /-- T4 ticket of a CRLOAD; none for a reload (R323) -/
  ticket : Option Nat
  word : W32 := 0
  deps : List Nat := []
deriving DecidableEq, Repr

/-- A carriage (R319-R323). Plane contents: weight of (k, n) at 2 * (k * ncol + n), two bytes; scale byte of
(block, n) at block * ncol + n. -/
structure Carriage where
  core : Nat
  first : Nat
  gen : Nat
  kp : Nat
  np : Nat
  form : Nat
  scales : Bool := false
  paired : Bool := false
  state : CState := .ready
  pinned : Bool := false
  tracked : Bool := false
  smoothed : Bool := false
  holder : Option Nat := none
  tenant : Nat := 0
  part : Nat := 0
  /-- whether it holds its slots (R327) -/
  slots : Bool := true
  /-- saved into an image while it stays in its planes (R327) -/
  imaged : Bool := false
  /-- a tracked write has marked it while it was SAVED (R325) -/
  staled : Bool := false
  weights : Memory := []
  sideStore : Memory := []
  smooth : List W32 := []
  load : Option CrLoad := none
  /-- source ranges it refers to: die, first and last line (R324) -/
  hulls : List (Nat × Nat × Nat) := []
  /-- a load is in flight, and whether a tracked write was performed during it (R325) -/
  loadDirty : Bool := false
  loadFault : Option PageFault := none
deriving DecidableEq, Repr

/-- A part of a destination row of a drain, in one page: physical address, length, undo launch, HSEC of the page (R358). -/
structure DrainPiece where
  pa : Nat
  len : Nat
  undo : Option Nat := none
  hsec : Nat := 3
deriving DecidableEq, Repr

/-- A matrix operation issued and not finished (R339). `next` counts absorbed row segments. -/
inductive MxKind where
  /-- rows by lane with 32 fragment registers and the scale register (R334) -/
  | mmaR (fmt : MFmt) (bsel : Nat) (rows : List (Nat × List W32 × W32)) (car : Nat) (paired : Bool)
  | mmaS (fmt : MFmt) (atile : W64) (car : Nat) (paired : Bool)
  | zero (both : Bool)
  /-- command group, ticket, parts of each destination row in its first and second page -/
  | drain (group : List W32) (ticket : Nat) (rows : List (List DrainPiece))
deriving DecidableEq, Repr

/-- A matrix operation of a core (R336-R339, R355). -/
structure MxOp where
  id : Nat
  fibre : FKey
  desc : W64
  kind : MxKind
  word : W32 := 0
  deps : List Nat := []
  next : Nat := 0
deriving DecidableEq, Repr

/-- A tile read by a drain and not yet applied (R340, R341, R359): its elements as destination address and FP32
pattern read, and what is done with each. -/
structure Drain where
  id : Nat
  core : Nat
  fibre : FKey
  ticket : Nat
  word : W32 := 0
  /-- 0 scratchpad, 1 shared store, 2 DRAM -/
  target : Nat
  add : Bool
  ofmt : Nat
  scexp : Int := 0
  /-- launch whose undo log takes the writes, per element -/
  undo : List (Option Nat) := []
  elems : List (Nat × Nat)
  /-- its lines at their homes (R341) -/
  lines : List (Nat × Nat) := []
  /-- scratchpad address of the first uncorrectable element (R359) -/
  poisoned : Option Nat := none
  /-- completion scope: cluster for a tile in the twin's scratchpad (R340) -/
  twin : Bool := false
deriving DecidableEq, Repr

/-- A trap-bearing entry of a core's cart-fault record (R404). -/
structure CartFault where
  block : Nat
  gang : Nat
  lane : Nat
  addr : W64
  cause : Nat := 0x14
  code : Nat
deriving DecidableEq, Repr

/-- What a stopped block's image holds beside its fibres and gangs, which stay in their own records (R211, R248, R258,
R309, R314, R331; DESIGN CHOICE, log 39). -/
structure Image where
  /-- saved bytes by offset in the allocation, and its poisoned words -/
  scratch : Memory := []
  poison : List Nat := []
  /-- activation tables whose active bank was READY, with the address of its last ACTLD -/
  tables : List (Nat × Nat) := []
  /-- gangs that owned or waited for the matrix engine, in the order of the owner queue: gang, whether it owned it, whether
  paired -/
  mxGangs : List (Nat × Bool × Bool) := []
  /-- access processor of a gang of the block: its state, owner record, stop request and the core of its ticket -/
  ap : Option (Fibre × (Nat × Nat × Nat × Nat) × Bool × Nat) := none
  queues : List (Nat × Queue) := []
  trolley : List TrolleyOp := []
  reissue : List Req := []
  /-- bytes of shadow storage it takes -/
  bytes : Nat := 0
deriving DecidableEq, Repr

/-- A placed block (R138, R150, R151, R156, R258). -/
structure Block where
  lid : Nat
  core : Nat
  x : Nat := 0
  y : Nat := 0
  z : Nat := 0
  part : Nat := 0
  tenant : Nat := 0
  fibres : Nat := 1
  maxf : Nat := 1
  regs : Nat := 32
  scratch : Nat := 0
  roles : Nat := 0
  /-- 128-byte units of the core's scratchpad storage, in block-relative order (R150, R151) -/
  units : List Nat := []
  /-- serial of the other block of the twin (R149) -/
  twin : Option Nat := none
  /-- order of its latest placement (R161) -/
  order : Nat := 0
  stop : StopPhase := .running
  image : Image := {}
deriving DecidableEq, Repr

/-- A core (R2, R3). -/
structure Core where
  ctx : Map Nat Ctx := []
  tables : Map Nat ActTable := []
  owner : Option (Nat × Nat) := none
  /-- the owner holds this array and its cluster partner's (R332) -/
  ownerPaired : Bool := false
  /-- waiting gangs, and whether each waits for both arrays -/
  mxq : List ((Nat × Nat) × Bool) := []
  mxOps : List MxOp := []
  drains : List Drain := []
  /-- generation counters of the plane slots; an unlisted one is 1 (R321) -/
  gens : Map Nat Nat := []
  queues : Map Nat Queue := []
  /-- record cache, most recently used first (R298) -/
  recCache : List (Nat × List Byte) := []
  trolley : List TrolleyOp := []
  cartFaults : List CartFault := []
  tenant : Option Nat := none
  /-- gang and block that issued APGO, its lane, the T7 ticket (R245) -/
  apOwner : Option (Nat × Nat × Nat × Nat) := none
  apStop : Bool := false
  /-- spans of cycles in which every pipe was held by a stalled coach, latest first: from, to (R162) -/
  heldUp : List (Nat × Nat) := []
  /-- core whose T7 context holds the ticket, where the block came here from another (R9) -/
  apHome : Option Nat := none
deriving DecidableEq, Repr

/-- A bank command in an executor's queue (R373-R378). -/
structure BankCmd where
  id : Nat
  w0 : W32
  w1 : W32
  w2 : W32
  w3 : W32
  core : Nat
  fibre : FKey
  block : Nat
  ticket : Nat
  deps : List Nat := []
  /-- element steps performed; a WAITFLAG's start time; COPY's captured source -/
  step : Nat := 0
  since : Option Nat := none
  buf : List (Nat × Bool) := []
  started : Bool := false
deriving DecidableEq, Repr

/-- A shared-store bank (R370): its executors' queues, the lines each has written since its last release at die
scope or wider (R112), tiles waiting to be applied (R371). -/
structure Bank where
  e0 : List BankCmd := []
  e1 : List BankCmd := []
  dirty0 : List Nat := []
  dirty1 : List Nat := []
deriving DecidableEq, Repr

/-- A command whose writes are performed and whose completion waits for leases (R112, R377). -/
structure BankDone where
  bank : Nat
  exe : Bool
  core : Nat
  ticket : Nat
  block : Nat
  lines : List Nat
  /-- the command's operation as an agent (R95) -/
  by_ : Party := .host
deriving DecidableEq, Repr

/-- A stack reduction (R380-R384). -/
structure Reduction where
  id : Nat
  core : Nat
  fibre : FKey
  part : Nat
  block : List Byte
  ticket : Nat
  word : W32 := 0
  deps : List Nat := []
  /-- elements written -/
  next : Nat := 0
  fault : Option PageFault := none
deriving DecidableEq, Repr

/-- A memory stack (R294, R386, R387). -/
structure Stack where
  deadline : Nat := 86400
  thr : Nat := 4
  lt1 : Nat := 95
  lt2 : Nat := 105
  lt3 : Nat := 115
  temps : List Byte := List.replicate 16 0
  act1 : Bool := false
  act2 : Bool := false
  act2hot : Bool := false
  act3 : Bool := false
  errCount : Nat := 0
  ring : Map Nat (List Byte) := []
  scrubNext : Nat := 0
  /-- CLOCK at which the scrubber's pass began (R294) -/
  passStart : Nat := 0
  rdx : List Reduction := []
deriving DecidableEq, Repr

/-- A cart that is FILLING or LEAVING (R403); FREE carts are not listed. -/
structure Cart where
  dest : Nat
  elems : List Nat
  slots : Nat
  since : Nat
  leaving : Bool := false
  /-- CLOCK at which it became LEAVING -/
  left : Nat := 0
deriving DecidableEq, Repr

/-- A tracked source range (R324): first and last line, 96-bit core mask as core numbers of the die. -/
structure SrcRange where
  lo : Nat
  hi : Nat
  cores : List Nat
deriving DecidableEq, Repr

/-- A compute die. -/
structure Die where
  cartAge : Nat := 2000
  fairWin : Nat := 4096
  e2eto : Nat := 20
  flowGap : Nat := 1500
  cap : Nat := 1200
  curClk : Nat := 2500
  spillBase : W64 := 0
  carts : List Cart := []
  sources : List SrcRange := []
  /-- arithmetic cycles passed since reset, and the remainder in thousandths (R14) -/
  cyc : Nat := 0
  frac : Nat := 0
  /-- CLOCK of the last power step -/
  powerAt : Nat := 0
  /-- sector (0-2) whose miss queue the die's walkers look at next (R276) -/
  walkTurn : Nat := 0
deriving DecidableEq, Repr

/-- Sending side of a flow (R396, R398), by destination and class. -/
structure Flow where
  next : Nat := 0
  unacked : List (Nat × List Nat) := []
  timeouts : Nat := 0
  givenUp : Bool := false
  lastAck : Nat := 0
  resends : Nat := 0
  /-- of a flow to a multicast group: members with the packets that each has acknowledged (R398, R402) -/
  heard : List (Nat × Nat) := []
deriving DecidableEq, Repr

/-- A region this device holds a write lease on (R407). -/
structure HeldLease where
  dev : Nat
  gen : Nat
  exp : Nat
  sector : Nat := 0
  /-- bytes of the region's lines fetched so far, which lines they are, and which are dirty -/
  data : Memory := []
  present : List Nat := []
  dirty : List Nat := []
  /-- fibre that last wrote a line, and at which virtual address -/
  cause : Map Nat (FKey × W64) := []
deriving DecidableEq, Repr

/-- State of a region of this device's memory under write leases (R406). -/
inductive HomeState where
  | open
  | held (dev : Nat) (exp : Nat)
  | orphaned
deriving DecidableEq, Repr

/-- A region at its home (R406). -/
structure HomeLease where
  state : HomeState := .open
  gen : Nat := 0
deriving DecidableEq, Repr

/-- A packet passing through (R395, R402): the hops it has taken, the branches it has still to leave on. -/
structure Transit where
  packet : Packet
  hop : Nat
  branches : List Nat
  slot : Option Nat := none
deriving DecidableEq, Repr

/-- What this device sends to another beside its requests: the status or answer of a remote access, with code 0 for success and
the expiry of the lease that a read is given, 0 where none (R392, R398, R405), an acknowledgement (R398), the notice that a lease
has run out (R407). -/
inductive Sent where
  | status (dev cls seq idx code data exp : Nat)
  | ack (dev cls seq : Nat)
  | notice (dev region gen : Nat)
  /-- a packet passing through, on its `hop`-th hop to a neighbour (R395, R402) -/
  | forward (next hop : Nat) (p : Packet)
deriving DecidableEq, Repr

/-- The sending side of an Ethernet port (R426): frames to send, each with its priority; the priorities that the link partner has
paused; those whose frames this port has asked it to hold back. -/
structure EthPort where
  sending : List (Nat × List Byte) := []
  paused : List Nat := []
  holding : List Nat := []
deriving DecidableEq, Repr

/-- A mailbox (R425). -/
structure Mailbox where
  cmd : Nat := 0
  nonce : List Byte := []
  go : Nat := 0
  status : Nat := 0
  response : List Byte := []
deriving DecidableEq, Repr

/-- A report to the fault service (R276). -/
structure FaultReport where
  part : Nat
  page : Nat
  cause : Nat
  fibres : List FKey
deriving DecidableEq, Repr

/-- A launch error reported to the control complex (R252, R404, R308). -/
structure LaunchError where
  lid : Nat
  cause : Nat
deriving DecidableEq, Repr

/-- Who executes an instruction word: the coach on a pipe, an access processor, a control core. -/
inductive Agent where
  | coach (core pipe : Nat)
  | ap (core : Nat)
  | ctl (n : Nat)
deriving DecidableEq, Repr

/-- A stored word that becomes uncorrectable of itself (R278, R351, R378). -/
inductive Upset where
  /-- word `n` of 8 bytes of a core's scratchpad storage -/
  | scratch (core n : Nat)
  /-- the 8-byte word of the shared store at physical address 8 * n -/
  | shared (n : Nat)
  /-- a plane word of a carriage, by its key -/
  | plane (car : Nat)
  /-- reading a line of DRAM meets an error: line, kind 0, 1 or 4, layer (R293, R387) -/
  | dram (la kind layer : Nat)
  /-- the layers of a memory stack take new temperatures (R386) -/
  | heat (stack : Nat) (temps : List Byte)
deriving DecidableEq, Repr

/-- What happens next: the model's own choice data (DESIGN CHOICE, log 1). -/
inductive Turn where
  /-- `ns` nanoseconds of CLOCK pass -/
  | tick (ns : Nat)
  /-- an agent executes its next word -/
  | run (a : Agent)
  /-- an engine, the control complex or the outside world takes a step -/
  | event (i : Instr) (x : StepArgs)
  /-- the host writes its own memory (R272) -/
  | hostMem (addr : Nat) (bytes : List Byte)
  /-- a stored word becomes uncorrectable (DESIGN CHOICE, log 19) -/
  | upset (u : Upset)
  /-- control firmware extends a measurement register with an image (R423; DESIGN CHOICE, log 46) -/
  | extendMr (n : Nat) (image : List Byte)
  /-- writes performed from now on are not observed by other agents before they must be, or are again at once
  (R102; DESIGN CHOICE, log 66) -/
  | veil (on : Bool)
  /-- an agent observes a write (R102) -/
  | observe (id : Nat) (p : Party)
  /-- a relaxed load of a scratchpad takes its value only now (R102, R105) -/
  | late (id : Nat)
  /-- a request sent to another device waits there for the write lease of a third, or does so no longer (R399, R406) -/
  | excuse (id : Nat) (on : Bool)
  /-- the holder of a region writes a dirty line back (R407) -/
  | writeBack (key line : Nat)
  /-- control software binds a port to the link to a neighbour (R394) -/
  | bindPort (port neighbour : Nat)
  /-- a requester writes bytes of a mailbox, at an offset (R425) -/
  | mailbox (m off : Nat) (bytes : List Byte)
  /-- control firmware takes the first frame that stands in at an Ethernet port, or gives one to it to send under a priority (R426) -/
  | ethTake (port : Nat)
  | ethSend (port prio : Nat) (frame : List Byte)
  /-- the first frame of a priority leaves an Ethernet port (R426) -/
  | ethLeave (port prio : Nat)
  /-- a priority's frames are paused, or go on: those that the port sends, as its link partner asks, or those that it is sent -/
  | ethPause (port prio : Nat) (sent on : Bool)
  /-- the quantum that a qnt atomic on its way will take also serves `n` earlier ones (R110; DESIGN CHOICE, log 67) -/
  | reserve (id n : Nat)
deriving DecidableEq, Repr

/-- The whole device. -/
structure State where
  clock : Nat
  devId : Nat
  incarnation : Nat
  bootstat : Nat
  mr : List (List Byte)
  mem : Memory
  scratch : Memory
  /-- poisoned 128-byte lines of DRAM, by PA / 128 (R293) -/
  poisonLines : List Nat
  /-- poisoned 8-byte words of the shared store, by PA / 8 (R378) -/
  poisonWords : List Nat
  /-- poisoned 8-byte words of scratchpads, by storage byte / 8 (R278) -/
  poisonScratch : List Nat
  /-- EXP per home and line, HZ per home and set (R275, R281) -/
  exps : Map (Nat × Nat) Nat
  hz : Map (Nat × Nat) Nat
  /-- latest lease granted to another device, per line (R405) -/
  remoteExps : Map (Nat × Nat) Nat
  /-- lines at which a write waits that is no request -/
  holds : List LineHold
  reqs : List Req
  /-- lines of other devices fetched for an agent's current word: agent, line, destination code, bytes -/
  lineBuf : List (FKey × Nat × Nat × List Byte)
  /-- agents whose waiting access has sent a cart on its way (R403) -/
  evicted : List FKey
  /-- serial of the next request; the free values of spc atomics are applied to it (DESIGN CHOICE, log 12) -/
  nextReq : Nat
  tlb1 : Map Nat (List Tlb)
  tlb2 : Map Nat (List Tlb)
  missQ : List Miss
  l1 : Map Nat (List Line)
  predictor : Map Nat Nat
  /-- cluster that last took a lease on a line of a home, and the lease's expiry (R280) -/
  lastLease : Map (Nat × Nat) (Nat × Nat)
  /-- serial below which leased lines of the shared store no longer answer a fibre that has read the line since (R99, R112) -/
  seen : Map (FKey × Nat) Nat
  slices : Map Nat Slice
  fotBase : W64
  zeroing : List Nat
  partitions : Map Nat Partition
  queues : Map Nat LQueue
  launches : Map Nat Launch
  nextLid : Nat
  doorbells : Map Nat W64
  blocks : Map Nat Block
  nextBlock : Nat
  gangs : Map (Nat × Nat) Gang
  ctlSr : Map Nat GangSr
  fibres : Map FKey Fibre
  pipes : Map Nat Coach
  cores : Map Nat Core
  carriages : Map Nat Carriage
  dies : Map Nat Die
  shadowUsed : Map Nat Nat
  stackTab : Map Nat Stack
  banks : Map Nat Bank
  bankDone : List BankDone
  importTab : Map Nat (List Byte)
  routeTab : Map Nat (List Byte)
  mcast : Map Nat (List Byte)
  peers : Map Nat Nat
  flows : Map (Nat × Nat) Flow
  expected : Map (Nat × Nat) Nat
  homeLeases : Map Nat HomeLease
  heldLeases : Map Nat HeldLease
  transit : List Transit
  failedPorts : List Nat
  /-- ports of the link to each neighbour (R394) -/
  links : Map Nat (List Nat)
  outbox : List Sent
  /-- answers and notices that wait for an acknowledgement of their flow, by destination and class (R398) -/
  backlog : List (Nat × Nat × Sent)
  mailboxes : Map Nat Mailbox
  eth : List (Nat × List Byte)
  ethPorts : Map Nat EthPort
  faultReports : List FaultReport
  errs : List LaunchError
  /-- data the host's last CXL.mem read got, and whether it came with the poison indicator (R419) -/
  hostData : List Byte
  hostPoison : Bool
  veil : Veil
  agenda : List Turn
  agent : Option Agent
  args : StepArgs
deriving DecidableEq, Repr

/-- The device right after reset, at its first start, before its boot ROM has run (R90, R210, R273, R281, R321, R397, R401, R420-R427;
values the spec does not give: DESIGN CHOICE, log 10, DESIGN CHOICE, log 11; DEDUCED, log 63). -/
def State.reset : State where
  clock := 0
  devId := 0
  incarnation := 1
  bootstat := 0
  mr := List.replicate 8 (List.replicate 64 0)
  mem := []
  scratch := []
  poisonLines := []
  poisonWords := []
  poisonScratch := []
  exps := []
  hz := []
  remoteExps := []
  holds := []
  reqs := []
  lineBuf := []
  evicted := []
  nextReq := 0
  tlb1 := []
  tlb2 := []
  missQ := []
  l1 := []
  predictor := []
  lastLease := []
  seen := []
  slices := []
  fotBase := 0
  zeroing := []
  partitions := []
  queues := []
  launches := []
  nextLid := 1
  doorbells := []
  blocks := []
  nextBlock := 0
  gangs := []
  ctlSr := []
  fibres := []
  pipes := []
  cores := []
  carriages := []
  dies := []
  shadowUsed := []
  stackTab := []
  banks := []
  bankDone := []
  importTab := []
  routeTab := []
  mcast := []
  peers := []
  flows := []
  expected := []
  homeLeases := []
  heldLeases := []
  transit := []
  failedPorts := []
  links := []
  outbox := []
  backlog := []
  mailboxes := []
  eth := []
  ethPorts := []
  faultReports := []
  errs := []
  hostData := []
  hostPoison := false
  veil := {}
  agenda := []
  agent := none
  args := {}

end Sys2Proof.Machine
end

