-- ==== Sys2Proof/Machine/Records.lean ====
section
/-!
DEFINITION. Machine/Records.lean: the device's topology (R2) and named access to the records of State.
-/

namespace Sys2Proof.Machine

/-! ### Topology (R2) -/

def dieOf (core : Nat) : Nat := core / 96
def sectorOf (core : Nat) : Nat := core / 32
def clusterOf (core : Nat) : Nat := core / 2
/-- The other core of the cluster (R2). -/
def partnerOf (core : Nat) : Nat := if core % 2 = 0 then core + 1 else core - 1

/-! ### Named records -/

def State.fib (s : State) (k : FKey) : Fibre := s.fibres.atD k { status := .free }
def State.setFib (s : State) (k : FKey) (f : Fibre) : State := { s with fibres := s.fibres.put k f }
def State.updFib (s : State) (k : FKey) (g : Fibre → Fibre) : State := s.setFib k (g (s.fib k))
def State.block (s : State) (b : Nat) : Block := s.blocks.atD b { lid := 0, core := 0 }
def State.updBlock (s : State) (b : Nat) (g : Block → Block) : State := { s with blocks := s.blocks.put b (g (s.block b)) }
def State.gang (s : State) (g : Nat × Nat) : Gang := s.gangs.atD g {}
def State.updGang (s : State) (g : Nat × Nat) (f : Gang → Gang) : State := { s with gangs := s.gangs.put g (f (s.gang g)) }
def State.core (s : State) (c : Nat) : Core := s.cores.atD c {}
def State.updCore (s : State) (c : Nat) (f : Core → Core) : State := { s with cores := s.cores.put c (f (s.core c)) }
def State.die (s : State) (d : Nat) : Die := s.dies.atD d {}
def State.updDie (s : State) (d : Nat) (f : Die → Die) : State := { s with dies := s.dies.put d (f (s.die d)) }
def State.launch? (s : State) (l : Nat) : Option Launch := s.launches.at? l
def State.updLaunch (s : State) (l : Nat) (f : Launch → Launch) : State :=
  match s.launches.at? l with
  | some x => { s with launches := s.launches.put l (f x) }
  | none => s
/-- Key of queue `q` of a partition (R145). -/
def queueKey (part q : Nat) : Nat := part * 64 + q
def State.part (s : State) (p : Nat) : Partition := s.partitions.atD p {}
def State.updPart (s : State) (p : Nat) (f : Partition → Partition) : State :=
  { s with partitions := s.partitions.put p (f (s.part p)) }
def State.slice (s : State) (n : Nat) : Slice := s.slices.atD n {}
def State.updSlice (s : State) (n : Nat) (f : Slice → Slice) : State := { s with slices := s.slices.put n (f (s.slice n)) }
def State.stack (s : State) (n : Nat) : Stack := s.stackTab.atD n {}
def State.updStack (s : State) (n : Nat) (f : Stack → Stack) : State := { s with stackTab := s.stackTab.put n (f (s.stack n)) }
def State.queue (s : State) (c q : Nat) : Queue := (s.core c).queues.atD q {}
def State.updQueue (s : State) (c q : Nat) (f : Queue → Queue) : State :=
  s.updCore c fun x => { x with queues := x.queues.put q (f (x.queues.atD q {})) }
def State.ctx (s : State) (c t : Nat) : Ctx := (s.core c).ctx.atD t {}
def State.updCtx (s : State) (c t : Nat) (f : Ctx → Ctx) : State :=
  s.updCore c fun x => { x with ctx := x.ctx.put t (f (x.ctx.atD t {})) }

/-- The core a fibre or access processor acts on; control cores stand on no core. -/
def State.coreOf (s : State) : FKey → Nat
  | .fib b _ => (s.block b).core
  | .ap c => c
  | .ctl _ => 0

/-- The gang of a fibre; the gang an access processor acts for (R95, R311). -/
def State.gangOf (s : State) : FKey → Nat × Nat
  | .fib b n => (b, n / 32)
  | .ap c => match (s.core c).apOwner with
    | some (b, g, _, _) => (b, g)
    | none => (0, 0)
  | .ctl _ => (0, 0)

/-- Gang-lane number (R138). -/
def State.laneOf (s : State) : FKey → Nat
  | .fib _ n => n % 32
  | .ap c => match (s.core c).apOwner with
    | some (_, _, l, _) => l
    | none => 0
  | .ctl _ => 0

/-- The block an agent of a launch belongs to. -/
def State.blockOf (s : State) (k : FKey) : Block := s.block (s.gangOf k).1

/-- Partition of an agent of a launch. -/
def State.partOf (s : State) (k : FKey) : Nat := (s.blockOf k).part

/-- Role of gang g: 0 G, 1 C, 2 M (R140). -/
def State.roleOf (s : State) (k : FKey) : Nat := bits (s.blockOf k).roles (2 * (s.gangOf k).2 + 1) (2 * (s.gangOf k).2)

/-- Cycles of the die a core stands on (R14). -/
def State.cycles (s : State) (core : Nat) : Nat := (s.die (dieOf core)).cyc

/-- The gang copy of the special registers; a control core's own (R90, R417). -/
def State.gangSr (s : State) : FKey → GangSr
  | .ctl n => s.ctlSr.atD n {}
  | k => (s.gang (s.gangOf k)).sr

def State.updGangSr (s : State) (k : FKey) (f : GangSr → GangSr) : State :=
  match k with
  | .ctl n => { s with ctlSr := s.ctlSr.upd n {} f }
  | k => s.updGang (s.gangOf k) fun g => { g with sr := f g.sr }

/-- Slots of block `b`, in ascending order. -/
def Block.slotNos (b : Block) : List Nat := List.range ((b.maxf + 31) / 32 * 32)

/-- Live fibres of a block, by slot. -/
def State.liveSlots (s : State) (b : Nat) : List Nat :=
  (s.block b).slotNos.filter fun n => (s.fib (.fib b n)).status = .live

/-- Live fibres of a gang, by slot. -/
def State.liveInGang (s : State) (g : Nat × Nat) : List Nat := (s.liveSlots g.1).filter fun n => n / 32 = g.2

/-- Lowest live slot of the quad of slot `n` (R154, R157). -/
def State.quadLeader (s : State) (b n : Nat) : Option Nat :=
  (List.range 4).map (fun i => n / 4 * 4 + i) |>.find? fun m => (s.fib (.fib b m)).status = .live

/-- Whether an agent is a helper fibre (R156). -/
def State.isHelper (s : State) (k : FKey) : Bool := decide ((s.fib k).status = .helper)

end Sys2Proof.Machine
end

