-- ==== Sys2Proof/Machine/Order.lean ====
section
/-!
DEFINITION. Machine/Order.lean: the memory model beside the one memory every write is performed in (R95-R114): the instances of
scopes, the writes an agent may still not have observed, release sequences, fences, completions and dependences. With the veil
off every read returns the newest write; with it on a read returns the oldest one that R99, R102 and R266 allow, and the agenda
says which writes an agent has observed before it must (DESIGN CHOICE, log 66).
-/

namespace Sys2Proof.Machine

/-! ### Scope instances (R95, R97, R98) -/

/-- The agents that are engines' operations: a trolley operation, matrix operation, drain, bank command or reduction by its
serial, a carriage's load, the load of an activation table of a core. -/
def opParty (k : FKey) (id : Nat) : Party := .engine k (4 * id)
def loadParty (k : FKey) (car : Nat) : Party := .engine k (4 * car + 1)
def tableParty (core table : Nat) : Party := .engine (.ap core) (4 * table + 2)

/-- Block, gang and gang-lane whose place an agent holds: a fibre's own, that of the fibre an access processor or an engine
acts for (R95). -/
def State.placeOf (s : State) : Party → Option (Nat × Nat × Nat)
  | .agent (.ctl _) | .engine (.ctl _) _ => none
  | .agent k | .engine k _ => some ((s.gangOf k).1, (s.gangOf k).2, s.laneOf k)
  | _ => none

/-- The die an agent stands on: that of its core, its bank or its stack (R97). -/
def State.dieAt (s : State) : Party → Option Nat
  | .agent (.ctl _) | .engine (.ctl _) _ => none
  | .agent k | .engine k _ => some (dieOf (s.coreOf k))
  | .exec bank _ => some (bank / 1024)
  | .reducer stack => some (stack / 3)
  | .host | .device _ => none

/-- Whether two agents hold places of which `same` holds: core, block, gang and lane of each. -/
def State.together (s : State) (p q : Party) (same : Nat × Nat × Nat × Nat → Nat × Nat × Nat × Nat → Bool) : Bool :=
  match s.placeOf p, s.placeOf q with
  | some (b, g, l), some (b', g', l') => same ((s.block b).core, b, g, l) ((s.block b').core, b', g', l')
  | _, _ => decide (p = q)

/-- Whether agent `q` lies in agent `p`'s instance of a scope; the inner scopes are those of physical address `a`
(R97, R98). -/
def State.inScope (s : State) (sc : Scope) (a : Nat) (p q : Party) : Bool :=
  match sc with
  | .fib => s.together p q fun (_, x) (_, y) => decide (x = y)
  | .quad => s.together p q fun (_, b, g, l) (_, b', g', l') => decide ((b, g, l / 4) = (b', g', l' / 4))
  | .gang => s.together p q fun (_, b, g, _) (_, b', g', _) => decide ((b, g) = (b', g'))
  | .blk => s.together p q fun (_, b, _) (_, b', _) => decide (b = b')
  | .clu => s.together p q fun (c, _) (c', _) => decide (clusterOf c = clusterOf c')
  | .sec => s.together p q fun (c, _) (c', _) => decide (sectorOf c = sectorOf c')
  | .die => decide (p = q) || (match s.dieAt p, s.dieAt q with | some d, some e => decide (d = e) | _, _ => false)
  | .dev => match p, q with
    | .device d, .device e => decide (d = e)
    | .device _, _ | _, .device _ => false
    | _, _ => true
  | .fab => true
  | .bank => match q with | .exec n _ => decide (n = (a - 0x80000000000) / 2 ^ 20) | _ => false
  | .chan => match q with | .reducer n => decide (n = a / 2 ^ 36) | _ => false
  | .home => match q with | .exec n _ => decide (n / 16 = (a - 0x80000000000) / 2 ^ 24) | _ => false

/-- Whether a release by `h` at `sh` and an acquire by `p` at `sp` contain each other's agents (R104). -/
def State.meet (s : State) (a : Nat) (h : Party) (sh : Scope) (p : Party) (sp : Scope) : Bool :=
  s.inScope sh a h p && s.inScope sp a p h

/-- Whether an order at a scope is a release at fabric scope (R121, R123). -/
def fabRelease (ord : Order) (sc : Scope) : Bool := decide (ord = .rel ∨ ord = .ar) && decide (sc = .fab)

/-- Whether a scope is die, device or fabric: an acquire there invalidates the L1's leased copies, and reads through to an
executor's bank (R111, R113). -/
def Scope.wide (sc : Scope) : Bool := decide (sc = .die ∨ sc = .dev ∨ sc = .fab)

/-! ### What an agent reads (R99, R100, R102, R266) -/

/-- A reader: its agent, the space it reads, when its read began, the lease duration of its line, past which it reads no
older write (R266), and for a leased line the serial that remembered writes had reached when its home was read. -/
structure View where
  who : Party
  scr : Bool := false
  since : Nat := 0
  lease : Option Nat := none
  upTo : Option Nat := none

def Hidden.covers (h : Hidden) (scr : Bool) (a : Nat) : Bool :=
  decide (h.scr = scr) && decide (h.at_ ≤ a) && decide (a < h.at_ + h.old.length)

/-- Whether a reader returns this write or a later one: it happens before the read, the reader has read it, or its lease
duration has passed (R99, R102, R266). -/
def Hidden.binds (h : Hidden) (v : View) : Bool :=
  h.known.contains v.who || h.read.contains v.who || (v.lease.elim false fun d => decide (h.clock + d < v.since))

/-- The byte a reader finds where `x` stands, and the write it is from: 0 for one before all that are remembered. -/
def lookBack (v : View) (a : Nat) : List Hidden → Byte → Byte × Nat
  | [], x => (x, 0)
  | h :: r, x =>
    if h.covers v.scr a then (if h.binds v then (x, h.id) else lookBack v a r ((h.old[a - h.at_]?).getD 0))
    else lookBack v a r x

/-- The writes a reader may find, newest first: all, or those before the read that brought its line. -/
def State.past (s : State) (v : View) : List Hidden :=
  match v.upTo with
  | none => s.veil.hidden
  | some n => s.veil.hidden.filter fun h => decide (h.id < n)

/-- The bytes a reader finds where `bs` stand, from `a` up. -/
def State.viewed (s : State) (v : View) (a : Nat) (bs : List Byte) : List Byte :=
  bs.zipIdx.map fun (x, i) => (lookBack v (a + i) (s.past v) x).1

/-! ### What agents know -/

/-- The writes that happen before everything an agent does next, with the tiles it has read (R119). -/
def Veil.knownBy (v : Veil) (p : Party) : List Nat :=
  (v.hidden.filter fun h => h.known.contains p || (h.tile && h.read.contains p)).map Hidden.id

/-- Writes happen before everything an agent does next. -/
def Veil.learn (v : Veil) (p : Party) (ids : List Nat) : Veil :=
  { v with hidden := v.hidden.map fun h => if ids.contains h.id && !h.known.contains p then { h with known := p :: h.known } else h }

/-- An agent has read writes, or later ones. -/
def Veil.observe (v : Veil) (p : Party) (ids : List Nat) : Veil :=
  { v with hidden := v.hidden.map fun h => if ids.contains h.id then { h with read := p :: h.read } else h }

/-- Whether an agent is another device's. -/
def Party.foreign : Party → Bool
  | .device _ => true
  | _ => false

/-- The writes that happen before what agents of other devices may do next: whichever of them knows a write, all may (DESIGN
CHOICE, log 66). -/
def Veil.knownAbroad (v : Veil) : List Nat := (v.hidden.filter fun h => h.known.any Party.foreign).map Hidden.id

/-- What happens before `p`'s next access happens before `q`'s. -/
def Veil.inherit (v : Veil) (p q : Party) : Veil := v.learn q (v.knownBy p)

/-- A command's operation is performed after everything that precedes it in its fibre's program order (R307, R377, R383); a
fibre, or an access processor, starts after what precedes the word that creates it (R180, R311). -/
def State.follows (s : State) (p q : Party) : State := { s with veil := s.veil.inherit p q }

/-- An operation also follows the requests and matrix operations it waits for, which were still to be performed when it was issued
(R307, R377, R383). -/
def State.joins (s : State) (p : Party) (deps : List Nat) : State :=
  if !s.veil.on then s
  else { s with veil := s.veil.learn p ((s.veil.hidden.filter fun h => h.req.any deps.contains).map Hidden.id) }

/-- An agent that comes into being under a name that another had has observed nothing (R156). -/
def State.newAgent (s : State) (p : Party) : State :=
  if !s.veil.on then s
  else
    let v := s.veil
    { s with veil := { v with
      hidden := v.hidden.map fun h => { h with known := h.known.filter (· ≠ p), read := h.read.filter (· ≠ p) }
      msgs := v.msgs.map fun (m : Msg) => { m with readers := m.readers.filter (· ≠ p) }
      fences := v.fences.filter (·.1 ≠ p)
      ars := v.ars.filter (·.1 ≠ p)
      crossed := v.crossed.filter fun (x : Crossed) => decide (.agent x.fibre ≠ p)
      taint := v.taint.filter fun x => decide (.agent x.1.1 ≠ p)
      late := v.late.filter fun (x : Late) => decide (x.who ≠ p) } }

/-- An agent has observed every write performed so far: what reads memory as it stands (R211). -/
def State.seesAll (s : State) (p : Party) : State := { s with veil := s.veil.learn p (s.veil.hidden.map Hidden.id) }

/-- Storage is zeroed: what stood at these addresses is found by no one any more (R291, R422). -/
def State.forget (s : State) (p : Bool → Nat → Bool) : State :=
  { s with veil := { s.veil with
    hidden := s.veil.hidden.filter fun h => !(p h.scr h.at_)
    msgs := s.veil.msgs.filter fun (m : Msg) => !(m.cells.any fun c => p m.scr c.1) } }

/-! ### Writes (R99, R100, R103) -/

/-- Who performs a write: its agent, those that release together with it (log 78), whether it is a read-modify-write that
extends release sequences or an atomic that joins none (R103, R110), its scope if it is a release, the bytes that are one atomic
unit, and the request or matrix operation it is. -/
structure Writer where
  who : Party
  mates : List Party := []
  rmw : Bool := false
  loose : Bool := false
  rel : Option Scope := none
  unit : Nat := 8
  req : Option Nat := none

/-- The atomic units of a write, with their addresses (R100). -/
def unitsOf (unit : Nat) : Nat → Nat → List Byte → List (Nat × List Byte)
  | 0, _, _ => []
  | _ + 1, _, [] => []
  | fuel + 1, a, bs => (a, bs.take unit) :: unitsOf unit fuel (a + unit) (bs.drop unit)

/-- A write of the bytes `a` to `a + n` ends the release sequences of its location that it does not extend (R103, R110); what
R113 gives the reader of an executor's value ends with any write. -/
def Msg.after (m : Msg) (w : Writer) (scr : Bool) (a n id : Nat) : Msg :=
  if m.scr ≠ scr || (m.through.isNone && (w.rmw || (decide (w.who = m.head) && !w.loose))) then m
  else { m with cells := m.cells.map fun (x, f, e) => (x, f, if e.isNone && decide (a ≤ x) && decide (x < a + n) then some id else e) }

/-- The release sequences that one atomic unit of a write begins: its own release, those of the release fences before it, and
what R113 gives a reader of an executor's value (R103, R104, R113). -/
def Veil.begins (v : Veil) (w : Writer) (scr : Bool) (a n id : Nat) : List Msg :=
  let cells := (List.range n).map fun i => (a + i, id, none)
  let rel := w.rel.toList.map fun sc => ({ head := w.who, sc := sc, scr := scr, cells := cells, carry := if w.who.foreign then v.knownAbroad else (w.who :: w.mates).flatMap v.knownBy } : Msg)
  let fences := (v.fences.filter fun f => decide (f.1 = w.who)).map fun f =>
    ({ head := w.who, sc := f.2.1, scr := scr, cells := cells, carry := f.2.2 } : Msg)
  let through : List Msg := match w.who with
    | .exec bank _ =>
      let lo := 0x80000000000 + bank * 2 ^ 20
      let ids := (v.hidden.filter fun h => !h.scr && decide (lo ≤ h.at_) && decide (h.at_ < lo + 2 ^ 20)).map Hidden.id
      if !scr && decide (lo ≤ a) && decide (a < lo + 2 ^ 20) then
        [{ head := w.who, sc := .die, scr := scr, cells := cells, carry := ids, through := some bank }] else []
    | _ => []
  rel ++ fences ++ through

/-- Remembers one atomic unit of a write that replaces the bytes `old`. -/
def Veil.write (v : Veil) (w : Writer) (scr : Bool) (clock a : Nat) (old : List Byte) : Veil :=
  let id := v.next
  let h : Hidden := { id := id, scr := scr, at_ := a, old := old, by_ := w.who, clock := clock, known := [w.who], req := w.req }
  let v := { v with next := id + 1, hidden := h :: v.hidden, msgs := v.msgs.map fun (m : Msg) => m.after w scr a old.length id }
  { v with msgs := v.begins w scr a old.length id ++ v.msgs }

/-- An agent touches `n` bytes of scratchpad storage: no earlier load of it that overlaps them takes a later value any more
(R99). -/
def Veil.touch (v : Veil) (p : Party) (scr : Bool) (a n : Nat) : Veil :=
  if scr then { v with late := v.late.filter fun (x : Late) => !(decide (x.who = p) && x.cells.any fun c => decide (c.1 < a + n ∧ a < c.1 + c.2)) } else v

/-- Remembers a write that replaces the bytes `old` from `a` up, unit by unit. -/
def State.noteWrite (s : State) (w : Writer) (scr : Bool) (a : Nat) (old : List Byte) : State :=
  if s.veil.on then
    { s with veil := (unitsOf w.unit old.length a old).foldl (fun v u => v.write w scr s.clock u.1 u.2) (s.veil.touch w.who scr a old.length) }
  else s

/-- The writes remembered since serial `n` are one write: a drain's tile (R119). -/
def State.fuse (s : State) (n : Nat) : State :=
  { s with veil := { s.veil with
    hidden := s.veil.hidden.map fun h => if n ≤ h.id then { h with id := n, tile := true } else h
    msgs := s.veil.msgs.map fun (m : Msg) => { m with cells := m.cells.map fun (x, f, e) => (x, f, e.map (min n)) } } }

/-! ### Reads, acquires (R104, R106, R113) -/

/-- Whether the read of a byte by its write `r` reads a member of the sequence. -/
def Msg.holds (m : Msg) (a r : Nat) : Bool :=
  m.cells.any fun (x, f, e) => decide (x = a) && decide (f ≤ r) && (e.elim true fun e => decide (r < e))

/-- An acquire by `p` at a scope that reads from a release sequence, or after a read from it: what happens before the release
is known where each contains the other (R104); an executor's value reads through to its bank (R113). -/
def State.acquire (s : State) (p : Party) (sc : Scope) (m : Msg) : State :=
  match m.through with
  | some _ =>
    (match p with
      | .agent (.fib _ _) => if Scope.wide sc then { s with veil := s.veil.observe p m.carry } else s
      | _ => s)
  | none => if s.meet ((m.cells.head?.map (·.1)).getD 0) m.head m.sc p sc then { s with veil := s.veil.learn p m.carry } else s

/-- The sequences that a reader of `n` bytes at `a` reads from. -/
def State.readsFrom (s : State) (v : View) (a n : Nat) : List Msg :=
  s.veil.msgs.filter fun m => decide (m.scr = v.scr) &&
    (List.range n).any fun i => m.holds (a + i) (lookBack v (a + i) (s.past v) 0).2

/-- An agent has read from release sequences. -/
def Veil.readBy (v : Veil) (p : Party) (ms : List Msg) : Veil :=
  { v with msgs := v.msgs.map fun (m : Msg) => if ms.contains m then { m with readers := p :: m.readers } else m }

/-- A read of `n` bytes at `a`, with its scope if it is an acquire. -/
def State.noteRead (s : State) (v : View) (a n : Nat) (acq : Option Scope) : State :=
  if !s.veil.on then s
  else
    let ms := s.readsFrom v a n
    let ids := dedup ((List.range n).map fun i => (lookBack v (a + i) (s.past v) 0).2)
    let s1 : State := { s with veil := ((s.veil.touch v.who v.scr a n).observe v.who ids).readBy v.who ms }
    match acq with
    | some sc => ms.foldl (fun s m => s.acquire v.who sc m) s1
    | none => s1

/-- A read-modify-write reads the newest write of each byte (R101). -/
def State.noteNewest (s : State) (v : View) (a n : Nat) : State :=
  if !s.veil.on then s
  else
    let ids := (List.range n).filterMap fun i => (s.veil.hidden.find? fun h => h.covers v.scr (a + i)).map Hidden.id
    { s with veil := s.veil.observe v.who ids }

/-! ### Fences, barriers, completions (R7, R104, R106-R108, R114) -/

/-- A fence of an agent: what it acquires from what it has read, from the partners of its cross-fibre instructions and, as an ar
fence, from earlier ar fences; then what its later writes release (R104, R106, R107; Case 3 of R129). -/
def State.noteFence (s : State) (p : Party) (ord : Order) (sc : Scope) : State :=
  if !s.veil.on then s
  else
    let s1 : State := if ord = .rel then s else
      let s := (s.veil.msgs.filter fun m => m.readers.contains p).foldl (fun s m => s.acquire p sc m) s
      if sc = .quad ∨ sc = .gang then
        s.veil.crossed.foldl (fun s x => if .agent x.fibre = p then { s with veil := s.veil.learn p x.carry }.joins p x.issued else s) s
      else s
    let s2 : State := if ord = .ar then
      s1.veil.ars.foldl (fun s x => if s.meet 0 x.1 x.2.1 p sc then { s with veil := s.veil.learn p x.2.2 } else s) s1 else s1
    let known := s2.veil.knownBy p
    let put := fun (l : List (Party × Scope × List Nat)) => (p, sc, known) :: l.filter fun x => !(decide (x.1 = p) && decide (x.2.1 = sc))
    { s2 with veil := { s2.veil with
      fences := if ord = .acq then s2.veil.fences else put s2.veil.fences
      ars := if ord = .ar then put s2.veil.ars else s2.veil.ars } }

/-- A BAR's rendezvous: an ar fence of each participant, and what precedes it in any happens before what follows it in any
(R108). -/
def State.noteBarrier (s : State) (ks : List FKey) (sc : Scope) : State :=
  if !s.veil.on then s
  else
    let fence := fun (s : State) => ks.foldl (fun s k => s.noteFence (.agent k) .ar sc) s
    let s1 := fence s
    let ids := ks.flatMap fun k => s1.veil.knownBy (.agent k)
    fence (ks.foldl (fun s k => { s with veil := s.veil.learn (.agent k) ids }) s1)

/-- Fibres of one quad (R154). -/
def sameQuad : FKey → FKey → Bool
  | .fib b n, .fib b' n' => decide ((b, n / 4) = (b', n' / 4))
  | _, _ => false

/-- Participants of a cross-fibre instruction, those of which `same` holds together: order between them is restored by a fence
(R106). -/
def State.noteCross (s : State) (ks : List FKey) (same : FKey → FKey → Bool := fun _ _ => true) : State :=
  if !s.veil.on then s
  else
    let parts := ks.map fun k => (k, s.veil.knownBy (.agent k), (s.reqs.filter fun r => decide (r.org = .fibre k)).map Req.id)
    let new := parts.map fun x =>
      let ys := parts.filter fun y => decide (y.1 ≠ x.1) && same x.1 y.1
      ({ fibre := x.1, carry := dedup (ys.flatMap (·.2.1)), issued := ys.flatMap (·.2.2) } : Crossed)
    { s with veil := { s.veil with crossed := s.veil.crossed ++ new.filter fun x => decide (x.carry ≠ [] ∨ x.issued ≠ []) } }

/-- The completion of an operation's ticket is a release at its completion scope (R7). -/
def State.noteDone (s : State) (p : Party) (sc : Scope) (core ctx ticket : Nat) : State :=
  if !s.veil.on then s
  else { s with veil := { s.veil with
    done := { core := core, ctx := ctx, ticket := ticket, head := p, sc := sc, carry := s.veil.knownBy p } :: s.veil.done } }

/-- What observing a context's value acquires (R7, R114). -/
def State.noteTicket (s : State) (p : Party) (core ctx n : Nat) : State :=
  (s.veil.done.filter fun d => decide (d.core = core) && decide (d.ctx = ctx) && decide (d.ticket ≤ n)).foldl (fun s d =>
    if s.meet 0 d.head d.sc p d.sc then { s with veil := s.veil.learn p d.carry } else s) s

/-! ### Dependences (R106) -/

/-- Where a slot's register is remembered: window registers by their physical number, the gang's s registers once, 2000 up for
k registers. -/
def State.taintKeys (s : State) (k : FKey) (t : Slot) : List (FKey × Nat) :=
  match t.reg with
  | .s n => [(.fib (s.gangOf k).1 ((s.gangOf k).2 * 32), 3000 + n.val)]
  | .k n => [(k, 2000 + n.val)]
  | _ => t.fields.map fun n => (k, (s.fib k).wb.toNat + n)

/-- Where predicates of a fibre are remembered. -/
def predKeys (k : FKey) (ps : List Nat) : List (FKey × Nat) := ps.map fun p => (k, 1000 + p)

def Veil.taintAt (v : Veil) (x : FKey × Nat) : List Msg := v.taint.atD x []

/-- What the sources of a member's word depend on. -/
def State.sourceTaint (s : State) (i : Instr) (k : FKey) : List Msg :=
  dedup (((i.slots.filter Slot.rd).flatMap (s.taintKeys k) ++ predKeys k i.predsRead).flatMap s.veil.taintAt)

/-- The accesses of some members' word are ordered after the releases that its address and data depend on, where the fibre lies
in their instances (R106). -/
def State.ordered (s : State) (i : Instr) (ks : List FKey) : State :=
  if !s.veil.on || !i.accesses then s
  else ks.foldl (fun s k => (s.sourceTaint i k).foldl (fun s m =>
    if s.inScope m.sc 0 m.head (.agent k) then { s with veil := s.veil.learn (.agent k) m.carry } else s) s) s

/-- What an instruction of some members does to dependences: a word that accesses memory is ordered after what its address and
data depend on; any other passes on what its sources depend on. -/
def State.depends (s : State) (i : Instr) (ks : List FKey) : State :=
  if !s.veil.on then s
  else ks.foldl (fun s k =>
    let from_ := s.sourceTaint i k
    let s1 := s.ordered i [k]
    let to_ := (i.slots.filter Slot.wr).flatMap (s.taintKeys k) ++ predKeys k i.predsWritten
    let ms := if i.accesses || i.crossFibre then [] else from_
    { s1 with veil := { s1.veil with taint := to_.foldl (fun t x => t.put x ms) s1.veil.taint } }) s

/-- The registers a read's value goes to depend on the release sequences it reads from. -/
def State.taintDst (s : State) (k : FKey) (d : Dst) (ms : List Msg) : State :=
  if !s.veil.on then s
  else
    let keys : List (FKey × Nat) := match d with
      | .regs rs => rs.map fun n => (k, n)
      | .sreg b g n => [(.fib b (g * 32), 3000 + n)]
      | _ => []
    { s with veil := { s.veil with taint := keys.foldl (fun t x => t.put x (ms.filter fun m => m.through.isNone)) s.veil.taint } }

end Sys2Proof.Machine
end

