-- ==== Sys2Proof/Machine/Ops.lean ====
section
/-!
DEFINITION. Machine/Ops.lean: named access to the state, the registers, traps (R250-R257), and the shared frame of
every instruction word: its checks in the order of R92, its stalls and traps, and the end of a run.
-/

namespace Sys2Proof.Machine

/-- What a meaning answers. -/
abbrev Out := Host.Outcome State Fault Refusal

/-! ### Registers -/

/-- Physical register cell `n` of a fibre (R75). -/
def Fibre.cell (f : Fibre) (n : Nat) : RegCell := f.regs.atD n {}

/-- Registers declared for an agent (R140, R311, R416). -/
def State.declared (s : State) : FKey → Nat
  | .fib b _ => (s.block b).regs
  | .ap _ => 32
  | .ctl _ => 96

/-- Window field `n` of a fibre as a cell; outside the declared registers it reads zero, as R157 gives a helper. -/
def State.vcell (s : State) (k : FKey) (n : Nat) : RegCell :=
  let f := s.fib k
  if f.wb.toNat + n < s.declared k then f.cell (f.wb.toNat + n) else {}

/-- Copy of s register `n` for an agent's gang (R73). -/
def State.scell (s : State) (k : FKey) (n : Nat) : SCell := (s.gang (s.gangOf k)).s.atD n {}

/-- Serial of the entry a fibre pops or pushes next; one that has not used the queue starts at its oldest entry (R244,
R313). -/
def State.cursorAt (s : State) (k : FKey) (q : Nat) : Nat :=
  let qu := s.queue (s.coreOf k) q
  (s.fib k).cursor.atD q ((qu.entries.head?.map QEntry.serial).getD qu.next)

/-- The entry at a fibre's cursor of an inbound queue, `skip` pops on (R163, R244). -/
def State.inboundEntry (s : State) (k : FKey) (q skip : Nat) : Option QEntry :=
  (s.queue (s.coreOf k) q).entries.find? fun e => e.serial = s.cursorAt k q + skip && e.ready

/-- The word a pop returns to this fibre: its gang-lane's (R244). -/
def State.popWord (s : State) (k : FKey) (q skip : Nat) : W32 :=
  if s.isHelper k then 0
  else match s.inboundEntry k q skip with
    | some e => ((e.words[s.laneOf k]?).getD none).getD 0
    | none => 0

/-- A 32-bit source (R73, R163); `skip` is 1 for the second pop of one queue (R164). -/
def State.src32 (s : State) (k : FKey) (r : Reg) (skip : Nat := 0) : W32 :=
  match r with
  | .v n => (s.vcell k n).val
  | .s n => (s.scell k n).val.setWidth 32
  | .k n => (s.fib k).k.atD n 0
  | .q n => s.popWord k n skip
  | .z => 0
  | .id => BitVec.ofNat 32 (s.laneOf k)

/-- A 64-bit source: an X pair or an s register (R73, R163). -/
def State.src64 (s : State) (k : FKey) (r : Reg) : W64 :=
  match r with
  | .v n => (s.vcell k (n + 1)).val ++ (s.vcell k n).val
  | .s n => (s.scell k n).val
  | _ => 0

/-- Source A and source B of a format R word (R164). -/
def State.a32 (s : State) (k : FKey) (o : R3) : W32 := s.src32 k o.a
def State.b32 (s : State) (k : FKey) (o : R3) : W32 := s.src32 k o.b (if o.a = o.b then 1 else 0)

/-- Whether predicate `p` of an agent is 1. -/
def State.pred (s : State) (k : FKey) (p : Pred) : Bool := (s.fib k).p.getLsbD p.toNat

/-- Sets physical register `n`: value, full, mark cleared (R222). -/
def Fibre.setReg (f : Fibre) (n : Nat) (v : W32) : Fibre := { f with regs := f.regs.put n { val := v } }

/-- Writes window field `n`; outside the declared registers the write is discarded (R157). -/
def State.setV (s : State) (k : FKey) (n : Nat) (v : W32) : State :=
  let f := s.fib k
  if f.wb.toNat + n < s.declared k then s.setFib k (f.setReg (f.wb.toNat + n) v) else s

/-- Writes an s register of the agent's gang; a helper's write is suppressed (R77, R194). -/
def State.setS (s : State) (k : FKey) (n : Nat) (v : W64) : State :=
  if s.isHelper k then s
  else s.updGang (s.gangOf k) fun g => { g with s := g.s.put n { val := v } }

/-- Pushes a word into the fibre's next outbound entry of q6 or q7 (R313). -/
def State.pushWord (s : State) (k : FKey) (q : Nat) (v : W32) : State :=
  if s.isHelper k then s
  else
    let c := s.coreOf k
    let qu := s.queue c q
    let n := s.cursorAt k q
    let entries := if qu.next ≤ n then qu.entries ++ [{ serial := n, words := List.replicate 32 none, ready := true }]
      else qu.entries
    let entries := entries.map fun e =>
      if e.serial = n then { e with words := e.words.set (s.laneOf k) (some v) } else e
    (s.updQueue c q fun qu => { qu with entries := entries, next := max qu.next (n + 1) }).updFib k
      fun f => { f with cursor := f.cursor.put q (n + 1) }

/-- A write of one lane: registers, predicates, window base (R73, R163). -/
inductive Wr where
  | reg (r : Reg) (v : W32)
  | wide (r : Reg) (v : W64)
  | group (n : Nat) (vs : List W32)
  | pred (p : Pred) (b : Bool)
  | preds (v : BitVec 16)
  | wb (v : BitVec 8)
deriving DecidableEq, Repr

/-- Sets predicate `p`. -/
def setPredBit (v : BitVec 16) (p : Pred) (b : Bool) : BitVec 16 :=
  if b then v ||| (1#16 <<< p.toNat) else v &&& ~~~(1#16 <<< p.toNat)

/-- Writes a group of window fields from `n` up. -/
def State.setGroup (s : State) (k : FKey) (n : Nat) : List W32 → State
  | [] => s
  | v :: vs => State.setGroup (s.setV k n v) k (n + 1) vs

/-- Performs one lane write (R73, R163). -/
def State.wr (s : State) (k : FKey) : Wr → State
  | .reg (.v n) v => s.setV k n v
  | .reg (.s n) v => s.setS k n (v.setWidth 64)
  | .reg (.k n) v => s.updFib k fun f => { f with k := f.k.put n v }
  | .reg (.q n) v => s.pushWord k n v
  | .reg .z _ => s
  | .reg .id _ => s
  | .wide (.v n) v => (s.setV k n (v.setWidth 32)).setV k (n + 1) ((v >>> 32).setWidth 32)
  | .wide (.s n) v => s.setS k n v
  | .wide (.k _) _ => s
  | .wide (.q _) _ => s
  | .wide .z _ => s
  | .wide .id _ => s
  | .group n vs => s.setGroup k n vs
  | .pred p b => s.updFib k fun f => { f with p := setPredBit f.p p b }
  | .preds v => s.updFib k fun f => { f with p := v }
  | .wb v => s.updFib k fun f => { f with wb := v }

/-- Performs a lane's writes in order. -/
def State.wrs (s : State) (k : FKey) : List Wr → State
  | [] => s
  | w :: ws => State.wrs (s.wr k w) k ws

/-- Performs the writes of all lanes, the lowest lane last, so that its value of an s register stands (R77). -/
def State.lanes (s : State) : List (FKey × List Wr) → State
  | [] => s
  | (k, ws) :: r => (State.lanes s r).wrs k ws

/-- Frees inbound entries that every live fibre of the bound gang has read (R244). -/
def State.freeEntries (s : State) (c q : Nat) : State :=
  let qu := s.queue c q
  match qu.bound with
  | none => s
  | some g =>
    let live := s.liveInGang g
    let first := (qu.entries.head?.map QEntry.serial).getD qu.next
    let seen := live.map fun n => (s.fib (.fib g.1 n)).cursor.atD q first
    s.updQueue c q fun qu => { qu with entries := qu.entries.filter fun e => !(e.ready && seen.all (e.serial < ·)) }

/-- Advances a fibre's cursor past `n` entries of an inbound queue (R244). -/
def State.pop (s : State) (k : FKey) (q n : Nat) : State :=
  if s.isHelper k ∨ n = 0 then s
  else
    (s.updFib k fun f => { f with cursor := f.cursor.put q (s.cursorAt k q + n), pop := none }).freeEntries (s.coreOf k) q

/-- Pops the queue sources of a word (R163, R164). -/
def State.popSlots (s : State) (k : FKey) (ts : List Slot) : State :=
  ts.foldl (fun s t => match t.reg with
    | .q n => if t.rd then s.pop k n 1 else s
    | _ => s) s

/-- Marks the destination of a long-latency word empty (R80). -/
def State.markEmpty (s : State) (k : FKey) (t : Slot) : State :=
  match t.reg with
  | .s n => s.updGang (s.gangOf k) fun g => { g with s := g.s.put n { (g.s.atD n {}) with full := false, mark := none } }
  | _ => t.fields.foldl (fun s n =>
      let f := s.fib k
      if f.wb.toNat + n < s.declared k then
        s.setFib k { f with regs := f.regs.put (f.wb.toNat + n) { (f.cell (f.wb.toNat + n)) with full := false, mark := none } }
      else s) s

/-- Sets the full bit of a 32-bit register, its value and mark kept. -/
def State.setFull (s : State) (k : FKey) (r : Reg) (b : Bool) : State :=
  match r with
  | .v n =>
    let f := s.fib k
    if f.wb.toNat + n.val < s.declared k then
      s.setFib k { f with regs := f.regs.put (f.wb.toNat + n.val) { f.cell (f.wb.toNat + n.val) with full := b } }
    else s
  | .s n => s.updGang (s.gangOf k) fun g => { g with s := g.s.put n { (g.s.atD n {}) with full := b } }
  | _ => s

/-- A pop that must wait has been issued: its destination is empty until it is performed (R80). -/
def State.startPop (s : State) (k : FKey) (r : Reg) : State :=
  if (s.fib k).pop.isSome then s else (s.setFull k r false).updFib k fun f => { f with pop := some (r, true) }

/-- A fibre leaves the word whose pop it waited to perform, without performing it. -/
def State.unpop (s : State) (k : FKey) : State :=
  match (s.fib k).pop with
  | some (r, _) => (s.setFull k r true).updFib k fun f => { f with pop := none }
  | none => s

/-! ### Coaches and runs -/

/-- Key of a pipe. -/
def pipeKey (core pipe : Nat) : Nat := core * 4 + pipe

/-- Takes a fibre out of whatever coach holds it; an emptied coach leaves its pipe (R93, R153). -/
def State.leaveCoach (s : State) (b n : Nat) : State :=
  let s := s.unpop (.fib b n)
  { s with pipes := (s.pipes.map fun (p, c) =>
      if c.block = b then (p, { c with members := c.members.filter (· ≠ n) }) else (p, c)).filter fun (_, c) => c.members ≠ [] }

/-- What the end of a run does to a fibre: temporaries and await set go, the times of R161 are noted. -/
def State.endRunOf (s : State) (k : FKey) : State :=
  let now := s.cycles (s.coreOf k)
  s.updFib k fun f => { f with k := [], await := [], lastEnd := now, readySince := now }

/-! ### Traps (R250-R257) -/

/-- A launch error: the launch's fibres stop where they stand, its queue's status and the control complex are told (R252,
R146). -/
def State.launchError (s : State) (lid cause : Nat) : State :=
  let bs := (s.blocks.filter fun b => b.2.lid = lid).map (·.1)
  let s : State := match s.launch? lid with
    | some l => if l.error.isSome then s else
      { s.updLaunch lid (fun l => { l with error := some cause }) with
        queues := s.queues.upd (queueKey l.part l.queue) {} fun q => { q with errors := q.errors ++ [(lid, cause)] } }
    | none => s
  { s with
    errs := s.errs ++ [{ lid := lid, cause := cause }]
    pipes := s.pipes.filter fun p => !(p.2.block ∈ bs)
    fibres := s.fibres.map fun (k, f) =>
      match k with
      | .fib b _ => if b ∈ bs then (k, { f with wait := .dead }) else (k, f)
      | _ => (k, f) }

/-- Delivers the head entry of a gang's trap queue, if it waits for delivery (R251, R252). -/
def State.deliver (s : State) (g : Nat × Nat) : State :=
  match (s.gang g).trapq with
  | [] => s
  | e :: _ =>
    let k := FKey.fib g.1 (g.2 * 32 + e.lane)
    if (s.fib k).wait = .queued then
      if (s.gang g).sr.tvec = 0 then s.launchError (s.block g.1).lid e.trap.cause
      else s.updFib k fun f =>
        { f with
          tcause := BitVec.ofNat 64 e.trap.cause
          tpc := e.trap.pc
          taddr := e.trap.addr
          tinfo := e.trap.info
          pc := (s.gang g).sr.tvec
          wait := .ready
          service := true
          inner := f.continuing.isSome
          k := []
          readySince := s.cycles (s.block g.1).core }
    else s

/-- Enters a trap of a fibre of a launch into its gang's queue (R250, R252, R263) and delivers the head. A DEBUG_STOP in trap
service is held until the ERET while no debugger is attached, as a TIMER is (DESIGN CHOICE, log 68). -/
def State.enterTrap (s : State) (b n : Nat) (t : Trap) : State :=
  let k := FKey.fib b n
  let g := (b, n / 32)
  let lid := (s.block b).lid
  let s := (s.leaveCoach b n).endRunOf k
  let f := s.fib k
  if (s.gang g).debug ∧ (t.cause = 0x21 ∨ t.cause = 0x23) then
    s.updFib k fun f => { f with pc := t.pc, wait := .debug }
  else if f.service ∧ t.cause = 0x20 then s.updFib k fun f => { f with heldTimer := true }
  else if f.service ∧ t.cause = 0x23 then s.updFib k fun f => { f with heldDebug := true }
  else if f.service then s.launchError lid t.cause
  else if 16 ≤ (s.gang g).trapq.length then s.launchError lid t.cause
  else
    ((s.updGang g fun x => { x with trapq := x.trapq ++ [{ lane := n % 32, trap := t }] }).updFib k
      fun f => { f with wait := .queued }).deliver g

/-- Records the first fault of an operation on a timeline context, for its gang; a gang that has ended is reported to
the control complex as a launch error (R308, R311, R378). -/
def State.recordFault (s : State) (c t : Nat) (e : CtxFault) : State :=
  if s.liveInGang e.gang = [] then s.launchError (s.block e.gang.1).lid e.cause
  else s.updCtx c t fun x => if x.faults.any (·.gang = e.gang) then x else { x with faults := x.faults ++ [e] }

/-- Completes the tickets of a context in ticket order (R8): the value moves over every done ticket. -/
def advance (fuel value : Nat) (done : List Nat) : Nat :=
  match fuel with
  | 0 => value
  | fuel + 1 => if value + 1 ∈ done then advance fuel (value + 1) done else value

/-- Completes ticket `n` of context `t` of core `c`: the release of operation `p` at its completion scope, which waits at no line
any more (R7, R8, R305). -/
def State.completeTicket (s : State) (p : Party) (sc : Scope) (c t n : Nat) : State :=
  { s.noteDone p sc c t n with holds := s.holds.filter fun h => h.owner ≠ p }.updCtx c t fun x =>
    let done := n :: x.done
    let v := advance done.length x.value done
    { x with value := v, done := done.filter (v < ·), wide := if Scope.wide sc then some (min n (x.wide.getD n)) else x.wide }

/-- Whether an agent acts for a rollback-capable launch (R141, R264). -/
def State.forRollback (s : State) (k : FKey) : Bool :=
  match k with
  | .ctl _ => false
  | k => ((s.launch? (s.blockOf k).lid).map fun l => decide (bits (field l.record 0x28 4) 1 1 = 1)).getD false

/-- Takes the next ticket of context `t` of core `c` for an agent (R305); one of a rollback-capable launch is noted (R264). -/
def State.takeTicket (s : State) (k : FKey) (c t : Nat) : Nat × State :=
  let n := (s.ctx c t).issued + 1
  (n, s.updCtx c t fun x => { x with issued := n, rb := if s.forRollback k then x.rb ++ [(n, (s.blockOf k).lid)] else x.rb })

/-- Ends the program of an access processor, whose loads fill nothing any more; its T7 ticket completes, as a release of the lane that started it (R7, R245, R311,
R314). -/
def State.endAp (s : State) (c : Nat) : State :=
  match (s.core c).apOwner with
  | none => s
  | some (b, g, l, n) =>
    let p := Party.engine (.fib b (g * 32 + l)) (4 * n + 3)
    let reqs := s.reqs.map fun r => if r.org = .fibre (.ap c) then (match r.dst with | .regs _ => { r with dst := .none } | _ => r) else r
    ((({ s with fibres := s.fibres.del (.ap c), reqs := reqs }).updCore c fun x => { x with apOwner := none, apStop := false, apHome := none }).follows (.agent (.ap c)) p).completeTicket
      p .blk ((s.core c).apHome.getD c) 7 n

/-- A control core's trap: its own registers, then its TVEC (R416). -/
def State.ctlTrap (s : State) (n : Nat) (t : Trap) : State :=
  s.updFib (.ctl n) fun f =>
    { f with tcause := BitVec.ofNat 64 t.cause, tpc := t.pc, taddr := t.addr, tinfo := t.info,
             pc := (s.gangSr (.ctl n)).tvec, service := true }

/-- Takes a trap for an agent: the gang's trap queue, the T7 record of an access processor, a control core's own
registers (R250, R311, R416). -/
def State.raise (s : State) (k : FKey) (t : Trap) : State :=
  match k with
  | .fib b n => s.enterTrap b n t
  | .ap c => (s.recordFault c 7 { gang := s.gangOf k, cause := t.cause, addr := t.addr, info := t.info }).endAp c
  | .ctl n => s.ctlTrap n t

/-- The trap of a word at an agent's PC: TINFO[31:0] holds the word (R93, R254). -/
def State.trapOf (s : State) (k : FKey) (i : Instr) (cause : Nat) (addr : W64 := 0) (info : Nat := 0) : Trap :=
  { cause := cause, pc := (s.fib k).pc, addr := addr, info := BitVec.ofNat 64 (info * 2 ^ 32) ||| i.word.setWidth 64 }

/-- Reports a translation fault to the partition's fault service (R276). -/
def State.report (s : State) (part page cause : Nat) (k : FKey) : State :=
  let hit := s.faultReports.any fun r => r.part = part ∧ r.page = page ∧ r.cause = cause
  { s with faultReports :=
      if hit then s.faultReports.map fun r =>
        if r.part = part ∧ r.page = page ∧ r.cause = cause then { r with fibres := dedup (r.fibres ++ [k]) } else r
      else s.faultReports ++ [{ part := part, page := page, cause := cause, fibres := [k] }] }

/-- A translation fault of a fibre: parked where CONT is 0 or it stands in its continuation; otherwise it
continues at CONT (R255, R257). An access processor waits for fault service, as a trolley read does (R308, R311); a
control core takes the trap (R416). -/
def State.pageFault (s : State) (k : FKey) (pf : PageFault) : State :=
  match k with
  | .fib b n =>
    let s := ((s.leaveCoach b n).endRunOf k).report (s.block b).part pf.page pf.trap.cause k
    let cont := (s.gangSr k).cont
    if cont = 0 ∨ (s.fib k).continuing.isSome then
      s.updFib k fun f => { f with wait := .parked pf s.clock }
    else s.updFib k fun f =>
      { f with tcause := BitVec.ofNat 64 pf.trap.cause, tpc := pf.trap.pc, taddr := pf.trap.addr, tinfo := pf.trap.info,
               pc := cont, continuing := some pf }
  | .ap _ => (s.report (s.partOf k) pf.page pf.trap.cause k).updFib k fun f => { f with wait := .parked pf s.clock }
  | k => s.raise k pf.trap

/-! ### The checks of R92 -/

/-- Words an access processor executes (R311). -/
def apSubset : Instr → Bool
  | .nop _ | .mov _ | .sel _ _ _ _ | .qreq _ | .qwr _ | .apend => true
  | .add _ | .sub _ | .and _ | .or _ | .xor _ | .andn _ | .min _ | .max _ | .minn _ | .maxn _ | .shl _ | .shr _
  | .sar _ | .rol _ | .absd _ | .bfe _ | .mul _ | .mulh _ | .mulhn _ | .mad _ | .clz _ | .popc _ | .brev _ | .bfi _
  | .add64 _ | .sub64 _ | .shl64 _ | .shr64 _ | .madw _ | .madws _ | .mov64 _ | .sext64 _ => true
  | .addi _ | .andi _ | .ori _ | .xori _ | .shli _ | .shri _ | .sari _ | .muli _ | .cmpiEq _ | .cmpiLt _
  | .cmpiLtn _ | .cmpiLe _ | .ldi _ | .ldih _ => true
  | .cmpEq _ | .cmpNe _ | .cmpLt _ | .cmpLe _ | .cmpLtn _ | .cmpLen _ | .tst _ => true
  | .pand _ _ _ | .por _ _ _ | .pxor _ _ _ | .pandn _ _ _ | .pnot _ _ | .pset _ | .pclr _ => true
  | .brp _ _ _ | .bra _ => true
  | .ld o => decide (o.ord = .rlx) && decide (o.w = .b32 ∨ o.w = .b64)
  | _ => false

/-- Words a control core executes (R416). -/
def ctlSubset : Instr → Bool
  | .nop _ | .trap _ | .eret | .bkpt | .rdsr _ _ | .wrsr _ _ => true
  | .mov _ | .rdl _ | .rdp _ | .wrp _ _ | .sel _ _ _ _ => true
  | .add _ | .sub _ | .and _ | .or _ | .xor _ | .andn _ | .min _ | .max _ | .minn _ | .maxn _ | .shl _ | .shr _
  | .sar _ | .rol _ | .absd _ | .bfe _ | .mul _ | .mulh _ | .mulhn _ | .mad _ | .clz _ | .popc _ | .brev _ | .bfi _
  | .add64 _ | .sub64 _ | .shl64 _ | .shr64 _ | .madw _ | .madws _ | .mov64 _ | .sext64 _ => true
  | .addi _ | .andi _ | .ori _ | .xori _ | .shli _ | .shri _ | .sari _ | .muli _ | .cmpiEq _ | .cmpiLt _
  | .cmpiLtn _ | .cmpiLe _ | .ldi _ | .ldih _ => true
  | .cmpEq _ | .cmpNe _ | .cmpLt _ | .cmpLe _ | .cmpLtn _ | .cmpLen _ | .tst _ => true
  | .pand _ _ _ | .por _ _ _ | .pxor _ _ _ | .pandn _ _ _ | .pnot _ _ | .pset _ | .pclr _ => true
  | .brp _ _ _ | .bra _ | .call _ | .jmpr _ _ | .callr _ _ | .ret => true
  | .ld o => decide (o.w ≠ .b128 ∧ o.w ≠ .b256)
  | .st o => decide (o.w ≠ .b128 ∧ o.w ≠ .b256)
  | .aadd o | .afadd o | .amin o | .amax o | .aminn o | .amaxn o | .aand o | .aor o | .axor o | .axch o | .acas o
  | .ainc o | .aadd64 o | .acas64 o | .axch64 o | .ahadd o => decide (o.use = .plain)
  | .fence _ | .ssconv _ | .launch _ | .lqstat _ => true
  | _ => false

/-- AP minors that only an access processor executes (R89). -/
def apOnly : Instr → Bool
  | .qreq _ | .qwr _ | .apend => true
  | _ => false

/-- Special registers that exist (R90). -/
def srKnown (n : Nat) : Bool := decide (n ≤ 0x015) || (decide (0x100 ≤ n) && decide (n ≤ 0x11F))

/-- Special registers WRSR names: read/write and privileged ones (R90). -/
def srWritable (n : Nat) : Bool :=
  n ∈ [0x002, 0x003, 0x004, 0x005, 0x006, 0x007, 0x008, 0x009, 0x010, 0x011, 0x012, 0x013, 0x014]

/-- Special registers whose write is privileged (R90). -/
def srPrivileged (n : Nat) : Bool := n ∈ [0x010, 0x011, 0x013, 0x014]

/-- Special registers a control core's RDSR refuses (R417). -/
def srCtlRefused (n : Nat) : Bool :=
  n ∈ [0x001, 0x002, 0x00A, 0x00B, 0x00C, 0x00E, 0x00F, 0x015] || (decide (0x100 ≤ n) && decide (n ≤ 0x11F))

/-- Field checks that need the state: special-register numbers (R91, R417), PRE and IDEM indices (R187, R188). -/
def State.illField (s : State) (k : FKey) (i : Instr) : Bool :=
  let ctl := match k with | .ctl _ => true | _ => false
  match i with
  | .rdsr _ n => !srKnown n.toNat || (ctl && srCtlRefused n.toNat)
  | .wrsr _ n => !srWritable n.toNat || (ctl && (srCtlRefused n.toNat || n.toNat = 0x013 || n.toNat = 0x014))
  | .pre n => match s.launch? (s.blockOf k).lid with
    | some l => decide (field l.record 0x98 2 ≤ n.toNat)
    | none => true
  | .idem r _ => match s.launch? (s.blockOf k).lid with
    | some l => decide (field l.record 0x9A 1 ≤ r.toNat)
    | none => true
  | _ => false

/-- Whether the kind of agent admits what a slot names (R311, R416). -/
def agentAdmits (k : FKey) (t : Slot) : Bool :=
  match k, t.reg with
  | .fib _ _, _ => true
  | .ap _, .v n => decide (n.val < 32)
  | .ap _, .q _ => match t.kind with | .queue _ => true | _ => false
  | .ctl _, .v _ => true
  | _, .z => true
  | _, _ => false

/-- Whether a word names a k register as its destination. -/
def tempDst (i : Instr) : Bool := i.slots.any fun t => t.wr && (match t.reg with | .k _ => true | _ => false)

/-- Register classes, temporaries as destinations, predicates of an access processor (R74, R76, R311, R416). -/
def illOpndClass (k : FKey) (i : Instr) : Bool :=
  i.slots.any (fun t => !t.admits || !agentAdmits k t) ||
  ((i.longLatency || i.runEnding) && tempDst i) ||
  (match k with | .ap _ => i.preds.any fun p => decide (8 ≤ p.toNat) | _ => false)

/-- Registers outside the declared ones under the window base (R75). -/
def State.illOpndWindow (s : State) (k : FKey) (i : Instr) : Bool :=
  i.slots.any fun t => t.fields.any fun n => decide (s.declared k ≤ (s.fib k).wb.toNat + n)

/-- WBASE beyond the launch's registers (R183). -/
def State.illWbase (s : State) (k : FKey) (i : Instr) : Bool :=
  match i with
  | .wbase n => decide (s.declared k ≤ 16 * n.toNat)
  | _ => false

/-- Words of the current run that an agent has executed; access processors and control cores have no runs. -/
def State.runCount (s : State) (k : FKey) : Nat :=
  match k, s.agent with
  | .fib _ _, some (.coach c p) => ((s.pipes.at? (pipeKey c p)).map Coach.run).getD 0
  | _, _ => 0

/-- Whether the gang's role admits the word (R89). -/
def State.roleOk (s : State) (k : FKey) (i : Instr) : Bool :=
  match k with
  | .fib _ _ =>
    let m := i.major
    if m = 0x29 ∨ m = 0x2C then decide (s.roleOf k = 1)
    else if 0x30 ≤ m ∧ m ≤ 0x35 then decide (s.roleOf k = 2)
    else true
  | _ => true

/-- Privileged operations (R91, R385). -/
def privileged : Instr → Bool
  | .ssconv _ => true
  | .wrsr _ n => srPrivileged n.toNat
  | _ => false

/-- Number of earlier pops of the same queue in the word (R164). -/
def earlierPops (ts : List Slot) (idx : Nat) (q : Fin 8) : Nat :=
  ((ts.take idx).filter fun t => t.rd && decide (t.reg = .q q)).length

/-- Whether a fibre's pop of a bound queue must wait: no entry for it, and policy bit 0 (R80, R81). -/
def State.popWaits (s : State) (k : FKey) (i : Instr) : Bool :=
  !s.isHelper k && i.slots.zipIdx.any fun (t, n) => t.rd && !t.pol && (match t.reg, t.kind with
    | .q m, .vsq => decide ((s.queue (s.coreOf k) m).bound = some (s.gangOf k)) && (s.inboundEntry k m (earlierPops i.slots n m)).isNone
    | _, _ => false)

/-- The first check of R92 that a decoded word fails for an agent, as a cause code of R254. -/
def State.illCause (s : State) (k : FKey) (i : Instr) : Option Nat :=
  let fib := match k with | .fib _ _ => true | _ => false
  let subset := match k with | .fib _ _ => !apOnly i | .ap _ => apSubset i | .ctl _ => ctlSubset i
  if !subset then some 0x01
  else if s.illField k i then some 0x02
  else if illOpndClass k i || s.illOpndWindow k i || s.illWbase k i || (tempDst i && s.popWaits k i) then some 0x03
  else if !i.ordOk then some 0x04
  else if fib && decide (23 ≤ s.runCount k) && !i.runEnding then some 0x05
  else if !s.roleOk k i then some 0x07
  else if fib && privileged i then some 0x08
  else none

/-- Whether a helper would take a trap of R92 other than the one R157 excepts: a register outside the declared
ones under its own window base. -/
def State.helperIll (s : State) (k : FKey) (i : Instr) : Bool :=
  apOnly i || s.illField k i || illOpndClass k i || s.illWbase k i || !i.ordOk ||
    (decide (23 ≤ s.runCount k) && !i.runEnding) || !s.roleOk k i || privileged i

/-! ### Sources and destinations at issue -/

/-- What an instruction word does for one member. -/
inductive Verdict where
  | go
  /-- a helper for which the word has no effect (R157) -/
  | skip
  | stall
  | trap (t : Trap)
  | page (f : PageFault)
  /-- the fault that a continuation awaits is rejected: it ends, and the fault enters the trap queue (R257) -/
  | reject (f : PageFault)
  /-- consumption of an uncorrectable error in a recoverable launch (R222, R264) -/
  | rollback
  /-- its page is not in the TLBs: the page enters the miss queue and the coach waits (R276) -/
  | miss (va : W64)
  /-- no cart of the die can take it: the FILLING cart of its destination leaves, or the oldest one (R403) -/
  | cart (die dest : Nat)
  /-- carts that hold an element of the core leave, and the coach waits for their statuses (R121) -/
  | flush (core : Nat)
  /-- a recorded refusal is reported and leaves the record (R123, R404) -/
  | report (t : Trap) (e : CartFault)
  /-- a fault recorded on a timeline context is reported and leaves the context (R308) -/
  | ctx (t : Trap) (n : Nat)
  /-- the word reads a line of another device first: the request for it is sent, and the coach waits -/
  | fetch (r : Req)
  /-- an EVICTED carriage takes its slots back and is reloaded; the word waits for it (R328) -/
  | reload (car : Nat)
  /-- only entries of inbound queues are wanting: the destination is empty until they come (R80) -/
  | pop (r : Reg)
  /-- they have come, and the debugger has written the destination in the meantime: its value stands, the entries are popped (R263) -/
  | spent (qs : List Nat)
deriving DecidableEq, Repr

/-- Whether a verdict makes the whole coach wait. -/
def Verdict.waits : Verdict → Bool
  | .stall | .rollback | .miss _ | .cart _ _ | .flush _ | .fetch _ | .reload _ | .pop _ => true
  | .go | .skip | .trap _ | .page _ | .reject _ | .report _ _ | .ctx _ _ | .spent _ => false

/-- Whether the launch of an agent rolls back on an uncorrectable error (R264); one that an access processor meets stops its program
(R311). -/
def State.recoverable (s : State) (k : FKey) : Bool :=
  match k, s.launch? (s.blockOf k).lid with
  | .ctl _, _ | .ap _, _ | _, none => false
  | _, some l => bits (field l.record 0x28 4) 1 1 = 1 && !l.nonRecoverable

/-- The members of the agent that has the turn, in ascending order. -/
def State.members (s : State) : Option (List FKey) :=
  match s.agent with
  | some (.coach c p) => (s.pipes.at? (pipeKey c p)).map fun x => x.members.map (FKey.fib x.block)
  | some (.ap c) => if (s.core c).apOwner.isSome then some [.ap c] else none
  | some (.ctl n) => if n < 8 then some [.ctl n] else none
  | none => none

/-- The lowest live member of an agent's gang in the word: operands that a whole gang reads once are its (R336). -/
def State.lead (s : State) (k : FKey) : FKey :=
  ((s.members.getD []).find? fun m => !s.isHelper m && decide (s.gangOf m = s.gangOf k)).getD k

/-- Whether a member does not read a slot because its gang reads it once, from another member: the handle of MMA.R, MMAP.R
and CRLDV, and the select word of CRLDV (R336). -/
def State.gangRead (s : State) (k : FKey) (i : Instr) (t : Slot) : Bool :=
  (match i with | .mmaR _ | .mmapR _ | .crldv _ => true | _ => false) && decide (t.kind = .vs) && decide (s.lead k ≠ k)

/-- Whether it is the word's own pop, or that of another member of its gang in the coach, that has emptied a register. -/
def State.popHolds (s : State) (k : FKey) (r : Reg) : Bool :=
  match r with
  | .s _ => (s.members.getD []).any fun m => decide (s.gangOf m = s.gangOf k) && (s.fib m).pop.any fun x => decide (x.1 = r)
  | _ => (s.fib k).pop.any fun x => decide (x.1 = r)

/-- The cells a slot reads or writes: full bit and mark of each (R80, R222). -/
def State.slotCells (s : State) (k : FKey) (i : Instr) (t : Slot) : List (Bool × Option Mark) :=
  if s.gangRead k i t then [] else
  match t.reg with
  | .s n => [((s.scell k n).full || s.popHolds k t.reg, (s.scell k n).mark)]
  | _ => (t.fields.filter fun n => !(i.unread.contains n)).map fun n =>
      ((s.vcell k n).full || decide (t.reg.field = n ∧ s.popHolds k t.reg), (s.vcell k n).mark)

/-- Whether every entry a fibre must have pushed room for exists: an outbound queue takes 64 entries (R163, R313). -/
def State.outboundFull (s : State) (k : FKey) (q : Nat) : Bool :=
  let qu := s.queue (s.coreOf k) q
  let first := (qu.entries.head?.map QEntry.serial).getD qu.next
  decide (first + 64 ≤ s.cursorAt k q)

/-- Queue ports of a word whose queue is not bound to the fibre's gang (R244). -/
def State.unboundQueue (s : State) (k : FKey) (i : Instr) : Option Nat :=
  match k with
  | .fib _ _ => (i.slots.filterMap fun t => match t.reg with
      | .q n => if (s.queue (s.coreOf k) n).bound = some (s.gangOf k) then none else some n.val
      | _ => none).head?
  | _ => none

/-- Whether source slot `idx` finds its register empty, or its queue without an entry (R81). -/
def State.emptySource (s : State) (k : FKey) (i : Instr) (idx : Nat) (t : Slot) : Bool :=
  t.rd && match t.reg with
    | .q n => match t.kind with
      | .vsq => (s.inboundEntry k n (earlierPops i.slots idx n)).isNone
      | _ => false
    | _ => (s.slotCells k i t).any fun c => !c.1

/-- The first source slot that raises EMPTY_READ: empty under policy 1 (R81). Where both sources are, it is A that TINFO[32] names
(DESIGN CHOICE, log 86). -/
def State.emptyTrap (s : State) (k : FKey) (i : Instr) : Option Nat :=
  (i.slots.zipIdx.filterMap fun (t, n) => if t.pol && s.emptySource k i n t then some (i.emptySlot n) else none).head?

/-- Whether a source or destination makes the coach stall (R81, R163, R165). -/
def State.slotStall (s : State) (k : FKey) (i : Instr) : Bool :=
  i.slots.zipIdx.any fun (t, n) =>
    (!t.pol && s.emptySource k i n t) ||
    (t.wr && ((match t.reg with | .q m => s.outboundFull k m | _ => false) || (s.slotCells k i t).any fun c => !c.1))

/-- The destination of a word that waits for entries of inbound queues alone (R80). -/
def State.popDst (s : State) (k : FKey) (i : Instr) : Option Reg :=
  let other := i.slots.zipIdx.any fun (t, n) =>
    (!t.pol && (match t.reg with | .q _ => false | _ => s.emptySource k i n t)) ||
    (t.wr && ((match t.reg with | .q m => s.outboundFull k m | _ => false) || (s.slotCells k i t).any fun c => !c.1))
  if other || !s.popWaits k i then none
  else (i.slots.find? Slot.wr).bind fun t => match t.reg with | .v _ | .s _ => some t.reg | _ => none

/-- The first mark that a source carries (R222). -/
def State.sourceMark (s : State) (k : FKey) (i : Instr) : Option Mark :=
  (i.slots.filterMap fun t => if t.rd then ((s.slotCells k i t).filterMap (·.2)).head? else none).head?

/-- What reading a marked register does (R222, R254, R264). -/
def State.markVerdict (s : State) (k : FKey) (i : Instr) : Mark → Verdict
  | .poison a => if s.recoverable k then .rollback else .trap (s.trapOf k i 0x30 a)
  | .remote a code lane => .trap (s.trapOf k i 0x14 a (code.toNat + 256 * lane))

/-- Requests in a slice's spill queue; whether it holds its 16,384 (R286). -/
def State.spilledCount (s : State) (n : Nat) : Nat := (s.reqs.filter fun r => decide (r.slice = n ∧ r.stage = .spilled)).length
def State.spillFull (s : State) (n : Nat) : Bool := decide (16384 ≤ s.spilledCount n)

/-- Whether a request of a fibre is held before its slice, whose spill queue is full (R286). -/
def State.crossbarHolds (s : State) (r : Req) : Bool :=
  decide (r.stage = .inFlight) && r.dev.isNone && !r.uc && decide (r.slice < 192) && s.spillFull r.slice

/-- Whether an agent still waits for its previous word: a control core for any, a fibre for the answer of its LAUNCH, and for a
request that the crossbar holds (R190, R286, R416). -/
def State.wordBusy (s : State) : FKey → Bool
  | .ctl n => s.reqs.any fun r => r.org = .fibre (.ctl n)
  | k => s.reqs.any fun r => decide (r.org = .fibre k) && ((match r.what with | .sig _ _ => true | _ => false) || s.crossbarHolds r)

/-- Queues that a word pops, once for each source. -/
def queueSources (i : Instr) : List Nat := i.slots.filterMap fun t => match t.reg with | .q n => if t.rd then some n.val else none | _ => none

/-- What happens to one live member before the instruction's own checks (R92, R81, R222, R244). Where one source would raise
EMPTY_READ and another stalls, EMPTY_READ comes first (DESIGN CHOICE, log 69). -/
def State.issueCheck (s : State) (k : FKey) (i : Instr) : Verdict :=
  if s.wordBusy k then .stall else
  match s.illCause k i with
  | some c => .trap (s.trapOf k i c)
  | none =>
    match s.unboundQueue k i with
    | some q => .trap (s.trapOf k i 0x17 0 q)
    | none =>
      match s.emptyTrap k i with
      | some n => .trap (s.trapOf k i 0x06 0 n)
      | none =>
        if s.slotStall k i then (match s.popDst k i with | some r => .pop r | none => .stall)
        else match s.sourceMark k i with
          | some m => s.markVerdict k i m
          | none => if (s.fib k).pop.any fun x => !x.2 then .spent (queueSources i) else .go

/-- What happens to one helper (R157): its own empty registers stall, and a word that would trap in a live fibre has no effect:
one at fault, one that names a queue not bound to the gang, one that reads an empty register under policy 1 or a marked one. -/
def State.helperCheck (s : State) (k : FKey) (i : Instr) : Verdict :=
  let empty := fun (t : Slot) => t.fields.any fun n => !(s.vcell k n).full
  let none? := fun (t : Slot) => empty t || (match t.reg with | .s n => !(s.scell k n).full | _ => false)
  if s.helperIll k i || (s.unboundQueue k i).isSome || (i.slots.any fun t => t.rd && t.pol && none? t) then .skip
  else if i.slots.any fun t => (t.rd || t.wr) && t.reg ≠ .id && empty t then .stall
  else if (s.sourceMark k i).isSome then .skip
  else .go

/-- The verdict of a word for a member, with the instruction's own check for a live one. -/
def State.verdict (s : State) (i : Instr) (check : State → FKey → Verdict) (k : FKey) : Verdict :=
  if s.isHelper k then s.helperCheck k i
  else match s.issueCheck k i with
    | .go => check s k
    | v => v

/-! ### Executing a word -/

/-- The sector (0-2) of a die, from its walkers' turn on, with a page that no walker has taken (R276). -/
def State.nextWalk (s : State) (d : Nat) : Option (Nat × Miss) :=
  (List.range 3).findSome? fun i =>
    let sec := ((s.die d).walkTurn + i) % 3
    (s.missQ.find? fun m => decide (m.sector = d * 3 + sec) && !m.walking && !m.filled && m.result.isNone).map fun m => (sec, m)

/-- A die's 16 walkers take pages: the oldest of each sector, the sectors in turn (R276). -/
def State.startWalks (d : Nat) : Nat → State → State
  | 0, s => s
  | n + 1, s =>
    if 16 ≤ (s.missQ.filter fun m => decide (m.sector / 3 = d) && m.walking).length then s
    else match s.nextWalk d with
      | some (sec, m) => State.startWalks d n
          { s.updDie d (fun x => { x with walkTurn := (sec + 1) % 3 }) with missQ := s.missQ.map fun x => if x = m then { x with walking := true } else x }
      | none => s

/-- Enters a page into a sector's miss queue for an agent, or joins the entry that stands there; a full queue takes no new
page (R276). -/
def State.enqueueMiss (s : State) (core part : Nat) (p : Party) (va : W64) : State :=
  let sector := sectorOf core
  let page := va.toNat / 65536
  let same := fun (m : Miss) => decide (m.sector = sector ∧ m.part = part ∧ m.page = page)
  if s.missQ.any same then
    { s with missQ := s.missQ.map fun m =>
      if same m && (m.filled || !m.waiters.contains p) then { m with waiters := dedup (m.waiters ++ [p]), filled := false } else m }
      |> State.startWalks (dieOf core) 16
  else if 512 ≤ (s.missQ.filter fun m => m.sector = sector).length then s
  else { s with missQ := s.missQ ++ [{ sector := sector, part := part, page := page, waiters := [p] }] } |> State.startWalks (dieOf core) 16

/-- Whether an agent's page stands in the miss queue already, with the agent among those that wait, or finds no room (R276). -/
def State.missStands (s : State) (core part : Nat) (p : Party) (va : W64) : Bool :=
  let mine := s.missQ.filter fun m => decide (m.sector = sectorOf core)
  match mine.find? fun m => decide (m.part = part ∧ m.page = va.toNat / 65536) with
  | some m => m.waiters.contains p && !m.filled
  | none => decide (512 ≤ mine.length)

def State.enterMiss (s : State) (k : FKey) (va : W64) : State := s.enqueueMiss (s.coreOf k) (s.partOf k) (.agent k) va

/-- Takes an agent out of the pages whose walks have ended; an entry no one waits on leaves the queue (R276). -/
def State.leaveMissOf (s : State) (p : Party) : State :=
  { s with missQ := (s.missQ.map fun m =>
      if m.result.isSome || m.filled then { m with waiters := m.waiters.filter (· ≠ p) } else m).filter fun m => m.waiters ≠ [] }

def State.leaveMiss (s : State) (k : FKey) : State := s.leaveMissOf (.agent k)

/-- FILLING carts that satisfy `p` become LEAVING at CLOCK `now`; LEAVING carts stand in the order in which they became so
(R403). -/
def leaveCarts (now : Nat) (p : Cart → Bool) (cs : List Cart) : List Cart :=
  cs.filter (fun c => c.leaving || !p c) ++ (cs.filter fun c => !c.leaving && p c).map fun c => { c with leaving := true, left := now }

/-- For the access of `k` to device `dest`, which finds no FREE cart and has sent none on its way before: the FILLING cart of its
destination leaves, which has too few slots for it, or else the FILLING cart whose oldest element is the oldest (R403). -/
def State.evictCart (s : State) (k : FKey) (d dest : Nat) : State :=
  let cs := (s.die d).carts
  let own := cs.find? fun c => decide (c.dest = dest) && !c.leaving
  let oldest := (cs.filter fun c => !c.leaving).foldl (fun (m : Option Cart) c => match m with
      | none => some c
      | some y => if c.since < y.since then some c else some y) none
  if decide (cs.length < 128) || s.evicted.contains k then s
  else match own.orElse fun _ => oldest with
    | none => s
    | some y => { s.updDie d fun x => { x with carts := leaveCarts s.clock (fun c => decide (c = y)) x.carts } with evicted := s.evicted ++ [k] }

/-- A carriage takes its slots, zeroed, and starts to load (R322, R323, R328, R362). -/
def Carriage.startLoad (c : Carriage) : Carriage :=
  if c.slots then { c with state := .loading, loadDirty := false, loadFault := none }
  else { c with state := .loading, loadDirty := false, loadFault := none, slots := true, weights := [], sideStore := [] }

/-- Starts the reload of an EVICTED carriage from its record for a fibre; it takes no ticket (R323, R328). -/
def State.startReload (s : State) (k : FKey) (n : Nat) : State :=
  match s.carriages.at? n with
  | some c =>
    if c.state = .evicted then
      let p := loadParty (c.load.elim k CrLoad.fibre) n
      { (s.newAgent p).follows (.agent k) p with
        carriages := s.carriages.put n { c.startLoad with load := c.load.map fun l => { l with ticket := none, deps := [] } } }
    else s
  | none => s

/-- An entry of the route table; one not written has no path (R395, DESIGN CHOICE, log 10). -/
def State.route (s : State) (d : Nat) : List Byte := s.routeTab.atD d (toBytes 32 0x7FE)

/-- Whether no packet goes to a device: no path, or its flow is given up (R395, R398). -/
def State.unreachable (s : State) (d : Nat) : Bool := decide (field (s.route d) 0 2 = 0x7FE) || (s.flows.atD (d, 0) {}).givenUp

/-- Packets of the request flow to a device that are not acknowledged (R398). -/
def State.unacked (s : State) (d : Nat) : Nat := (s.flows.atD (d, 0) {}).unacked.length

/-- Requests leave in the next packet of a flow (R398). -/
def State.packetIn (s : State) (d cls : Nat) (ids : List Nat) : State :=
  let f := s.flows.atD (d, cls) {}
  { s with flows := s.flows.put (d, cls) { f with next := (f.next + 1) % 2 ^ 32, unacked := f.unacked ++ [(f.next, ids)], lastAck := if f.unacked = [] then s.clock else f.lastAck } }

/-- Requests leave in the next packet of the request flow to a device (every access and request travels in the request class:
DESIGN CHOICE, log 79). -/
def State.packet (s : State) (d : Nat) (ids : List Nat) : State := s.packetIn d 0 ids

/-- Sends an answer or a notice in a packet of its flow; behind 1024 packets without an acknowledgement it waits, and on a flow that
is given up it is not sent (R398). -/
def State.post (s : State) (d cls : Nat) (x : Sent) : State :=
  let f := s.flows.atD (d, cls) {}
  if f.givenUp then s
  else if 1024 ≤ f.unacked.length ∨ s.backlog.any (fun b => b.1 = d ∧ b.2.1 = cls) then { s with backlog := s.backlog ++ [(d, cls, x)] }
  else { s.packetIn d cls [] with outbox := s.outbox ++ [x] }

/-- What waits for room in a flow is sent as far as there is room (R398). -/
def State.postWaiting (s : State) (d cls : Nat) : State :=
  let mine := s.backlog.filter fun b => decide (b.1 = d ∧ b.2.1 = cls)
  let rest := s.backlog.filter fun b => !decide (b.1 = d ∧ b.2.1 = cls)
  mine.foldl (fun s b => s.post d cls b.2.2) { s with backlog := rest }

/-- Whether a request of a core stands in a cart. -/
def Cart.holds (s : State) (c : Cart) (p : Req → Bool) : Bool := s.reqs.any fun r => decide (r.id ∈ c.elems) && p r

/-- Makes every FILLING cart of a die with an element that satisfies `p` leave (R121, R400). -/
def State.flushCarts (s : State) (d : Nat) (p : Req → Bool) : State :=
  s.updDie d fun x => { x with carts := leaveCarts s.clock (fun c => c.holds s p) x.carts }

/-- Sends an agent's request for a line of another device, or for the end of a write lease, unless it is on its way; a line
of a device that is not reached is refused at once. Elements of its core for the line that stand in carts are sent and settled
first (R122, R400). -/
def State.sendFetch (s : State) (r : Req) : State :=
  let d := r.dev.getD 0
  match r.org with
  | .fibre k =>
    if r.what = .line && s.unreachable d then { s with lineBuf := s.lineBuf ++ [(k, (d + 1) * 2 ^ 37 + r.pa / 128, 0x40, [])] }
    else if s.reqs.any fun x => x.what = r.what ∧ x.org = r.org ∧ x.dev = r.dev ∧ x.pa = r.pa then s
    else
      let first := fun (x : Req) => decide (x.core = r.core ∧ x.dev = r.dev ∧ x.pa / 128 = r.pa / 128)
      if s.reqs.any fun x => first x && (match x.stage with | .cart | .sent | .discarded _ => true | _ => false) then s.flushCarts (dieOf r.core) first
      else if 1024 ≤ s.unacked d then s
      else { s.packet d [s.nextReq] with reqs := s.reqs ++ [{ r with id := s.nextReq, since := s.clock, sentAt := s.clock, stage := .remote }], nextReq := s.nextReq + 1 }
  | _ => s

/-- Forgets the lines fetched for a word that has been performed, and the carts its accesses sent on their way. -/
def State.dropLines (s : State) (ks : List FKey) : State :=
  { s with lineBuf := s.lineBuf.filter fun x => !(ks.contains x.1), evicted := s.evicted.filter fun k => !(ks.contains k) }

/-- Takes the first entry equal to `e` out of a core's cart-fault record (R404). -/
def State.dropCartFault (s : State) (c : Nat) (e : CartFault) : State := s.updCore c fun x => { x with cartFaults := x.cartFaults.erase e }

/-- The fault recorded on a context for a gang (R308). -/
def State.ctxFault (s : State) (c t : Nat) (g : Nat × Nat) : Option CtxFault := (s.ctx c t).faults.find? (·.gang = g)

/-- Takes the record of a gang off a context (R308). -/
def State.dropCtxFault (s : State) (c t : Nat) (g : Nat × Nat) : State :=
  s.updCtx c t fun x => { x with faults := x.faults.filter (·.gang ≠ g) }

/-- The trap that reports a recorded fault at an instruction (R308, R359, R378, R384): the recorded cause and address,
the word of the reporting instruction, and the recorded reason. -/
def State.ctxTrap (s : State) (k : FKey) (i : Instr) (e : CtxFault) : Trap :=
  { cause := e.cause, pc := (s.fib k).pc, addr := e.addr, info := e.info ||| i.word.setWidth 64 }

/-- Whether a member is the first live one of its gang in the coach that gets past the checks of R92: the one that reports
what is recorded for the gang. -/
def State.firstOfGang (s : State) (k : FKey) (i : Instr) : Bool :=
  decide (((s.members.getD []).find? fun m => !s.isHelper m && decide (s.gangOf m = s.gangOf k) && decide (s.issueCheck m i = .go)) = some k)

/-- The report of a fault recorded on context `n` for the gang of a member (R308). -/
def State.ctxReport (s : State) (k : FKey) (i : Instr) (n : Nat) : Option Verdict :=
  match s.ctxFault (s.coreOf k) n (s.gangOf k) with
  | some e => if s.firstOfGang k i then some (.ctx (s.ctxTrap k i e) n) else none
  | none => none

/-- An agent of a recoverable launch consumes an uncorrectable error: it executes no further word, and the launch rolls back
(R222, R264). -/
def State.consume (s : State) (k : FKey) : State :=
  let s := match k with | .fib b n => (s.leaveCoach b n).endRunOf k | _ => s
  (s.updFib k fun f => { f with wait := .dead }).updLaunch (s.blockOf k).lid fun l => { l with mustRollback := true }

/-- Takes the traps, parks and rollbacks of the members, in ascending order (R250). -/
def State.takeVerdicts (s : State) (vs : List (FKey × Verdict)) : State :=
  vs.foldl (fun s (k, v) =>
    let s := match v with | .miss _ => s | _ => s.leaveMiss k
    match v with
    | .trap t => s.raise k t
    | .page f => s.pageFault k f
    | .reject f => (s.updFib k fun f => { f with continuing := none }).raise k f.trap
    | .miss va => s.enterMiss k va
    | .cart d dest => s.evictCart k d dest
    | .flush c => s.flushCarts (dieOf c) fun r => decide (r.core = c)
    | .report t e => (s.dropCartFault (s.coreOf k) e).raise k t
    | .fetch r => s.sendFetch r
    | .reload n => s.startReload k n
    | .pop r => s.startPop k r
    | .ctx t n => (s.dropCtxFault (s.coreOf k) n (s.gangOf k)).raise k t
    | .rollback => s.consume k
    | _ => s) s

/-- Marks the coach of the turn as stalled or not. -/
def State.setStalled (s : State) (b : Bool) : State :=
  match s.agent with
  | some (.coach c p) =>
    { s with pipes := s.pipes.map fun (q, x) => if q = pipeKey c p then (q, { x with stalled := b }) else (q, x) }
  | _ => s

/-- A helper's PC is that of the lowest live fibre of its quad (R157); one without a live fibre in the coach
leaves it. -/
def State.syncHelpers (s : State) (c p : Nat) : State :=
  match s.pipes.at? (pipeKey c p) with
  | none => s
  | some x =>
    let helpers := x.members.filter fun n => s.isHelper (.fib x.block n)
    let s := helpers.foldl (fun s n => match s.quadLeader x.block n with
      | some m => s.updFib (.fib x.block n) fun f => { f with pc := (s.fib (.fib x.block m)).pc }
      | none => s) s
    let keep := x.members.filter fun n =>
      !(n ∈ helpers) || (match s.quadLeader x.block n with | some m => decide (m ∈ x.members) | none => false)
    { s with pipes := if keep = [] then s.pipes.del (pipeKey c p) else s.pipes.put (pipeKey c p) { x with members := keep } }

/-- Raises a debugger stop or a timer that waits for the run boundary (R253). -/
def State.boundaryTraps (s : State) (k : FKey) : State :=
  let f := s.fib k
  match k with
  | .fib _ _ =>
    if f.status ≠ .live ∨ f.wait ≠ .ready then s
    else if f.heldDebug ∧ (!f.service ∨ (s.gang (s.gangOf k)).debug) then
      (s.updFib k fun f => { f with heldDebug := false }).raise k { cause := 0x23, pc := f.pc }
    else if f.heldTimer ∧ !f.service then
      (s.updFib k fun f => { f with heldTimer := false }).raise k { cause := 0x20, pc := f.pc }
    else s
  | _ => s

/-- Temporaries after the end of a run: none survive it, but those of a fibre that has arrived at a collective stand until
the collective reads its sources (R76, R214, DEDUCED, log 41). -/
def Fibre.keptTemps (f : Fibre) : Map Nat W32 :=
  match f.wait with
  | .coll _ => f.k
  | _ => []

/-- Ends the run of every member of the coach of the turn (R84, R153). -/
def State.endRun (s : State) : State :=
  match s.agent with
  | some (.coach c p) =>
    match s.pipes.at? (pipeKey c p) with
    | none => s
    | some x =>
      let s := s.syncHelpers c p
      let s := { s with pipes := s.pipes.del (pipeKey c p) }
      let s := x.members.foldl (fun s n => s.updFib (.fib x.block n) fun f =>
        { f with k := f.keptTemps, lastEnd := s.cycles c, readySince := s.cycles c }) s
      x.members.foldl (fun s n => s.boundaryTraps (.fib x.block n)) s
  | _ => s

/-- Counts one more word of the run. -/
def State.countWord (s : State) : State :=
  match s.agent with
  | some (.coach c p) =>
    match s.pipes.at? (pipeKey c p) with
    | none => s
    | some x => ({ s with pipes := s.pipes.put (pipeKey c p) { x with run := x.run + 1, stalled := false, served := [], since := s.clock } }).syncHelpers c p
  | _ => s

/-- Sets the PC of the members that executed the word. -/
def State.setPcs (s : State) (pcs : List (FKey × W64)) : State :=
  pcs.foldl (fun s (k, pc) => s.updFib k fun f => { f with pc := pc }) s

/-- PC + 4. -/
def State.nextPc (s : State) (k : FKey) : W64 := (s.fib k).pc + 4

/-- What a word of some live members does to the order between the fibres of a quad, and to dependences (R106). -/
def State.noteWord (s : State) (i : Instr) (live : List FKey) : State :=
  (if i.quad then s.noteCross live sameQuad else s).depends i live

/-- A word reads memory while it is judged: its reads are ordered first (R106). -/
def State.reading (s : State) (i : Instr) : State := s.ordered i ((s.members.getD []).filter fun k => !s.isHelper k)

/-- A member pops its queues and goes on, its destination left as the debugger has written it (R263). -/
def State.spend (s : State) (x : FKey × Verdict) : State :=
  match x.2 with
  | .spent qs => (qs.foldl (fun s q => s.pop x.1 q 1) s).updFib x.1 fun f => { f with pc := f.pc + 4 }
  | _ => s

/-- The frame of every instruction word. Members are judged, their traps are taken, and if no member stalls, the effect
is applied to those for which the word goes on; then the PCs move and the run advances or ends. `after` is what
follows from the members' new places: a rendezvous, a delivery, a stop point. -/
def issue (i : Instr) (s : State) (check : State → FKey → Verdict) (eff : State → List FKey → State)
    (next : State → FKey → W64 := State.nextPc) (after : State → List FKey → State := fun s _ => s) : Out :=
  match s.members with
  | none => .refused .noAgent
  | some ks =>
    let vs := ks.map fun k => (k, s.verdict i check k)
    let s1 := s.takeVerdicts vs
    if vs.any fun v => v.2.waits then .next (s1.setStalled true)
    else
      let go := (vs.filter fun v => v.2 = .go).map (·.1)
      let live := go.filter fun k => !s1.isHelper k
      let s1 := (vs.foldl State.spend s1).noteWord i live
      let s2 := (eff s1 go).dropLines go
      let s3 := s2.setPcs (live.map fun k => (k, next s1 k))
      .next (after (if i.runEnding then s3.endRun else s3.countWord) go)

/-- Notes that a member has performed the word of the turn, and moves its PC. -/
def State.markServed (s : State) (k : FKey) : State :=
  let s := s.updFib k fun f => { f with pc := f.pc + 4 }
  match s.agent, k with
  | some (.coach c p), .fib _ n =>
    { s with pipes := s.pipes.map fun (q, x) => if q = pipeKey c p then (q, { x with served := n :: x.served }) else (q, x) }
  | _, _ => s

/-- Whether a member has performed the word of the turn already. -/
def State.isServed (s : State) (k : FKey) : Bool :=
  match s.agent, k with
  | some (.coach c p), .fib _ n => ((s.pipes.at? (pipeKey c p)).map fun x => decide (n ∈ x.served)).getD false
  | _, _ => false

/-- The members that have still to perform the word of the turn, one after the other: the state, and whether one must
wait. -/
def serialGo (i : Instr) (check : State → FKey → Verdict) (eff : State → FKey → State) : List FKey → State → State × Bool
  | [], s => (s, false)
  | k :: r, s =>
    if s.isHelper k || s.isServed k then serialGo i check eff r s
    else
      let v := s.verdict i check k
      if v.waits then (s.takeVerdicts [(k, v)], true)
      else if v = .go then serialGo i check eff r (((eff (s.depends i [k]) k).dropLines [k]).markServed k)
      else serialGo i check eff r (s.takeVerdicts [(k, v)])

/-- The frame of a word that commands a unit: its live members perform it one after the other, and the coach stalls where
one must wait for the unit; those that have performed it do not repeat it. -/
def issueSerial (i : Instr) (s : State) (check : State → FKey → Verdict) (eff : State → FKey → State) : Out :=
  match s.members with
  | none => .refused .noAgent
  | some ks =>
    let (s1, wait) := serialGo i check eff ks s
    if wait then .next (s1.setStalled true) else .next s1.countWord

/-- No further check. -/
def noCheck (_ : State) (_ : FKey) : Verdict := .go

/-- An instruction that computes on registers only: every member's writes are computed from the state before, then
performed (R163). Its queue sources are popped. -/
def compute (i : Instr) (s : State) (lane : State → FKey → List Wr) : Out :=
  issue i s noCheck fun s ks =>
    let ws := ks.map fun k => (k, lane s k)
    (ks.foldl (fun s k => s.popSlots k i.slots) s).lanes ws

end Sys2Proof.Machine
end

