-- ==== Sys2Proof/Machine/Mem.lean ====
section
/-!
DEFINITION. Machine/Mem.lean: scratchpad storage, translation and the checks of R220, homes and leases, and the
path of a memory request from issue to completion (04, 09, 13).
-/

namespace Sys2Proof.Machine

/-! ### Scratchpad (R151, R277, R278) -/

/-- Storage byte of offset `off` of a block's allocation; the units of the allocation need not be contiguous
(R150). -/
def State.scratchKey (s : State) (b off : Nat) : Nat :=
  let x := s.block b
  x.core * 2 ^ 21 + (x.units[off / 128]?).getD 0 * 128 + off % 128

/-- The block and offset a scratchpad address names, or the reason it is invalid (R151, R221). -/
def State.scratchAddr (s : State) (b a : Nat) : Except Nat (Nat × Nat) :=
  if a / 2 ^ 22 ≠ 0 then .error 0
  else
    let off := a % 2 ^ 21
    if a / 2 ^ 21 = 1 then
      match (s.block b).twin with
      | none => .error 1
      | some t => if off < (s.block t).scratch then .ok (t, off) else .error 2
    else if off < (s.block b).scratch then .ok (b, off) else .error 2

/-- `n` bytes of a block's allocation from `off`, little-endian. -/
def State.scratchBytes (s : State) (b off n : Nat) : List Byte :=
  (List.range n).map fun i => s.scratch.read (s.scratchKey b (off + i))

def State.scratchGet (s : State) (b off n : Nat) : Nat := ofBytes (s.scratchBytes b off n)

/-- A range of an allocation in pieces that stand contiguously in storage: offset and length of each (R150). -/
def scratchPieces : Nat → Nat → Nat → List (Nat × Nat)
  | 0, _, _ => []
  | _ + 1, _, 0 => []
  | fuel + 1, off, n => let m := min n (128 - off % 128); (off, m) :: scratchPieces fuel (off + m) (n - m)

/-- The bytes an agent finds in a range of an allocation, and what its read of them does (R99, R102). -/
def State.scratchSeen (s : State) (p : Party) (b off n : Nat) : List Byte :=
  (scratchPieces n off n).flatMap fun (o, m) => s.viewed { who := p, scr := true } (s.scratchKey b o) (s.scratchBytes b o m)

def State.scratchRead (s : State) (p : Party) (b off n : Nat) (acq : Option Scope) : State :=
  (scratchPieces n off n).foldl (fun s (o, m) => s.noteRead { who := p, scr := true } (s.scratchKey b o) m acq) s

/-- The release sequences it reads from (R103). -/
def State.scratchFrom (s : State) (p : Party) (b off n : Nat) : List Msg :=
  (scratchPieces n off n).flatMap fun (o, m) => s.readsFrom { who := p, scr := true } (s.scratchKey b o) m

/-- Whether some 8-byte word of a range of an allocation is poisoned (R278). -/
def State.scratchPoisoned (s : State) (b off n : Nat) : Bool :=
  (List.range n).any fun i => s.poisonScratch.contains (s.scratchKey b (off + i) / 8)

/-- The first poisoned byte of a range, from its start (R254). -/
def State.scratchPoisonOff (s : State) (b off n : Nat) : Option Nat :=
  (List.range n).find? fun i => s.poisonScratch.contains (s.scratchKey b (off + i) / 8)

/-- Words wholly covered by a write of `n` bytes at `off`: their poison is replaced (R278). -/
def coveredWords (off n : Nat) : List Nat :=
  (List.range (n / 8 + 1)).map (fun i => (off + 7) / 8 + i) |>.filter fun w => decide (8 * w + 8 ≤ off + n)

/-- Writes bytes into a block's allocation; a narrower write keeps a word poisoned (R278). -/
def State.scratchWrite (s : State) (w : Writer) (b off : Nat) (bs : List Byte) : State :=
  let s := (scratchPieces bs.length off bs.length).foldl (fun s (o, m) => s.noteWrite w true (s.scratchKey b o) (s.scratchBytes b o m)) s
  let clear := (coveredWords off bs.length).map fun w => s.scratchKey b (8 * w) / 8
  { s with
    scratch := bs.zipIdx.foldl (fun m (x, i) => m.write (s.scratchKey b (off + i)) x) s.scratch
    poisonScratch := s.poisonScratch.filter fun w => !(clear.contains w) }

/-- Marks the words of a range poisoned (R278, R351). -/
def State.scratchPoison (s : State) (b off n : Nat) : State :=
  { s with poisonScratch := dedup (s.poisonScratch ++ (List.range n).map fun i => s.scratchKey b (off + i) / 8) }

/-- An arrival update (dc, dt, bk) on the word at `off` by an agent, with its scope if it is a release; it is indivisible
(R115-R117). -/
def State.arrival (s : State) (p : Party) (rel : Option Scope) (b off dc dt : Nat) (bk : Bool) : State :=
  let by_ : Writer := { who := p, rmw := true, rel := rel, unit := 16 }
  if dc = 0 ∧ dt = 0 ∧ !bk then s
  else
    let target := (s.scratchGet b off 4 + dt) % 2 ^ 32
    let count := (s.scratchGet b (off + 4) 4 + dc) % 2 ^ 32
    let w := s.scratchGet b (off + 8) 4
    let rearm := s.scratchGet b (off + 12) 4
    if target ≤ count then
      let phase := 1 - bits w 31 31
      let ovr := if target < count then 1 else bits w 30 30
      let gen := (bits w 29 0 + 1) % 2 ^ 30
      s.scratchWrite by_ b off (toBytes 4 rearm ++ toBytes 4 0 ++ toBytes 4 (phase * 2 ^ 31 + ovr * 2 ^ 30 + gen) ++ toBytes 4 rearm)
    else s.scratchWrite by_ b off (toBytes 4 target ++ toBytes 4 count ++ s.scratchBytes b (off + 8) 8)

/-! ### Physical addresses, homes (R272, R283, R284, R290) -/

def hostBase : Nat := 0x40000000000
def windowBase : Nat := 0x80000000000
def controlBase : Nat := 0xF0000000000

/-- Populated device DRAM (R272). -/
def inDram (pa : Nat) : Bool := decide (pa < 0xC000000000) && decide (pa % 2 ^ 36 < 0xEE6B28000)
def inHost (pa : Nat) : Bool := decide (hostBase ≤ pa) && decide (pa < windowBase)
def inWindow (pa : Nat) : Bool := decide (windowBase ≤ pa) && decide (pa < windowBase + 2 ^ 32)

/-- A local physical address that is neither a hole nor reserved (R272). -/
def populated (pa : Nat) : Bool := inDram pa || inHost pa || inWindow pa

/-- Exclusive-or of the eight low nibbles of a line number (R284). -/
def nibbleXor (la : Nat) : Nat :=
  (List.range 8).foldl (fun x i => x ^^^ (la / 16 ^ i % 16)) 0

/-- Slice that serves a physical address, as die * 48 + sector * 16 + slice; host memory has none (R283, R284,
R290). -/
def homeSlice (pa hsec : Nat) : Nat :=
  let la := pa / 128
  if inWindow pa then
    let a := pa - windowBase
    bits a 31 30 * 48 + bits a 29 28 * 16 + bits a 27 24
  else if inDram pa then
    pa / 2 ^ 36 / 3 * 48 + (if hsec < 3 then hsec else la % 3) * 16 + nibbleXor la
  else 1000

/-- Pseudo-channel of a line within its stack: the exclusive-or of four fields of the stack-local line number (R292). -/
def pseudoChannel (pa : Nat) : Nat :=
  let la := pa % 2 ^ 36 / 128
  (List.range 4).foldl (fun x i => x ^^^ (la / 64 ^ i % 64)) 0

/-- Queue of the controller that serves a line's pair of pseudo-channels (R292). -/
def controllerOf (pa : Nat) : Nat := 2000 + pa / 2 ^ 36 * 32 + pseudoChannel pa / 2

/-- Sector (0-11) of a slice number. -/
def sectorOfSlice (n : Nat) : Nat := n / 48 * 3 + n % 48 / 16

/-- Converted groups a bank of a slice offers: a group is not served from the start of its conversion until the SSCONV's
ticket completes, nor once it is being converted back (R289-R291; DEDUCED, log 27). -/
def State.servedGroups (s : State) (n : Nat) : Nat :=
  let x := s.slice n
  match x.targets.head? with
  | some (t, _, _, _) => if t < x.groups then x.groups - 1 else min x.base t
  | none => x.groups

/-- Whether a shared-store address has converted storage (R290). -/
def State.ssaOk (s : State) (ssa : Nat) : Bool :=
  decide (bits ssa 29 28 < 3) &&
    decide (bits ssa 19 0 < s.servedGroups (bits ssa 31 30 * 48 + bits ssa 29 28 * 16 + bits ssa 27 24) * 4 * 65536)

/-- Whether a local physical address answers an access (R272, R290). -/
def State.paOk (s : State) (pa : Nat) : Bool :=
  populated pa && (!inWindow pa || s.ssaOk (pa - windowBase))

/-- Bank number of a shared-store address. -/
def bankOf (ssa : Nat) : Nat := ssa / 2 ^ 20

/-! ### Translation (R273, R274, R276) -/

def pteField (pte : W64) (hi lo : Nat) : Nat := bits pte.toNat hi lo
def pteDevice (pte : W64) : Nat := pteField pte 63 53
def pteFrame (pte : W64) : Nat := pteField pte 52 16 * 2 ^ 16
def pteSize (pte : W64) : Nat := pteField pte 15 12
def pteUc (pte : W64) : Bool := pteField pte 9 9 = 1
def pteCell (pte : W64) : Bool := pteField pte 8 8 = 1
def pteHsec (pte : W64) : Nat := pteField pte 7 6
def pteClass (pte : W64) : Nat := pteField pte 5 4
def pteU (pte : W64) : Bool := pteField pte 3 3 = 1
def pteX (pte : W64) : Bool := pteField pte 2 2 = 1
def pteW (pte : W64) : Bool := pteField pte 1 1 = 1
def pteV (pte : W64) : Bool := pteField pte 0 0 = 1

/-- Whether a PTE's DEVICE field names this device (R273, R391). -/
def State.isLocal (s : State) (pte : W64) : Bool := pteDevice pte = 0x7FF || pteDevice pte = s.devId

/-- The walk of R274 over its levels: lowest VA bit of the index, index bits, SIZE of a leaf allowed there. -/
def State.walkGo (s : State) (va table : Nat) : List (Nat × Nat × Option Nat) → Option (Nat × W64)
  | [] => none
  | (lo, n, leaf) :: r =>
    let pte := BitVec.ofNat 64 (s.mem.get (table + 8 * (va / 2 ^ lo % 2 ^ n)) 8)
    if !pteV pte then none
    else if pteSize pte = 15 then
      if r.isEmpty || pteDevice pte ≠ 0x7FF || pteField pte 11 1 ≠ 0 || !populated (pteFrame pte) then none
      else State.walkGo s va (pteFrame pte) r
    else if leaf = some (pteSize pte) then
      if pteFrame pte % 2 ^ lo ≠ 0 then none
      else if s.isLocal pte && !populated (pteFrame pte) then none
      else some (lo, pte)
    else none

/-- Walks the partition's table (R274): log2 of the page size and the leaf PTE, none for V = 0. -/
def State.walk (s : State) (part va : Nat) : Option (Nat × W64) :=
  s.walkGo va ((s.part part).ptbase.toNat / 65536 * 65536)
    [(48, 9, none), (39, 9, none), (30, 9, some 2), (21, 9, some 1), (16, 5, some 0)]

/-- Addresses of the page-table entries that a walk reads (R274). -/
def State.walkReads (s : State) (va table : Nat) : List (Nat × Nat) → List Nat
  | [] => []
  | (lo, n) :: r =>
    let a := table + 8 * (va / 2 ^ lo % 2 ^ n)
    let pte := BitVec.ofNat 64 (s.mem.get a 8)
    a :: (if pteV pte && decide (pteSize pte = 15) then State.walkReads s va (pteFrame pte) r else [])

/-- The page-table entries that a walk of a partition's table reads (R274). -/
def State.walkEntries (s : State) (part va : Nat) : List Nat :=
  s.walkReads va ((s.part part).ptbase.toNat / 65536 * 65536) [(48, 9), (39, 9), (30, 9), (21, 9), (16, 5)]

/-- Whether one of them lies in a granule that is being zeroed (R421). -/
def State.walkBarred (s : State) (part va : Nat) : Bool := (s.walkEntries part va).any fun a => inDram a && s.zeroing.contains (a / 65536)

/-- Whether a virtual address is canonical in 57 bits (R220). -/
def canonical (va : W64) : Bool := va.toNat / 2 ^ 56 = 0 || va.toNat / 2 ^ 56 = 255

/-- The TLB entry that translates a virtual address for a core (R276). -/
def State.tlbHit (s : State) (core part va : Nat) : Option Tlb :=
  let hit := fun (e : Tlb) => decide (e.part = part) && decide (va / 2 ^ e.size = e.base / 2 ^ e.size)
  ((s.tlb1.atD (clusterOf core) []).find? hit).orElse fun _ => (s.tlb2.atD (sectorOf core) []).find? hit

/-- Set of an entry in the 8-way L2 TLB of 2048 sets: its page number modulo 2048 (R276; DESIGN CHOICE, log 71). -/
def Tlb.set (e : Tlb) : Nat := e.base / 2 ^ e.size % 2048

/-- Adds an entry to a TLB in which at most `n` entries may satisfy `same`; the oldest of them leaves a full one. -/
def tlbAdd (n : Nat) (same : Tlb → Bool) (e : Tlb) (l : List Tlb) : List Tlb :=
  let l := l.filter fun x => !(x.part = e.part && x.base = e.base)
  (if n ≤ (l.filter same).length then (match l.find? same with | some x => l.erase x | none => l) else l) ++ [e]

/-- Adds a translation to both TLBs of a core: the L1's is fully associative, the L2's has 8 ways (R276). -/
def State.tlbFill (s : State) (core : Nat) (e : Tlb) : State :=
  { s with
    tlb1 := s.tlb1.upd (clusterOf core) [] (tlbAdd 256 (fun _ => true) e)
    tlb2 := s.tlb2.upd (sectorOf core) [] (tlbAdd 8 (fun x => decide (x.set = e.set)) e) }

/-- Access kinds that R220 and R228 tell apart. -/
inductive Acc where
  /-- `homeLoad`: a load that no leased line may serve -/
  | load | homeLoad | store | atomic | ldc | cellStore | fetch
deriving DecidableEq, Repr

def Acc.writes : Acc → Bool
  | .store | .atomic | .cellStore => true
  | _ => false

/-- Where a checked global access goes: physical address, other device or multicast group, PTE. -/
structure Target where
  pa : Nat
  dev : Option Nat
  pte : W64
deriving DecidableEq, Repr

/-- Outcome of the checks of R220. -/
inductive Chk where
  | ok (t : Target)
  | miss
  | bad (cause reason : Nat)
deriving DecidableEq, Repr

/-- Whether a load may read a leased line of the L1 of `core` although its shared-store storage has been converted back
(R291). -/
def State.leftOver (s : State) (core : Nat) (acc : Acc) (pa : Nat) : Bool :=
  decide (acc = .load) && inWindow pa && s.l1.any fun x => decide (x.1 = clusterOf core) &&
    x.2.any fun l => decide (l.la = pa / 128) && decide (s.clock < l.exp)

/-- Checks 2 to 4 of R220 on a translated address of an agent on `core` (R220, R221, R228, R393). -/
def State.checkPte (s : State) (core : Nat) (acc : Acc) (va : Nat) (size : Nat) (pte : W64) : Chk :=
  let pa := pteFrame pte + va % 2 ^ size
  let d := pteDevice pte
  let mcast := decide (0x500 ≤ d) && decide (d ≤ 0x53F)
  let loc := s.isLocal pte
  if !loc && !mcast && decide (1057 < d) then .bad 0x10 2
  else if loc && !s.paOk pa && !s.leftOver core acc pa then .bad 0x10 0
  else if !pteU pte then .bad 0x11 1
  else if acc.writes && !pteW pte then .bad 0x11 0
  else if acc = .atomic && loc && inHost pa then .bad 0x11 3
  else if acc = .fetch && !pteX pte then .bad 0x11 7
  else if (acc = .ldc || acc = .cellStore) && !pteCell pte then .bad 0x16 1
  else if (acc = .store || acc = .atomic) && pteCell pte then .bad 0x11 2
  else if mcast && acc ≠ .store && acc ≠ .cellStore then .bad 0x11 6
  else .ok { pa := pa, dev := if loc then none else some d, pte := pte }

/-- Whether an agent still waits to repeat an access: a fibre whose coach stalls, an access processor that runs, an engine's
operation that goes on. -/
def State.stillWaits (s : State) : Party → Bool
  | .agent (.fib b n) => s.pipes.any fun x => decide (x.2.block = b) && x.2.stalled && x.2.members.contains n
  | .agent (.ap c) => (s.core c).apOwner.isSome
  | .engine k op =>
    (decide (op % 4 = 1) && ((s.carriages.at? (op / 4)).any fun c => decide (c.state = .loading) && c.loadFault.isNone)) ||
      (decide (op % 4 = 2) && (((s.core (s.coreOf k)).tables.at? (op / 4)).any fun t =>
        [t.bank0, t.bank1].any fun b => decide (b.state = .loading) && b.fault.isNone)) ||
      s.cores.any fun c => c.2.trolley.any fun o => decide (o.fibre = k ∧ 4 * o.id = op) && o.fault.isNone && !o.aborted
  | .reducer n => (s.stack n).rdx.head?.any fun r => r.fault.isNone
  | _ => false

/-- Whether agents whose accesses to a page were issued before have still to repeat them after its walk (R276). -/
def State.replayWaits (s : State) (m : Miss) (p : Party) : Bool :=
  m.filled && m.waiters.contains p && (m.waiters.takeWhile (· ≠ p)).any s.stillWaits

/-- The checks of R220 on a global address through the TLBs, for an agent of partition `part` on `core`: a fibre, an access
processor, or an engine's operation, whose pages go through the same miss queue (R276, R308, R384). -/
def State.checkFor (s : State) (core part : Nat) (p : Party) (acc : Acc) (va : W64) : Chk :=
  if !canonical va then .bad 0x10 1
  else
    let m := s.missQ.find? fun m => decide (m.sector = sectorOf core ∧ m.part = part ∧ m.page = va.toNat / 65536)
    match s.tlbHit core part va.toNat with
    | some e => if m.any fun m => s.replayWaits m p then .miss else s.checkPte core acc va.toNat e.size e.pte
    | none => match (m.filter fun m => m.waiters.contains p).bind Miss.result with
      | some r => .bad 0x10 r
      | none => .miss

def State.checkGlobal (s : State) (k : FKey) (acc : Acc) (va : W64) : Chk := s.checkFor (s.coreOf k) (s.partOf k) (.agent k) acc va

/-- As `checkFor`, for a walk that no core makes: the page is walked at once (R419). -/
def State.checkWalk (s : State) (core part : Nat) (acc : Acc) (va : W64) : Chk :=
  if !canonical va then .bad 0x10 1
  else match s.tlbHit core part va.toNat with
    | some e => s.checkPte core acc va.toNat e.size e.pte
    | none => match s.walk part va.toNat with
      | some (size, pte) => s.checkPte core acc va.toNat size pte
      | none => .bad 0x10 0

/-- Whether a fault of R220 is a translation fault, which parks or continues (R255). -/
def isTranslationFault (cause reason : Nat) : Bool :=
  decide (cause = 0x10) || (decide (cause = 0x11) && decide (reason ∈ [0, 1, 3, 7]))

/-- The verdict of a failed check of R220 (R220, R221, R255). -/
def State.faultVerdict (s : State) (k : FKey) (i : Instr) (va : W64) (cause reason : Nat) : Verdict :=
  let t := s.trapOf k i cause va reason
  if isTranslationFault cause reason then .page { trap := t, page := va.toNat / 65536 } else .trap t

/-! ### Performing at the home (R111, R281, R325) -/

/-- The set of a line in its slice (R2; DESIGN CHOICE, log 72). -/
def setOf (la : Nat) : Nat := la % 8192

/-- EXP of a line at a home. A line of DRAM for which its slice keeps none starts with HZ of its set; a controller, the shared store
and host memory have no sets from which lines are evicted (R275, R281). -/
def State.expOf (s : State) (home la : Nat) : Nat :=
  (s.exps.at? (home, la)).getD (if home < 192 ∧ inDram (la * 128) then s.hz.atD (home, setOf la) 0 else 0)

/-- A line comes to its home: its EXP starts with the HZ that stands now (R281). -/
def State.startExp (s : State) (home la : Nat) : State :=
  if (s.exps.at? (home, la)).isSome then s else { s with exps := s.exps.put (home, la) (s.expOf home la) }

/-- CLOCK until which leases keep a line's writes at a home waiting: leases of this device to EXP, of other devices to
EXP + 200 ns (R275, R281, R405). -/
def State.leaseEnd (s : State) (home pa : Nat) : Nat :=
  max (s.expOf home (pa / 128)) ((s.remoteExps.at? (home, pa / 128)).elim 0 (· + 200))

/-- Whether a write to the line of `pa` can be performed now at its home: its leases have expired and its granule is not being
zeroed (R281, R421). -/
def State.writeOpen (s : State) (home pa : Nat) : Bool :=
  decide (s.leaseEnd home pa ≤ s.clock) && !(inDram pa && s.zeroing.contains (pa / 65536))

/-- A read lease on a line to CLOCK `exp` (R281). -/
def State.grantLease (s : State) (home la exp : Nat) : State := { s with exps := s.exps.put (home, la) (max (s.expOf home la) exp) }

/-- EXP of a line that leaves its slice folds into HZ of its set (R281, R289). -/
def State.foldLine (s : State) (home la : Nat) : State :=
  match s.exps.at? (home, la) with
  | some e => { s with exps := s.exps.del (home, la), hz := s.hz.upd (home, setOf la) 0 (max e) }
  | none => s

/-! ### What slices hold (R279, R285, R288) -/

/-- Ways of a slice that hold cache lines: neither shared store, nor in conversion, nor undo log, nor shadow storage
(R288, R289). -/
def State.cacheWays (s : State) (n : Nat) : List Nat :=
  let x := s.slice n
  let shared := x.groups + (match x.targets.head? with | some (t, _) => if x.groups < t then 1 else 0 | none => 0)
  let holds := fun (p : Partition) => p.cfg.toNat.testBit (n / 16)
  let lowest := fun (p : Partition) => decide ((List.range 12).find? (fun i => p.cfg.toNat.testBit i) = some (n / 16))
  let undo := s.partitions.any fun p => p.2.cfg.toNat.testBit 61 && lowest p.2
  let shadow := s.partitions.any fun p => p.2.cfg.toNat.testBit 62 && holds p.2
  (List.range 24).filter fun w => if w < 16 then decide (4 * shared ≤ w) else decide (w = 16) || (if w ≤ 20 then !undo else !shadow)

/-- Whether a slice holds a line. -/
def State.holdsLine (s : State) (n la : Nat) : Bool := (s.slice n).lines.any fun l => decide (l.la = la)

/-- A slice takes a line, or touches one it holds: most recently used, or least recently used for streaming, whether it is taken
or held already (R224; DESIGN CHOICE, log 83); the least recently used line of a full set leaves, and a line taken by its home
starts with HZ of its set (R281, R285, R288). -/
def State.allocate (s : State) (n la : Nat) (strm : Bool) (copy : Option Line) : State :=
  let x := s.slice n
  let rest := x.lines.filter fun l => l.la ≠ la
  let put := fun (s : State) (ls : List SLine) (w : Nat) =>
    let l : SLine := { la := la, way := w, copy := copy }
    (if copy.isNone then s.startExp n la else s).updSlice n fun y => { y with lines := if strm then l :: ls else ls ++ [l] }
  match x.lines.find? fun l => l.la = la with
  | some l => put s rest l.way
  | none =>
    let ways := s.cacheWays n
    let same := rest.filter fun l => setOf l.la = setOf la
    match ways.find? fun w => !(same.any fun l => decide (l.way = w)) with
    | some w => put s rest w
    | none => match same.find? fun l => l.way ∈ ways with
      | some v => put (s.foldLine n v.la) (rest.filter (· ≠ v)) v.way
      | none => s

/-- Whether some byte of a range of memory is poisoned (R293, R378). -/
def State.memPoisoned (s : State) (pa n : Nat) : Bool :=
  (List.range n).any fun i =>
    if inWindow pa then s.poisonWords.contains ((pa + i) / 8) else s.poisonLines.contains ((pa + i) / 128)

/-- The first poisoned byte of a range of memory, from its start (R222, R254). -/
def State.poisonOff (s : State) (pa n : Nat) : Option Nat := (List.range n).find? fun i => s.memPoisoned (pa + i) 1

/-- Marks carriages whose hull holds a line: READY and EVICTED ones become STALE, a load in flight will, and a SAVED one will when
it comes back to its planes (R323, R325; DEDUCED, log 92). -/
def markCarriage (la : Nat) (c : Carriage) : Carriage :=
  if c.tracked && c.hulls.any fun (_, lo, hi) => decide (lo ≤ la ∧ la ≤ hi) then
    match c.state with
    | .ready | .evicted => { c with state := .stale }
    | .loading => { c with loadDirty := true }
    | .saved => { c with staled := true }
    | .stale => c
  else c

/-- The line numbers of a range of bytes. -/
def linesOf (pa n : Nat) : List Nat := if n = 0 then [] else (List.range ((pa + n - 1) / 128 - pa / 128 + 1)).map (pa / 128 + ·)

/-- Marks the carriages that refer to a line of a write of `n` bytes (R323, R325). -/
def State.markCarriages (s : State) (pa n : Nat) : State :=
  if inDram pa && !s.carriages.isEmpty then
    { s with carriages := s.carriages.map fun (x, c) => (x, (linesOf pa n).foldl (fun c la => markCarriage la c) c) } else s

/-- A launch with ROLLBACK does something that makes it non-recoverable; its queue's status records each such event, and of its
log's overflow the first write that finds no room (R264). -/
def State.nonRecoverable (s : State) (lid : Nat) (why : NonRec) : State :=
  match s.launch? lid with
  | some l =>
    if bits (field l.record 0x28 4) 1 1 = 1 && !(decide (why = .logFull) && (s.queues.atD (queueKey l.part l.queue) {}).lost.contains (lid, why)) then
      { s.updLaunch lid (fun l => { l with nonRecoverable := true }) with
        queues := s.queues.upd (queueKey l.part l.queue) {} fun q => { q with lost := q.lost ++ [(lid, why)] } }
    else s
  | none => s

/-- Records a line's old contents in the undo log of a rollback-capable launch, at its first write (R264). -/
def State.logUndo (s : State) (lid : Option Nat) (pa : Nat) : State :=
  match lid with
  | none => s
  | some l => match s.launch? l with
    | none => s
    | some x =>
      let la := pa / 128
      if bits (field x.record 0x28 4) 1 1 = 0 ∨ x.undo.any (·.1 = la) then s
      else if 2 ^ 19 ≤ ((s.launches.filter fun y => y.2.part = x.part).map fun y => y.2.undo.length).sum then s.nonRecoverable l .logFull
      else s.updLaunch l fun x => { x with undo := (la, s.mem.bytes (la * 128) 128) :: x.undo }

/-- Performs a write at its home: carriages are marked first, the undo log is fed, a write of a whole poisoned unit
clears its mark (R264, R278, R293, R325). `lid` is the launch whose undo log takes it, `w` who performs it. -/
def State.homeWrite (s : State) (lid : Option Nat) (w : Writer) (pa : Nat) (bs : List Byte) : State :=
  let s := ((linesOf pa bs.length).foldl (fun s la => s.logUndo lid (la * 128)) (s.markCarriages pa bs.length)).noteWrite w false pa (s.mem.bytes pa bs.length)
  { s with
    mem := s.mem.writeBytes pa bs
    poisonLines := if bs.length < 128 then s.poisonLines
      else s.poisonLines.filter fun la => !(decide (pa ≤ la * 128) && decide (la * 128 + 128 ≤ pa + bs.length))
    poisonWords :=
      let c := coveredWords pa bs.length
      if inWindow pa then s.poisonWords.filter fun w => !(c.contains w) else s.poisonWords }

/-- The launch whose undo log takes a write through a page: none for a page with the exempt bit (R264, R273). -/
def undoOf (lid : Nat) (pte : W64) : Option Nat := if pteField pte 10 10 = 1 then none else some lid

/-! ### L1s and copies (R279, R280, R285) -/

/-- A live leased line of a list of lines. -/
def liveLine (clock : Nat) (ls : List Line) (la : Nat) : Option Line :=
  ls.find? fun l => l.la = la && decide (clock < l.exp)

def State.l1Line (s : State) (cluster la : Nat) : Option Line := liveLine s.clock (s.l1.atD cluster []) la

/-- Drops a cluster's copy of a line (R279). -/
def State.l1Drop (s : State) (cluster la : Nat) : State :=
  { s with l1 := s.l1.upd cluster [] fun ls => ls.filter (·.la ≠ la) }

/-- Drops every leased copy of a cluster's L1 (R111, R238). -/
def State.l1Clear (s : State) (cluster : Nat) : State := { s with l1 := s.l1.put cluster [] }

/-- Inserts a line at MRU, or at LRU for streaming; a full set of 8 ways loses its LRU line (R224, R279). -/
def State.l1Insert (s : State) (cluster : Nat) (strm : Bool) (l : Line) : State :=
  { s with l1 := s.l1.upd cluster [] fun ls =>
      let ls := ls.filter (·.la ≠ l.la)
      let same := ls.filter fun x => x.la % 512 = l.la % 512
      let ls := if 8 ≤ same.length then (match same.head? with | some v => ls.erase v | none => ls) else ls
      if strm then l :: ls else ls ++ [l] }

/-- Whether a request writes. -/
def What.writes : What → Bool
  | .store _ _ | .cell _ _ _ | .atom _ _ _ _ | .sig _ _ => true
  | _ => false

/-- Whether a request gives a value back. -/
def What.returns : What → Bool
  | .load _ | .lds _ | .ldc | .wlease _ _ | .line | .sfu _ | .sig _ _ => true
  | .atom _ use _ _ => decide (use ≠ .com)
  | _ => false

/-- Whether a request waits at its home or on its way there (R281). -/
def Req.waiting (r : Req) : Bool :=
  match r.stage with
  | .inFlight | .queued | .spilled => true
  | _ => false

/-- Line number under which L1s and copies hold the line of a request; lines of another device are kept apart. -/
def Req.la (r : Req) : Nat := (r.dev.elim 0 fun d => (d + 1) * 2 ^ 37) + r.pa / 128

/-- Whether a request is a write of a fibre or access processor of a cluster that its home has not performed. -/
def Req.pendingWrite (r : Req) (cluster : Nat) : Bool :=
  r.what.writes && decide (clusterOf r.core = cluster) &&
    (match r.stage with | .served _ _ | .zeroing _ _ => false | _ => true) &&
    (match r.org with | .fibre (.fib _ _) | .fibre (.ap _) => true | _ => false)

/-- Whether a line stands in a cluster's write-pending list (R279). -/
def State.writePending (s : State) (cluster la : Nat) : Bool := s.reqs.any fun r => r.pendingWrite cluster && decide (r.la = la)

/-- Lines in a cluster's write-pending list. -/
def State.writePendingCount (s : State) (cluster : Nat) : Nat :=
  (dedup ((s.reqs.filter fun r => r.pendingWrite cluster).map Req.la)).length

/-- Lease duration in ns of a lease class (R266). -/
def leaseNs : Nat → Nat
  | 0 => 0
  | 1 => 128
  | 2 => 2000
  | _ => 32000

/-- Lease class of an access: the page's, raised by keep to at most 3; a host page is never raised, and one above class 1 takes
no lease (R224, R279, R282). -/
def accessClass (pte : W64) (pa : Nat) (ch : Hint) : Nat :=
  if inHost pa then (if pteClass pte = 1 then 1 else 0)
  else if ch = .keep then min 3 (pteClass pte + 1) else pteClass pte

/-! ### Requests -/

/-- Bytes an atomic covers (R230). -/
def atomBytes (op : Nat) : Nat := if 0x2C ≤ op ∧ op ≤ 0x2E then 8 else 4

def What.bytes : What → Nat
  | .load w | .lds w => w.bytes
  | .ldc | .cell _ _ _ => 16
  | .store n _ => n
  | .atom op _ _ _ => atomBytes op
  | .wlease _ _ | .sig _ _ => 8
  | .sfu _ => 4
  | .line => 128
  | .wdrop => 0
  | .back _ _ => 128
  | .visit => 128

/-- Loads of activation tables in flight on a core: the fibre whose reads they are, and serial (R208). -/
def Core.tableLoads (x : Core) : List (FKey × Nat) :=
  x.tables.flatMap fun t => [t.2.bank0, t.2.bank1].filterMap fun b => if b.state = .loading then b.fibre.map fun k => (k, b.id) else none

/-- Serials of everything not yet done that a release can wait for. -/
def State.pendingIds (s : State) : List Nat :=
  s.reqs.map Req.id ++ s.cores.flatMap fun c => c.2.mxOps.map MxOp.id ++ c.2.tableLoads.map (·.2)

/-- Requests of a fibre. -/
def State.ownReqs (s : State) (k : FKey) : List Req := s.reqs.filter fun r => r.org = .fibre k

/-- Whether a fibre issued a matrix operation: for MMA.R each member whose row it holds (R118, R336). -/
def MxOp.by_ (o : MxOp) (k : FKey) : Bool :=
  decide (o.fibre = k) || (match o.kind, o.fibre, k with
    | .mmaR _ _ rows _ _, .fib b n, .fib b' n' => decide (b = b' ∧ n / 32 = n' / 32) && rows.any fun r => decide (r.1 = n' % 32)
    | _, _, _ => false)

/-- Loads of tables that a fibre has issued. -/
def State.ownTables (s : State) (k : FKey) : List Nat := ((s.core (s.coreOf k)).tableLoads.filter fun x => x.1 = k).map (·.2)

/-- Everything a fibre has issued that is not yet performed: requests, matrix operations, loads of tables (R104, R118, R208). -/
def State.outstanding (s : State) (k : FKey) : List Nat :=
  (s.ownReqs k).map Req.id ++ ((s.core (s.coreOf k)).mxOps.filter fun o => o.by_ k).map MxOp.id ++ s.ownTables k

/-- Whether a fibre has an acquire outstanding: no later access of it is performed before (R104). -/
def State.acqPending (s : State) (k : FKey) : Bool :=
  (s.ownReqs k).any fun r => decide (r.ord = .acq ∨ r.ord = .ar)

/-- Adds a request under the next serial. -/
def State.addReq (s : State) (r : Req) : State :=
  { s with reqs := s.reqs ++ [{ r with id := s.nextReq, since := s.clock }], nextReq := s.nextReq + 1 }

def State.setReq (s : State) (id : Nat) (f : Req → Req) : State :=
  { s with reqs := s.reqs.map fun r => if r.id = id then f r else r }

/-- Takes a completed request away, and with it the cell stores discarded in its favour (R127). -/
def State.dropReq (s : State) (id : Nat) : State :=
  { s with reqs := s.reqs.filter fun r => r.id ≠ id && r.stage ≠ .discarded id }

/-- Requests of a slice's queue: held from acceptance until the response leaves (R286). -/
def State.occupancy (s : State) (n : Nat) : Nat :=
  (s.reqs.filter fun r => decide (r.slice = n) && r.dev.isNone && (match r.stage with | .queued | .served _ _ => true | _ => false)).length +
    ((s.slice n).busy.filter fun t => decide (s.clock < t)).length

/-- Whether a request is at another device, or on its way to it (R399). -/
def Req.away (r : Req) : Bool := r.dev.isSome && (match r.stage with | .sent | .remote => true | _ => false)

/-- The fabric delivery bound of a die in nanoseconds: 5 * E2ETO + 32.4 us (R399). -/
def Die.dlv (d : Die) : Nat := 5000 * d.e2eto + 32400

/-- Whether every request and operation a request waits for is done (DEDUCED, log 2). -/
def State.depsDone (s : State) (deps : List Nat) : Bool := deps.all fun d => !(s.pendingIds.contains d)

/-- Whether two requests touch a common byte. -/
def Req.overlaps (r x : Req) : Bool :=
  decide (x.dev = r.dev) && decide (x.pa < r.pa + r.what.bytes) && decide (r.pa < x.pa + x.what.bytes)

/-- Counts that a qnt atomic takes from a quantum: AINC, and AADD of 0 to 64 (R110). -/
def What.quantum : What → Option Nat
  | .atom 0x2B .qnt _ _ => some 1
  | .atom 0x20 .qnt d _ => if d.toNat % 2 ^ 32 ≤ 64 then some (d.toNat % 2 ^ 32) else none
  | _ => none

/-- Whether an agent's accesses to one byte may be performed out of program order: unp atomics, and qnt atomics that its unit
serves from a quantum; an AADD.qnt of more than 64 is served as under nor (R99, R110). -/
def What.unordered : What → What → Bool
  | .atom _ .unp _ _, .atom _ .unp _ _ => true
  | x, y => x.quantum.isSome && y.quantum.isSome

/-- Whether two requests are atomics or cell stores of one word of a coach: they were issued at one time (R232). -/
def Req.fellow (r x : Req) : Bool :=
  decide (x.core = r.core ∧ x.gang.1 = r.gang.1 ∧ x.word = r.word ∧ x.since = r.since) &&
    (match x.org, r.org with | .fibre (.fib _ _), .fibre (.fib _ _) => true | _, _ => false) &&
    (match x.what with | .atom _ _ _ _ | .cell _ _ _ => true | _ => false)

/-- Whether an earlier request is still on its way that this one follows to the home: one of its agent, or of another member's part
in its word, to a common byte, and for a read the writes of its cluster to the line (R99, R110, R232, R279). -/
def State.orderHeld (s : State) (r : Req) : Bool :=
  s.reqs.any fun x => decide (x.id < r.id) && decide (x.stage = .inFlight) &&
    (((decide (x.org = r.org) && !(x.what.unordered r.what) || r.fellow x) && r.overlaps x) ||
      (!r.what.writes && decide (x.la = r.la) && x.pendingWrite (clusterOf r.core)))

/-- Who performs a request's write: its agent, and what the write is in the orders of R103 (R95, R110). A cell is one atomic
unit (R100). -/
def Req.writer (r : Req) : Writer where
  who := match r.org with | .fibre k => .agent k | .remote d _ _ _ _ => .device d | .host | .unit => .host
  mates := r.mates.map .agent
  rmw := match r.what with | .atom _ use _ _ => decide (use = .plain ∨ use = .spc) | _ => false
  loose := match r.what with | .atom _ use _ _ => decide (use ≠ .plain ∧ use ≠ .spc) | _ => false
  rel := match r.org with
    | .host => some .dev
    | _ => if r.ord = .rel ∨ r.ord = .ar then some r.sc else none
  unit := match r.what with | .cell _ _ _ => 16 | _ => 8
  req := some r.id

/-- Its scope, if a request is an acquire. -/
def Req.acq (r : Req) : Option Scope := if r.ord = .acq ∨ r.ord = .ar then some r.sc else none

/-- How the agent of a request sees memory. A fibre or access processor may be served an older write for the lease duration
of the line's class (R102, R266), from a leased line one from before that line was read; the newest write is what every other
requester finds, an access that takes no lease, and one that the bank of a shared-store line serves (R113). -/
def State.viewOf (s : State) (r : Req) (line : Option Line) : View :=
  let newest : View := { who := r.writer.who, since := s.clock + 1, lease := some 0 }
  match r.org with
  | .fibre _ =>
    if r.lcls = 0 || r.uc || (line.isNone && inWindow r.pa) then newest
    else { who := r.writer.who, since := r.since, lease := some (leaseNs r.lcls), upTo := line.map Line.mark }
  | _ => newest

/-- A request's read of this device's memory has found its value: what it acquires, and what its destination depends on (R104,
R106). -/
def State.readDone (s : State) (r : Req) (line : Option Line) : State :=
  let v := s.viewOf r line
  let s1 : State := match r.org with | .fibre k => s.taintDst k r.dst (s.readsFrom v r.pa r.what.bytes) | _ => s
  s1.noteRead v r.pa r.what.bytes r.acq

/-- Releases sent to other devices reach them once what they wait for is performed (R104, R121). -/
def State.reachAbroad (s : State) : State :=
  s.veil.abroad.foldl (fun s x =>
    if s.depsDone x.2.1 then { s with veil := s.veil.learn (.device x.1) x.2.2 }.joins (.device x.1) x.2.1 else s) s

/-- A release of an agent leaves for another device, with what happens before it: its own, or that of the release fences before it
(R103, R104). -/
def State.noteAbroad (s : State) (r : Req) : State :=
  let who := r.writer.who
  let fenced := (s.veil.fences.filter fun f => decide (f.1 = who ∧ f.2.1 = .fab)).flatMap (·.2.2)
  let own := if fabRelease r.ord r.sc then s.veil.knownBy who else []
  if !s.veil.on || !r.what.writes || (own ++ fenced).isEmpty && !fabRelease r.ord r.sc then s
  else { s with veil := { s.veil with abroad := (r.dev.getD 0, if fabRelease r.ord r.sc then r.deps else [], dedup (own ++ fenced)) :: s.veil.abroad } }

/-- An agent's release at fabric scope reaches another device, with all it knows (R411). -/
def State.releaseAbroad (s : State) (p : Party) (d : Nat) : State :=
  if !s.veil.on then s else { s with veil := s.veil.learn (.device d) (s.veil.knownBy p) }

/-- What an agent's read finds in another device's memory: it may be a value that any release of another device leads to (R104;
DESIGN CHOICE, log 66). -/
def State.farNews (s : State) (k : FKey) (d : Nat) : Msg × State :=
  let s := s.reachAbroad
  let m : Msg := { head := .device d, sc := .fab, scr := false, cells := [], carry := s.veil.knownAbroad, readers := [.agent k] }
  (m, if s.veil.on then { s with veil := { s.veil with msgs := m :: s.veil.msgs } } else s)

/-- A request's read of another device's memory has found its value there (R104). -/
def State.noteFar (s : State) (r : Req) : State :=
  match r.org with
  | .fibre k =>
    if !s.veil.on then s
    else
      let (m, s) := s.farNews k (r.dev.getD 0)
      let s1 := s.taintDst k r.dst [m]
      (match r.acq with | some sc => s1.acquire (.agent k) sc m | none => s1)
  | _ => s

/-- Reads what a read request asks for at its home: the value and whether it is poisoned. -/
def State.readFor (s : State) (r : Req) : Nat × Bool :=
  (ofBytes (s.viewed (s.viewOf r none) r.pa (s.mem.bytes r.pa r.what.bytes)), s.memPoisoned r.pa r.what.bytes)

/-- Whether an executor's release waits for the leases of a shared-store line: reads of it are given none (R388). -/
def State.leaseBarred (s : State) (la : Nat) : Bool :=
  s.bankDone.any (fun d => d.lines.contains la) ||
    s.banks.any fun b => [(b.2.e0, b.2.dirty0), (b.2.e1, b.2.dirty1)].any fun e =>
      match e.1 with
      | c :: _ => c.started && decide (c.w0.toNat / 2 ^ 24 = 8 ∧ c.w0.toNat % 16 ≤ 8) &&
          (e.2.contains la || decide ((windowBase + c.w1.toNat) / 128 = la))
      | [] => false

/-- A request that goes to its controller, or to host memory, and takes no place in a slice's queue (R286, R292). -/
def Req.bypasses (r : Req) : Bool := r.uc || decide (192 ≤ r.slice) || decide (r.org = .host)

/-- The home of a request's line: its slice, its controller where the page is uncached, one place for host memory (R275, R283,
R292). -/
def Req.home (r : Req) : Nat := if r.uc && inDram r.pa then controllerOf r.pa else homeSlice r.pa r.hsec

/-- A request's line at its home. -/
def Req.line (r : Req) : Nat × Nat := (r.home, r.pa / 128)

/-! ### Waiting at a line (R281, R341) -/

/-- Requests that a line's home has accepted and not performed, in the order of their arrival. -/
def State.queuedOn (s : State) (line : Nat × Nat) : List Req :=
  s.reqs.filter fun r => decide (r.line = line) && r.dev.isNone && (match r.stage with | .queued | .spilled => true | _ => false)

/-- Whether a request stands behind a write that is no request and waits at its line (R281, R341). -/
def State.heldBack (s : State) (r : Req) : Bool := s.holds.any fun h => decide (h.line = r.line) && !(h.behind.contains r.id)

/-- A write that is no request reaches lines: from now on no lease is granted on them, and what arrives later waits (R281,
R341). -/
def State.claim (s : State) (p : Party) (ls : List (Nat × Nat)) : State :=
  { ls.foldl (fun s l => s.startExp l.1 l.2) s with holds := s.holds ++ (ls.filter fun l => !(s.holds.any fun h => decide (h.line = l ∧ h.owner = p))).map fun l =>
      { line := l, owner := p, behind := (s.queuedOn l).map Req.id } }

/-- Its writes are performed, or will not be. -/
def State.unclaim (s : State) (p : Party) : State := { s with holds := s.holds.filter fun h => h.owner ≠ p }

/-- It is performed at one of its lines. -/
def State.unclaimLine (s : State) (p : Party) (l : Nat × Nat) : State :=
  { s with holds := s.holds.filter fun h => !(decide (h.owner = p) && decide (h.line = l)) }

/-- Whether a write holds its place at all of its lines. -/
def State.claimed (s : State) (p : Party) (ls : List (Nat × Nat)) : Bool := ls.all fun l => s.holds.any fun h => decide (h.line = l ∧ h.owner = p)

/-- Whether such a write can be performed at a line: all that arrived before it has been performed, and the line's leases have
run out (R281). -/
def State.lineOpen (s : State) (p : Party) (line : Nat × Nat) : Bool :=
  (match s.holds.find? fun h => h.line = line with
    | some h => decide (h.owner = p) && !((s.queuedOn line).any fun r => h.behind.contains r.id)
    | none => (s.queuedOn line).isEmpty) && s.writeOpen line.1 (line.2 * 128)

/-- Whether a write waits at a line: reads wait behind it, and no lease is granted (R281). -/
def State.writeWaits (s : State) (line : Nat × Nat) : Bool :=
  (s.queuedOn line).any (fun r => r.what.writes) || s.holds.any fun h => h.line = line

/-- Notes a slice's occupancy (R287). -/
def State.notePeak (s : State) (n : Nat) : State := s.updSlice n fun x => { x with peak := max x.peak (s.occupancy n) }

/-- An entry of the controller of a line is taken to CLOCK `t` (R292). -/
def State.useController (s : State) (pa t : Nat) : State := 
  s.updSlice (controllerOf pa) fun x => { x with busy := t :: x.busy.filter fun u => decide (s.clock < u) }

/-- Whether a request gives a value back to this device, and so keeps its entry until its response leaves (R286). -/
def Req.stays (r : Req) : Bool :=
  (match r.org with | .fibre _ | .host => true | .remote _ _ _ _ _ | .unit => false) && r.what.returns

/-- A slice performs a request to DRAM: one that misses holds its entry for at least 150 ns from its acceptance, and the line
is then in the slice (R224, R286; DEDUCED, log 73). -/
def State.visitSlice (s : State) (r : Req) : State :=
  if r.bypasses || !inDram r.pa then s
  else
    let la := r.pa / 128
    let hit := s.holdsLine r.slice la
    let hold := if hit then r.hold else r.hold + 150
    let s := (if hit then s else s.useController r.pa hold).allocate r.slice la r.strm none
    if !r.stays && s.clock < hold then (s.updSlice r.slice fun x => { x with busy := hold :: x.busy.filter fun t => decide (s.clock < t) }).setReq r.id fun x => { x with hold := hold }
    else s.setReq r.id fun x => { x with hold := hold }

/-- Whether the next request for one of these lines is held back: its home's spill queue is full (R286). -/
def State.visitBarred (s : State) (ls : List (Nat × Nat)) : Bool := ls.any fun l => decide (l.1 < 192) && s.spillFull l.1

/-- Who sends requests to a slice, as R316 distinguishes them: the agents of one block, by its serial + 1, or anyone else. -/
def Party.caller : Party → Nat
  | .agent (.fib b _) | .engine (.fib b _) _ => b + 1
  | _ => 0
def Req.caller (r : Req) : Nat :=
  match r.org with
  | .fibre (.fib _ _) | .fibre (.ap _) => r.gang.1 + 1
  | _ => 0

/-- A slice is sent a request (R316). -/
def State.called (s : State) (n who : Nat) : State := s.updSlice n fun x => { x with callers := x.callers.put who s.clock }

/-- An engine, a walk, the host or a prefetch, of whom `who` tells, reads or writes a line of DRAM: its request takes an entry of the
home's queue, or is appended to the spill queue where the queue is full or requests are spilled already (R286, R287; DESIGN CHOICE,
log 84). -/
def State.visitLine (s : State) (who home la : Nat) (strm : Bool := false) : State :=
  let s := if home < 192 then s.called home who else s
  if 192 ≤ home then (if 2000 ≤ home then s.useController (la * 128) s.clock else s)
  else if 32 ≤ s.occupancy home ∨ 0 < s.spilledCount home then
    (s.addReq { id := 0, org := .unit, core := 100000, part := 0, va := 0, pa := la * 128, hsec := home % 48 / 16, strm := strm, what := .visit, slice := home, stage := .spilled }).updSlice
      home fun x => { x with spills := x.spills + 1 }
  else
    let hit := s.holdsLine home la
    let hold := if hit then s.clock else s.clock + 150
    let s1 := s.updSlice home fun x => { x with busy := hold :: x.busy.filter fun t => decide (s.clock < t), peak := max x.peak (s.occupancy home + 1) }
    (if hit || !inDram (la * 128) then s1 else s1.useController (la * 128) hold).allocate home la strm none

/-- A response of a slice carries the cluster that last took a lease on the line, if its lease is live, and the predictor of the
requesting cluster records it (R280; the 1024 entries are a cluster's: DESIGN CHOICE, log 85). -/
def State.trainPredictor (s : State) (r : Req) : State :=
  let la := r.pa / 128
  match s.lastLease.at? (r.home, la) with
  | some (c, e) => if inDram r.pa ∧ !r.bypasses ∧ s.clock < e then { s with predictor := s.predictor.put (clusterOf r.core * 1024 + la % 1024) c } else s
  | none => s

/-- A read's response goes to an L1 under a lease: the line is inserted there; a remote sector gets a copy of a line of a page of
class 2 or 3 (R279-R282, R285). -/
def State.serveLease (s : State) (r : Req) : State :=
  let la := r.pa / 128
  let cl := clusterOf r.core
  let exp := s.clock + leaseNs r.lcls
  let line : Line := { la := la, data := s.mem.bytes (la * 128) 128, exp := exp, serial := s.nextReq, home := r.home, mark := s.veil.next }
  let s := s.grantLease r.home la exp
  let s := ({ s with lastLease := s.lastLease.put (r.home, la) (cl, exp) } : State).l1Insert cl r.strm line
  if inDram r.pa ∧ 2 ≤ r.pcls ∧ sectorOfSlice r.home ≠ sectorOf r.core then
    s.allocate (sectorOf r.core * 16 + nibbleXor la) la r.strm (some line)
  else s

/-- A fibre has read a line of the shared store, from its bank or from a line of serial `n` that was leased: no older leased line
answers it again (R99, R112). -/
def State.noteSeen (s : State) (r : Req) (n : Nat) : State :=
  match r.org with
  | .fibre k => if inWindow r.pa && r.dev.isNone then { s with seen := s.seen.upd (k, r.pa / 128) 0 (max n) } else s
  | _ => s

/-- Serves a read at its home: a lease is granted and the line inserted where the access takes one (R281, R282,
R285). -/
def State.serveRead (s : State) (r : Req) : State :=
  let (v, p) := s.readFor r
  let la := r.pa / 128
  let s := ((s.readDone r none).visitSlice r).setReq r.id fun r => { r with stage := .served v p }
  match r.org with
  | .remote _ _ _ _ _ =>
    if r.lcls = 0 ∨ r.uc ∨ s.leaseBarred la ∨ s.writeWaits r.line then s
    else { s with remoteExps := s.remoteExps.upd (r.home, la) 0 (max · (s.clock + leaseNs r.lcls)) }
  | .host | .unit => s
  | .fibre (.ctl _) => s
  | .fibre _ =>
    let s := s.trainPredictor r
    if r.lcls = 0 ∨ r.uc ∨ r.noAlloc ∨ p ∨ s.leaseBarred la ∨ s.writeWaits r.line then s.noteSeen r (s.nextReq + 1) else (s.serveLease r).noteSeen r s.nextReq

/-- Serves a read from a leased line: an L1's, a peer's or a copy's (R279, R280, R285). Memory of this device does not enter into a
line of another one (R266). -/
def State.serveLine (s : State) (r : Req) (l : Line) (insert : Bool) : State :=
  let bs := (l.data.drop (r.pa % 128)).take r.what.bytes
  let v := ofBytes (if r.dev.isSome then bs else s.viewed (s.viewOf r (some l)) r.pa bs)
  let s1 := if r.dev.isSome then s.noteFar r else s.readDone r (some l)
  let s2 := (s1.setReq r.id fun r => { r with stage := .served v false, slice := 1001 }).noteSeen r l.serial
  if insert then s2.l1Insert (clusterOf r.core) r.strm l else s2

/-- Whether an earlier read of a request's agent to a common byte has not found its value: a leased line that a later read found
could be older than what the earlier one returns (R99, R128). -/
def State.readAhead (s : State) (r : Req) : Bool :=
  s.reqs.any fun x => decide (x.org = r.org) && r.overlaps x && (match x.stage with | .served _ _ => false | _ => true)

/-- Whether a leased line is of the home that a read names (R275). -/
def Line.serves (l : Line) (r : Req) : Bool := r.dev.isSome || decide (l.home = r.home)

/-- A remote-sector copy that a slice of the reader's sector holds (R285). -/
def State.copyOf (s : State) (sector la : Nat) : Option Line :=
  liveLine s.clock ((s.slice (sector * 16 + nibbleXor la)).lines.filterMap SLine.copy) la

/-- The leased line that answers a new read before it reaches the home, and whether it is to be inserted in the
reader's L1 (R279, R280, R285, R405); none of another home (R275), none that is older than an INVL1 of the reader (R238) or than
what it has read since (R99). The predictor is looked up for a page of class 1 to 3, copies serve pages of class 2 and 3. -/
def State.leasedLine (s : State) (r : Req) : Option (Line × Bool) :=
  let la := r.la
  let cl := clusterOf r.core
  let fresh := match r.org with | .fibre k => max (s.fib k).fresh (s.seen.atD (k, la) 0) | _ => 0
  let line : Option (Line × Bool) :=
    match s.l1Line cl la with
    | some l => some (l, false)
    | none =>
      let peer := if r.dev.isSome ∨ !inDram r.pa ∨ r.pcls = 0 then none else (s.predictor.at? (cl * 1024 + la % 1024)).bind fun c =>
        if c / 16 = cl / 16 ∧ c ≠ cl then (s.l1Line c la).filter (·.serves r) else none
      match peer with
      | some l => some (l, true)
      | none =>
        if 2 ≤ r.pcls ∧ (r.dev.isSome ∨ (inDram r.pa ∧ sectorOfSlice r.home ≠ sectorOf r.core)) then
          (s.copyOf (sectorOf r.core) la).map fun l => (l, true)
        else none
  if r.lcls = 0 ∨ r.uc ∨ r.noAlloc ∨ s.writePending cl la ∨ s.readAhead r then none
  else line.filter fun l => l.1.serves r && decide (fresh ≤ l.1.serial)

/-- Issues a read: it is answered by a leased line or goes to its home (R279, R280, R285). -/
def State.startRead (s : State) (r : Req) : State :=
  let id := s.nextReq
  match s.leasedLine r with
  | some (l, ins) => (s.addReq r).serveLine { r with id := id, since := s.clock } l ins
  | none => s.addReq r

/-- Issues a write: the cluster's copy of the line goes, and the write goes to its home (R279). -/
def State.startWrite (s : State) (r : Req) : State := (s.l1Drop (clusterOf r.core) r.la).addReq r

/-- A request of a fibre for a checked target. -/
def State.mkReq (s : State) (k : FKey) (i : Instr) (va : W64) (t : Target) (ch : Hint) (what : What) (ord : Order) (sc : Scope)
    (dst : Dst) : Req :=
  { id := 0, org := .fibre k, core := (match k with | .ctl n => 200000 + n | _ => s.coreOf k), gang := s.gangOf k, lane := s.laneOf k, part := s.partOf k, va := va, pa := t.pa,
    dev := t.dev, lcls := accessClass t.pte t.pa ch, pcls := pteClass t.pte, hsec := pteHsec t.pte, uc := pteUc t.pte,
    noAlloc := decide (ch = .nol1), strm := decide (ch = .strm), what := what, ord := ord, sc := sc, dst := dst, word := i.word,
    undo := (match k with | .ctl _ => none | _ => undoOf (s.blockOf k).lid t.pte),
    deps := if ord = .rel ∨ ord = .ar then s.outstanding k else [],
    slice := if pteUc t.pte && inDram t.pa then controllerOf t.pa else homeSlice t.pa (pteHsec t.pte) }

/-- Physical registers, or the s register, that a destination slot names (R75, R80). -/
def State.dstOf (s : State) (k : FKey) (t : Slot) : Dst :=
  match t.reg with
  | .s n => .sreg (s.gangOf k).1 (s.gangOf k).2 n
  | .v _ => .regs (t.fields.map fun n => (s.fib k).wb.toNat + n)
  | _ => .none

/-- Writes a returned value into a destination that is still empty, 32 bits to a register; a discarded or cancelled
fill writes nothing (R80, R181, R222, R223, R263). -/
def State.fillDst (s : State) (k : FKey) (d : Dst) (v : Nat) (mark : Option Mark) : State :=
  match d with
  | .none => s
  | .queue _ _ _ _ => s
  | .regs rs => rs.zipIdx.foldl (fun s (n, i) =>
      s.updFib k fun f =>
        if (f.cell n).full then f
        else { f with regs := f.regs.put n { val := BitVec.ofNat 32 (v / 2 ^ (32 * i)), mark := mark } }) s
  | .sreg b g n =>
    let c := (s.gang (b, g)).s.atD n {}
    if c.full then s else s.updGang (b, g) fun x => { x with s := x.s.put n { val := BitVec.ofNat 64 v, mark := mark } }

end Sys2Proof.Machine
end

