-- ==== Sys2Proof/Machine/Operands.lean ====
section
/-!
DEFINITION. Machine/Operands.lean: the operand forms of register instructions, as what one lane writes, and the
integer results of 07 (R166-R173).
-/

namespace Sys2Proof.Machine

/-! ### Integer results (R167-R170); they wrap (R166) -/

def minS (a b : W32) : W32 := if a.slt b then a else b
def maxS (a b : W32) : W32 := if a.slt b then b else a
def minU (a b : W32) : W32 := if a.ult b then a else b
def maxU (a b : W32) : W32 := if a.ult b then b else a
/-- A count of 32 or more gives 0 (R168). -/
def shl32 (a b : W32) : W32 := if 32 ≤ b.toNat then 0 else a <<< b.toNat
def shr32 (a b : W32) : W32 := if 32 ≤ b.toNat then 0 else a >>> b.toNat
/-- A count of 32 or more gives the sign (R168). -/
def sar32 (a b : W32) : W32 := if 32 ≤ b.toNat then (if a.msb then 0xFFFFFFFF else 0) else a.sshiftRight b.toNat
def rol32 (a b : W32) : W32 := a.rotateLeft (b.toNat % 32)
/-- |a.s - b.s|, exact (R168). -/
def absd32 (a b : W32) : W32 := BitVec.ofNat 32 (a.toInt - b.toInt).natAbs
/-- pos and clipped len of BFE and BFI (R168). -/
def bfPos (b : W32) : Nat := bits b.toNat 4 0
def bfLen (b : W32) : Nat := min (bits b.toNat 13 8) (32 - bfPos b)
def bfe32 (a b : W32) : W32 := BitVec.ofNat 32 (a.toNat / 2 ^ bfPos b % 2 ^ bfLen b)
/-- d with bits [pos+len-1 : pos] replaced (R169). -/
def bfi32 (a b d : W32) : W32 :=
  let m : W32 := BitVec.ofNat 32 ((2 ^ bfLen b - 1) * 2 ^ bfPos b)
  (d &&& ~~~m) ||| ((a <<< bfPos b) &&& m)
def mulhS (a b : W32) : W32 := ((a.signExtend 64 * b.signExtend 64) >>> 32).setWidth 32
def mulhU (a b : W32) : W32 := ((a.setWidth 64 * b.setWidth 64) >>> 32).setWidth 32
/-- Leading zero bits; 32 for 0 (R169). -/
def clz32 (a : W32) : W32 := if a = 0 then 32 else BitVec.ofNat 32 (31 - Nat.log2 a.toNat)
def popc32 (a : W32) : W32 := BitVec.ofNat 32 ((List.range 32).filter fun i => a.getLsbD i).length
def brev32 (a : W32) : W32 := a.reverse
def shl64 (a : W64) (b : W32) : W64 := if 64 ≤ b.toNat then 0 else a <<< b.toNat
def shr64 (a : W64) (b : W32) : W64 := if 64 ≤ b.toNat then 0 else a >>> b.toNat
def madw64 (d : W64) (a b : W32) : W64 := d + a.setWidth 64 * b.setWidth 64
def madws64 (d : W64) (a b : W32) : W64 := d + a.signExtend 64 * b.signExtend 64

/-! ### Lanes -/

/-- D := f(a, b), 32 bits. -/
def lane2 (o : R3) (f : W32 → W32 → W32) (s : State) (k : FKey) : List Wr := [.reg o.d (f (s.a32 k o) (s.b32 k o))]

/-- D := f(a, b, d), 32 bits. -/
def lane3 (o : R3) (f : W32 → W32 → W32 → W32) (s : State) (k : FKey) : List Wr :=
  [.reg o.d (f (s.a32 k o) (s.b32 k o) (s.src32 k o.d))]

/-- D := f(a), 32 bits. -/
def lane1 (o : R2) (f : W32 → W32) (s : State) (k : FKey) : List Wr := [.reg o.d (f (s.src32 k o.a))]

/-- D := f(a, b), all 64 bits. -/
def laneW (o : R3) (f : W64 → W64 → W64) (s : State) (k : FKey) : List Wr := [.wide o.d (f (s.src64 k o.a) (s.src64 k o.b))]

/-- D := f(a, b), D and A of 64 bits, B of 32. -/
def laneWS (o : R3) (f : W64 → W32 → W64) (s : State) (k : FKey) : List Wr := [.wide o.d (f (s.src64 k o.a) (s.src32 k o.b))]

/-- D := f(d, a, b), D of 64 bits, A and B of 32. -/
def laneMad (o : R3) (f : W64 → W32 → W32 → W64) (s : State) (k : FKey) : List Wr :=
  [.wide o.d (f (s.src64 k o.d) (s.src32 k o.a) (s.src32 k o.b))]

/-- D := f(a, imm) with the immediate sign-extended (R171). -/
def laneI (o : RI) (f : W32 → W32 → W32) (s : State) (k : FKey) : List Wr := [.reg o.d (f (s.src32 k o.a) (o.imm.signExtend 32))]

/-- D := f(a, imm) with an unsigned shift immediate (R171). -/
def laneSh (o : RI) (f : W32 → W32 → W32) (s : State) (k : FKey) : List Wr := [.reg o.d (f (s.src32 k o.a) (o.imm.setWidth 32))]

/-- p[D] := f(a, b) (R174). -/
def laneP (o : PR) (f : W32 → W32 → Bool) (s : State) (k : FKey) : List Wr :=
  [.pred o.p (f (s.src32 k o.a) (s.src32 k o.b (if o.a = o.b then 1 else 0)))]

/-- p[D] := f(a, imm) (R172). -/
def lanePI (o : PI) (f : W32 → BitVec 9 → Bool) (s : State) (k : FKey) : List Wr := [.pred o.p (f (s.src32 k o.a) o.imm)]

/-- p[D] := f(p[A], p[B]) (R175). -/
def laneP3 (d a b : Pred) (f : Bool → Bool → Bool) (s : State) (k : FKey) : List Wr := [.pred d (f (s.pred k a) (s.pred k b))]

end Sys2Proof.Machine
end

