-- ==== Sys2Proof/Machine/Float.lean ====
section
/-!
DEFINITION. Machine/Float.lean: FADD-FMAX, FMISC, FCMP, CVT, CVT8, Q4 and SFU (R195-R211).
-/

namespace Sys2Proof.Machine

/-! ### Elements (R20, R196) -/

/-- Applies an element operation to both 16-bit halves (R20). -/
def halves (f : Nat → Nat → Nat → Nat) (a b c : W32) : W32 :=
  BitVec.ofNat 32 (f (bits a.toNat 15 0) (bits b.toNat 15 0) (bits c.toNat 15 0) +
    2 ^ 16 * f (bits a.toNat 31 16) (bits b.toNat 31 16) (bits c.toNat 31 16))

/-- The lane of an arithmetic word of R196, for an operation given per format on bit patterns x, y, c. -/
def laneF (o : F3) (op : Fmt → Nat → Nat → Nat → Nat) (s : State) (k : FKey) : List Wr :=
  match o.fmt with
  | .f32 => [.reg o.d (BitVec.ofNat 32 (op fp32 (s.src32 k o.a).toNat (s.src32 k o.b).toNat (s.src32 k o.d).toNat))]
  | .h2 => [.reg o.d (halves (op fp16) (s.src32 k o.a) (s.src32 k o.b) (s.src32 k o.d))]
  | .b2 => [.reg o.d (halves (op bf16) (s.src32 k o.a) (s.src32 k o.b) (s.src32 k o.d))]
  | .d => [.wide o.d (BitVec.ofNat 64 (op fp64 (s.src64 k o.a).toNat (s.src64 k o.b).toNat (s.src64 k o.d).toNat))]

def execFadd (o : F3) (s : State) : Out := compute (.fadd o) s (laneF o fun f x y _ => f.add x y)
def execFsub (o : F3) (s : State) : Out := compute (.fsub o) s (laneF o fun f x y _ => f.sub x y)
def execFmul (o : F3) (s : State) : Out := compute (.fmul o) s (laneF o fun f x y _ => f.mul x y)
def execFfma (o : F3) (s : State) : Out := compute (.ffma o) s (laneF o fun f x y c => f.fma x y c)
def execFmin (o : F3) (s : State) : Out := compute (.fmin o) s (laneF o fun f x y _ => f.min x y)
def execFmax (o : F3) (s : State) : Out := compute (.fmax o) s (laneF o fun f x y _ => f.max x y)

/-! ### FMISC (R198, R199) -/

/-- FRND keeps ±0 and ±infinity; a zero result has the sign of a (R198). -/
def frnd (r : Rnd) (a : W32) : W32 := BitVec.ofNat 32 (fp32.encode ((fp32.decode a.toNat).integral r))

def execFabs (o : R2) (s : State) : Out := compute (.fabs o) s (lane1 o (· &&& 0x7FFFFFFF))
def execFneg (o : R2) (s : State) : Out := compute (.fneg o) s (lane1 o (· ^^^ 0x80000000))
def execFclass (o : R2) (s : State) : Out := compute (.fclass o) s (lane1 o fun a => BitVec.ofNat 32 (fclass32 a.toNat))
def execFrndN (o : R2) (s : State) : Out := compute (.frndN o) s (lane1 o (frnd .near))
def execFrndZ (o : R2) (s : State) : Out := compute (.frndZ o) s (lane1 o (frnd .zero))
def execFrndD (o : R2) (s : State) : Out := compute (.frndD o) s (lane1 o (frnd .down))
def execFrndU (o : R2) (s : State) : Out := compute (.frndU o) s (lane1 o (frnd .up))
def execFscale (o : R3) (s : State) : Out := compute (.fscale o) s
  (lane2 o fun a b => BitVec.ofNat 32 (fp32.encode ((fp32.decode a.toNat).scale b.toInt)))

/-! ### FCMP (R200) -/

def execFcmpEq (o : PR) (s : State) : Out := compute (.fcmpEq o) s (laneP o fun a b => (fp32.decode a.toNat).eqv (fp32.decode b.toNat))
def execFcmpLt (o : PR) (s : State) : Out := compute (.fcmpLt o) s (laneP o fun a b => (fp32.decode a.toNat).lt (fp32.decode b.toNat))
def execFcmpLe (o : PR) (s : State) : Out := compute (.fcmpLe o) s (laneP o fun a b =>
  (fp32.decode a.toNat).lt (fp32.decode b.toNat) || (fp32.decode a.toNat).eqv (fp32.decode b.toNat))
def execFcmpUn (o : PR) (s : State) : Out := compute (.fcmpUn o) s (laneP o fun a b =>
  (fp32.decode a.toNat).isNan || (fp32.decode b.toNat).isNan)

/-! ### CVT (R201) -/

/-- FP32 to signed and to unsigned integers (R25). -/
def cvtToS (a : W32) : W32 := BitVec.ofInt 32 ((fp32.decode a.toNat).toRange (-2 ^ 31) (2 ^ 31 - 1))
def cvtToN (a : W32) : W32 := BitVec.ofInt 32 ((fp32.decode a.toNat).toRange 0 (2 ^ 32 - 1))

/-- Two FP32 values converted to a 16-bit format (R24, R201). -/
def pack2 (f : Fmt) (a b : W32) : W32 :=
  BitVec.ofNat 32 (fp32.convert f a.toNat + 2 ^ 16 * fp32.convert f b.toNat)

/-- An X destination from two FP32 conversions (R201, R202). -/
def unpack2 (d : Reg) (f : Fmt) (x y : Nat) : List Wr :=
  [.wide d (BitVec.ofNat 64 (f.convert fp32 x + 2 ^ 32 * f.convert fp32 y))]

def execCvtFS (o : R2) (s : State) : Out := compute (.cvtFS o) s (lane1 o fun a => BitVec.ofNat 32 (fp32.ofInt a.toInt))
def execCvtSF (o : R2) (s : State) : Out := compute (.cvtSF o) s (lane1 o cvtToS)
def execCvtFN (o : R2) (s : State) : Out := compute (.cvtFN o) s (lane1 o fun a => BitVec.ofNat 32 (fp32.ofInt a.toNat))
def execCvtNF (o : R2) (s : State) : Out := compute (.cvtNF o) s (lane1 o cvtToN)
def execPackH2 (o : R3) (s : State) : Out := compute (.packH2 o) s (lane2 o (pack2 fp16))
def execPackB2 (o : R3) (s : State) : Out := compute (.packB2 o) s (lane2 o (pack2 bf16))
def execUnpkH (o : R2) (s : State) : Out := compute (.unpkH o) s fun s k =>
  unpack2 o.d fp16 (bits (s.src32 k o.a).toNat 15 0) (bits (s.src32 k o.a).toNat 31 16)
def execUnpkB (o : R2) (s : State) : Out := compute (.unpkB o) s fun s k =>
  unpack2 o.d bf16 (bits (s.src32 k o.a).toNat 15 0) (bits (s.src32 k o.a).toNat 31 16)

/-! ### CVT8 (R202) -/

/-- The funnel of PACK: two bytes enter at the top (R202). -/
def funnel8 (cv : W32 → Nat) (a b d : W32) : W32 :=
  BitVec.ofNat 32 (d.toNat / 2 ^ 16 + cv a * 2 ^ 16 + cv b * 2 ^ 24)

/-- Saturation to a signed byte (R202). -/
def satI8 (a : W32) : Nat :=
  (BitVec.ofInt 8 (if a.toInt < -128 then -128 else if 127 < a.toInt then 127 else a.toInt)).toNat

/-- A byte sign-extended to 32 bits. -/
def sext8 (x : Nat) : Nat := ((BitVec.ofNat 8 x).signExtend 32).toNat

def execPackE4 (o : R3) (s : State) : Out := compute (.packE4 o) s (lane3 o (funnel8 fun a => fp32.convert e4m3 a.toNat))
def execPackE5 (o : R3) (s : State) : Out := compute (.packE5 o) s (lane3 o (funnel8 fun a => fp32.convert e5m2 a.toNat))
def execUnpkE4 (o : R2) (s : State) : Out := compute (.unpkE4 o) s fun s k =>
  unpack2 o.d e4m3 (bits (s.src32 k o.a).toNat 7 0) (bits (s.src32 k o.a).toNat 15 8)
def execUnpkE5 (o : R2) (s : State) : Out := compute (.unpkE5 o) s fun s k =>
  unpack2 o.d e5m2 (bits (s.src32 k o.a).toNat 7 0) (bits (s.src32 k o.a).toNat 15 8)
def execPackI8 (o : R3) (s : State) : Out := compute (.packI8 o) s (lane3 o (funnel8 satI8))
def execUnpkI8 (o : R2) (s : State) : Out := compute (.unpkI8 o) s fun s k =>
  [.wide o.d (BitVec.ofNat 64 (sext8 (bits (s.src32 k o.a).toNat 7 0) + 2 ^ 32 * sext8 (bits (s.src32 k o.a).toNat 15 8)))]

/-! ### Q4 (R203-R205) -/

/-- QSCALE: amax is |a|; a NaN counts as +0 (R203). -/
def qscale32 (a b : W32) : W32 :=
  BitVec.ofNat 32 (q4Scale (bits b.toNat 1 0) (match fp32.decode (a.toNat % 2 ^ 31) with
    | .nan => .fin false 0 0
    | v => v))
def qpack32 (a b d : W32) : W32 := BitVec.ofNat 32 (d.toNat / 2 ^ 4 + q4Pack (bits b.toNat 7 0) a.toNat * 2 ^ 28)
def qunpk32 (a b : W32) : W32 := BitVec.ofNat 32 (fp32.encode (q4Decode (bits b.toNat 7 0) (bits a.toNat 3 0)))

def execQscale (o : R3) (s : State) : Out := compute (.qscale o) s (lane2 o qscale32)
def execQpack (o : R3) (s : State) : Out := compute (.qpack o) s (lane3 o qpack32)
def execQunpk (o : R3) (s : State) : Out := compute (.qunpk o) s (lane2 o qunpk32)

/-! ### SFU (R206-R211) -/

/-- A long-latency result: D is empty until REGISTER_FILL writes the value computed at issue (R80, R195). -/
def State.longResult (s : State) (k : FKey) (i : Instr) (d : Reg) (v : W32) (bank : Option (Nat × Bool)) : State :=
  let t := wrSlot .v d
  match s.dstOf k t with
  | .regs rs =>
    let r : Req :=
      { id := 0, org := .fibre k, core := s.coreOf k, gang := s.gangOf k, lane := s.laneOf k, part := s.partOf k, va := 0, pa := 0
        what := .sfu bank, dst := .regs rs, word := i.word, stage := .served v.toNat false, slice := 1001 }
    (s.markEmpty k t).addReq r
  | _ => s

/-- A word of the special-function unit: every member's result is computed from its sources at issue. -/
def sfu (i : Instr) (d : Reg) (s : State) (check : State → FKey → Verdict) (f : State → FKey → W32)
    (bank : State → FKey → Option (Nat × Bool) := fun _ _ => none) : Out :=
  issue i s check fun s ks => (ks.map fun k => (k, f s k, bank s k)).foldl (fun s (k, v, b) => s.longResult k i d v b) s

def sfu1 (f : Nat → Nat) (o : R2) (s : State) (k : FKey) : W32 := BitVec.ofNat 32 (f (s.src32 k o.a).toNat)

def execRcp (o : R2) (s : State) : Out := sfu (.rcp o) o.d s noCheck (sfu1 fp32.rcp o)
def execRsq (o : R2) (s : State) : Out := sfu (.rsq o) o.d s noCheck (sfu1 fp32.rsq o)
def execSqrt (o : R2) (s : State) : Out := sfu (.sqrt o) o.d s noCheck (sfu1 fp32.sqrt o)
def execDiv (o : R3) (s : State) : Out := sfu (.div o) o.d s noCheck fun s k =>
  BitVec.ofNat 32 (fp32.div (s.src32 k o.a).toNat (s.src32 k o.b).toNat)

/-- Activation table `t` of a core, its active and its inactive bank (R210). -/
def State.table (s : State) (c t : Nat) : ActTable := (s.core c).tables.atD t {}
def ActTable.activeBank (x : ActTable) : TabBank := if x.active then x.bank1 else x.bank0
def ActTable.inactiveBank (x : ActTable) : TabBank := if x.active then x.bank0 else x.bank1
def ActTable.setInactive (x : ActTable) (b : TabBank) : ActTable := if x.active then { x with bank0 := b } else { x with bank1 := b }
def ActTable.setActive (x : ActTable) (b : TabBank) : ActTable := if x.active then { x with bank1 := b } else { x with bank0 := b }
def State.updTable (s : State) (c t : Nat) (f : ActTable → ActTable) : State :=
  s.updCore c fun x => { x with tables := x.tables.upd t {} f }

/-- The header of a table (R32). -/
def tableHeader (bs : List Byte) : ActHeader :=
  { sgn := field bs 2 1, ebits := field bs 3 1, mbits := field bs 4 1, ebase := field bs 8 2, xlo := field bs 0xC 4, xhi := field bs 0x10 4 }

/-- Segment i of a table (R32). -/
def tableSegment (bs : List Byte) (i : Nat) : ActSegment :=
  let o := 0x40 + 16 * i
  { c0 := field bs o 4, c1 := field bs (o + 4) 4, c2 := field bs (o + 8) 4, xs := field bs (o + 12) 4 }

/-- Whether a header is valid (R33). -/
def headerOk (bs : List Byte) : Bool :=
  let h := tableHeader bs
  decide (field bs 0 2 = 1) && decide (h.sgn ≤ 1) && decide (h.sgn + h.ebits + h.mbits = 8) && decide (h.ebase ≤ 254) &&
    !(fp32.decode h.xlo).isNan && !(fp32.decode h.xhi).isNan && !(fp32.decode h.xhi).lt (fp32.decode h.xlo) &&
    decide (field bs 5 3 = 0) && decide (field bs 0xA 2 = 0) && decide (field bs 0x18 40 = 0)

/-- ACT of a value on a bank: +0 in state ZERO, NaN for a NaN (R207, R210). -/
def actBank (b : TabBank) (a : W32) : W32 :=
  match b.state with
  | .ready => BitVec.ofNat 32 (actEval (tableHeader b.bytes) (tableSegment b.bytes) a.toNat)
  | _ => if (fp32.decode a.toNat).isNan then BitVec.ofNat 32 fp32.nanBits else 0

/-- ACT uses the bank that is active when it issues; during the reload of a restore it waits (R207, R211). -/
def execAct (o : R2) (t : BitVec 3) (s : State) : Out :=
  sfu (.act o t) o.d s
    (fun s k => if (s.table (s.coreOf k) t.toNat).activeBank.state = .loading then .stall else .go)
    (fun s k => actBank (s.table (s.coreOf k) t.toNat).activeBank (s.src32 k o.a))
    fun s k => some (t.toNat, (s.table (s.coreOf k) t.toNat).active)

/-- The line of another device that holds a physical address, as an agent has it: fetched for the word, or held under a
write lease (R407). -/
def State.farLine (s : State) (k : FKey) (d pa : Nat) : Option (Nat × List Byte) :=
  let held := (s.heldLeases.at? (d * 2 ^ 28 + pa / 65536)).bind fun h =>
    if s.clock + 200 < h.exp ∧ pa / 128 ∈ h.present then some (0, h.data.bytes (pa / 128 * 128) 128) else none
  held.orElse fun _ => (s.lineBuf.find? fun x => decide (x.1 = k ∧ x.2.1 = (d + 1) * 2 ^ 37 + pa / 128)).map fun x => x.2.2

/-- Reads bytes of another device line by line; a line not yet there is fetched, a refused one raises REMOTE_ELEM
(R222, R391). -/
def State.readFar (s : State) (k : FKey) (i : Instr) (va : W64) (d : Nat) : Nat → Nat → Nat → Except Verdict (List Byte)
  | 0, _, _ => .ok []
  | fuel + 1, pa, n =>
    if n = 0 then .ok []
    else
      let m := min n (128 - pa % 128)
      match s.farLine k d pa with
      | none =>
        let r : Req :=
          { id := 0, org := .fibre k, core := s.coreOf k, gang := s.gangOf k, lane := s.laneOf k, part := s.partOf k, va := va
            pa := pa / 128 * 128, dev := some d, what := .line, word := i.word }
        .error (.fetch r)
      | some (code, bs) =>
        if code ≠ 0 then .error (.trap (s.trapOf k i 0x14 va (code + 256 * s.laneOf k)))
        else match s.readFar k i va d fuel (pa + m) (n - m) with
          | .error v => .error v
          | .ok r => .ok ((bs.drop (pa % 128)).take m ++ r)

/-- How an agent's own relaxed read of a page's bytes sees memory (R102, R266). -/
def State.ownView (s : State) (k : FKey) (t : Target) : View :=
  { who := .agent k, since := s.clock, lease := some (if pteUc t.pte then 0 else leaseNs (accessClass t.pte t.pa .normal)) }

/-- Reads `n` bytes at a virtual address through the checks of R220, page by page: the bytes and the first poisoned address, or
the verdict of the first check that fails, at the first byte that fails it: a page may end in a hole (R190, R272). A granule being zeroed makes the read wait (R421), and
so do an own write to it that has not been performed (R99) and a region that another device holds; an ORPHANED region, and one
whose lease has run out here, raise LEASE_LOST (R406, R407). -/
def State.readVirt (s : State) (k : FKey) (i : Instr) (acc : Acc) : Nat → W64 → Nat → Except Verdict (List Byte × Option W64)
  | 0, _, _ => .ok ([], none)
  | fuel + 1, va, n =>
    if n = 0 then .ok ([], none)
    else
      let m := min n (65536 - va.toNat % 65536)
      match s.checkGlobal k acc va, s.checkGlobal k acc (va + BitVec.ofNat 64 (m - 1)) with
      | .miss, _ => .error (.miss va)
      | .bad c r, _ => .error (s.faultVerdict k i va c r)
      | .ok _, .bad c r =>
        let first := ((List.range m).find? fun j => match s.checkGlobal k acc (va + BitVec.ofNat 64 j) with | .bad _ _ => true | _ => false).getD (m - 1)
        .error (s.faultVerdict k i (va + BitVec.ofNat 64 first) c r)
      | .ok _, .miss => .error (.miss va)
      | .ok t, .ok _ =>
        let own := (s.ownReqs k).any fun r => r.what.writes && decide (r.dev = t.dev) && decide (t.pa < r.pa + r.what.bytes ∧ r.pa < t.pa + m)
        let region := if t.dev.isNone then (s.homeLeases.atD (t.pa / 65536) {}).state else .open
        let lost := t.dev.any fun d => (s.heldLeases.at? (d * 2 ^ 28 + t.pa / 65536)).any fun h => decide (h.exp ≤ s.clock + 200)
        if own || (t.dev.isNone && inDram t.pa && s.zeroing.contains (t.pa / 65536)) || (match region with | .held _ _ => true | _ => false) then .error .stall
        else if lost || decide (region = .orphaned) then .error (.trap (s.trapOf k i 0x15 va))
        else
          let here : Except Verdict (List Byte × Option W64) := match t.dev with
            | none =>
              let bs := s.mem.bytes t.pa m
              .ok (if acc = .fetch then bs else s.viewed (s.ownView k t) t.pa bs, (s.poisonOff t.pa m).map fun j => va + BitVec.ofNat 64 j)
            | some d => (s.readFar k i va d 600 t.pa m).map fun bs => (bs, none)
          match here with
          | .error v => .error v
          | .ok (bs, p) =>
            match s.readVirt k i acc fuel (va + BitVec.ofNat 64 m) (n - m) with
            | .error v => .error v
            | .ok (r, q) => .ok (bs ++ r, p.orElse fun _ => q)

/-- ACTLD: steps 1 to 3 of R208, the coach stalling through them. A header that is read poisoned counts by its bytes, and the load
then leaves the bank POISONED (R210; DESIGN CHOICE, log 75). -/
def actldCheck (i : Instr) (a : Reg) (t : Nat) (s : State) (k : FKey) : Verdict :=
  let va := s.src64 k a
  if va.toNat % 64 ≠ 0 then .trap (s.trapOf k i 0x12 va)
  else
    let c := s.coreOf k
    let x := s.table c t
    if x.inactiveBank.state = .loading || s.acqPending k || s.reqs.any fun r => decide (r.core = c ∧ r.what = .sfu (some (t, !x.active))) then .stall
    else match s.readVirt k i .load 3 va 4160 with
      | .error v => v
      | .ok (bs, _) => if headerOk bs then .go else .trap (s.trapOf k i 0x02 va)

/-- The bank enters LOADING with the header that has been checked; its segments, reads of the fibre, are read when the load is done
(R208, R210). Of several members the last one's address stands (DESIGN CHOICE, log 76). -/
def execActld (wa : Bool) (a : Reg) (t : BitVec 3) (s : State) : Out :=
  issue (.actld wa a t) (s.reading (.actld wa a t)) (actldCheck (.actld wa a t) a t.toNat) fun s ks =>
    ks.foldl (fun s k => if s.isHelper k then s else
      let p := tableParty (s.coreOf k) t.toNat
      let head := match s.readVirt k (.actld wa a t) .load 3 (s.src64 k a) 64 with | .ok (bs, bad) => some (bs, bad.isSome) | .error _ => none
      { ((s.newAgent p).follows (.agent k) p).updTable (s.coreOf k) t.toNat (fun x => x.setInactive
          { state := .loading, addr := (s.src64 k a).toNat, part := s.partOf k, header := head, id := s.nextReq, fibre := some k }) with nextReq := s.nextReq + 1 }) s

/-- ACTSW switches the banks, once for each live member (DESIGN CHOICE, log 76); a POISONED bank raises POISON, with the address
of its table, and switches nothing (R209; DESIGN CHOICE, log 75). -/
def execActsw (t : BitVec 3) (s : State) : Out :=
  issue (.actsw t) s
    (fun s k =>
      let b := (s.table (s.coreOf k) t.toNat).inactiveBank
      match b.state with
      | .loading => .stall
      | .poisoned => if s.recoverable k then .rollback else .trap (s.trapOf k (.actsw t) 0x30 (BitVec.ofNat 64 b.addr))
      | _ => .go)
    fun s ks => ks.foldl (fun s k => if s.isHelper k then s else
      s.updTable (s.coreOf k) t.toNat fun x => { x with active := !x.active }) s

end Sys2Proof.Machine
end

