-- ==== Sys2Proof/Machine/Cross.lean ====
section
/-!
DEFINITION. Machine/Cross.lean: quad instructions (R212, R213) and gang collectives (R214-R218, R159).
-/

namespace Sys2Proof.Machine

/-! ### QUAD -/

/-- The member of the coach of the turn in lane `l` of the quad of `k`. -/
def State.quadMember (s : State) (k : FKey) (l : Nat) : Option FKey :=
  match k with
  | .fib b n =>
    let m := FKey.fib b (n / 4 * 4 + l)
    if (s.members.getD []).contains m then some m else none
  | _ => none

/-- What lane `l` supplies to an exchange or QBC (R212). -/
def State.quadVal (s : State) (k : FKey) (a : Reg) (l : Nat) : W32 :=
  match s.quadMember k l with
  | some m => s.src32 m a
  | none => 0

/-- What the four lanes supply to QADD, QMAX and QMIN: helpers and absent lanes supply +0 (R212). -/
def State.quadVals (s : State) (k : FKey) (a : Reg) : List Nat :=
  (List.range 4).map fun l => match s.quadMember k l with
    | some m => if s.isHelper m then 0 else (s.src32 m a).toNat
    | none => 0

/-- Lane within the quad (R213). -/
def State.quadLane (s : State) (k : FKey) : Nat := s.laneOf k % 4

/-- An exchange with the lane at distance `x` (R213). -/
def laneQuad (o : R2) (x : Nat) (s : State) (k : FKey) : List Wr := [.reg o.d (s.quadVal k o.a (s.quadLane k ^^^ x))]

/-- A reduction of the four lane values (R213). -/
def laneQuadRed (o : R2) (f : List Nat → Nat) (s : State) (k : FKey) : List Wr := [.reg o.d (BitVec.ofNat 32 (f (s.quadVals k o.a)))]

/-- Folds a non-empty list of FP32 patterns; the empty list gives +0 (R37). -/
def foldF (f : Nat → Nat → Nat) : List Nat → Nat
  | [] => 0
  | x :: r => r.foldl f (f x x)

def execQxh (o : R2) (s : State) : Out := compute (.qxh o) s (laneQuad o 1)
def execQxv (o : R2) (s : State) : Out := compute (.qxv o) s (laneQuad o 2)
def execQxd (o : R2) (s : State) : Out := compute (.qxd o) s (laneQuad o 3)
def execQbc (o : R3) (s : State) : Out := compute (.qbc o) s fun s k =>
  [.reg o.d (s.quadVal k o.a (bits (s.src32 k o.b).toNat 1 0))]
def execQadd (o : R2) (s : State) : Out := compute (.qadd o) s (laneQuadRed o (pairwise fp32.add 0))
def execQmax (o : R2) (s : State) : Out := compute (.qmax o) s (laneQuadRed o (foldF fp32.max))
def execQmin (o : R2) (s : State) : Out := compute (.qmin o) s (laneQuadRed o (foldF fp32.min))
def execQhlp (p : Pred) (s : State) : Out := compute (.qhlp p) s fun s k => [.pred p (s.isHelper k)]

/-! ### XLANE and GCOLL -/

/-- Participants of an instance: gang-lane and fibre, in ascending order. -/
abbrev Parts := List (Nat × FKey)

/-- The 32-bit source of lane `l`, 0 from a lane that does not take part (R215). -/
def State.laneVal (s : State) (ps : Parts) (a : Reg) (l : Nat) : W32 :=
  match ps.find? (·.1 = l) with
  | some (_, k) => s.src32 k a
  | none => 0

/-- Sources of all 32 lanes, 0 from the absent (R37, R215). -/
def State.laneVals (s : State) (ps : Parts) (a : Reg) : List W32 := (List.range 32).map (s.laneVal ps a)

/-- A mask of the lanes of participants for which `f` holds. -/
def laneMask (ps : Parts) (f : FKey → Bool) : W32 :=
  BitVec.ofNat 32 ((ps.filter fun p => f p.2).foldl (fun x p => x + 2 ^ p.1) 0)

/-- One result for every participant (R217). -/
def allLanes (ps : Parts) (w : Wr) : List (FKey × List Wr) := ps.map fun p => (p.2, [w])

/-- A result per lane. -/
def eachLane (ps : Parts) (d : Reg) (f : Nat → FKey → W32) : List (FKey × List Wr) := ps.map fun p => (p.2, [.reg d (f p.1 p.2)])

/-- Element l of a scan (R37). -/
def scanVal {α : Type} (z : α) (f : α → α → α) (xs : List α) (l : Nat) : α := ((inclusivePrefix f xs)[l]?).getD z

/-- What the members of one instance write (R216, R217). -/
def collResult (s : State) (ps : Parts) : Instr → List (FKey × List Wr)
  | .shflIdx o => eachLane ps o.d fun _ k => s.laneVal ps o.a (bits (s.src32 k o.b).toNat 4 0)
  | .shflUp o => eachLane ps o.d fun l k =>
    let b := (s.src32 k o.b).toNat
    if l < b then s.src32 k o.a else s.laneVal ps o.a (l - b)
  | .shflDn o => eachLane ps o.d fun l k =>
    let b := (s.src32 k o.b).toNat
    if 31 < l + b then s.src32 k o.a else s.laneVal ps o.a (l + b)
  | .shflXor o => eachLane ps o.d fun l k => s.laneVal ps o.a (l ^^^ bits (s.src32 k o.b).toNat 4 0)
  | .bcast o =>
    let m := match ps.head? with | some (_, k) => bits (s.src32 k o.b).toNat 4 0 | none => 0
    eachLane ps o.d fun _ _ => s.laneVal ps o.a m
  | .voteAny d a => allLanes ps (.pred d (ps.any fun p => s.pred p.2 a))
  | .voteAll d a => allLanes ps (.pred d (ps.all fun p => s.pred p.2 a))
  | .ballot d a => allLanes ps (.reg d (laneMask ps fun k => s.pred k a))
  | .gredFadd o => allLanes ps (.reg o.d (BitVec.ofNat 32 (pairwise fp32.add 0 ((s.laneVals ps o.a).map BitVec.toNat))))
  | .gredIadd o => allLanes ps (.reg o.d (pairwise (· + ·) 0 (s.laneVals ps o.a)))
  | .gredFmax o => allLanes ps (.reg o.d (BitVec.ofNat 32 (foldF fp32.max (ps.map fun p => (s.src32 p.2 o.a).toNat))))
  | .gredFmin o => allLanes ps (.reg o.d (BitVec.ofNat 32 (foldF fp32.min (ps.map fun p => (s.src32 p.2 o.a).toNat))))
  | .gscanFadd o => eachLane ps o.d fun l _ =>
    BitVec.ofNat 32 (fp32.canon (scanVal 0 fp32.add ((s.laneVals ps o.a).map BitVec.toNat) l))
  | .gscanIadd o => eachLane ps o.d fun l _ => scanVal 0 (· + ·) (s.laneVals ps o.a) l
  | .matchV o => eachLane ps o.d fun _ k => laneMask ps fun m => s.src32 m o.a = s.src32 k o.a
  | _ => []

/-- Live fibres of a gang as participants. -/
def State.gangParts (s : State) (g : Nat × Nat) : Parts := (s.liveInGang g).map fun n => (n % 32, FKey.fib g.1 n)

/-- Makes a waiting fibre ready at PC + 4 in a new run. -/
def State.resume (s : State) (k : FKey) : State :=
  s.updFib k fun f => { f with wait := .ready, pc := f.pc + 4, k := [], readySince := s.cycles (s.coreOf k) }

/-- Resumes every listed fibre. -/
def State.resumeAll (s : State) (ks : List FKey) : State := ks.foldl (fun s k => s.resume k) s

/-- The collective a fibre waits at, if any. -/
def Fibre.collAt (f : Fibre) : Option Instr := match f.wait with | .coll i => some i | _ => none

/-- The instances of a gang's collectives: its waiting fibres grouped by PC (R214). -/
def State.collInsts (s : State) (g : Nat × Nat) : List Parts :=
  let ps := s.gangParts g
  (dedup (ps.map fun p => (s.fib p.2).pc)).map fun pc => ps.filter fun p => (s.fib p.2).pc = pc

/-- The writes of every instance (R214). -/
def State.collWrites (s : State) (g : Nat × Nat) : List (FKey × List Wr) :=
  (s.collInsts g).flatMap fun inst => match inst.head?.bind fun p => (s.fib p.2).collAt with
    | some i => collResult s inst i
    | none => []

/-- Completes a gang's collectives once every live fibre of the gang waits at one (R159, R214); they carry no dependence, and
a fence restores the order between their participants (R106). A fibre that reaches a collective in trap service or in a continuation
has arrived (DESIGN CHOICE, log 90). -/
def State.collCheck (s : State) (g : Nat × Nat) : State :=
  let ps := s.gangParts g
  if ps.isEmpty || ps.any (fun p => (s.fib p.2).collAt.isNone) then s
  else ((s.collInsts g).foldl (fun s inst => s.noteCross (inst.map (·.2))) (s.lanes (s.collWrites g))).resumeAll (ps.map (·.2))

/-- Gangs of a list of members. -/
def State.gangsOf (s : State) (ks : List FKey) : List (Nat × Nat) := dedup (ks.map s.gangOf)

/-- A live member arrives at a collective and waits (R214); the rendezvous is tested once its run has ended. -/
def collective (i : Instr) (s : State) : Out :=
  issue i s noCheck
    (fun s ks => ks.foldl (fun s k => if s.isHelper k then s else s.updFib k fun f => { f with wait := .coll i }) s)
    (fun s k => (s.fib k).pc)
    (fun s ks => (s.gangsOf ks).foldl (fun s g => s.collCheck g) s)

def execShflIdx (o : R3) (s : State) : Out := collective (.shflIdx o) s
def execShflUp (o : R3) (s : State) : Out := collective (.shflUp o) s
def execShflDn (o : R3) (s : State) : Out := collective (.shflDn o) s
def execShflXor (o : R3) (s : State) : Out := collective (.shflXor o) s
def execBcast (o : R3) (s : State) : Out := collective (.bcast o) s
def execVoteAny (d a : Pred) (s : State) : Out := collective (.voteAny d a) s
def execVoteAll (d a : Pred) (s : State) : Out := collective (.voteAll d a) s
def execBallot (d : Reg) (a : Pred) (s : State) : Out := collective (.ballot d a) s
def execGredFadd (o : R2) (s : State) : Out := collective (.gredFadd o) s
def execGredIadd (o : R2) (s : State) : Out := collective (.gredIadd o) s
def execGredFmax (o : R2) (s : State) : Out := collective (.gredFmax o) s
def execGredFmin (o : R2) (s : State) : Out := collective (.gredFmin o) s
def execGscanFadd (o : R2) (s : State) : Out := collective (.gscanFadd o) s
def execGscanIadd (o : R2) (s : State) : Out := collective (.gscanIadd o) s
def execMatchV (o : R2) (s : State) : Out := collective (.matchV o) s

/-! ### BAR and RECONV rendezvous (R108, R158, R159, R235) -/

def Fibre.atBar (f : Fibre) : Option Bool := match f.wait with | .bar c => some c | _ => none

/-- Whether every live fibre of a block waits at a BAR. -/
def State.allAtBar (s : State) (b : Nat) : Bool := (s.liveSlots b).all fun n => (s.fib (.fib b n)).atBar.isSome

/-- Fibres of a block that wait at a BAR of one scope. -/
def State.barWaiters (s : State) (b : Nat) (clu : Bool) : List FKey :=
  ((s.liveSlots b).map fun n => FKey.fib b n).filter fun k => (s.fib k).atBar = some clu

/-- A BAR of the listed fibres completes: what precedes it in any happens before what follows it in any (R108). -/
def State.barDone (s : State) (ks : List FKey) (sc : Scope) : State := (s.noteBarrier ks sc).resumeAll ks

/-- Completes the barriers of a block: at block scope when the block has arrived, at cluster scope when both blocks of
the twin have; a block that is no half of a twin treats both alike (R159, R235). -/
def State.barCheck (s : State) (b : Nat) : State :=
  if !s.allAtBar b then s
  else match (s.block b).twin with
    | none => s.barDone (s.barWaiters b false ++ s.barWaiters b true) .blk
    | some t =>
      let s1 := s.barDone (s.barWaiters b false) .blk
      if s1.allAtBar t then s1.barDone (s1.barWaiters b true ++ s1.barWaiters t true) .clu else s1

def Fibre.atReconv (f : Fibre) : Option Nat := match f.wait with | .reconv c => some c | _ => none

/-- Live fibres of a gang in its open group at a PC (R158). -/
def State.reconvGroup (s : State) (g : Nat × Nat) (pc : W64) : List FKey :=
  ((s.gangParts g).map (·.2)).filter fun k => (s.fib k).atReconv.isSome && decide ((s.fib k).pc = pc)

/-- Departure of a gang's group at a PC: every live fibre of the gang is in it, or RCVWIN cycles have passed since it
was opened (R158). -/
def State.reconvCheck (s : State) (g : Nat × Nat) (pc : W64) : State :=
  let grp := s.reconvGroup g pc
  match grp.head?.bind fun k => (s.fib k).atReconv with
  | none => s
  | some opened =>
    if grp.length = (s.liveInGang g).length ∨ opened + (s.gang g).sr.rcvwin ≤ s.cycles (s.block g.1).core then s.resumeAll grp
    else s

/-- Tests every open group of a gang. -/
def State.reconvAll (s : State) (g : Nat × Nat) : State :=
  (dedup (((s.gangParts g).map (·.2)).filterMap fun k => if (s.fib k).atReconv.isSome then some (s.fib k).pc else none)).foldl
    (fun s pc => s.reconvCheck g pc) s

end Sys2Proof.Machine
end

