-- ==== Sys2Proof/Machine/Blocks.lean ====
section
/-!
DEFINITION. Machine/Blocks.lean: matrix ownership (R330-R332, R353), stop requests and stop points (R258, R259), and
the end of a gang (R157, R181).
-/

namespace Sys2Proof.Machine

/-! ### Matrix ownership -/

/-- Whether a waiting gang heads the owner queue of a core that no gang owns. -/
def State.heads (s : State) (c : Nat) (g : Nat × Nat) : Bool :=
  (s.core c).owner.isNone && (match (s.core c).mxq.head? with | some (h, _) => decide (h = g) | none => false)

/-- Makes the fibres of a gang that wait at MXACQ or MXACQ.P ready at PC + 4; a gang that owned the engine before its block
was stopped goes on, its fibres ready from now (R161, R330, R331, R353). -/
def State.wakeOwner (s : State) (g : Nat × Nat) : State :=
  let now := s.cycles (s.block g.1).core
  let s := if (s.gang g).held then (s.liveInGang g).foldl (fun s n => s.updFib (.fib g.1 n) fun f => { f with readySince := now }) s else s
  (s.updGang g fun x => { x with held := false }).resumeAll (((s.gangParts g).map (·.2)).filter fun k => match (s.fib k).wait with | .mxacq _ => true | _ => false)

/-- Grants a core's engine to the head of its queue; a gang that waits for both arrays is granted when it heads both
queues (R330, R332). -/
def State.grant (s : State) (c : Nat) : State :=
  match (s.core c).owner, (s.core c).mxq.head? with
  | none, some (g, false) =>
    (s.updCore c fun x => { x with owner := some g, ownerPaired := false, mxq := x.mxq.drop 1 }).wakeOwner g
  | none, some (g, true) =>
    let p := partnerOf c
    if s.heads p g then
      let take := fun (x : Core) => { x with owner := some g, ownerPaired := true, mxq := x.mxq.drop 1 }
      ((s.updCore c take).updCore p take).wakeOwner g
    else s
  | _, _ => s

/-- Releases what a gang owns and takes it out of every owner queue it stands in; the next gangs are granted
(R330, R332, R353). -/
def State.releaseMatrix (s : State) (g : Nat × Nat) : State :=
  let c := (s.block g.1).core
  let p := partnerOf c
  let drop := fun (x : Core) =>
    { x with
      owner := if x.owner = some g then none else x.owner
      ownerPaired := if x.owner = some g then false else x.ownerPaired
      mxq := x.mxq.filter (·.1 ≠ g) }
  (((s.updCore c drop).updCore p drop).grant c).grant p

/-- Takes every gang of a block out of what it owns and of the owner queues at once; the next gangs are granted. -/
def State.releaseBlock (s : State) (b : Nat) : State :=
  let c := (s.block b).core
  let p := partnerOf c
  let drop := fun (x : Core) =>
    let own := (x.owner.map fun g => decide (g.1 = b)).getD false
    { x with
      owner := if own then none else x.owner
      ownerPaired := if own then false else x.ownerPaired
      mxq := x.mxq.filter (·.1.1 ≠ b) }
  (((s.updCore c drop).updCore p drop).grant c).grant p

/-- Whether a gang owns its core's engine; with `paired`, both arrays of its cluster (R330, R332, R348). -/
def State.ownsMatrix (s : State) (k : FKey) (paired : Bool) : Bool :=
  let x := s.core (s.coreOf k)
  decide (x.owner = some (s.gangOf k)) && (!paired || x.ownerPaired)

/-- 0 NONE, 1 WAITING, 2 OWNER (R355). -/
def State.matrixState (s : State) (k : FKey) : Nat :=
  let x := s.core (s.coreOf k)
  if x.owner = some (s.gangOf k) then 2 else if x.mxq.any (·.1 = s.gangOf k) then 1 else 0

/-! ### Stops -/

/-- Requests the stop of a running block, and of the other half of its twin (R9, R258). -/
def State.requestStop (s : State) (why : StopWhy) (b : Nat) : State :=
  let req := fun (x : Block) => if x.stop = .running then { x with stop := .requested why s.clock } else x
  match (s.block b).twin with
  | some t => if (s.blocks.at? t).isSome then (s.updBlock b req).updBlock t req else s.updBlock b req
  | none => s.updBlock b req

/-- Whether a stop of the block is requested (R187, R258). -/
def State.stopRequested (s : State) (b : Nat) : Bool := match (s.block b).stop with | .requested _ _ => true | _ => false

/-- A destination without the registers of its fibre; an s register is the gang's. -/
def Dst.shared : Dst → Dst
  | .sreg b g n => .sreg b g n
  | _ => .none

/-- Takes the destinations away from a fibre's requests: fills of its own registers are discarded (R181, R259). -/
def State.cancelFills (s : State) (k : FKey) : State :=
  { s with reqs := s.reqs.map fun r => if r.org = .fibre k then { r with dst := r.dst.shared } else r }

/-- Takes a fibre's entries out of its gang's trap queue; where it was in trap service the next entry is delivered
(R181, R251, R259). -/
def State.dropTraps (s : State) (k : FKey) : State :=
  (s.updGang (s.gangOf k) fun g => { g with trapq := g.trapq.filter fun e => e.lane ≠ s.laneOf k }).deliver (s.gangOf k)

/-- Discards a fibre in an open region: it will restart at the IDEM that began it, with the snapshot's registers
(R259). -/
def State.discardFibre (s : State) (k : FKey) (n : Snap) : State :=
  (((s.unpop k).cancelFills k).updFib k fun f =>
    { f with pc := n.pc, p := n.p, wb := n.wb, lr := n.lr, regs := n.regs.map fun (r, v) => (r, { val := v }), k := [],
             await := [], wait := .ready, service := false, continuing := none, inner := false, region := none }).dropTraps k

/-- Whether a fibre is in trap service or in its continuation: it can meet the deadline only, or be discarded (R258). -/
def Fibre.inHandler (f : Fibre) : Bool := f.service || f.continuing.isSome

/-- Whether a live fibre lets its block stop: it waits at a PRE or has an open region (R258). -/
def Fibre.atStop (f : Fibre) : Bool := (!f.inHandler && match f.wait with | .pre _ => true | _ => false) || f.region.isSome

/-- Carts that hold an element of a block leave (R9, R121). -/
def State.flushBlock (s : State) (b : Nat) : State :=
  s.flushCarts (dieOf (s.block b).core) fun r => match r.org with | .fibre (.fib x _) => decide (x = b) | _ => false

/-- Coaches of a block leave their pipes, all but those of which `keep` holds. -/
def State.dropCoaches (s : State) (b : Nat) (keep : Coach → Bool) : State :=
  let go := fun (c : Coach) => decide (c.block = b) && !keep c
  let s := s.pipes.foldl (fun s p => if go p.2 then p.2.members.foldl (fun s n => s.unpop (.fib b n)) s else s) s
  { s with pipes := s.pipes.filter fun p => !(go p.2) }

/-- The block stops at its stop point: it leaves the pipes, its carts leave, and fibres in a region that wait at no PRE, or
in a handler, are discarded (R9, R258). -/
def State.stopAtPoint (s : State) (b : Nat) (why : StopWhy) : State :=
  let s := (s.dropCoaches b fun _ => false).flushBlock b
  let s := (s.liveSlots b).foldl (fun s n =>
    let k := FKey.fib b n
    match (s.fib k).wait, (s.fib k).region with
    | .pre _, some r => if (s.fib k).inHandler then s.discardFibre k r else s
    | .pre _, none => s
    | _, some r => s.discardFibre k r
    | _, none => s) s
  s.updBlock b fun x => { x with stop := .stopped why false }

/-- Whether a word of a block's coach has been performed by some of its members and not by the others. -/
def State.halfway (s : State) (b : Nat) : Bool := s.pipes.any fun p => decide (p.2.block = b ∧ p.2.served ≠ [])

/-- Tests a block for its stop point; no stop interrupts a LAUNCH that has issued, for some members of its coach or with its ticket's
store on the way (R190, R258). -/
def State.stopCheck (s : State) (b : Nat) : State :=
  match (s.block b).stop with
  | .requested why _ =>
    let live := s.liveSlots b
    if live ≠ [] ∧ live.all (fun n => (s.fib (.fib b n)).atStop) ∧ !(live.any fun n => s.wordBusy (.fib b n)) ∧ !s.halfway b then s.stopAtPoint b why else s
  | _ => s

/-- Blocks of a list of members. -/
def State.blocksOf (ks : List FKey) : List Nat := dedup (ks.filterMap fun k => match k with | .fib b _ => some b | _ => none)

/-- Tests every block of a list of members for its stop point. -/
def State.stopChecks (s : State) (ks : List FKey) : State := (State.blocksOf ks).foldl (fun s b => s.stopCheck b) s

/-! ### The end of fibres and gangs -/

/-- What follows when a gang has no live fibre left: its engine is released, its trap queue is emptied, and faults
recorded for it go to the control complex (R123, R157, R181, R308). -/
def State.gangEnd (s : State) (g : Nat × Nat) : State :=
  let c := (s.block g.1).core
  let lid := (s.block g.1).lid
  let s := (s.releaseMatrix g).updGang g fun x => { x with trapq := [] }
  let s : State := match (s.core c).cartFaults.find? fun e => e.block = g.1 ∧ e.gang = g.2 with
    | some e => (s.updCore c fun x => { x with cartFaults := x.cartFaults.filter fun e => !(e.block = g.1 && e.gang = g.2) }).launchError lid e.cause
    | none => s
  (List.range 8).foldl (fun s t => match (s.ctx c t).faults.find? (·.gang = g) with
    | some e => (s.updCtx c t fun x => { x with faults := x.faults.filter (·.gang ≠ g) }).launchError lid e.cause
    | none => s) s

/-- A fibre's empty registers become 0 and full (R181). -/
def Fibre.settleRegs (f : Fibre) : Fibre := { f with regs := f.regs.map fun (n, c) => if c.full then (n, c) else (n, {}) }

/-- Retires a live fibre (R156, R181): a helper while its quad has a live fibre, otherwise the quad is free. -/
def State.retireFibre (s : State) (b n : Nat) : State :=
  let k := FKey.fib b n
  let s := (((s.leaveCoach b n).cancelFills k).updFib k fun f =>
    { f.settleRegs with status := .helper, wait := .ready, k := [], await := [], service := false, continuing := none, inner := false, region := none }).dropTraps k
  let s : State := match s.quadLeader b n with
    | some _ => s
    | none => (List.range 4).foldl (fun s i =>
        let m := n / 4 * 4 + i
        (s.leaveCoach b m).updFib (.fib b m) fun f => { f with status := .free, wait := .ready }) s
  let g := (b, n / 32)
  let qs := [0, 1, 2, 3, 4, 5]
  let s : State := qs.foldl (fun s q => if (s.queue (s.block b).core q).bound = some g then s.freeEntries (s.block b).core q else s) s
  if s.liveInGang g = [] then s.gangEnd g else s

/-- The rendezvous a retired fibre may complete by its absence (R158, R159, R258). -/
def State.afterEnd (s : State) (b g : Nat) : State :=
  (((s.collCheck (b, g)).reconvAll (b, g)).barCheck b).stopCheck b

end Sys2Proof.Machine
end

