-- ==== Sys2Proof/Machine/Control.lean ====
section
/-!
DEFINITION. Machine/Control.lean: BRANCH and CTL (R177-R184).
-/

namespace Sys2Proof.Machine

/-- PC + 4 + 4 * sext(OFF19), modulo 2^64 (R177). -/
def branchTarget (pc : W64) (off : BitVec 19) : W64 := pc + 4 + off.signExtend 64 * 4

/-- Applies a change to the live members only (R157). -/
def State.onLive (s : State) (ks : List FKey) (f : State → FKey → State) : State :=
  ks.foldl (fun s k => if s.isHelper k then s else f s k) s

def execBrp (neg : Bool) (p : Pred) (off : BitVec 19) (s : State) : Out :=
  issue (.brp neg p off) s noCheck (fun s _ => s)
    fun s k => if s.pred k p != neg then branchTarget (s.fib k).pc off else s.nextPc k

def execBra (off : BitVec 19) (s : State) : Out :=
  issue (.bra off) s noCheck (fun s _ => s) fun s k => branchTarget (s.fib k).pc off

/-- The link register takes PC + 4; a helper's is unchanged (R178, R194). -/
def State.link (s : State) (ks : List FKey) : State := s.onLive ks fun s k => s.updFib k fun f => { f with lr := f.pc + 4 }

def execCall (off : BitVec 19) (s : State) : Out :=
  issue (.call off) s noCheck State.link fun s k => branchTarget (s.fib k).pc off

/-- A target whose bits [1:0] are not zero raises ALIGN at the jump (R179, R180). -/
def targetCheck (i : Instr) (a : Reg) (s : State) (k : FKey) : Verdict :=
  let t := s.src64 k a
  if t.toNat % 4 ≠ 0 then .trap (s.trapOf k i 0x12 t) else .go

def execJmpr (wa : Bool) (a : Reg) (s : State) : Out :=
  issue (.jmpr wa a) s (targetCheck (.jmpr wa a) a) (fun s _ => s) fun s k => s.src64 k a

def execCallr (wa : Bool) (a : Reg) (s : State) : Out :=
  issue (.callr wa a) s (targetCheck (.callr wa a) a) State.link fun s k => s.src64 k a

def execRet (s : State) : Out := issue .ret s noCheck (fun s _ => s) fun s k => (s.fib k).lr

/-- A live member joins its gang's open group at its PC or opens one; departure is tested once the run has ended
(R158, R182). -/
def execReconv (s : State) : Out :=
  issue .reconv s noCheck
    (fun s ks => s.onLive ks fun s k =>
      let opened := ((s.reconvGroup (s.gangOf k) (s.fib k).pc).head?.bind fun m => (s.fib m).atReconv).getD (s.cycles (s.coreOf k))
      s.updFib k fun f => { f with wait := .reconv opened })
    (fun s k => (s.fib k).pc)
    (fun s ks => (s.gangsOf ks).foldl (fun s g => s.reconvAll g) s)

/-- Lowest slot below MAXF that is free or a helper (R156). -/
def State.freeSlot (s : State) (b : Nat) : Option Nat :=
  (List.range (s.block b).maxf).find? fun n => (s.fib (.fib b n)).status ≠ .live

/-- A new helper: every register zero and full (R156). -/
def newHelper (pc : W64) : Fibre := { pc := pc, status := .helper }

/-- Creates a fibre in a slot: v0 := b, all else zero and full; a quad without a live fibre gets helpers (R156, R180). -/
def State.spawn (s : State) (b n : Nat) (pc : W64) (v0 : W32) : State :=
  let fresh := (s.quadLeader b n).isNone
  let s := s.leaveCoach b n
  let s := s.setFib (.fib b n) { pc := pc, regs := [(0, { val := v0 })], readySince := s.cycles (s.block b).core }
  if fresh then
    ((List.range 4).map fun i => n / 4 * 4 + i).foldl (fun s m => if m = n then s else s.setFib (.fib b m) (newHelper pc)) s
  else s

/-- One live member's FORK: the slot number, or 0xFFFF_FFFF and no fibre (R156); what precedes the FORK happens before what the
new fibre does (R180). -/
def State.forkOne (s : State) (o : R3) (pc : W64) (v0 : W32) (k : FKey) : State :=
  match k with
  | .fib b _ => match s.freeSlot b with
    | some n =>
      let child := Party.agent (.fib b n)
      (((s.spawn b n pc v0).newAgent child).follows (.agent k) child).wr k (.reg o.d (BitVec.ofNat 32 n))
    | none => s.wr k (.reg o.d 0xFFFFFFFF)
  | _ => s

/-- FORK claims slots in ascending order of the members; as a release at block scope it waits until what the fibre has
issued is performed (R180). A helper gets 0xFFFF_FFFF (R194), or nothing where a live fibre would trap (R157). -/
def execFork (o : R3) (s : State) : Out :=
  issue (.fork o) s
    (fun s k => match targetCheck (.fork o) o.a s k with
      | .go => if s.outstanding k ≠ [] then .stall else .go
      | v => v)
    fun s ks =>
      let ops := (ks.filter fun k => !s.isHelper k).map fun k => (k, s.src64 k o.a, s.src32 k o.b)
      let s := (ks.filter fun k => s.isHelper k && decide (targetCheck (.fork o) o.a s k = .go)).foldl (fun s k => s.wr k (.reg o.d 0xFFFFFFFF)) s
      ops.foldl (fun s (k, a, b) => s.forkOne o a b k) s

/-- END retires the fibre (R156, R181); what its absence completes follows. -/
def execEnd (s : State) : Out :=
  issue .endF s noCheck
    (fun s ks => s.onLive ks fun s k => match k with | .fib b n => s.retireFibre b n | _ => s)
    (fun s k => (s.fib k).pc)
    (fun s ks => (s.gangsOf ks).foldl (fun s g => s.afterEnd g.1 g.2) s)

/-- WB := 16 * n, from the next word on (R183). -/
def execWbase (n : BitVec 4) (s : State) : Out := compute (.wbase n) s fun _ _ => [.wb (n.setWidth 8 <<< 4)]

/-- TRL ends the run and names the await set (R86, R184). Window registers are named as they stand under the current
base. -/
def execTrl (o : R3) (s : State) : Out :=
  issue (.trl o) s noCheck (fun s _ => s) State.nextPc fun s ks =>
    s.onLive ks fun s k => s.updFib k fun f => { f with await := [o.d, o.a, o.b].filter (· ≠ .z) }

end Sys2Proof.Machine
end

