-- ==== Sys2Proof/Machine/Sys.lean ====
section
/-!
DEFINITION. Machine/Sys.lean: SYS (R185-R189), the tables of R260, the special registers (R90, R91, R417, R428).
-/

namespace Sys2Proof.Machine

/-- TRAP: cause 0x22, TINFO the code, TPC the next word (R185, R253). -/
def execTrap (code : BitVec 14) (s : State) : Out :=
  issue (.trap code) s
    (fun s k => .trap { cause := 0x22, pc := s.nextPc k, info := code.setWidth 64 }) fun s _ => s

/-- BKPT: cause 0x21, TPC the next word (R185, R253). -/
def execBkpt (s : State) : Out :=
  issue .bkpt s (fun s k => .trap { cause := 0x21, pc := s.nextPc k }) fun s _ => s

/-- Service field of TINFO (R257). -/
def serviceField (f : Fibre) : Nat := bits f.tinfo.toNat 63 62

/-- The continuation that an ERET ends: the one a fibre stands in, unless trap service began inside it (R186, R257). -/
def Fibre.outermost (f : Fibre) : Option PageFault := if f.service && f.inner then none else f.continuing

/-- Ends trap service: the entry leaves the queue (R186, R251). -/
def State.endService (s : State) (k : FKey) : State :=
  let s := s.updFib k fun f => { f with service := false, inner := false }
  match k with
  | .fib b n => s.updGang (b, n / 32) fun g => { g with trapq := g.trapq.drop 1 }
  | _ => s

/-- ERET ends what the fibre entered last. A compatibility continuation ends as its service field says: 00 waits, 01 replays, 10
enters the fault into the trap queue; the reserved 11 replays as 01 does (DESIGN CHOICE, log 51). Trap service ends with its entry;
anywhere else ERET raises ILL_OPC (R186, R251, R257). -/
def execEret (s : State) : Out :=
  issue .eret s
    (fun s k =>
      let f := s.fib k
      match f.outermost with
      | some pf => if serviceField f = 2 then .reject pf else .go
      | none => if f.service then .go else .trap (s.trapOf k .eret 0x01))
    (fun s ks => s.onLive ks fun s k =>
      let f := s.fib k
      if f.outermost.isNone then s.endService k
      else if serviceField f = 0 then s.updFib k fun f => { f with wait := .eret }
      else s.updFib k fun f => { f with continuing := none })
    (fun s k => let f := s.fib k
      if f.outermost.isSome && decide (serviceField f = 0) then f.pc else f.tpc)
    fun s ks => (s.gangsOf (ks.filter fun k => match k with | .fib _ _ => true | _ => false)).foldl (fun s g => s.deliver g) s

/-! ### PRE and IDEM (R187, R188, R258, R260) -/

/-- The launch record of an agent's launch. -/
def State.recordOf (s : State) (k : FKey) : List Byte := ((s.launch? (s.blockOf k).lid).map Launch.record).getD []

/-- Spans of a liveness entry: offset and length (R260). -/
def livenessSpans (e : List Byte) : List (Nat × Nat) :=
  (List.range (min 4 (field e 0x22 1))).map fun i => (field e (0x28 + 8 * i) 4, field e (0x2C + 8 * i) 4)

/-- Registers a liveness entry saves (R260). -/
def livenessRegs (e : List Byte) : List Nat := (List.range 256).filter fun n => (field e 0 32).testBit n

/-- Whether a liveness entry is valid for a block (R260). NSPAN above 4, and a span that is no multiple of 8, are invalid too (DESIGN
CHOICE, log 88). -/
def livenessOk (b : Block) (e : List Byte) : Bool :=
  decide (field e 0x22 1 ≤ 4) && decide (field e 0x23 5 = 0) && decide (field e 0x48 56 = 0) &&
    (livenessSpans e).all (fun (o, n) => decide (o % 8 = 0) && decide (n % 8 = 0) && decide (o + n ≤ b.scratch)) &&
    (livenessRegs e).all (· < b.regs)

/-- Registers a region entry checkpoints (R260). -/
def regionRegs (e : List Byte) : List Nat := (List.range (min 16 (field e 4 1))).map fun i => field e (8 + i) 1

/-- Whether a region entry is valid for the IDEM at `pc` (R260). NCK above 16 is invalid too (DESIGN CHOICE, log 88). -/
def regionOk (b : Block) (entry pc : Nat) (e : List Byte) : Bool :=
  decide (field e 4 1 ≤ 16) && decide (field e 5 3 = 0) && decide (field e 0x18 8 = 0) &&
    ((List.range 16).all fun i => decide (i < field e 4 1) || decide (field e (8 + i) 1 = 0)) &&
    (regionRegs e).all (· < b.regs) && decide ((entry + field e 0 4) % 2 ^ 64 = pc)

/-- Address of a liveness entry and of a region entry (R140, R260). -/
def State.livenessAt (s : State) (k : FKey) (i : Nat) : W64 := BitVec.ofNat 64 (field (s.recordOf k) 0x80 8 + 128 * i)
def State.regionAt (s : State) (k : FKey) (i : Nat) : W64 := BitVec.ofNat 64 (field (s.recordOf k) 0x88 8 + 32 * i)

/-- PRE reads its liveness entry only when a stop is requested; an invalid entry raises ILL_FIELD, an
uncorrectable one is consumed (R187, R260, R265, R293). -/
def preCheck (n : BitVec 14) (s : State) (k : FKey) : Verdict :=
  if !s.stopRequested (s.gangOf k).1 then .go
  else
    let va := s.livenessAt k n.toNat
    match s.readVirt k (.pre n) .load 2 va 128 with
    | .error v => v
    | .ok (_, some p) => s.markVerdict k (.pre n) (.poison p)
    | .ok (e, none) => if livenessOk (s.blockOf k) e then .go else .trap (s.trapOf k (.pre n) 0x02 va)

/-- PRE ends the run; with a stop requested the fibre waits there and its block may stop (R187, R258; DEDUCED, log 3). -/
def execPre (n : BitVec 14) (s : State) : Out :=
  issue (.pre n) s (preCheck n)
    (fun s ks => s.onLive ks fun s k =>
      if s.stopRequested (s.gangOf k).1 then
        match s.readVirt k (.pre n) .load 2 (s.livenessAt k n.toNat) 128 with
        | .ok (e, _) => s.updFib k fun f => { f with wait := .pre e }
        | .error _ => s
      else s)
    (fun s k => if s.stopRequested (s.gangOf k).1 then (s.fib k).pc else s.nextPc k)
    fun s ks => s.stopChecks ks

/-- IDEM begin reads its region entry; it waits for the registers the entry names (R188, R260). -/
def idemCheck (r : BitVec 7) (stop : Bool) (s : State) (k : FKey) : Verdict :=
  if stop then .go
  else
    let va := s.regionAt k r.toNat
    match s.readVirt k (.idem r stop) .load 2 va 32 with
    | .error v => v
    | .ok (_, some p) => s.markVerdict k (.idem r stop) (.poison p)
    | .ok (e, none) =>
      if !regionOk (s.blockOf k) (field (s.recordOf k) 0 8) (s.fib k).pc.toNat e then .trap (s.trapOf k (.idem r stop) 0x02 va)
      else if (regionRegs e).any fun n => !((s.fib k).cell n).full then .stall
      else .go

/-- The region entry as the IDEM reads it. -/
def State.regionEntry (s : State) (k : FKey) (i : Instr) (r : Nat) : List Byte :=
  match s.readVirt k i .load 2 (s.regionAt k r) 32 with
  | .ok (e, _) => e
  | .error _ => []

/-- IDEM: kind 0 opens region i with a snapshot and closes any other; kind 1 closes it if it is open (R188). The snapshot of a marked
register keeps its value alone: IDEM raises nothing there, and a restart finds the register without its mark (DESIGN CHOICE, log
89). -/
def execIdem (r : BitVec 7) (stop : Bool) (s : State) : Out :=
  issue (.idem r stop) s (idemCheck r stop)
    (fun s ks => s.onLive ks fun s k =>
      if stop then s.updFib k fun f =>
        if (f.region.map Snap.index) = some r.toNat then { f with region := none } else f
      else
        let e := s.regionEntry k (.idem r stop) r.toNat
        let f := s.fib k
        let n : Snap := { index := r.toNat, pc := f.pc, regs := (regionRegs e).map fun n => (n, (f.cell n).val), p := f.p, wb := f.wb, lr := f.lr }
        s.setFib k { f with region := some n })
    State.nextPc fun s ks => s.stopChecks ks

/-! ### Special registers -/

/-- DEVID (R90). -/
def State.devIdReg (s : State) : W64 := BitVec.ofNat 64 (s.devId % 2 ^ 11 + s.incarnation % 2 ^ 32 * 2 ^ 16)

/-- The value RDSR reads; a slice counter is read apart (R90, R417). -/
def State.srRead (s : State) (k : FKey) (n : Nat) : W64 :=
  let f := s.fib k
  let g := s.gangSr k
  let b := s.blockOf k
  let ctl := match k with | .ctl _ => true | _ => false
  let die := if ctl then 0 else dieOf (s.coreOf k)
  match n with
  | 0x000 => BitVec.ofNat 64 s.clock
  | 0x001 => BitVec.ofNat 64 g.runcyc
  | 0x002 => g.tmrcmp
  | 0x003 => f.whint
  | 0x004 => g.tvec
  | 0x005 => f.tcause
  | 0x006 => f.tpc
  | 0x007 => f.taddr
  | 0x008 => f.tinfo
  | 0x009 => g.cont
  | 0x00A => BitVec.ofNat 64 (s.coreOf k)
  | 0x00B => BitVec.ofNat 64 (b.x % 2 ^ 32 + b.y % 2 ^ 32 * 2 ^ 32)
  | 0x00C => BitVec.ofNat 64 (s.gangOf k).2
  | 0x00D => s.devIdReg
  | 0x00E => BitVec.ofNat 64 (b.lid % 2 ^ 40)
  | 0x00F => BitVec.ofNat 64 b.tenant
  | 0x010 => BitVec.ofNat 64 (s.die die).cartAge
  | 0x011 => BitVec.ofNat 64 (s.die die).fairWin
  | 0x012 => BitVec.ofNat 64 g.rcvwin
  | 0x013 => BitVec.ofNat 64 (if ctl then 40 else (s.part b.part).parkthr)
  | 0x014 => BitVec.ofNat 64 (if ctl then 20000 else (s.part b.part).predeadline)
  | 0x015 => BitVec.ofNat 64 (b.z % 2 ^ 32)
  | _ => 0

/-- Slice and kind of a slice counter: true for SQSPILL (R90). -/
def State.counterOf (s : State) (k : FKey) (n : Nat) : Option (Nat × Bool) :=
  if 0x100 ≤ n ∧ n ≤ 0x11F then some (sectorOf (s.coreOf k) * 16 + (n - 0x100) / 2, n % 2 = 1) else none

/-- Reads a slice counter (R287). -/
def State.counter (s : State) (c : Nat × Bool) : W64 :=
  BitVec.ofNat 64 (if c.2 then (s.slice c.1).spills % 2 ^ 32 else (s.slice c.1).peak)

/-- A slice counter after it has been read: SQSPILL at 0, SQPEAK at what its queue holds (R91, R315). -/
def State.clearCounter (s : State) (c : Nat × Bool) : State :=
  let n := s.occupancy c.1
  s.updSlice c.1 fun x => if c.2 then { x with spills := 0 } else { x with peak := n }

/-- What RDSR writes: the pair or s register for 64 bits, one register for 32 (R428). -/
def srWrites (d : Reg) (n : Nat) (v : W64) : List Wr :=
  match d with
  | .v m => if srWide n && m.val % 2 = 0 then [.wide d v] else [.reg d (v.setWidth 32)]
  | .s _ => if srWide n then [.wide d v] else [.reg d (v.setWidth 32)]
  | _ => [.reg d (v.setWidth 32)]

/-- RDSR. Of the members that read a slice counter, the lowest live one returns the count and the others what stands after that
read; the counter is cleared with the read; a helper reads 0 (R91, R189, R194, R315). -/
def execRdsr (d : Reg) (n : BitVec 14) (s : State) : Out :=
  issue (.rdsr d n) s noCheck fun s ks =>
    let first := ks.find? fun k => !s.isHelper k
    let val := fun k => match s.counterOf k n.toNat with
      | some c => if s.isHelper k then 0 else if first = some k then s.counter c else (s.clearCounter c).counter c
      | none => s.srRead k n.toNat
    let s1 := s.lanes (ks.map fun k => (k, srWrites d n.toNat (val k)))
    match first.bind fun k => s.counterOf k n.toNat with
    | some c => s1.clearCounter c
    | none => s1

/-- The whole value WRSR transfers (R428). -/
def State.srSource (s : State) (k : FKey) (d : Reg) (n : Nat) : W64 :=
  match d with
  | .v m => if srWide n && m.val % 2 = 0 then s.src64 k d else (s.src32 k d).setWidth 64
  | .s _ => if srWide n then s.src64 k d else (s.src32 k d).setWidth 64
  | _ => (s.src32 k d).setWidth 64

/-- Applies a written value (R90, R91, R417): ranges clamp the whole value, bit fields cut it. A helper writes only
its own fibre copies (R194). -/
def State.srWrite (s : State) (k : FKey) (n : Nat) (v : W64) : State :=
  let gang := fun (f : GangSr → GangSr) => if s.isHelper k then s else s.updGangSr k f
  let dies := fun (f : Die → Die) => (List.range 4).foldl (fun s d => s.updDie d f) s
  match n with
  | 0x002 => gang fun g => { g with tmrcmp := v }
  | 0x003 => s.updFib k fun f => { f with whint := v }
  | 0x004 => gang fun g => { g with tvec := v }
  | 0x005 => s.updFib k fun f => { f with tcause := v &&& 0xFF }
  | 0x006 => s.updFib k fun f => { f with tpc := v }
  | 0x007 => s.updFib k fun f => { f with taddr := v }
  | 0x008 => s.updFib k fun f => { f with tinfo := v }
  | 0x009 => gang fun g => { g with cont := v }
  | 0x010 => dies fun d => { d with cartAge := clamp 100 65000 v.toNat }
  | 0x011 => dies fun d => { d with fairWin := clamp 256 65535 v.toNat }
  | 0x012 => gang fun g => { g with rcvwin := clamp 0 65535 v.toNat }
  | _ => s

/-- WRSR; of the members of one gang that write a gang copy, the lowest lane's value stands (R189). -/
def execWrsr (d : Reg) (n : BitVec 14) (s : State) : Out :=
  issue (.wrsr d n) s noCheck fun s ks =>
    (ks.map fun k => (k, s.srSource k d n.toNat)).foldr (fun (k, v) s => s.srWrite k n.toNat v) s

end Sys2Proof.Machine
end

