-- ==== Sys2Proof/Machine/Window.lean ====
section
/-!
DEFINITION. Machine/Window.lean: the control window (R418, R420) and its registers (R294, R386, R397, R427), the
frame-owner table (R421), the import, route and group tables (R391, R393, R395).
-/

namespace Sys2Proof.Machine

/-- The bits that the fields of an import entry, a route entry and a multicast group take; the others are reserved (R391, R395,
R418). -/
def importMask : List Byte := List.replicate 21 0xFF ++ [0x1F, 0x1F] ++ List.replicate 9 0
def routeMask : List Byte := List.replicate 3 0xFF ++ [0] ++ List.replicate 16 0xFF ++ List.replicate 12 0
def groupMask : List Byte := List.replicate 132 0xFF ++ [0x03] ++ List.replicate 123 0

/-- Replaces 8 bytes of a table entry; what is written to its reserved bits is ignored (R15). -/
def patch (bs mask : List Byte) (off v : Nat) : List Byte :=
  let bs := bs ++ List.replicate (mask.length - bs.length) 0
  (bs.take off ++ toBytes 8 v ++ bs.drop (off + 8)).zipWith (· &&& ·) mask

def State.importEntry (s : State) (n : Nat) : List Byte := s.importTab.atD n (List.replicate 32 0)
def State.group (s : State) (g : Nat) : List Byte := s.mcast.atD g (List.replicate 256 0)

/-- Member devices of a multicast group; the own device is one like any other (R393, R418; DESIGN CHOICE, log 81). -/
def State.groupMembers (s : State) (g : Nat) : List Nat := (List.range 1058).filter fun n => (field (s.group g) (n / 8) 1).testBit (n % 8)

/-- Sectors of a partition, in ascending order of die * 3 + sector (R420, R149). -/
def Partition.sectors (p : Partition) : List Nat := (List.range 12).filter fun n => p.cfg.toNat.testBit n
def Partition.enabled (p : Partition) : Bool := p.cfg.toNat.testBit 63
def Partition.shadow (p : Partition) : Bool := p.cfg.toNat.testBit 62
def Partition.undo (p : Partition) : Bool := p.cfg.toNat.testBit 61
def Partition.tenant (p : Partition) : Nat := bits p.cfg.toNat 55 52

/-- Keys from here up name carriages that a partition's image holds while another partition has their core (R327). -/
def Car.savedKey : Nat := 2 ^ 16

/-- The next generation: 1 follows 4095 (R321). -/
def nextGen (g : Nat) : Nat := if g = 4095 then 1 else g + 1

/-- Whether a core lies in a set of sectors. -/
def inSectors (l : List Nat) (core : Nat) : Bool := decide (core / 32 ∈ l)

/-- A partition takes sectors over: carriages that another partition's image holds leave their planes, and a pinned one
becomes SAVED (R323, R327; DEDUCED, log 57). -/
def State.passPlanes (s : State) (p : Nat) (l : List Nat) : State :=
  { s with carriages := s.carriages.map fun (n, c) =>
      if n < Car.savedKey ∧ c.part ≠ p ∧ c.imaged ∧ inSectors l c.core then
        (n + Car.savedKey, { c with state := if c.state = .ready ∧ c.slots then .saved else c.state })
      else (n, c) }

/-- Cores whose slots a carriage takes (R320, R322). -/
def Car.cores (c : Carriage) : List Nat := if c.paired then [c.core, c.core + 1] else [c.core]

/-- Hulls of a die that tracked carriages refer to. -/
def State.hullsOf (s : State) (d : Nat) : List (Nat × Nat) :=
  dedup (s.carriages.flatMap fun x => if x.2.tracked then (x.2.hulls.filter (·.1 = d)).map (·.2) else [])

/-- Brings the source-range tables to what the carriages refer to: an entry goes when none does (R324). -/
def State.syncSources (s : State) : State :=
  { s with dies := (List.range 4).foldl (fun m d =>
      m.upd d {} fun x => { x with sources := (s.hullsOf d).map fun h =>
        { lo := h.1, hi := h.2
          cores := dedup (s.carriages.flatMap fun c => if c.2.tracked && c.2.hulls.contains (d, h.1, h.2) then Car.cores c.2 else []) } }) s.dies }

/-- Writes one carriage back into its slots: carriages of another tenant that stand there are freed. One that a tracked write has
marked since is STALE (R322, R324, R325, R328, R422; DEDUCED, log 92). -/
def State.writeBackCar (s : State) (n : Nat) (c : Carriage) : State :=
  let cores := Car.cores c
  let other := fun (x : Nat × Carriage) => decide (x.1 < Car.savedKey) && decide (x.2.tenant ≠ c.tenant) && decide (x.2.core ∈ cores ∨ (x.2.paired ∧ x.2.core + 1 ∈ cores))
  let kept := s.carriages.filter fun x => !other x
  if kept.any fun x => x.1 = n - Car.savedKey then s
  else
    let s1 : State := { s with carriages := kept.map fun x =>
      if x.1 = n then (n - Car.savedKey, { c with state := if c.state = .saved then (if c.staled then .stale else .ready) else c.state, imaged := false, staled := false }) else x }
    ({ s1 with cores := (s.carriages.filter other).foldl (fun m x =>
        m.upd x.2.core {} fun y => { y with gens := y.gens.put x.2.first (nextGen x.2.gen) }) s1.cores } : State).syncSources

/-- A partition has its sectors again: carriages without a holder come back before any block runs (R328). -/
def State.returnPlanes (s : State) (p : Nat) (l : List Nat) : State :=
  (s.carriages.filter fun x => decide (Car.savedKey ≤ x.1) && decide (x.2.part = p) && x.2.holder.isNone && inSectors l x.2.core).foldl
    (fun s x => s.writeBackCar x.1 x.2) s

/-- A partition is enabled: none of its queues' launches has retired or failed since (R146, R193, R264). -/
def State.freshQueues (s : State) (p : Nat) : State :=
  { s with queues := s.queues.map fun (n, q) => (n, if n / 64 = p then { q with lastRetired := none, errors := [], lost := [] } else q) }

/-- A write to PARTCFG, or nothing where R420 ignores it; ways that enter shadow or undo use start to drain. The placement
round-robin keeps its index, taken modulo the number of sectors (DESIGN CHOICE, log 74). -/
def State.writePartcfg (s : State) (p : Nat) (v : W64) : State :=
  let new : Partition := { s.part p with cfg := v &&& 0xE0F0000000000FFF }
  let busy := s.blocks.any (fun b => b.2.part = p) || s.launches.any (fun l => l.2.part = p && l.2.state ≠ .retired)
  let clash := (List.range 12).any fun q => q ≠ p && (s.part q).enabled && new.sectors.any fun x => x ∈ (s.part q).sectors
  if busy || clash || (new.enabled && new.sectors.isEmpty) || decide (11 < new.tenant) then s
  else
    let old := s.part p
    let sh := if new.shadow && !old.shadow then true else old.pendShadow && new.shadow
    let un := if new.undo && !old.undo then true else old.pendUndo && new.undo
    let s1 : State := { s with partitions := s.partitions.put p { new with pendShadow := sh, pendUndo := un } }
    let s2 := if new.enabled && !old.enabled then s1.freshQueues p else s1
    if new.enabled then (s2.passPlanes p new.sectors).returnPlanes p new.sectors else s2

/-- A change of a partition's table drops its translations, but for global ones (R273). -/
def State.dropTlbs (s : State) (p : Nat) : State :=
  let keep := fun (e : Tlb) => decide (e.part ≠ p) || pteField e.pte 11 11 = 1
  { s with tlb1 := s.tlb1.map (fun (n, l) => (n, l.filter keep)), tlb2 := s.tlb2.map (fun (n, l) => (n, l.filter keep)) }

/-- A write to THERMCTL: thresholds are clamped; one that breaks their order changes nothing (R386). -/
def State.writeThermctl (s : State) (n : Nat) (v : Nat) : State :=
  let a := clamp 60 125 (bits v 7 0)
  let b := clamp 60 125 (bits v 15 8)
  let c := clamp 60 125 (bits v 23 16)
  if a ≤ b ∧ b ≤ c then s.updStack n fun x => { x with lt1 := a, lt2 := b, lt3 := c } else s

/-- Writes 8 bytes of a partition block (R420). -/
def State.writePartReg (s : State) (p off v : Nat) : State :=
  match off with
  | 0x00 => s.writePartcfg p (BitVec.ofNat 64 v)
  | 0x08 => (s.updPart p fun x => { x with ptbase := BitVec.ofNat 64 v }).dropTlbs p
  | 0x10 => s.updPart p fun x => { x with savebase := BitVec.ofNat 64 v }
  | 0x18 => s.updPart p fun x => { x with savesize := BitVec.ofNat 64 v }
  | 0x20 => s.updPart p fun x =>
    { x with quota := BitVec.ofNat 16 (clamp 0 64 (bits v 15 8) * 256 + clamp 0 64 (bits v 7 0)) }
  | 0x28 => s.updPart p fun x => { x with parkthr := clamp 1 64 v }
  | 0x30 => s.updPart p fun x => { x with predeadline := clamp 1000 1000000 v }
  | _ => s

/-- Writes 8 bytes of QPRIO (R418, R145). -/
def State.writeQprio (s : State) (p off v : Nat) : State :=
  s.updPart p fun x => { x with qprio := (List.range 8).foldl (fun m i => m.put (off + i) (bits v (8 * i + 2) (8 * i))) x.qprio }

/-- Writes 8 bytes of a die's or a stack's registers (R294, R386, R397, R427). -/
def State.writeDieReg (s : State) (d off v : Nat) : State :=
  match off with
  | 0x00 => s.updDie d fun x => { x with e2eto := clamp 2 200 (bits v 39 32), flowGap := clamp 100 65535 (bits v 31 16) }
  | 0x08 => s.updDie d fun x => { x with cap := clamp 300 1400 (bits v 15 0) }
  | 0x10 => s.updDie d fun x => { x with spillBase := BitVec.ofNat 64 v }
  | _ => s

def State.writeStackReg (s : State) (n off v : Nat) : State :=
  match off with
  | 0x00 => s.updStack n fun x => { x with deadline := clamp 3600 2592000 (bits v 63 32), thr := clamp 0 64 (bits v 6 0) }
  | 0x08 => s.writeThermctl n v
  | _ => s

/-- A write of 8 bytes at an offset of the control window; unlisted offsets and read-only fields take nothing
(R418). -/
def State.windowWrite (s : State) (off v : Nat) : State :=
  if off = 0x40 then { s with fotBase := BitVec.ofNat 64 v }
  else if 0x10000 ≤ off ∧ off < 0x10000 + 64 * 12 then s.writePartReg ((off - 0x10000) / 64) ((off - 0x10000) % 64) v
  else if 0x11000 ≤ off ∧ off < 0x11000 + 64 * 12 then s.writeQprio ((off - 0x11000) / 64) ((off - 0x11000) % 64) v
  else if 0x20000 ≤ off ∧ off < 0x20800 then
    let n := (off - 0x20000) / 32
    { s with importTab := s.importTab.put n (patch (s.importEntry n) importMask ((off - 0x20000) % 32) v) }
  else if 0x21000 ≤ off ∧ off < 0x21000 + 1058 * 32 then
    let n := (off - 0x21000) / 32
    { s with routeTab := s.routeTab.put n (patch (s.route n) routeMask ((off - 0x21000) % 32) v) }
  else if 0x30000 ≤ off ∧ off < 0x30000 + 256 * 64 then
    let n := (off - 0x30000) / 256
    { s with mcast := s.mcast.put n (patch (s.group n) groupMask ((off - 0x30000) % 256) v) }
  else if 0x40000 ≤ off ∧ off < 0x80000 then s.writeDieReg ((off - 0x40000) / 65536) ((off - 0x40000) % 65536) v
  else if 0x80000 ≤ off ∧ off < 0x140000 then s.writeStackReg ((off - 0x80000) / 65536) ((off - 0x80000) % 65536) v
  else s

/-- Reads 8 bytes of a partition block (R420). -/
def State.readPartReg (s : State) (p off : Nat) : Nat :=
  let x := s.part p
  match off with
  | 0x00 => x.cfg.toNat
  | 0x08 => x.ptbase.toNat
  | 0x10 => x.savebase.toNat
  | 0x18 => x.savesize.toNat
  | 0x20 => x.quota.toNat
  | 0x28 => x.parkthr
  | 0x30 => x.predeadline
  | _ => 0

def State.readDieReg (s : State) (d off : Nat) : Nat :=
  let x := s.die d
  match off with
  | 0x00 => x.e2eto * 2 ^ 32 + x.flowGap * 2 ^ 16
  | 0x08 => x.curClk * 2 ^ 32 + x.cap
  | 0x10 => x.spillBase.toNat
  | _ => 0

def State.readStackReg (s : State) (n off : Nat) : Nat :=
  let x := s.stack n
  match off with
  | 0x00 => x.deadline * 2 ^ 32 + x.thr
  | 0x08 => x.lt3 * 2 ^ 16 + x.lt2 * 2 ^ 8 + x.lt1
  | 0x10 => field x.temps 0 8
  | 0x18 => field x.temps 8 8
  | 0x20 => x.errCount % 2 ^ 64
  | _ => if 0x800 ≤ off ∧ off < 0x1000 then field (x.ring.atD ((off - 0x800) / 16) []) (off % 16) 8 else 0

/-- A read of 8 bytes at an offset of the control window; unlisted offsets read 0 (R418). -/
def State.windowRead (s : State) (off : Nat) : Nat :=
  if off = 0 then s.bootstat
  else if off = 0x40 then s.fotBase.toNat
  else if 0x100 ≤ off ∧ off < 0x300 then field (s.mr[(off - 0x100) / 64]?.getD []) (off % 64) 8
  else if 0x10000 ≤ off ∧ off < 0x10000 + 64 * 12 then s.readPartReg ((off - 0x10000) / 64) ((off - 0x10000) % 64)
  else if 0x11000 ≤ off ∧ off < 0x11000 + 64 * 12 then
    ofBytes ((List.range 8).map fun i => BitVec.ofNat 8 ((s.part ((off - 0x11000) / 64)).qprio.atD (off % 64 + i) 0))
  else if 0x20000 ≤ off ∧ off < 0x20800 then field (s.importEntry ((off - 0x20000) / 32)) (off % 32) 8
  else if 0x21000 ≤ off ∧ off < 0x21000 + 1058 * 32 then field (s.route ((off - 0x21000) / 32)) (off % 32) 8
  else if 0x30000 ≤ off ∧ off < 0x30000 + 256 * 64 then field (s.group ((off - 0x30000) / 256)) (off % 256) 8
  else if 0x40000 ≤ off ∧ off < 0x80000 then s.readDieReg ((off - 0x40000) / 65536) (off % 65536)
  else if 0x80000 ≤ off ∧ off < 0x140000 then s.readStackReg ((off - 0x80000) / 65536) (off % 65536)
  else 0

/-- Whether a physical address lies in the control window (R418). -/
def inControl (pa : Nat) : Bool := decide (controlBase ≤ pa) && decide (pa < controlBase + 0x1000000)

/-! ### Frame-owner table (R421) -/

/-- Granule whose frame-owner entry is the byte at `pa`, where a table has been placed (DESIGN CHOICE, log 10). -/
def State.fotGranule (s : State) (pa : Nat) : Option Nat :=
  let base := s.fotBase.toNat
  if base ≠ 0 ∧ base ≤ pa ∧ pa < base + 0xC00000 then some (pa - base) else none

/-- A control core's write of an entry: a new tenant starts the zeroing of its granule, whose cached copies go. -/
def State.fotWrite (s : State) (w : Writer) (pa v : Nat) : State :=
  match s.fotGranule pa with
  | none => s
  | some g =>
    let old := (s.mem.read pa).toNat
    let s := s.homeWrite none w pa [BitVec.ofNat 8 v]
    if v ≤ 11 ∧ v ≠ old then { s with zeroing := dedup (s.zeroing ++ [g]) } else s

/-- Whether every lease on a granule's lines, at whichever home, has run out. -/
def State.granuleFree (s : State) (g : Nat) : Bool :=
  (List.range 512).all fun i =>
    let pa := g * 65536 + i * 128
    (List.range 4).all fun h => decide (s.leaseEnd (homeSlice pa h) pa ≤ s.clock)

/-- Zeroing of a granule ends: its bytes are zero, every slice's and L1's lines of it are gone, and its accesses go on (R325,
R421). -/
def State.zeroGranule (s : State) (g : Nat) : State :=
  let drop := fun (ls : List Line) => ls.filter fun l => l.la / 512 ≠ g
  { s.markCarriages (g * 65536) 65536 with
    mem := s.mem.clear (g * 65536) 65536
    poisonLines := s.poisonLines.filter fun l => l / 512 ≠ g
    l1 := s.l1.map fun (n, ls) => (n, drop ls)
    slices := s.slices.map fun (n, x) => (n, { x with lines := x.lines.filter fun l => l.la / 512 ≠ g })
    veil := { s.veil with hidden := s.veil.hidden.filter fun h => h.scr || decide (h.at_ / 65536 ≠ g) }
    zeroing := s.zeroing.filter (· ≠ g)
    reqs := s.reqs.filterMap fun r => match r.stage with
      | .zeroing gs v =>
        let left := gs.filter (· ≠ g)
        if left ≠ [] then some { r with stage := .zeroing left v }
        else if (match r.what with | .atom _ _ _ _ => true | _ => false) then some { r with stage := .served v false } else none
      | _ => some r }

end Sys2Proof.Machine
end

