-- ==== Sys2Proof/Machine/Access.lean ====
section
/-!
DEFINITION. Machine/Access.lean: what a global access does: its target (R220, R416), the operations of R124 and R230, the
way to another device (R120-R123, R393, R403, R404, R407), and the checks shared by every memory instruction.
-/

namespace Sys2Proof.Machine

/-! ### What a write leaves and returns -/

/-- New value of a 32-bit or 64-bit atomic, none where nothing is written, and the value returned, in the registers
R231 names for ACAS and ACAS64 (R230). `op` is the minor, plus 0x20 for ATOM.A and 0x28 for ATOM.B. -/
def atomApply (op : Nat) (old d e : W64) : Option W64 × Nat :=
  let o : W32 := old.setWidth 32
  let x : W32 := d.setWidth 32
  let w := fun (v : W32) => (some (v.setWidth 64), o.toNat)
  match op with
  | 0x20 => w (o + x)
  | 0x21 => w (BitVec.ofNat 32 (fp32.add o.toNat x.toNat))
  | 0x22 => w (minS o x)
  | 0x23 => w (maxS o x)
  | 0x24 => w (minU o x)
  | 0x25 => w (maxU o x)
  | 0x26 => w (o &&& x)
  | 0x27 => w (o ||| x)
  | 0x28 => w (o ^^^ x)
  | 0x29 => w x
  | 0x2A => if o = e.setWidth 32 then (some (x.setWidth 64), o.toNat + 2 ^ 32) else (none, o.toNat)
  | 0x2B => w (o + 1)
  | 0x2C => (some (old + d), old.toNat)
  | 0x2D => if old = e then (some d, old.toNat + 2 ^ 64) else (none, old.toNat)
  | 0x2E => (some d, old.toNat)
  | 0x2F => w (halves (fun a b _ => fp16.add a b) o x 0)
  | _ => (none, 0)

/-- What a request does to the bytes it covers, as little-endian values: the new value if it writes, and the value it
returns (R124, R223, R227, R230, R231). Under spc it may fail spuriously and then returns a value of no one's (R110,
DESIGN CHOICE, log 12); `serial` is the request's. No com operations are combined: each is performed by itself (R110; DESIGN
CHOICE, log 70). -/
def What.apply (serial old : Nat) : What → Option Nat × Nat
  | .load _ | .lds _ | .ldc | .wlease _ _ | .line | .wdrop | .sfu _ | .back _ _ | .visit => (none, old)
  | .store _ d => (some d, 0)
  | .sig n lid => (some n, lid)
  | .cell _ seq v => if bits old 95 64 < seq.toNat then (some (v.toNat + 2 ^ 64 * seq.toNat), 0) else (none, 0)
  | .atom op use d e =>
    if use = .spc ∧ Config.spuriousFailure serial then (none, (Config.spuriousOld serial).toNat % 2 ^ (8 * atomBytes op))
    else ((atomApply op (BitVec.ofNat 64 old) d e).1.map BitVec.toNat, (atomApply op (BitVec.ofNat 64 old) d e).2)

/-! ### Targets -/

/-- The PTE with which a control core's physical access counts: local, every permission, home HSEC 3, lease class 0
(DEDUCED, log 14). -/
def ctlPte : W64 := 0xFFE00000000000CF

/-- The checks of R220 for an agent; a control core's addresses are physical (R416), and only it reaches the control
window (R418). -/
def State.target (s : State) (k : FKey) (acc : Acc) (va : W64) : Chk :=
  match k with
  | .ctl _ =>
    if inControl va.toNat then .ok { pa := va.toNat, dev := none, pte := ctlPte }
    else if !s.paOk va.toNat then .bad 0x10 0
    else if acc = .atomic && inHost va.toNat then .bad 0x11 3
    else .ok { pa := va.toNat, dev := none, pte := ctlPte }
  | k => s.checkGlobal k acc va

/-- Whether a DEVICE value names a multicast group (R393). -/
def isGroup (d : Nat) : Bool := decide (0x500 ≤ d) && decide (d ≤ 0x53F)

/-- The lease table entry of the region of another device that holds an address (R406, R407). -/
def regionKey (dev pa : Nat) : Nat := dev * 2 ^ 28 + pa / 65536
def State.held? (s : State) (dev pa : Nat) : Option HeldLease := s.heldLeases.at? (regionKey dev pa)

/-- Whether the holder counts its lease as standing: until EXP - 200 ns (R407). -/
def State.heldLive (s : State) (h : HeldLease) : Bool := decide (s.clock + 200 < h.exp)

/-! ### Refusals -/

/-- Enters a refusal in the core's cart-fault record; a full record, or a gang that has ended, makes it a launch error
(R123, R404). -/
def State.recordCart (s : State) (c : Nat) (e : CartFault) : State :=
  if s.liveInGang (e.block, e.gang) = [] ∨ 16 ≤ (s.core c).cartFaults.length then s.launchError (s.block e.block).lid e.cause
  else s.updCore c fun x => { x with cartFaults := x.cartFaults ++ [e] }

/-- A word of a queue entry or a load's value that does not come stops the access processor's program: the fault is recorded on T7
(R308, R311). -/
def State.queueFault (s : State) (c : Nat) (r : Req) (cause info : Nat) : State :=
  let s1 := s.recordFault c 7 { gang := r.gang, cause := cause, addr := r.va, info := BitVec.ofNat 64 (info * 2 ^ 32) ||| r.word.setWidth 64 }
  match (s1.core c).apOwner with
  | some (b, g, _, _) => if (b, g) = r.gang then s1.endAp c else s1
  | none => s1

/-- Settles a refused access of this device with a code of R392: a returned value's destination is marked, a refused
lease request answers UNREACH, the coach whose WDROP is refused finds why, anything else enters the record (R222, R404, R410). -/
def State.refuse (s : State) (r : Req) (code : Nat) : State :=
  match r.what, r.org with
  | .wlease _ _, _ => s.setReq r.id fun r => { r with stage := .served 6 false }
  | .sig _ lid, .fibre _ =>
    (s.recordCart r.core { block := r.gang.1, gang := r.gang.2, lane := r.lane, addr := r.va, code := code }).setReq r.id fun r =>
      { r with stage := .served lid false }
  | .line, .fibre k => { s.dropReq r.id with lineBuf := s.lineBuf ++ [(k, r.la, code, [])] }
  | .wdrop, _ => s.dropReq r.id
  | w, .fibre k =>
    let s := s.dropReq r.id
    match r.dst, k with
    | .queue c _ _ _, _ => s.queueFault c r 0x14 (code + 256 * r.lane)
    | .regs _, .ap c => s.queueFault c r 0x14 (code + 256 * r.lane)
    | d, _ =>
      if w.returns then s.fillDst k d 0 (some (.remote r.va (BitVec.ofNat 8 code) r.lane))
      else s.recordCart r.core { block := r.gang.1, gang := r.gang.2, lane := r.lane, addr := r.va, code := code }
  | _, _ => s.dropReq r.id

/-! ### Carts (R120-R122, R400, R403) -/

/-- Slots an element takes (R403). -/
def What.cartSlots : What → Nat
  | .cell _ _ _ => 2
  | .atom op _ _ _ => if op = 0x2D then 2 else 1
  | _ => 1

/-- Whether a remote access goes into a cart (R120, R393). -/
def Req.cartable (r : Req) : Bool :=
  decide (r.ord = .rlx) && !(isGroup (r.dev.getD 0)) &&
    match r.what with
    | .store n _ => decide (n = 4 ∨ n = 8)
    | .cell _ _ _ => true
    | .atom _ use _ _ => decide (use ∈ [.unp, .com, .nor, .qnt])
    | _ => false

/-- What a cell store does to another to the same cell that is still held (R125, R126): the other is discarded, or the
later arrival is, or both go on. -/
inductive Meet where
  | dropOld | dropNew | both
deriving DecidableEq, Repr

/-- How a cell store `new` meets an `old` one that is still held. -/
def cellMeet : What → What → Meet
  | .cell mdO so _, .cell mdN sn _ =>
    if so.toNat < sn.toNat ∧ !mdO then .dropOld
    else if sn.toNat ≤ so.toNat ∧ !mdN then .dropNew
    else .both
  | _, _ => .both

/-- Discards request `old` in favour of `new`; what was discarded in favour of `old` follows (R125, R127). -/
def State.discard (s : State) (old new : Nat) : State :=
  { s with reqs := s.reqs.map fun r =>
      if r.id = old ∨ r.stage = .discarded old then { r with stage := .discarded new } else r }

/-- The request that another one meets among those of a list of serials: a cell store to the same cell. -/
def State.meets (s : State) (ids : List Nat) (r : Req) : Option (Req × Meet) :=
  (s.reqs.filterMap fun x =>
    if x.id ∈ ids ∧ x.pa = r.pa ∧ x.dev = r.dev ∧ cellMeet x.what r.what ≠ .both then some (x, cellMeet x.what r.what) else none).head?

/-- Puts an element into the FILLING cart of its destination, or opens one; none when no cart is free (R403). A newer
cell store takes the place of an older one in the cart (R125). -/
def State.enterCart (s : State) (r : Req) : Option State :=
  let d := dieOf r.core
  let dest := r.dev.getD 0
  let n := r.what.cartSlots
  let carts := (s.die d).carts
  let open? := carts.find? fun c => decide (c.dest = dest) && !c.leaving
  let s1 := (s.l1Drop (clusterOf r.core) r.la).addReq { r with stage := .cart }
  let id := s.nextReq
  match open?.bind fun c => s.meets c.elems r with
  | some (x, .dropOld) =>
    let s2 := (s1.discard x.id id).updDie d fun y =>
      { y with carts := y.carts.map fun c => { c with elems := c.elems.map fun e => if e = x.id then id else e } }
    some s2
  | some (x, _) => some (s1.discard id x.id)
  | none =>
    let isOpen := fun (c : Cart) => decide (c.dest = dest) && !c.leaving
    let new : Cart := { dest := dest, elems := [id], slots := n, since := s.clock }
    match open? with
    | some c =>
      if c.slots + n ≤ 16 then
        some (s1.updDie d fun y =>
          let cs := y.carts.map fun c => if isOpen c then { c with elems := c.elems ++ [id], slots := c.slots + n } else c
          { y with carts := leaveCarts s.clock (fun c => decide (c.slots = 16)) cs })
      else if 128 ≤ carts.length then none
      else some (s1.updDie d fun y => { y with carts := leaveCarts s.clock isOpen y.carts ++ [new] })
    | none => if 128 ≤ carts.length then none else some (s1.updDie d fun y => { y with carts := y.carts ++ [new] })

/-- Requests of a core to one line of another device that are still on their way in or behind a cart. -/
def State.cartBound (s : State) (r : Req) : List Req :=
  s.reqs.filter fun x => decide (x.core = r.core) && decide (x.dev = r.dev) && decide (x.pa / 128 = r.pa / 128) &&
    (match x.stage with | .cart | .sent | .discarded _ => true | _ => false)

/-- Sends an access that bypasses carts: carts with an element of its core for the line leave first, and for an ordered
atomic every cart of its destination (R121, R122, R400). -/
def State.sendDirect (s : State) (r : Req) : State :=
  let d := dieOf r.core
  let ordered := (match r.what with | .atom _ _ _ _ => true | _ => false) && decide (r.ord ≠ .rlx)
  let first := s.cartBound r
  let s := s.flushCarts d fun x => decide (x.dev = r.dev) && (ordered || (decide (x.core = r.core) && decide (x.pa / 128 = r.pa / 128)))
  let s := if r.what.writes then s.l1Drop (clusterOf r.core) r.la else s
  (s.packet (r.dev.getD 0) [s.nextReq]).addReq { r with stage := .remote, sentAt := s.clock, deps := dedup (r.deps ++ first.map Req.id) }

/-! ### Held regions (R407) -/

/-- Performs an access to a held region on the holder's copy of a line it has (R407). -/
def State.heldPerform (s : State) (r : Req) (key : Nat) (h : HeldLease) : State :=
  let (new, ret) := r.what.apply r.id (h.data.get r.pa r.what.bytes)
  let s := s.setReq r.id fun r => { r with stage := .served ret false }
  match new with
  | none => s
  | some v =>
    let by_ := match r.org with | .fibre k => h.cause.put (r.pa / 128) (k, r.va) | _ => h.cause
    let h2 := { h with data := h.data.put r.pa r.what.bytes v, dirty := dedup (h.dirty ++ [r.pa / 128]), cause := by_ }
    { s with heldLeases := s.heldLeases.put key h2 }

/-- Ends a request that gives nothing back once it has been performed. -/
def State.settleWrite (s : State) (id : Nat) : State :=
  match s.reqs.find? (·.id = id) with
  | some r => if r.what.returns then s else match r.stage with | .served _ _ => s.dropReq id | _ => s
  | none => s

/-- Bytes of a held region go back to their home under its generation, for the fibre that wrote them (R407). -/
def State.sendBack (s : State) (k : FKey) (va : W64) (pa : Nat) (h : HeldLease) (cells : List (Nat × Byte)) : State :=
  (s.packet h.dev [s.nextReq]).addReq
    { id := 0, org := .fibre k, core := s.coreOf k, gang := s.gangOf k, lane := s.laneOf k, part := s.partOf k, va := va, pa := pa
      dev := some h.dev, what := .back h.gen cells, stage := .remote, sentAt := s.clock }

/-- The holder writes a dirty line of a region back, at any time (R407). -/
def State.writeLineBack (s : State) (key line : Nat) : Option State :=
  match s.heldLeases.at? key with
  | some h => match h.cause.at? line with
    | some (k, va) =>
      if h.dirty.contains line && s.heldLive h && !s.unreachable h.dev && decide (s.unacked h.dev < 1024) then
        let h2 := { h with dirty := h.dirty.filter (· ≠ line) }
        some (({ s with heldLeases := s.heldLeases.put key h2 } : State).sendBack k va (line * 128) h
          ((List.range 128).map fun i => (line * 128 + i, h.data.read (line * 128 + i))))
      else none
    | none => none
  | none => none

/-- Issues an access to a held region: on the copy where the line is present, otherwise behind its fetch, for which the flow must
have room (R398). -/
def State.issueHeld (s : State) (r : Req) (h : HeldLease) : Option State :=
  let id := s.nextReq
  let s1 := s.addReq { r with stage := .remote, sentAt := s.clock, held := true }
  if r.pa / 128 ∈ h.present then some ((s1.heldPerform { r with id := id } (regionKey (r.dev.getD 0) r.pa) h).settleWrite id)
  else if 1024 ≤ s.unacked (r.dev.getD 0) then none
  else some (s1.packet (r.dev.getD 0) [id])

/-! ### Multicast (R402) -/

/-- Issues a store to a multicast group: one packet goes to the members that are reached, and a copy of the issuing device's own is
served here like an access to its own id, with no packet and no import check (R391, R402; DESIGN CHOICE, log 81). None where the
flow to the group has no room (R398). -/
def State.issueGroup (s : State) (r : Req) (d : Nat) : Option State :=
  let ms := s.groupMembers (d - 0x500)
  let away := ms.filter (· ≠ s.devId)
  let bad := (away.filter fun m => s.unreachable m).head?
  let there := away.filter fun m => !s.unreachable m
  let here := ms.contains s.devId
  let id := s.nextReq
  let s1 := (s.l1Drop (clusterOf r.core) r.la).addReq
    { r with stage := .remote, sentAt := s.clock, members := ms.filter (fun m => !s.unreachable m || decide (m = s.devId)), refused := bad.map fun m => (m, 0x40) }
  let s2 := if there = [] then s1 else s1.packetIn d 0 [id]
  let own : Req := { r with copy := some id, dev := none, dst := .none, slice := if r.uc && inDram r.pa then controllerOf r.pa else homeSlice r.pa r.hsec }
  let s3 := if here then s2.addReq own else s2
  if there ≠ [] ∧ 1024 ≤ (s.flows.atD (d, 0) {}).unacked.length then none
  else if there = [] ∧ !here then some (match bad with | some _ => s3.refuse { r with id := id } 0x40 | none => s3.dropReq id)
  else some s3

/-! ### Issue -/

/-- Issues an access to its target; none where it must wait for a cart, or for an acknowledgement of its flow (R120, R225, R391,
R393, R395, R398). -/
def State.place (s : State) (r : Req) : Option State :=
  match r.dev with
  | none => some (if r.what.writes then s.startWrite r else s.startRead r)
  | some d =>
    let s := s.noteAbroad r
    if isGroup d then s.issueGroup r d
    else match s.held? d r.pa with
      | some h => s.issueHeld r h
      | none =>
        if s.unreachable d then some ((s.addReq r).refuse { r with id := s.nextReq } 0x40)
        else if r.cartable then s.enterCart r
        else match if r.what.writes then none else s.leasedLine r with
          | some (l, ins) => some ((s.addReq r).serveLine { r with id := s.nextReq, since := s.clock } l ins)
          | none => if 1024 ≤ s.unacked d then none else some (s.sendDirect r)

/-! ### Checks -/

/-- Whether an element of the core, or a remote write or write-back of the fibre, still lacks its status (R121, R123, R407). A
control core is no core of a cart (R416). -/
def State.fabPending (s : State) : FKey → Bool
  | .ctl _ => false
  | k => s.reqs.any fun r => r.dev.isSome && (match r.stage with
    | .cart | .sent | .discarded _ => decide (r.core = s.coreOf k)
    | .remote => decide (r.org = .fibre k) && (r.what.writes || (match r.what with | .back _ _ => true | _ => false))
    | _ => false)

/-- The recorded refusal a fibre reports: its own, or one of a fibre of its gang that has ended (R123); a control core reports none
(R416). -/
def State.reportable (s : State) (k : FKey) (i : Instr) : Option CartFault :=
  if (match k with | .ctl _ => true | _ => false) then none
  else (s.core (s.coreOf k)).cartFaults.find? fun e => decide ((e.block, e.gang) = s.gangOf k) &&
    (decide (e.lane = s.laneOf k) || s.firstOfGang k i && decide ((s.fib (.fib e.block (e.gang * 32 + e.lane))).status ≠ .live))

/-- Reports a recorded refusal as REMOTE_ELEM, if there is one (R123). -/
def State.reportCheck (s : State) (k : FKey) (i : Instr) : Verdict :=
  match s.reportable k i with
  | some e => .report (s.trapOf k i e.cause e.addr (e.code + 256 * e.lane)) e
  | none => .go

/-- A release at fabric scope first flushes the carts and waits, then reports (R121, R123). -/
def State.fabCheck (s : State) (k : FKey) (i : Instr) (ord : Order) (sc : Scope) : Verdict :=
  if !fabRelease ord sc then .go
  else if s.fabPending k then .flush (s.coreOf k)
  else s.reportCheck k i

/-- Whether a table that a fibre loads, and whose segments are not read yet, overlaps the 32 bytes from a target up: its part in one
page is at one target, at most two pages hold it (R208). -/
def State.tableReads (s : State) (k : FKey) (t : Target) : Bool :=
  (s.core (s.coreOf k)).tables.any fun x => [x.2.bank0, x.2.bank1].any fun b =>
    decide (b.state = .loading ∧ b.fibre = some k) &&
      (let first := min 4160 (65536 - b.addr % 65536)
       [(b.addr, first), (b.addr + first, 4160 - first)].any fun (a, n) => match s.checkGlobal k .load (BitVec.ofNat 64 a) with
        | .ok u => decide (0 < n ∧ u.dev = t.dev ∧ u.pa < t.pa + 32 ∧ t.pa < u.pa + n)
        | _ => false)

/-- What a checked target asks of the access: room in the write-pending list and in the home's queues; a standing lease, and no
earlier access of its core to the line outstanding, in a held region; for a write, that no table the fibre loads still reads the
bytes (R99, R208, R279, R286, R407). `pre` is the state after the accesses of the members before it. -/
def State.targetWait (s pre : State) (k : FKey) (i : Instr) (va : W64) (writes : Bool) (t : Target) : Verdict :=
  let cl := clusterOf (s.coreOf k)
  let la := (t.dev.elim 0 fun d => (d + 1) * 2 ^ 37) + t.pa / 128
  if writes && decide (256 ≤ pre.writePendingCount cl) && !pre.writePending cl la then .stall
  else if t.dev.isNone && !(pteUc t.pte) && s.spillFull (homeSlice t.pa (pteHsec t.pte)) then .stall
  else if writes && s.tableReads k t then .stall
  else match t.dev.bind fun d => s.held? d t.pa with
    | none => .go
    | some h =>
      if !s.heldLive h then .trap (s.trapOf k i 0x15 va)
      else if s.reqs.any fun r => decide (r.what = .wdrop) && decide (r.dev = t.dev) && decide (r.pa / 65536 = t.pa / 65536) then .stall
      else if s.reqs.any fun r => decide (r.core = s.coreOf k) && decide (r.la = la) &&
        (match r.stage with | .served _ _ => false | _ => true) then .stall
      else .go

/-- The checks of a global access of one live member (R220), its waits (R104, R121, R279, R407), and a cart for it
(R120). `one` issues one member's access and is folded over the members up to this one; `cart` says whether this one is
cart-eligible. A control core has neither carts nor a place in a cluster (R416). -/
def State.memCheck (s : State) (k : FKey) (i : Instr) (acc : Acc) (ord : Order) (sc : Scope) (va : W64) (al n : Nat) (cart : Bool)
    (one : State → FKey → Option State) : Verdict :=
  let window : Bool := match k with | .ctl _ => inControl va.toNat | _ => false
  if va.toNat % al ≠ 0 ∨ (window ∧ (n ≠ 8 ∨ va.toNat % 8 ≠ 0)) then
    .trap (s.trapOf k i (if acc = .ldc ∨ acc = .cellStore then 0x16 else 0x12) va)
  else match s.target k acc va with
    | .miss => .miss va
    | .bad c r => s.faultVerdict k i va c r
    | .ok t =>
      if (match k with | .ctl _ => true | _ => false) then
        (if !inControl t.pa && s.spillFull (homeSlice t.pa (pteHsec t.pte)) then .stall else .go)
      else if s.acqPending k then .stall
      else match s.fabCheck k i ord sc with
        | .go =>
          let upTo := ((s.members.getD []).takeWhile fun m => decide (m ≠ k)).filter fun m => !s.isHelper m
          let crowded := acc.writes && decide (256 < s.writePendingCount (clusterOf (s.coreOf k)) + upTo.length + 1)
          let pre := if crowded then (upTo.foldlM one s).getD s else s
          match s.targetWait pre k i va acc.writes t with
          | .go =>
            if t.dev.isNone then .go
            else match (upTo ++ [k]).foldlM one s with
              | some _ => .go
              | none => if cart && (t.dev.bind fun d => s.held? d t.pa).isNone then .cart (dieOf (s.coreOf k)) (t.dev.getD 0) else .stall
          | v => v
        | v => v

/-- The value of a 64-bit or wider data slot, registers from the lowest up. -/
def State.dataOf (s : State) (k : FKey) (t : Slot) : Nat :=
  match t.reg, t.kind with
  | .v _, .grp _ _ => ofBytes (t.fields.flatMap fun n => toBytes 4 (s.vcell k n).val.toNat)
  | r, _ => if t.wide then (s.src64 k r).toNat else (s.src32 k r).toNat

/-- Zeroes a destination of a helper (R249). -/
def State.zeroDst (s : State) (k : FKey) (t : Slot) : State := t.fields.foldl (fun s n => s.setV k n 0) s

/-- Whether a member is the lowest live one of its gang in the word: an s register keeps its value (R77, R232). -/
def State.firstLive (s : State) (ks : List FKey) (k : FKey) : Bool :=
  decide ((ks.find? fun m => !s.isHelper m && decide (s.gangOf m = s.gangOf k)) = some k)

/-- The destination of one member's access; of several that name one s register, only the lowest member's stands
(R77). -/
def State.memDst (s : State) (ks : List FKey) (k : FKey) (t : Slot) : Dst :=
  match t.reg with
  | .s _ => if s.firstLive ks k then s.dstOf k t else .none
  | _ => s.dstOf k t

/-- Writes a 32-bit destination of a word whose members act one after the other; an s register keeps the value of its
gang's lowest member (R77). -/
def State.putOnce (s : State) (k : FKey) (d : Reg) (v : W32) : State :=
  match d with
  | .s _ => if decide (s.lead k = k) then s.wr k (.reg d v) else s
  | _ => s.wr k (.reg d v)

/-- As `putOnce`, 64 bits. -/
def State.putOnce64 (s : State) (k : FKey) (d : Reg) (v : W64) : State :=
  match d with
  | .s _ => if decide (s.lead k = k) then s.wr k (.wide d v) else s
  | _ => s.wr k (.wide d v)

/-- A remote write, a cell store: what makes a rollback-capable launch non-recoverable (R264). -/
def State.noteRecovery (s : State) (k : FKey) (w : What) (dev : Option Nat) : State :=
  match k, w with
  | .ctl _, _ => s
  | k, .cell _ _ _ => s.nonRecoverable (s.blockOf k).lid .cell
  | k, w => if w.writes && dev.isSome then s.nonRecoverable (s.blockOf k).lid .remote else s

end Sys2Proof.Machine
end

