-- ==== Sys2Proof/Machine/LoadStore.lean ====
section
/-!
DEFINITION. Machine/LoadStore.lean: LD, ST, LDS, STS, CELL and PF (R223-R228, R247).
-/

namespace Sys2Proof.Machine

/-- What R220 checks a request as. -/
def What.acc : What → Acc
  | .load _ | .lds _ => .load
  | .ldc => .ldc
  | .store _ _ | .sig _ _ => .store
  | .cell _ _ _ => .cellStore
  | .atom _ _ _ _ => .atomic
  | .wlease _ _ | .wdrop | .back _ _ => .store
  | .line | .sfu _ | .visit => .load

/-- A global access word as its fields give it: address register, order, scope, hint, the destination slot, and what
each member asks for. -/
structure GAcc where
  a : Reg
  ord : Order
  sc : Scope
  ch : Hint := .normal
  dst : Option Slot := none
  al : Nat
  n : Nat

/-- What R220 checks it as; a load with `.nol1` is served by the home (R224). -/
def GAcc.acc (g : GAcc) (w : What) : Acc := if g.ch = .nol1 ∧ w.acc = .load then .homeLoad else w.acc

/-- The request of one member whose address has passed its checks. -/
def GAcc.req (g : GAcc) (i : Instr) (what : State → FKey → What) (s : State) (ks : List FKey) (k : FKey) : Option Req :=
  let va := s.src64 k g.a
  let w := what s k
  match s.target k (g.acc w) va with
  | .ok t => some (s.mkReq k i va t g.ch w g.ord g.sc ((g.dst.map fun d => s.memDst ks k d).getD .none))
  | _ => none

/-- Issues one member's access; none where it must wait for a cart. -/
def GAcc.one (g : GAcc) (i : Instr) (what : State → FKey → What) (s : State) (k : FKey) : Option State :=
  match g.req i what s (s.members.getD []) k with
  | some r => s.place r
  | none => some s

/-- A control core's access to the control window: read or written with the instruction (R418). The value read fills the
destination as any load's does. -/
def State.windowAccess (s : State) (r : Req) : State :=
  let off := r.pa - controlBase
  let (new, ret) := r.what.apply s.nextReq (s.windowRead off)
  let s1 : State := match new with
    | some v => s.windowWrite off v
    | none => s
  if r.what.returns then s1.addReq { r with stage := .served ret false } else s1

/-- Issues an access of an agent: a control core's accesses to the control window act with the instruction. -/
def State.issueReq (s : State) (k : FKey) (r : Req) : State :=
  match k with
  | .ctl _ => if inControl r.pa then s.windowAccess r else (s.place r).getD s
  | _ => (s.place r).getD s

/-- A release store together with those of the word's other members to its location: each of them covers what all of them
have issued (R104, R271; DEDUCED, log 78). -/
def Req.together (l : List (FKey × Req)) (r : Req) : Req :=
  match r.what with
  | .store _ _ =>
    if r.writer.rel.isNone then r
    else
      let o := l.filter fun x => decide (x.2.pa = r.pa ∧ x.2.dev = r.dev ∧ x.2.org ≠ r.org)
      { r with deps := r.deps ++ o.flatMap (·.2.deps), mates := o.map (·.1) }
  | _ => r

/-- A global access word: every live member's access is checked, then issued in ascending order (R220, R232). A register
destination is empty until the value returns (R80); a helper's reads zero or, for an atomic, stands (R249). -/
def access (i : Instr) (g : GAcc) (what : State → FKey → What) (zero : Bool) (s : State) : Out :=
  issue i s
    (fun s k =>
      let w := what s k
      s.memCheck k i (g.acc w) g.ord g.sc (s.src64 k g.a) g.al g.n (((g.req i what s [] k).map Req.cartable).getD false) (GAcc.one g i what))
    fun s ks =>
      let reqs := ks.filterMap fun k => if s.isHelper k then none else (g.req i what s ks k).map fun r => (k, r)
      let s : State := match g.dst with
        | none => s
        | some d => ks.foldl (fun s k =>
            if s.isHelper k then (if zero then s.zeroDst k d else s) else s.markEmpty k d) s
      reqs.foldl (fun s (k, r) => (s.noteRecovery k r.what r.dev).issueReq k (r.together reqs)) s

/-- LD (R223, R224). -/
def execLd (o : LdOp) (s : State) : Out :=
  access (.ld o)
    { a := o.a, ord := o.ord, sc := o.sc, ch := o.ch, dst := some (wrSlot o.w.kind o.d), al := o.w.bytes, n := o.w.bytes }
    (fun _ _ => .load o.w) true s

/-- ST: D is read at issue (R223, R224). -/
def execSt (o : StOp) (s : State) : Out :=
  access (.st o) { a := o.a, ord := o.ord, sc := o.sc, ch := o.ch, al := o.w.bytes, n := o.w.bytes }
    (fun s k => .store o.w.bytes (s.dataOf k (rdSlot o.w.kind o.d) % 2 ^ (8 * o.w.bytes))) false s

/-- LDC (R227). -/
def execLdc (o : MOp) (s : State) : Out :=
  access (.ldc o) { a := o.a, ord := o.ord, sc := o.sc, dst := some (wrSlot (.grp 4 4) o.d), al := 16, n := 16 }
    (fun _ _ => .ldc) true s

/-- VALUE vN+1:vN and SEQ vN+2 of a cell store (R227). -/
def cellOf (md : Bool) (d : Reg) (s : State) (k : FKey) : What :=
  let v := s.dataOf k (rdSlot (.grp 4 4) d)
  .cell md (BitVec.ofNat 32 (bits v 95 64)) (BitVec.ofNat 64 v)

/-- STC (R124-R127, R227). -/
def execStc (o : MOp) (s : State) : Out :=
  access (.stc o) { a := o.a, ord := o.ord, sc := o.sc, al := 16, n := 16 } (cellOf false o.d) false s

/-- STC.MD is never discarded (R126, R227). -/
def execStcMd (o : MOp) (s : State) : Out :=
  access (.stcMd o) { a := o.a, ord := o.ord, sc := o.sc, al := 16, n := 16 } (cellOf true o.d) false s

/-! ### Scratchpad (R151, R226) -/

/-- The fibre's matrix operations have still to read or update its scratchpad (R118). -/
def State.mxPending (s : State) (k : FKey) : Bool := (s.core (s.coreOf k)).mxOps.any fun o => o.by_ k

/-- The checks of a scratchpad access (R151, R220, R221) and its waits (R104, R118). -/
def State.scratchCheck (s : State) (k : FKey) (i : Instr) (a : Reg) (al : Nat) (wait : Bool) : Verdict :=
  let x := (s.src32 k a).toNat
  if x % al ≠ 0 then .trap (s.trapOf k i 0x12 (BitVec.ofNat 64 x))
  else match s.scratchAddr (s.gangOf k).1 x with
    | .error r => .trap (s.trapOf k i 0x13 (BitVec.ofNat 64 x) r)
    | .ok _ => if wait then .stall else .go

/-- A scratchpad word waits for an acquire, and for the matrix operations the fibre has issued before; a release waits
for everything it has issued (R104, R118). -/
def State.scratchWaits (s : State) (k : FKey) (ord : Order) : Bool :=
  s.acqPending k || s.mxPending k || (decide (ord = .rel ∨ ord = .ar) && decide (s.outstanding k ≠ []))

/-- The block and offset a checked scratchpad address names. -/
def State.scratchAt (s : State) (k : FKey) (a : Reg) : Nat × Nat :=
  match s.scratchAddr (s.gangOf k).1 (s.src32 k a).toNat with
  | .ok x => x
  | .error _ => (0, 0)

/-- The next request is a relaxed load of a range of an allocation, which may still take a later value (R102, R105). -/
def State.noteLate (s : State) (k : FKey) (ord : Order) (b off n : Nat) : State :=
  if !s.veil.on || decide (ord ≠ .rlx) then s
  else { s with veil := { s.veil with late :=
    { req := s.nextReq, who := .agent k, cells := (scratchPieces n off n).map fun (o, m) => (s.scratchKey b o, m) } :: s.veil.late } }

/-- LDS reads at issue; D is empty until the value is written; a poisoned word marks it (R223, R226, R278). -/
def execLds (o : LdsOp) (s : State) : Out :=
  issue (.lds o) s (fun s k => s.scratchCheck k (.lds o) o.a o.w.bytes (s.scratchWaits k o.ord)) fun s ks =>
    let d := wrSlot o.w.kind o.d
    let reqs := ks.filterMap fun k =>
      if s.isHelper k then none
      else
        let (b, off) := s.scratchAt k o.a
        let v := ofBytes (s.scratchSeen (.agent k) b off o.w.bytes)
        let r : Req :=
          { id := 0, org := .fibre k, core := s.coreOf k, gang := s.gangOf k, lane := s.laneOf k, part := s.partOf k
            va := (s.src32 k o.a).setWidth 64, pa := 0, what := .lds o.w, ord := o.ord, sc := o.sc
            dst := s.memDst ks k d, word := (Instr.lds o).word, slice := 1001
            stage := .served v (s.scratchPoisoned b off o.w.bytes) }
        some (k, b, off, r)
    let s : State := ks.foldl (fun s k => if s.isHelper k then s.zeroDst k d else s.markEmpty k d) s
    reqs.foldl (fun s (k, b, off, r) =>
      (((s.taintDst k r.dst (s.scratchFrom (.agent k) b off o.w.bytes)).scratchRead (.agent k) b off o.w.bytes r.acq).noteLate k o.ord b off o.w.bytes).addReq r) s

/-- A relaxed load of a scratchpad takes its value later than its word: nothing its fibre does to those bytes has come between (R99,
R102, R105). -/
def State.takeLate (s : State) (id : Nat) : Option State :=
  match s.veil.late.find? (fun (x : Late) => x.req = id), s.reqs.find? (·.id = id) with
  | some _, some r => match r.what, r.org with
    | .lds w, .fibre k => match s.scratchAddr (s.gangOf k).1 r.va.toNat with
      | .ok (b, off) =>
        let v := ofBytes (s.scratchSeen (.agent k) b off w.bytes)
        some (((s.taintDst k r.dst (s.scratchFrom (.agent k) b off w.bytes)).scratchRead (.agent k) b off w.bytes none).setReq id fun r =>
          { r with stage := .served v (s.scratchPoisoned b off w.bytes) })
      | .error _ => none
    | _, _ => none
  | _, _ => none

/-- STS; of members that write one byte the highest gang-lane's value stands (R99, R226). -/
def execSts (o : StsOp) (s : State) : Out :=
  issue (.sts o) s (fun s k => s.scratchCheck k (.sts o) o.a o.w.bytes (s.scratchWaits k o.ord)) fun s ks =>
    s.onLive ks fun s k =>
      let (b, off) := s.scratchAt k o.a
      s.scratchWrite { who := .agent k, rel := if o.ord = .rel then some o.sc else none } b off (toBytes o.w.bytes (s.dataOf k (rdSlot o.w.kind o.d)))

/-! ### Prefetch (R247) -/

/-- A prefetch waits for its walk, and for room in its home's spill queue; its walk may end in no translation (R276, R286). -/
def pfCheck (a : Reg) (s : State) (k : FKey) : Verdict :=
  match s.checkGlobal k .load (s.src64 k a) with
  | .miss => .miss (s.src64 k a)
  | .ok t => if t.dev.isNone && !(pteUc t.pte) && s.visitBarred [(homeSlice t.pa (pteHsec t.pte), t.pa / 128)] then .stall else .go
  | .bad _ _ => .go

/-- One member's prefetch: dropped where it would fault or names another device. The line comes into its home slice; PF.L1 takes
it into the L1 with a lease, PF.L2 into a remote-sector copy where a read would; no lease is granted where a read's would not be
(R224, R247, R279, R281, R285). -/
def State.prefetch (s : State) (k : FKey) (i : Instr) (l1 : Bool) (ch : Hint) (va : W64) : State :=
  let core := s.coreOf k
  match s.checkGlobal k .load va with
  | .ok t =>
    if t.dev.isSome || pteUc t.pte then s
    else
      let r := { s.mkReq k i va t ch (.load .b32) .rlx .fib .none with id := s.nextReq }
      let la := t.pa / 128
      let s1 := if inDram t.pa then s.visitLine r.caller r.home la r.strm else s
      if r.lcls = 0 ∨ r.noAlloc ∨ s.writeWaits r.line ∨ s.writePending (clusterOf core) la ∨ s.leaseBarred la ∨ s.memPoisoned (la * 128) 128 then s1
      else if l1 then s1.serveLease r
      else if inDram t.pa ∧ 2 ≤ r.pcls ∧ sectorOfSlice r.home ≠ sectorOf core then
        let exp := s.clock + leaseNs r.lcls
        (s1.grantLease r.home la exp).allocate (sectorOf core * 16 + nibbleXor la) la r.strm
          (some { la := la, data := s.mem.bytes (la * 128) 128, exp := exp, serial := s.nextReq, home := r.home, mark := s.veil.next })
      else s1
  | _ => s

def execPf (i : Instr) (l1 : Bool) (o : PfOp) (s : State) : Out :=
  issue i s (pfCheck o.a) fun s ks =>
    let s1 := s.onLive ks fun s k => s.prefetch k i l1 o.ch (s.src64 k o.a)
    ks.foldl (fun s k => s.leaveMiss k) s1

def execPfL1 (o : PfOp) (s : State) : Out := execPf (.pfL1 o) true o s
def execPfL2 (o : PfOp) (s : State) : Out := execPf (.pfL2 o) false o s

end Sys2Proof.Machine
end

