-- ==== Sys2Proof/Machine/Atomics.lean ====
section
/-!
DEFINITION. Machine/Atomics.lean: ATOM.A and ATOM.B (R229-R232).
-/

namespace Sys2Proof.Machine

/-- An atomic of operation `op` whose D slot has kind `kd`: `what` is each member's operand as read at issue. With com D is
only read; otherwise it is empty until the old value returns (R229). -/
def atomic (i : Instr) (o : AtomOp) (op : Nat) (kd : SlotKind) (what : State → FKey → What) (s : State) : Out :=
  access i
    { a := o.a, ord := o.ord, sc := o.sc, dst := if o.use = .com then none else some (wrSlot kd o.d)
      al := atomBytes op, n := atomBytes op } what false s

/-- Operand d of a 32-bit atomic, or of a 64-bit one (R230). -/
def atom32 (op : Nat) (o : AtomOp) (s : State) (k : FKey) : What := .atom op o.use ((s.src32 k o.d).setWidth 64) 0
def atom64 (op : Nat) (o : AtomOp) (s : State) (k : FKey) : What := .atom op o.use (s.src64 k o.d) 0

def execAadd (o : AtomOp) (s : State) : Out := atomic (.aadd o) o 0x20 .vs (atom32 0x20 o) s
def execAfadd (o : AtomOp) (s : State) : Out := atomic (.afadd o) o 0x21 .vs (atom32 0x21 o) s
def execAmin (o : AtomOp) (s : State) : Out := atomic (.amin o) o 0x22 .vs (atom32 0x22 o) s
def execAmax (o : AtomOp) (s : State) : Out := atomic (.amax o) o 0x23 .vs (atom32 0x23 o) s
def execAminn (o : AtomOp) (s : State) : Out := atomic (.aminn o) o 0x24 .vs (atom32 0x24 o) s
def execAmaxn (o : AtomOp) (s : State) : Out := atomic (.amaxn o) o 0x25 .vs (atom32 0x25 o) s
def execAand (o : AtomOp) (s : State) : Out := atomic (.aand o) o 0x26 .vs (atom32 0x26 o) s
def execAor (o : AtomOp) (s : State) : Out := atomic (.aor o) o 0x27 .vs (atom32 0x27 o) s
def execAxor (o : AtomOp) (s : State) : Out := atomic (.axor o) o 0x28 .vs (atom32 0x28 o) s
def execAxch (o : AtomOp) (s : State) : Out := atomic (.axch o) o 0x29 .vs (atom32 0x29 o) s
/-- ACAS: expected value vN, new value vN+1 (R231). -/
def execAcas (o : AtomOp) (s : State) : Out := atomic (.acas o) o 0x2A .x 
    (fun s k => .atom 0x2A o.use (s.src64 k o.d >>> 32) ((s.src64 k o.d).setWidth 32 |>.setWidth 64)) s
def execAinc (o : AtomOp) (s : State) : Out := atomic (.ainc o) o 0x2B .vs (fun _ _ => .atom 0x2B o.use 0 0) s
def execAadd64 (o : AtomOp) (s : State) : Out := atomic (.aadd64 o) o 0x2C .xs (atom64 0x2C o) s
/-- ACAS64: expected value vN+1:vN, new value vN+3:vN+2 (R231). -/
def execAcas64 (o : AtomOp) (s : State) : Out := atomic (.acas64 o) o 0x2D (.grp 4 4) 
    (fun s k => let v := s.dataOf k (rdSlot (.grp 4 4) o.d)
      .atom 0x2D o.use (BitVec.ofNat 64 (v / 2 ^ 64)) (BitVec.ofNat 64 v)) s
def execAxch64 (o : AtomOp) (s : State) : Out := atomic (.axch64 o) o 0x2E .xs (atom64 0x2E o) s
def execAhadd (o : AtomOp) (s : State) : Out := atomic (.ahadd o) o 0x2F .vs (atom32 0x2F o) s

end Sys2Proof.Machine
end

