-- ==== Sys2Proof/Machine/Sync.lean ====
section
/-!
DEFINITION. Machine/Sync.lean: SYNC (R233-R238) and WAIT (R239-R243).
-/

namespace Sys2Proof.Machine

/-- What a fence waits for: with rel or ar, everything the fibre has issued; with acq alone, what returns a value, and
the reads of its matrix operations and of the tables it loads (R104, R107, R118, R127, R208). -/
def State.fencePending (s : State) (k : FKey) (ord : Order) : Bool :=
  if ord = .acq then (s.ownReqs k).any (fun r => r.what.returns) || s.mxPending k || decide (s.ownTables k ≠ [])
  else decide (s.outstanding k ≠ [])

/-- Fibres whose earlier accesses an acquiring fence at quad or gang scope waits for as well: those that may have taken
part in a cross-fibre instruction with the fibre, though they have ended since (R106). -/
def State.fencePeers (_ : State) (k : FKey) (ord : Order) (sc : Scope) : List FKey :=
  match k with
  | .fib b n =>
    if ord = .rel then []
    else match sc with
      | .gang => (List.range 32).map fun l => .fib b (n / 32 * 32 + l)
      | .quad => (List.range 4).map fun l => .fib b (n / 4 * 4 + l)
      | _ => []
  | _ => []

/-- FENCE: the flush and report of a fabric-scope release, then the waits (R107, R121, R123, R233). -/
def fenceCheck (o : SyncOp) (s : State) (k : FKey) : Verdict :=
  let i := Instr.fence o
  if fabRelease o.ord o.sc && s.fabPending k then .flush (s.coreOf k)
  else if s.acqPending k || s.fencePending k o.ord || (s.fencePeers k o.ord o.sc).any fun m => decide (s.outstanding m ≠ []) then .stall
  else if fabRelease o.ord o.sc then s.reportCheck k i
  else .go

def execFence (o : SyncOp) (s : State) : Out :=
  issue (.fence o) s (fenceCheck o) fun s ks => s.onLive ks fun s k =>
    let s := s.noteFence (.agent k) o.ord o.sc
    match k with
    | .ctl _ => s
    | _ => if o.ord ≠ .rel ∧ Scope.wide o.sc then s.l1Clear (clusterOf (s.coreOf k)) else s

/-- CFLUSH: carts with an element of the core leave, it waits for their statuses, then reports (R234). -/
def execCflush (s : State) : Out :=
  issue .cflush s (fun s k => if s.fabPending k then .flush (s.coreOf k) else s.reportCheck k .cflush) fun s _ => s

/-- BAR: an ar fence, and the rendezvous of its scope's live fibres (R108, R159, R235). -/
def execBar (o : SyncOp) (s : State) : Out :=
  issue (.bar o) s (fun s k => if s.acqPending k || decide (s.outstanding k ≠ []) then .stall else .go)
    (fun s ks => s.onLive ks fun s k => s.updFib k fun f => { f with wait := .bar (decide (o.sc = .clu)) })
    (fun s k => (s.fib k).pc)
    fun s ks => (State.blocksOf ks).foldl (fun s b => s.barCheck b) s

/-- The checks and waits of an arrival update: an arrival word is 16-aligned; a release waits for everything the fibre
has issued, a relaxed update for no more than an acquire (R117, R118, R220, R236). -/
def arriveCheck (i : Instr) (o : MOp) (s : State) (k : FKey) : Verdict :=
  s.scratchCheck k i o.a 16 (s.acqPending k || (decide (o.ord = .rel) && decide (s.outstanding k ≠ [])))

/-- The arrival update (dc, dt, bk) of one member (R116, R236). -/
def State.arriveOne (s : State) (k : FKey) (o : MOp) (bk : Bool) : State :=
  let (b, off) := s.scratchAt k o.a
  let d := (s.src32 k o.d).toNat
  let rel := if o.ord = .rel then some o.sc else none
  if bk then s.arrival (.agent k) rel b off 0 d true else s.arrival (.agent k) rel b off d 0 false

def execArrive (o : MOp) (s : State) : Out :=
  issue (.arrive o) s (arriveCheck (.arrive o) o) fun s ks => s.onLive ks fun s k => s.arriveOne k o false
def execArriveBk (o : MOp) (s : State) : Out :=
  issue (.arriveBk o) s (arriveCheck (.arriveBk o) o) fun s ks => s.onLive ks fun s k => s.arriveOne k o true

/-- RFENCE empties the core's record cache (R237). -/
def execRfence (s : State) : Out :=
  issue .rfence s noCheck fun s ks => s.onLive ks fun s k => s.updCore (s.coreOf k) fun c => { c with recCache := [] }

/-- An agent reads nothing older any more than what the homes hold now (R238). -/
def State.sawHomes (s : State) (p : Party) : State :=
  { s with veil := s.veil.observe p ((s.veil.hidden.filter fun h => !h.scr).map Hidden.id) }

/-- INVL1 drops the leased copies of the cluster's L1, and no line that was read at its home before answers the fibre's later
reads, nor does the home with an older write (R238). -/
def execInvl1 (s : State) : Out :=
  issue .invl1 s noCheck fun s ks =>
    s.onLive ks fun s k => { ((s.l1Clear (clusterOf (s.coreOf k))).sawHomes (.agent k)).updFib k (fun f => { f with fresh := s.nextReq + 1 }) with nextReq := s.nextReq + 1 }

/-! ### Try-waits -/

/-- Whether the condition of a try-wait holds: the phase differs from the parity, the context has reached the value, the
word has reached the value (R240-R242). -/
def State.waitHolds (s : State) (k : FKey) : Wait → Bool
  | .twph _ key parity _ _ => (s.scratch.read (key + 11)).msb != parity
  | .twtl _ t n _ _ _ => decide (n.toNat ≤ (s.ctx (s.coreOf k) t).value)
  | .twge _ key v _ _ => decide (v.toNat ≤ s.scratch.get key 4)
  | _ => false

/-- The predicate a try-wait names. -/
def Wait.twPred : Wait → Option Pred
  | .twph p _ _ _ _ | .twtl p _ _ _ _ _ | .twge p _ _ _ _ => some p
  | _ => none

/-- The cycle at which a try-wait's hint expires, if it has one (R239). -/
def Wait.twLimit : Wait → Option Nat
  | .twph _ _ _ c h | .twtl _ _ _ c h _ | .twge _ _ _ c h => if h = 0 then none else some (c + h)
  | _ => none

/-- Tests a waiting fibre: a fault recorded for its gang on the context it watches is reported; else, if the condition
holds, the predicate is set, what the wait acquires is acquired, and it goes on at PC + 4 (R239, R308). A TWTL acquires at each operation's completion scope:
leased copies go where one is die or wider (R7, R111, R114). -/
def State.testWait (s : State) (k : FKey) : State :=
  let w := (s.fib k).wait
  match w.twPred with
  | none => s
  | some p =>
    let c := s.coreOf k
    let fault := match w with | .twtl _ t _ _ _ word => (s.ctxFault c t (s.gangOf k)).map fun e => (t, word, e) | _ => none
    match fault with
    | some (t, word, e) =>
      let trap : Trap := { cause := e.cause, pc := (s.fib k).pc, addr := e.addr, info := e.info ||| word.setWidth 64 }
      ((s.dropCtxFault c t (s.gangOf k)).updFib k fun f => { f with wait := .ready }).raise k trap
    | none =>
      if !s.waitHolds k w then s
      else
        let s1 := (s.updFib k fun f => { f with p := setPredBit f.p p true }).resume k
        let v : View := { who := .agent k, scr := true }
        match w with
        | .twtl _ t n _ _ _ =>
          let s2 := s1.noteTicket (.agent k) c t n.toNat
          if ((s.ctx c t).wide.map fun m => decide (m ≤ n.toNat)).getD false then s2.l1Clear (clusterOf c) else s2
        | .twph _ key _ _ _ => (s1.noteNewest v key 16).noteRead v key 16 (some .clu)
        | .twge _ key _ _ _ => (s1.noteNewest v key 4).noteRead v key 4 (some .clu)
        | _ => s1

/-- Tests every waiting fibre, in the order of the fibre table: the watched state may have changed (R239). -/
def State.settle (s : State) : State :=
  (s.fibres.filter fun x => x.2.wait.twPred.isSome).foldl (fun s x => s.testWait x.1) s

/-- A try-wait: the live members wait, and the condition is tested at once (R239). -/
def tryWait (i : Instr) (check : State → FKey → Verdict) (wait : State → FKey → Wait) (s : State) : Out :=
  issue i s check
    (fun s ks => s.onLive ks fun s k => s.updFib k fun f => { f with wait := wait s k })
    (fun s k => (s.fib k).pc)
    fun s ks => ks.foldl (fun s k => if s.isHelper k then s else s.testWait k) s

/-- Storage byte of a checked scratchpad address. -/
def State.scratchKeyAt (s : State) (k : FKey) (a : Reg) : Nat := let (b, off) := s.scratchAt k a; s.scratchKey b off

/-- TWPH (R240). -/
def execTwph (o : PR) (s : State) : Out :=
  tryWait (.twph o) (fun s k => s.scratchCheck k (.twph o) o.a 16 (s.acqPending k))
    (fun s k => .twph o.p (s.scratchKeyAt k o.a) ((s.src32 k o.b).getLsbD 0) (s.cycles (s.coreOf k)) (s.fib k).whint.toNat) s

/-- TWTL first reports a fault recorded on the context (R241, R308). -/
def execTwtl (wb : Bool) (p : Pred) (t : BitVec 3) (b : Reg) (s : State) : Out :=
  tryWait (.twtl wb p t b)
    (fun s k => match s.ctxReport k (.twtl wb p t b) t.toNat with
      | some v => v
      | none => if s.acqPending k then .stall else .go)
    (fun s k => .twtl p t.toNat (s.src64 k b) (s.cycles (s.coreOf k)) (s.fib k).whint.toNat (Instr.twtl wb p t b).word) s

/-- TWGE (R242). -/
def execTwge (o : PR) (s : State) : Out :=
  tryWait (.twge o) (fun s k => s.scratchCheck k (.twge o) o.a 4 (s.acqPending k))
    (fun s k => .twge o.p (s.scratchKeyAt k o.a) (s.src32 k o.b) (s.cycles (s.coreOf k)) (s.fib k).whint.toNat) s

/-- TLRD reads the context's value with relaxed order (R243). -/
def execTlrd (d : Reg) (t : BitVec 3) (s : State) : Out :=
  compute (.tlrd d t) s fun s k => [.wide d (BitVec.ofNat 64 (s.ctx (s.coreOf k) t.toNat).value)]

end Sys2Proof.Machine
end

