-- ==== Sys2Proof/Machine/Queue.lean ====
section
/-!
DEFINITION. Machine/Queue.lean: AP, the queues of a core and its access processor (R244-R246, R311-R314).
-/

namespace Sys2Proof.Machine

/-- APGO: the address is 4-aligned; a running program makes the coach wait (R245). -/
def apgoCheck (o : R3) (s : State) (k : FKey) : Verdict :=
  let a := s.src64 k o.a
  if a.toNat % 4 ≠ 0 then .trap (s.trapOf k (.apgo o) 0x12 a)
  else if (s.core (s.coreOf k)).apOwner.isSome then .stall else .go

/-- Starts an address program: v0 := B, every other register zero, a ticket on T7; an s register keeps the
lowest member's ticket (R77, R245, R311). -/
def State.apStart (s : State) (k : FKey) (o : R3) : State :=
  let c := s.coreOf k
  let a := s.src64 k o.a
  let b := s.src32 k o.b
  let (t, s1) := s.takeTicket k c 7
  let s2 := s1.updCore c fun x => { x with apOwner := some ((s.gangOf k).1, (s.gangOf k).2, s.laneOf k, t), apStop := false }
  let s3 := ((s2.setFib (.ap c) { pc := a, regs := [(0, { val := b })] }).newAgent (.agent (.ap c))).follows (.agent k) (.agent (.ap c))
  s3.putOnce64 k o.d (BitVec.ofNat 64 t)

def execApgo (o : R3) (s : State) : Out := issueSerial (.apgo o) s (apgoCheck o) fun s k => s.apStart k o

/-- APSTOP: the program stops at its next instruction boundary (R246). -/
def execApstop (s : State) : Out :=
  issue .apstop s noCheck fun s ks => s.onLive ks fun s k =>
    s.updCore (s.coreOf k) fun x => if x.apOwner.isSome then { x with apStop := true } else x

/-- The status word of QSTAT (R246). -/
def State.qstatus (s : State) (c q : Nat) : W32 :=
  let x := s.queue c q
  let held := (x.entries.filter (·.ready)).length
  let infl := x.entries.length - held
  BitVec.ofNat 32 (match x.bound with
    | some (_, g) => 2 ^ 31 + g % 32 * 2 ^ 16 + infl % 128 * 2 ^ 7 + held % 128
    | none => infl % 128 * 2 ^ 7 + held % 128)

def execQstat (d : Reg) (q : BitVec 3) (s : State) : Out :=
  issue (.qstat d q) s noCheck fun s ks => s.onLive ks fun s k => s.wr k (.reg d (s.qstatus (s.coreOf k) q.toNat))

/-- Empties a queue: its entries and the requests in flight for it go, and every cursor stands at the next entry
(R246). -/
def State.emptyQueue (s : State) (c q : Nat) : State :=
  let s1 := s.updQueue c q fun x => { x with entries := [] }
  { s1 with
    reqs := s1.reqs.filter fun r => match r.dst with | .queue c' q' _ _ => !(c' = c && q' = q) | _ => true
    fibres := s1.fibres.map fun (k, f) => if s.coreOf k = c then (k, { f with cursor := f.cursor.del q }) else (k, f) }

/-- An outbound queue drains only by the access processor's taking its entries (R246). -/
def drainCheck (q : Nat) (s : State) (k : FKey) : Verdict :=
  if 6 ≤ q ∧ (s.queue (s.coreOf k) q).entries ≠ [] then .stall else .go

def execQdrain (q : BitVec 3) (s : State) : Out :=
  issue (.qdrain q) s (drainCheck q.toNat) fun s ks => s.onLive ks fun s k => s.emptyQueue (s.coreOf k) q.toNat

/-- QBIND: a gang the block does not have raises QUEUE_ROLE; the queue is drained, then bound (R244, R246). -/
def execQbind (wa : Bool) (a : Reg) (q : BitVec 3) (s : State) : Out :=
  issue (.qbind wa a q) s
    (fun s k =>
      if ((s.blockOf k).maxf + 31) / 32 ≤ (s.src32 k a).toNat then .trap (s.trapOf k (.qbind wa a q) 0x17 0 q.toNat)
      else drainCheck q.toNat s k)
    fun s ks => s.onLive ks fun s k =>
      let g := (s.src32 k a).toNat
      (s.emptyQueue (s.coreOf k) q.toNat).updQueue (s.coreOf k) q.toNat fun x => { x with bound := some ((s.gangOf k).1, g) }

/-! ### The access processor's own words -/

/-- Queue number a D field names. -/
def queueNo : Reg → Nat
  | .q n => n
  | _ => 0

/-- Address of lane `l`: a + l * b.s (R312, R313). -/
def State.laneAddr (s : State) (k : FKey) (o : R3) (l : Nat) : W64 :=
  s.src64 k o.a + BitVec.ofNat 64 l * (s.src32 k o.b).signExtend 64

/-- The first check that fails among the lanes that access memory (R220, R312, R313). -/
def State.lanesCheck (s : State) (k : FKey) (i : Instr) (o : R3) (acc : Acc) (ls : List Nat) : Verdict :=
  ((ls.map fun l =>
    let va := s.laneAddr k o l
    if va.toNat % 4 ≠ 0 then Verdict.trap (s.trapOf k i 0x12 va)
    else match s.checkGlobal k acc va with
      | .miss => .miss va
      | .bad c r => s.faultVerdict k i va c r
      | .ok t => s.targetWait s k i va acc.writes t).find? (· ≠ .go)).getD .go

/-- Lanes 0 to 31. -/
def lanes32 : List Nat := List.range 32

/-- QREQ waits while 64 entries of the queue are held or in flight (R312). -/
def qreqCheck (o : R3) (s : State) (k : FKey) : Verdict :=
  if 64 ≤ (s.queue (s.coreOf k) (queueNo o.d)).entries.length then .stall
  else s.lanesCheck k (.qreq o) o .load lanes32

/-- Reads one lane's word into an entry (R312). -/
def State.qreqLane (s : State) (k : FKey) (o : R3) (serial l : Nat) : State :=
  match s.checkGlobal k .load (s.laneAddr k o l) with
  | .ok t =>
    let r := s.mkReq k (.qreq o) (s.laneAddr k o l) t .normal (.load .b32) .rlx .fib (.queue (s.coreOf k) (queueNo o.d) serial l)
    (s.place r).getD (s.sendDirect r)
  | _ => s

/-- QREQ reserves the tail entry and reads its 32 words (R312). -/
def execQreq (o : R3) (s : State) : Out :=
  issue (.qreq o) s (qreqCheck o) fun s ks => ks.foldl (fun s k =>
    let q := queueNo o.d
    let n := (s.queue (s.coreOf k) q).next
    let e : QEntry := { serial := n, words := List.replicate 32 none, ready := false }
    let s1 := s.updQueue (s.coreOf k) q fun x => { x with entries := x.entries ++ [e], next := n + 1 }
    lanes32.foldl (fun s l => s.qreqLane k o n l) s1) s

/-- Whether every live fibre of the bound gang has pushed to an entry (R313). -/
def State.entryComplete (s : State) (x : Queue) (e : QEntry) : Bool :=
  match x.bound with
  | none => true
  | some g => (s.liveInGang g).all fun n => ((e.words[n % 32]?).getD none).isSome

/-- Lanes of an entry that are present. -/
def QEntry.present (e : QEntry) : List (Nat × W32) := e.words.zipIdx.filterMap fun (w, l) => w.map fun w => (l, w)

/-- Writes one present lane (R313). -/
def State.qwrLane (s : State) (k : FKey) (o : R3) (x : Nat × W32) : Option State :=
  match s.checkGlobal k .store (s.laneAddr k o x.1) with
  | .ok t =>
    let r := s.mkReq k (.qwr o) (s.laneAddr k o x.1) t .normal (.store 4 x.2.toNat) .rlx .fib .none
    (s.noteRecovery k r.what r.dev).place r
  | _ => some s

/-- The device of the first lane that no cart takes. -/
def State.blockedDest (s : State) (k : FKey) (o : R3) : List (Nat × W32) → Nat
  | [] => 0
  | x :: r => match s.qwrLane k o x with
    | some t => State.blockedDest t k o r
    | none => match s.checkGlobal k .store (s.laneAddr k o x.1) with
      | .ok t => t.dev.getD 0
      | _ => 0

/-- QWR waits for a complete head entry, for carts where its lanes need them, and for room in the write-pending list (R120, R279,
R313). -/
def qwrCheck (o : R3) (s : State) (k : FKey) : Verdict :=
  let x := s.queue (s.coreOf k) (queueNo o.d)
  match x.entries.head? with
  | none => .stall
  | some e =>
    if !s.entryComplete x e then .stall
    else match s.lanesCheck k (.qwr o) o .store (e.present.map (·.1)) with
      | .go => (match e.present.foldlM (fun s x => s.qwrLane k o x) s with
        | some s1 => if 256 < s1.writePendingCount (clusterOf (s.coreOf k)) then .stall else .go
        | none => .cart (dieOf (s.coreOf k)) (s.blockedDest k o e.present))
      | v => v

/-- QWR pops the head entry and writes its present lanes (R313). -/
def execQwr (o : R3) (s : State) : Out :=
  issue (.qwr o) s (qwrCheck o) fun s ks => ks.foldl (fun s k =>
    let q := queueNo o.d
    match (s.queue (s.coreOf k) q).entries.head? with
    | none => s
    | some e =>
      let s1 := s.updQueue (s.coreOf k) q fun x => { x with entries := x.entries.drop 1 }
      e.present.foldl (fun s x => (s.qwrLane k o x).getD s) s1) s

/-- APEND waits until every store of the program is performed, then ends it; its T7 ticket completes (R314). -/
def execApend (s : State) : Out :=
  issue .apend s
    (fun s k => if (s.ownReqs k).any (fun r => r.what.writes) then .stall else .go)
    (fun s _ => s) State.nextPc
    fun s ks => ks.foldl (fun s k => match k with | .ap c => s.endAp c | _ => s) s

end Sys2Proof.Machine
end

