-- ==== Sys2Proof/Machine/Engine.lean ====
section
/-!
DEFINITION. Machine/Engine.lean: memory accesses of the engines beside a core, of executors and of reducers, which walk by
themselves and wait for fault service (R95, R276, R308), and the element conversions of R301.
-/

namespace Sys2Proof.Machine

/-- State of the region that holds a physical address of this device (R406). -/
def State.region (s : State) (pa : Nat) : HomeState := (s.homeLeases.atD (pa / 65536) {}).state

def State.orphaned (s : State) (pa : Nat) : Bool := decide (s.region pa = .orphaned)

/-- Who accesses memory: core, partition, launch whose undo log takes its writes, its name as an agent (R95), and the scope at
which its writes are releases. -/
structure EngBy where
  core : Nat
  part : Nat
  lid : Nat
  p : Party
  rel : Option Scope := none
deriving DecidableEq, Repr

/-- The fibre an engine's operation acts for (R95). -/
def EngBy.fibre (e : EngBy) : FKey :=
  match e.p with
  | .agent k | .engine k _ => k
  | _ => .ctl 0

/-- What a step supplies for memory of another device: element bytes in order of the row's columns, index words, and the code
with which that device answers, 0 where it does what it is asked. -/
structure Sup where
  data : List Byte := []
  idx : List Nat := []
  code : Nat := 0

def Sup.skip (u : Sup) (n : Nat) : Sup := { u with data := u.data.drop n }

/-- Why an engine's access does not go on: it waits (for zeroing, for data, for a write that stands before it), its page is not
in the TLBs, its write waits at lines, it meets a translation fault, or its operation aborts (R276, R281, R308, R421). -/
inductive EngStop where
  | wait
  | miss (va : W64)
  | hold (ls : List (Nat × Nat))
  | fault (cause reason : Nat) (va : W64)
  | abort (cause info : Nat) (va : W64)
deriving DecidableEq, Repr

/-- What an engine's step does that cannot go on: its page enters the miss queue, its write takes its place at its lines; where
that is so already, it does not occur. -/
def State.engWaits (s : State) (e : EngBy) (name : String) : EngStop → Out
  | .miss va => if s.missStands e.core e.part e.p va then .refused (.notEnabled name) else .next (s.enqueueMiss e.core e.part e.p va)
  | .hold ls =>
    if s.claimed e.p ls then .refused (.notEnabled name) else .next (s.claim e.p ls)
  | _ => .refused (.notEnabled name)

/-- The checks of R220 on an engine's access. A cell-class destination aborts (R308), and so does a combining access to
host memory (R304). -/
def State.engTarget (s : State) (e : EngBy) (acc : Acc) (va : W64) : Except EngStop Target :=
  match s.checkFor e.core e.part e.p acc va with
  | .ok t =>
    match t.dev.bind fun d => s.held? d t.pa with
    | some h => if s.heldLive h then .ok t else .error (.abort 0x15 0 va)
    | none => if t.dev.isNone && s.orphaned t.pa then .error (.abort 0x15 0 va) else .ok t
  | .miss => .error (.miss va)
  | .bad c r =>
    if isTranslationFault c r && !(acc = .atomic && c = 0x11 && r = 3) then .error (.fault c r va) else .error (.abort c r va)

/-- The checks on `n` bytes inside one page: its last byte may lie in a hole (R272). -/
def State.engPiece (s : State) (e : EngBy) (acc : Acc) (va : W64) (n : Nat) : Except EngStop Target :=
  match s.engTarget e acc va with
  | .error x => .error x
  | .ok t => match s.engTarget e acc (va + BitVec.ofNat 64 (n - 1)) with
    | .error x => .error x
    | .ok _ => .ok t

/-- The lines of a range at the home of a target (R283, R292). -/
def Target.lines (t : Target) (n : Nat) : List (Nat × Nat) :=
  (linesOf t.pa n).map fun la => (if pteUc t.pte && inDram t.pa then controllerOf (la * 128) else homeSlice (la * 128) (pteHsec t.pte), la)

/-- Whether another device holds the region of a local target, or its granule is being zeroed (R406, R421). -/
def State.engBarred (s : State) (t : Target) : Bool :=
  (match s.region t.pa with | .held _ _ => true | _ => false) || (inDram t.pa && s.zeroing.contains (t.pa / 65536))

/-- Bytes an engine reads at one target: memory, behind the writes that wait there and where its requests find room; a held
region's line; or what the other device answers. Poisoned data aborts, and so does a refusal (R281, R308). -/
def State.engGet (s : State) (e : EngBy) (t : Target) (n : Nat) (va : W64) (sup : Sup) : Except EngStop (List Byte) :=
  match t.dev with
  | none =>
    if s.engBarred t || (t.lines n).any s.writeWaits || s.visitBarred (t.lines n) then .error .wait
    else match s.poisonOff t.pa n with
      | some i => .error (.abort 0x30 0 (va + BitVec.ofNat 64 i))
      | none => .ok (s.viewed { who := e.p } t.pa (s.mem.bytes t.pa n))
  | some d =>
    let far := (sup.data ++ List.replicate n 0).take n
    match (s.held? d t.pa).filter fun h => decide (t.pa / 128 ∈ h.present) with
    | some h => .ok (h.data.bytes t.pa n)
    | none =>
      if s.unreachable d then .error (.abort 0x14 0x40 va)
      else if sup.code = 0x30 then .error (.abort 0x30 0 va)
      else if sup.code ≠ 0 then .error (.abort 0x14 sup.code va)
      else .ok far

/-- Reads `n` bytes at a virtual address, across one page boundary at most. -/
def State.engRead (s : State) (e : EngBy) (va : W64) (n : Nat) (sup : Sup) : Except EngStop (List Byte) :=
  let first := min n (65536 - va.toNat % 65536)
  match s.engPiece e .load va first with
  | .error x => .error x
  | .ok t => match s.engGet e t first va sup with
    | .error x => .error x
    | .ok a =>
      if first = n then .ok a
      else
        let vb := va + BitVec.ofNat 64 first
        match s.engPiece e .load vb (n - first) with
        | .error x => .error x
        | .ok u => match s.engGet e u (n - first) vb (sup.skip first) with
          | .error x => .error x
          | .ok b => .ok (a ++ b)

/-- A write an engine is about to perform: physical address, bytes, the launch whose undo log takes it, its lines at their home,
and the other device, if it goes to one. -/
structure EngWrite where
  pa : Nat
  bytes : List Byte
  undo : Option Nat
  lines : List (Nat × Nat) := []
  dev : Option Nat := none
  va : W64 := 0
deriving DecidableEq, Repr

/-- The write of bytes at a virtual address, across one page boundary at most. A multicast page carries no engine's write (R393). -/
def State.engPut (s : State) (e : EngBy) (acc : Acc) (va : W64) (bs : List Byte) : Except EngStop (List EngWrite) :=
  let first := min bs.length (65536 - va.toNat % 65536)
  let one := fun (t : Target) (va : W64) (b : List Byte) =>
    if t.dev.any isGroup then Except.error (EngStop.abort 0x11 6 va)
    else if t.dev.isNone && s.engBarred t then Except.error EngStop.wait
    else .ok { pa := t.pa, bytes := b, undo := undoOf e.lid t.pte, lines := if t.dev.isNone then t.lines b.length else [], dev := t.dev, va := va : EngWrite }
  match s.engPiece e acc va first with
  | .error x => .error x
  | .ok t => match one t va (bs.take first) with
    | .error x => .error x
    | .ok a =>
      if first = bs.length then .ok [a]
      else match s.engPiece e acc (va + BitVec.ofNat 64 first) (bs.length - first) with
        | .error x => .error x
        | .ok u => match one u (va + BitVec.ofNat 64 first) (bs.drop first) with
          | .error x => .error x
          | .ok b => .ok [a, b]

/-- Writes wait for room at their homes, and at their lines until every one can be performed there (R111, R281, R286). -/
def State.engOpen (s : State) (e : EngBy) (ws : List EngWrite) : Except EngStop (List EngWrite) :=
  let ls := dedup (ws.flatMap EngWrite.lines)
  if s.visitBarred ls then .error .wait else if ls.all (s.lineOpen e.p) then .ok ws else .error (.hold ls)

/-- Performs an engine's write: at the local home, on the holder's copy of a line of a held region it has, written back at
once where it has no copy, or on the other device (R111, R407, R264). -/
def State.engPerform (s : State) (e : EngBy) (w : EngWrite) : State :=
  match w.dev with
  | none => (w.lines.foldl (fun s l => s.visitLine e.p.caller l.1 l.2) s).homeWrite w.undo { who := e.p, rel := e.rel } w.pa w.bytes
  | some d =>
    let s := match w.undo with | some l => s.nonRecoverable l .remote | none => s
    match s.held? d w.pa with
    | some h =>
      if w.pa / 128 ∈ h.present then
        let h2 := { h with data := h.data.writeBytes w.pa w.bytes, dirty := dedup (h.dirty ++ [w.pa / 128]), cause := h.cause.put (w.pa / 128) (e.fibre, w.va) }
        { s with heldLeases := s.heldLeases.put (regionKey d w.pa) h2 }
      else s.sendBack e.fibre w.va w.pa h (w.bytes.zipIdx.map fun (b, i) => (w.pa + i, b))
    | none => s

/-- Performs writes that can be performed; those to another device are performed there, and `code` is what it answers (R308). -/
def State.engWrites (s : State) (e : EngBy) (ws : List EngWrite) (code : Nat) (va : W64) : Except EngStop State :=
  if ws.any (fun w => w.dev.isSome) && decide (code ≠ 0) then .error (.abort 0x14 code va)
  else if ws.any fun w => match w.dev with | some d => s.unreachable d && (s.held? d w.pa).isNone | none => false then .error (.abort 0x14 0x40 va)
  else match s.engOpen e ws with
    | .error x => .error x
    | .ok ws => .ok (ws.foldl (fun s w => s.engPerform e w) s)

/-- Reads of an engine visit the homes of the lines they touch: `rs` are virtual addresses and sizes (R286). -/
def State.engVisit (s : State) (e : EngBy) (rs : List (Nat × Nat)) : State :=
  let ls := rs.foldl (fun (acc : List (Nat × Nat)) (va, n) => [va, va + n - 1].foldl (fun acc a =>
    match s.checkFor e.core e.part e.p .load (BitVec.ofNat 64 a) with
    | .ok t => if t.dev.isSome then acc else (t.lines 1).foldl (fun acc l => if acc.head? = some l then acc else l :: acc) acc
    | _ => acc) acc) []
  (dedup ls).foldr (fun l s => s.visitLine e.p.caller l.1 l.2) s

/-- Bytes that stand at a target before a write that replaces or combines part of them: memory's, a held region's, or what the
other device supplies (R301, R304). -/
def State.engOld (s : State) (t : Target) (n : Nat) (sup : Sup) : List Byte :=
  match t.dev with
  | none => s.mem.bytes t.pa n
  | some d => match s.held? d t.pa with
    | some h => if t.pa / 128 ∈ h.present then h.data.bytes t.pa n else (sup.data ++ List.replicate n 0).take n
    | none => (sup.data ++ List.replicate n 0).take n

/-- Bytes of a scratchpad range of a block; a poisoned word aborts (R278, R308). -/
def State.engScratch (s : State) (p : Party) (b a n : Nat) : Except EngStop (List Byte) :=
  match s.scratchAddr b a with
  | .error r => .error (.abort 0x13 r (BitVec.ofNat 64 a))
  | .ok (x, off) => match s.scratchPoisonOff x off n with
    | some i => .error (.abort 0x30 0 (BitVec.ofNat 64 (a + i)))
    | none => .ok (s.scratchSeen p x off n)

/-- Writes bytes at a scratchpad address of a block. -/
def State.engScratchPut (s : State) (p : Party) (b a : Nat) (bs : List Byte) : State :=
  match s.scratchAddr b a with
  | .error _ => s
  | .ok (x, off) => s.scratchWrite { who := p } x off bs

/-- Applies `f` to a list until one stops. -/
def mapStop {α β : Type} (f : α → Except EngStop β) : List α → Except EngStop (List β)
  | [] => .ok []
  | a :: r => match f a with
    | .error e => .error e
    | .ok b => match mapStop f r with
      | .error e => .error e
      | .ok bs => .ok (b :: bs)

/-! ### Element formats (R296, R301) -/

/-- Size of an element in half bytes (R296); 0 for a reserved code. -/
def nibbles : Nat → Nat
  | 0x00 => 2
  | 0x01 => 4
  | 0x02 => 8
  | 0x03 => 16
  | 0x10 => 8
  | 0x11 => 4
  | 0x12 => 4
  | 0x13 => 2
  | 0x14 => 2
  | 0x15 => 2
  | 0x16 => 1
  | _ => 0

/-- The floating-point format of codes 0x10 to 0x14. -/
def fmtOf : Nat → Fmt
  | 0x11 => fp16
  | 0x12 => bf16
  | 0x13 => e4m3
  | 0x14 => e5m2
  | _ => fp32

/-- Value of an INT8 pattern. -/
def int8 (x : Nat) : Int := (BitVec.ofNat 8 x).toInt

/-- Exact value of an element of a format of codes 0x10 to 0x15. -/
def elemVal (f x : Nat) : FVal := if f = 0x15 then .fin (decide (int8 x < 0)) (int8 x).natAbs 0 else (fmtOf f).decode x

/-- A value in a format of codes 0x10 to 0x15 (R24, R25). -/
def elemEnc (f : Nat) (v : FVal) : Nat := if f = 0x15 then (BitVec.ofInt 8 (v.toRange (-128) 127)).toNat else (fmtOf f).encode v

/-- An element of one format converted to another; raw and 4-bit pairs are copied (R301). -/
def elemConv (src dst x : Nat) : Nat := if src < 0x10 ∨ src = 0x16 then x else elemEnc dst (elemVal src x)

/-- The codes of an element as it stands in bytes: `nib` half bytes from half byte `off` of the first byte. -/
def takeNibbles (bs : List Byte) (off nib : Nat) : Nat := ofBytes bs / 16 ^ off % 16 ^ nib

/-- Replaces `nib` half bytes from half byte `off` up. -/
def putNibbles (bs : List Byte) (off nib v : Nat) : List Byte :=
  let x := ofBytes bs
  toBytes bs.length (x % 16 ^ off + v % 16 ^ nib * 16 ^ off + x / 16 ^ (off + nib) * 16 ^ (off + nib))

end Sys2Proof.Machine
end

