-- ==== Sys2Proof/Machine/Shape.lean ====
section
/-!
DEFINITION. Machine/Shape.lean: the shape record (R295-R297), its checks for trolley commands and CRLOAD (R361), and the
correspondence of box and linear side (R300).
-/

namespace Sys2Proof.Machine

/-! ### Fields of a record (R295) -/

def shRank (r : List Byte) : Nat := field r 8 1
def shTfmt (r : List Byte) : Nat := field r 9 1
def shLayout (r : List Byte) : Nat := field r 0xB 1
def shSize (r : List Byte) (d : Nat) : Nat := field r (0x10 + 4 * d) 4
def shStride (r : List Byte) (d : Nat) : Nat := field r (0x28 + 8 * d) 8
def shBoxRaw (r : List Byte) (d : Nat) : Nat := field r (0x50 + 4 * d) 4
def shFill (r : List Byte) : Nat := field r 0x64 4
def shStart (r : List Byte) (d : Nat) : Int := (BitVec.ofNat 32 (field r (0x68 + 4 * d) 4)).toInt
def shLfmt (r : List Byte) : Nat := field r 0x7C 1
def shQtype (r : List Byte) : Nat := field r 0x7D 1
def shScale (r : List Byte) : Nat := field r 0x80 8
def shSmaddr (r : List Byte) : Nat := field r 0x88 4
def shSmlen (r : List Byte) : Nat := field r 0x8C 4
def shIndexAt (r : List Byte) : Nat := field r 0x90 8
def shPitchRaw (r : List Byte) : Nat := field r 0x98 8
def shFlag (r : List Byte) (n : Nat) : Bool := (field r 0xA 1).testBit n
def shSmooth (r : List Byte) : Bool := shFlag r 0
def shQuant (r : List Byte) : Bool := shFlag r 1
def shOob (r : List Byte) : Bool := shFlag r 2
def shTrans (r : List Byte) : Bool := shFlag r 3
def shIndexed (r : List Byte) : Bool := shFlag r 4
/-- Box extent of dimension d; 1 at and above RANK. -/
def shBox (r : List Byte) (d : Nat) : Nat := if d < shRank r then shBoxRaw r d else 1

/-- Rows, elements of a row, bytes of a row and pitch of the linear side (R300). -/
def shRows (r : List Byte) : Nat := if shTrans r then shBox r 0 else shBox r 1 * shBox r 2 * shBox r 3 * shBox r 4
def shCols (r : List Byte) : Nat := if shTrans r then shBox r 1 else shBox r 0
def shRowLen (r : List Byte) : Nat := shCols r * nibbles (shLfmt r) / 2
def shPitch (r : List Byte) : Nat := if shPitchRaw r = 0 then shRowLen r else shPitchRaw r

/-! ### Checks (R296, R297, R303, R304, R361) -/

/-- The commands that use a record: TCPY, TGATH, TSCAT, TFILL, TRED, CRLOAD. -/
inductive ShCmd where
  | tcpy | tgath | tscat | tfill | tred | crload
deriving DecidableEq, Repr

/-- What of a command and its agent the checks depend on: command, CTL word, linear address, bytes of the allocation a
scratchpad address is held against, and for CRLOAD the carriage's LFMT, side store, and K and N extents. -/
structure ShCtx where
  cmd : ShCmd
  ctl : Nat := 0
  laddr : Nat := 0
  /-- the bytes of an allocation a scratchpad address lies in, from its offset; none where it lies in no allocation -/
  room : Nat → Option Nat
  carLfmt : Nat := 0
  carSide : Bool := false
  kExt : Nat := 0
  nExt : Nat := 0

/-- Whether a pair of formats is allowed, with QUANT set or clear (R296). -/
def shPairOk (quant : Bool) (t l : Nat) : Bool :=
  if t < 4 ∨ l < 4 then decide (t = l) else if t = 0x16 then decide (l = 0x16) else decide (l ≠ 0x16) || quant

/-- Whether a range of a scratchpad space lies inside its allocation (R151). -/
def ShCtx.fits (x : ShCtx) (a n : Nat) : Bool :=
  match x.room a with
  | some m => decide (n ≤ m)
  | none => false

/-- Row 0x0A: flags. -/
def shBadFlags (x : ShCtx) (r : List Byte) : Bool :=
  let out := decide (x.ctl.testBit 3 = true ∨ x.cmd = .tscat ∨ x.cmd = .tred)
  let tf := shTfmt r
  let lf := shLfmt r
  if x.cmd = .tfill then decide (field r 0xA 1 ≠ 0)
  else
    decide (32 ≤ field r 0xA 1) || ((shSmooth r || shQuant r) && out) || (shSmooth r && decide (tf < 4 ∨ tf = 0x16)) ||
      (if x.cmd = .crload then decide (shQuant r ≠ (x.carSide && decide (tf ≠ lf)))
       else decide (shQuant r ≠ decide (lf = 0x16 ∧ tf ≠ 0x16))) ||
      (shTrans r && ((List.range 5).any (fun d => decide (2 ≤ d ∧ d < shRank r ∧ shBoxRaw r d ≠ 1)) || decide (tf = 0x16 ∨ lf = 0x16) ||
        decide (shLayout r = 2))) ||
      (shIndexed r && decide (x.cmd = .tcpy ∨ x.cmd = .crload)) || (!shIndexed r && decide (x.cmd = .tgath ∨ x.cmd = .tscat)) ||
      (shIndexed r && decide (shRank r = 1))

/-- Row 0x0B: layout. -/
def shBadLayout (x : ShCtx) (r : List Byte) : Bool :=
  let space := x.ctl.testBit 2
  let p := shPitchRaw r
  match shLayout r with
  | 0 => false
  | 1 => decide (x.cmd = .crload) || space || decide (p = 0 ∨ p % 512 ≠ 0 ∨ x.laddr % 512 ≠ 0)
  | 2 => !(decide (x.cmd = .tcpy ∨ x.cmd = .tgath) && !x.ctl.testBit 3 && !space && decide (shLfmt r = 0x10))
  | _ => true

/-- Row 0x68: box origins. -/
def shBadStart (r : List Byte) : Bool :=
  (shIndexed r && decide (shStart r 1 ≠ 0)) || (List.range 5).any fun d =>
    if shRank r ≤ d then decide (shStart r d ≠ 0)
    else !shOob r && !(shIndexed r && decide (d = 1)) &&
      decide (shStart r d < 0 ∨ (shSize r d : Int) < shStart r d + (shBoxRaw r d : Int))

/-- The failing rows of R297, R304 and R361 in their order: the offset each reports. -/
def shBadRows (x : ShCtx) (r : List Byte) : List (Bool × Nat) :=
  let fill := decide (x.cmd = .tfill)
  let crl := decide (x.cmd = .crload)
  let tf := shTfmt r
  let lf := shLfmt r
  let rank := shRank r
  let q4 := decide (lf = 0x16) || (!fill && decide (tf = 0x16))
  let dims := List.range 5
  let space := x.ctl.testBit 2
  let span := if shLayout r = 1 then (shRowLen r + 511) / 512 * 512 else shRowLen r
  let kExt := if shTrans r then shBox r 0 else shBox r 1
  let nExt := if shTrans r then shBox r 1 else shBox r 0
  [(decide (rank < 1 ∨ 5 < rank) || (crl && decide (rank ≠ 2)), 0x08),
   (!fill && decide (nibbles tf = 0), 0x09),
   (decide (nibbles lf = 0) || (crl && decide (lf ≠ x.carLfmt)), 0x7C),
   (!fill && !shPairOk (shQuant r) tf lf, 0x09),
   (decide (x.cmd = .tred) && !(decide (tf ∈ [0x10, 0x11, 0x12, 0x02])), 0x09),
   (!fill && decide (shQtype r ≠ 0) && decide (lf ≠ 0x16 ∨ 3 < shQtype r), 0x7D),
   (shBadFlags x r, 0x0A),
   (shBadLayout x r, 0x0B),
   (!fill && dims.any fun d => decide (if d < rank then shSize r d = 0 else shSize r d ≠ 0), 0x10),
   (!fill && (decide (shStride r 0 ≠ 0) || dims.any fun d =>
      decide (if d < rank then shStride r d % max 1 (nibbles tf / 2) ≠ 0 else shStride r d ≠ 0)), 0x28),
   ((dims.any fun d => decide (if d < rank then shBoxRaw r d = 0 ∨ 65536 < shBoxRaw r d else shBoxRaw r d ≠ 0)) ||
      (q4 && (decide (shBoxRaw r 0 % 2 ≠ 0) || (!fill && decide (shStart r 0 % 2 ≠ 0)))) ||
      (shQuant r && decide (shBoxRaw r 0 % 32 ≠ 0)) ||
      (crl && decide (x.kExt < kExt ∨ x.nExt < nExt)), 0x50),
   (!fill && shBadStart r, 0x68),
   (!fill && (if crl then (if x.carSide && decide (tf = lf) then decide (shScale r = 0) else decide (shScale r ≠ 0))
      else decide (shScale r ≠ 0) && !shQuant r), 0x80),
   (!fill && (if shSmooth r then decide (shSmaddr r % 4 ≠ 0) || decide (shSmlen r < if crl then kExt else shSize r 0)
      else decide (shSmaddr r ≠ 0 ∨ shSmlen r ≠ 0)), 0x88),
   (!fill && (if shIndexed r then decide (shIndexAt r = 0 ∨ shIndexAt r % 4 ≠ 0) else decide (shIndexAt r ≠ 0)), 0x90),
   (decide (shPitchRaw r ≠ 0) && (crl || decide (shPitchRaw r < shRowLen r)), 0x98),
   (!fill && decide (field r 0x0C 4 ≠ 0), 0x0C),
   (!fill && decide (field r 0x24 4 ≠ 0), 0x24),
   (!fill && decide (field r 0x7E 2 ≠ 0), 0x7E),
   (!fill && decide (field r 0xA0 32 ≠ 0), 0xA0),
   (!crl && !space && (!x.fits x.laddr ((shRows r - 1) * shPitch r + span) ||
      (shQuant r && !x.fits (shScale r) (shRows r * (shCols r / 32)))), 0xC0),
   (!crl && x.ctl.testBit 4 && space, 0xC8),
   (!crl && (decide (256 ≤ x.ctl) || (x.ctl.testBit 3 && decide (x.cmd ≠ .tcpy)) ||
      (decide (bits x.ctl 7 5 ≠ 0) && decide (x.cmd ≠ .tred)) || decide (2 < bits x.ctl 7 5)), 0xCC)]

/-- The offset of the first failing row (R297; DEDUCED, log 8). -/
def shBad (x : ShCtx) (r : List Byte) : Option Nat := ((shBadRows x r).find? (·.1)).map (·.2)

/-! ### Geometry (R300) -/

/-- Index j_d of the box element at a row and column of the linear side. -/
def shJ (r : List Byte) (row col d : Nat) : Nat :=
  if shTrans r then (if d = 0 then row else if d = 1 then col else 0)
  else match d with
    | 0 => col
    | 1 => row % shBox r 1
    | 2 => row / shBox r 1 % shBox r 2
    | 3 => row / (shBox r 1 * shBox r 2) % shBox r 3
    | _ => row / (shBox r 1 * shBox r 2 * shBox r 3)

/-- Half-byte offset of an element of the linear side; LAYOUT 1 staggers the 8-byte words of each 512-byte span. -/
def shOff (r : List Byte) (row col : Nat) : Nat :=
  let off := row * shPitch r * 2 + col * nibbles (shLfmt r)
  if shLayout r = 1 then off ^^^ (row % 64 * 16) else off

/-- The aligned 128-byte lines of the linear space in which bytes of a row lie (R306). -/
def shLines (r : List Byte) (laddr row : Nat) : List Nat :=
  dedup ((List.range (shCols r)).flatMap fun c =>
    let a := 2 * laddr + shOff r row c
    [a / 256, (a + nibbles (shLfmt r) - 1) / 256])

/-- Columns of a row whose elements begin in a line, and those with bytes in it. -/
def shLineCols (r : List Byte) (laddr row line : Nat) : List Nat :=
  (List.range (shCols r)).filter fun c => decide ((2 * laddr + shOff r row c) / 256 = line)
def shTouchCols (r : List Byte) (laddr row line : Nat) : List Nat :=
  (List.range (shCols r)).filter fun c =>
    let a := 2 * laddr + shOff r row c
    decide (a / 256 = line ∨ (a + nibbles (shLfmt r) - 1) / 256 = line)

/-- Tensor index i of a box element, none where it is out of bounds (R300, R302). -/
def State.shTensorIdx (s : State) (e : EngBy) (r : List Byte) (row col : Nat) (sup : Sup) : Except EngStop (Option (List Nat)) :=
  let j := shJ r row col
  let plain := fun (d : Nat) => shStart r d + (j d : Int)
  let close := fun (is : List Int) =>
    if is.zipIdx.all fun (i, d) => decide (shRank r ≤ d) || (decide (0 ≤ i) && decide (i < (shSize r d : Int))) then
      Except.ok (some (is.map Int.toNat)) else Except.ok none
  if !shIndexed r then close ((List.range 5).map plain)
  else
    let at_ := BitVec.ofNat 64 (shIndexAt r + 4 * j 1)
    match s.engRead e at_ 4 { sup with data := toBytes 4 ((sup.idx[j 1]?).getD 0) } with
    | .error x => .error x
    | .ok bs =>
      let n := ofBytes bs
      if shSize r 1 ≤ n ∧ !shOob r then .error (.abort 0x1C 0x90 at_)
      else close ((List.range 5).map fun d => if d = 1 then (n : Int) else plain d)

/-- Half-byte address of a tensor element, modulo 2^65. -/
def shTensorAddr (r : List Byte) (i : List Nat) : Nat :=
  let row := ((List.range 5).drop 1).foldl (fun x d => x + (i[d]?).getD 0 * shStride r d) (field r 0 8)
  (2 * (row % 2 ^ 64) + (i[0]?).getD 0 * nibbles (shTfmt r)) % 2 ^ 65

/-- A tensor element in TFMT, or FILL where it is out of bounds, and which it is (R301, R302). -/
def State.shTensorElem (s : State) (e : EngBy) (r : List Byte) (row col : Nat) (sup : Sup) : Except EngStop (Nat × Bool) :=
  let nib := nibbles (shTfmt r)
  match s.shTensorIdx e r row col sup with
  | .error x => .error x
  | .ok none => .ok (shFill r % 16 ^ nib, true)
  | .ok (some i) =>
    let a := shTensorAddr r i
    match s.engRead e (BitVec.ofNat 64 (a / 2)) ((a % 2 + nib + 1) / 2) (sup.skip (col * nib / 2)) with
    | .error x => .error x
    | .ok bs => .ok (takeNibbles bs (a % 2) nib, false)

end Sys2Proof.Machine
end

