-- ==== Sys2Proof/Machine/Trolley.lean ====
section
/-!
DEFINITION. Machine/Trolley.lean: TROLLEY (R299-R308) and the trolley's steps (R305, R306).
-/

namespace Sys2Proof.Machine

/-! ### Issue -/

/-- Bytes of an allocation from a scratchpad address to its end (R151). -/
def State.scratchRoom (s : State) (b a : Nat) : Option Nat :=
  match s.scratchAddr b a with
  | .ok (x, off) => some ((s.block x).scratch - off)
  | .error _ => none

/-- First byte of a range outside its allocation, and the reason (R151, R221, R297). -/
def State.scratchOut (s : State) (b a n : Nat) : Option (Nat × Nat) :=
  match s.scratchAddr b a with
  | .error r => some (a, r)
  | .ok (x, off) => if off + n ≤ (s.block x).scratch then none else some (a + ((s.block x).scratch - off), 2)

/-- A record as a fibre's command uses it: the core's cached copy, or a relaxed read of the fibre (R298). -/
def State.recordRead (s : State) (k : FKey) (i : Instr) (va : W64) : Except Verdict (List Byte) :=
  match (s.core (s.coreOf k)).recCache.find? (·.1 = va.toNat) with
  | some (_, bs) => .ok bs
  | none => match s.readVirt k i .load 2 va 192 with
    | .error v => .error v
    | .ok (_, some a) => .error (s.markVerdict k i (.poison a))
    | .ok (bs, none) => .ok bs

/-- A used record becomes the most recently used of the 64 cached (R298). -/
def State.cacheRecord (s : State) (c : Nat) (va : W64) (bs : List Byte) : State :=
  s.updCore c fun x => { x with recCache := (va.toNat, bs) :: (x.recCache.filter (·.1 ≠ va.toNat)).take 63 }

/-- The four words of a command group (R299). -/
def State.groupOf (s : State) (k : FKey) (b : Reg) : List W32 :=
  match b with
  | .v n => (List.range 4).map fun i => (s.vcell k (n + i)).val
  | _ => []

def groupWord (g : List W32) (n : Nat) : Nat := (g[n]?.getD 0).toNat

/-- LADDR of a command group (R299). -/
def groupLaddr (g : List W32) : Nat := groupWord g 0 + 2 ^ 32 * groupWord g 1

/-- The smoothing vector lies inside the allocation (R297). -/
def State.smoothCheck (s : State) (k : FKey) (i : Instr) (r : List Byte) : Verdict :=
  if !shSmooth r then .go
  else match s.scratchOut (s.gangOf k).1 (shSmaddr r) (4 * shSmlen r) with
    | some (a, why) => .trap (s.trapOf k i 0x13 (BitVec.ofNat 64 a) why)
    | none => .go

/-- The checks of a trolley command, in order: a recorded fault of its context, the record's address, the record and
command group, the arrival word, the smoothing vector (R297, R299, R308). -/
def trolleyCheck (i : Instr) (cmd : ShCmd) (o : G3) (s : State) (k : FKey) : Verdict :=
  let va := s.src64 k o.a
  let g := s.groupOf k o.b
  let b := (s.gangOf k).1
  match s.ctxReport k i (groupWord g 3 % 4) with
  | some v => v
  | none =>
    if va.toNat % 64 ≠ 0 then .trap (s.trapOf k i 0x12 va)
    else if s.acqPending k then .stall
    else match s.recordRead k i va with
      | .error v => v
      | .ok r =>
        let x : ShCtx := { cmd := cmd, ctl := groupWord g 3, laddr := groupLaddr g, room := s.scratchRoom b }
        match shBad x r with
        | some off => .trap (s.trapOf k i 0x1C va off)
        | none =>
          let arr := groupWord g 2
          if (groupWord g 3).testBit 4 && decide (arr % 16 ≠ 0) then .trap (s.trapOf k i 0x12 (BitVec.ofNat 64 arr))
          else match (if (groupWord g 3).testBit 4 then s.scratchOut b arr 16 else none) with
            | some (_, why) => .trap (s.trapOf k i 0x13 (BitVec.ofNat 64 arr) why)
            | none => if cmd = .tfill then .go else s.smoothCheck k i r

/-- Enters an operation: its ticket, its record and group as they stand, and what it waits for (R305, R307). -/
def State.trolleyIssue (s : State) (i : Instr) (kind : Nat) (o : G3) (k : FKey) : Nat × State :=
  let c := s.coreOf k
  let va := s.src64 k o.a
  match s.recordRead k i va with
  | .error _ => (0, s)
  | .ok r =>
    let g := s.groupOf k o.b
    let (t, s1) := (s.follows (.agent k) (opParty k s.nextReq)).takeTicket k c (groupWord g 3 % 4)
    let op : TrolleyOp :=
      { id := s.nextReq, core := c, fibre := k, kind := kind, record := r, recAt := va.toNat, group := g, ticket := t
        deps := s.outstanding k, word := i.word }
    let s2 := (s1.cacheRecord c va r).updCore c fun x => { x with trolley := x.trolley ++ [op] }
    (t, { s2 with nextReq := s.nextReq + 1 })

/-- A trolley command (R299): members take their tickets in ascending order. -/
def trolley (i : Instr) (cmd : ShCmd) (kind : Nat) (o : G3) (s : State) : Out :=
  issue i (s.reading i) (trolleyCheck i cmd o) fun s ks =>
    let (s1, ws) := ks.foldl (fun (acc : State × List (FKey × List Wr)) k =>
      if acc.1.isHelper k then acc
      else
        let (t, s2) := acc.1.trolleyIssue i kind o k
        (s2, acc.2 ++ [(k, [Wr.wide o.d (BitVec.ofNat 64 t)])])) (s, [])
    s1.lanes ws

def execTcpy (o : G3) (s : State) : Out := trolley (.tcpy o) .tcpy 0 o s
def execTgath (o : G3) (s : State) : Out := trolley (.tgath o) .tgath 1 o s
def execTscat (o : G3) (s : State) : Out := trolley (.tscat o) .tscat 2 o s
def execTfill (o : G3) (s : State) : Out := trolley (.tfill o) .tfill 3 o s
def execTred (o : G3) (s : State) : Out := trolley (.tred o) .tred 4 o s

/-! ### Delivery -/

def TrolleyOp.ctl (op : TrolleyOp) : Nat := groupWord op.group 3
def TrolleyOp.laddr (op : TrolleyOp) : Nat := groupLaddr op.group
/-- Whether the linear side is in global memory. -/
def TrolleyOp.glob (op : TrolleyOp) : Bool := op.ctl.testBit 2
/-- Whether the operation writes the tensor. -/
def TrolleyOp.toTensor (op : TrolleyOp) : Bool := decide (op.kind = 2 ∨ op.kind = 4) || (decide (op.kind = 0) && op.ctl.testBit 3)
def TrolleyOp.ctx (op : TrolleyOp) : Nat := op.ctl % 4

/-- Number of the scale chunk of a row; a line's chunk has the number of the line among the row's. -/
def scaleChunk : Nat := 2 ^ 20 - 1
def chunkId (row n : Nat) : Nat := row * 2 ^ 20 + n

/-- The chunks of an operation (R306): those of each row's lines, and its scale bytes where it quantises (DEDUCED, log 15). -/
def TrolleyOp.chunks (op : TrolleyOp) : List Nat :=
  (List.range (shRows op.record)).flatMap fun row =>
    (List.range (shLines op.record op.laddr row).length).map (chunkId row) ++
      (if op.kind ≠ 3 ∧ shQuant op.record then [chunkId row scaleChunk] else [])

/-- The issuing fibre's block and launch; the operation as an accessor of memory. -/
def State.opBlock (_s : State) (k : FKey) : Nat := match k with | .fib b _ => b | _ => 0
def State.opLid (s : State) (k : FKey) : Nat := (s.block (s.opBlock k)).lid
def State.opBy (s : State) (core : Nat) (k : FKey) (id : Nat) : EngBy := { core := core, part := s.partOf k, lid := s.opLid k, p := opParty k id }
def TrolleyOp.by_ (op : TrolleyOp) (s : State) : EngBy := s.opBy op.core op.fibre op.id

/-- Linear value of an element moved out of the tensor, as FP32 under QUANT and in LFMT otherwise (R301, R302, R303). The upper 32 bits
of a raw 64-bit element that takes the 4 bytes of FILL are zero (DESIGN CHOICE, log 96). -/
def State.linVal (s : State) (op : TrolleyOp) (row col : Nat) (sup : Sup) : Except EngStop Nat :=
  let r := op.record
  if op.kind = 3 then .ok (shFill r % 16 ^ nibbles (shLfmt r))
  else match s.shTensorElem (op.by_ s) r row col sup with
    | .error e => .error e
    | .ok (v, filled) =>
      let dst := if shQuant r then 0x10 else shLfmt r
      if shSmooth r && !filled then
        let i0 := (shStart r 0 + (shJ r row col 0 : Int)).toNat
        match s.engScratch (op.by_ s).p (s.opBlock op.fibre) (shSmaddr r + 4 * i0) 4 with
        | .error e => .error e
        | .ok bs => .ok (elemConv 0x10 dst (fp32.div (elemConv (shTfmt r) 0x10 v) (ofBytes bs)))
      else .ok (elemConv (shTfmt r) dst v)

/-- Scale byte of block `b` of a row (R29, R301). -/
def State.rowScale (s : State) (op : TrolleyOp) (row b : Nat) (sup : Sup) : Except EngStop Nat :=
  match mapStop (fun c => s.linVal op row c sup) ((List.range 32).map (32 * b + ·)) with
  | .error e => .error e
  | .ok xs => .ok (q4Scale (shQtype op.record) (amaxOf xs))

/-- The value stored for an element: under QUANT its 4-bit code (R30, R301). -/
def State.linStored (s : State) (op : TrolleyOp) (row col : Nat) (sup : Sup) : Except EngStop Nat :=
  match s.linVal op row col sup with
  | .error e => .error e
  | .ok v =>
    if op.kind ≠ 3 ∧ shQuant op.record then
      match s.rowScale op row (col / 32) sup with
      | .error e => .error e
      | .ok sc => .ok (q4Pack sc v)
    else .ok v

/-- The part of `bs`, which stand at byte address `a`, that lies in a 128-byte line: its address and bytes (R306). -/
def clipLine (line a : Nat) (bs : List Byte) : Nat × List Byte :=
  let lo := max a (line * 128)
  (lo, (bs.drop (lo - a)).take (min (a + bs.length) (line * 128 + 128) - lo))

/-- Stores the bytes of an element at a half-byte scratchpad address that lie in a line; LAYOUT 2 adds the element whole through
the bank adder, where it begins (R301, R306, R338). -/
def State.storeScratchElem (s : State) (op : TrolleyOp) (line a nib v : Nat) : Except EngStop State :=
  let b := s.opBlock op.fibre
  let p := (op.by_ s).p
  let n := (a % 2 + nib + 1) / 2
  match s.scratchAddr b (a / 2) with
  | .error why => .error (.abort 0x13 why (BitVec.ofNat 64 (a / 2)))
  | .ok (x, off) =>
    if shLayout op.record = 2 then
      if a / 256 ≠ line then .ok s
      else match s.scratchPoisonOff x off n with
        | some i => .error (.abort 0x30 0 (BitVec.ofNat 64 (a / 2 + i)))
        | none => .ok (s.scratchWrite { who := p, rmw := true } x off (toBytes 4 (fp32.add (s.scratchGet x off 4) v)))
    else
      let (lo, bs) := clipLine line (a / 2) (putNibbles (s.scratchBytes x off n) (a % 2) nib v)
      .ok (s.scratchWrite { who := p } x (off + (lo - a / 2)) bs)

/-- The bytes of consecutive elements. -/
def packElems (nib : Nat) (vs : List Nat) : List Byte :=
  toBytes (vs.length * nib / 2) (vs.foldr (fun v acc => v % 16 ^ nib + 16 ^ nib * acc) 0)

/-- Folds a step that may stop. -/
def foldStop {α σ : Type} (f : σ → α → Except EngStop σ) : σ → List α → Except EngStop σ
  | s, [] => .ok s
  | s, a :: r => match f s a with
    | .error e => .error e
    | .ok s2 => foldStop f s2 r

/-- Bytes of a line that the elements of a row take (R306). -/
def TrolleyOp.lineBytes (op : TrolleyOp) (row line : Nat) : Nat :=
  let nib := nibbles (shLfmt op.record)
  ((shTouchCols op.record op.laddr row line).map fun c =>
    let a := 2 * op.laddr + shOff op.record row c
    min (a + nib) (line * 256 + 256) - max a (line * 256)).sum / 2

/-- Moves one chunk to the linear side (R301, R306). -/
def State.chunkOut (s : State) (op : TrolleyOp) (row line : Nat) (sup : Sup) : Except EngStop State :=
  let r := op.record
  let nib := nibbles (shLfmt r)
  let cols := shTouchCols r op.laddr row line
  match mapStop (fun c => s.linStored op row c sup) cols with
  | .error e => .error e
  | .ok vs =>
    if op.glob then
      let (a, bs) := clipLine line ((2 * op.laddr + shOff r row (cols.head?.getD 0)) / 2) (packElems nib vs)
      match s.engPut (op.by_ s) .store (BitVec.ofNat 64 a) bs with
      | .error e => .error e
      | .ok ws => s.engWrites (op.by_ s) ws sup.code (BitVec.ofNat 64 a)
    else foldStop (fun s (x : Nat × Nat) => s.storeScratchElem op line (2 * op.laddr + shOff r row x.1) nib x.2) s (cols.zip vs)

/-- Writes the scale bytes of a row (R301, R306). -/
def State.chunkScale (s : State) (op : TrolleyOp) (row : Nat) (sup : Sup) : Except EngStop State :=
  let r := op.record
  let n := shCols r / 32
  match mapStop (fun b => s.rowScale op row b sup) (List.range n) with
  | .error e => .error e
  | .ok bs =>
    let a := shScale r + row * n
    let bytes := bs.map (BitVec.ofNat 8)
    if op.glob then
      match s.engPut (op.by_ s) .store (BitVec.ofNat 64 a) bytes with
      | .error e => .error e
      | .ok ws => s.engWrites (op.by_ s) ws sup.code (BitVec.ofNat 64 a)
    else .ok (s.engScratchPut (op.by_ s).p (s.opBlock op.fibre) a bytes)

/-- Combination of TRED on patterns of the tensor's format (R304). -/
def tredOp (f op t x : Nat) : Nat :=
  if f = 0x02 then
    (match op with
      | 0 => (BitVec.ofNat 32 t + BitVec.ofNat 32 x).toNat
      | 1 => (maxS (BitVec.ofNat 32 t) (BitVec.ofNat 32 x)).toNat
      | _ => (minS (BitVec.ofNat 32 t) (BitVec.ofNat 32 x)).toNat)
  else match op with
    | 0 => (fmtOf f).add t x
    | 1 => (fmtOf f).max t x
    | _ => (fmtOf f).min t x

/-- An element of the linear side (R301). -/
def State.linRead (s : State) (op : TrolleyOp) (row col : Nat) (sup : Sup) : Except EngStop Nat :=
  let nib := nibbles (shLfmt op.record)
  let a := 2 * op.laddr + shOff op.record row col
  let n := (a % 2 + nib + 1) / 2
  let bytes := if op.glob then s.engRead (op.by_ s) (BitVec.ofNat 64 (a / 2)) n (sup.skip (col * nib / 2))
    else s.engScratch (op.by_ s).p (s.opBlock op.fibre) (a / 2) n
  match bytes with
  | .error e => .error e
  | .ok bs => .ok (takeNibbles bs (a % 2) nib)

/-- What R220 checks a write into the tensor as (R304). -/
def TrolleyOp.acc (op : TrolleyOp) : Acc := if op.kind = 4 then .atomic else .store

/-- Writes one element into the tensor, or combines it there under TRED; out-of-bounds elements are skipped (R301, R302,
R304). -/
def State.tensorWrite (s : State) (op : TrolleyOp) (row col : Nat) (sup : Sup) : Except EngStop State :=
  let r := op.record
  let nib := nibbles (shTfmt r)
  match s.shTensorIdx (op.by_ s) r row col sup with
  | .error e => .error e
  | .ok none => .ok s
  | .ok (some i) => match s.linRead op row col sup with
    | .error e => .error e
    | .ok v =>
      let x := elemConv (shLfmt r) (shTfmt r) v
      let a := shTensorAddr r i
      let va := BitVec.ofNat 64 (a / 2)
      let n := (a % 2 + nib + 1) / 2
      match s.engPiece (op.by_ s) op.acc va n with
      | .error e => .error e
      | .ok t =>
        let old := s.engOld t n (sup.skip (col * nib / 2))
        match if t.dev.isNone && op.kind == 4 then s.poisonOff t.pa n else none with
        | some i => .error (.abort 0x30 0 (va + BitVec.ofNat 64 i))
        | none =>
          let bs := if op.kind = 4 then toBytes n (tredOp (shTfmt r) (bits op.ctl 7 5) (ofBytes old) x) else putNibbles old (a % 2) nib x
          match s.engPut (op.by_ s) op.acc va bs with
          | .error e => .error e
          | .ok ws => s.engWrites (op.by_ s) ws sup.code va

/-- Lines at which the elements of a chunk are written into the tensor, of those whose pages are translated. -/
def State.tensorLines (s : State) (op : TrolleyOp) (row line : Nat) (sup : Sup) : List (Nat × Nat) :=
  let r := op.record
  let nib := nibbles (shTfmt r)
  (shLineCols r op.laddr row line).flatMap fun col => match s.shTensorIdx (op.by_ s) r row col sup with
    | .ok (some i) =>
      let a := shTensorAddr r i
      (match s.engPut (op.by_ s) op.acc (BitVec.ofNat 64 (a / 2)) (List.replicate ((a % 2 + nib + 1) / 2) 0) with
        | .ok ws => ws.flatMap EngWrite.lines
        | .error _ => [])
    | _ => []

/-- Moves one chunk of the linear side into the tensor: an element goes with the line in which it begins. Where one waits at its
line, all of the chunk's take their places. Of elements of one chunk that coincide, the last of the row's order stands (R307; DESIGN
CHOICE, log 97). -/
def State.chunkIn (s : State) (op : TrolleyOp) (row line : Nat) (sup : Sup) : Except EngStop State :=
  match foldStop (fun s c => s.tensorWrite op row c sup) s (shLineCols op.record op.laddr row line) with
  | .error (.hold ls) => .error (.hold (dedup (ls ++ s.tensorLines op row line sup)))
  | x => x

/-- Changes an operation of a core. -/
def State.updTrolley (s : State) (c id : Nat) (f : TrolleyOp → TrolleyOp) : State :=
  s.updCore c fun x => { x with trolley := x.trolley.map fun o => if o.id = id then f o else o }

/-- The record of an engine's abort: cause, address, reason or code, for REMOTE_ELEM the origin lane, and the address of the
operation's record (R254, R308). -/
def abortFault (g : Nat × Nat) (lane cause info : Nat) (va : W64) (record : Nat := 0) : CtxFault :=
  { gang := g, cause := cause, addr := va, info := BitVec.ofNat 64 ((info + if cause = 0x14 then 256 * lane else 0) * 2 ^ 32), record := record }

/-- A translation fault an engine's operation waits on (R308). -/
def engFault (word : W32) (cause reason : Nat) (va : W64) : PageFault :=
  { trap := { cause := cause, pc := 0, addr := va, info := BitVec.ofNat 64 (reason * 2 ^ 32) ||| word.setWidth 64 }, page := va.toNat / 65536 }

/-- Aborts an operation: what it has not written stays unwritten, the first fault is recorded (R308). -/
def State.trolleyAbort (s : State) (op : TrolleyOp) (cause info : Nat) (va : W64) : State :=
  (s.updTrolley op.core op.id fun o => { o with aborted := true, fault := none }).recordFault (s.coreOf op.fibre) op.ctx
    (abortFault (s.gangOf op.fibre) (s.laneOf op.fibre) cause info va op.recAt)

/-- Whether an operation may move a chunk: its block runs, what precedes it in program order is performed, no earlier
operation of its context is unfinished, no fault stands (R307-R309). Operations of a context follow each other, so that common
bytes are written in ticket order; what a later one reads is as unordered with an earlier one's writes as with any other
agent's. -/
def State.trolleyReady (s : State) (op : TrolleyOp) : Bool :=
  !op.aborted && op.fault.isNone && s.depsDone op.deps &&
    !((s.core op.core).trolley.any fun o => o.ctx = op.ctx && decide (o.ticket < op.ticket)) &&
    (match (s.block (s.opBlock op.fibre)).stop with
      | .running | .requested _ _ => true
      | .stopped _ _ => decide (op.done ≠ [])
      | .saved _ => false)

/-- Scope at which a chunk's arrival update is a release: cluster where it is written into the twin's scratchpad (R117). -/
def chunkScope (line : Nat) : Scope := if (line * 128).testBit 21 then .clu else .blk

/-- The arrival update that a chunk written to the scratchpad applies (R116, R306). -/
def State.chunkArrival (s : State) (op : TrolleyOp) (line size : Nat) : State :=
  if op.ctl.testBit 4 && !op.glob && !op.toTensor then
    (match s.scratchAddr (s.opBlock op.fibre) (groupWord op.group 2) with
      | .ok (b, off) => s.arrival (op.by_ s).p (some (chunkScope line)) b off size 0 false
      | .error _ => s)
  else s

/-- Virtual addresses and sizes of what elements of a row read of global memory (R300, R302). -/
def State.chunkReads (s : State) (op : TrolleyOp) (row : Nat) (cols : List Nat) (sup : Sup) : List (Nat × Nat) :=
  let r := op.record
  let size := fun (a nib : Nat) => (a / 2, (a % 2 + nib + 1) / 2)
  if op.kind = 3 then []
  else cols.flatMap fun c =>
    (if shIndexed r then [(shIndexAt r + 4 * shJ r row c 1, 4)] else []) ++
      if op.toTensor then (if op.glob then [size (2 * op.laddr + shOff r row c) (nibbles (shLfmt r))] else [])
      else match s.shTensorIdx (op.by_ s) r row c sup with
        | .ok (some i) => [size (shTensorAddr r i) (nibbles (shTfmt r))]
        | _ => []

/-- TROLLEY_CHUNK_DELIVERED (R306): core `unit`, operation `item`, row and chunk number in `nats`; `bytes` and the rest of
`nats` are what another device supplies, `opt` the code with which it answers. -/
def execTrolleyChunkDelivered (s : State) : Out :=
  let x := s.args
  let row := x.nats[0]?.getD 0
  let n := x.nats[1]?.getD 0
  match (s.core x.unit).trolley.find? (·.id = x.item) with
  | none => .refused (.notEnabled "TROLLEY_CHUNK_DELIVERED")
  | some op =>
    let id := chunkId row n
    if !s.trolleyReady op || op.done.contains id || !(op.chunks.contains id) then .refused (.notEnabled "TROLLEY_CHUNK_DELIVERED")
    else
      let s := s.joins (op.by_ s).p op.deps
      let sup : Sup := { data := x.bytes, idx := x.nats.drop 2, code := x.opt.getD 0 }
      let e := op.by_ s
      let line := ((shLines op.record op.laddr row)[n]?).getD 0
      let res := if n = scaleChunk then s.chunkScale op row sup
        else if op.toTensor then s.chunkIn op row line sup else s.chunkOut op row line sup
      let size := if n = scaleChunk then shCols op.record / 32 else op.lineBytes row line
      let cols := if n = scaleChunk then List.range (shCols op.record)
        else if op.toTensor then shLineCols op.record op.laddr row line else shTouchCols op.record op.laddr row line
      let reads := s.chunkReads op row cols sup
      match res with
      | .ok s2 =>
        let s3 := (((s2.engVisit e reads).leaveMissOf e.p).unclaim e.p).chunkArrival op (if n = scaleChunk then shScale op.record / 128 else line) size
        .next (s3.updTrolley op.core op.id fun o => { o with done := id :: o.done })
      | .error (.fault c r va) =>
        .next (((s.report (s.partOf op.fibre) (va.toNat / 65536) c op.fibre).leaveMissOf e.p).updTrolley op.core op.id fun o =>
          { o with fault := some (engFault op.word c r va) })
      | .error (.abort c info va) => .next ((s.trolleyAbort op c info va).unclaim e.p)
      | .error w => s.engWaits e "TROLLEY_CHUNK_DELIVERED" w

/-- Completion scope of an operation: block for a scratchpad destination, fabric for one on another device, else device
(R7, R305). -/
def State.trolleyScope (s : State) (op : TrolleyOp) : Scope :=
  if !op.toTensor && !op.glob then .blk
  else
    let va := if op.toTensor then field op.record 0 8 else op.laddr
    match s.checkWalk op.core (s.partOf op.fibre) op.acc (BitVec.ofNat 64 va) with
    | .ok t => if t.dev.isSome then .fab else .dev
    | _ => .dev

/-- TROLLEY_OPERATION_COMPLETE (R305): every chunk is delivered, or the operation is aborted; its ticket completes. -/
def execTrolleyOperationComplete (s : State) : Out :=
  let x := s.args
  match (s.core x.unit).trolley.find? (·.id = x.item) with
  | none => .refused (.notEnabled "TROLLEY_OPERATION_COMPLETE")
  | some op =>
    if op.aborted || op.chunks.all fun c => op.done.contains c then
      .next ((s.updCore op.core fun c => { c with trolley := c.trolley.filter (·.id ≠ op.id) }).completeTicket
        (op.by_ s).p (s.trolleyScope op) op.core op.ctx op.ticket)
    else .refused (.notEnabled "TROLLEY_OPERATION_COMPLETE")

end Sys2Proof.Machine
end

