-- ==== Sys2Proof/Machine/Carriage.lean ====
section
/-!
DEFINITION. Machine/Carriage.lean: planes, carriages and handles (R319-R329), the CARR instructions (R360-R365) and
CARRIAGE_LOAD_COMPLETE (R362).
-/

namespace Sys2Proof.Machine

/-! ### Planes and handles (R319-R322, R354) -/

/-- K extent of a plane by FORM (R319, R333). -/
def formK : Nat → Nat
  | 2 => 256
  | 3 => 64
  | _ => 128

/-- LFMT that CRLOAD uses for a FORM (R354). -/
def formLfmt : Nat → Nat
  | 0 => 0x13
  | 1 => 0x15
  | 2 => 0x16
  | _ => 0x12

/-- FORM that an FMT needs (R354). -/
def mfmtForm : MFmt → Nat
  | .e4e4 | .e5e4 => 0
  | .i8i8 => 1
  | .e4q4 | .q4q4 => 2
  | .bfbf => 3

namespace Car

/-- Columns of a carriage, both halves of a paired one. -/
def ncol (c : Carriage) : Nat := 128 * c.np * (if c.paired then 2 else 1)
def planes (c : Carriage) : Nat := c.kp * c.np
/-- K positions of a carriage. -/
def kext (c : Carriage) : Nat := c.kp * formK c.form
/-- Whether its planes carry the side store (R320, R360). -/
def side (c : Carriage) : Bool := c.scales || decide (c.form = 2)
/-- Key of a live carriage; one that is out of its planes is kept `savedKey` above (R327). -/
def key (core first : Nat) : Nat := core * 64 + first
/-- Code of the element at K position `k` of column `n`, and scale byte of block `b`. -/
def code (c : Carriage) (k n : Nat) : Nat := c.weights.get (2 * (k * ncol c + n)) 2
def scale (c : Carriage) (b n : Nat) : Nat := (c.sideStore.read (b * ncol c + n)).toNat

end Car

/-- The handle of a carriage (R321). -/
def handleOf (gen core first : Nat) (paired : Bool) : Nat :=
  gen * 2 ^ 20 + core * 2 ^ 11 + first * 2 ^ 5 + (if paired then 16 else 0)

/-- Carriages that stand on a core, with their keys. -/
def State.onCore (s : State) (core : Nat) : List (Nat × Carriage) :=
  s.carriages.filter fun x => decide (x.1 < Car.savedKey) && decide (core ∈ Car.cores x.2)

/-- Carriages of a core, those that are out of their planes with them (R327). -/
def State.standing (s : State) (core : Nat) : List (Nat × Carriage) := s.carriages.filter fun x => decide (core ∈ Car.cores x.2)

/-- The carriage a handle names for an agent, none where R321 refuses it; `form` is the instruction's pairing, if it has
one. -/
def State.carriageAt (s : State) (k : FKey) (h : Nat) (form : Option Bool) : Option (Nat × Carriage) :=
  let core := bits h 19 11
  let n := Car.key core (bits h 10 5)
  match s.carriages.at? n with
  | none => none
  | some c =>
    if bits h 3 0 = 0 ∧ core = s.coreOf k ∧ c.gen = bits h 31 20 ∧ (form.getD c.paired) = c.paired ∧ c.paired = decide (bits h 4 4 = 1) ∧
      c.tenant = (s.blockOf k).tenant then some (n, c) else none

/-- Whether a slot of a core is taken by another carriage than the one at `self`. -/
def State.slotTaken (s : State) (core self n : Nat) : Bool :=
  (s.onCore core).any fun x => decide (x.1 ≠ self) && x.2.slots && decide (x.2.first ≤ n ∧ n < x.2.first + Car.planes x.2)

/-- Planes a tenant's carriages take on a core, without the one at `self` (R322). -/
def State.planesOf (s : State) (core tenant self : Nat) : Nat :=
  (((s.onCore core).filter fun x => decide (x.1 ≠ self) && x.2.slots && decide (x.2.tenant = tenant)).map fun x => Car.planes x.2).sum

/-- Planes of a tenant's pinned carriages on a core (R322). -/
def State.pinnedOf (s : State) (core tenant : Nat) : Nat :=
  (((s.standing core).filter fun x => x.2.pinned && decide (x.2.tenant = tenant)).map fun x => Car.planes x.2).sum

def State.planeQuota (s : State) (p : Nat) : Nat := bits (s.part p).quota.toNat 7 0
def State.pinQuota (s : State) (p : Nat) : Nat := bits (s.part p).quota.toNat 15 8

/-- Whether a carriage can hold its slots: each is free on each of its cores, and the plane quota allows it
(R322, R329). -/
def State.roomFor (s : State) (self : Nat) (c : Carriage) : Bool :=
  (Car.cores c).all fun core =>
    ((List.range (Car.planes c)).all fun i => !s.slotTaken core self (c.first + i)) &&
      decide (s.planesOf core c.tenant self + Car.planes c ≤ s.planeQuota c.part)

/-- The lowest first slot at which a new carriage has room, never that of another live carriage (R322, R360). -/
def State.firstFit (s : State) (c : Carriage) : Option Nat :=
  (List.range (65 - Car.planes c)).find? fun n =>
    s.roomFor Car.savedKey { c with first := n } && !((Car.cores c).any fun core => (s.standing core).any fun x => x.2.first = n)

/-! ### Source tracking (R324) -/

/-- Whether every die's table has room for what its carriages refer to: 64 entries (R324). -/
def State.sourcesFit (s : State) : Bool := (List.range 4).all fun d => decide ((s.hullsOf d).length ≤ 64)

/-- A carriage's load as an accessor of memory: the issuing fibre's block and launch (R95, R324). -/
def State.loadBy (s : State) (n : Nat) (c : Carriage) (l : CrLoad) : EngBy :=
  { core := c.core, part := l.part, lid := s.opLid l.fibre, p := loadParty l.fibre n }

/-- Bytes a load reads: virtual address and size, those of the box's elements and of its scale bytes (R324, R361,
R362). -/
def State.loadReads (s : State) (e : EngBy) (c : Carriage) (r : List Byte) : List (Nat × Nat) :=
  let nib := nibbles (shTfmt r)
  let elems := (List.range (shRows r)).flatMap fun row => (List.range (shCols r)).filterMap fun col =>
    match s.shTensorIdx e r row col {} with
    | .ok (some i) => let a := shTensorAddr r i; some (a / 2, (a % 2 + nib + 1) / 2)
    | _ => none
  let scales := if Car.side c && decide (shTfmt r = shLfmt r) then
      (List.range ((shRows r + 31) / 32)).flatMap fun b => (List.range (shCols r)).map fun n => (shScale r + b * Car.ncol c + n, 1)
    else []
  elems ++ scales

/-- A page touched by a load: first virtual byte, and the die and lines of its hull. -/
structure Hull where
  page : Nat
  die : Nat
  lo : Nat
  hi : Nat
deriving DecidableEq, Repr

/-- Joins a line to the hull of its page. -/
def joinHull : List Hull → Hull → List Hull
  | [], h => [h]
  | x :: r, h => if x.page = h.page then { x with lo := min x.lo h.lo, hi := max x.hi h.hi } :: r else x :: joinHull r h

/-- The hulls of the pages that are translated, or none where a page lies outside local DRAM: the load is untracked
(R324). -/
def State.loadHulls (s : State) (e : EngBy) (c : Carriage) (r : List Byte) : Option (List (Nat × Nat × Nat)) :=
  let touch := (s.loadReads e c r).flatMap fun x => [x.1, x.1 + x.2 - 1]
  let go := touch.foldl (fun (acc : Option (List Hull)) va =>
    match acc, s.checkWalk c.core e.part .load (BitVec.ofNat 64 va) with
    | none, _ => none
    | some hs, .ok t =>
      if t.dev.isSome || !inDram t.pa then none
      else
        let size := [16, 21, 30].getD (pteSize t.pte) 16
        some (joinHull hs { page := va / 2 ^ size * 2 ^ size, die := t.pa / 2 ^ 36 / 3, lo := t.pa / 128, hi := t.pa / 128 })
    | some hs, _ => some hs) (some [])
  go.map fun hs => hs.map fun h => (h.die, h.lo, h.hi)

/-! ### CRALLOC (R360) -/

/-- Fields of the geometry word. -/
def geomOk (g : Nat) : Bool :=
  decide (g / 2 ^ 14 = 0 ∧ bits g 7 7 = 0) && decide (1 ≤ bits g 6 0 ∧ bits g 6 0 ≤ 64 ∧ bits g 9 8 ≠ 0 ∧ bits g 6 0 * bits g 9 8 ≤ 64) &&
    !(decide (bits g 13 13 = 1) && decide (bits g 11 10 ≠ 0))

/-- Whether a block is the leader half of a twin (R2, R149). -/
def State.leaderBlock (s : State) (k : FKey) : Bool := (s.blockOf k).twin.isSome && decide (s.coreOf k % 2 = 0)

def crallocCheck (i : Instr) (a : Reg) (s : State) (k : FKey) : Verdict :=
  let g := (s.src32 k a).toNat
  if !geomOk g || (decide (bits g 12 12 = 1) && !s.leaderBlock k) then .trap (s.trapOf k i 0x02) else .go

/-- The carriage a geometry word describes, zero, READY, unpinned, untracked, held by its block (R360). -/
def State.newCarriage (s : State) (k : FKey) (g : Nat) : Carriage :=
  { core := s.coreOf k, first := 0, gen := 1, kp := bits g 6 0, np := bits g 9 8, form := bits g 11 10, scales := decide (bits g 13 13 = 1)
    paired := decide (bits g 12 12 = 1), holder := some (s.gangOf k).1, tenant := (s.blockOf k).tenant, part := s.partOf k }

/-- CRALLOC (R322, R360). -/
def execCralloc (d a : Reg) (s : State) : Out :=
  issueSerial (.cralloc d a) s (crallocCheck (.cralloc d a) a) fun s k =>
    let c := s.newCarriage k (s.src32 k a).toNat
    match s.firstFit c with
    | none => s.putOnce k d 0
    | some n =>
      let gen := (s.core c.core).gens.atD n 1
      let s2 : State := { s with carriages := s.carriages.put (Car.key c.core n) { c with first := n, gen := gen } }
      s2.putOnce k d (BitVec.ofNat 32 (handleOf gen c.core n c.paired))

/-! ### Checks of a handle (R321, R326, R360) -/

/-- Whether a matrix operation of a core has still to read a carriage's planes. -/
def MxOp.names (o : MxOp) (n : Nat) : Bool :=
  match o.kind with
  | .mmaR _ _ _ car _ | .mmaS _ _ car _ => decide (car = n)
  | _ => false

def State.carBusy (s : State) (n : Nat) (c : Carriage) : Bool := (s.core c.core).mxOps.any fun o => o.names n

/-- Checks the handle in a register: CARRIAGE_HANDLE, the wait for a load, then what the word asks for. -/
def handleCheck (i : Instr) (r : Reg) (wait : Bool) (f : State → FKey → Nat → Carriage → Verdict) (s : State) (k : FKey) : Verdict :=
  let h := (s.src32 k r).toNat
  match s.carriageAt k h none with
  | none => .trap (s.trapOf k i 0x19 0 h)
  | some (n, c) => if c.state = .loading || (wait && s.carBusy n c) then .stall else f s k n c

/-- Changes the carriage that a checked handle names. -/
def State.updCarriage (s : State) (k : FKey) (r : Reg) (f : Carriage → Carriage) : State :=
  match s.carriageAt k (s.src32 k r).toNat none with
  | some (n, c) => { s with carriages := s.carriages.put n (f c) }
  | none => s

/-! ### CRPIN, CRUNPIN, CRFREE, CRDETACH, CRSTAT (R364, R365) -/

/-- CRPIN raises QUOTA where the tenant's pinned planes would exceed its pin quota (R329). -/
def crpinCheck (a : Reg) : State → FKey → Verdict :=
  handleCheck (.crpin a) a false fun s k _ c =>
    if c.pinned || (Car.cores c).all fun core => decide (s.pinnedOf core c.tenant + Car.planes c ≤ s.pinQuota c.part) then .go
    else .trap (s.trapOf k (.crpin a) 0x1A 0 (s.src32 k a).toNat)

def execCrpin (a : Reg) (s : State) : Out :=
  issueSerial (.crpin a) s (crpinCheck a) fun s k => s.updCarriage k a fun c => { c with pinned := true }

def execCrunpin (a : Reg) (s : State) : Out :=
  issueSerial (.crunpin a) s (handleCheck (.crunpin a) a false fun _ _ _ _ => .go) fun s k =>
    s.updCarriage k a fun c => { c with pinned := false }

/-- Frees a carriage: its slots, quota and source entries go, the first slot's generation steps (R321, R364). -/
def State.freeCarriage (s : State) (n : Nat) : State :=
  match s.carriages.at? n with
  | none => s
  | some c =>
    let s1 : State := { s with carriages := s.carriages.del n }
    (s1.updCore c.core fun x => { x with gens := x.gens.put c.first (nextGen c.gen) }).syncSources

def execCrfree (a : Reg) (s : State) : Out :=
  issueSerial (.crfree a) s (handleCheck (.crfree a) a true fun _ _ _ _ => .go) fun s k =>
    match s.carriageAt k (s.src32 k a).toNat none with
    | some (n, _) => s.freeCarriage n
    | none => s

/-- CRDETACH ends tracking (R364). -/
def execCrdetach (a : Reg) (s : State) : Out :=
  issueSerial (.crdetach a) s (handleCheck (.crdetach a) a false fun _ _ _ _ => .go) fun s k =>
    (s.updCarriage k a fun c => { c with tracked := false, hulls := [] }).syncSources

/-- STATE of CRSTAT (R365). -/
def CState.no : CState → Nat
  | .ready => 0
  | .loading => 1
  | .stale => 2
  | .evicted => 3
  | .saved => 4

/-- The word CRSTAT answers (R365). -/
def State.carStatus (s : State) (k : FKey) (h : Nat) : W32 :=
  let b := fun (x : Bool) (n : Nat) => if x then 2 ^ n else 0
  match s.carriageAt k h none with
  | none => 0
  | some (_, c) => BitVec.ofNat 32 (2 ^ 31 + c.state.no * 2 ^ 28 + b c.pinned 27 + b c.tracked 26 + b c.paired 25 + c.form % 4 * 2 ^ 23 +
      b (Car.side c) 22 + b c.smoothed 21 + c.kp % 128 * 2 ^ 14 + c.np % 4 * 2 ^ 12)

/-- CRSTAT; a helper leaves its D (R365, R366). -/
def execCrstat (d a : Reg) (s : State) : Out :=
  compute (.crstat d a) s fun s k => if s.isHelper k then [] else [.reg d (s.carStatus k (s.src32 k a).toNat)]

/-! ### CRLOAD (R361, R362) -/

/-- What the record is checked against (R361). -/
def State.loadCtx (s : State) (k : FKey) (c : Carriage) : ShCtx :=
  { cmd := .crload, room := s.scratchRoom (s.gangOf k).1, carLfmt := formLfmt c.form, carSide := Car.side c
    kExt := Car.kext c, nExt := Car.ncol c }

/-- A carriage entering LOADING under a record: its kept smoothing values, its hulls, its reload record (R320, R324,
R362). -/
def State.loading (s : State) (k : FKey) (n : Nat) (c : Carriage) (r : List Byte) (at_ : Nat) (ticket : Option Nat) (word : W32) : Carriage :=
  let l : CrLoad := { record := r, recAt := at_, part := s.partOf k, fibre := k, ticket := ticket, word := word, deps := s.outstanding k }
  let hulls := s.loadHulls (s.loadBy n c l) c r
  let sm := if shSmooth r then
      (match s.scratchAddr (s.gangOf k).1 (shSmaddr r) with
        | .ok (b, off) => (List.range (min (shSmlen r) (Car.kext c))).map fun i => BitVec.ofNat 32 (ofBytes (s.scratchSeen (.agent k) b (off + 4 * i) 4))
        | .error _ => [])
    else []
  { c.startLoad with
    smooth := sm, smoothed := shSmooth r, tracked := hulls.isSome, hulls := hulls.getD []
    load := some l }

/-- CRLOAD: a fault recorded on T4, the handle, the record, the smoothing vector; QUOTA where slots or source entries are
short (R308, R321, R324, R329, R361; DEDUCED, log 4). -/
def crloadCheck (o : G3) (s : State) (k : FKey) : Verdict :=
  let i := Instr.crload o
  match s.ctxReport k i 4 with
  | some v => v
  | none =>
    handleCheck i o.b true (fun s k n c =>
      let va := s.src64 k o.a
      let quota := Verdict.trap (s.trapOf k i 0x1A 0 (s.src32 k o.b).toNat)
      if va.toNat % 64 ≠ 0 then .trap (s.trapOf k i 0x12 va)
      else if s.acqPending k then .stall
      else match s.recordRead k i va with
        | .error v => v
        | .ok r => match shBad (s.loadCtx k c) r with
          | some off => .trap (s.trapOf k i 0x1C va off)
          | none => match s.smoothCheck k i r with
            | .go =>
              let s2 : State := { s with carriages := s.carriages.put n (s.loading k n c r va.toNat none 0) }
              if !c.slots && !s.roomFor n c then quota
              else if !s2.sourcesFit then quota
              else .go
            | v => v) s k

/-- Address of the first uncorrectable smoothing value. -/
def State.smoothPoisoned (s : State) (k : FKey) (c : Carriage) (r : List Byte) : Option Nat :=
  if !shSmooth r then none
  else match s.scratchAddr (s.gangOf k).1 (shSmaddr r) with
    | .ok (b, off) => (s.scratchPoisonOff b off (4 * min (shSmlen r) (Car.kext c))).map (shSmaddr r + ·)
    | .error _ => none

/-- A load ends: its ticket completes, a release at block scope (R7, R362). -/
def State.endLoad (s : State) (n : Nat) (core : Nat) (l : CrLoad) : State :=
  let p := loadParty l.fibre n
  match l.ticket with
  | some t => (s.leaveMissOf p).completeTicket p .blk core 4 t
  | none => s.leaveMissOf p

/-- A load aborts: the carriage is STALE, the ticket completes, and for a CRLOAD the fault is recorded on T4 (R323,
R362). -/
def State.abortLoad (s : State) (n : Nat) (c : Carriage) (l : CrLoad) (cause info : Nat) (va : W64) : State :=
  let s : State := { s with carriages := s.carriages.put n { c with state := .stale, loadFault := none } }
  let s : State := if l.ticket.isSome then s.recordFault c.core 4 (abortFault (s.gangOf l.fibre) (s.laneOf l.fibre) cause info va l.recAt) else s
  s.endLoad n c.core l

/-- CRLOAD: a T4 ticket, and the carriage enters LOADING (R361, R362; DEDUCED, log 9). -/
def execCrload (o : G3) (s : State) : Out :=
  issueSerial (.crload o) (s.reading (.crload o)) (crloadCheck o) fun s k =>
    let va := s.src64 k o.a
    match s.recordRead k (.crload o) va, s.carriageAt k (s.src32 k o.b).toNat none with
    | .ok r, some (n, c) =>
      let core := s.coreOf k
      let p := loadParty k n
      let (t, s1) := ((s.newAgent p).follows (.agent k) p).takeTicket k core 4
      let c2 := s.loading k n c r va.toNat (some t) (Instr.crload o).word
      let s2 : State := { s1.cacheRecord core va r with carriages := s1.carriages.put n c2 }
      let s3 := s2.syncSources
      let s4 : State := match c2.load with
        | some l => (match s.smoothPoisoned k c r with
          | some a => s3.abortLoad n c2 l 0x30 0 (BitVec.ofNat 64 a)
          | none => s3)
        | none => s3
      s4.putOnce64 k o.d (BitVec.ofNat 64 t)
    | _, _ => s

/-! ### The load itself (R362) -/

/-- Format and pattern of the value at a position, after steps 1 to 3: positions outside the box are +0, FILL is not
multiplied. -/
def State.loadRaw (s : State) (e : EngBy) (c : Carriage) (l : CrLoad) (sup : Nat → Sup) (k n : Nat) : Except EngStop (Nat × Nat) :=
  let r := l.record
  if shRows r ≤ k ∨ shCols r ≤ n then .ok (shLfmt r, 0)
  else match s.shTensorElem e r k n (sup k) with
    | .error e => .error e
    | .ok (v, filled) =>
      if shSmooth r && !filled then .ok (0x10, fp32.mul (elemConv (shTfmt r) 0x10 v) (c.smooth.getD k 0).toNat)
      else .ok (shTfmt r, v)

/-- FP32 values of a 32-K block of a column (R362 step 5). -/
def State.loadBlock (s : State) (e : EngBy) (c : Carriage) (l : CrLoad) (sup : Nat → Sup) (b n : Nat) : Except EngStop (List Nat) :=
  mapStop (fun k => match s.loadRaw e c l sup k n with
    | .error e => .error e
    | .ok (f, v) => .ok (elemConv f 0x10 v)) ((List.range 32).map (32 * b + ·))

/-- Scale byte of a block of a column: read, or chosen (R362 steps 4 and 5). `sup` holds bytes of another device (DEDUCED, log 16). -/
def State.loadScale (s : State) (e : EngBy) (c : Carriage) (l : CrLoad) (sup : Nat → Sup) (far : List Nat) (b n : Nat) : Except EngStop Nat :=
  let r := l.record
  if shQuant r then
    match s.loadBlock e c l sup b n with
    | .error e => .error e
    | .ok xs => .ok (if c.form = 2 then q4Scale (shQtype r) (amaxOf xs) else blockExp 448 (amaxOf xs))
  else if shRows r ≤ 32 * b ∨ shCols r ≤ n then .ok 0
  else match s.engRead e (BitVec.ofNat 64 (shScale r + b * Car.ncol c + n)) 1 { sup 0 with data := toBytes 1 (far.getD (b * Car.ncol c + n) 0) } with
    | .error e => .error e
    | .ok bs => .ok (ofBytes bs)

/-- Code stored at a position (R362 steps 4 to 6). -/
def State.loadCode (s : State) (e : EngBy) (c : Carriage) (l : CrLoad) (sup : Nat → Sup) (far : List Nat) (k n : Nat) : Except EngStop Nat :=
  match s.loadRaw e c l sup k n with
  | .error e => .error e
  | .ok (f, v) =>
    if shQuant l.record then
      match s.loadScale e c l sup far (k / 32) n with
      | .error e => .error e
      | .ok sc =>
        let x := elemConv f 0x10 v
        .ok (if c.form = 2 then q4Pack sc x else e4m3.encode ((fp32.decode x).scale (32 - (sc % 64 : Nat))))
    else if f = formLfmt c.form then .ok v
    else .ok (elemConv f (formLfmt c.form) v)

/-- All positions of a carriage, as (K position, column). -/
def positions (rows cols : Nat) : List (Nat × Nat) := (List.range rows).flatMap fun k => (List.range cols).map fun n => (k, n)

/-- Planes and side store a load leaves. -/
def State.loadPlanes (s : State) (e : EngBy) (c : Carriage) (l : CrLoad) (sup : Nat → Sup) (far : List Nat) : Except EngStop (Memory × Memory) :=
  let ps := positions (Car.kext c) (Car.ncol c)
  match mapStop (fun p => s.loadCode e c l sup far p.1 p.2) ps with
  | .error e => .error e
  | .ok vs =>
    let w := (ps.zip vs).foldl (fun (m : Memory) x => m.put (2 * (x.1.1 * Car.ncol c + x.1.2)) 2 x.2) []
    if !Car.side c then .ok (w, [])
    else
      let bs := positions (Car.kext c / 32) (Car.ncol c)
      match mapStop (fun p => s.loadScale e c l sup far p.1 p.2) bs with
      | .error e => .error e
      | .ok ss => .ok (w, (bs.zip ss).foldl (fun (m : Memory) x => m.put (x.1.1 * Car.ncol c + x.1.2) 1 x.2) [])

/-- CARRIAGE_LOAD_COMPLETE (R323-R325, R362): carriage `item`; `bytes` (the elements of the box, row by row) and `nats`
(scale bytes) are what another device supplies, `opt` the code with which it answers. The hulls of pages translated since the issue are entered before their
reads; where the tables have no room for them the load aborts with QUOTA (DEDUCED, log 20; DEDUCED, log 6). -/
def execCarriageLoadComplete (s : State) : Out :=
  let x := s.args
  let no : Out := .refused (.notEnabled "CARRIAGE_LOAD_COMPLETE")
  match s.carriages.at? x.item with
  | none => no
  | some c => match c.load with
    | none => no
    | some l =>
      if c.state ≠ .loading || c.loadFault.isSome || !s.depsDone l.deps then no
      else
        let r := l.record
        let e := s.loadBy x.item c l
        let s := s.joins e.p l.deps
        let hulls := if c.tracked then s.loadHulls e c r else none
        let c1 := { c with tracked := hulls.isSome, hulls := hulls.getD [] }
        let s1 : State := { s with carriages := s.carriages.put x.item c1 }
        if !s1.sourcesFit then
          let h := handleOf c.gen c.core c.first c.paired
          let c2 := { c with tracked := false, hulls := [] }
          .next ((s.abortLoad x.item c2 l 0x1A h 0).syncSources)
        else
          let s2 := s1.syncSources
          let sup := fun (row : Nat) => ({ data := x.bytes.drop (row * (shCols r * nibbles (shTfmt r) / 2)), code := x.opt.getD 0 } : Sup)
          match s2.loadPlanes e c1 l sup x.nats with
          | .ok (w, sd) =>
            let c2 := { c1 with weights := w, sideStore := sd, state := if c.loadDirty then .stale else .ready }
            let s3 : State := { s2 with carriages := s2.carriages.put x.item c2 }
            .next ((s3.engVisit e (s2.loadReads e c1 r)).endLoad x.item c.core l)
          | .error (.fault cause reason va) =>
            let c2 := { c1 with loadFault := some (engFault l.word cause reason va) }
            let s3 : State := { s2 with carriages := s2.carriages.put x.item c2 }
            .next ((s3.report l.part (va.toNat / 65536) cause l.fibre).leaveMissOf e.p)
          | .error (.abort cause info va) => .next (s2.abortLoad x.item c1 l cause info va)
          | .error w => s2.engWaits e "CARRIAGE_LOAD_COMPLETE" w

/-! ### CRLDV (R363) -/

def selRow (w : Nat) : Nat := bits w 5 0
def selCol (w : Nat) : Nat := bits w 8 6
def selQtr (w : Nat) : Nat := bits w 10 9

/-- Registers of the scale bytes a column takes: vN+32, and vN+33 for a 4-bit plane. -/
def scaleRegs (a : Reg) (c : Carriage) : List Nat :=
  match a with
  | .v n => if !Car.side c then [] else if c.form = 2 then [n + 32, n + 33] else [n + 32]
  | _ => []

/-- CRLDV: handle and select word are those of the gang's lowest member; scale registers count only with a side store
(R329, R336, R363; DEDUCED, log 18). -/
def crldvCheck (o : G3) (s : State) (k : FKey) : Verdict :=
  let i := Instr.crldv o
  let m := s.lead k
  let h := (s.src32 m o.b).toNat
  let w := (s.src32 m o.d).toNat
  match s.carriageAt k h none with
  | none => .trap (s.trapOf k i 0x19 0 h)
  | some (n, c) =>
    if c.state = .loading || s.carBusy n c then .stall
    else if w / 2 ^ 11 ≠ 0 ∨ Car.ncol c ≤ 128 * selCol w ∨ c.kp ≤ selRow w then .trap (s.trapOf k i 0x02)
    else if (scaleRegs o.a c).any fun n => decide (s.declared k ≤ (s.fib k).wb.toNat + n) then .trap (s.trapOf k i 0x03)
    else if (scaleRegs o.a c).any fun n => !(s.vcell k n).full then .stall
    else match (scaleRegs o.a c).filterMap fun n => (s.vcell k n).mark with
      | mk :: _ => s.markVerdict k i mk
      | [] => if !c.slots && !s.roomFor n c then .trap (s.trapOf k i 0x1A 0 h) else .go

/-- Elements of a register of a plane form (R20, R363). -/
def formPer : Nat → Nat
  | 2 => 8
  | 3 => 2
  | _ => 4

/-- Element `j` of `per` in a register. -/
def regElem (v : W32) (per j : Nat) : Nat := v.toNat / 2 ^ (32 / per * j) % 2 ^ (32 / per)

/-- One lane fills its column of the quarter-plane. -/
def State.fillColumn (s : State) (a : Reg) (w : Nat) (c : Carriage) (k : FKey) : Carriage :=
  match a with
  | .v n =>
    let per := formPer c.form
    let col := 128 * selCol w + 32 * selQtr w + s.laneOf k
    let kk := formK c.form
    let ws := (List.range kk).foldl (fun (m : Memory) j =>
      m.put (2 * ((selRow w * kk + j) * Car.ncol c + col)) 2 (regElem (s.vcell k (n + j / per)).val per (j % per))) c.weights
    let ss := if !Car.side c then c.sideStore
      else (List.range (kk / 32)).foldl (fun (m : Memory) b =>
        m.put ((selRow w * (kk / 32) + b) * Car.ncol c + col) 1 (regElem (s.vcell k (n + 32 + b / 4)).val 4 (b % 4))) c.sideStore
    { c with weights := ws, sideStore := ss }
  | _ => c

/-- CRLDV: once for each gang; the carriage is untracked and READY (R363). -/
def execCrldv (o : G3) (s : State) : Out :=
  issue (.crldv o) s (crldvCheck o) fun s ks =>
    s.onLive ks fun s k =>
      let m := s.lead k
      match s.carriageAt k (s.src32 m o.b).toNat none with
      | none => s
      | some (n, c) =>
        let c1 := s.fillColumn o.a (s.src32 m o.d).toNat c.startLoad k
        let c2 := { c1 with state := .ready, tracked := false, hulls := [], smoothed := false, smooth := [], load := none }
        ({ s with carriages := s.carriages.put n c2 } : State).syncSources

end Sys2Proof.Machine
end

