-- ==== Sys2Proof/Machine/Matrix.lean ====
section
/-!
DEFINITION. Machine/Matrix.lean: MMA and MXCTL (R330-R359), the absorption of products into accumulators (R337-R339) and
the tiles of drains (R340, R341).
-/

namespace Sys2Proof.Machine

/-! ### Descriptors (R345-R347) -/

namespace Acc345
def addr (d : W64) : Nat := bits d.toNat 20 0
def rows (d : W64) : Nat := bits d.toNat 30 22 + 1
def half (d : W64) : Bool := d.getLsbD 31
def pitch (d : W64) : Nat := 512 * bits d.toNat 43 32
def nseg (d : W64) : Nat := bits d.toNat 45 44
def kr0 (d : W64) : Nat := bits d.toNat 51 46
def nkr (d : W64) : Nat := bits d.toNat 57 52
/-- Bytes from the first element to the end of the last row. -/
def size (d : W64) : Nat := pitch d * (rows d - 1) + 512 * nseg d
/-- Reserved bits, NSEG, PITCH and ADDR as R345 and R347 want them. -/
def ok (d : W64) : Bool := decide (bits d.toNat 63 58 = 0 ∧ bits d.toNat 21 21 = 0 ∧ 1 ≤ nseg d ∧ 512 * nseg d ≤ pitch d ∧ addr d % 512 = 0)
end Acc345

namespace A346
def addr (a : W64) : Nat := bits a.toNat 21 0
def pitch (a : W64) : Nat := 16 * bits a.toNat 31 22
def saddr (a : W64) : Nat := bits a.toNat 53 32
def sc (a : W64) : Bool := a.getLsbD 54
end A346

/-- Half bytes of an A element (R88, R334). -/
def aNib : MFmt → Nat
  | .e4e4 | .e5e4 | .e4q4 | .i8i8 => 2
  | .q4q4 => 1
  | .bfbf => 4

/-- K-range of an MMA.R (R333). -/
def mmaK : MFmt → Nat
  | .bfbf => 64
  | _ => 128

/-- K-range of an MMA.S (R349). -/
def mmaSK (fmt : MFmt) (d : W64) : Nat := (Acc345.nkr d + 1) * formK (mfmtForm fmt)

/-- First byte of a tile outside its allocation, with `paired` also of the follower's (R347). -/
def State.tileOut (s : State) (b : Nat) (d : W64) (paired : Bool) : Option (Nat × Nat) :=
  (s.scratchOut b (Acc345.addr d) (Acc345.size d)).orElse fun _ =>
    if paired then s.scratchOut b (Acc345.addr d + 2 ^ 21) (Acc345.size d) else none

/-- Whether two byte ranges meet. -/
def meetRange (a n b m : Nat) : Bool := decide (a < b + m ∧ b < a + n)

/-- Whether a scratchpad address lies on a core with a part of a tile: the issuing block's, or its twin's for a paired one
(R337). -/
def tileSide (a : Nat) (paired : Bool) : Bool := decide (a / 2 ^ 21 = 0) || (paired && decide (a / 2 ^ 21 = 1))

/-- Whether a range at a scratchpad address meets the range from a tile's first byte to its last on the same core (R347). -/
def meetTile (a n : Nat) (d : W64) (paired : Bool) : Bool :=
  meetRange (a % 2 ^ 21) n (Acc345.addr d) (Acc345.size d) && tileSide a paired

/-- Whether rows of `n` bytes at a scratchpad address overlap a tile on the same core: some row meets one of the tile's (R358). -/
def overlapTile (a pitch n : Nat) (d : W64) (paired : Bool) : Bool :=
  tileSide a paired && (List.range (Acc345.rows d)).any fun i => (List.range (Acc345.rows d)).any fun j =>
    meetRange (a % 2 ^ 21 + i * pitch) n (Acc345.addr d + j * Acc345.pitch d) (512 * Acc345.nseg d)

def rangeTrap (s : State) (k : FKey) (i : Instr) : Option (Nat × Nat) → Verdict
  | some (a, why) => .trap (s.trapOf k i 0x13 (BitVec.ofNat 64 a) why)
  | none => .go

/-! ### Checks of a product (R348) -/

/-- Whether a store or atomic that a fibre issued to a carriage's source is still to be performed: it happens before the
fibre's next product, so it makes the carriage stale first (R105, R325; DEDUCED, log 7). -/
def State.ownWriteIn (s : State) (k : FKey) (c : Carriage) : Bool :=
  c.tracked && (s.ownReqs k).any fun r => r.pendingWrite (clusterOf r.core) && r.dev.isNone &&
    c.hulls.any fun h => decide (h.2.1 ≤ r.pa / 128 ∧ r.pa / 128 ≤ h.2.2)

/-- Carriage state: a write of the fibre's own to its source comes first; LOADING waits, EVICTED reloads or raises QUOTA, STALE raises; the 511 operations of INFL bound what a
core has issued (R348, R355). -/
def State.carState (s : State) (k : FKey) (i : Instr) (n : Nat) (c : Carriage) (h : Nat) : Verdict :=
  if s.ownWriteIn k c then .stall else
  match c.state with
  | .loading | .saved => .stall
  | .stale => .trap (s.trapOf k i 0x18 0 h)
  | .evicted => if s.roomFor n c then .reload n else .trap (s.trapOf k i 0x1A 0 h)
  | .ready =>
    let x := s.core (s.coreOf k)
    if 511 ≤ x.mxOps.length + x.drains.length then .stall else .go

/-- Ownership, handle and form, then what the form of the word asks of its descriptors. `m` holds the handle. -/
def mmaCheck (i : Instr) (fmt : MFmt) (paired : Bool) (b : Reg) (m : State → FKey → FKey) (desc : State → FKey → Carriage → Verdict)
    (s : State) (k : FKey) : Verdict :=
  let h := (s.src32 (m s k) b).toNat
  if !s.ownsMatrix k paired then .trap (s.trapOf k i 0x1B)
  else match s.carriageAt k h (some paired) with
    | none => .trap (s.trapOf k i 0x19 0 h)
    | some (n, c) =>
      if c.form ≠ mfmtForm fmt then .trap (s.trapOf k i 0x19 0 h)
      else match desc s k c with
        | .go => if s.acqPending k then .stall else s.carState k i n c h
        | v => v

/-- Descriptor checks of MMA.R and MMAP.R (R347). -/
def mmaRDesc (i : Instr) (fmt : MFmt) (paired : Bool) (dr : Reg) (s : State) (k : FKey) (c : Carriage) : Verdict :=
  let d := s.src64 k dr
  if Acc345.ok d && decide (Acc345.nseg d ≤ c.np ∧ Acc345.rows d = 32 ∧ Acc345.nkr d = 0 ∧ Acc345.kr0 d < c.kp) &&
      (!Acc345.half d || decide (mfmtForm fmt = 2)) then
    rangeTrap s k i (s.tileOut (s.gangOf k).1 d paired)
  else .trap (s.trapOf k i 0x02)

/-- Descriptor checks of MMA.S and MMAP.S (R346, R347). -/
def mmaSDesc (i : Instr) (fmt : MFmt) (paired : Bool) (dr ar : Reg) (s : State) (k : FKey) (c : Carriage) : Verdict :=
  let d := s.src64 k dr
  let a := s.src64 k ar
  let b := (s.gangOf k).1
  let kr := mmaSK fmt d
  let row := kr * aNib fmt / 2
  let size := A346.pitch a * (Acc345.rows d - 1) + row
  if Acc345.ok d && decide (Acc345.nseg d ≤ c.np) && !Acc345.half d && decide (Acc345.kr0 d + Acc345.nkr d + 1 ≤ c.kp) &&
      decide (bits a.toNat 63 55 = 0 ∧ bits a.toNat 3 0 = 0 ∧ A346.pitch a ≠ 0 ∧ row ≤ A346.pitch a) &&
      (match fmt with | .q4q4 => A346.sc a | .i8i8 | .bfbf => !A346.sc a | _ => true) &&
      !meetTile (A346.addr a) size d paired then
    rangeTrap s k i ((s.tileOut b d paired).orElse fun _ => (s.scratchOut b (A346.addr a) size).orElse fun _ =>
      if A346.sc a then s.scratchOut b (A346.saddr a) (Acc345.rows d * (kr / 32)) else none)
  else .trap (s.trapOf k i 0x02)

/-! ### Issue (R336, R339, R349, R350) -/

/-- Enters an operation at the tail of the core's engine. -/
def State.addMx (s : State) (k : FKey) (i : Instr) (d : W64) (kind : MxKind) (deps : List Nat) : State :=
  let s1 := s.updCore (s.coreOf k) fun x =>
    { x with mxOps := x.mxOps ++ [{ id := s.nextReq, fibre := k, desc := d, kind := kind, word := i.word, deps := deps }] }
  { s1 with nextReq := s.nextReq + 1 }

/-- Key of the carriage that a checked handle names. -/
def State.carKey (s : State) (k : FKey) (b : Reg) : Nat := Car.key (s.coreOf k) (bits (s.src32 k b).toNat 10 5)

/-- The row a lane supplies: its fragment and scale registers as they stand (R334, R350). -/
def State.fragment (s : State) (k : FKey) (a : Reg) (fmt : MFmt) : Nat × List W32 × W32 :=
  let n := if fmt = .q4q4 then 16 else 32
  match a with
  | .v r => (s.laneOf k, (List.range n).map fun j => (s.vcell k (r + j)).val, (s.vcell k (r + n)).val)
  | _ => (s.laneOf k, [], 0)

/-- MMA.R and MMAP.R: one operation for each gang with members in the coach. -/
def mmaRIssue (i : Instr) (o : MmaROp) (paired : Bool) (s : State) : Out :=
  issue i s (mmaCheck i o.fmt paired o.b State.lead (mmaRDesc i o.fmt paired o.d)) fun s ks =>
    let live := ks.filter fun k => !s.isHelper k
    (dedup (live.map s.gangOf)).foldl (fun s g =>
      match live.filter fun k => s.gangOf k = g with
      | [] => s
      | k :: r =>
        let rows := (k :: r).map fun m => s.fragment m o.a o.fmt
        s.addMx k i (s.src64 k o.d) (.mmaR o.fmt o.bsel.toNat rows (s.carKey (s.lead k) o.b) paired) []) s

def execMmaR (o : MmaROp) (s : State) : Out := mmaRIssue (.mmaR o) o false s
def execMmapR (o : MmaROp) (s : State) : Out := mmaRIssue (.mmapR o) o true s

/-- MMA.S and MMAP.S: one operation for each member. -/
def mmaSIssue (i : Instr) (o : MmaSOp) (paired : Bool) (s : State) : Out :=
  issueSerial i s (mmaCheck i o.fmt paired o.b (fun _ k => k) (mmaSDesc i o.fmt paired o.d o.a)) fun s k =>
    s.addMx k i (s.src64 k o.d) (.mmaS o.fmt (s.src64 k o.a) (s.carKey k o.b) paired) []

def execMmaS (o : MmaSOp) (s : State) : Out := mmaSIssue (.mmaS o) o false s
def execMmapS (o : MmaSOp) (s : State) : Out := mmaSIssue (.mmapS o) o true s

/-! ### Ownership and status (R353, R355) -/

/-- Puts a gang into the owner queues it is to wait in, unless it stands in one or owns (R330, R332). -/
def State.enterMx (s : State) (paired : Bool) (k : FKey) : State :=
  let add := fun (x : Core) => { x with mxq := x.mxq ++ [(s.gangOf k, paired)] }
  let c := s.coreOf k
  if s.matrixState k ≠ 0 then s
  else if paired then (s.updCore c add).updCore (partnerOf c) add
  else s.updCore c add

/-- Makes a fibre at MXACQ ready when its gang owns the engine. -/
def State.ownerReady (s : State) (k : FKey) : State :=
  if (match (s.fib k).wait with | .mxacq _ => true | _ => false) && decide (s.matrixState k = 2) then s.resume k else s

/-- MXACQ and MXACQ.P: members wait at the word; ownership, where it is free, is granted at once (R353). -/
def acquireMx (i : Instr) (paired : Bool) (check : State → FKey → Verdict) (s : State) : Out :=
  issue i s check
    (fun s ks => s.onLive ks fun s k => (s.enterMx paired k).updFib k fun f => { f with wait := .mxacq paired })
    (fun s k => (s.fib k).pc)
    fun s ks => s.onLive ks fun s k => (s.grant (s.coreOf k)).ownerReady k

def execMxacq (s : State) : Out := acquireMx .mxacq false noCheck s

/-- MXACQ.P: only the leader half of a twin, and no gang that holds or awaits one array (R353). -/
def mxacqPCheck (s : State) (k : FKey) : Verdict :=
  if !s.leaderBlock k || decide (s.matrixState k = 1) || (decide (s.matrixState k = 2) && !s.ownsMatrix k true) then .trap (s.trapOf k .mxacqP 0x1B)
  else .go

def execMxacqP (s : State) : Out := acquireMx .mxacqP true mxacqPCheck s

def execMxrel (s : State) : Out := issue .mxrel s noCheck fun s ks => s.onLive ks fun s k => s.releaseMatrix (s.gangOf k)
def execMxrelP (s : State) : Out := issue .mxrelP s noCheck fun s ks => s.onLive ks fun s k => s.releaseMatrix (s.gangOf k)

/-- The word MXSTAT answers: PAIRED of the follower whose array is slaved (R355; DEDUCED, log 26). -/
def State.mxStatus (s : State) (k : FKey) : W32 :=
  let c := s.coreOf k
  let x := s.core c
  BitVec.ofNat 32 ((if x.ownerPaired && decide (c % 2 = 1) then 2 ^ 31 else 0) + s.matrixState k * 2 ^ 29 + x.mxq.length % 16 * 2 ^ 25 +
    (x.mxOps.length + x.drains.length) % 512 * 2 ^ 16)

def execMxstat (d : Reg) (s : State) : Out := compute (.mxstat d) s fun s k => if s.isHelper k then [] else [.reg d (s.mxStatus k)]

/-! ### MXZERO (R356) -/

/-- A full engine takes no further operation (R355). -/
def State.mxFull (s : State) (k : FKey) : Bool :=
  let x := s.core (s.coreOf k)
  s.acqPending k || decide (511 ≤ x.mxOps.length + x.drains.length)

def mxzeroCheck (d : Reg) (both : Bool) (s : State) (k : FKey) : Verdict :=
  let i := Instr.mxzero d both
  if !s.ownsMatrix k both then .trap (s.trapOf k i 0x1B)
  else if !Acc345.ok (s.src64 k d) then .trap (s.trapOf k i 0x02)
  else match rangeTrap s k i (s.tileOut (s.gangOf k).1 (s.src64 k d) both) with
    | .go => if s.mxFull k then .stall else .go
    | v => v

def execMxzero (d : Reg) (both : Bool) (s : State) : Out :=
  issueSerial (.mxzero d both) s (mxzeroCheck d both) fun s k => s.addMx k (.mxzero d both) (s.src64 k d) (.zero both) []

/-! ### MXDRAIN (R357, R358) -/

namespace Dr
def ctl (g : List W32) : Nat := groupWord g 3
def scexp (g : List W32) : Int := int8 (bits (ctl g) 23 16)
def pair (g : List W32) : Bool := (ctl g).testBit 5
def space (g : List W32) : Bool := (ctl g).testBit 4
def add (g : List W32) : Bool := (ctl g).testBit 3
def ofmt (g : List W32) : Nat := bits (ctl g) 2 0
/-- Size of a drained element. -/
def esize (g : List W32) : Nat := [4, 2, 1, 1].getD (ofmt g) 1
def fmt (g : List W32) : Fmt := [fp32, bf16, e4m3, e5m2].getD (ofmt g) fp32
def dest (g : List W32) : Nat := groupLaddr g
def pitch (g : List W32) : Nat := groupWord g 2
/-- Columns of a tile, the follower's after the leader's, and bytes of a destination row. -/
def cols (g : List W32) (d : W64) : Nat := 128 * Acc345.nseg d * (if pair g then 2 else 1)
def rowLen (g : List W32) (d : W64) : Nat := cols g d * esize g
/-- Bytes from the first destination byte to the end of the last row. -/
def span (g : List W32) (d : W64) : Nat := pitch g * (Acc345.rows d - 1) + rowLen g d
/-- The ILL_FIELD row of R358. -/
def ok (g : List W32) (d : W64) : Bool :=
  Acc345.ok d && decide (bits (ctl g) 31 24 = 0 ∧ bits (ctl g) 15 6 = 0 ∧ ofmt g < 4) && !(add g && decide (2 ≤ ofmt g)) &&
    !(add g && !space g && decide (ofmt g ≠ 0)) && decide (rowLen g d ≤ pitch g) && (space g || decide (groupWord g 1 = 0)) &&
    !(!space g && overlapTile (dest g) (pitch g) (rowLen g d) d (pair g))
/-- Virtual addresses of the bytes that begin a row or, inside a row, a page. -/
def starts (g : List W32) (d : W64) : List W64 :=
  (List.range (Acc345.rows d)).flatMap fun i =>
    let a := dest g + i * pitch g
    let n := 65536 - a % 65536
    BitVec.ofNat 64 a :: if n < rowLen g d then [BitVec.ofNat 64 (a + n)] else []
end Dr

/-- The first verdict of a list that is not go. -/
def firstVerdict (l : List Verdict) : Verdict := (l.find? (· ≠ .go)).getD .go

/-- The page rows of R358: each destination page as a store; cell class; what the drain path cannot reach; a shared-store
destination in one bank. -/
def State.drainPages (s : State) (k : FKey) (i : Instr) (g : List W32) (d : W64) : Verdict :=
  let starts := Dr.starts g d
  let chk := fun (va : W64) => s.checkGlobal k .store va
  let cell := fun (v : Chk) => match v with | .bad 0x11 2 => true | _ => false
  let row1 := firstVerdict (starts.map fun va => match chk va with
    | .miss => .miss va
    | .bad c r => if cell (.bad c r) then .go else s.faultVerdict k i va c r
    | .ok _ => .go)
  let row2 := firstVerdict (starts.map fun va => if cell (chk va) then .trap (s.trapOf k i 0x11 va 2) else .go)
  let row3 := firstVerdict (starts.map fun va => match chk va with
    | .ok t => match t.dev with
      | some m => .trap (s.trapOf k i 0x11 va (if isGroup m then 6 else 4))
      | none => if inHost t.pa || pteUc t.pte then .trap (s.trapOf k i 0x11 va 4) else .go
    | _ => .go)
  let pa := fun (va : Nat) => match chk (BitVec.ofNat 64 va) with | .ok t => t.pa | _ => 0
  let first := pa (Dr.dest g)
  let last := pa (Dr.dest g + Dr.span g d - 1)
  let row4 : Verdict :=
    if (inWindow first || inWindow last) && !(inWindow first && inWindow last && decide (bankOf (first - windowBase) = bankOf (last - windowBase)))
    then .trap (s.trapOf k i 0x02) else .go
  firstVerdict [row1, row2, row3, row4]

/-- MXDRAIN's checks, row by row; a fault recorded on T4 comes first (R308, R358). -/
def mxdrainCheck (o : G3) (s : State) (k : FKey) : Verdict :=
  let i := Instr.mxdrain o
  let g := s.groupOf k o.b
  let d := s.src64 k o.a
  let b := (s.gangOf k).1
  match s.ctxReport k i 4 with
  | some v => v
  | none =>
    if !s.ownsMatrix k (Dr.pair g) then .trap (s.trapOf k i 0x1B)
    else if !Dr.ok g d then .trap (s.trapOf k i 0x02)
    else if Dr.dest g % Dr.esize g ≠ 0 ∨ Dr.pitch g % Dr.esize g ≠ 0 then .trap (s.trapOf k i 0x12 (BitVec.ofNat 64 (Dr.dest g)))
    else match rangeTrap s k i ((s.tileOut b d (Dr.pair g)).orElse fun _ => if Dr.space g then none else s.scratchOut b (Dr.dest g) (Dr.span g d)) with
      | .go => match (if Dr.space g then s.drainPages k i g d else .go) with
        | .go => if s.mxFull k then .stall else .go
        | v => v
      | v => v

/-- The physical parts of each destination row. -/
def State.drainRows (s : State) (k : FKey) (g : List W32) (d : W64) : List (List DrainPiece) :=
  let piece := fun (a n : Nat) => match s.checkGlobal k .store (BitVec.ofNat 64 a) with
    | .ok t => [({ pa := t.pa, len := n, undo := undoOf (s.blockOf k).lid t.pte, hsec := pteHsec t.pte } : DrainPiece)]
    | _ => []
  if !Dr.space g then []
  else (List.range (Acc345.rows d)).map fun i =>
    let a := Dr.dest g + i * Dr.pitch g
    let n := min (Dr.rowLen g d) (65536 - a % 65536)
    piece a n ++ if n < Dr.rowLen g d then piece (a + n) (Dr.rowLen g d - n) else []

/-- MXDRAIN takes the next ticket on T4 (R358). -/
def execMxdrain (o : G3) (s : State) : Out :=
  issueSerial (.mxdrain o) s (mxdrainCheck o) fun s k =>
    let g := s.groupOf k o.b
    let d := s.src64 k o.a
    let (t, s1) := (s.follows (.agent k) (opParty k s.nextReq)).takeTicket k (s.coreOf k) 4
    (s1.addMx k (.mxdrain o) d (.drain g t (s.drainRows k g d)) (s.outstanding k)).putOnce64 k o.d (BitVec.ofNat 64 t)

/-! ### Products (R38, R39, R349) -/

/-- Exact value of an A code under its scale byte, and the exponent the byte gives beside it (R38, R335). -/
def aVal (f : MFmt) (sc code : Nat) : FVal :=
  match f with
  | .e4e4 | .e4q4 => e4m3.decode code
  | .e5e4 => e5m2.decode code
  | .q4q4 => q4Decode sc code
  | .i8i8 => elemVal 0x15 code
  | .bfbf => bf16.decode code

def aExp (f : MFmt) (sc : Nat) : Int :=
  match f with
  | .e4e4 | .e5e4 | .e4q4 => ((sc % 64 : Nat) : Int) - 32
  | .q4q4 | .i8i8 | .bfbf => 0

/-- As `aVal` and `aExp`, of a weight; `side` says whether its plane has a side store (R320). -/
def bVal (f : MFmt) (sc code : Nat) : FVal :=
  match f with
  | .e4e4 | .e5e4 => e4m3.decode code
  | .e4q4 | .q4q4 => q4Decode sc code
  | .i8i8 => elemVal 0x15 code
  | .bfbf => bf16.decode code

def bExp (f : MFmt) (side : Bool) (sc : Nat) : Int :=
  match f with
  | .e4e4 | .e5e4 => if side then ((sc % 64 : Nat) : Int) - 32 else 0
  | .e4q4 | .q4q4 | .i8i8 | .bfbf => 0

/-- t of one block: the exact sum of products, scaled, rounded once; an exact zero is +0 (R38, R39). -/
def blockTerm (f : MFmt) (side : Bool) (as bs : List Nat) (sa sb : Nat) : Nat :=
  let p := (as.zip bs).foldl (fun (acc : FVal) x => acc.add ((aVal f sa x.1).mul (bVal f sb x.2))) (.fin false 0 0)
  match p with
  | .fin _ 0 _ => 0
  | p => fp32.encode (p.scale (aExp f sa + bExp f side sb))

/-- acc over the blocks (R38). -/
def sumBlocks : List Nat → Nat
  | [] => 0
  | t :: ts => ts.foldl fp32.add t

/-- The A row of an operation: its codes, its scale byte of a block, and whether an uncorrectable word stands in it. -/
structure ARow where
  code : Nat → Nat
  scale : Nat → Nat
  poisoned : Bool

/-- Row `i` of A from registers (R334, R335). -/
def regRow (f : MFmt) (bsel : Nat) (frag : List W32) (sc : W32) : ARow where
  code := fun k => let e := 8 / aNib f; regElem (frag.getD (k / e) 0) e (k % e)
  scale := fun b => regElem sc 4 ((bsel + b) % 4)
  poisoned := false

/-- Row `i` of A from a tile in the scratchpad, as fibre `k` of block `b` reads it; without scale bytes the exponent is 0 (R118,
R346). -/
def State.tileRow (s : State) (k : FKey) (b : Nat) (f : MFmt) (a : W64) (kr i : Nat) : ARow :=
  let n := kr * aNib f / 2
  let at_ : Nat → Nat → List Byte × Bool := fun x m => match s.scratchAddr b x with
    | .ok (y, off) => (s.scratchSeen (.agent k) y off m, s.scratchPoisoned y off m)
    | .error _ => ([], false)
  let row := at_ (A346.addr a + A346.pitch a * i) n
  let sc := if A346.sc a then at_ (A346.saddr a + i * (kr / 32)) (kr / 32) else ([], false)
  { code := fun k => takeNibbles row.1 (k * aNib f) (aNib f)
    scale := fun b => if A346.sc a then (sc.1.getD b 0).toNat else 32
    poisoned := row.2 || sc.2 }

/-- The element sum acc of a row and a column of a carriage (R38, R349). -/
def dot (f : MFmt) (c : Carriage) (r : ARow) (base kr n : Nat) : Nat :=
  sumBlocks ((List.range ((kr + 31) / 32)).map fun b =>
    let ks := (List.range (min 32 (kr - 32 * b))).map (32 * b + ·)
    blockTerm f (Car.side c) (ks.map r.code) (ks.map fun k => Car.code c (base + k) n) (r.scale b) (Car.scale c (base / 32 + b) n))

/-! ### Absorption (R337-R339) -/

/-- Whether an operation runs both arrays of its cluster (R332). -/
def MxOp.both (o : MxOp) : Bool :=
  match o.kind with
  | .mmaR _ _ _ _ p | .mmaS _ _ _ p => p
  | .zero b => b
  | .drain g _ _ => Dr.pair g

/-- Row, array and segment of each step of an operation. -/
def MxOp.segs (o : MxOp) : List (Nat × Nat × Nat) :=
  let rows : List Nat := match o.kind with | .mmaR _ _ rs _ _ => rs.map (·.1) | _ => List.range (Acc345.rows o.desc)
  rows.flatMap fun i => (if o.both then [0, 1] else [0]).flatMap fun x => (List.range (Acc345.nseg o.desc)).map fun g => (i, x, g)

/-- Block and offset of a segment of a tile: the issuing block's, or its twin's for the follower's part (R337, R345). -/
def State.segAt (s : State) (o : MxOp) (i x g : Nat) : Nat × Nat :=
  let b := s.opBlock o.fibre
  (if x = 0 then b else (s.block b).twin.getD b, Acc345.addr o.desc + Acc345.pitch o.desc * i + 512 * g)

/-- Who updates row `i` of an operation's tile: the issuing fibre, of an MMA.R the lane that supplies the row (R118, R336). -/
def MxOp.writer (o : MxOp) (i : Nat) : Writer :=
  { who := .agent (match o.kind, o.fibre with | .mmaR _ _ _ _ _, .fib b n => .fib b (n / 32 * 32 + i) | _, k => k), unit := 4, req := some o.id }

/-- Writes a segment of 128 elements; words derived from an uncorrectable one stay so (R351). -/
def State.putSegment (s : State) (w : Writer) (b off : Nat) (vs : List Nat) (bad : Nat → Bool) : State :=
  let old := (List.range 64).filter fun w => s.scratchPoisoned b (off + 8 * w) 8
  let s1 := s.scratchWrite w b off (vs.flatMap (toBytes 4))
  (List.range 64).foldl (fun s w => if bad w || old.contains w then s.scratchPoison b (off + 8 * w) 8 else s) s1

/-- What of a tile row A is read, as the issuing fibre's reads of its scratchpad (R118). -/
def State.readRow (s : State) (k : FKey) (b : Nat) (f : MFmt) (a : W64) (kr i : Nat) : State :=
  let read := fun (s : State) (x m : Nat) => match s.scratchAddr b x with
    | .ok (y, off) => s.scratchRead (.agent k) y off m none
    | .error _ => s
  let s := read s (A346.addr a + A346.pitch a * i) (kr * aNib f / 2)
  if A346.sc a then read s (A346.saddr a + i * (kr / 32)) (kr / 32) else s

/-- Absorbs one segment of a product (R38, R337). -/
def State.absorb (s : State) (o : MxOp) (f : MFmt) (car : Nat) (row : ARow) (base kr i x g : Nat) : State :=
  match s.carriages.at? car with
  | none => s
  | some c =>
    let (b, off) := s.segAt o i x g
    let vs := (List.range 128).map fun j =>
      fp32.add (s.scratchGet b (off + 4 * j) 4) (dot f c row base kr (x * 128 * c.np + 128 * g + j))
    s.putSegment (o.writer i) b off vs fun _ => row.poisoned

/-- K position of the first weight an operation uses (R349). -/
def kBase (f : MFmt) (d : W64) : Nat := Acc345.kr0 d * formK (mfmtForm f) + (if Acc345.half d then 128 else 0)

/-- The tile a drain reads, with its destinations: scratchpad storage bytes, or physical addresses (R359). -/
def State.readTile (s : State) (core : Nat) (o : MxOp) (g : List W32) (ticket : Nat) (rows : List (List DrainPiece)) : Drain :=
  let d := o.desc
  let b := s.opBlock o.fibre
  let half := 128 * Acc345.nseg d
  let cells := positions (Acc345.rows d) (Dr.cols g d)
  let src := fun (i j : Nat) =>
    let (x, off) := s.segAt o i (j / half) 0
    (x, off + 4 * (j % half))
  let dst := fun (i j : Nat) =>
    let off := j * Dr.esize g
    match rows.getD i [], s.scratchAddr b (Dr.dest g) with
    | p :: r, _ => if off < p.len then (p.pa + off, p.undo) else (match r with | q :: _ => (q.pa + (off - p.len), q.undo) | [] => (p.pa + off, p.undo))
    | [], .ok (x, at_) => (s.scratchKey x (at_ + i * Dr.pitch g + off), none)
    | [], .error _ => (0, none)
  { id := o.id, core := core, fibre := o.fibre, ticket := ticket, word := o.word
    target := if !Dr.space g then 0 else if inWindow (dst 0 0).1 then 1 else 2
    add := Dr.add g, ofmt := Dr.ofmt g, scexp := Dr.scexp g
    undo := cells.map fun p => (dst p.1 p.2).2
    elems := cells.map fun p => let (x, off) := src p.1 p.2; ((dst p.1 p.2).1, s.scratchGet x off 4)
    lines := dedup (rows.flatMap fun r => r.flatMap fun p => (linesOf p.pa p.len).map fun la => (homeSlice (la * 128) p.hsec, la))
    poisoned := (cells.find? fun p => let (x, off) := src p.1 p.2; s.scratchPoisoned x off 4).map fun p =>
      p.2 / half * 2 ^ 21 + Acc345.addr d + Acc345.pitch d * p.1 + 4 * (p.2 % half)
    twin := !Dr.space g && decide (Dr.dest g / 2 ^ 21 = 1) }

/-- Moves the head of a core's engine one step on; an operation that has taken its last leaves (DEDUCED, log 21; DEDUCED, log 24). -/
def State.stepMx (s : State) (core : Nat) (o : MxOp) : State :=
  s.updCore core fun x =>
    { x with mxOps := if o.next + 1 < o.segs.length then { o with next := o.next + 1 } :: x.mxOps.drop 1 else x.mxOps.drop 1 }

/-- Whether an operation must wait for one that the cluster's other core took before it: the operations on each core's
accumulators are applied in issue order, and a paired one touches both cores' (R330, R339). -/
def State.mxBehind (s : State) (core : Nat) (o : MxOp) : Bool :=
  let x := s.core (partnerOf core)
  (x.mxOps.any fun p => decide (p.id < o.id) && (o.both || p.both)) || (o.both && x.drains.any (·.target = 0))

/-- ACCUMULATOR_ABSORB: the oldest operation of core `unit` performs its next segment, or its drain reads its tile. Tiles on
their way to a scratchpad are applied first (R337-R340). -/
def execAccumulatorAbsorb (s : State) : Out :=
  let core := s.args.unit
  let no : Out := .refused (.notEnabled "ACCUMULATOR_ABSORB")
  match (s.core core).mxOps with
  | [] => no
  | o :: _ =>
    if !s.depsDone o.deps || (s.core core).drains.any (·.target = 0) || s.mxBehind core o then no
    else match o.kind, o.segs[o.next]? with
      | .drain g t rows, _ =>
        .next ((s.joins (opParty o.fibre o.id) o.deps).updCore core fun x =>
          { x with mxOps := x.mxOps.drop 1, drains := x.drains ++ [s.readTile core o g t rows] })
      | _, none => .next (s.stepMx core o)
      | .mmaR f bsel rs car _, some (i, x, g) =>
        let row : ARow := match rs.find? (·.1 = i) with | some (_, frag, sc) => regRow f bsel frag sc | none => regRow f bsel [] 0
        .next ((s.absorb o f car row (kBase f o.desc) (mmaK f) i x g).stepMx core o)
      | .mmaS f a car _, some (i, x, g) =>
        let kr := mmaSK f o.desc
        let row := s.tileRow o.fibre (s.opBlock o.fibre) f a kr i
        .next (((s.readRow o.fibre (s.opBlock o.fibre) f a kr i).absorb o f car row (kBase f o.desc) kr i x g).stepMx core o)
      | .zero _, some (i, x, g) =>
        let (b, off) := s.segAt o i x g
        .next ((s.scratchWrite (o.writer i) b off (List.replicate 512 0)).stepMx core o)

/-! ### Tiles (R340, R341, R359) -/

/-- The format and size of a drain's elements. -/
def Drain.fmt (d : Drain) : Fmt := [fp32, bf16, e4m3, e5m2].getD d.ofmt fp32
def Drain.esize (d : Drain) : Nat := [4, 2, 1, 1].getD d.ofmt 1

/-- The new pattern of an element over an old one (R359). -/
def Drain.value (d : Drain) (old pat : Nat) : Nat :=
  let x := (fp32.decode pat).scale d.scexp
  d.fmt.encode (if d.add then (d.fmt.decode old).add x else x)

/-- Whether a plain tile covers a whole unit of `n` bytes. -/
def Drain.covers (d : Drain) (n u : Nat) : Bool :=
  !d.add && (List.range (n / d.esize)).all fun i => d.elems.any fun e => e.1 = n * u + i * d.esize

/-- A drain's operation as an agent (R95, R119). -/
def Drain.party (d : Drain) : Party := opParty d.fibre d.id

/-- Performs the write of one element: in the scratchpad's storage, or at its home. -/
def State.putElem (s : State) (d : Drain) (e : Nat × Nat) (undo : Option Nat) : State :=
  let w : Writer := { who := d.party }
  if d.target = 0 then
    { s.noteWrite w true e.1 (s.scratch.bytes e.1 d.esize) with scratch := s.scratch.put e.1 d.esize (d.value (s.scratch.get e.1 d.esize) e.2) }
  else s.homeWrite undo w e.1 (toBytes d.esize (d.value (s.mem.get e.1 d.esize) e.2))

/-- Writes a tile: all of its elements together, as one write; a poisoned tile writes nothing (R119, R278, R359). -/
def State.applyTile (s : State) (d : Drain) : State :=
  if d.poisoned.isSome then s
  else
    let s1 := ((d.elems.zip d.undo).foldl (fun s x => s.putElem d x.1 x.2) s).fuse s.veil.next
    if d.target = 0 then { s1 with poisonScratch := s1.poisonScratch.filter fun w => !d.covers 8 w }
    else { s1 with
      poisonLines := s1.poisonLines.filter fun l => !d.covers 128 l
      poisonWords := s1.poisonWords.filter fun w => !d.covers 8 w }

/-- A drain ends: its T4 ticket completes; an uncorrectable source is recorded (R340, R359). -/
def State.finishDrain (s : State) (d : Drain) : State :=
  let s1 := (s.applyTile d).updCore d.core fun x => { x with drains := x.drains.filter (·.id ≠ d.id) }
  let s2 : State := match d.poisoned with
    | some a => s1.recordFault d.core 4 (abortFault (s.gangOf d.fibre) (s.laneOf d.fibre) 0x30 0 (BitVec.ofNat 64 a))
    | none => s1
  s2.completeTicket d.party (if d.target ≠ 0 then .dev else if d.twin then .clu else .blk) d.core 4 d.ticket

/-- Whether every line of a tile can be written now (R111, R341, R421). -/
def State.tileOpen (s : State) (d : Drain) : Bool := d.poisoned.isSome || decide (d.target = 0) || d.lines.all (s.lineOpen d.party)

/-- DRAIN_TILE_PERFORM (R340, R341): drain `item` of core `unit`, to a scratchpad or to DRAM (DEDUCED, log 31). A tile for DRAM
that is not performed at once stands at its lines, and what reaches them waits for it. -/
def execDrainTilePerform (s : State) : Out :=
  let no : Out := .refused (.notEnabled "DRAIN_TILE_PERFORM")
  match (s.core s.args.unit).drains.find? (·.id = s.args.item) with
  | some d =>
    if d.target = 1 then no
    else if d.poisoned.isNone && decide (d.target ≠ 0) && s.visitBarred d.lines then no
    else if s.tileOpen d then .next ((d.lines.foldl (fun s l => s.visitLine d.party.caller l.1 l.2) s).finishDrain d)
    else if d.lines.all fun l => s.holds.any fun h => decide (h.line = l ∧ h.owner = d.party) then no
    else .next (s.claim d.party d.lines)
  | none => no

end Sys2Proof.Machine
end

