-- ==== Sys2Proof/Machine/Bank.lean ====
section
/-!
DEFINITION. Machine/Bank.lean: BXC (R372-R377), the element steps of the bank executors (R370, R375, R376), the completion
of their commands (R112, R388) and the tiles applied at a bank (R371).
-/

namespace Sys2Proof.Machine

/-! ### Fields of a command (R374, R375) -/

namespace Bx
def op (c : BankCmd) : Nat := bits c.w0.toNat 31 24
def count (c : BankCmd) : Nat := bits c.w0.toNat 23 16 + 1
def sub (c : BankCmd) : Nat := bits c.w0.toNat 15 12
def w32 (c : BankCmd) : Bool := c.w0.getLsbD 10
def fmt (c : BankCmd) : Nat := bits c.w0.toNat 9 8
def exe (c : BankCmd) : Bool := c.w0.getLsbD 4
def scope (c : BankCmd) : Nat := bits c.w0.toNat 3 0
def a1 (c : BankCmd) : Nat := c.w1.toNat
def a2 (c : BankCmd) : Nat := c.w2.toNat
def a3 (c : BankCmd) : Nat := c.w3.toNat
/-- No word is named. -/
def none_ : Nat := 0xFFFFFFFF
/-- Element sizes by FMT. -/
def esize (c : BankCmd) : Nat := [4, 2, 2, 4].getD (fmt c) 4
def ffmt (c : BankCmd) : Fmt := [fp32, fp16, bf16, fp32].getD (fmt c) fp32
/-- Size of SUM's result. -/
def osize (c : BankCmd) : Nat := if w32 c then 4 else esize c
/-- The scope a flag command names (R98, R374). -/
def sc (c : BankCmd) : Scope := match scope c with | 6 => .die | 7 => .dev | 8 => .fab | 9 => .bank | _ => .home
/-- Whether a scope is die or wider (R112). -/
def wide (c : BankCmd) : Bool := decide (6 ≤ scope c ∧ scope c ≤ 8)

/-- Ranges of the bank that a command names: offset, bytes, alignment. -/
def ranges (c : BankCmd) : List (Nat × Nat × Nat) :=
  let n := esize c * count c
  let opt := if a2 c = none_ then [] else [(a2 c, 4, 4)]
  match op c with
  | 1 => [(a1 c, osize c, osize c), (a2 c, n, esize c)]
  | 2 | 3 | 4 => [(a1 c, n, esize c), (a2 c, n, esize c)]
  | 5 => [(a1 c, n, esize c)]
  | 6 => (a1 c, 4, 4) :: opt
  | 7 => opt
  | _ => []

/-- Whether words 0 to 3 stand as R374 and R375 want them. -/
def ok (c : BankCmd) : Bool :=
  let o := op c
  let opt := decide (a2 c < 2 ^ 20 ∨ a2 c = none_)
  decide (1 ≤ o ∧ o ≤ 8 ∧ bits c.w0.toNat 11 11 = 0 ∧ bits c.w0.toNat 7 5 = 0) &&
  decide (if o = 6 then sub c < 8 else sub c = 0) &&
  (!w32 c || decide (o = 1 ∧ fmt c ≠ 3)) &&
  decide (if o = 7 ∨ o = 8 then scope c ∈ [6, 7, 8, 9, 11] else scope c = 0) &&
  (decide (o ≠ 6 ∧ o ≠ 8) || decide (count c = 1)) && (decide (o ≤ 5) || decide (fmt c = 0)) &&
  (decide (o = 7 ∨ o = 8) || decide (a1 c < 2 ^ 20)) &&
  (match o with
    | 1 | 3 | 4 => decide (a2 c < 2 ^ 20 ∧ a3 c = 0)
    | 2 => decide (a2 c < 2 ^ 20)
    | 5 | 8 => decide (a2 c = 0)
    | 6 | 7 => opt
    | _ => false)
end Bx

/-- A bank command as its words give it. -/
def bankCmd (g : List W32) : BankCmd :=
  { id := 0, w0 := g.getD 0 0, w1 := g.getD 1 0, w2 := g.getD 2 0, w3 := g.getD 3 0, core := 0, fibre := .ap 0, block := 0, ticket := 0 }

def State.bank (s : State) (n : Nat) : Bank := s.banks.atD n {}
def Bank.queue (b : Bank) (exe : Bool) : List BankCmd := if exe then b.e1 else b.e0
def Bank.setQueue (b : Bank) (exe : Bool) (q : List BankCmd) : Bank := if exe then { b with e1 := q } else { b with e0 := q }
def Bank.dirty (b : Bank) (exe : Bool) : List Nat := if exe then b.dirty1 else b.dirty0
def Bank.setDirty (b : Bank) (exe : Bool) (l : List Nat) : Bank := if exe then { b with dirty1 := l } else { b with dirty0 := l }
def State.updBank (s : State) (n : Nat) (f : Bank → Bank) : State := { s with banks := s.banks.put n (f (s.bank n)) }

/-- Physical address of an offset of a bank. -/
def bankPa (n off : Nat) : Nat := windowBase + n * 2 ^ 20 + off

/-! ### BXC (R372, R373) -/

/-- The bank the address in A lies in. -/
def State.bankAt (s : State) (k : FKey) (a : Reg) : Option Nat :=
  match s.checkGlobal k .store (s.src64 k a) with
  | .ok t => if t.dev.isNone ∧ inWindow t.pa then some (bankOf (t.pa - windowBase)) else none
  | _ => none

def bxcCheck (o : G3) (s : State) (k : FKey) : Verdict :=
  let i := Instr.bxc o
  let va := s.src64 k o.a
  let c := bankCmd (s.groupOf k o.b)
  let flag := windowBase + Bx.a1 c
  match s.ctxReport k i 5 with
  | some v => v
  | none => match s.checkGlobal k .store va with
    | .miss => .miss va
    | .bad cause r => s.faultVerdict k i va cause r
    | .ok t =>
      if s.acqPending k then .stall
      else match t.dev with
      | some d => .trap (s.trapOf k i 0x11 va (if isGroup d then 6 else 4))
      | none =>
        let n := bankOf (t.pa - windowBase)
        if !inWindow t.pa then .trap (s.trapOf k i 0x11 va 4)
        else if !Bx.ok c then .trap (s.trapOf k i 0x02)
        else if (Bx.ranges c).any fun r => decide (r.1 % r.2.2 ≠ 0) then .trap (s.trapOf k i 0x12 va)
        else if (Bx.ranges c).any fun r => decide (2 ^ 20 < r.1 + r.2.1) || !s.ssaOk (n * 2 ^ 20 + r.1 + r.2.1 - 1) then .trap (s.trapOf k i 0x10 va 0)
        else if (Bx.op c = 7 ∨ Bx.op c = 8) ∧ Bx.a1 c % 4 ≠ 0 then .trap (s.trapOf k i 0x12 (BitVec.ofNat 64 flag))
        else if (Bx.op c = 7 ∨ Bx.op c = 8) ∧ !s.ssaOk (Bx.a1 c) then .trap (s.trapOf k i 0x10 (BitVec.ofNat 64 flag) 0)
        else if 16 ≤ ((s.bank n).queue (Bx.exe c)).length then .stall
        else .go

/-- BXC takes the next T5 ticket and enters the command; it makes a rollback launch non-recoverable (R373, R378; DEDUCED, log 25). -/
def execBxc (o : G3) (s : State) : Out :=
  issueSerial (.bxc o) s (bxcCheck o) fun s k =>
    match s.bankAt k o.a with
    | none => s
    | some n =>
      let core := s.coreOf k
      let (t, s1) := (s.follows (.agent k) (opParty k s.nextReq)).takeTicket k core 5
      let c := { bankCmd (s.groupOf k o.b) with
        id := s.nextReq, core := core, fibre := k, block := (s.gangOf k).1, ticket := t, deps := s.outstanding k }
      let s2 := s1.updBank n fun b => b.setQueue (Bx.exe c) (b.queue (Bx.exe c) ++ [c])
      (({ s2 with nextReq := s.nextReq + 1 } : State).nonRecoverable (s.blockOf k).lid .bank).putOnce64 k o.d (BitVec.ofNat 64 t)

/-! ### Element steps (R370, R371, R375) -/

/-- A tile waits to be applied at a bank. -/
def State.tilesAt (s : State) (n : Nat) : Bool :=
  s.cores.any fun c => c.2.drains.any fun d => decide (d.target = 1) &&
    (match d.elems with | e :: _ => decide (bankOf (e.1 - windowBase) = n) | [] => false)

/-- Reads an element as an executor finds it; whether its word is uncorrectable (R102, R377). -/
def State.bankGet (s : State) (n : Nat) (exe : Bool) (off size : Nat) : Nat × Bool :=
  (ofBytes (s.viewed { who := .exec n exe } (bankPa n off) (s.mem.bytes (bankPa n off) size)), s.memPoisoned (bankPa n off) size)

/-- Writes an element, at once; an element derived from an uncorrectable word is so itself (R112, R378). -/
def State.bankPut (s : State) (n : Nat) (exe : Bool) (off size v : Nat) (bad : Bool) (rmw : Bool := false) : State :=
  let pa := bankPa n off
  let s1 := (s.homeWrite none { who := .exec n exe, rmw := rmw } pa (toBytes size v)).updBank n fun b => b.setDirty exe (dedup (b.dirty exe ++ [pa / 128]))
  if bad then { s1 with poisonWords := dedup (s1.poisonWords ++ [pa / 8]) } else s1

/-- The first uncorrectable word a command reads is recorded with its core's T5 context (R378). -/
def State.bankPoison (s : State) (c : BankCmd) (n off : Nat) (bad : Bool) : State :=
  if bad then s.recordFault c.core 5 (abortFault (s.gangOf c.fibre) (s.laneOf c.fibre) 0x30 0 (BitVec.ofNat 64 (bankPa n off / 8 * 8))) else s

/-- Puts a changed head command back; what precedes its BXC in program order happens before what the executor does (R377). -/
def State.setHead (s : State) (n : Nat) (exe : Bool) (c : BankCmd) : State :=
  ((s.joins (.exec n exe) c.deps).follows (opParty c.fibre c.id) (.exec n exe)).updBank n fun b => b.setQueue exe (c :: (b.queue exe).drop 1)

/-- A command's writes are performed: it leaves its queue, and its completion, a release at die scope, waits for the leases
of the lines its executor has written (R112, R377, R388). -/
def State.endCmd (s : State) (n : Nat) (exe : Bool) (c : BankCmd) : State :=
  let before := (s.bankDone.filter fun d => d.bank = n && d.exe = exe).flatMap BankDone.lines
  let done : BankDone := { bank := n, exe := exe, core := c.core, ticket := c.ticket, block := c.block, lines := dedup (before ++ (s.bank n).dirty exe), by_ := opParty c.fibre c.id }
  { ((s.follows (.exec n exe) (opParty c.fibre c.id)).updBank n fun b => (b.setQueue exe ((b.queue exe).drop 1)).setDirty exe []) with bankDone := s.bankDone ++ [done] }

/-- Result of SUM (R36, R41). -/
def bankSum (c : BankCmd) (xs : List Nat) : Nat :=
  if Bx.fmt c = 3 then (xs.foldl (fun (a : W32) x => a + BitVec.ofNat 32 x) 0).toNat
  else if Bx.w32 c then pairwise fp32.add 0 (xs.map ((Bx.ffmt c).convert fp32))
  else pairwise (Bx.ffmt c).add 0 xs

/-- a x x + y, one rounding (R375). -/
def bankAxpy (c : BankCmd) (x y : Nat) : Nat :=
  if Bx.fmt c = 3 then (c.w3 * BitVec.ofNat 32 x + BitVec.ofNat 32 y).toNat
  else (Bx.ffmt c).encode (((fp32.decode (Bx.a3 c)).mul ((Bx.ffmt c).decode x)).add ((Bx.ffmt c).decode y))

/-- The greater of two elements (R40, R375). -/
def bankMax (c : BankCmd) (y x : Nat) : Nat :=
  if Bx.fmt c = 3 then (maxS (BitVec.ofNat 32 y) (BitVec.ofNat 32 x)).toNat else (Bx.ffmt c).max y x

/-- AOP by SUB (R375). -/
def bankAop (sub : Nat) (old d : W32) : W32 :=
  match sub with
  | 0 => old + d
  | 1 => BitVec.ofNat 32 (fp32.add old.toNat d.toNat)
  | 2 => minS old d
  | 3 => maxS old d
  | 4 => old &&& d
  | 5 => old ||| d
  | 6 => old ^^^ d
  | _ => d

/-- The head command of executor `sub` of bank `unit`, if it is an `op` whose next step may be performed: what precedes it
is done (R377), and it has started or no tile holds it back (R371). -/
def State.headCmd (s : State) (op : Nat) : Option (Nat × Bool × BankCmd) :=
  let n := s.args.unit
  let exe := decide (s.args.sub = 1)
  match (s.bank n).queue exe with
  | [] => none
  | c :: _ => if Bx.op c = op && s.depsDone c.deps && (c.started || !s.tilesAt n) then some (n, exe, c) else none

/-- One element step of a command of `total` steps. -/
def elemStep (op : Nat) (name : String) (s : State) (total : BankCmd → Nat) (f : State → Nat → Bool → BankCmd → State) : Out :=
  match s.headCmd op with
  | none => .refused (.notEnabled name)
  | some (n, exe, c) =>
    let c2 := { c with step := c.step + 1, started := true }
    let s1 := f (s.setHead n exe c2) n exe c
    .next (if total c ≤ c2.step then s1.endCmd n exe c2 else s1)

/-- SUM (R375). -/
def execSum (s : State) : Out :=
  elemStep 1 "SUM" s (fun _ => 1) fun s n exe c =>
    let xs := (List.range (Bx.count c)).map fun i => s.bankGet n exe (Bx.a2 c + i * Bx.esize c) (Bx.esize c)
    let at_ := ((List.range (Bx.count c)).find? fun i => (s.bankGet n exe (Bx.a2 c + i * Bx.esize c) (Bx.esize c)).2).getD 0
    let bad := xs.any (·.2)
    (s.bankPoison c n (Bx.a2 c + at_ * Bx.esize c) bad).bankPut n exe (Bx.a1 c) (Bx.osize c) (bankSum c (xs.map (·.1))) bad

/-- One step of a command that combines y[i] and x[i]. -/
def pairStep (g : BankCmd → Nat → Nat → Nat) (s : State) (n : Nat) (exe : Bool) (c : BankCmd) : State :=
  let sz := Bx.esize c
  let y := s.bankGet n exe (Bx.a1 c + c.step * sz) sz
  let x := s.bankGet n exe (Bx.a2 c + c.step * sz) sz
  (s.bankPoison c n ((if x.2 then Bx.a2 c else Bx.a1 c) + c.step * sz) (x.2 || y.2)).bankPut n exe (Bx.a1 c + c.step * sz) sz (g c x.1 y.1) (x.2 || y.2)

/-- AXPY (R375). -/
def execAxpy (s : State) : Out := elemStep 2 "AXPY" s Bx.count (pairStep bankAxpy)

/-- MAXV (R375). -/
def execMaxv (s : State) : Out := elemStep 3 "MAXV" s Bx.count (pairStep fun c x y => bankMax c y x)

/-- COPY: the source is read whole before the first element is written (R375). -/
def execCopy (s : State) : Out :=
  elemStep 4 "COPY" s Bx.count fun s n exe c =>
    let sz := Bx.esize c
    let buf := if c.step = 0 then (List.range (Bx.count c)).map fun i => s.bankGet n exe (Bx.a2 c + i * sz) sz else c.buf
    let x := buf.getD c.step (0, false)
    let s1 := s.setHead n exe { c with step := c.step + 1, started := true, buf := buf }
    (s1.bankPoison c n (Bx.a2 c + c.step * sz) x.2).bankPut n exe (Bx.a1 c + c.step * sz) sz x.1 x.2

/-- FILL (R375). -/
def execFill (s : State) : Out :=
  elemStep 5 "FILL" s Bx.count fun s n exe c => s.bankPut n exe (Bx.a1 c + c.step * Bx.esize c) (Bx.esize c) (Bx.a3 c) false

/-- AOP: one indivisible step (R375). -/
def execAop (s : State) : Out :=
  elemStep 6 "AOP" s (fun _ => 1) fun s n exe c =>
    let s := s.noteNewest { who := .exec n exe } (bankPa n (Bx.a1 c)) 4
    let old := s.bankGet n exe (Bx.a1 c) 4
    let s1 := (s.bankPoison c n (Bx.a1 c) old.2).bankPut n exe (Bx.a1 c) 4 (bankAop (Bx.sub c) (BitVec.ofNat 32 old.1) c.w3).toNat old.2 true
    if Bx.a2 c = Bx.none_ then s1 else s1.bankPut n exe (Bx.a2 c) 4 old.1 old.2

/-! ### Flags (R376) -/

/-- Whether the flag of a WAITFLAG holds its value; a poisoned flag does not match. -/
def State.flagMatches (s : State) (c : BankCmd) : Bool :=
  let pa := windowBase + Bx.a1 c
  s.ssaOk (Bx.a1 c) && !s.memPoisoned pa 4 && decide (s.mem.get pa 4 = Bx.a3 c)

/-- Writes a WAITFLAG's result word, if it names one. -/
def State.flagResult (s : State) (n : Nat) (exe : Bool) (c : BankCmd) (v : Nat) : State :=
  if Bx.a2 c = Bx.none_ then s else s.bankPut n exe (Bx.a2 c) 4 v false

/-- A WAITFLAG succeeds: the read that found the value, the newest, is an acquire at SCOPE. -/
def State.flagSuccess (s : State) (n : Nat) (exe : Bool) (c : BankCmd) : State :=
  let v : View := { who := .exec n exe }
  let pa := windowBase + Bx.a1 c
  ((((s.noteNewest v pa 4).noteRead v pa 4 (some (Bx.sc c))).flagResult n exe c 1)).endCmd n exe c

/-- A WAITFLAG fails: the commands of its block behind it are cancelled, their tickets complete. -/
def State.flagFail (s : State) (n : Nat) (exe : Bool) (c : BankCmd) : State :=
  let s1 := (s.flagResult n exe c 0).endCmd n exe c
  let gone := ((s1.bank n).queue exe).filter fun d => d.block = c.block
  gone.foldl (fun s d => s.completeTicket (opParty d.fibre d.id) .die d.core 5 d.ticket)
    (s1.updBank n fun b => b.setQueue exe ((b.queue exe).filter fun d => d.block ≠ c.block))

/-- WAITFLAG: its first test; where it matches, the read acquires at SCOPE and the command ends; where the flag's storage is
gone, it fails. Later tests follow every write to the flag (`retestFlags`). -/
def execWaitflag (s : State) : Out :=
  match s.headCmd 7 with
  | none => .refused (.notEnabled "WAITFLAG")
  | some (n, exe, c) =>
    if c.started then .refused (.notEnabled "WAITFLAG")
    else
      let c2 := { c with started := true, since := some s.clock }
      let a := Bx.a1 c
      let gone := decide ((s.slice (bits a 31 30 * 48 + bits a 29 28 * 16 + bits a 27 24)).groups ≤ bits a 19 0 / 262144)
      let s1 := s.setHead n exe c2
      .next (if gone then s1.flagFail n exe c2 else if s.flagMatches c then s1.flagSuccess n exe c2 else s1)

/-- Tests the waiting WAITFLAGs of every bank (R376). -/
def State.retestFlags (s : State) : State :=
  s.banks.foldl (fun s b => [false, true].foldl (fun s exe =>
    match (s.bank b.1).queue exe with
    | c :: _ => if Bx.op c = 7 && c.started && s.flagMatches c then s.flagSuccess b.1 exe c else s
    | [] => s) s) s

/-- WAITFLAG_LIMIT_EXPIRY: (COUNT + 1) x 256 us after its start. -/
def execWaitflagLimitExpiry (s : State) : Out :=
  match s.headCmd 7 with
  | some (n, exe, c) => match c.since with
    | some t => if t + Bx.count c * 256000 ≤ s.clock then .next (s.flagFail n exe c) else .refused (.notEnabled "WAITFLAG_LIMIT_EXPIRY")
    | none => .refused (.notEnabled "WAITFLAG_LIMIT_EXPIRY")
  | none => .refused (.notEnabled "WAITFLAG_LIMIT_EXPIRY")

/-- Whether no unexpired lease stands on any of a list of lines. -/
def State.leasesGone (s : State) (lines : List Nat) : Bool := lines.all fun la => decide (s.leaseEnd (homeSlice (la * 128) 3) (la * 128) ≤ s.clock)

/-- SETFLAG: at die scope and wider it first starts, and writes once the leases of its executor's lines and of the flag's
line are gone (R112). A flag without storage is not written, and that is recorded as PAGE_NP (R376). -/
def execSetflag (s : State) : Out :=
  match s.headCmd 8 with
  | none => .refused (.notEnabled "SETFLAG")
  | some (n, exe, c) =>
    let pa := windowBase + Bx.a1 c
    let before := (s.bankDone.filter fun d => d.bank = n && d.exe = exe).flatMap BankDone.lines
    let c2 := { c with started := true }
    if !s.ssaOk (Bx.a1 c) then
      let e := abortFault (s.gangOf c.fibre) (s.laneOf c.fibre) 0x10 0 (BitVec.ofNat 64 pa)
      .next (((s.setHead n exe c2).recordFault c.core 5 e).endCmd n exe c2)
    else if Bx.wide c && !s.leasesGone (pa / 128 :: before ++ (s.bank n).dirty exe) then
      if c.started then .refused (.notEnabled "SETFLAG") else .next (s.setHead n exe c2)
    else
      let s1 := (s.setHead n exe c2).homeWrite none { who := .exec n exe, rel := some (Bx.sc c) } pa (toBytes 4 (Bx.a3 c))
      let lines := if Bx.wide c then [pa / 128] else dedup ((s.bank n).dirty exe ++ [pa / 128])
      .next ((s1.updBank n fun b => b.setDirty exe lines).endCmd n exe c2)

/-! ### Completion and tiles (R371, R377, R388) -/

/-- BANK_COMMAND_COMPLETE: the oldest command of executor `sub` of bank `unit` whose writes are performed completes its T5
ticket once the leases of its lines are gone. -/
def execBankCommandComplete (s : State) : Out :=
  match s.bankDone.find? fun d => d.bank = s.args.unit && d.exe = decide (s.args.sub = 1) with
  | none => .refused (.notEnabled "BANK_COMMAND_COMPLETE")
  | some d =>
    if s.leasesGone d.lines then
      .next (({ s with bankDone := s.bankDone.erase d } : State).completeTicket d.by_ .die d.core 5 d.ticket)
    else .refused (.notEnabled "BANK_COMMAND_COMPLETE")

/-- Whether an executor stands between two commands, or waits in a WAITFLAG. -/
def betweenCmds : List BankCmd → Bool
  | [] => true
  | c :: _ => !c.started || decide (Bx.op c = 7)

/-- BANK_DRAIN_APPLY: drain `item` of core `unit`, at its bank (R340, R371); while its lines are leased, none is leased anew. -/
def execBankDrainApply (s : State) : Out :=
  let no : Out := .refused (.notEnabled "BANK_DRAIN_APPLY")
  match (s.core s.args.unit).drains.find? (·.id = s.args.item) with
  | none => no
  | some d =>
    let n := match d.elems with | e :: _ => bankOf (e.1 - windowBase) | [] => 0
    if d.target ≠ 1 then no
    else if s.tileOpen d then
      if d.poisoned.isSome || (betweenCmds (s.bank n).e0 && betweenCmds (s.bank n).e1) then .next (s.finishDrain d) else no
    else if d.lines.all fun l => s.holds.any fun h => decide (h.line = l ∧ h.owner = d.party) then no
    else .next (s.claim d.party d.lines)

end Sys2Proof.Machine
end

