-- ==== Sys2Proof/Machine/Stacks.lean ====
section
/-!
DEFINITION. Machine/Stacks.lean: RDX and the stack reducers (R380-R384), SSCONV and the ways (R289-R291, R385), the
scrubber, the error ring and the thermal actions of a stack (R294, R386, R387).
-/

namespace Sys2Proof.Machine

/-! ### RDX (R380-R382) -/

namespace Rd
def src (r : List Byte) (k : Nat) : Nat := field r (8 * k) 8
def nsrc (r : List Byte) : Nat := field r 0x40 1
def fmt (r : List Byte) : Nat := field r 0x41 1
def op (r : List Byte) : Nat := field r 0x42 1
def w32 (r : List Byte) : Bool := (field r 0x43 1).testBit 0
def count (r : List Byte) : Nat := field r 0x44 4
def dest (r : List Byte) : Nat := field r 0x48 8
def flag (r : List Byte) : Nat := field r 0x50 8
def flagVal (r : List Byte) : Nat := field r 0x58 4
def esize (r : List Byte) : Nat := [4, 2, 2, 4].getD (fmt r) 4
def osize (r : List Byte) : Nat := if w32 r then 4 else esize r
def ffmt (r : List Byte) : Fmt := [fp32, fp16, bf16, fp32].getD (fmt r) fp32
/-- The ILL_FIELD cases of R382. -/
def ok (r : List Byte) : Bool :=
  decide (1 ≤ nsrc r ∧ nsrc r ≤ 8 ∧ fmt r < 4 ∧ op r < 2 ∧ field r 0x43 1 < 2 ∧ 1 ≤ count r ∧ count r ≤ 2 ^ 24 ∧ field r 0x5C 36 = 0) &&
  ((List.range 8).all fun k => decide (k < nsrc r ∨ src r k = 0)) && !(w32 r && decide (fmt r = 3 ∨ op r = 1)) &&
  ((List.range (nsrc r)).all fun k => decide (src r k = dest r) || !meetRange (dest r) (count r * osize r) (src r k) (count r * esize r))
/-- The first address that is not aligned to its size. -/
def misaligned (r : List Byte) : Option Nat :=
  ((List.range (nsrc r)).map (src r)).find? (fun a => a % esize r ≠ 0) |>.orElse fun _ =>
    if dest r % osize r ≠ 0 then some (dest r) else if flag r % 4 ≠ 0 then some (flag r) else none
end Rd

/-- The stack that homes DEST's first line; while DEST is not translated, stack 0 (DEDUCED, log 22). -/
def State.rdxStack (s : State) (k : FKey) (r : List Byte) : Nat :=
  match s.checkWalk (s.coreOf k) (s.partOf k) .store (BitVec.ofNat 64 (Rd.dest r)) with
  | .ok t => if t.dev.isNone ∧ inDram t.pa then t.pa / 2 ^ 36 else 0
  | _ => 0

def rdxCheck (d a : Reg) (s : State) (k : FKey) : Verdict :=
  let i := Instr.rdx d a
  let va := s.src64 k a
  match s.ctxReport k i 6 with
  | some v => v
  | none =>
    if va.toNat % 128 ≠ 0 then .trap (s.trapOf k i 0x12 va)
    else if s.acqPending k then .stall
    else match s.readVirt k i .load 2 va 128 with
      | .error v => v
      | .ok (_, some p) => s.markVerdict k i (.poison p)
      | .ok (r, none) =>
        if !Rd.ok r then .trap (s.trapOf k i 0x02 va)
        else match Rd.misaligned r with
          | some x => .trap (s.trapOf k i 0x12 (BitVec.ofNat 64 x))
          | none => if 16 ≤ (s.stack (s.rdxStack k r)).rdx.length then .stall else .go

/-- RDX takes the next T6 ticket; the reduction joins its reducer's queue (R380). -/
def execRdx (d a : Reg) (s : State) : Out :=
  issueSerial (.rdx d a) (s.reading (.rdx d a)) (rdxCheck d a) fun s k =>
    match s.readVirt k (.rdx d a) .load 2 (s.src64 k a) 128 with
    | .error _ => s
    | .ok (r, _) =>
      let core := s.coreOf k
      let (t, s1) := (s.follows (.agent k) (opParty k s.nextReq)).takeTicket k core 6
      let x : Reduction :=
        { id := s.nextReq, core := core, fibre := k, part := s.partOf k, block := r, ticket := t, word := (Instr.rdx d a).word, deps := s.outstanding k }
      let s2 := s1.updStack (s.rdxStack k r) fun y => { y with rdx := y.rdx ++ [x] }
      ({ s2 with nextReq := s.nextReq + 1 } : State).putOnce64 k d (BitVec.ofNat 64 t)

/-! ### STACK_REDUCTION (R383, R384) -/

/-- A reduction as an accessor of memory: the reducer of stack `n`, through the issuing sector's TLBs; its flag is a release at
device scope (R95, R383, R384). -/
def State.rdxBy (s : State) (n : Nat) (x : Reduction) (flag : Bool) : EngBy :=
  { core := x.core, part := x.part, lid := s.opLid x.fibre, p := .reducer n, rel := if flag then some .dev else none }

/-- What the reducer can reach: local, cached DRAM; for the flag the shared store too. -/
def State.rdxReach (s : State) (e : EngBy) (acc : Acc) (flag : Bool) (va : W64) : Except EngStop Unit :=
  match s.engTarget e acc va with
  | .error e => .error e
  | .ok t => match t.dev with
    | some d => .error (.abort 0x11 (if isGroup d then 6 else 4) va)
    | none => if !pteUc t.pte && (inDram t.pa || (flag && inWindow t.pa)) then .ok () else .error (.abort 0x11 4 va)

/-- Reads element `i` of source `k`. -/
def State.rdxElem (s : State) (e : EngBy) (x : Reduction) (i k : Nat) : Except EngStop Nat :=
  let va := BitVec.ofNat 64 (Rd.src x.block k + i * Rd.esize x.block)
  match s.rdxReach e .load false va with
  | .error e => .error e
  | .ok _ => match s.engRead e va (Rd.esize x.block) {} with
    | .error e => .error e
    | .ok bs => .ok (ofBytes bs)

/-- The result of an element (R41, R383): the tree over eight operands, or the greatest. -/
def rdxValue (r : List Byte) (xs : List Nat) : Nat :=
  let f := Rd.ffmt r
  if Rd.op r = 1 then
    (match xs with
      | [] => 0
      | x :: ys => ys.foldl (fun a b => if Rd.fmt r = 3 then (maxS (BitVec.ofNat 32 a) (BitVec.ofNat 32 b)).toNat else f.max a b)
          (if Rd.fmt r = 3 then x else f.canon x))
  else if Rd.fmt r = 3 then (xs.foldl (fun (a : W32) b => a + BitVec.ofNat 32 b) 0).toNat
  else
    let ys := if Rd.w32 r then xs.map (f.convert fp32) else xs
    pairwise (if Rd.w32 r then fp32.add else f.add) 0 (ys ++ List.replicate (8 - ys.length) 0)

/-- A write of a reduction: it waits for leases (R111). -/
def State.rdxWrite (s : State) (e : EngBy) (flag : Bool) (va size v : Nat) : Except EngStop State :=
  match s.rdxReach e .store flag (BitVec.ofNat 64 va) with
  | .error x => .error x
  | .ok _ => match s.engPut e .store (BitVec.ofNat 64 va) (toBytes size v) with
    | .error x => .error x
    | .ok ws => s.engWrites e ws 0 (BitVec.ofNat 64 va)

/-- The next step of a reduction: one element, or the flag. -/
def State.rdxStep (s : State) (n : Nat) (x : Reduction) : Except EngStop State :=
  let r := x.block
  if x.next < Rd.count r then
    let e := s.rdxBy n x false
    match mapStop (s.rdxElem e x x.next) (List.range (Rd.nsrc r)) with
    | .error e => .error e
    | .ok xs =>
      let reads := (List.range (Rd.nsrc r)).map fun k => (Rd.src r k + x.next * Rd.esize r, Rd.esize r)
      match s.rdxWrite e false (Rd.dest r + x.next * Rd.osize r) (Rd.osize r) (rdxValue r xs) with
      | .error e => .error e
      | .ok s1 => .ok (s1.engVisit e reads)
  else if Rd.flag r = 0 then .ok s
  else s.rdxWrite (s.rdxBy n x true) true (Rd.flag r) 4 (Rd.flagVal r)

/-- A reduction ends: its T6 ticket completes. -/
def State.rdxEnd (s : State) (n : Nat) (x : Reduction) : State :=
  ((s.updStack n fun y => { y with rdx := y.rdx.filter (·.id ≠ x.id) }).leaveMissOf (.reducer n)).completeTicket (.reducer n) .dev x.core 6 x.ticket

def State.updRdx (s : State) (n id : Nat) (f : Reduction → Reduction) : State :=
  s.updStack n fun y => { y with rdx := y.rdx.map fun x => if x.id = id then f x else x }

/-- A reduction aborts: the fault is recorded on T6 (R384). -/
def State.rdxAbort (s : State) (n : Nat) (x : Reduction) (cause info : Nat) (va : W64) : State :=
  (s.recordFault (s.coreOf x.fibre) 6 (abortFault (s.gangOf x.fibre) (s.laneOf x.fibre) cause info va)).rdxEnd n x

/-- STACK_REDUCTION: the oldest reduction of stack `unit` writes its next element, or its flag (DEDUCED, log 29). -/
def execStackReduction (s : State) : Out :=
  let n := s.args.unit
  match (s.stack n).rdx with
  | [] => .refused (.notEnabled "STACK_REDUCTION")
  | x :: _ =>
    if x.fault.isSome || !s.depsDone x.deps then .refused (.notEnabled "STACK_REDUCTION")
    else
      let s := (s.joins (.reducer n) x.deps).follows (opParty x.fibre x.id) (.reducer n)
      match s.rdxStep n x with
      | .ok s1 =>
        let s2 := (s1.leaveMissOf (.reducer n)).unclaim (.reducer n)
        .next (if x.next < Rd.count x.block then s2.updRdx n x.id fun y => { y with next := y.next + 1 } else s2.rdxEnd n x)
      | .error (.fault c r va) =>
        .next (((s.report x.part (va.toNat / 65536) c x.fibre).leaveMissOf (.reducer n)).updRdx n x.id fun y =>
          { y with fault := some (engFault x.word c r va) })
      | .error (.abort c info va) => .next (s.rdxAbort n x c info va)
      | .error w => s.engWaits (s.rdxBy n x false) "STACK_REDUCTION" w

/-! ### SSCONV (R385) -/

/-- Slices that an SSCONV names. -/
def convSlices (a : Nat) : List Nat :=
  let base := bits a 31 30 * 48 + bits a 29 28 * 16
  if bits a 23 23 = 1 then (List.range 16).map (base + ·) else [base + bits a 27 24]

/-- Key under which the T5 context of a control core is held (DEDUCED, log 23). -/
def ctlCtx : FKey → Nat
  | .ctl n => 384 + n
  | .fib _ _ => 384
  | .ap _ => 384

def ssconvCheck (o : G3) (s : State) (k : FKey) : Verdict :=
  let a := (s.src32 k o.a).toNat
  if bits a 29 28 = 3 ∨ bits a 22 0 ≠ 0 ∨ 4 < (s.src32 k o.b).toNat then .trap (s.trapOf k (.ssconv o) 0x02) else .go

/-- The serials of the SSCONVs that head a slice and have reached their target there. -/
def Slice.atTarget (x : Slice) (c t : Nat) : Bool :=
  match x.targets with
  | (g, c', _, t') :: _ => decide (c' = c ∧ t' = t ∧ g = x.groups)
  | [] => false

/-- Whether a slice still carries an SSCONV. -/
def Slice.carries (x : Slice) (c t : Nat) : Bool := x.targets.any fun y => decide (y.2.1 = c ∧ y.2.2.2 = t)

/-- Completes an SSCONV once every slice it names holds the target (R289, R385). -/
def State.endConv (s : State) (c t : Nat) : State :=
  if s.slices.all fun x => !x.2.carries c t || x.2.atTarget c t then
    ({ s with slices := s.slices.map fun x =>
        if x.2.carries c t then (x.1, { x.2 with targets := x.2.targets.drop 1, base := x.2.groups, mark := s.nextReq }) else x } : State).completeTicket (.agent (.ctl (c - 384))) .die c 5 t
  else s

/-- SSCONVs whose target a slice already holds complete at once; those behind them may follow. -/
def State.endConvs : Nat → State → State
  | 0, s => s
  | n + 1, s =>
    let s1 := s.slices.foldl (fun s x => match (s.slice x.1).targets with
      | (_, c, _, t) :: _ => s.endConv c t
      | [] => s) s
    if s1 = s then s else State.endConvs n s1

/-- Where upward conversion of a slice's next group stands to begin, the group stops and drains from now on (R289). -/
def State.startDrains (s : State) : State :=
  { s with slices := s.slices.map fun (n, x) => (n, { x with
      draining := match x.targets.head? with
        | some (t, _) => if x.groups < t then some (x.draining.getD s.clock) else none
        | none => none }) }

/-- What follows from new targets or from a group's end. -/
def State.settleConvs (s : State) : State :=
  (s.endConvs (s.slices.foldl (fun m x => m + x.2.targets.length) 0)).startDrains

/-- SSCONV (R385). -/
def execSsconv (o : G3) (s : State) : Out :=
  issue (.ssconv o) s (ssconvCheck o) fun s ks =>
    s.onLive ks fun s k =>
      let c := ctlCtx k
      let (t, s1) := s.takeTicket k c 5
      let add := fun (x : Slice) =>
        { x with targets := x.targets ++ [((s.src32 k o.b).toNat, c, 5, t)]
                 base := if x.targets = [] then x.groups else x.base
                 mark := if x.targets = [] then s.nextReq else x.mark }
      let s2 := (convSlices (s.src32 k o.a).toNat).foldl (fun s n => s.updSlice n add) s1
      s2.settleConvs.putOnce64 k o.d (BitVec.ofNat 64 t)

/-- Zeroes the storage of group `g` of a slice (R289, R291). -/
def State.clearGroup (s : State) (n g : Nat) : State :=
  (List.range 16).foldl (fun s b =>
    let pa := bankPa ((n / 48 * 4 + n % 48 / 16) * 256 + n % 16 * 16 + b) (g * 262144)
    { s with
      mem := s.mem.clear pa 262144
      poisonWords := s.poisonWords.filter fun w => !(decide (pa / 8 ≤ w) && decide (w < (pa + 262144) / 8))
      veil := (s.forget fun scr a => !scr && decide (pa ≤ a) && decide (a < pa + 262144)).veil }) s

/-- The lines of group `g` leave the slice: each one's EXP folds into HZ of its set (R289). -/
def State.drainGroup (s : State) (n g : Nat) : State :=
  let out := fun (l : SLine) => decide (l.way / 4 = g)
  (((s.slice n).lines.filter out).foldl (fun s l => s.foldLine n l.la) s).updSlice n fun x => { x with lines := x.lines.filter fun l => !out l }

/-- Fails the waiting WAITFLAGs whose flag has no storage any more (R376). -/
def State.failFlags (s : State) (n g : Nat) : State :=
  s.banks.foldl (fun s b => [false, true].foldl (fun s exe =>
    match (s.bank b.1).queue exe with
    | c :: _ =>
      let a := Bx.a1 c
      if Bx.op c = 7 && c.started && decide (bits a 31 30 * 48 + bits a 29 28 * 16 + bits a 27 24 = n ∧ bits a 19 0 / 262144 = g) then
        s.flagFail b.1 exe c
      else s
    | [] => s) s) s

/-- WAY_GROUP_CONVERTED (R289): slice `unit`; the group drained reads as zero. -/
def execWayGroupConverted (s : State) : Out :=
  let n := s.args.unit
  match (s.slice n).targets with
  | (t, c, _, k) :: _ =>
    if (s.slice n).groups < t then
      let g := (s.slice n).groups
      .next (((((s.drainGroup n g).clearGroup n g).updSlice n fun x =>
        { x with groups := g + 1, mark := s.nextReq, draining := none }).endConv c k).settleConvs)
    else .refused (.notEnabled "WAY_GROUP_CONVERTED")
  | [] => .refused (.notEnabled "WAY_GROUP_CONVERTED")

/-- Bank commands queued to a slice's banks when the conversion back of its highest group began (R291). -/
def State.queuedBefore (s : State) (n : Nat) : Bool :=
  s.banks.any fun b => decide (b.1 / 1024 * 48 + b.1 / 256 % 4 * 16 + b.1 / 16 % 16 = n) &&
    (b.2.e0 ++ b.2.e1).any fun c => decide (c.id < (s.slice n).mark)

/-- WAY_GROUP_RESTORED (R291): slice `unit`; the highest group is zeroed and is cache again. -/
def execWayGroupRestored (s : State) : Out :=
  let n := s.args.unit
  match (s.slice n).targets with
  | (t, c, _, k) :: _ =>
    if t < (s.slice n).groups ∧ !s.queuedBefore n then
      let g := (s.slice n).groups - 1
      .next ((((s.clearGroup n g).updSlice n fun x => { x with groups := g, mark := s.nextReq }).failFlags n g).endConv c k).settleConvs
    else .refused (.notEnabled "WAY_GROUP_RESTORED")
  | [] => .refused (.notEnabled "WAY_GROUP_RESTORED")

/-! ### Errors and scrubbing (R293, R294, R387) -/

/-- Enters an event in a stack's error ring (R387). -/
def State.logError (s : State) (n pa kind layer : Nat) : State :=
  s.updStack n fun x =>
    { x with errCount := x.errCount + 1
             ring := x.ring.put (x.errCount % 128) (toBytes 8 s.clock ++ toBytes 6 (pa / 128 * 128 % 2 ^ 44) ++ toBytes 1 kind ++ toBytes 1 layer) }

/-- Lines of a stack that are populated (R272). -/
def stackLines : Nat := 0xEE6B28000 / 128

/-- Queue slots of each controller of a stack that the escalator reserves for scrubbing: one where the pass stands a tenth of its
deadline behind, one in 16 where a quarter (R294; DESIGN CHOICE, log 77). -/
def State.scrubSlots (s : State) (n : Nat) : Nat :=
  let x := s.stack n
  let due := x.deadline * 1000000000
  let gone := (s.clock - x.passStart) * stackLines
  if (x.scrubNext * 4 + stackLines) * due ≤ gone * 4 then 4
  else if (x.scrubNext * 10 + stackLines) * due ≤ gone * 10 then 1
  else 0

/-- Whether a layer is one of a stack's 16, or not known (R387). -/
def layerOk (layer : Nat) : Bool := decide (layer < 16 ∨ layer = 0xFF)

/-- SCRUB_STEP (R294): stack `unit` reads its next line, while its controller's queue holds fewer than THR entries or the
escalator has reserved a slot; `opt` is what it finds, 2 corrected or 3 uncorrectable, in layer `sub`. An uncorrectable line is
marked (R293; DESIGN CHOICE, log 19). -/
def execScrubStep (s : State) : Out :=
  let n := s.args.unit
  let la := n * 2 ^ 29 + (s.stack n).scrubNext
  let issues := decide (s.occupancy (controllerOf (la * 128)) < (s.stack n).thr) || decide (s.scrubSlots n ≠ 0)
  if 12 ≤ n ∨ !issues ∨ !layerOk s.args.sub then .refused (.notEnabled "SCRUB_STEP")
  else
    let s1 := s.updStack n fun x => if x.scrubNext + 1 < stackLines then { x with scrubNext := x.scrubNext + 1 }
      else { x with scrubNext := 0, passStart := s.clock }
    match s.args.opt with
    | none => .next s1
    | some 2 => .next (s1.logError n (la * 128) 2 s.args.sub)
    | some 3 => .next ({ s1.logError n (la * 128) 3 s.args.sub with poisonLines := dedup (s1.poisonLines ++ [la]) })
    | some _ => .refused (.notEnabled "SCRUB_STEP")

/-! ### Temperature (R386) -/

/-- The hottest of 16 layers. -/
def hottest (t : List Byte) : Nat := t.foldl (fun m b => max m b.toNat) 0

/-- New temperatures of stack `unit` in `bytes` (DESIGN CHOICE, log 28). -/
def thermStep (name : String) (s : State) (ok : Stack → Nat → Bool) (f : Stack → Nat → Stack) : Out :=
  let n := s.args.unit
  let h := hottest s.args.bytes
  if 12 ≤ n ∨ s.args.bytes.length ≠ 16 ∨ !ok (s.stack n) h then .refused (.notEnabled name)
  else .next (s.updStack n fun x => { f x h with temps := s.args.bytes })

/-- THERM_LT1: the refresh rate doubles. -/
def execThermLt1 (s : State) : Out :=
  thermStep "THERM_LT1" s (fun x h => decide (x.lt1 ≤ h) && !x.act1) fun x _ => { x with act1 := true }

/-- THERM_LT2: one idle command slot in 8, and in 4 from LT2 + 5. -/
def execThermLt2 (s : State) : Out :=
  thermStep "THERM_LT2" s (fun x h => decide (x.lt2 ≤ h) && (!x.act2 || (!x.act2hot && decide (x.lt2 + 5 ≤ h)))) fun x h =>
    { x with act2 := true, act2hot := x.act2hot || decide (x.lt2 + 5 ≤ h) }

/-- THERM_LT3: STACK_HOT_N is asserted; the die's clock is held at 1000 MHz (R427). -/
def execThermLt3 (s : State) : Out :=
  thermStep "THERM_LT3" (s.updDie (s.args.unit / 3) fun d => { d with curClk := 1000 }) (fun x h => decide (x.lt3 ≤ h) && !x.act3)
    fun x _ => { x with act3 := true }

/-- THERM_ACTION_END: each action ends 3 degrees below its threshold. -/
def execThermActionEnd (s : State) : Out :=
  thermStep "THERM_ACTION_END" s
    (fun x h => (x.act1 && decide (h + 3 ≤ x.lt1)) || (x.act2 && decide (h + 3 ≤ x.lt2)) || (x.act2hot && decide (h + 3 ≤ x.lt2 + 5)) ||
      (x.act3 && decide (h + 3 ≤ x.lt3)))
    fun x h =>
      { x with act1 := x.act1 && !decide (h + 3 ≤ x.lt1), act2 := x.act2 && !decide (h + 3 ≤ x.lt2)
               act2hot := x.act2hot && !decide (h + 3 ≤ x.lt2 + 5) && !decide (h + 3 ≤ x.lt2), act3 := x.act3 && !decide (h + 3 ≤ x.lt3) }

/-- Whether temperatures with hottest layer `h` begin or end an action of a stack: they come with that action. -/
def Stack.acts (x : Stack) (h : Nat) : Bool :=
  (decide (x.lt1 ≤ h) && !x.act1) || (decide (x.lt2 ≤ h) && !x.act2) || (decide (x.lt2 + 5 ≤ h) && !x.act2hot) ||
    (decide (x.lt3 ≤ h) && !x.act3) || (decide (h + 3 ≤ x.lt1) && x.act1) || (decide (h + 3 ≤ x.lt2) && x.act2) ||
    (decide (h + 3 ≤ x.lt2 + 5) && x.act2hot) || (decide (h + 3 ≤ x.lt3) && x.act3)

/-- THERMCTL_WRITE: `word` to stack `unit`'s THERMCTL. -/
def execThermctlWrite (s : State) : Out :=
  if 12 ≤ s.args.unit then .refused (.notEnabled "THERMCTL_WRITE") else .next (s.writeThermctl s.args.unit s.args.word.toNat)

end Sys2Proof.Machine
end

