-- ==== Sys2Proof/Machine/Home.lean ====
section
/-!
DEFINITION. Machine/Home.lean: a request at its home: the slice's queue and spill queue (R286, R287), the order of reads and
writes of a line (R281), and the return of its value (R80, R222, R312).
-/

namespace Sys2Proof.Machine

/-! ### Regions under write leases (R406) -/

/-- Device whose accesses a request is among: none for this device and its host. -/
def Req.device (r : Req) : Option Nat :=
  match r.org with
  | .remote d _ _ _ _ => some d
  | _ => none

/-- Whether a request waits at its home because another device holds its region. -/
def State.leaseWaits (s : State) (r : Req) : Bool :=
  match s.region r.pa with
  | .held d _ => decide (r.device ≠ some d ∧ r.org ≠ .unit)
  | _ => false

/-! ### Completion -/

/-- The answer of this device to another, in the response class, with the expiry of the lease given; the copy of a multicast store
answers its store (R398, R402, R405). -/
def State.answer (s : State) (r : Req) (code data : Nat) (exp : Nat := 0) : State :=
  match r.org, r.copy with
  | .remote d _ c q i, _ => s.post d 1 (.status d c q i code data exp)
  | _, some id => { s with outbox := s.outbox ++ [.status s.devId 0 id 0 code data exp] }
  | _, none => s

/-- Whether a request is an acquire at die, device or fabric scope by a core fibre (R111). -/
def Req.acquires (r : Req) : Bool :=
  decide (r.ord = .acq ∨ r.ord = .ar) && Scope.wide r.sc && (match r.org with | .fibre (.fib _ _) => true | _ => false)

/-- Ends a request: cell stores discarded in its favour end with it (R127), and an acquire drops the cluster's leased
copies (R111). -/
def State.endReq (s : State) (r : Req) : State :=
  let gone := s.reqs.filter fun x => decide (x.stage = .discarded r.id)
  let s := (gone.foldl (fun s x => s.answer x 0 0) (if r.copy.isSome then s.answer r 0 0 else s)).dropReq r.id
  if r.acquires then s.l1Clear (clusterOf r.core) else s

/-- The SIG ticket of a doorbell's launch stands in its record in another device, or will not: the doorbell's status reads as
accepted (R143). Such a request is in partition `part`, and `lane` is its queue. -/
def State.bellDone (s : State) (r : Req) : State :=
  match r.what with
  | .sig _ lid => { s.dropReq r.id with doorbells := s.doorbells.put (queueKey r.part r.lane) (BitVec.ofNat 64 lid) }
  | _ => s.dropReq r.id

/-- Refuses a request at its home (R392, R406; DEDUCED, log 32). -/
def State.refuseHome (s : State) (r : Req) (code : Nat) : State :=
  let gone := s.reqs.filter fun x => decide (x.stage = .discarded r.id)
  let s := gone.foldl (fun s x => s.answer x 0 0) s
  match r.org, r.copy with
  | .fibre _, none => s.refuse r code
  | .host, _ => s.bellDone r
  | _, _ => (s.answer r code 0).dropReq r.id

/-- A request has been performed at its home with a value read: another device is answered, with the lease given, a request that
gives nothing back ends, any other waits for its fill. -/
def State.performed (s : State) (r : Req) (v : Nat) (poison : Bool) (exp : Nat := 0) : State :=
  match r.org with
  | .remote _ _ _ _ _ => (s.answer r (if poison && r.what.returns then 0x30 else 0) v exp).endReq r
  | _ =>
    if r.what.returns then s.setReq r.id fun r => { r with stage := .served v poison } else s.endReq r

/-- The earlier qnt atomics of its core that a request's quantum of 64 also serves, latest first, each with the value it returns;
and what the quantum adds (R110). -/
def State.quantumOf (s : State) (r : Req) (old : Nat) : List (Nat × Nat) × Nat :=
  let same := fun (x : Req) => decide (x.id < r.id ∧ x.core = r.core ∧ x.pa = r.pa) && x.dev.isNone && x.waiting && x.count.isNone
  let xs := ((s.reqs.filter fun x => same x && x.what.quantum.isSome).reverse).take r.ahead
  xs.foldl (fun (acc : List (Nat × Nat) × Nat) x =>
    let d := x.what.quantum.getD 0
    if acc.2 + d ≤ 64 then (acc.1 ++ [(x.id, (old + acc.2) % 2 ^ 32)], acc.2 + d) else acc) ([], r.what.quantum.getD 0)

/-- A write at its home; a control core's write of frame-owner entries starts the zeroing of their granules (R421). -/
def State.writeOwner (s : State) (r : Req) (bs : List Byte) : State :=
  match r.org with
  | .fibre (.ctl _) =>
    if (s.fotGranule r.pa).isSome then bs.zipIdx.foldl (fun s (b, i) => s.fotWrite r.writer (r.pa + i) b.toNat) s
    else s.homeWrite r.undo r.writer r.pa bs
  | _ => s.homeWrite r.undo r.writer r.pa bs

/-- The granules under zeroing whose frame-owner entries a control core's request has written (R421). -/
def State.granulesOf (s : State) (r : Req) : List Nat :=
  match r.org with
  | .fibre (.ctl _) => ((List.range r.what.bytes).filterMap fun i => s.fotGranule (r.pa + i)).filter s.zeroing.contains
  | _ => []

/-- Performs a write, or an atomic, at its home: on the newest value of its bytes (R101, R110, R281). -/
def State.performWrite (s : State) (r : Req) : State :=
  let n := r.what.bytes
  let old := s.mem.get r.pa n
  let poison := s.memPoisoned r.pa n
  let s1 : State := match r.what, r.org with
    | .atom _ _ _ _, .fibre _ | .atom _ _ _ _, .remote _ _ _ _ _ => (s.noteNewest { who := r.writer.who } r.pa n).readDone r none
    | _, _ => s
  let s2 := s1.visitSlice r
  match r.count with
  | some v => s2.performed r v poison
  | none =>
    if r.ahead = 0 ∨ r.what.quantum = none then
      let (new, ret) := r.what.apply r.id old
      match new with
      | none => s2.performed r ret poison
      | some v =>
        let s3 := s2.writeOwner r (toBytes n v)
        let gs := s3.granulesOf r
        if gs = [] then s3.performed r ret poison else s3.setReq r.id fun x => { x with stage := .zeroing gs ret }
    else
      let (served, total) := s.quantumOf r old
      let s3 := s2.homeWrite r.undo r.writer r.pa (toBytes n (old + total))
      (served.foldl (fun s x => s.setReq x.1 fun y => { y with count := some x.2 }) s3).performed r old poison

/-- Performs a request at its home: a read with its lease, a write with what it leaves (R281, R406). -/
def State.perform (s : State) (r : Req) : State :=
  if s.orphaned r.pa then s.refuseHome r 0x15
  else if r.what.writes then s.performWrite r
  else
    let (v, p) := s.readFor r
    let exp := if r.lcls = 0 ∨ r.uc ∨ s.leaseBarred (r.pa / 128) ∨ s.writeWaits r.line then 0 else s.clock + leaseNs r.lcls
    (s.serveRead r).performed r v p exp

/-- Entries of a controller's queue that are left to accesses: 64, but for those reserved for scrubbing (R292, R294). -/
def State.controllerRoom (s : State) (pa : Nat) : Bool := decide (s.occupancy (controllerOf pa) < 64 - s.scrubSlots (pa / 2 ^ 36))

/-- Whether a request may be performed now: its region is not another device's, its granule is not being zeroed, no write that
came before it waits at its line, its controller has an entry where it misses, and a write's leases have run out (R281, R286, R341,
R406, R421). -/
def State.open (s : State) (r : Req) : Bool :=
  !s.leaseWaits r && !(inDram r.pa && s.zeroing.contains (r.pa / 65536)) && !s.heldBack r &&
    (r.bypasses || !inDram r.pa || s.holdsLine r.slice (r.pa / 128) || s.controllerRoom r.pa) && (!r.what.writes || s.writeOpen r.home r.pa)

/-! ### The slice's queues (R286, R287) -/

/-- Whether a request is the first of its line that its home has accepted and not performed. -/
def State.isFirst (s : State) (r : Req) : Bool := decide ((s.queuedOn r.line).head?.map Req.id = some r.id)

/-- A cell store that meets another to its cell which stands in a queue of its home: it takes that one's place, or is discarded
(R125, R126). -/
def State.meetQueued (s : State) (r : Req) : Option State :=
  let ids := (s.reqs.filter fun x => decide (x.id ≠ r.id) && (match x.stage with | .queued | .spilled => true | _ => false)).map Req.id
  match s.meets ids r with
  | some (x, .dropOld) =>
    let rest := s.reqs.filter fun y => y.id ≠ r.id
    let put := fun (y : Req) => if y.id = x.id then [{ r with stage := x.stage, slice := x.slice, hold := x.hold }, y] else [y]
    some (({ s with reqs := rest.flatMap put } : State).discard x.id r.id)
  | some (x, .dropNew) => some (s.discard r.id x.id)
  | _ => none

/-- A request in a slice's queue, or at its controller: a read that is first of its line is served at once. -/
def State.serveFirst (s : State) (id : Nat) : State :=
  match s.reqs.find? (·.id = id) with
  | some r =>
    if r.stage = .queued && !r.what.writes && s.isFirst r && s.open r then s.perform r else s
  | none => s

/-- A request arrives at its slice, where its line takes its place: it enters the queue, or the spill queue where the queue is full or requests are spilled
already; none where the spill queue is full (R286). One that its controller serves enters that queue, if it has room (R292).
Accepted requests stand in the order of their arrival (R281). -/
def State.accept (s : State) (r : Req) : Option State :=
  let s := if r.slice < 192 then s.called r.slice r.caller else s
  let rest := s.reqs.filter fun x => x.id ≠ r.id
  let place := fun (x : Req) => { s.startExp r.home (r.pa / 128) with reqs := rest ++ [{ x with hold := s.clock }] : State }
  match s.meetQueued r with
  | some t => some t
  | none =>
    if r.bypasses then
      if 2000 ≤ r.slice ∧ !s.controllerRoom r.pa then none
      else some ((place { r with stage := .queued, slice := if 2000 ≤ r.slice then r.slice else 1001 }).serveFirst r.id)
    else if 32 ≤ s.occupancy r.slice ∨ 0 < s.spilledCount r.slice then
      if s.spillFull r.slice then none
      else some ((place { r with stage := .spilled }).updSlice r.slice fun x => { x with spills := x.spills + 1 })
    else some (((place { r with stage := .queued }).notePeak r.slice).serveFirst r.id)

/-- Enters what reading a DRAM line met: 0 a corrected error, 1 an uncorrectable one, which poisons the line, 4 a link retry
(R293, R387). -/
def State.readEvent (s : State) (pa layer : Nat) : Nat → State
  | 1 => { s.logError (pa / 2 ^ 36) pa 1 layer with poisonLines := dedup (s.poisonLines ++ [pa / 128]) }
  | k => s.logError (pa / 2 ^ 36) pa k layer

/-- SLICE_REQUEST_ACCEPT (R286): request `item` reaches its slice, its controller or host memory, behind what it must
follow; `opt` is an error that reading its line meets, in layer `sub`. -/
def execSliceRequestAccept (s : State) : Out :=
  match s.reqs.find? (·.id = s.args.item) with
  | none => .refused (.notEnabled "SLICE_REQUEST_ACCEPT")
  | some r =>
    let ok := decide (r.stage = .inFlight) && r.dev.isNone && s.depsDone r.deps && !s.orderHeld r
    let ev : Bool := match s.args.opt with | none => true | some k => inDram r.pa && decide (k = 0 ∨ k = 1 ∨ k = 4) && layerOk s.args.sub
    if !ok || !ev then .refused (.notEnabled "SLICE_REQUEST_ACCEPT")
    else if s.orphaned r.pa then .next (s.refuseHome r 0x15)
    else
      let s1 : State := match s.args.opt with | some k => s.readEvent r.pa s.args.sub k | none => s
      match s1.accept r with
      | some s2 => .next s2
      | none => .refused (.notEnabled "SLICE_REQUEST_ACCEPT")

/-- SPILL_RETURN (R286): the oldest spilled request of slice `unit` returns to the queue. -/
def execSpillReturn (s : State) : Out :=
  let n := s.args.unit
  match s.reqs.find? fun r => decide (r.slice = n ∧ r.stage = .spilled) with
  | none => .refused (.notEnabled "SPILL_RETURN")
  | some r =>
    if 32 ≤ s.occupancy n then .refused (.notEnabled "SPILL_RETURN")
    else .next (((s.setReq r.id fun r => { r with stage := .queued, hold := s.clock }).notePeak n).serveFirst r.id)

/-- HOME_WRITE_PERFORM (R281): the first accepted request of the line of request `item`, if that is the one, is performed once
its leases have run out; the reads behind a write follow as the first of their line. -/
def execHomeWritePerform (s : State) : Out :=
  match s.reqs.find? (·.id = s.args.item) with
  | none => .refused (.notEnabled "HOME_WRITE_PERFORM")
  | some r =>
    if r.stage = .queued && s.isFirst r && s.open r then .next (s.perform r)
    else .refused (.notEnabled "HOME_WRITE_PERFORM")

/-! ### Fills (R80, R222, R312) -/

/-- Destination value of a returned value: extended as the load says (R223, R227). -/
def What.fill : What → Nat → Nat
  | .load w, v | .lds w, v => w.extend v
  | .ldc, v => v % 2 ^ 96
  | _, v => v

/-- Puts a word into an entry of an inbound queue (R312). -/
def State.fillEntry (s : State) (c q serial lane : Nat) (w : W32) : State :=
  s.updQueue c q fun x => { x with entries := x.entries.map fun e =>
    if e.serial = serial then { e with words := e.words.set lane (some w) } else e }

/-- Whether every register of a fibre's await set is full (R152). -/
def State.awaitFull (s : State) (k : FKey) : Bool :=
  (s.fib k).await.all fun r => match r with
    | .v n => (s.vcell k n).full
    | .s n => (s.scell k n).full
    | _ => true

/-- Notes since when fibres are ready whose await set a fill has completed (R161). -/
def State.noteReady (old s : State) (k : FKey) : State :=
  match k with
  | .fib b n =>
    (s.liveInGang (b, n / 32)).foldl (fun s m =>
      let f := FKey.fib b m
      if !old.awaitFull f && s.awaitFull f then s.updFib f fun x => { x with readySince := s.cycles (s.coreOf f) } else s) s
  | _ => s

/-- REGISTER_FILL (R80, R286): the response of request `item` has left its slice, and its value or mark fills the destination. A
poisoned load of an access processor stops its program (R308, R311). -/
def execRegisterFill (s : State) : Out :=
  match s.reqs.find? (·.id = s.args.item) with
  | none => .refused (.notEnabled "REGISTER_FILL")
  | some r =>
    match r.stage, r.org with
    | .served v p, .fibre k =>
      if !r.what.returns || decide (s.clock < r.hold) then .refused (.notEnabled "REGISTER_FILL")
      else
        let s1 := s.endReq r
        match r.dst with
        | .queue c q n l =>
          .next (if p then s1.queueFault c r 0x30 0 else s1.fillEntry c q n l (BitVec.ofNat 32 v))
        | .regs ns => (match k, p with
          | .ap c, true => .next (s1.queueFault c r 0x30 0)
          | _, _ => .next (State.noteReady s (s1.fillDst k (.regs ns) (r.what.fill v) (if p then some (.poison r.va) else none)) k))
        | d => .next (State.noteReady s (s1.fillDst k d (r.what.fill v) (if p then some (.poison r.va) else none)) k)
    | _, _ => .refused (.notEnabled "REGISTER_FILL")

/-- QUEUE_ENTRY_FILLED (R312): entry `item` of queue `sub` of core `unit` has its 32 words and becomes readable. -/
def execQueueEntryFilled (s : State) : Out :=
  let full := fun (e : QEntry) => decide (e.serial = s.args.item) && !e.ready && e.words.all Option.isSome
  if 6 ≤ s.args.sub ∨ !((s.queue s.args.unit s.args.sub).entries.any full) then .refused (.notEnabled "QUEUE_ENTRY_FILLED")
  else .next (s.updQueue s.args.unit s.args.sub fun x => { x with entries := x.entries.map fun e => if full e then { e with ready := true } else e })

end Sys2Proof.Machine
end

