-- ==== Sys2Proof/Machine/Fabric.lean ====
section
/-!
DEFINITION. Machine/Fabric.lean: FAB (R408-R412), carts on their way and the statuses that come back (R398, R403, R404),
ports and peers (R394, R401), and the leases a holder keeps (R407).
-/

namespace Sys2Proof.Machine

/-! ### DEVID and CSTAT (R409, R412) -/

/-- The word DEVID writes for an address: 0 where a load there would take a translation fault (R255, R409). -/
def State.devidWord (s : State) (k : FKey) (va : W64) : W32 :=
  if !canonical va then 0
  else match s.tlbHit (s.coreOf k) (s.partOf k) va.toNat with
    | none => 0
    | some e =>
      let d := pteDevice e.pte
      if !pteU e.pte then 0
      else if s.isLocal e.pte then
        if s.paOk (pteFrame e.pte + va.toNat % 2 ^ e.size) then BitVec.ofNat 32 (2 ^ 31 + 2 ^ 28 + s.devId % 2 ^ 11) else 0
      else if isGroup d then
        let up := (s.groupMembers (d - 0x500)).all fun m => decide (m = s.devId) || !s.unreachable m
        BitVec.ofNat 32 (2 ^ 31 + 2 ^ 30 + 2 ^ 29 + (if up then 2 ^ 28 else 0) + d)
      else if 1057 < d then 0
      else BitVec.ofNat 32 (2 ^ 31 + 2 ^ 30 + (if s.unreachable d then 0 else 2 ^ 28) + d)

/-- DEVID waits for the walk and never faults; a helper executes it (R408, R409). -/
def devidCheck (a : Reg) (s : State) (k : FKey) : Verdict :=
  let va := s.src64 k a
  if s.checkGlobal k .load va = .miss then .miss va else .go

def execDevid (d a : Reg) (s : State) : Out :=
  issue (.devid d a) s (devidCheck a) fun s ks =>
    let ws := ks.map fun k => (k, [Wr.reg d (s.devidWord k (s.src64 k a))])
    (ks.foldl (fun s k => s.leaveMiss k) s).lanes ws

/-- The word CSTAT writes (R412). -/
def State.cstatWord (s : State) (k : FKey) : W32 :=
  let c := s.coreOf k
  let faults := (s.core c).cartFaults
  let own := s.reqs.filter fun r => decide (r.core = c) && r.dev.isSome
  let held := (own.filter fun r => decide (r.stage = .cart)).length
  let infl := (own.filter fun r => decide (r.stage = .sent)).length
  BitVec.ofNat 32 ((if faults.any fun e => decide ((e.block, e.gang) = s.gangOf k) then 2 ^ 31 else 0) + faults.length % 32 * 2 ^ 24 +
    min held 255 * 2 ^ 8 + min infl 255)

def execCstat (d : Reg) (s : State) : Out := compute (.cstat d) s fun s k => [.reg d (s.cstatWord k)]

/-! ### Write leases: requests (R410, R411) -/

/-- The checks of a region address: alignment, translation as a store, another device (R410). -/
def State.regionCheck (s : State) (k : FKey) (i : Instr) (va : W64) : Except Verdict Target :=
  if va.toNat % 65536 ≠ 0 then .error (.trap (s.trapOf k i 0x12 va))
  else match s.target k .store va with
    | .miss => .error (.miss va)
    | .bad c r => .error (s.faultVerdict k i va c r)
    | .ok t => match t.dev with
      | none => .error (.trap (s.trapOf k i 0x11 va 5))
      | some d => if isGroup d then .error (.trap (s.trapOf k i 0x11 va 6)) else .ok t

/-- A lease request waits for the acquires before it, and for an acknowledgement of its flow (R104, R398). -/
def wleaseCheck (i : Instr) (o : G3) (s : State) (k : FKey) : Verdict :=
  match s.regionCheck k i (s.src64 k o.a) with
  | .error v => v
  | .ok t =>
    let before := ((s.members.getD []).takeWhile fun m => decide (m ≠ k)).length
    if s.acqPending k || decide (1024 ≤ s.unacked (t.dev.getD 0) + before) then .stall else .go

/-- Entries of a die's lease table: the write leases that its sectors keep, and the requests for one that are on their way (R410). -/
def State.dieLeases (s : State) (d : Nat) : Nat :=
  (s.heldLeases.filter fun h => decide (h.2.sector / 3 = d) && s.heldLive h.2).length +
    (s.reqs.filter fun r => decide (dieOf r.core = d ∧ r.stage = .remote) && (match r.what with | .wlease false _ => true | _ => false)).length

/-- One member's request: it goes to the home, or is refused here (R395, R410). -/
def State.leaseAsk (s : State) (k : FKey) (i : Instr) (o : G3) (renew : Bool) (ks : List FKey) : State :=
  let va := s.src64 k o.a
  match s.regionCheck k i va with
  | .error _ => s
  | .ok t =>
    let us := clamp 1 1000 (s.src32 k o.b).toNat
    let ord : Order := if renew then .rlx else .acq
    let r := s.mkReq k i va t .normal (.wlease renew us) ord .fab (s.memDst ks k (wrSlot .xs o.d))
    let s1 := s.markEmpty k (wrSlot .xs o.d)
    if s.unreachable (t.dev.getD 0) then s1.addReq { r with stage := .served 6 false }
    else if !renew ∧ 64 ≤ s.dieLeases (dieOf (s.coreOf k)) then s1.addReq { r with stage := .served 3 false }
    else (s1.packet (t.dev.getD 0) [s1.nextReq]).addReq { r with stage := .remote, sentAt := s.clock }

/-- WLEASE, WRENEW: D is empty until the lease word comes (R410). -/
def lease (i : Instr) (o : G3) (renew : Bool) (s : State) : Out :=
  issue i s (wleaseCheck i o) fun s ks => s.onLive ks fun s k => s.leaseAsk k i o renew ks

def execWlease (o : G3) (s : State) : Out := lease (.wlease o) o false s
def execWrenew (o : G3) (s : State) : Out := lease (.wrenew o) o true s

/-- A fibre's request to end the lease of a region. -/
def State.dropAsk (s : State) (k : FKey) (t : Target) : Option Req :=
  s.reqs.find? fun r => decide (r.what = .wdrop ∧ r.org = .fibre k ∧ r.dev = t.dev ∧ r.pa / 65536 = t.pa / 65536)

/-- WDROP, a release at fabric scope: the fibre's accesses, and every access to the region, are performed first; then the
dirty lines go back with its request, and the coach waits for the home (R411; DESIGN CHOICE, log 82). -/
def wdropCheck (a : Reg) (s : State) (k : FKey) : Verdict :=
  let i := Instr.wdrop a
  let va := s.src64 k a
  match s.regionCheck k i va with
  | .error v => v
  | .ok t => match s.dropAsk k t with
    | some r => (match r.stage with | .served _ _ => .go | _ => .stall)
    | none =>
      if s.acqPending k then .stall
      else match s.fabCheck k i .rel .fab with
        | .go =>
          let inRegion := fun (r : Req) => decide (r.dev = t.dev) && decide (r.pa / 65536 = t.pa / 65536)
          if s.outstanding k ≠ [] ∨ s.reqs.any inRegion then .stall
          else match (s.held? (t.dev.getD 0) t.pa).filter s.heldLive with
            | some _ =>
              if s.unreachable (t.dev.getD 0) then .trap (s.trapOf k i 0x14 va (0x40 + 256 * s.laneOf k))
              else .fetch (s.mkReq k i va t .normal .wdrop .rlx .fab .none)
            | none => .trap (s.trapOf k i 0x15 va)
        | v => v

def execWdrop (a : Reg) (s : State) : Out :=
  issueSerial (.wdrop a) s (wdropCheck a) fun s k =>
    match s.regionCheck k (.wdrop a) (s.src64 k a) with
    | .ok t => (match s.dropAsk k t with | some r => (s.dropReq r.id).releaseAbroad (.agent k) (t.dev.getD 0) | none => s)
    | .error _ => s

/-! ### Carts and flows (R396, R398, R403) -/

/-- CART_AGE_EXPIRY: the FILLING cart of die `unit` for device `item` has waited CART_AGE. -/
def execCartAgeExpiry (s : State) : Out :=
  let d := s.args.unit
  let old := fun (c : Cart) => decide (c.dest = s.args.item) && !c.leaving && decide (c.since + (s.die d).cartAge ≤ s.clock)
  if (s.die d).carts.any old then .next (s.updDie d fun x => { x with carts := leaveCarts s.clock old x.carts })
  else .refused (.notEnabled "CART_AGE_EXPIRY")

/-- Elements of a die that are sent and without a status. -/
def State.inFlight (s : State) (d : Nat) : Nat :=
  (s.reqs.filter fun r => decide (dieOf r.core = d) && r.dev.isSome && decide (r.stage = .sent)).length

/-- Refuses every request of a list of serials that is still outstanding. -/
def State.refuseAll (s : State) (ids : List Nat) (code : Nat) : State :=
  ids.foldl (fun s id => match s.reqs.find? (·.id = id) with
    | some r => s.refuseHome r code
    | none => s) s

/-- CART_SEND: the first LEAVING cart of die `unit` is sent, when the in-flight table has room for its elements and the flow
for its packet; where no packet goes to its destination its elements are refused (R395, R398, R403). -/
def execCartSend (s : State) : Out :=
  let d := s.args.unit
  match (s.die d).carts.find? Cart.leaving with
  | none => .refused (.notEnabled "CART_SEND")
  | some c =>
    let s1 := s.updDie d fun x => { x with carts := x.carts.erase c }
    if s.unreachable c.dest then .next (s1.refuseAll c.elems 0x40)
    else if 2048 < s.inFlight d + c.elems.length ∨ 1024 ≤ s.unacked c.dest then .refused (.notEnabled "CART_SEND")
    else .next { s1.packet c.dest c.elems with reqs := s1.reqs.map fun r => if r.id ∈ c.elems then { r with stage := .sent, sentAt := s.clock } else r }

/-- Packets up to number `n`. -/
def Flow.upTo (f : Flow) (n : Nat) : List (Nat × List Nat) := f.unacked.take ((f.unacked.takeWhile (·.1 ≠ n)).length + 1)

/-- E2E_ACK: device `item` acknowledges class `sub` up to packet `opt`; a packet to a multicast group is acknowledged when each
member, here `unit`, has done so. What waited for room in the flow is sent. -/
def execE2eAck (s : State) : Out :=
  let d := s.args.item
  let key := (d, s.args.sub)
  let f := s.flows.atD key {}
  match s.args.opt with
  | none => .refused (.notEnabled "E2E_ACK")
  | some n =>
    if !(f.unacked.any (·.1 = n)) then .refused (.notEnabled "E2E_ACK")
    else if isGroup d then
      let ms := (s.groupMembers (d - 0x500)).filter fun m => decide (m ≠ s.devId) && !s.unreachable m
      let heard := f.heard ++ ((f.upTo n).map fun x => (s.args.unit, x.1)).filter fun x => !(f.heard.contains x)
      if s.args.unit ∉ ms ∨ heard = f.heard then .refused (.notEnabled "E2E_ACK")
      else
        let left := f.unacked.dropWhile fun x => ms.all fun m => heard.contains (m, x.1)
        let f2 := { f with unacked := left, heard := heard.filter fun x => left.any fun y => y.1 = x.2, timeouts := 0, resends := 0, lastAck := s.clock }
        .next { s with flows := s.flows.put key f2 }
    else
      .next (({ s with flows := s.flows.put key { f with unacked := (f.unacked.dropWhile (·.1 ≠ n)).drop 1, timeouts := 0, resends := 0, lastAck := s.clock } } : State).postWaiting
        d s.args.sub)

/-! ### Members of a multicast group (R402) -/

/-- One member of a multicast group answers; the store is complete when every member has, and the lowest-numbered refusal is
reported (R402). -/
def State.memberAnswer (s : State) (r : Req) (m : Nat) (code : Option Nat) : State :=
  let left := r.members.filter (· ≠ m)
  let ref := match code, r.refused with
    | some c, some (x, d) => if m < x then some (m, c) else some (x, d)
    | some c, none => some (m, c)
    | none, x => x
  let s1 := s.setReq r.id fun r => { r with members := left, refused := ref }
  if left = [] then
    match ref with
    | some (_, c) => s1.refuseHome r c
    | none => s1.endReq r
  else s1

/-- A member answers every one of a list of requests that still awaits it. -/
def State.memberAll (s : State) (ids : List Nat) (m code : Nat) : State :=
  ids.foldl (fun s id => match s.reqs.find? (·.id = id) with
    | some r => if m ∈ r.members then s.memberAnswer r m (some code) else s
    | none => s) s

/-- The flow to a group has timed out for the fourth time in a row: the request flow to each member that has not acknowledged a
packet is given up, and such a member refuses the packet's stores (R398, R402). -/
def State.giveUpGroup (s : State) (d : Nat) : State :=
  let f := s.flows.atD (d, 0) {}
  let ms := (s.groupMembers (d - 0x500)).filter fun m => decide (m ≠ s.devId) && !s.unreachable m
  let gone := ms.filter fun m => f.unacked.any fun x => !(f.heard.contains (m, x.1))
  let s1 := { s with flows := s.flows.put (d, 0) { f with timeouts := 0, resends := 0, unacked := [], heard := [] } : State }
  let s2 := gone.foldl (fun s m => { s with flows := s.flows.upd (m, 0) {} fun x => { x with givenUp := true } }) s1
  f.unacked.foldl (fun s x => (gone.filter fun m => !(f.heard.contains (m, x.1))).foldl (fun s m => s.memberAll x.2 m 0x40) s) s2

/-- E2E_TIMEOUT: E2ETO has passed without a new acknowledgement of the flow to device `item` in class `sub`; its packets are
sent again, and after the fourth timeout in a row the flow is given up, and what stands in them with it (R398). -/
def execE2eTimeout (s : State) : Out :=
  let key := (s.args.item, s.args.sub)
  let f := s.flows.atD key {}
  if f.unacked = [] ∨ s.clock < f.lastAck + (s.die 0).e2eto * 1000 then .refused (.notEnabled "E2E_TIMEOUT")
  else if f.timeouts < 3 then
    .next { s with flows := s.flows.put key { f with timeouts := f.timeouts + 1, resends := f.resends + 1, lastAck := s.clock } }
  else if isGroup s.args.item then .next (s.giveUpGroup s.args.item)
  else
    let s1 := { s with
      flows := s.flows.put key { f with timeouts := 4, givenUp := true, unacked := [] }
      backlog := s.backlog.filter fun b => decide ((b.1, b.2.1) ≠ key) : State }
    .next (s1.refuseAll (f.unacked.flatMap (·.2)) 0x40)

/-! ### Statuses (R404, R407, R410) -/

/-- A 48-bit expiry as device time near `clock` (R410). -/
def fullExp (clock e : Nat) : Nat :=
  let base := clock / 2 ^ 48 * 2 ^ 48
  if e + 2 ^ 47 < clock % 2 ^ 48 then base + 2 ^ 48 + e else base + e

/-- The answer to a lease request: a lease word, or a refusal cause below 7; a code of R392 marks the destination, and one
that says that the device is not reached answers UNREACH (R222, R410). A renewal that comes too late is not used (R407). A grant is
an acquire at fabric scope (R410). -/
def State.leaseAnswer (s : State) (r : Req) (renew : Bool) (code : Option Nat) (word : W64) : State :=
  let serve := fun (s : State) (v : Nat) => s.setReq r.id fun r => { r with stage := .served v false, slice := 1001 }
  let d := r.dev.getD 0
  let key := regionKey d r.pa
  match code with
  | some c =>
    if c = 0x40 ∨ c = 0x41 then serve s 6
    else if c < 7 then serve s c
    else match r.org with
      | .fibre k => (s.dropReq r.id).fillDst k r.dst 0 (some (.remote r.va (BitVec.ofNat 8 c) r.lane))
      | _ => s.dropReq r.id
  | none =>
    let gen := bits word.toNat 63 48
    let exp := fullExp s.clock (bits word.toNat 47 0)
    let s1 : State :=
      if gen = 0 then s
      else if renew then
        match s.held? d r.pa with
        | some h =>
          if s.heldLive h && decide (h.gen = gen) then { s with heldLeases := s.heldLeases.put key { h with exp := exp } }
          else s.post d 0 (.notice d (r.pa / 65536) gen)
        | none => s.post d 0 (.notice d (r.pa / 65536) gen)
      else { s with heldLeases := s.heldLeases.put key { dev := d, gen := gen, exp := exp, sector := sectorOf r.core } }
    serve (s1.noteFar r) word.toNat

/-- The line of a held region comes: the access waiting for it is performed on it (R407). -/
def State.heldFill (s : State) (r : Req) (line : List Byte) : State :=
  let d := r.dev.getD 0
  match s.held? d r.pa with
  | none => s.refuseHome r 0x15
  | some h =>
    if !s.heldLive h then s.refuseHome r 0x15
    else
      let h2 : HeldLease :=
        if r.pa / 128 ∈ h.present then h
        else { h with data := h.data.writeBytes (r.pa / 128 * 128) line, present := dedup (h.present ++ [r.pa / 128]) }
      let s1 := { s with heldLeases := s.heldLeases.put (regionKey d r.pa) h2 : State }
      (s1.heldPerform r (regionKey d r.pa) h2).settleWrite r.id

/-- The value another device returns fills the request; a whole line with the expiry of its lease is kept (R279, R285,
R405). -/
def State.remoteValue (s : State) (r : Req) (bs : List Byte) (exp : Option Nat) : State :=
  let n := r.what.bytes
  let line : Line := { la := r.la, data := bs, exp := exp.getD 0, serial := r.id }
  let whole := decide (bs.length = 128)
  let v := ofBytes (if whole then (bs.drop (r.pa % 128)).take n else bs)
  let s1 := (s.noteFar r).setReq r.id fun r => { r with stage := .served v false, slice := 1001 }
  if whole && exp.isSome && !r.what.writes && decide (r.lcls ≠ 0) && !r.uc && !r.noAlloc then
    let s2 := s1.l1Insert (clusterOf r.core) r.strm line
    if 2 ≤ r.pcls then s2.allocate (sectorOf r.core * 16 + nibbleXor (r.pa / 128)) r.la r.strm (some line) else s2
  else s1

/-- Whether the copy of a multicast store for this device has been performed with a code, or refused (R402). -/
def State.ownAnswer (s : State) (id : Nat) (code : Option Nat) : Bool :=
  s.outbox.any fun x => match x with
    | .status d _ q _ c _ _ => decide (d = s.devId ∧ q = id ∧ code = if c = 0 then none else some c)
    | _ => false

/-- Whether a code is one of R392, or for a lease request a cause of R410. -/
def codeOk (w : What) (c : Nat) : Bool :=
  decide (c ∈ [0x10, 0x11, 0x15, 0x16, 0x30, 0x40, 0x41]) || (match w with | .wlease _ _ => decide (1 ≤ c ∧ c ≤ 6) | _ => false)

/-- ELEMENT_STATUS (R404): the status of request `item` returns, from member `sub` of a group; `opt` is a refusal's code,
`bytes` and `word` the data, `nats` a lease's expiry. -/
def execElementStatus (s : State) : Out :=
  let x := s.args
  match s.reqs.find? (·.id = x.item) with
  | none => .refused (.notEnabled "ELEMENT_STATUS")
  | some r =>
    let sent := match r.stage with | .sent | .remote => true | _ => false
    if r.dev.isNone || !sent || !s.depsDone r.deps || !(x.opt.all (codeOk r.what)) then .refused (.notEnabled "ELEMENT_STATUS")
    else if isGroup (r.dev.getD 0) then
      if x.sub ∈ r.members ∧ (x.sub ≠ s.devId ∨ s.ownAnswer r.id x.opt = true) then .next (s.memberAnswer r x.sub x.opt)
      else .refused (.notEnabled "ELEMENT_STATUS")
    else match r.what, r.org with
      | .wlease renew _, _ => .next (s.leaseAnswer r renew x.opt x.word)
      | .line, .fibre k =>
        if x.opt.isNone ∧ x.bytes.length ≠ 128 then .refused (.notEnabled "ELEMENT_STATUS")
        else .next { s.dropReq r.id with lineBuf := s.lineBuf ++ [(k, r.la, x.opt.getD 0, x.bytes)] }
      | .wdrop, _ =>
        let s1 := { s with heldLeases := s.heldLeases.del (regionKey (r.dev.getD 0) r.pa) : State }
        .next (match x.opt with
          | some _ => s1.dropReq r.id
          | none => s1.setReq r.id fun r => { r with stage := .served 0 false, slice := 1001 })
      | .sig _ lid, _ => .next (match x.opt with
          | some c => s.refuseHome r c
          | none => if r.org = .host then s.bellDone r else s.setReq r.id fun r => { r with stage := .served lid false, slice := 1001 })
      | w, _ =>
        match x.opt with
        | some c => .next (s.refuseHome r c)
        | none =>
          if r.held then
            if x.bytes.length = 128 then .next (s.heldFill r x.bytes) else .refused (.notEnabled "ELEMENT_STATUS")
          else if w.returns then .next (s.remoteValue r x.bytes x.nats.head?)
          else .next (s.endReq r)

/-- HOLDER_LEASE_EXPIRY (R407): lease `item` of the holder's table stands as expired: its dirty lines are discarded, what
waits on it is refused, and the home is told. -/
def execHolderLeaseExpiry (s : State) : Out :=
  match s.heldLeases.at? s.args.item with
  | none => .refused (.notEnabled "HOLDER_LEASE_EXPIRY")
  | some h =>
    if h.gen = 0 ∨ s.heldLive h then .refused (.notEnabled "HOLDER_LEASE_EXPIRY")
    else
      let ids := (s.reqs.filter fun r => r.held && decide (r.stage = .remote) && decide (regionKey (r.dev.getD 0) r.pa = s.args.item)).map Req.id
      let gone : HeldLease := { h with gen := 0, exp := 0, data := [], present := [], dirty := [], cause := [] }
      let s1 := { s with
        heldLeases := s.heldLeases.put s.args.item gone
        : State }
      .next ((s1.post h.dev 0 (.notice h.dev (s.args.item % 2 ^ 28) h.gen)).refuseAll ids 0x15)

/-! ### Links and peers (R394, R398, R401) -/

/-- LINK_REPLAY (R398): flits of port `unit` are sent again from its replay buffer; what they carry is applied once. -/
def execLinkReplay (s : State) : Out :=
  if 128 ≤ s.args.unit ∨ s.args.unit ∈ s.failedPorts then .refused (.notEnabled "LINK_REPLAY") else .next s

/-- PORT_FAILURE (R394): port `unit` is taken out of its link, which carries on with its remaining ports. -/
def execPortFailure (s : State) : Out :=
  let n := s.args.unit
  if 128 ≤ n ∨ n ∈ s.failedPorts then .refused (.notEnabled "PORT_FAILURE")
  else .next { s with failedPorts := s.failedPorts ++ [n], links := s.links.map fun l => (l.1, l.2.filter (· ≠ n)) }

/-- Control software binds a port to the link to a neighbour: one that stands in no link and has not failed (R394; which ports are
cabled to which neighbour, and which ports stand in a link at reset: DESIGN CHOICE, log 87). -/
def State.bindPort (s : State) (n d : Nat) : Option State :=
  if 128 ≤ n ∨ n ∈ s.failedPorts ∨ 1057 < d ∨ d = s.devId ∨ s.links.any (fun l => l.2.contains n) then none
  else some { s with links := s.links.upd d [] (· ++ [n]) }

/-- What a rejoining peer leaves of its regions here: those it held are ORPHANED (R401, R406). -/
def orphanOf (d : Nat) (h : HomeLease) : HomeLease :=
  match h.state with
  | .held x _ => if x = d then { h with state := .orphaned } else h
  | _ => h

/-- PEER_REJOIN (R401): device `unit` joins with incarnation `word`. Flows with it start afresh, its write leases stand as
expired, its accesses here that are not performed are dropped, and what this device had issued to its old incarnation
completes with INCARNATION (DEDUCED, log 37). -/
def execPeerRejoin (s : State) : Out :=
  let d := s.args.unit
  let inc := s.args.word.toNat
  if 1057 < d ∨ d = s.devId ∨ inc = 0 ∨ 2 ^ 32 ≤ inc ∨ inc = s.peers.atD d 0 then .refused (.notEnabled "PEER_REJOIN")
  else
    let ids := (s.reqs.filter fun r => decide (r.dev = some d) && (match r.stage with | .cart | .sent | .remote => true | _ => false)).map Req.id
    let s1 := { s with
      peers := s.peers.put d inc
      flows := s.flows.filter fun f => f.1.1 ≠ d
      backlog := s.backlog.filter fun b => b.1 ≠ d
      expected := s.expected.filter fun e => e.1.1 % 2048 ≠ d
      homeLeases := s.homeLeases.map fun (n, h) => (n, orphanOf d h)
      heldLeases := s.heldLeases.map fun (n, h) => if h.dev = d then (n, { h with gen := 0, exp := 0, data := [], present := [], dirty := [], cause := [] }) else (n, h)
      dies := s.dies.map fun (n, x) => (n, { x with carts := x.carts.filter fun c => c.dest ≠ d })
      reqs := s.reqs.filter fun r => r.device ≠ some d : State }
    .next (((s1.refuseAll ids 0x41).memberAll (s1.reqs.map Req.id) d 0x41).unclaim (.device d))

end Sys2Proof.Machine
end

