-- ==== Sys2Proof/Machine/Arrival.lean ====
section
/-!
DEFINITION. Machine/Arrival.lean: what other devices ask of this one (R391, R392, R398, R401), the write leases it grants
(R406, R410), and the packets that only pass through (R395, R402).
-/

namespace Sys2Proof.Machine

/-! ### Import table (R391) -/

namespace Imp
def base (e : List Byte) : Nat := field e 0 8
def limit (e : List Byte) : Nat := field e 8 8
def perm (e : List Byte) (n : Nat) : Bool := (field e 0x15 1).testBit n
def lcmax (e : List Byte) : Nat := bits (field e 0x16 1) 1 0
def hsec (e : List Byte) : Nat := bits (field e 0x16 1) 3 2
def cell (e : List Byte) : Bool := (field e 0x16 1).testBit 4
/-- Whether an entry holds an extent, its source and its tenant. -/
def holds (e : List Byte) (src tenant a n : Nat) : Bool :=
  decide (base e ≤ a ∧ a + n ≤ limit e + 1) && decide (field e 0x10 2 ≤ src ∧ src ≤ field e 0x12 2) && decide (field e 0x14 1 = tenant)
end Imp

/-- PERM bit an element needs (R391). -/
def permBit : PacketReq → Nat
  | .read _ => 0
  | .write _ => 1
  | .atomic _ _ _ _ => 2
  | .cellStore _ _ _ | .cellLoad => 3
  | .leaseRequest _ | .leaseRenew _ | .writeBack _ _ | .leaseDrop _ | .expiryNotice => 4

/-- Bytes an element covers; a lease request's extent is its region. -/
def extent : PacketReq → Nat
  | .read n => n
  | .write d => d.length
  | .atomic op _ _ _ => atomBytes op
  | .cellStore _ _ _ | .cellLoad => 16
  | .leaseRequest _ | .leaseRenew _ | .writeBack _ _ | .leaseDrop _ | .expiryNotice => 65536

/-- Whether an entry's CELL disagrees with an element's kind (R228, R391). -/
def cellClash (w : PacketReq) (cell : Bool) : Bool :=
  match w with
  | .cellStore _ _ _ | .cellLoad => !cell
  | .write _ | .atomic _ _ _ _ => cell
  | _ => false

/-- The entry that admits an element, the lowest-numbered one (R391; DESIGN CHOICE, log 80). -/
def State.admits (s : State) (src tenant : Nat) (e : PacketElem) : Option (List Byte) :=
  let a := if permBit e.what = 4 then e.addr / 65536 * 65536 else e.addr
  ((List.range 64).map s.importEntry).find? fun x => Imp.holds x src tenant a (extent e.what) && Imp.perm x (permBit e.what)

/-- What an element that reads or writes memory does here; none for the words of the lease protocol. -/
def asWhat : PacketReq → Option What
  | .read n => some (match n with
    | 1 => .load .b8
    | 2 => .load .b16
    | 4 => .load .b32
    | 8 => .load .b64
    | 16 => .load .b128
    | 32 => .load .b256
    | _ => .line)
  | .write d => some (.store d.length (ofBytes d))
  | .atomic op _ d e => some (.atom op .plain d e)
  | .cellStore md q v => some (.cell md q v)
  | .cellLoad => some .ldc
  | _ => none

/-- Whether an element is one the fabric carries: a read of a width of R223 or a whole line, a write within a line, an atomic
of R230, each naturally aligned where it is one access. -/
def elemOk (e : PacketElem) : Bool :=
  match e.what with
  | .read n => decide (n ∈ [1, 2, 4, 8, 16, 32, 128]) && decide (e.addr % n = 0)
  | .write d => decide (1 ≤ d.length) && decide (e.addr % 128 + d.length ≤ 128)
  | .atomic op _ _ _ => decide (0x20 ≤ op ∧ op ≤ 0x2F) && decide (e.addr % atomBytes op = 0)
  | .cellStore _ _ _ | .cellLoad => decide (e.addr % 16 = 0)
  | .writeBack _ l => l.all fun c => decide (c.1 / 65536 = e.addr / 65536)
  | _ => true

/-- Payload bytes an element takes: whole slots of 16 bytes (R2, R403). -/
def payload : PacketReq → Nat
  | .write d => (d.length + 15) / 16 * 16
  | .atomic op _ _ _ => if op = 0x2D then 32 else 16
  | .cellStore _ _ _ => 32
  | .writeBack _ l => l.length
  | _ => 0

/-! ### Write leases at the home (R406, R407, R410) -/

def State.homeLease (s : State) (n : Nat) : HomeLease := s.homeLeases.atD n {}
def State.setHome (s : State) (n : Nat) (h : HomeLease) : State := { s with homeLeases := s.homeLeases.put n h }

/-- A lease word: a generation with its expiry (R410). -/
def leaseWord (gen exp : Nat) : Nat := gen * 2 ^ 48 + exp % 2 ^ 48

/-- Regions of the home's lease table that are not OPEN. -/
def State.homeCount (s : State) : Nat := (s.homeLeases.filter fun h => decide (h.2.state ≠ .open)).length

/-- The answer to a WLEASE: a lease word, or a cause (R410; DEDUCED, log 35). -/
def State.leaseGrant (s : State) (n src us : Nat) : State × Nat × Nat :=
  let h := s.homeLease n
  match h.state with
  | .held _ _ => (s, 1, 0)
  | .orphaned => (s, 2, 0)
  | .open =>
    if 256 ≤ s.homeCount then (s, 3, 0)
    else
      let gen := if h.gen = 65535 then 1 else h.gen + 1
      let exp := s.clock + 1000 * us
      (s.setHome n { state := .held src exp, gen := gen }, 0, leaseWord gen exp)

/-- The answer to a WRENEW (R410); one that comes after the expiry finds the region ORPHANED. -/
def State.renewLease (s : State) (n src us : Nat) : State × Nat × Nat :=
  let h := s.homeLease n
  match h.state with
  | .held d e =>
    if d ≠ src then (s, 5, 0)
    else if e + 200 ≤ s.clock then (s.setHome n { h with state := .orphaned }, 4, 0)
    else
      let exp := s.clock + 1000 * us
      (s.setHome n { h with state := .held src exp }, 0, leaseWord h.gen exp)
  | .orphaned => (s, 4, 0)
  | .open => (s, 5, 0)

/-- Whether a region is held by a device under a generation (R407). -/
def State.heldBy (s : State) (n src gen : Nat) : Bool :=
  match (s.homeLease n).state with
  | .held d _ => decide (d = src ∧ (s.homeLease n).gen = gen)
  | _ => false

/-! ### PACKET_ARRIVAL -/

/-- Key of the receiving side of a flow: of its source, and of the group it goes to. -/
def flowKey (p : Packet) : Nat := if isGroup p.dst then p.dst * 2048 + p.src else p.src

/-- Whether a packet is for this device. -/
def State.forUs (s : State) (p : Packet) : Bool :=
  decide (p.dst = s.devId) || (isGroup p.dst && decide (s.devId ∈ s.groupMembers (p.dst - 0x500)))

/-- Where a byte that a holder writes back has its home: in the slice that the import table names (R391). -/
def State.backHome (s : State) (p : Packet) (e : PacketElem) (a : Nat) : Nat :=
  homeSlice a ((s.admits p.src p.tenant e).elim 3 Imp.hsec)

/-- One element arrives: it is refused, answered, or becomes a request on its way to its home (R391, R392, R406; DEDUCED, log 36). -/
def State.arriveElem (s : State) (p : Packet) (e : PacketElem) (i : Nat) : State :=
  let status := fun (s : State) (code data : Nat) => s.post p.src 1 (.status p.src p.cls p.seq i code data 0)
  let n := e.addr / 65536
  match e.what with
  | .expiryNotice =>
    (match (s.homeLease n).state with
      | .held d _ => if d = p.src then s.setHome n { s.homeLease n with state := .orphaned } else s
      | _ => s)
  | .writeBack gen cells =>
    if s.heldBy n p.src gen.toNat then
      status (cells.foldl (fun s c => (s.visitLine 0 (s.backHome p e c.1) (c.1 / 128)).homeWrite none { who := .device p.src } c.1 [c.2]) s) 0 0
    else status s 0x15 0
  | .leaseDrop gen =>
    if s.heldBy n p.src gen.toNat then status (s.setHome n { s.homeLease n with state := .open }) 0 0 else status s 0x15 0
  | w =>
    if !s.paOk e.addr then status s 0x10 0
    else match s.admits p.src p.tenant e with
      | none => status s 0x11 0
      | some x =>
        if cellClash w (Imp.cell x) then status s 0x16 0
        else match w with
          | .leaseRequest us => let (s1, c, v) := s.leaseGrant n p.src us; status s1 c v
          | .leaseRenew us => let (s1, c, v) := s.renewLease n p.src us; status s1 c v
          | w => match asWhat w with
            | none => s
            | some wh =>
              if (match wh with | What.atom _ _ _ _ => inHost e.addr | _ => false) then status s 0x11 0
              else s.addReq
                { id := 0, org := .remote p.src p.tenant p.cls p.seq i, core := 100000 + p.src, part := 0, va := BitVec.ofNat 64 e.addr
                  pa := e.addr, lcls := min e.lclass (Imp.lcmax x), hsec := Imp.hsec x, what := wh, ord := e.ord, sc := .fab, slice := homeSlice e.addr (Imp.hsec x) }

/-- Elements of a packet in order (R400). -/
def State.arriveAll (s : State) (p : Packet) : List PacketElem → Nat → State
  | [], _ => s
  | e :: r, i => State.arriveAll (s.arriveElem p e i) p r (i + 1)

/-- The lines that the write-backs of a packet write, at their homes (R111, R281). -/
def State.packetLines (s : State) (p : Packet) : List (Nat × Nat) :=
  dedup (p.elems.flatMap fun e => match e.what with
    | .writeBack gen l => if s.heldBy (e.addr / 65536) p.src gen.toNat then l.map fun c => (s.backHome p e c.1, c.1 / 128) else []
    | _ => [])

/-- Whether a packet is of a size that one has: at most 16 elements and 4 payload flits (R2, R403). -/
def packetFits (p : Packet) : Bool := decide (p.elems.length ≤ 16) && decide ((p.elems.map fun e => payload e.what).sum ≤ 256) && p.elems.all elemOk

/-- Whether the link dies run: not while the boot has refused an image (R424). -/
def State.linksUp (s : State) : Bool := decide (s.bootstat % 16 ≠ 2 ∧ s.bootstat % 16 ≠ 3)

/-- PACKET_ARRIVAL: a packet for this device; its write-backs wait at their lines for the leases there (R281). One for an earlier incarnation of it is answered with INCARNATION, one of
another incarnation of its source is dropped (R401); one out of turn is dropped, and acknowledged again where it is a
duplicate (R398). -/
def execPacketArrival (s : State) : Out :=
  match s.args.packet with
  | none => .refused (.notEnabled "PACKET_ARRIVAL")
  | some p =>
    let key := (flowKey p, p.cls)
    let want := s.expected.atD key 0
    let ahead := (p.seq + 2 ^ 32 - want % 2 ^ 32) % 2 ^ 32
    if !s.linksUp || !s.forUs p || decide (p.src = s.devId ∨ 1057 < p.src ∨ 3 < p.cls ∨ 2 ^ 32 ≤ p.seq) || !packetFits p then
      .refused (.notEnabled "PACKET_ARRIVAL")
    else if p.dstInc.toNat ≠ s.incarnation then
      .next ((List.range p.elems.length).foldl (fun s i => s.post p.src 1 (.status p.src p.cls p.seq i 0x41 0 0)) s)
    else if p.srcInc.toNat ≠ s.peers.atD p.src 0 then .next s
    else if ahead = 0 then
      let ls := s.packetLines p
      if s.visitBarred ls then .refused (.notEnabled "PACKET_ARRIVAL")
      else if ls.all (s.lineOpen (.device p.src)) then
        let s1 := (s.reachAbroad.arriveAll p p.elems 0).unclaim (.device p.src)
        .next { s1 with
          expected := s.expected.put key ((want + 1) % 2 ^ 32)
          outbox := s1.outbox ++ [.ack p.src p.cls p.seq] }
      else if s.claimed (.device p.src) ls then .refused (.notEnabled "PACKET_ARRIVAL")
      else .next (s.claim (.device p.src) ls)
    else if 2 ^ 32 ≤ ahead + 1024 then .next { s with outbox := s.outbox ++ [.ack p.src p.cls ((want + 2 ^ 32 - 1) % 2 ^ 32)] }
    else .next s

/-! ### TRANSIT_FORWARD (R125, R395, R402) -/

/-- Next device of the minimal path to a device (DESIGN CHOICE, log 38). -/
def State.nextHop (s : State) (d : Nat) : Option Nat :=
  let v := field (s.route d) 0 2
  if v = 0x7FE then none else if v = 0x7FF then some d else some v

/-- Whether `new` makes a held cell store `old` superfluous, or the other way round (R125, R126). -/
def elemMeet (old new : PacketElem) : Meet :=
  match asWhat old.what, asWhat new.what with
  | some a, some b => if old.addr = new.addr then cellMeet a b else .both
  | _, _ => .both

/-- Elements of a held packet that stay when another to its group comes. -/
def keepOld (old : Packet) (new : Packet) : Packet :=
  { old with elems := old.elems.filter fun a => !(new.elems.any fun b => decide (elemMeet a b = .dropOld)) }

/-- Elements of a new packet that stay on branches where held ones still stand. -/
def keepNew (held : List Transit) (new : Packet) : Packet :=
  { new with elems := new.elems.filter fun b => !(held.any fun t => t.packet.dst = new.dst && t.packet.elems.any fun a => decide (elemMeet a b = .dropNew)) }

/-- Multicast slots in use at a port (R402). -/
def State.slotsUsed (s : State) (port : Nat) : Nat := (s.transit.filter fun t => t.slot = some port).length

/-- A packet that has reached the intermediate of its non-minimal path goes on minimally from there (R395). -/
def packetOnward (p : Packet) (d : Nat) : Packet := if p.via = some d then { p with via := none } else p

/-- Sends a packet on a list of branches. -/
def State.forward (s : State) (hop : Nat) (p : Packet) (bs : List Nat) : State :=
  { s with outbox := s.outbox ++ bs.map fun b => .forward b hop p }

/-- TRANSIT_FORWARD: a packet that is only passing through goes out on its next hop `sub`, minimally to the intermediate of its
non-minimal path and from there to its destination (R395). A multicast packet goes out on the
branches with room, the first `opt` of `nats`, and holds a slot of port `unit` for the others; without a packet, the held
packet `item` goes out on the branches `nats` that have got room. -/
def execTransitForward (s : State) : Out :=
  let x := s.args
  match x.packet with
  | some p =>
    if !s.linksUp ∨ x.sub = 0 ∨ 4 < x.sub ∨ !packetFits p then .refused (.notEnabled "TRANSIT_FORWARD")
    else if !isGroup p.dst then
      let q := packetOnward p s.devId
      if p.dst = s.devId then .refused (.notEnabled "TRANSIT_FORWARD")
      else match s.nextHop (q.via.getD p.dst) with
        | some b => .next (s.forward x.sub q [b])
        | none => .refused (.notEnabled "TRANSIT_FORWARD")
    else
      let n := x.opt.getD x.nats.length
      let room := x.nats.take n
      let blocked := x.nats.drop n
      if blocked ≠ [] ∧ (128 ≤ x.unit ∨ 16 ≤ s.slotsUsed x.unit) then .refused (.notEnabled "TRANSIT_FORWARD")
      else
        let held := s.transit.map fun t => if t.packet.dst = p.dst then { t with packet := keepOld t.packet p } else t
        let s1 := { s.forward x.sub p room with transit := held : State }
        .next (if blocked = [] then s1
          else { s1 with transit := held ++ [{ packet := keepNew s.transit p, hop := x.sub, branches := blocked, slot := some x.unit }] })
  | none =>
    match s.transit[x.item]? with
    | none => .refused (.notEnabled "TRANSIT_FORWARD")
    | some t =>
      if !s.linksUp ∨ x.nats = [] ∨ !(x.nats.all fun b => b ∈ t.branches) then .refused (.notEnabled "TRANSIT_FORWARD")
      else
        let left := t.branches.filter fun b => !(x.nats.contains b)
        let s1 := s.forward t.hop t.packet x.nats
        .next { s1 with transit := if left = [] then s.transit.eraseIdx x.item else s.transit.set x.item { t with branches := left } }

/-! ### The end of a lease at the home (R406) -/

/-- WRITE_LEASE_EXPIRY: CLOCK has passed EXP + 200 ns of region `unit`. -/
def execWriteLeaseExpiry (s : State) : Out :=
  let h := s.homeLease s.args.unit
  match h.state with
  | .held _ e =>
    if e + 200 ≤ s.clock then .next (s.setHome s.args.unit { h with state := .orphaned }) else .refused (.notEnabled "WRITE_LEASE_EXPIRY")
  | _ => .refused (.notEnabled "WRITE_LEASE_EXPIRY")

/-- ORPHAN_CLEAR: control-mode code clears ORPHANED of region `unit`. -/
def execOrphanClear (s : State) : Out :=
  let h := s.homeLease s.args.unit
  if h.state = .orphaned then .next (s.setHome s.args.unit { h with state := .open }) else .refused (.notEnabled "ORPHAN_CLEAR")

end Sys2Proof.Machine
end

