-- ==== Sys2Proof/Machine/Launch.lean ====
section
/-!
DEFINITION. Machine/Launch.lean: LAUNCH and LQSTAT (R190-R193), the acceptance of a launch (R140-R148) and its retirement
(R146, R157).
-/

namespace Sys2Proof.Machine

/-! ### The launch record (R140-R142) -/

namespace Rec
def entry (r : List Byte) : Nat := field r 0 8
def gridx (r : List Byte) : Nat := field r 8 4
def gridy (r : List Byte) : Nat := field r 0xC 4
def gridz (r : List Byte) : Nat := field r 0x10 4
def fibres (r : List Byte) : Nat := field r 0x14 2
def maxf (r : List Byte) : Nat := if field r 0x16 2 = 0 then fibres r else field r 0x16 2
def regs (r : List Byte) : Nat := field r 0x18 2
def scratch (r : List Byte) : Nat := field r 0x1C 4
def roles (r : List Byte) : Nat := field r 0x20 8
def flags (r : List Byte) : Nat := field r 0x28 4
def prio (r : List Byte) : Nat := bits (flags r) 6 4
def preempt (r : List Byte) : Bool := (flags r).testBit 2
def rollback (r : List Byte) : Bool := (flags r).testBit 1
def twin (r : List Byte) : Bool := (flags r).testBit 0
def tenant (r : List Byte) : Nat := field r 0x2C 1
def param (r : List Byte) : Nat := field r 0x90 8
def nlive (r : List Byte) : Nat := field r 0x98 2
def nreg (r : List Byte) : Nat := field r 0x9A 1
def blocks (r : List Byte) : Nat := gridx r * gridy r * gridz r
def gangs (r : List Byte) : Nat := (maxf r + 31) / 32
/-- A dependence, or SIG, at offset `o`: core, context, whether in use, value. -/
def depCore (r : List Byte) (o : Nat) : Nat := field r o 2
def depCtx (r : List Byte) (o : Nat) : Nat := field r (o + 2) 1
def depValid (r : List Byte) (o : Nat) : Bool := (field r (o + 3) 1).testBit 0
def depValue (r : List Byte) (o : Nat) : Nat := field r (o + 8) 8
def sigValid (r : List Byte) : Bool := depValid r 0x70

/-- The offset of the lowest byte of a range that is not zero. -/
def nonzero (r : List Byte) (o n : Nat) : Option Nat := ((List.range n).find? fun i => field r (o + i) 1 ≠ 0).map (o + ·)

/-- Offsets of the failing conditions of R144 in a dependence entry, or in SIG (R142). -/
def badDep (r : List Byte) (o : Nat) (sig : Bool) : List Nat :=
  if depValid r o then
    (if 383 < depCore r o then [o] else []) ++ (if 7 < depCtx r o then [o + 2] else []) ++
      (if field r (o + 3) 1 ≠ 1 then [o + 3] else []) ++ (nonzero r (o + 4) 4).toList
  else (nonzero r o (if sig then 8 else 16)).toList

/-- FLAGS bits that are reserved, as the offset of the lowest byte that holds one (R141). -/
def badFlags (r : List Byte) : List Nat :=
  if bits (flags r) 7 7 ≠ 0 ∨ bits (flags r) 3 3 ≠ 0 then [0x28] else (nonzero r 0x29 3).toList

/-- Roles of a record that R144 refuses: role 3, or a role that names a gang at or above MAXF. -/
def badRoles (r : List Byte) : Bool :=
  (List.range 32).any fun g =>
    let x := bits (roles r) (2 * g + 1) (2 * g)
    decide (x = 3) || (decide (x ≠ 0) && decide (maxf r ≤ 32 * g))

/-- Offsets of every failing condition of R144, but for the tenant's. `undo`: the partition has undo-log ways; `drain`: ways
the launch needs still drain (R420). -/
def bad (r : List Byte) (undo drain : Bool) : List Nat :=
  (if entry r % 4 ≠ 0 then [0] else []) ++ (if gridx r = 0 then [8] else []) ++ (if gridy r = 0 then [0xC] else []) ++
  (if gridz r = 0 then [0x10] else []) ++ (if fibres r = 0 ∨ 1024 < fibres r then [0x14] else []) ++
  (if field r 0x16 2 ≠ 0 ∧ (field r 0x16 2 < fibres r ∨ 1024 < field r 0x16 2) then [0x16] else []) ++
  (if regs r < 32 ∨ 256 < regs r ∨ regs r % 16 ≠ 0 then [0x18] else []) ++ (nonzero r 0x1A 2).toList ++
  (if 2097152 < scratch r ∨ scratch r % 128 ≠ 0 then [0x1C] else []) ++ (if badRoles r then [0x20] else []) ++ badFlags r ++
  (if rollback r && !undo || drain then [0x28] else []) ++ (if 11 < tenant r then [0x2C] else []) ++ (nonzero r 0x2D 3).toList ++
  ([0x30, 0x40, 0x50, 0x60].flatMap fun o => badDep r o false) ++ badDep r 0x70 true ++
  (if 16384 < nlive r then [0x98] else []) ++ (if 128 < nreg r then [0x9A] else []) ++ (nonzero r 0x9B 101).toList ++
  (if twin r && decide (gridx r % 2 = 1) then [8] else []) ++ (if 65536 < gangs r * 32 * regs r then [0x18] else []) ++
  (if nlive r ≠ 0 ∧ field r 0x80 8 = 0 then [0x80] else []) ++ (if nreg r ≠ 0 ∧ field r 0x88 8 = 0 then [0x88] else [])
end Rec

/-- The least number of a list. -/
def least : List Nat → Option Nat
  | [] => none
  | x :: r => some (r.foldl min x)

/-! ### Queues (R145-R148) -/

def State.lqueue (s : State) (n : Nat) : LQueue := s.queues.atD n {}
def State.updLqueue (s : State) (n : Nat) (f : LQueue → LQueue) : State := { s with queues := s.queues.put n (f (s.lqueue n)) }

/-- The cause and offset with which a queue refuses a record, if it does: TENANT first, then INVALID with the lowest offset,
then FULL (R144, R145, R148, R420). `sigPage`: a doorbell's record whose SIG lies on a page that is not writable (R143). -/
def State.judge (s : State) (part q : Nat) (r : List Byte) (sigPage : Bool) : Option (Nat × Nat) :=
  let p := s.part part
  let drain := (Rec.rollback r && p.pendUndo) || (Rec.preempt r && p.pendShadow)
  if !p.enabled || decide (Rec.tenant r ≠ p.tenant) then some (2, 0)
  else match least (Rec.bad r p.undo drain ++ if sigPage then [0x78] else []) with
    | some o => some (1, o)
    | none => if 256 ≤ (s.lqueue (queueKey part q)).held.length then some (3, 0) else none

/-- Records a refusal in a queue's status (R148). -/
def State.noteRefusal (s : State) (part q cause off : Nat) : State :=
  s.updLqueue (queueKey part q) fun x => { x with cause := cause, offset := if cause = 1 ∨ cause = 5 then off else x.offset }

/-- A status word (R191). -/
def refusedWord (cause off : Nat) : W64 := BitVec.ofNat 64 (2 ^ 63 + cause * 256 + off)

/-- What precedes every access of a launch: what precedes the LAUNCH or the doorbell that handed it over (R192). -/
def launchStart (lid : Nat) : Party := .engine (.ctl lid) 7

/-- Accepts a launch: it gets its LAUNCHID, takes its SIG ticket and stands at the tail of its queue (R145). Answers the
LAUNCHID and the ticket. -/
def State.acceptLaunch (s : State) (by_ : Party) (part q recAt : Nat) (r : List Byte) : State × Nat × Option Nat :=
  let lid := s.nextLid
  let (sig, s1) : Option (Nat × Nat × Nat) × State :=
    if Rec.sigValid r then
      let c := Rec.depCore r 0x70
      let t := Rec.depCtx r 0x70
      let n := (s.ctx c t).issued + 1
      (some (c, t, n), s.updCtx c t fun x => { x with issued := n })
    else (none, s)
  let l : Launch := { part := part, queue := q, recAt := recAt, record := r, sig := sig }
  ({ ((s1.newAgent (launchStart lid)).follows by_ (launchStart lid)).updLqueue (queueKey part q) (fun x => { x with held := x.held ++ [lid] }) with
      launches := s1.launches.put lid l, nextLid := (lid + 1) % 2 ^ 40 }, lid, sig.map (·.2.2))

/-- Whether a launch is not wholly placed (R145). -/
def Launch.unplaced (l : Launch) : Bool :=
  match l.state with
  | .accepted | .pending | .placing => true
  | _ => false

/-- The head of a queue: its oldest launch that is not wholly placed (R145). -/
def State.headOf (s : State) (n : Nat) : Option Nat :=
  (s.lqueue n).held.find? fun l => ((s.launch? l).map Launch.unplaced).getD false

/-- The status word of a queue (R193). -/
def State.queueStatus (s : State) (n : Nat) : W64 :=
  let q := s.lqueue n
  let (head, id) : Nat × Nat := match s.headOf n with
    | some l => (match (s.launch? l).map Launch.state with | some .placing => 3 | _ => 2, l)
    | none =>
      match q.held.foldl (fun (m : Option (Nat × Nat)) l =>
          let p := ((s.launch? l).map Launch.placed).getD 0
          match m with | some (x, y) => if x ≤ p then some (p, l) else some (x, y) | none => some (p, l)) none with
      | some (_, l) => (4, l)
      | none => (match q.lastRetired with | some l => (5, l) | none => (0, 0))
  BitVec.ofNat 64 (id % 2 ^ 40 * 2 ^ 24 + q.offset % 256 * 2 ^ 16 + q.cause % 16 * 2 ^ 12 + head * 2 ^ 9 + q.held.length)

/-! ### LAUNCH and LQSTAT -/

/-- The queue an operand names: a fibre's partition's, or a control core's 64 x partition + queue (R190, R416). -/
def State.queueNamed (s : State) (k : FKey) (b : Nat) : Option (Nat × Nat) :=
  match k with
  | .ctl _ => if b ≤ 767 then some (b / 64, b % 64) else none
  | k => if b ≤ 63 then some (s.partOf k, b) else none

/-- Reads a launch record for an agent; a control core's address is physical, and its window takes no access of 256 bytes (R190,
R416, R418). -/
def State.readRecord (s : State) (k : FKey) (i : Instr) (va : W64) : Except Verdict (List Byte × Option W64) :=
  match k with
  | .ctl _ =>
    if inControl va.toNat || inControl (va.toNat + 255) then .error (.trap (s.trapOf k i 0x12 va))
    else match (List.range 256).find? fun j => !s.paOk (va.toNat + j) with
    | some j => .error (s.faultVerdict k i (va + BitVec.ofNat 64 j) 0x10 0)
    | none => if [0, 255].any fun j => inDram (va.toNat + j) && s.zeroing.contains ((va.toNat + j) / 65536) then .error .stall
    else .ok (s.mem.bytes va.toNat 256, (s.poisonOff va.toNat 256).map fun j => va + BitVec.ofNat 64 j)
  | k => s.readVirt k i .load 5 va 256

/-- The acquiring read of a launch record, as LAUNCH makes it, of the pages on which it stands, whichever devices hold them (R104,
R190). -/
def State.noteRecord (s : State) (k : FKey) (va : W64) : State :=
  let n := min 256 (65536 - va.toNat % 65536)
  let page := fun (s : State) (x : W64 × Nat) => match s.target k .load x.1 with
    | .ok t =>
      if x.2 = 0 then s else match t.dev with
      | none => s.noteRead (s.ownView k t) t.pa x.2 (some .dev)
      | some d => (s.farNews k d).2.acquire (.agent k) .dev (s.farNews k d).1
    | _ => s
  match k with
  | .fib _ _ => ([(va, n), (va + BitVec.ofNat 64 n, 256 - n)].foldl page s).l1Clear (clusterOf (s.coreOf k))
  | _ => s

/-- LAUNCH: a release at device scope; the record is aligned, readable, not poisoned, and with a valid SIG writable (R143, R190,
R192). -/
def launchCheck (o : R3) (s : State) (k : FKey) : Verdict :=
  let i := Instr.launch o
  let va := s.src64 k o.a
  if va.toNat % 64 ≠ 0 then .trap (s.trapOf k i 0x12 va)
  else if s.acqPending k || decide (s.outstanding k ≠ []) then .stall
  else match s.readRecord k i va with
    | .error v => v
    | .ok (_, some p) => s.markVerdict k i (.poison p)
    | .ok (r, none) =>
      if !Rec.sigValid r then .go
      else match s.target k .store va, s.target k .store (va + 0x78) with
        | .miss, _ => .miss va
        | .bad c x, _ => s.faultVerdict k i va c x
        | .ok _, .miss => .miss (va + 0x78)
        | .ok _, .bad c x => s.faultVerdict k i (va + 0x78) c x
        | .ok _, .ok _ => .go

/-- The ticket is written into the record of an accepted launch, by a store that ends before D is written; until then its fibre
executes no further word (R143, R190; DEDUCED, log 33). -/
def State.writeSig (s : State) (k : FKey) (o : R3) (va : W64) (n lid : Nat) : State :=
  let d := wrSlot .xs o.d
  match s.target k .store (va + 0x78) with
  | .ok t =>
    let dst := match o.d with | .s _ => if s.lead k = k then s.dstOf k d else .none | _ => s.dstOf k d
    let r := s.mkReq k (.launch o) (va + 0x78) t .normal (.sig n lid) .rlx .fib dst
    let s1 : State := if dst = .none then s else s.markEmpty k d
    (s1.place r).getD (s1.sendDirect r)
  | _ => s.putOnce64 k o.d (BitVec.ofNat 64 lid)

/-- One member's LAUNCH (R190-R192). -/
def State.launchOne (s : State) (k : FKey) (o : R3) : State :=
  let i := Instr.launch o
  let va := s.src64 k o.a
  match s.readRecord k i va with
  | .error _ => s
  | .ok (r, _) =>
    let s := s.noteRecord k va
    match s.queueNamed k (s.src32 k o.b).toNat with
    | none => s.putOnce64 k o.d (refusedWord 4 0)
    | some (part, q) =>
      match s.judge part q r false with
      | some (c, off) => (s.noteRefusal part q c off).putOnce64 k o.d (refusedWord c off)
      | none =>
        let (s1, lid, sig) := s.acceptLaunch (.agent k) part q va.toNat r
        let s2 : State := match k with | .ctl _ => s1 | k => s1.nonRecoverable (s1.blockOf k).lid .launch
        match sig with
        | some n => s2.writeSig k o va n lid
        | none => s2.putOnce64 k o.d (BitVec.ofNat 64 lid)

def execLaunch (o : R3) (s : State) : Out :=
  issueSerial (.launch o) (s.reading (.launch o)) (launchCheck o) fun s k => s.launchOne k o

/-- LQSTAT: a queue number out of range raises ILL_FIELD (R193, R416). -/
def execLqstat (o : R2) (s : State) : Out :=
  issue (.lqstat o) s
    (fun s k => if (s.queueNamed k (s.src32 k o.a).toNat).isNone then .trap (s.trapOf k (.lqstat o) 0x02) else .go)
    fun s ks => s.lanes (ks.map fun k => (k, match s.queueNamed k (s.src32 k o.a).toNat with
      | some (p, q) => [Wr.wide o.d (s.queueStatus (queueKey p q))]
      | none => []))

/-- A launch that has reached the head of its queue is PENDING (R145). -/
def State.settleHeads (s : State) : State :=
  (s.queues.filterMap fun x => s.headOf x.1).foldl (fun s l => s.updLaunch l fun y =>
    if y.state = .accepted then { y with state := .pending } else y) s

/-! ### Dependences (R147, R264) -/

/-- Whether a dependence is met: its context has reached the value, and by no ticket of a rollback-capable launch that has not
retired. -/
def State.depMet (s : State) (r : List Byte) (o : Nat) : Bool :=
  let x := s.ctx (Rec.depCore r o) (Rec.depCtx r o)
  !Rec.depValid r o || (decide (Rec.depValue r o ≤ x.value) && !(x.rb.any fun t => decide (t.1 ≤ Rec.depValue r o)))

/-- Whether the head of its queue can enter PLACING. -/
def State.canEnter (s : State) (lid : Nat) (l : Launch) : Bool :=
  decide (s.headOf (queueKey l.part l.queue) = some lid) && decide (l.state = .accepted ∨ l.state = .pending) &&
    [0x30, 0x40, 0x50, 0x60].all fun o => s.depMet l.record o

/-- LAUNCH_DEPENDENCE_MET: launch `item` enters PLACING. -/
def execLaunchDependenceMet (s : State) : Out :=
  match s.launch? s.args.item with
  | none => .refused (.notEnabled "LAUNCH_DEPENDENCE_MET")
  | some l =>
    if s.canEnter s.args.item l then .next (s.updLaunch s.args.item fun l => { l with state := .placing })
    else .refused (.notEnabled "LAUNCH_DEPENDENCE_MET")

/-! ### Retirement (R146, R157) -/

/-- Whether a fibre is one of a block. -/
def FKey.isOf (k : FKey) (b : Nat) : Bool := match k with | .fib x _ => decide (x = b) | _ => false

/-- A block's trolley operations, on whichever core they were issued (R309). -/
def State.trolleyOf (s : State) (b : Nat) : List TrolleyOp := s.cores.flatMap fun x => x.2.trolley.filter fun o => FKey.isOf o.fibre b

/-- Takes trolley operations out of every core. -/
def State.dropTrolley (s : State) (p : TrolleyOp → Bool) : State :=
  { s with cores := s.cores.map fun (c, x) => (c, { x with trolley := x.trolley.filter fun o => !p o }) }

/-- Whether an operation of a block has still to complete: its requests, trolley and access-processor work, matrix operations,
drains, carriage loads, bank commands, reductions (R157). -/
def State.blockBusy (s : State) (b : Nat) : Bool :=
  let c := (s.block b).core
  let mine := fun (k : FKey) => match k with | .fib x _ => decide (x = b) | _ => false
  let x := s.core c
  (s.reqs.any fun r => decide (r.gang.1 = b) && (match r.org with | .fibre (.fib _ _) | .fibre (.ap _) => true | _ => false)) ||
    !(s.trolleyOf b).isEmpty || (match x.apOwner with | some (y, _, _, _) => decide (y = b) | none => false) ||
    ([c, partnerOf c].any fun c => (s.core c).mxOps.any (fun o => mine o.fibre) || (s.core c).drains.any fun d => mine d.fibre) ||
    (s.carriages.any fun y => decide (y.2.state = .loading) && (y.2.load.map fun l => l.ticket.isSome && mine l.fibre).getD false) ||
    (s.banks.any fun y => (y.2.e0 ++ y.2.e1).any fun d => decide (d.block = b)) || (s.bankDone.any fun d => decide (d.block = b)) ||
    (s.stackTab.any fun y => y.2.rdx.any fun d => mine d.fibre) || x.tableLoads.any fun l => mine l.1

/-- Drops the bindings of a block's gangs and what the queues hold (R244). -/
def State.unbindQueues (s : State) (b : Nat) : State :=
  let c := (s.block b).core
  (List.range 8).foldl (fun s q => match (s.queue c q).bound with
    | some (x, _) => if x = b then (s.emptyQueue c q).updQueue c q fun y => { y with bound := none } else s
    | none => s) s

/-- Paused placements of a partition may go on (R149). -/
def State.unpause (s : State) (p : Nat) : State :=
  { s with launches := s.launches.map fun (n, l) => if l.part = p then (n, { l with paused := false }) else (n, l) }

/-- A launch as an agent: its retirement is a release (R146). -/
def launchParty (lid : Nat) : Party := .engine (.ctl lid) 3

/-- Whether an agent acts for a block. -/
def Party.actsFor (b : Nat) : Party → Bool
  | .agent (.fib x _) | .engine (.fib x _) _ => decide (x = b)
  | _ => false

/-- What any agent of a block knows happens before its launch's retirement (R146). -/
def State.launchLearns (s : State) (lid b : Nat) : State :=
  if !s.veil.on then s
  else { s with veil := s.veil.learn (launchParty lid) ((s.veil.hidden.filter fun h => h.known.any (Party.actsFor b)).map Hidden.id) }

/-- Retires a launch: its entry is freed and its SIG ticket completes (R145, R146). -/
def State.retireLaunch (s : State) (lid : Nat) (l : Launch) : State :=
  let n := queueKey l.part l.queue
  let s1 := s.updLqueue n fun q => { q with held := q.held.filter (· ≠ lid), lastRetired := some lid }
  let s2 := { s1 with
    launches := s1.launches.del lid
    cores := s1.cores.map fun (c, x) => (c, { x with ctx := x.ctx.map fun (t, y) => (t, { y with rb := y.rb.filter (·.2 ≠ lid) }) }) : State }
  match l.sig with
  | some (c, t, k) => s2.completeTicket (launchParty lid) .dev c t k
  | none => s2

/-- Retires a launch that has no block left to place or to run. -/
def State.launchCheckEnd (s : State) (lid : Nat) : State :=
  match s.launch? lid with
  | none => s
  | some l =>
    if (decide (l.state = .running) || l.error.isSome) && !(s.blocks.any fun b => b.2.lid = lid) then s.retireLaunch lid l else s

/-- Takes a block away with its fibres and gangs; its carriages have no holder any more (R327). -/
def State.removeBlock (s : State) (b : Nat) : State :=
  let s1 := s.unbindQueues b
  { s1 with
    blocks := s1.blocks.del b
    shadowUsed := s1.shadowUsed.upd (sectorOf (s.block b).core) 0 (· - (s.block b).image.bytes)
    fibres := s1.fibres.filter fun x => match x.1 with | .fib y _ => decide (y ≠ b) | _ => true
    gangs := s1.gangs.filter fun x => decide (x.1.1 ≠ b)
    pipes := s1.pipes.filter fun x => x.2.block ≠ b
    carriages := s1.carriages.map fun (n, c) => if c.holder = some b then (n, { c with holder := none }) else (n, c)
    missQ := (s1.missQ.map fun m => { m with waiters := m.waiters.filter fun p => match p with | .agent (.fib y _) => decide (y ≠ b) | _ => true }).filter fun m => m.waiters ≠ [] }

/-- Completes the tickets of operations that a block's image holds (R146). -/
def State.endImage (s : State) (b : Nat) : State :=
  let im := (s.block b).image
  let s1 := im.trolley.foldl (fun s o => s.completeTicket (opParty o.fibre o.id) (s.trolleyScope o) o.core (groupWord o.group 3 % 4) o.ticket) s
  match im.ap with
  | some (_, (_, g, l, n), _, c) => s1.completeTicket (.engine (.fib b (g * 32 + l)) (4 * n + 3)) .blk c 7 n
  | none => s1

/-- BLOCK_RETIRE: block `item` has no live fibre, or its launch has ended as a launch error, and everything its fibres issued
has completed. -/
def execBlockRetire (s : State) : Out :=
  let b := s.args.item
  match s.blocks.at? b with
  | none => .refused (.notEnabled "BLOCK_RETIRE")
  | some x =>
    let ended := ((s.launch? x.lid).map fun l => l.error.isSome).getD false
    if (!ended && decide (s.liveSlots b ≠ [])) || s.blockBusy b then .refused (.notEnabled "BLOCK_RETIRE")
    else
      .next ((((((s.releaseBlock b).endImage b).launchLearns x.lid b).removeBlock b).unpause x.part).launchCheckEnd x.lid)

end Sys2Proof.Machine
end

