-- ==== Sys2Proof/Machine/Place.lean ====
section
/-!
DEFINITION. Machine/Place.lean: placement of blocks (R149-R151, R156, R160, R422), the forming of coaches (R152-R154, R161),
and the expiries of windows, hints and timers (R158, R239, R262).
-/

namespace Sys2Proof.Machine

/-! ### Priorities and room -/

/-- Effective priority of a launch: the lower of its own and its queue's (R146). -/
def State.effPrio (s : State) (lid : Nat) : Nat :=
  match s.launch? lid with
  | some l => min (Rec.prio l.record) ((s.part l.part).qprio.atD l.queue 0)
  | none => 0

/-- Whether a block holds its place on its core. -/
def Block.resident (b : Block) : Bool := match b.stop with | .saved _ => false | _ => true

/-- Gangs of a block, and those of M role (R140, R150). -/
def Block.gangs (b : Block) : Nat := (b.maxf + 31) / 32
def Block.mGangs (b : Block) : Nat := ((List.range b.gangs).filter fun g => bits b.roles (2 * g + 1) (2 * g) = 2).length

/-- Resident blocks that count against a core, those of `gone` left out. -/
def State.residents (s : State) (c : Nat) (gone : List Nat) : List Block :=
  (s.blocks.filter fun x => x.2.resident && !(gone.contains x.1) && decide (x.2.core = c)).map (·.2)

/-- M-role gangs that can enter a core's owner queue (R150). -/
def State.mCount (s : State) (c : Nat) (gone : List Nat) : Nat :=
  ((s.residents c gone).map Block.mGangs).sum +
    (((s.residents (partnerOf c) gone).filter fun b => b.twin.isSome).map Block.mGangs).sum

/-- Whether a core has room for a block (R150). -/
def State.roomOn (s : State) (c : Nat) (b : Block) (twin : Bool) (gone : List Nat) : Bool :=
  let xs := s.residents c gone
  decide ((xs.map fun x => x.gangs * 32 * x.regs).sum + b.gangs * 32 * b.regs ≤ 65536 ∧ (xs.map fun x => x.gangs * 32).sum + b.gangs * 32 ≤ 2048 ∧
    (xs.map Block.scratch).sum + b.scratch ≤ 2097152 ∧ s.mCount c gone + b.mGangs * (if twin then 2 else 1) ≤ 9)

/-- Whether a core, or for a twin the cluster it leads, has room. -/
def State.roomAt (s : State) (c : Nat) (b : Block) (twin : Bool) (gone : List Nat) : Bool :=
  s.roomOn c b twin gone && (!twin || (decide (c % 2 = 0) && s.roomOn (c + 1) b twin gone))

/-- The lowest core with room in a list of sectors, sector by sector (R149). -/
def State.findRoom (s : State) (secs : List Nat) (b : Block) (twin : Bool) (gone : List Nat) : Option Nat :=
  (secs.flatMap fun x => (List.range 32).map (32 * x + ·)).find? fun c => s.roomAt c b twin gone

/-- A partition's sectors from the next of its round-robin on (R149). -/
def Partition.fromNext (p : Partition) : List Nat :=
  let l := p.sectors
  let n := if l.length = 0 then 0 else p.rr % l.length
  l.drop n ++ l.take n

/-- Units of a core's scratchpad storage in use (R150). -/
def State.unitsUsed (s : State) (c : Nat) : List Nat := (s.residents c []).flatMap Block.units

/-- The `n` lowest units not in use. -/
def pickUnits (used : List Nat) : Nat → Nat → Nat → List Nat
  | 0, _, _ => []
  | _ + 1, _, 0 => []
  | fuel + 1, i, n + 1 => if i ∈ used then pickUnits used fuel (i + 1) (n + 1) else i :: pickUnits used fuel (i + 1) n

/-- The units a block takes on a core: those the step names, if they are free, or the lowest free ones (R150). -/
def State.takeUnits (s : State) (c n : Nat) (named : List Nat) : Option (List Nat) :=
  let used := s.unitsUsed c
  if named = [] then some (pickUnits used 16384 0 n)
  else if decide (named.length = n) && decide named.Nodup && named.all fun u => decide (u < 16384) && !(used.contains u) then some named
  else none

/-! ### A block comes onto a core -/

/-- Carriages that stand on a core and belong to another tenant than `t` (R422). -/
def State.foreignCars (s : State) (c t : Nat) : List Nat :=
  ((s.onCore c).filter fun x => decide (x.2.tenant ≠ t)).map (·.1)

/-- A core's next block belongs to tenant `t`: after another tenant its scratchpad, tables and planes are zeroed, and that
tenant's carriages are freed (R211, R422). A block's registers are zero in any case (DEDUCED, log 56). -/
def State.enterTenant (s : State) (c t : Nat) : State :=
  if (s.core c).tenant = some t then s
  else
    let s1 := (s.foreignCars c t).foldl (fun s n => s.freeCarriage n) s
    let s2 : State := { s1 with
      scratch := s1.scratch.clear (c * 2 ^ 21) (2 ^ 21)
      poisonScratch := s1.poisonScratch.filter fun w => w / 2 ^ 18 ≠ c
      veil := (s1.forget fun scr a => scr && decide (a / 2 ^ 21 = c)).veil }
    s2.updCore c fun x => { x with tenant := some t, tables := [] }

/-- The fibres of a new block: live ones at ENTRY, helpers in the last quad (R156). -/
def newFibres (b n : Nat) (entry : W64) (now : Nat) : Map FKey Fibre :=
  ((List.range n).map fun i => (FKey.fib b i, ({ pc := entry, readySince := now } : Fibre))) ++
    ((List.range ((n + 3) / 4 * 4)).drop n).map fun i => (FKey.fib b i, newHelper entry)

/-- The gangs of a new block: s0 of gang 0 holds PARAM (R156). -/
def newGangs (b n param : Nat) : Map (Nat × Nat) Gang :=
  (List.range n).map fun g => ((b, g), ({ s := if g = 0 then [(0, { val := BitVec.ofNat 64 param })] else [] } : Gang))

/-- The shape of a launch's blocks. -/
def blockOfRecord (lid : Nat) (l : Launch) (s : State) : Block :=
  let r := l.record
  { lid := lid, core := 0, part := l.part, tenant := (s.part l.part).tenant, fibres := Rec.fibres r, maxf := Rec.maxf r
    regs := Rec.regs r, scratch := Rec.scratch r, roles := Rec.roles r }

/-- A fibre of a launch begins after what precedes the launch, and as after a TWTL of each of its dependences (R147, R192). -/
def State.startFibre (s : State) (lid : Nat) (l : Launch) (k : FKey) : State :=
  [0x30, 0x40, 0x50, 0x60].foldl (fun s o =>
    if Rec.depValid l.record o then s.noteTicket (.agent k) (Rec.depCore l.record o) (Rec.depCtx l.record o) (Rec.depValue l.record o) else s)
    (s.follows (launchStart lid) (.agent k))

/-- Creates block number `i` of a launch on a core (R138, R147, R156). -/
def State.createBlock (s : State) (lid : Nat) (l : Launch) (i c : Nat) (units : List Nat) (twin : Option Nat) : State :=
  let r := l.record
  let b := s.nextBlock
  let s1 := (s.enterTenant c (s.part l.part).tenant).l1Clear (clusterOf c)
  let x : Block := { blockOfRecord lid l s with
    core := c, x := i % Rec.gridx r, y := i / Rec.gridx r % Rec.gridy r, z := i / (Rec.gridx r * Rec.gridy r), units := units, twin := twin, order := b }
  let s2 := (List.range x.fibres).foldl (fun s n => s.startFibre lid l (.fib b n)) { s1 with blocks := s1.blocks.put b x }
  { s2 with
    nextBlock := b + 1
    fibres := s2.fibres ++ newFibres b x.fibres (BitVec.ofNat 64 (Rec.entry r)) (s1.cycles c)
    gangs := s2.gangs ++ newGangs b x.gangs (Rec.param r) }

/-! ### BLOCK_PLACE (R149, R160) -/

/-- Launches that stand at the head of their queue and are in PLACING or can enter it, in the order of acceptance. -/
def State.placeable (s : State) (p : Nat) : List (Nat × Launch) :=
  s.launches.filter fun x => decide (x.2.part = p) && x.2.error.isNone && decide (s.headOf (queueKey p x.2.queue) = some x.1) &&
    (decide (x.2.state = .placing) || s.canEnter x.1 x.2)

/-- The launch the dispatchers choose: highest effective priority, then oldest acceptance (R149). A launch chosen ahead of a paused one
stays chosen until it is wholly placed, also where it pauses in its turn (DESIGN CHOICE, log 94). -/
def State.chosen (s : State) (p : Nat) : Option (Nat × Launch) :=
  (s.placeable p).foldl (fun (m : Option (Nat × Launch)) x => match m with
    | none => some x
    | some y => if s.effPrio y.1 < s.effPrio x.1 then some x else some y) none

/-- Whether a fault that parked a fibre of a block, or that its continuation awaits, is not resolved (R256). -/
def State.unresolved (s : State) (b : Nat) : Bool :=
  (s.liveSlots b).any fun n => match (s.fib (.fib b n)).wait with | .parked _ _ => true | _ => false

/-- Whether a stopped block of the partition stands before a launch: any but one stopped for a rollback, and one switched out for
faults only once they are resolved (R160; DEDUCED, log 49). -/
def State.stoppedAhead (s : State) (p prio : Nat) : Bool :=
  s.blocks.any fun x => decide (x.2.part = p) && decide (prio ≤ s.effPrio x.2.lid) &&
    (match x.2.stop with
      | .stopped .rollback _ | .saved .rollback | .running | .requested _ _ => false
      | .stopped .faults _ | .saved .faults => !s.unresolved x.1
      | .stopped _ _ | .saved _ => true)

/-- Blocks that R160 may stop for a launch: lowest effective priority first, then the most recently placed. -/
def State.victims (s : State) (p prio : Nat) : List (Nat × Block) :=
  (s.blocks.filter fun x => decide (x.2.part = p ∧ x.2.stop = .running ∧ s.effPrio x.2.lid < prio)).insertionSort
    fun a b => s.effPrio a.2.lid < s.effPrio b.2.lid ∨ (s.effPrio a.2.lid = s.effPrio b.2.lid ∧ b.2.order ≤ a.2.order)

/-- The victims up to the first with which the block fits, none if it would not fit without all of them. -/
def State.enough (s : State) (secs : List Nat) (x : Block) (twin : Bool) : List Nat → List (Nat × Block) → Option (List Nat)
  | gone, [] => if (s.findRoom secs x twin gone).isSome then some [] else none
  | gone, (b, v) :: r =>
    if (s.findRoom secs x twin gone).isSome then some []
    else (s.enough secs x twin (b :: v.twin.toList ++ gone) r).map (b :: ·)

/-- PREEMPTION_REQUEST: a paused PREEMPT launch requests stops, where the partition allows them (R160, R420). -/
def State.preempt (s : State) (p lid : Nat) (l : Launch) : State :=
  let x := blockOfRecord lid l s
  let prio := s.effPrio lid
  let going := (s.blocks.filter fun y => decide (y.2.part = p ∧ s.effPrio y.2.lid < prio) &&
    (match y.2.stop with | .requested _ _ | .stopped _ _ => true | _ => false)).map (·.1)
  if !(Rec.preempt l.record && (s.part p).shadow && !(s.part p).pendShadow) then s
  else match s.enough (s.part p).sectors x (Rec.twin l.record) going (s.victims p prio) with
    | some bs => bs.foldl (fun s b => s.requestStop .preempt b) s
    | none => s

/-- Places the next block, or the next two of a twin, on core `c`; none where the named units do not serve. -/
def State.placeOn (s : State) (lid : Nat) (l : Launch) (c : Nat) (named : List Nat) : Option State :=
  let n := Rec.scratch l.record / 128
  let b := s.nextBlock
  let i := l.cursor
  if Rec.twin l.record then
    match s.takeUnits c n (named.take n), s.takeUnits (c + 1) n (named.drop n) with
    | some u, some v => some ((s.createBlock lid l i c u (some (b + 1))).createBlock lid l (i + 1) (c + 1) v (some b))
    | _, _ => none
  else (s.takeUnits c n named).map fun u => s.createBlock lid l i c u none

/-- What paused PREEMPT launches request, as often as what stands in the partition changes (R160). -/
def State.settlePreempt (s : State) : State :=
  (s.launches.filter fun x => x.2.paused && decide (x.2.state = .placing) && Rec.preempt x.2.record).foldl (fun s x => s.preempt x.2.part x.1 x.2) s

/-- BLOCK_PLACE: the dispatchers of partition `unit` place the next block of the chosen launch, or pause; `nats` names the
units of scratchpad storage it takes (DEDUCED, log 34). -/
def execBlockPlace (s : State) : Out :=
  let p := s.args.unit
  let no : Out := .refused (.notEnabled "BLOCK_PLACE")
  match s.chosen p with
  | none => no
  | some (lid, l) =>
    if l.state ≠ .placing || l.paused || s.stoppedAhead p (s.effPrio lid) then no
    else
      let twin := Rec.twin l.record
      match s.findRoom (s.part p).fromNext (blockOfRecord lid l s) twin [] with
      | none => .next ((s.updLaunch lid fun l => { l with paused := true }).preempt p lid l)
      | some c => match s.placeOn lid l c s.args.nats with
        | none => no
        | some s1 =>
          let at_ := l.cursor + if twin then 2 else 1
          let done := decide (Rec.blocks l.record ≤ at_)
          .next ((s1.updPart p fun x => { x with rr := if x.sectors.length = 0 then 0 else (x.rr + if twin then 2 else 1) % x.sectors.length }).updLaunch lid fun l =>
            { l with cursor := at_, state := if done then .running else .placing, placed := if done then s1.nextBlock else 0 })

/-! ### COACH_FORM (R152-R154, R161) -/

/-- Whether a block's fibres may be taken into coaches: it runs, and nothing of its restore is outstanding (R211, R258). -/
def State.blockRuns (s : State) (b : Nat) : Bool :=
  let x := s.block b
  (match x.stop with | .running | .requested _ _ => true | _ => false) &&
    !((s.core x.core).tables.any fun t => decide (t.2.bank0.restore = some b ∨ t.2.bank1.restore = some b))

/-- Whether a live fibre is ready (R152). -/
def State.fibReady (s : State) (b n : Nat) : Bool :=
  let f := s.fib (.fib b n)
  decide (f.status = .live ∧ f.wait = .ready) && s.awaitFull (.fib b n) && !(s.gang (b, n / 32)).held

/-- Whether a coach holds a fibre. -/
def State.inCoach (s : State) (b n : Nat) : Bool := s.pipes.any fun x => decide (x.2.block = b ∧ n ∈ x.2.members)

/-- Ready fibres of a core that no coach holds: blocks in the order of their placement, then by slot. -/
def State.readyOn (s : State) (c : Nat) : List (Nat × Nat) :=
  let bs := (s.blocks.filter fun x => decide (x.2.core = c)).insertionSort fun a b => a.2.order ≤ b.2.order
  bs.flatMap fun x => if s.blockRuns x.1 then
    ((s.liveSlots x.1).filter fun n => s.fibReady x.1 n && !s.inCoach x.1 n).map fun n => (x.1, n) else []

/-- Whether fibre `a` is chosen before fibre `b`, which stands before it in the order of ties (R161). -/
def State.before (s : State) (c : Nat) (a b : Nat × Nat) : Bool :=
  let now := s.cycles c
  let f := s.fib (.fib a.1 a.2)
  let g := s.fib (.fib b.1 b.2)
  let win := (s.die (dieOf c)).fairWin
  let fs := decide (f.readySince + win < now)
  let gs := decide (g.readySince + win < now)
  let pf := s.effPrio (s.block a.1).lid
  let pg := s.effPrio (s.block b.1).lid
  if fs != gs then fs
  else if fs && decide (f.readySince ≠ g.readySince) then decide (f.readySince < g.readySince)
  else if pf ≠ pg then decide (pg < pf)
  else decide (f.lastEnd < g.lastEnd)

/-- The head fibre of a new coach (R161). -/
def State.headFibre (s : State) (c : Nat) : Option (Nat × Nat) :=
  (s.readyOn c).foldl (fun (m : Option (Nat × Nat)) x => match m with
    | none => some x
    | some y => if s.before c x y then some x else some y) none

/-- The quad-group of a quad at a PC: its ready live fibres there (R153). -/
def State.quadGroup (s : State) (b q : Nat) (pc : W64) : List Nat :=
  ((List.range 4).map (4 * q + ·)).filter fun n => s.fibReady b n && !s.inCoach b n && decide ((s.fib (.fib b n)).pc = pc)

/-- Helpers that belong to a quad-group: all of the quad's, if its lowest live fibre is in it (R154). -/
def State.groupHelpers (s : State) (b q : Nat) (ms : List Nat) : List Nat :=
  match s.quadLeader b (4 * q) with
  | some m => if m ∈ ms then ((List.range 4).map (4 * q + ·)).filter fun n => s.isHelper (.fib b n) else []
  | none => []

/-- The members of the coach that a head fibre forms (R153, R154). -/
def State.coachMembers (s : State) (b n : Nat) : List Nat :=
  let x := s.block b
  let nq := x.gangs * 8
  let k := FKey.fib b n
  let pc := (s.fib k).pc
  let quads := ((List.range nq).map fun i => (n / 4 + i) % nq).filter fun q =>
    decide (s.roleOf (.fib b (4 * q)) = s.roleOf k) && decide (s.quadGroup b q pc ≠ [])
  let ms := (quads.take 8).flatMap fun q => let g := s.quadGroup b q pc; g ++ s.groupHelpers b q g
  x.slotNos.filter fun m => m ∈ ms

/-- COACH_FORM: pipe `sub` of core `unit`, which has finished its run, takes a new coach. -/
def execCoachForm (s : State) : Out :=
  let c := s.args.unit
  let p := s.args.sub
  if 384 ≤ c ∨ 4 ≤ p ∨ (s.pipes.at? (pipeKey c p)).isSome then .refused (.notEnabled "COACH_FORM")
  else match s.headFibre c with
    | none => .refused (.notEnabled "COACH_FORM")
    | some (b, n) =>
      let ms := s.coachMembers b n
      let pc := (s.fib (.fib b n)).pc
      let s1 := ms.foldl (fun s m => s.updFib (.fib b m) fun f => { f with await := [], k := [], pc := if f.status = .helper then pc else f.pc }) s
      .next { s1 with pipes := s1.pipes.put (pipeKey c p) { block := b, members := ms, since := s.clock } }

/-! ### Expiries -/

/-- RECONV_WINDOW_EXPIRY: the open group at PC `word` of gang `sub` of block `unit` departs once RCVWIN cycles have passed
(R158). -/
def execReconvWindowExpiry (s : State) : Out :=
  let g := (s.args.unit, s.args.sub)
  match (s.reconvGroup g s.args.word).head?.bind fun k => (s.fib k).atReconv with
  | none => .refused (.notEnabled "RECONV_WINDOW_EXPIRY")
  | some opened =>
    if opened + (s.gang g).sr.rcvwin ≤ s.cycles (s.block g.1).core then .next (s.reconvCheck g s.args.word)
    else .refused (.notEnabled "RECONV_WINDOW_EXPIRY")

/-- TRY_WAIT_HINT_EXPIRY: a try-wait's hint has passed without success; the predicate is cleared, nothing is acquired
(R239). -/
def execTryWaitHintExpiry (s : State) : Out :=
  let k := s.args.fibre
  let w := (s.fib k).wait
  match w.twPred, w.twLimit with
  | some p, some t =>
    if t ≤ s.cycles (s.coreOf k) then .next ((s.updFib k fun f => { f with p := setPredBit f.p p false }).resume k)
    else .refused (.notEnabled "TRY_WAIT_HINT_EXPIRY")
  | _, _ => .refused (.notEnabled "TRY_WAIT_HINT_EXPIRY")

/-- Raises what fibres that stand between two runs have held for their run boundary: a TIMER, a DEBUG_STOP (R253). -/
def State.settleHeld (s : State) : State :=
  (s.fibres.filter fun x => x.2.heldTimer || x.2.heldDebug).foldl (fun s x => match x.1 with
    | .fib b n => if s.inCoach b n then s else s.boundaryTraps x.1
    | _ => s) s

/-- TIMER_EXPIRY: RUNCYC of gang `sub` of block `unit` has reached TMRCMP; the gang's lowest live fibre raises TIMER at its
next run boundary (R253, R262). -/
def execTimerExpiry (s : State) : Out :=
  let g := (s.args.unit, s.args.sub)
  let x := (s.gang g).sr
  if (s.gangs.at? g).isNone ∨ x.tmrcmp = 0 ∨ x.runcyc < x.tmrcmp.toNat then .refused (.notEnabled "TIMER_EXPIRY")
  else
    let s1 := s.updGang g fun y => { y with sr := { y.sr with tmrcmp := 0 } }
    .next (match (s.liveInGang g).head? with
      | some n => (s1.updFib (.fib g.1 n) fun f => { f with heldTimer := true }).settleHeld
      | none => s1)

/-- Returns a slice counter in register `reg` of `fibre`, or to its reader outside where none is named, and clears it
(R91, R287). -/
def readCounter (name : String) (s : State) (spill : Bool) : Out :=
  let n := s.args.unit
  if 192 ≤ n then .refused (.notEnabled name)
  else .next ((s.wr s.args.fibre (.reg s.args.reg ((s.counter (n, spill)).setWidth 32))).clearCounter (n, spill))

def execSqpeakRead (s : State) : Out := readCounter "SQPEAK_READ" s false
def execSqspillRead (s : State) : Out := readCounter "SQSPILL_READ" s true

end Sys2Proof.Machine
end

