-- ==== Sys2Proof/Machine/Service.lean ====
section
/-!
DEFINITION. Machine/Service.lean: fault service (R255-R257, R308), the stop at the deadline and the native switch-out
(R256, R258), page walks and invalidations (R276), the loads of activation tables (R210, R211), and the debugger (R263).
-/

namespace Sys2Proof.Machine

/-! ### Fault service -/

/-- The translation fault a fibre or access processor is parked on. -/
def Fibre.parkedOn (f : Fibre) : Option PageFault := match f.wait with | .parked p _ => some p | _ => none

/-- Whether a fault is the one of a page and cause. -/
def PageFault.is (f : PageFault) (page cause : Nat) : Bool := decide (f.page = page ∧ f.trap.cause = cause)

/-- Whether an agent belongs to a partition. -/
def State.inPart (s : State) (p : Nat) (k : FKey) : Bool := match k with | .ctl _ => false | k => decide (s.partOf k = p)

/-- Writes the service field of TINFO (R257). -/
def setService (v : Nat) (x : W64) : W64 := (x &&& 0x3FFFFFFFFFFFFFFF) ||| BitVec.ofNat 64 (v * 2 ^ 62)

/-- A fibre's translation fault is serviced: it replays its instruction if it is parked or waits at its ERET, and the service
field of one in its continuation is written (R256, R257). -/
def State.mapFibre (s : State) (k : FKey) (page cause : Nat) : State :=
  let now := s.cycles (s.coreOf k)
  s.updFib k fun f =>
    let f1 : Fibre := match f.parkedOn with
      | some p => if p.is page cause then { f with wait := .ready, readySince := now } else f
      | none => f
    match f1.continuing with
    | some p =>
      if !p.is page cause then f1
      else if f1.wait = .eret then
        { f1 with tinfo := setService 1 f1.tinfo, wait := .ready, pc := f1.tpc, continuing := none, readySince := now }
      else if bits f1.tinfo.toNat 63 62 = 0 then { f1 with tinfo := setService 1 f1.tinfo } else f1
    | none => f1

/-- A fibre's translation fault is rejected: it enters the trap queue if it is parked or waits at its ERET, and the service
field of one in its continuation is written; an access processor stops (R256, R257, R311). The trap that is delivered later has
TINFO[63:62] as it was raised, 00 (DESIGN CHOICE, log 51). -/
def State.rejectFibre (s : State) (k : FKey) (page cause : Nat) : State :=
  let f := s.fib k
  let parked := (f.parkedOn.map fun p => p.is page cause).getD false
  let cont := (f.continuing.map fun p => p.is page cause).getD false
  if parked then
    match f.parkedOn with
    | some p => (s.updFib k fun f => { f with wait := .ready }).raise k p.trap
    | none => s
  else if cont && decide (f.wait = .eret) then
    match f.continuing with
    | some p => (s.updFib k fun f => { f with wait := .ready, tinfo := setService 2 f.tinfo, continuing := none }).raise k p.trap
    | none => s
  else if cont && decide (bits f.tinfo.toNat 63 62 = 0) then s.updFib k fun f => { f with tinfo := setService 2 f.tinfo }
  else s

/-- Agents with a fault on a page. -/
def State.faulted (s : State) (p page cause : Nat) : List FKey :=
  (s.fibres.filter fun x => s.inPart p x.1 && (((x.2.parkedOn.map fun f => f.is page cause).getD false) || ((x.2.continuing.map fun f => f.is page cause).getD false))).map (·.1)

/-- Whether an engine's operation waits on a page. -/
def engFaulted (f : Option PageFault) (page cause : Nat) : Bool := (f.map fun f => f.is page cause).getD false

/-- Clears the faults on which engines wait (R308): they go on from where they stood. -/
def State.mapEngines (s : State) (p page cause : Nat) : State :=
  let clear := fun (part : Nat) (f : Option PageFault) => if part = p ∧ engFaulted f page cause then none else f
  let bank := fun (b : TabBank) => { b with fault := clear b.part b.fault }
  { s with
    cores := s.cores.map fun (c, x) => (c, { x with
      trolley := x.trolley.map fun o => { o with fault := clear (s.partOf o.fibre) o.fault }
      tables := x.tables.map fun (t, y) => (t, { y with bank0 := bank y.bank0, bank1 := bank y.bank1 }) })
    carriages := s.carriages.map fun (n, c) => (n, { c with loadFault := clear ((c.load.map CrLoad.part).getD 0) c.loadFault })
    stackTab := s.stackTab.map fun (n, x) => (n, { x with rdx := x.rdx.map fun r => { r with fault := clear r.part r.fault } }) }

/-- Walkers of every die take pages that wait for one (R276). -/
def State.walkAll (s : State) : State := (List.range 4).foldl (fun s d => State.startWalks d 16 s) s

/-- What waits for a page waits for another walk of it (R276). -/
def State.rewalk (s : State) (p page : Nat) : State :=
  ({ s with missQ := s.missQ.map fun m => if m.part = p ∧ m.page = page then { m with result := none, filled := false } else m } : State).walkAll

/-- Takes a report away, and the walks of its page that ended without a valid PTE. -/
def State.dropReport (s : State) (p page cause : Nat) : State :=
  ({ s with faultReports := s.faultReports.filter fun r => !(decide (r.part = p ∧ r.page = page ∧ r.cause = cause)) } : State).rewalk p page

/-- FAULT_SERVICE_MAP (R256): the fault service of partition `unit` has mapped or permitted page `item`, reported with cause
`sub`. -/
def execFaultServiceMap (s : State) : Out :=
  let (p, page, cause) := (s.args.unit, s.args.item, s.args.sub)
  if s.faultReports.any fun r => decide (r.part = p ∧ r.page = page ∧ r.cause = cause) then
    let s1 := (s.faulted p page cause).foldl (fun s k => s.mapFibre k page cause) s
    .next ((s1.mapEngines p page cause).dropReport p page cause)
  else .refused (.notEnabled "FAULT_SERVICE_MAP")

/-- Reason a trap's TINFO holds (R221, R254). -/
def Trap.reason (t : Trap) : Nat := bits t.info.toNat 39 32

/-- The load of an activation table fails: at the reload for a restored block the bank is ZERO and that block's launch ends (R211);
at any other the bank is POISONED (DEDUCED, log 50). -/
def State.failTable (s : State) (c t : Nat) (active : Bool) (b : TabBank) (cause : Nat) : State :=
  let set := fun (x : ActTable) (y : TabBank) => if active then x.setActive y else x.setInactive y
  match b.restore with
  | some n => (s.updTable c t fun x => set x {}).launchError (s.block n).lid cause
  | none => s.updTable c t fun x => set x { b with state := .poisoned, fault := none }

/-- Aborts the operations of engines that wait on a rejected page (R211, R308, R362, R384). -/
def State.rejectEngines (s : State) (p page cause : Nat) : State :=
  let s1 := s.cores.foldl (fun s x => x.2.trolley.foldl (fun s o =>
    match o.fault with
    | some f => if s.partOf o.fibre = p ∧ f.is page cause then s.trolleyAbort o cause f.trap.reason f.trap.addr else s
    | none => s) s) s
  let s2 := s1.carriages.foldl (fun s x => match x.2.load, x.2.loadFault with
    | some l, some f => if l.part = p ∧ f.is page cause then s.abortLoad x.1 x.2 l cause f.trap.reason f.trap.addr else s
    | _, _ => s) s1
  let s3 := s2.stackTab.foldl (fun s x => x.2.rdx.foldl (fun s r =>
    match r.fault with
    | some f => if r.part = p ∧ f.is page cause then s.rdxAbort x.1 r cause f.trap.reason f.trap.addr else s
    | none => s) s) s2
  s3.cores.foldl (fun s x => x.2.tables.foldl (fun s t => [(true, t.2.activeBank), (false, t.2.inactiveBank)].foldl (fun s b =>
    if b.2.part = p ∧ engFaulted b.2.fault page cause then s.failTable x.1 t.1 b.1 b.2 cause else s) s) s) s3

/-- FAULT_SERVICE_REJECT (R256): the fault service of partition `unit` rejects the fault of page `item` with cause `sub`. -/
def execFaultServiceReject (s : State) : Out :=
  let (p, page, cause) := (s.args.unit, s.args.item, s.args.sub)
  if s.faultReports.any fun r => decide (r.part = p ∧ r.page = page ∧ r.cause = cause) then
    let s1 := (s.faulted p page cause).foldl (fun s k => s.rejectFibre k page cause) s
    .next ((s1.rejectEngines p page cause).dropReport p page cause)
  else .refused (.notEnabled "FAULT_SERVICE_REJECT")

/-- PARK_TIMEOUT (R256): `fibre` has been parked for more than 1 ms and is rejected. -/
def execParkTimeout (s : State) : Out :=
  let k := s.args.fibre
  match k, (s.fib k).wait with
  | .fib _ _, .parked f t =>
    if t + 1000000 < s.clock then .next (s.rejectFibre k f.page f.trap.cause) else .refused (.notEnabled "PARK_TIMEOUT")
  | _, _ => .refused (.notEnabled "PARK_TIMEOUT")

/-! ### The deadline (R9, R258) -/

/-- A block stops at the deadline: coaches that have not begun their run leave their pipes, the others finish it; the block's
carts leave. -/
def State.stopDeadline (s : State) (why : StopWhy) (b : Nat) : State :=
  let s1 := (s.dropCoaches b fun c => decide (c.run ≠ 0) || decide (c.served ≠ [])).flushBlock b
  s1.updBlock b fun x => { x with stop := .stopped why true }

/-- Whether a block is running or asked to stop. -/
def Block.active (b : Block) : Bool := match b.stop with | .running | .requested _ _ => true | _ => false

/-! ### Native switch-out (R256) -/

/-- Parked and resident live fibres of a partition. -/
def State.parkedCount (s : State) (p : Nat) : Nat × Nat :=
  let live := s.fibres.filter fun x => match x.1 with
    | .fib b _ => decide (x.2.status = .live) && s.inPart p x.1 && (s.block b).active
    | _ => false
  ((live.filter fun x => x.2.parkedOn.isSome).length, live.length)

/-- Whether the parked fibres of a partition exceed PARKTHR / 64 of its resident ones. -/
def State.overThreshold (s : State) (p : Nat) : Bool :=
  let (a, n) := s.parkedCount p
  (s.part p).shadow && !(s.part p).pendShadow && decide ((s.part p).parkthr * n < 64 * a)

/-- Notes since when each partition has been over its threshold. -/
def State.noteOver (s : State) : State :=
  { s with partitions := s.partitions.map fun (p, x) =>
      (p, { x with overSince := if s.overThreshold p then some (x.overSince.getD s.clock) else none }) }

/-- NATIVE_SWITCH_OUT: every block of partition `unit` is stopped at once, with the stop of the deadline. -/
def execNativeSwitchOut (s : State) : Out :=
  let p := s.args.unit
  match (s.part p).overSince with
  | some t =>
    if s.overThreshold p && decide (t + 2000 < s.clock) then
      .next (((s.blocks.filter fun b => decide (b.2.part = p) && b.2.active).map (·.1)).foldl (fun s b => s.stopDeadline .faults b)
        (s.updPart p fun x => { x with switching := true }))
    else .refused (.notEnabled "NATIVE_SWITCH_OUT")
  | none => .refused (.notEnabled "NATIVE_SWITCH_OUT")

/-! ### Walks (R274, R276) -/

/-- A walk's reads go to the home slices: those that HSEC 3 selects, as no page names the entries (R276; DESIGN CHOICE, log 93). -/
def State.walkVisits (s : State) (part va : Nat) : State :=
  ((s.walkEntries part va).filter inDram).foldl (fun s a => s.visitLine 0 (homeSlice a 3) (a / 128)) s

/-- The core through whose TLBs an agent's accesses go. -/
def State.coreOfParty (s : State) : Party → Nat
  | .agent k | .engine k _ => s.coreOf k
  | .reducer n => ((s.stack n).rdx.head?.map Reduction.core).getD 0
  | _ => 0

/-- TLB_WALK_COMPLETE: the walk of sector `unit` that stands `item`-th among those in progress completes; a valid entry is cached
for what waits, which repeats its accesses in their order, and anything else is PAGE_NP with reason 0 for it. The walker takes
another page. A walk waits for the zeroing of what it reads, and for room at the homes (R286, R421). -/
def execTlbWalkComplete (s : State) : Out :=
  match (s.missQ.filter fun m => decide (m.sector = s.args.unit) && m.walking)[s.args.item]? with
  | none => .refused (.notEnabled "TLB_WALK_COMPLETE")
  | some m =>
    let va := m.page * 65536
    if s.walkBarred m.part va || s.visitBarred (((s.walkEntries m.part va).filter inDram).map fun a => (homeSlice a 3, a / 128)) then
      .refused (.notEnabled "TLB_WALK_COMPLETE")
    else
    let s0 := s.walkVisits m.part va
    let put := fun (s : State) (y : Miss) => { s with missQ := s.missQ.map fun x => if x = m then y else x : State }
    let done : State := match s.walk m.part va with
      | some (size, pte) =>
        let e : Tlb := { part := m.part, base := va / 2 ^ size * 2 ^ size, size := size, pte := pte }
        put (m.waiters.foldl (fun s p => s.tlbFill (s.coreOfParty p) e) s0) { m with walking := false, filled := true }
      | none => put s0 { m with walking := false, result := some 0 }
    .next (State.startWalks (s.args.unit / 3) 16 done)

/-- TLB_INVALIDATION: control software's invalidation of page `item` of partition `unit` completes. -/
def execTlbInvalidation (s : State) : Out :=
  let va := s.args.item * 65536
  let keep := fun (e : Tlb) => !(decide (e.part = s.args.unit ∧ va / 2 ^ e.size = e.base / 2 ^ e.size))
  if 12 ≤ s.args.unit then .refused (.notEnabled "TLB_INVALIDATION")
  else .next (({ s with
    tlb1 := s.tlb1.map fun (n, l) => (n, l.filter keep)
    tlb2 := s.tlb2.map fun (n, l) => (n, l.filter keep) } : State).rewalk s.args.unit s.args.item)

/-! ### Activation tables (R210, R211) -/

/-- What the end of a load makes of its bank, whose header an ACTLD has read before and a restore reads now: READY, POISONED on an
uncorrectable error or a refused read (R208, R211). -/
def State.tableLoad (s : State) (c t : Nat) (active : Bool) (b : TabBank) : Out :=
  let set := fun (x : ActTable) (y : TabBank) => if active then x.setActive y else x.setInactive y
  let e : EngBy := { core := c, part := b.part, lid := 0, p := tableParty c t }
  let n := if b.header.isSome then 64 else 0
  match s.engRead e (BitVec.ofNat 64 (b.addr + n)) (4160 - n) { data := s.args.bytes, code := s.args.opt.getD 0 } with
  | .ok rest =>
    let bs := (b.header.elim [] (·.1)) ++ rest
    let s := (s.engVisit e ((List.range 33).map fun i => (b.addr + 128 * i, min 128 (4160 - 128 * i)))).leaveMissOf e.p
    if b.restore.isSome && !headerOk bs then .next (s.failTable c t active b 0x02)
    else if b.header.any (·.2) then .next (s.failTable c t active b 0x30)
    else .next (s.updTable c t fun x => set x { b with state := .ready, bytes := bs, restore := none })
  | .error (.fault cause r va) =>
    .next (((s.leaveMissOf e.p).report b.part (va.toNat / 65536) cause (.ap c)).updTable c t fun x => set x { b with fault := some (engFault 0 cause r va) })
  | .error (.abort cause _ _) => .next ((s.failTable c t active b cause).leaveMissOf e.p)
  | .error x => s.engWaits e "ACT_TABLE_LOAD_DONE" x

/-- ACT_TABLE_LOAD_DONE: table `sub` of core `unit`: the load of its inactive bank, or the reload of its active bank for a
restored block, has read every segment; `bytes` are what another device supplies, `opt` a code with which it refuses. -/
def execActTableLoadDone (s : State) : Out :=
  let (c, t) := (s.args.unit, s.args.sub)
  let x := s.table c t
  if x.activeBank.state = .loading ∧ x.activeBank.fault.isNone then s.tableLoad c t true x.activeBank
  else if x.inactiveBank.state = .loading ∧ x.inactiveBank.fault.isNone then s.tableLoad c t false x.inactiveBank
  else .refused (.notEnabled "ACT_TABLE_LOAD_DONE")

/-! ### The debugger (R263) -/

/-- DEBUG_STOP: raised in every live fibre of gang `sub` of block `unit`; with `opt` 1 the control complex takes the gang's
debug attachment. -/
def execDebugStop (s : State) : Out :=
  let g := (s.args.unit, s.args.sub)
  if (s.gangs.at? g).isNone then .refused (.notEnabled "DEBUG_STOP")
  else
    let s1 := s.updGang g fun x => { x with debug := x.debug || decide (s.args.opt = some 1) }
    let s2 := (s1.liveInGang g).foldl (fun s n => s.updFib (.fib g.1 n) fun f => { f with heldDebug := true }) s1
    .next s2.settleHeld

/-- Takes a register out of the destination of a fill in flight. -/
def Dst.cancel (d : Dst) (b g : Nat) (r : Reg) (phys : Nat) : Dst :=
  match d, r with
  | .regs rs, .v _ => .regs (rs.map fun n => if n = phys then 100000 else n)
  | .sreg x y n, .s m => if x = b ∧ y = g ∧ n = m.val then .none else d
  | d, _ => d

/-- A pop that a fibre waits to perform does not fill the register any more. -/
def State.cancelPop (s : State) (k : FKey) (r : Reg) : State :=
  match (s.fib k).pop with
  | some (x, _) => if x = r then s.updFib k fun f => { f with pop := some (r, false) } else s
  | none => s

/-- DEBUG_REGISTER_WRITE: `word` into register `reg` of `fibre`; a fill in flight to it is cancelled, and the register is
full. -/
def execDebugRegisterWrite (s : State) : Out :=
  let k := s.args.fibre
  let r := s.args.reg
  match k, r with
  | .fib b n, .v m =>
    if (s.fibres.at? k).isNone then .refused (.notEnabled "DEBUG_REGISTER_WRITE")
    else
      let s := s.cancelPop k r
      let phys := (s.fib k).wb.toNat + m.val
      let s1 := { s with reqs := s.reqs.map fun q => if q.org = .fibre k then { q with dst := q.dst.cancel b (n / 32) r phys } else q : State }
      .next (s1.setV k m.val (s.args.word.setWidth 32))
  | .fib b n, .s m =>
    if (s.fibres.at? k).isNone then .refused (.notEnabled "DEBUG_REGISTER_WRITE")
    else
      let s := (List.range 32).foldl (fun s l => s.cancelPop (.fib b (n / 32 * 32 + l)) r) s
      let s1 := { s with reqs := s.reqs.map fun q => { q with dst := q.dst.cancel b (n / 32) r 0 } : State }
      .next (s1.updGang (b, n / 32) fun g => { g with s := g.s.put m.val { val := s.args.word } })
  | _, _ => .refused (.notEnabled "DEBUG_REGISTER_WRITE")

/-- DEBUG_RELEASE: gang `sub` of block `unit` resumes; with `opt` 1 the attachment stays (DEDUCED, log 54). -/
def execDebugRelease (s : State) : Out :=
  let g := (s.args.unit, s.args.sub)
  if !(s.gang g).debug && !((s.liveInGang g).any fun n => decide ((s.fib (.fib g.1 n)).wait = .debug)) then .refused (.notEnabled "DEBUG_RELEASE")
  else
    let now := s.cycles (s.block g.1).core
    let s1 := s.updGang g fun x => { x with debug := x.debug && decide (s.args.opt = some 1) }
    .next ((s1.liveInGang g).foldl (fun s n => s.updFib (.fib g.1 n) fun f =>
      { f with heldDebug := false, wait := if f.wait = .debug then .ready else f.wait, readySince := if f.wait = .debug then now else f.readySince }) s1)

end Sys2Proof.Machine
end

