-- ==== Sys2Proof/Machine/Stops.lean ====
section
/-!
DEFINITION. Machine/Stops.lean: the save of a stopped block and its restore (R9, R211, R248, R258-R261, R309, R314, R327,
R328, R331), context switches (R258) and rollback (R264).
-/

namespace Sys2Proof.Machine

/-! ### STOP_DEADLINE (R258) -/

/-- Whether a block's stop was requested at least PREDEADLINE ns ago. -/
def State.deadlinePassed (s : State) (b : Nat) : Option StopWhy :=
  match (s.block b).stop with
  | .requested why t => if t + (s.part (s.block b).part).predeadline ≤ s.clock then some why else none
  | _ => none

/-- STOP_DEADLINE: block `item`, and the other half of its twin with it (R9). -/
def execStopDeadline (s : State) : Out :=
  let b := s.args.item
  match s.deadlinePassed b with
  | none => .refused (.notEnabled "STOP_DEADLINE")
  | some why =>
    let s1 := s.stopDeadline why b
    .next (match (s.block b).twin with
      | some t => (match s.deadlinePassed t with | some w => s1.stopDeadline w t | none => s1)
      | none => s1)

/-! ### What a stop waits for (R9, R211, R248, R309, R314) -/

/-- Whether a request acts for a block. -/
def Req.ofBlock (r : Req) (b : Nat) : Bool :=
  decide (r.gang.1 = b) && (match r.org with | .fibre (.fib _ _) | .fibre (.ap _) => true | _ => false)

/-- Whether a request of a stopping block is settled: a load, which is issued again; an atomic, a lease request or a result of the
special-function unit that has its value (R248). -/
def Req.settled (r : Req) : Bool :=
  match r.dst, r.what, r.stage with
  | .queue _ _ _ _, _, _ => false
  | _, .load _, _ | _, .lds _, _ | _, .ldc, _ | _, .line, _ | _, .sfu _, _ => true
  | _, .atom _ _ _ _, .served _ _ | _, .wlease _ _, .served _ _ => true
  | _, _, _ => false

/-- Whether a trolley operation is recorded for re-issue: it has written nothing (R309). -/
def TrolleyOp.recordable (o : TrolleyOp) : Bool := !o.aborted && decide (o.done = [])

/-- Whether the coaches of a block have left their pipes. -/
def State.noCoach (s : State) (b : Nat) : Bool := !(s.pipes.any fun p => p.2.block = b)

/-- Whether what a block's fibres have handed to engines is done as far as a stop needs it. -/
def State.enginesQuiet (s : State) (b : Nat) : Bool :=
  let c := (s.block b).core
  !(s.reqs.any fun r => r.ofBlock b && !r.settled) &&
    (s.trolleyOf b).all TrolleyOp.recordable &&
    !([c, partnerOf c].any fun c => (s.core c).mxOps.any (fun o => FKey.isOf o.fibre b) || (s.core c).drains.any fun d => FKey.isOf d.fibre b) &&
    !((s.core c).tables.any fun t => decide (t.2.bank0.state = .loading ∨ t.2.bank1.state = .loading)) &&
    !(s.banks.any fun y => (y.2.e0 ++ y.2.e1).any fun d => decide (d.block = b)) && !(s.bankDone.any fun d => decide (d.block = b)) &&
    !(s.stackTab.any fun y => y.2.rdx.any fun d => FKey.isOf d.fibre b) &&
    !(s.carriages.any fun y => decide (y.2.holder = some b) && (decide (y.2.state = .loading) || s.carBusy y.1 y.2)) &&
    !(s.carriages.any fun y => decide (y.2.state = .loading) && ((y.2.load.map fun l => FKey.isOf l.fibre b).getD false))

/-- Whether a block has stopped for a save. -/
def Block.halted (b : Block) : Bool :=
  match b.stop with
  | .stopped .rollback _ => false
  | .stopped _ _ | .saved _ => true
  | _ => false

/-! ### The image (R258-R261) -/

/-- The liveness entry at which a fibre waits. -/
def Fibre.entry (f : Fibre) : Option (List Byte) := match f.wait with | .pre e => some e | _ => none

/-- Registers of a fibre as they are after the restore: those `keep` names, and for the others free values (R258). -/
def Fibre.keepRegs (f : Fibre) (keep : Nat → Bool) (regs seed : Nat) : Fibre :=
  { f with regs := (List.range regs).map fun n => if keep n then (n, f.cell n) else (n, { val := Config.unsavedReg (seed + n) }) }

/-- The wait state with which a fibre comes back: rendezvous and waits are executed again, a PRE is behind it (R9, R248,
R258; DEDUCED, log 42). -/
def Fibre.saved (f : Fibre) : Fibre :=
  match f.wait with
  | .bar _ | .coll _ | .reconv _ | .twph _ _ _ _ _ | .twtl _ _ _ _ _ _ | .twge _ _ _ _ _ | .mxacq _ => { f with wait := .ready, k := [] }
  | .pre _ => { f with wait := .ready, pc := f.pc + 4 }
  | _ => f

/-- A fibre of a block that stopped at its stop point: what its record names, a discarded fibre as it stands; a helper goes
with the record of the live fibre it mirrors. -/
def State.saveAtPoint (s : State) (b n : Nat) (f : Fibre) : Fibre :=
  let seed := s.nextReq + 256 * n
  let regs := (s.block b).regs
  match f.status with
  | .live => match f.entry with
    | some e => f.keepRegs (fun r => decide (r ∈ livenessRegs e)) regs seed
    | none => f
  | .helper => match (s.quadLeader b n).bind fun m => (s.fib (.fib b m)).entry with
    | some e => f.keepRegs (fun r => decide (r ∈ livenessRegs e)) regs seed
    | none => f.keepRegs (fun _ => false) regs seed
  | .free => f

/-- Ranges of the allocation that a stop point saves; none stands for all of it. -/
def State.spansOf (s : State) (b : Nat) (deadline : Bool) : Option (List (Nat × Nat)) :=
  if deadline then none
  else some ((s.liveSlots b).flatMap fun n => ((s.fib (.fib b n)).entry.map livenessSpans).getD [])

/-- Offset in a block's allocation of a byte of scratchpad storage. -/
def Block.offsetOf (b : Block) (key : Nat) : Option Nat :=
  if key / 2 ^ 21 ≠ b.core then none
  else (b.units.zipIdx.find? fun u => u.1 = key % 2 ^ 21 / 128).map fun u => u.2 * 128 + key % 128

/-- Whether an offset is saved. -/
def inSpans (sp : Option (List (Nat × Nat))) (o : Nat) : Bool := match sp with | none => true | some l => l.any fun x => decide (x.1 ≤ o ∧ o < x.1 + x.2)

/-- The saved bytes of a block's scratchpad, and its poisoned words. -/
def State.saveScratch (s : State) (b : Nat) (sp : Option (List (Nat × Nat))) : Memory × List Nat :=
  let x := s.block b
  (s.scratch.foldl (fun m c => match x.offsetOf c.1 with
      | some o => if inSpans sp o then m.write o c.2 else m
      | none => m) [],
    s.poisonScratch.filterMap fun w => (x.offsetOf (8 * w)).bind fun o => if inSpans sp o then some (o / 8) else none)

/-- Gangs of a block that own or await the matrix engine, in the order of the owner queue; one that has not owned it again since
an earlier stop counts as its owner (R331). -/
def State.mxOf (s : State) (b : Nat) : List (Nat × Bool × Bool) :=
  let x := s.core (s.block b).core
  let own := match x.owner with | some g => if g.1 = b then [(g.2, true, x.ownerPaired)] else [] | none => []
  own ++ (x.mxq.filter fun q => q.1.1 = b).map fun q => (q.1.2, (s.gang q.1).held, q.2)

/-- The access processor as it is saved (R314). -/
def State.apOf (s : State) (b : Nat) : Option (Fibre × (Nat × Nat × Nat × Nat) × Bool × Nat) :=
  let c := (s.block b).core
  match (s.core c).apOwner with
  | some (x, g, l, n) => if x = b then some (s.fib (.ap c), (x, g, l, n), (s.core c).apStop, (s.core c).apHome.getD c) else none
  | none => none

/-- Size of an image: its registers and its scratchpad bytes. -/
def imageSize (regs : Nat) (sp : Option (List (Nat × Nat))) (scratch : Nat) : Nat :=
  4 * regs + (match sp with | none => scratch | some l => (l.map (·.2)).sum)

/-- Shadow storage of a sector in bytes (R261). -/
def shadowBytes : Nat := 48 * 2 ^ 20

/-! ### Carriages at a stop (R327) -/

/-- A pinned carriage stays in its planes; one that can be reloaded is EVICTED, any other STALE, and its slots are
released. -/
def Carriage.atStop (c : Carriage) : Carriage :=
  if c.pinned then { c with imaged := true }
  else { c with imaged := true, slots := false, weights := [], sideStore := []
                state := if c.state = .ready ∧ !c.tracked then .stale else if c.state = .ready then .evicted else c.state }

/-- Whether a block of a partition still runs or stands unsaved. -/
def State.stopsLeft (s : State) (p : Nat) : Bool := s.blocks.any fun x => decide (x.2.part = p) && x.2.resident

/-- Whether a carriage of a partition without a holder is being loaded: a stop that takes it waits (R9, R327). -/
def State.looseLoads (s : State) (p : Nat) : Bool := s.carriages.any fun y => decide (y.2.holder = none ∧ y.2.part = p ∧ y.2.state = .loading)

/-- Treats the carriages that block `b` holds, or those of partition `p` without a holder. -/
def State.stopCarriages (s : State) (holder : Option Nat) (p : Nat) : State :=
  ({ s with carriages := s.carriages.map fun (n, c) =>
      if n < Car.savedKey ∧ c.holder = holder ∧ c.part = p ∧ c.state ≠ .loading then (n, c.atStop) else (n, c) } : State).syncSources

/-- A partition's stop is complete: its image takes its carriages without a holder (R327). -/
def State.stopLoose (s : State) (p : Nat) : State := (s.stopCarriages none p).updPart p fun x => { x with switching := false }

/-- Partitions whose last block has gone while they were being switched out, however it went (R327). -/
def State.settleSwitch (s : State) : State :=
  (s.partitions.filter fun x => x.2.switching && !s.stopsLeft x.1 && !s.looseLoads x.1).foldl (fun s x => s.stopLoose x.1) s

/-! ### BLOCK_SAVE -/

/-- Base and length of a partition's save area, where DRAM holds it (R261, R418). -/
def State.saveArea (s : State) (p : Nat) : Nat × Nat :=
  let x := s.part p
  let (a, n) := (x.savebase.toNat, x.savesize.toNat)
  if 0 < n ∧ inDram a ∧ inDram (a + n - 1) then (a, n) else (0, 0)

/-- An image spills `n` bytes: with `n` positive, the save area of the partition holds what the save engine put there, of which
nothing is known (R261; DESIGN CHOICE, log 39). -/
def State.spillImage (s : State) (p n : Nat) : State :=
  let (a, m) := s.saveArea p
  if n = 0 then s
  else
    { s.markCarriages a m with
      mem := s.mem.writeBytes a ((List.range m).map (Config.imageByte s.nextReq))
      veil := (s.forget fun scr x => !scr && decide (a ≤ x ∧ x < a + m)).veil }

/-- Saves a block whose stop is complete. -/
def State.saveBlock (s : State) (b : Nat) (why : StopWhy) (deadline : Bool) : State :=
  let x := s.block b
  let c := x.core
  let sp := s.spansOf b deadline
  let (mem, poison) := s.saveScratch b sp
  let own := fun (r : Req) => r.ofBlock b
  let again := s.reqs.filter fun r => own r && decide (r.dst ≠ .none) && decide (r.what ≠ .line)
  let used := s.shadowUsed.atD (sectorOf c) 0
  let regs := if deadline then (s.liveSlots b).length * x.regs
    else ((s.liveSlots b).map fun n => ((s.fib (.fib b n)).entry.map fun e => (livenessRegs e).length).getD (((s.fib (.fib b n)).region.map fun r => r.regs.length).getD 0)).sum
  let size := imageSize regs sp x.scratch
  let bytes := min size (shadowBytes - used)
  let im : Image :=
    { scratch := mem, poison := poison
      tables := (s.core c).tables.filterMap fun t => if t.2.activeBank.state = .ready then some (t.1, t.2.activeBank.addr) else none
      mxGangs := s.mxOf b, ap := s.apOf b
      queues := (s.core c).queues.filter fun q => (q.2.bound.map fun g => decide (g.1 = b)).getD false
      trolley := (s.trolleyOf b).map fun o => { o with fault := none }
      reissue := again, bytes := bytes }
  let s1 := ((s.releaseBlock b).spillImage x.part (size - bytes)).forget fun scr a => scr && (x.offsetOf a).isSome
  let s2 : State := { s1 with
    fibres := s1.fibres.map fun (k, f) => match k with
      | .fib y n => if y = b then (k, (if deadline then f else s.saveAtPoint b n f).saved) else (k, f)
      | _ => (k, f)
    reqs := s1.reqs.filter fun r => !own r
    lineBuf := s1.lineBuf.filter fun l => !FKey.isOf l.1 b
    evicted := s1.evicted.filter fun k => !FKey.isOf k b
    missQ := (s1.missQ.map fun m => { m with waiters := m.waiters.filter fun p => !Party.actsFor b p }).filter fun m => m.waiters ≠ []
    nextReq := s1.nextReq + 2 ^ 18
    shadowUsed := s1.shadowUsed.put (sectorOf c) (used + bytes) }
  let s3 := (s2.dropTrolley fun o => FKey.isOf o.fibre b).updCore c fun y =>
    { y with
      queues := y.queues.filter fun q => !((q.2.bound.map fun g => decide (g.1 = b)).getD false) }
  let s4 : State := if im.ap.isSome then
      ({ s3 with fibres := s3.fibres.del (.ap c) } : State).updCore c fun y => { y with apOwner := none, apStop := false, apHome := none }
    else s3
  let s5 := (s4.updBlock b fun y => { y with stop := .saved why, image := im, units := [] }).stopCarriages (some b) x.part
  let s6 := if (why = .switch ∨ why = .faults) ∧ !s5.stopsLeft x.part then s5.stopLoose x.part else s5
  s6.unpause x.part

/-- BLOCK_SAVE: the stop of block `item` is complete, and its image is written. -/
def execBlockSave (s : State) : Out :=
  let b := s.args.item
  let ready := fun (b : Nat) => (s.block b).halted && s.noCoach b
  match (s.block b).stop with
  | .stopped why d =>
    let p := (s.block b).part
    let last := decide (why = .switch ∨ why = .faults) && !(s.blocks.any fun x => decide (x.1 ≠ b ∧ x.2.part = p) && x.2.resident)
    if ready b && ((s.block b).twin.all fun t => ready t || (s.blocks.at? t).isNone) && s.enginesQuiet b && !(last && s.looseLoads p) then
      .next (s.saveBlock b why d)
    else .refused (.notEnabled "BLOCK_SAVE")
  | _ => .refused (.notEnabled "BLOCK_SAVE")

/-! ### BLOCK_RESTORE (R211, R261, R328, R331) -/

/-- Carriages that a block holds. -/
def State.heldCars (s : State) (b : Nat) : List (Nat × Carriage) := s.carriages.filter fun x => x.2.holder = some b

/-- Whether SAVED carriages can be written back one after the other: each to its former core, its slots free, within quota
(R328). -/
def State.carsReturn (c : Nat) : List (Nat × Carriage) → State → Bool
  | [], _ => true
  | x :: r, s =>
    decide (c ∈ Car.cores x.2) && (s.carriages.at? (x.1 - Car.savedKey)).isNone && s.roomFor Car.savedKey x.2 && State.carsReturn c r (s.writeBackCar x.1 x.2)

/-- Whether a block has room for its pinned carriages: within quota, and those that are SAVED on their former core with their
slots free (R261, R328). -/
def State.pinsFit (s : State) (b c : Nat) : Bool :=
  let pinned := (s.heldCars b).filter fun x => x.2.pinned
  (pinned.all fun x => (Car.cores x.2).all fun core =>
    decide (s.pinnedOf core x.2.tenant ≤ s.pinQuota x.2.part ∧ s.planesOf core x.2.tenant Car.savedKey ≤ s.planeQuota x.2.part)) &&
    State.carsReturn c (pinned.filter fun x => decide (Car.savedKey ≤ x.1)) s

/-- Writes a block's SAVED carriages back and takes its carriages out of its image (R328). -/
def State.returnCars (s : State) (b : Nat) : State :=
  let s1 := (s.heldCars b).foldl (fun s x => if Car.savedKey ≤ x.1 then s.writeBackCar x.1 x.2 else s) s
  { s1 with carriages := s1.carriages.map fun (n, c) => if c.holder = some b then (n, { c with imaged := false }) else (n, c) }

/-- Whether block `b` can be restored on core `c` now; one whose launch rolls back is not (R264). -/
def State.canRestore (s : State) (b c : Nat) : Bool :=
  let x := s.block b
  (match x.stop with | .saved .faults => !s.unresolved b | .saved _ => true | _ => false) && s.pinsFit b c &&
    (x.image.ap.isNone || (s.core c).apOwner.isNone) && !((s.launch? x.lid).any Launch.mustRollback) &&
    !((s.core c).tables.any fun t => decide (t.2.activeBank.state = .loading))

/-- Reloads an activation table for a restored block where its active bank holds another (R211). -/
def State.reloadTable (s : State) (b c p : Nat) (t : Nat × Nat) : State :=
  let a := (s.table c t.1).activeBank
  if a.addr = t.2 ∧ a.state = .ready then s
  else (s.seesAll (tableParty c t.1)).updTable c t.1 fun x => x.setActive { state := .loading, addr := t.2, part := p, restore := some b }

/-- A gang joins the owner queues again (R331). -/
def State.rejoinMx (s : State) (b c : Nat) (g : Nat × Bool × Bool) : State :=
  let add := fun (x : Core) => { x with mxq := x.mxq ++ [((b, g.1), g.2.2)] }
  let s1 := (s.updCore c add).updGang (b, g.1) fun x => { x with held := g.2.1 }
  if g.2.2 then s1.updCore (partnerOf c) add else s1

/-- Issues a re-issue record: a load reads memory, or its scratchpad, as it stands; an atomic, and what the special-function unit
has computed, keeps its recorded value (R248, R261). -/
def State.reissue (s : State) (b c : Nat) (r : Req) : State :=
  let r := { r with core := c, org := match r.org with | .fibre (.ap _) => .fibre (.ap c) | o => o }
  match r.what with
  | .load _ | .ldc =>
    let r := { r with stage := .inFlight, deps := [], held := false }
    (s.place r).getD (s.sendDirect r)
  | .lds w => (match r.org, s.scratchAddr b r.va.toNat with
    | .fibre k, .ok (x, off) =>
      s.addReq { r with stage := .served (ofBytes (s.scratchSeen (.agent k) x off w.bytes)) (s.scratchPoisoned x off w.bytes) }
    | _, _ => s)
  | _ => { s with reqs := s.reqs ++ [r] }

/-- Moves what is recorded for a block's gangs from its former core to its new one (R123, R308). -/
def State.moveFaults (s : State) (b c0 c : Nat) : State :=
  if c0 = c then s
  else
    let x := s.core c0
    let s1 := s.updCore c fun y =>
      { y with
        cartFaults := y.cartFaults ++ x.cartFaults.filter fun e => e.block = b
        ctx := x.ctx.foldl (fun m t => m.upd t.1 {} fun z => { z with faults := z.faults ++ t.2.faults.filter fun e => e.gang.1 = b }) y.ctx }
    s1.updCore c0 fun y =>
      { y with
        cartFaults := y.cartFaults.filter fun e => e.block ≠ b
        ctx := y.ctx.map fun t => (t.1, { t.2 with faults := t.2.faults.filter fun e => e.gang.1 ≠ b }) }

/-- Puts a saved block on core `c` (DEDUCED, log 43; DEDUCED, log 58). A trolley operation goes on with the core whose context holds
its ticket; it reads memory as it stands, behind the loads that precede it and are issued again (R307, R309). -/
def State.restoreBlock (s : State) (b c : Nat) (units : List Nat) : State :=
  let x := s.block b
  let im := x.image
  let now := s.cycles c
  let s0 := ((s.enterTenant c x.tenant).l1Clear (clusterOf c)).moveFaults b x.core c
  let mine := fun (key : Nat) => decide (key / 2 ^ 21 = c) && units.contains (key % 2 ^ 21 / 128)
  let s1 : State := { s0 with
    scratch := s0.scratch.filter fun e => !mine e.1
    poisonScratch := s0.poisonScratch.filter fun w => !mine (8 * w)
    shadowUsed := s0.shadowUsed.upd (sectorOf x.core) 0 (· - im.bytes)
    nextBlock := s0.nextBlock + 1 }
  let s2 := s1.updBlock b fun y => { y with core := c, units := units, order := s.nextBlock, stop := .running, image := {} }
  let s3 : State := { s2 with
    scratch := im.scratch.foldl (fun m e => m.write (s2.scratchKey b e.1) e.2) s2.scratch
    poisonScratch := s2.poisonScratch ++ im.poison.map fun w => s2.scratchKey b (8 * w) / 8
    fibres := s2.fibres.map fun (k, f) => if FKey.isOf k b then (k, { f with readySince := now }) else (k, f) }
  let s4 := im.tables.foldl (fun s t => s.reloadTable b c x.part t) (s3.returnCars b)
  let q5 := im.queues.foldl (fun s q => (s.emptyQueue c q.1).updQueue c q.1 fun _ => q.2) s4
  let s5 : State := { q5 with fibres := q5.fibres.map fun (k, f) => if FKey.isOf k b then (k, { f with cursor := (s.fib k).cursor }) else (k, f) }
  let s6 : State := match im.ap with
    | some (f, o, st, home) => (s5.setFib (.ap c) f).updCore c fun y => { y with apOwner := some o, apStop := st, apHome := some home }
    | none => s5
  let s7 := im.trolley.foldl (fun s o =>
    (s.updCore o.core fun y => { y with trolley := y.trolley ++ [o] }).seesAll (opParty o.fibre o.id)) s6
  let s8 := im.reissue.foldl (fun s r => s.reissue b c r) s7
  im.mxGangs.foldl (fun s g => s.rejoinMx b c g) s8

/-- Units a restored block takes. -/
def State.unitsFor (s : State) (b c : Nat) (named : List Nat) : Option (List Nat) := s.takeUnits c ((s.block b).scratch / 128) named

/-- BLOCK_RESTORE: saved block `item` (for a twin its leader half, with the other) is placed again, on core `opt` where that
is named, with the units of scratchpad storage `nats`. It stands behind a launch of higher priority (R160). -/
def execBlockRestore (s : State) : Out :=
  let b := s.args.item
  let x := s.block b
  let no : Out := .refused (.notEnabled "BLOCK_RESTORE")
  let secs := (s.part x.part).sectors
  let n := x.scratch / 128
  let core := match s.args.opt with
    | some c => if c / 32 ∈ secs ∧ s.roomAt c x x.twin.isSome [] then some c else none
    | none => s.findRoom secs x x.twin.isSome []
  let first := match s.chosen x.part with | some (lid, _) => decide (s.effPrio lid ≤ s.effPrio x.lid) | none => true
  let late := (match x.stop with | .saved .switch => true | _ => first)
  match core with
  | none => no
  | some c =>
    if (s.blocks.at? b).isNone || !late || !s.canRestore b c then no
    else match x.twin with
      | none => (match s.unitsFor b c s.args.nats with
        | some u => .next (((s.updPart x.part fun y => { y with switching := false }).restoreBlock b c u).grant c)
        | none => no)
      | some t =>
        if x.core % 2 ≠ 0 || (s.blocks.at? t).isNone || !s.canRestore t (c + 1) then no
        else match s.unitsFor b c (s.args.nats.take n), s.unitsFor t (c + 1) (s.args.nats.drop n) with
          | some u, some v => .next (((((s.updPart x.part fun y => { y with switching := false }).restoreBlock b c u).restoreBlock t (c + 1) v).grant c).grant (c + 1))
          | _, _ => no

/-! ### CONTEXT_SWITCH_REQUEST (R258, R327) -/

/-- CONTEXT_SWITCH_REQUEST: the control complex requests the stop of every block of partition `unit`; where it has none, its
carriages without a holder go into its image at once, when none of them is being loaded (DEDUCED, log 53); where it has, they do
when the last of them has gone. -/
def execContextSwitchRequest (s : State) : Out :=
  let p := s.args.unit
  if !((s.part p).enabled && (s.part p).shadow && !(s.part p).pendShadow) || (!s.stopsLeft p && s.looseLoads p) then
    .refused (.notEnabled "CONTEXT_SWITCH_REQUEST")
  else
    let bs := (s.blocks.filter fun b => decide (b.2.part = p ∧ b.2.stop = .running)).map (·.1)
    let s1 := bs.foldl (fun s b => s.requestStop .switch b) s
    .next (if s1.stopsLeft p then s1.updPart p fun x => { x with switching := true } else s1.stopCarriages none p)

/-! ### ROLLBACK (R264) -/

/-- Blocks of a launch. -/
def State.blocksOfLaunch (s : State) (lid : Nat) : List Nat := (s.blocks.filter fun b => b.2.lid = lid).map (·.1)

/-- The stop of a block whose launch rolls back: requested, as any stop is, where it has not stopped already (R258, R264). -/
def StopPhase.forRollback (now : Nat) : StopPhase → StopPhase
  | .running => .requested .rollback now
  | .requested _ t => .requested .rollback t
  | .stopped _ d => .stopped .rollback d
  | .saved w => .saved w

/-- Operations of a stopped block that have written nothing. -/
def State.unstarted (s : State) (b : Nat) : List TrolleyOp :=
  (s.trolleyOf b).filter TrolleyOp.recordable

/-- What a block that rolls back leaves undone: operations that have written nothing end with their tickets, and so does its
access processor's program. -/
def State.haltBlock (s : State) (b : Nat) : State :=
  let c := (s.block b).core
  let gone := s.unstarted b
  let s1 := gone.foldl (fun s o => s.completeTicket (opParty o.fibre o.id) (s.trolleyScope o) o.core o.ctx o.ticket)
    (s.dropTrolley gone.contains)
  match (s.core c).apOwner with
  | some (x, _, _, _) => if x = b then s1.endAp c else s1
  | none => s1

/-- Whether a block that rolls back has something to leave undone. -/
def State.toHalt (s : State) (b : Nat) : Bool :=
  !(s.unstarted b).isEmpty || (match (s.core (s.block b).core).apOwner with | some (x, _, _, _) => decide (x = b) | none => false)

/-- Whether every write that a block's agents have issued is performed (DEDUCED, log 52). -/
def State.quietBlock (s : State) (b : Nat) : Bool :=
  let reads := fun (r : Req) => match r.what with | .load _ | .lds _ | .ldc | .line | .sfu _ => true | _ => false
  s.noCoach b && !(({ s with reqs := s.reqs.filter fun r => !(r.ofBlock b && reads r) } : State).blockBusy b)

/-- The control core that undoes what a launch wrote. -/
def undoParty : Party := .agent (.ctl 0)

/-- The homes at which pages with different HSEC fields place a line (R275, R283, R292). -/
def homesOf (la : Nat) : List (Nat × Nat) :=
  if inDram (la * 128) then dedup ((controllerOf (la * 128), la) :: (List.range 4).map fun h => (homeSlice (la * 128) h, la))
  else [(homeSlice (la * 128) 3, la)]

/-- Writes the undo log back, the latest line first. -/
def State.undoLines (s : State) (undo : List (Nat × List Byte)) : State :=
  undo.foldl (fun s l => s.homeWrite none { who := undoParty, rel := some .dev } (l.1 * 128) l.2) s

/-- The launch starts again: its blocks are gone, and placement begins with block 0. -/
def State.relaunch (s : State) (lid : Nat) (l : Launch) : State :=
  let bs := s.blocksOfLaunch lid
  let s1 := bs.foldl (fun s b =>
    let s := (s.releaseBlock b).endImage b
    ({ s with reqs := s.reqs.filter fun r => !r.ofBlock b, lineBuf := s.lineBuf.filter fun y => !FKey.isOf y.1 b } : State).removeBlock b)
    (((s.undoLines l.undo).unclaim undoParty).follows undoParty (launchStart lid))
  (s1.updLaunch lid fun l =>
    { l with state := .placing, cursor := 0, paused := false, placed := 0, undo := [], mustRollback := false, rollbacks := l.rollbacks + 1 }).unpause l.part

/-- ROLLBACK: launch `item` has consumed an uncorrectable error. The stop of its blocks is requested; once they have stopped and
what they wrote is performed, the undo log is written back and the launch starts again. After three rollbacks the launch ends as
a launch error. -/
def execRollback (s : State) : Out :=
  let lid := s.args.item
  match s.launch? lid with
  | none => .refused (.notEnabled "ROLLBACK")
  | some l =>
    let bs := s.blocksOfLaunch lid
    let asked := fun (b : Nat) => decide ((s.block b).stop.forRollback s.clock = (s.block b).stop)
    let stopped := fun (b : Nat) => (match (s.block b).stop with | .stopped .rollback _ | .saved _ => true | _ => false) && s.noCoach b
    let lines := dedup (l.undo.flatMap fun x => homesOf x.1)
    if !l.mustRollback || l.error.isSome then .refused (.notEnabled "ROLLBACK")
    else if 3 ≤ l.rollbacks then .next ((s.launchError lid 0x30).updLaunch lid fun l => { l with mustRollback := false })
    else if !bs.all asked then .next (bs.foldl (fun s b => s.updBlock b fun x => { x with stop := x.stop.forRollback s.clock }) s)
    else if !bs.all stopped then .refused (.notEnabled "ROLLBACK")
    else if bs.any s.toHalt then .next (bs.foldl (fun s b => s.haltBlock b) s)
    else if !bs.all s.quietBlock then .refused (.notEnabled "ROLLBACK")
    else if lines.all (s.lineOpen undoParty) then .next (s.relaunch lid l)
    else if !s.claimed undoParty lines then .next (s.claim undoParty lines)
    else .refused (.notEnabled "ROLLBACK")

end Sys2Proof.Machine
end

