-- ==== Sys2Proof/Machine/Complex.lean ====
section
/-!
DEFINITION. Machine/Complex.lean: the control complex and the host: boot (R401, R423, R424), doorbells and CXL.mem (R419),
attestation (R425), the control window and the frame-owner table (R418, R420, R421), Ethernet (R426) and power (R427).
-/

namespace Sys2Proof.Machine

/-! ### Boot (R401, R423, R424) -/

/-- SHAKE256 with `n` bytes of output, at most 64 (DEDUCED, log 47). -/
def shake (n : Nat) (l : List Byte) : List Byte := (toBytes 64 (Config.shake256 l).toNat).take n

/-- Extends a measurement register with an image (R423; DESIGN CHOICE, log 46). -/
def extendMr (mr image : List Byte) : List Byte := shake 64 (mr ++ shake 64 image)

/-- The next incarnation: 0 is skipped (R401). -/
def nextIncarnation (n : Nat) : Nat := if n + 1 = 2 ^ 32 then 1 else n + 1

/-- The boot ROM verifies and measures images from stage `i` on: the registers, the last stage measured, the result (R423,
R424). -/
def bootImages : Nat → List BootImage → List (List Byte) → List (List Byte) × Nat × Nat
  | i, [], mr => (mr, i - 1, 1)
  | i, x :: r, mr =>
    if !x.signed then (mr, i - 1, 2)
    else if !x.wellFormed then (mr, i - 1, 3)
    else bootImages (i + 1) r (mr.set i (extendMr (mr.getD i []) x.bytes))

/-- POWER_ON: a start; the boot ROM `bytes` is stage 0, `images` are those of stages 1 to 4. The machine right after reset is
the module's first start; any later one raises the incarnation. Host memory is not the device's. -/
def execPowerOn (s : State) : Out :=
  if s.args.images.length ≠ 4 then .refused (.notEnabled "POWER_ON")
  else
    let r := State.reset
    let mr0 := r.mr.set 0 (extendMr (r.mr.getD 0 []) s.args.bytes)
    let (mr, stage, result) := bootImages 1 s.args.images mr0
    .next { r with
      devId := s.devId
      incarnation := if s.bootstat % 16 = 0 then s.incarnation else nextIncarnation s.incarnation
      bootstat := stage * 16 + result
      mr := mr
      mem := s.mem.filter fun c => inHost c.1
      agenda := s.agenda
      agent := s.agent
      args := s.args }

/-- Whether the compute dies are released. -/
def State.released (s : State) : Bool := decide (s.bootstat % 16 = 1)

/-! ### The host (R419) -/

/-- What a doorbell finds at a record's address: its 256 bytes and whether they are poisoned, a trap code, or that it must
wait. -/
inductive BellRead where
  | ok (r : List Byte) (poison : Bool)
  | fault (code : Nat)
  | wait
deriving DecidableEq, Repr

/-- The checks of R220 through a partition's table, with no TLB and no L1; a table in a granule being zeroed makes them wait (R421). -/
def State.checkTable (s : State) (part : Nat) (acc : Acc) (va : W64) : Chk :=
  if !canonical va then .bad 0x10 1
  else match s.walk part va.toNat with
    | some (size, pte) => if s.walkBarred part va.toNat then .miss else s.checkPte 0 (if acc = .load then .homeLoad else acc) va.toNat size pte
    | none => if s.walkBarred part va.toNat then .miss else .bad 0x10 0

/-- Reads a record for a doorbell, page by page, and a page may end in a hole; `sup` is what another device supplies (R272, R391,
R419). -/
def State.bellRead (s : State) (part : Nat) (sup : List Byte) : Nat → W64 → Nat → BellRead
  | 0, _, _ => .ok [] false
  | fuel + 1, va, n =>
    if n = 0 then .ok [] false
    else
      let m := min n (65536 - va.toNat % 65536)
      match s.checkTable part .load va, s.checkTable part .load (va + BitVec.ofNat 64 (m - 1)) with
      | .miss, _ | _, .miss => .wait
      | .bad c _, _ | .ok _, .bad c _ => .fault c
      | .ok t, .ok _ =>
        if t.dev.isNone && inDram t.pa && s.zeroing.contains (t.pa / 65536) then .wait
        else match t.dev with
          | some d =>
            if s.unreachable d then .fault 0x14 else if sup.length < m then .wait
            else (match s.bellRead part (sup.drop m) fuel (va + BitVec.ofNat 64 m) (n - m) with
              | .ok r p => .ok (sup.take m ++ r) p
              | x => x)
          | none => (match s.bellRead part sup fuel (va + BitVec.ofNat 64 m) (n - m) with
              | .ok r p => .ok (s.mem.bytes t.pa m ++ r) (p || s.memPoisoned t.pa m)
              | x => x)

/-- A doorbell is refused: the status and the queue say so (R148, R191, R419). -/
def State.bellRefuse (s : State) (p q cause off : Nat) : State :=
  let s1 := s.noteRefusal p q cause off
  { s1 with doorbells := s1.doorbells.put (queueKey p q) (refusedWord cause off) }

/-- HOST_DOORBELL: the host rings queue `sub` of partition `unit` with record address `word`; `bytes` are the record where it
stands in another device. The SIG ticket is performed before the status reads as accepted (R143; DEDUCED, log 45). -/
def execHostDoorbell (s : State) : Out :=
  let x := s.args
  let (p, q, va) := (x.unit, x.sub, x.word)
  let no : Out := .refused (.notEnabled "HOST_DOORBELL")
  let pending := s.reqs.any fun r => decide (r.org = .host ∧ r.part = p ∧ r.lane = q)
  if 12 ≤ p ∨ 64 ≤ q ∨ s.released = false ∨ pending then no
  else if !(s.part p).enabled then .next (s.bellRefuse p q 2 0)
  else if va.toNat % 64 ≠ 0 then .next (s.bellRefuse p q 5 0x12)
  else match s.bellRead p x.bytes 5 va 256 with
    | .wait => no
    | .fault c => .next (s.bellRefuse p q 5 c)
    | .ok r poison =>
      if poison then .next (s.bellRefuse p q 5 0x30)
      else
        let page := s.checkTable p .store va
        let at_ := s.checkTable p .store (va + 0x78)
        let bad := Rec.sigValid r && (match page, at_ with | .ok _, .ok _ => false | _, _ => true)
        match s.judge p q r bad with
        | some (c, off) => .next (s.bellRefuse p q c off)
        | none =>
          let (s1, lid, sig) := s.acceptLaunch .host p q va.toNat r
          let s2 : State := { s1 with doorbells := s1.doorbells.put (queueKey p q) (BitVec.ofNat 64 lid) }
          match sig, at_ with
          | some n, .ok t =>
            (match t.dev with
              | none =>
                let ls := t.lines 8
                if s.visitBarred ls then no
                else if ls.all (s.lineOpen .host) then
                  .next ((ls.foldl (fun s l => (s.visitLine 0 l.1 l.2).unclaimLine .host l) s2).homeWrite none { who := .host } t.pa (toBytes 8 n))
                else if s.claimed .host ls then no
                else .next (s.claim .host ls)
              | some d => .next (s1.addReq
                { id := 0, org := .host, core := 200000, lane := q, part := p, va := va + 0x78, pa := t.pa, dev := some d, what := .sig n lid, stage := .remote }))
          | _, _ => .next s2

/-- What a host read of BAR0 returns at an offset, byte by byte (R419, R424, R425). -/
def State.bar0 (s : State) (off : Nat) : Byte :=
  let mailbox := fun (m o : Nat) =>
    let x := s.mailboxes.atD m {}
    if o < 0x1F00 then x.response.getD o 0
    else BitVec.ofNat 8 (if o < 0x1F04 then x.cmd / 256 ^ (o - 0x1F00) else if o < 0x1F08 then x.status / 256 ^ (o - 0x1F04)
      else if 0x1F20 ≤ o ∧ o < 0x1F40 then (x.nonce.getD (o - 0x1F20) 0).toNat else if 0x1FFC ≤ o then x.go / 256 ^ (o - 0x1FFC) else 0)
  if 0x4000 ≤ off ∧ off < 0x4008 then BitVec.ofNat 8 (s.bootstat / 256 ^ (off - 0x4000))
  else if 2 ≤ s.bootstat % 16 then 0
  else if off < 1024 * 12 then
    if off % 16 < 8 then 0 else BitVec.ofNat 8 ((s.doorbells.atD (queueKey (off / 1024) (off % 1024 / 16)) 0).toNat / 256 ^ (off % 8))
  else if 0x20000 ≤ off ∧ off < 0x20000 + 8192 * 13 then mailbox ((off - 0x20000) / 8192) ((off - 0x20000) % 8192)
  else 0

/-- Whether the host reaches a device address: device memory and the shared-store window (R419). -/
def hostReaches (pa : Nat) : Bool := decide (pa < 0xC000000000) || inWindow pa

/-- Whether what stands at an address answers the host: not a hole, not unconverted, not ORPHANED (R406, R419). -/
def State.hostOk (s : State) (pa : Nat) : Bool := s.paOk pa && !s.orphaned pa

/-- Whether the host's access waits: another device holds the region, or its granule is being zeroed (R406, R421). -/
def State.hostWaits (s : State) (pa : Nat) : Bool :=
  (match s.region pa with | .held _ _ => true | _ => false) || (inDram pa && s.zeroing.contains (pa / 65536))

/-- CXL_MEM_READ: once the dies are released, the host reads the bytes of a line from address `item`, their number first in `nats`. A hole gives all ones
with the poison indicator. It is an acquire at device scope, served at the home that HSEC 3 selects (R419; DEDUCED, log 44). -/
def execCxlMemRead (s : State) : Out :=
  let pa := s.args.item
  let n := s.args.nats.head?.getD 0
  if n = 0 ∨ 128 < pa % 128 + n ∨ hostReaches pa = false ∨ s.released = false then .refused (.notEnabled "CXL_MEM_READ")
  else if !s.hostOk pa then .next { s with hostData := List.replicate n 0xFF, hostPoison := true }
  else if s.hostWaits pa || s.writeWaits (homeSlice pa 3, pa / 128) || s.visitBarred [(homeSlice pa 3, pa / 128)] then .refused (.notEnabled "CXL_MEM_READ")
  else
    .next { (s.noteRead { who := .host, since := s.clock + 1, lease := some 0 } pa n (some .dev)).visitLine 0 (homeSlice pa 3) (pa / 128) with
      hostData := s.mem.bytes pa n, hostPoison := s.memPoisoned pa n }

/-- CXL_MEM_WRITE: once the dies are released, the host writes `bytes` inside a line at address `item`, once the leases have run out, and a release at device
scope; it waits at the line. A hole drops them (R281, R419). -/
def execCxlMemWrite (s : State) : Out :=
  let pa := s.args.item
  let n := s.args.bytes.length
  if n = 0 ∨ 128 < pa % 128 + n ∨ hostReaches pa = false ∨ s.released = false then .refused (.notEnabled "CXL_MEM_WRITE")
  else if !s.hostOk pa then .next s
  else if s.hostWaits pa then .refused (.notEnabled "CXL_MEM_WRITE")
  else
    let l := (homeSlice pa 3, pa / 128)
    if s.visitBarred [l] then .refused (.notEnabled "CXL_MEM_WRITE")
    else if s.lineOpen .host l then .next (((s.visitLine 0 l.1 l.2).unclaimLine .host l).homeWrite none { who := .host, rel := some .dev } pa s.args.bytes)
    else if s.claimed .host [l] then .refused (.notEnabled "CXL_MEM_WRITE")
    else .next (s.claim .host [l])

/-! ### Attestation (R425) -/

/-- The seed of the device identity key. -/
def State.keySeed (s : State) : BitVec 256 :=
  BitVec.ofNat 256 (ofBytes (shake 32 (toBytes 32 Config.fusedSecret.toNat ++ s.mr.getD 0 [] ++ s.mr.getD 1 [])))

/-- `n` bytes of a list, zeros where it is shorter. -/
def padTo (n : Nat) (l : List Byte) : List Byte := (l ++ List.replicate n 0).take n

def State.publicKey (s : State) : List Byte := padTo 1952 (Config.mldsaPublic s.keySeed)

/-- Bytes 0x000 to 0x25F of a report: mailbox 0 is the management mailbox, 1 + p that of partition p. -/
def State.reportBody (s : State) (m : Nat) (nonce : List Byte) : List Byte :=
  [0x4B, 0x58, 0x41, 0x52] ++ toBytes 2 1 ++ toBytes 1 (if m = 0 then 0 else 1) ++ toBytes 1 (if m = 0 then 0xFF else m - 1) ++
    toBytes 8 s.devIdReg.toNat ++ toBytes 8 s.clock ++ padTo 32 nonce ++ toBytes 8 (if m = 0 then 0 else (s.part (m - 1)).cfg.toNat) ++
    shake 32 s.publicKey ++ (s.mr.map (padTo 64)).flatten

/-- A number with byte `i`, counted from the lowest, replaced. -/
def putByte (n i : Nat) (b : Byte) : Nat := n - n / 256 ^ i % 256 * 256 ^ i + b.toNat * 256 ^ i

/-- A requester's write of one byte of a mailbox: the response area takes none, GO none while it is 1, and of the request area only
CMD, the nonce and GO (DESIGN CHOICE, log 48). -/
def Mailbox.put (x : Mailbox) (busy : Bool) (o : Nat) (b : Byte) : Mailbox :=
  if 0x1F00 ≤ o ∧ o < 0x1F04 then { x with cmd := putByte x.cmd (o - 0x1F00) b }
  else if 0x1F20 ≤ o ∧ o < 0x1F40 then { x with nonce := (padTo 32 x.nonce).set (o - 0x1F20) b }
  else if 0x1FFC ≤ o ∧ o < 0x2000 ∧ !busy then { x with go := putByte x.go (o - 0x1FFC) b }
  else x

/-- A requester writes bytes of mailbox `m`: 0 for the management mailbox, 1 + p for that of partition p. None where the mailbox does
not hold them, or BAR0 serves nothing but its BOOTSTAT mirror (R424). -/
def State.mailboxWrite (s : State) (m off : Nat) (bs : List Byte) : Option State :=
  if 13 ≤ m ∨ 0x2000 < off + bs.length ∨ 2 ≤ s.bootstat % 16 then none
  else
    let x := s.mailboxes.atD m {}
    some { s with mailboxes := s.mailboxes.put m (bs.zipIdx.foldl (fun y (b, i) => y.put (decide (x.go = 1)) (off + i) b) x) }

/-- The command that stands in a mailbox to be answered: GO is 1 (R425). -/
def State.asked (s : State) (m : Nat) : Option Nat :=
  match s.mailboxes.at? m with
  | some x => if m < 13 ∧ x.go = 1 ∧ s.released = true then some x.cmd else none
  | none => none

/-- A mailbox after the device has answered: CMD and the nonce stay. -/
def State.answerBox (s : State) (m status : Nat) (response : List Byte) : State :=
  { s with mailboxes := s.mailboxes.upd m {} fun x => { x with go := 0, status := status, response := response } }

/-- ATTEST_REPORT: command 1 of mailbox `unit` is answered; a command that is neither 1 nor 2 is a bad one, answered here, and leaves
the response area (DESIGN CHOICE, log 48). -/
def execAttestReport (s : State) : Out :=
  let m := s.args.unit
  let x := s.mailboxes.atD m {}
  match s.asked m with
  | some 1 =>
    let body := s.reportBody m x.nonce
    let sig := padTo 3309 (Config.mldsaSign s.keySeed body)
    .next (s.answerBox m 0 (padTo 0x1F00 (body ++ toBytes 4 3309 ++ sig)))
  | some 2 | none => .refused (.notEnabled "ATTEST_REPORT")
  | some _ => .next (s.answerBox m 2 x.response)

/-- ATTEST_CERTIFICATE: command 2 of mailbox `unit` is answered. -/
def execAttestCertificate (s : State) : Out :=
  let m := s.args.unit
  if s.asked m ≠ some 2 then .refused (.notEnabled "ATTEST_CERTIFICATE")
  else
    let cert := (Config.certificate s.publicKey).take 5980
    let out := s.publicKey ++ toBytes 4 cert.length ++ cert
    let old := padTo 0x1F00 (s.mailboxes.atD m {}).response
    .next (s.answerBox m 0 (out ++ old.drop out.length))

/-! ### Control software's writes (R418, R420, R421) -/

/-- PARTCFG_WRITE: `word` to PARTCFG of partition `unit`. -/
def execPartcfgWrite (s : State) : Out :=
  if 12 ≤ s.args.unit then .refused (.notEnabled "PARTCFG_WRITE") else .next (s.writePartcfg s.args.unit s.args.word)

/-- SHADOW_UNDO_DRAIN_DONE: the shadow ways (`sub` 0) or undo ways (`sub` 1) of partition `unit` have drained. -/
def execShadowUndoDrainDone (s : State) : Out :=
  let p := s.args.unit
  if s.args.sub = 0 ∧ (s.part p).pendShadow then .next (s.updPart p fun x => { x with pendShadow := false })
  else if s.args.sub = 1 ∧ (s.part p).pendUndo then .next (s.updPart p fun x => { x with pendUndo := false })
  else .refused (.notEnabled "SHADOW_UNDO_DRAIN_DONE")

/-- FOT_ENTRY_WRITE: a control core writes the low byte of `word` to the frame-owner entry at address `item`. -/
def execFotEntryWrite (s : State) : Out :=
  let pa := s.args.item
  let l := (homeSlice pa 3, pa / 128)
  let p : Party := .agent (.ctl 0)
  if (s.fotGranule pa).isNone then .refused (.notEnabled "FOT_ENTRY_WRITE")
  else if s.visitBarred [l] then .refused (.notEnabled "FOT_ENTRY_WRITE")
  else if s.lineOpen p l then .next (((s.visitLine 0 l.1 l.2).unclaimLine p l).fotWrite { who := p } pa (s.args.word.toNat % 256))
  else if s.claimed p [l] then .refused (.notEnabled "FOT_ENTRY_WRITE")
  else .next (s.claim p [l])

/-- GRANULE_ZEROING_DONE: granule `item` has no lease left and is written with zeros. -/
def execGranuleZeroingDone (s : State) : Out :=
  let g := s.args.item
  if g ∈ s.zeroing ∧ s.granuleFree g then .next (s.zeroGranule g) else .refused (.notEnabled "GRANULE_ZEROING_DONE")

/-- CONTROL_WINDOW_WRITE: `word` at offset `item` of the control window. -/
def execControlWindowWrite (s : State) : Out :=
  let off := s.args.item
  if off % 8 ≠ 0 ∨ 0x1000000 ≤ off then .refused (.notEnabled "CONTROL_WINDOW_WRITE") else .next (s.windowWrite off s.args.word.toNat)

/-! ### Ethernet and power (R426, R427) -/

/-- ETHERNET_FRAME: a frame of priority `sub` arrives at port `unit`; the link partner holds back those of a priority that the port
has paused. -/
def execEthernetFrame (s : State) : Out :=
  let x := s.ethPorts.atD s.args.unit {}
  if 2 ≤ s.args.unit ∨ 9216 < s.args.bytes.length ∨ 8 ≤ s.args.sub ∨ s.args.sub ∈ x.holding then .refused (.notEnabled "ETHERNET_FRAME")
  else .next { s with eth := s.eth ++ [(s.args.unit, s.args.bytes)] }

/-- Changes a port's sending side. -/
def State.updEth (s : State) (n : Nat) (f : EthPort → EthPort) : State := { s with ethPorts := s.ethPorts.upd n {} f }

/-- Control firmware takes the first frame that stands in at a port (R426; DESIGN CHOICE, log 95). -/
def State.ethTake (s : State) (n : Nat) : Option State :=
  (s.eth.find? fun f => f.1 = n).map fun f => { s with eth := s.eth.erase f }

/-- Control firmware gives a port a frame to send under one of the 8 priorities, once it has been measured (R423, R426). -/
def State.ethSend (s : State) (n prio : Nat) (frame : List Byte) : Option State :=
  if 2 ≤ n ∨ 8 ≤ prio ∨ 9216 < frame.length ∨ s.bootstat / 16 % 16 < 1 then none
  else some (s.updEth n fun x => { x with sending := x.sending ++ [(prio, frame)] })

/-- The first frame of a priority that is not paused leaves a port. -/
def State.ethLeave (s : State) (n prio : Nat) : Option State :=
  let x := s.ethPorts.atD n {}
  if prio ∈ x.paused then none
  else (x.sending.find? fun f => f.1 = prio).map fun f => s.updEth n fun x => { x with sending := x.sending.erase f }

/-- Priority flow control: a priority of a port is paused or released, in the direction it sends or in that it receives. -/
def State.ethPause (s : State) (n prio : Nat) (sent on : Bool) : Option State :=
  let set := fun (l : List Nat) => if on then dedup (l ++ [prio]) else l.filter (· ≠ prio)
  if 2 ≤ n ∨ 8 ≤ prio then none
  else some (s.updEth n fun x => if sent then { x with paused := set x.paused } else { x with holding := set x.holding })

/-- Whether a stack of a die asserts STACK_HOT_N (R386). -/
def State.dieHot (s : State) (d : Nat) : Bool := [3 * d, 3 * d + 1, 3 * d + 2].any fun n => (s.stack n).act3

/-- The clock after a power step, in MHz. -/
def nextClk (hot : Bool) (cur cap power : Nat) : Nat :=
  if hot then 1000
  else if cap < power then max 1000 (cur - 100)
  else if 100 * power < 95 * cap then min 2500 (cur + 100)
  else cur

/-- POWER_CLOCK_STEP: 10 us after its last one, die `unit` compares its measured power, `word` watts, with CAP (DEDUCED, log 55). -/
def execPowerClockStep (s : State) : Out :=
  let d := s.args.unit
  if 4 ≤ d ∨ s.clock < (s.die d).powerAt + 10000 then .refused (.notEnabled "POWER_CLOCK_STEP")
  else .next (s.updDie d fun x => { x with powerAt := x.powerAt + 10000, curClk := nextClk (s.dieHot d) x.curClk x.cap s.args.word.toNat })

end Sys2Proof.Machine
end

