-- ==== Sys2Proof/Machine/Fetch.lean ====
section
/-!
DEFINITION. Machine/Fetch.lean: what stands around an instruction: who has the turn, the fetch of its word (R179, R220),
words that are no instruction (R92, R93), the passing of time (R14, R262), and what follows every step of itself.
-/

namespace Sys2Proof.Machine

/-! ### Time -/

/-- `ns` nanoseconds of a die's arithmetic clock, in cycles; the remainder is kept in thousandths (R14). -/
def Die.pass (d : Die) (ns : Nat) : Die :=
  { d with cyc := d.cyc + (d.frac + ns * d.curClk) / 1000, frac := (d.frac + ns * d.curClk) % 1000 }

/-- Whether every pipe of a core is held by a stalled coach (R162). -/
def State.pipesStall (s : State) (c : Nat) : Bool := (List.range 4).all fun p => (s.pipes.at? (pipeKey c p)).any Coach.stalled

/-- Adds a span to spans that end before it. -/
def addSpan (a b : Nat) : List (Nat × Nat) → List (Nat × Nat)
  | [] => [(a, b)]
  | (x, y) :: r => if y = a then (x, b) :: r else (a, b) :: (x, y) :: r

/-- `ns` nanoseconds of CLOCK pass: each die's cycles, and RUNCYC of every gang that is not switched out (R14, R90, R262; DESIGN CHOICE, log 62). -/
def State.passTime (s : State) (ns : Nat) : State :=
  let cyc := fun (c : Nat) => ((s.die (dieOf c)).pass ns).cyc - (s.die (dieOf c)).cyc
  let s1 : State := { s with
    clock := s.clock + ns
    reqs := s.reqs.map fun r => if r.away && !s.depsDone r.deps then { r with sentAt := s.clock + ns } else r
    gangs := s.gangs.map fun (g, x) =>
      if (s.block g.1).resident then (g, { x with sr := { x.sr with runcyc := x.sr.runcyc + cyc (s.block g.1).core } }) else (g, x) }
  let s2 := ((dedup (s.pipes.map fun p => p.1 / 4)).filter s.pipesStall).foldl (fun s c =>
    s.updCore c fun x => { x with heldUp := addSpan (s.cycles c) (s.cycles c + cyc c) x.heldUp }) s1
  [0, 1, 2, 3].foldl (fun s d => s.updDie d fun x => x.pass ns) s2

/-! ### What must happen before time passes -/

/-- Cycles since `t` that count against the wait of a ready fibre of a core (R162). -/
def State.counted (s : State) (c t : Nat) : Nat := s.cycles c - t - ((s.core c).heldUp.map fun x => x.2 - max x.1 t).sum

/-- Ready fibres of a core that wait longer than FAIRWIN (R162). -/
def State.overdue (s : State) (c : Nat) : List (Nat × Nat) :=
  (s.readyOn c).filter fun x => decide ((s.die (dieOf c)).fairWin < s.counted c (s.fib (.fib x.1 x.2)).readySince)

/-- Coaches that fibres of a core would form: those of one block at one PC stand together, eight of their quads in a coach (R153,
R154). -/
def State.coachesOf (s : State) (xs : List (Nat × Nat)) : Nat :=
  let at_ := fun (x : Nat × Nat) => (x.1, (s.fib (.fib x.1 x.2)).pc)
  ((dedup (xs.map at_)).map fun p => ((dedup ((xs.filter fun x => at_ x = p).map fun x => x.2 / 4)).length + 7) / 8).sum

/-- The placement that stands before time `t`: a core whose ready fibres would wait too long has a free pipe, or coaches that can
run where its pipes could take them all at once (R162). -/
def State.lateFibre (s t : State) : Option Turn :=
  let old := fun (x : FKey × Fibre) => match x.1 with
    | .fib b _ => if x.2.status = .live ∧ x.2.wait = .ready ∧ x.2.readySince + (t.die (dieOf (t.block b).core)).fairWin < t.cycles (t.block b).core
        then some (t.block b).core else none
    | _ => none
  (dedup (t.fibres.filterMap old)).findSome? fun c =>
    let n := t.coachesOf (t.overdue c)
    let pipes := (List.range 4).map fun p => (p, s.pipes.at? (pipeKey c p))
    let avail := pipes.filter fun p => !(p.2.any Coach.stalled)
    if n = 0 then none
    else match pipes.find? fun p => p.2.isNone with
      | some p => some (.event .coachForm { unit := c, sub := p.1 })
      | none => if n ≤ avail.length then (avail.head?).map fun p => .run (.coach c p.1) else none

/-- Whether since CLOCK `t` no agent but one block's has sent a request to the slices of the sector of slice `n` (R316). -/
def State.alone (s : State) (b n t : Nat) : Bool :=
  let here := fun (m : Nat) => decide (m < 192 ∧ sectorOfSlice m = sectorOfSlice n)
  (s.reqs.all fun x => x.dev.isSome || !here x.slice || decide (x.caller = b + 1)) &&
    (s.holds.all fun h => !here h.line.1 || decide (h.owner.caller = b + 1)) &&
    s.slices.all fun x => !here x.1 || x.2.callers.all fun c => decide (c.1 = b + 1 ∨ c.2 < t)

/-- A read past L1s and predictor, where one block alone sends requests to its sector's slices, is accepted or spilled within 50 ns
of its issue: the one that stands before time `clock`, or what of its block stands before it at its line (R316). -/
def State.lateRead (s : State) (clock : Nat) : Option Turn :=
  let mayGo := fun (r : Req) => decide (r.stage = .inFlight) && r.dev.isNone && s.depsDone r.deps && !s.orderHeld r && !s.orphaned r.pa && (s.accept r).isSome
  (s.reqs.filter fun r => decide (r.stage = .inFlight) && r.dev.isNone && r.noAlloc && decide (r.slice < 192 ∧ r.since + 50 < clock ∧ r.caller ≠ 0) &&
    (match r.what with | .load _ => true | _ => false) && s.alone r.gang.1 r.slice r.since).findSome? fun r =>
      (s.reqs.find? fun x => decide (x.id ≤ r.id ∧ x.la = r.la ∧ x.caller = r.caller) && mayGo x).map fun x =>
        .event .sliceRequestAccept { item := x.id }

/-- What was sent to another device is performed there or completes with a code within DLV of its sending (R399): what stands without
either before time `clock`, of a multicast store one of its other members. -/
def State.lateElement (s : State) (clock : Nat) : Option Turn :=
  (s.reqs.filter fun r => r.away && !r.excused && decide (r.sentAt + (s.die (dieOf r.core)).dlv < clock) && s.depsDone r.deps).findSome? fun r =>
    if !isGroup (r.dev.getD 0) then some (.event .elementStatus { item := r.id, opt := some 0x40 })
    else (r.members.find? (· ≠ s.devId)).map fun m => .event .elementStatus { item := r.id, sub := m, opt := some 0x40 }

/-- Dies whose first LEAVING cart has waited DLV before time `clock` (R120, R403). -/
def State.lateCarts (s : State) (clock : Nat) : List Nat :=
  [0, 1, 2, 3].filter fun d => ((s.die d).carts.find? Cart.leaving).any fun c => decide (c.left + (s.die d).dlv < clock)

/-- A way group that has drained for 200 us by time `clock` is converted (R289). -/
def State.lateGroup (s : State) (clock : Nat) : Option Turn :=
  (s.slices.find? fun x => x.2.draining.any fun t => decide (t + 200000 < clock)).map fun x => .event .wayGroupConverted { unit := x.1 }

/-- The host writes its own memory (R272); nothing where the bytes do not lie there. -/
def State.hostStore (s : State) (a : Nat) (bs : List Byte) : Option State :=
  if inHost a && decide (a + bs.length ≤ windowBase) then some { s with mem := s.mem.writeBytes a bs } else none

/-! ### The memory model's turns (R102, R110) -/

/-- Writes performed from now on may be observed late, or every write is observed (DESIGN CHOICE, log 66). -/
def State.setVeil (s : State) (on : Bool) : State := { s with veil := if on then { s.veil with on := true } else { next := s.veil.next } }

/-- An agent observes a write that it need not have observed (R102). -/
def State.observes (s : State) (id : Nat) (p : Party) : Option State :=
  if s.veil.hidden.any fun h => decide (h.id = id) then some { s with veil := s.veil.observe p [id] } else none

/-- The quantum that a qnt atomic on its way will take also serves `n` earlier ones (R110; DESIGN CHOICE, log 67). -/
def State.reserves (s : State) (id n : Nat) : Option State :=
  match s.reqs.find? fun r => r.id = id with
  | some r => if r.waiting && r.dev.isNone && r.what.quantum.isSome && r.count.isNone then some (s.setReq id fun r => { r with ahead := n }) else none
  | none => none

/-! ### What follows every step -/

/-- A word becomes uncorrectable: of a scratchpad (R278), of the shared store (R378), of a plane, whose carriage becomes STALE
(R351); an agent's read of a line of DRAM meets an error (R293, R387); a stack's layers take temperatures that begin and end no
action (R386). None where no such word is held. -/
def State.upset (s : State) : Upset → Option State
  | .scratch c n =>
    if c < 384 ∧ n < 2 ^ 18 then some { s with poisonScratch := dedup (s.poisonScratch ++ [c * 2 ^ 18 + n]) } else none
  | .shared n => if inWindow (8 * n) && s.paOk (8 * n) then some { s with poisonWords := dedup (s.poisonWords ++ [n]) } else none
  | .plane n =>
    match s.carriages.at? n with
    | none => none
    | some c => if c.state = .ready ∧ c.slots = true then some { s with carriages := s.carriages.put n { c with state := .stale } } else none
  | .dram la k layer =>
    if inDram (la * 128) && decide (k = 0 ∨ k = 1 ∨ k = 4) && layerOk layer then some (s.readEvent (la * 128) layer k) else none
  | .heat n ts =>
    if n < 12 ∧ ts.length = 16 ∧ !((s.stack n).acts (hottest ts)) then some (s.updStack n fun x => { x with temps := ts }) else none

/-- Control firmware extends MR5, MR6 or MR7 with an image, once it has been measured itself (R423). -/
def State.firmwareMeasure (s : State) (n : Nat) (image : List Byte) : Option State :=
  if 5 ≤ n ∧ n ≤ 7 ∧ 1 ≤ s.bootstat / 16 % 16 then some { s with mr := s.mr.set n (extendMr (s.mr.getD n []) image) } else none

/-- Blocks whose stop is requested stop as soon as they are at their stop point (R258; DEDUCED, log 60). -/
def State.settleStops (s : State) : State :=
  (s.blocks.filter fun x => match x.2.stop with | .requested _ _ => true | _ => false).foldl (fun s x => s.stopCheck x.1) s

/-- What comes about of itself once a step has been taken: waits whose condition holds, flags that match, stop points, stops
and timers at a run boundary, heads of launch queues, what paused launches request, partitions that are switched out, the time since
which a partition is over its threshold (R145, R160, R239, R253, R256, R258, R327, R376). -/
def State.follow (s : State) : State := s.settle.retestFlags.settleStops.settleHeld.settleHeads.settlePreempt.settleSwitch.noteOver

/-- A coach that stalled tries its word again once something else has happened. -/
def State.unstall (s : State) : State := { s with pipes := s.pipes.map fun (p, c) => (p, if c.stalled then { c with stalled := false, since := s.clock } else c) }

/-! ### The turn -/

/-- Whether an agent is held in reset: compute dies until the boot releases them, control cores until their firmware is
measured (R423, R424). -/
def State.inReset (s : State) : Agent → Bool
  | .ctl _ => decide (s.bootstat / 16 % 16 < 1)
  | _ => !s.released

/-- The member whose word an agent executes: the first live one that has still to perform it. None where the agent has
nothing to execute: no coach on the pipe, no program, a program that waits (DEDUCED, log 59). -/
def State.runner (s : State) : Agent → Option FKey
  | .coach c p =>
    match s.pipes.at? (pipeKey c p) with
    | none => none
    | some x => (x.members.find? fun n => !(n ∈ x.served) && !s.isHelper (.fib x.block n)).map fun n => .fib x.block n
  | .ap c =>
    if (s.core c).apOwner.isSome && decide ((s.fib (.ap c)).wait = .ready) && s.blockRuns (s.gangOf (.ap c)).1 then some (.ap c) else none
  | .ctl n => if n < 8 then some (.ctl n) else none

/-! ### Fetch -/

/-- The word at an agent's PC, or the verdict of the first check of R220 that its fetch fails. A control core's PC is a
physical address outside the control window, and its fetch waits where its granule is being zeroed (R416, R418, R421). The word of a fetch that fails is not known: its TINFO[31:0] is 0
(DEDUCED, log 40). -/
def State.fetchWord (s : State) (k : FKey) : Except Verdict W32 :=
  let pc := (s.fib k).pc
  let i := Instr.nop 0
  if pc.toNat % 4 ≠ 0 then .error (.trap (s.trapOf k i 0x12 pc))
  else if s.wordBusy k then .error .stall
  else match k with
    | .ctl _ =>
      if inControl pc.toNat then .error (.trap (s.trapOf k i 0x12 pc))
      else match s.target k .fetch pc with
        | .ok t =>
          if inDram t.pa && s.zeroing.contains (t.pa / 65536) then .error .stall
          else if s.memPoisoned t.pa 4 then .error (.trap (s.trapOf k i 0x30 pc)) else .ok (BitVec.ofNat 32 (s.mem.get t.pa 4))
        | .bad c r => .error (.trap (s.trapOf k i c pc r))
        | .miss => .error .stall
    | k => match s.readVirt k i .fetch 1 pc 4 with
      | .error v => .error v
      | .ok (_, some p) => .error (s.markVerdict k i (.poison p))
      | .ok (bs, none) => .ok (BitVec.ofNat 32 (ofBytes bs))

/-- Live members of the agent of the turn that have still to perform its word. -/
def State.fetchers (s : State) : List FKey := (s.members.getD []).filter fun k => !s.isHelper k && !s.isServed k

/-- A fetch that does not give a word: each member takes what its own fetch meets. -/
def State.noWord (s : State) : State :=
  let vs := s.fetchers.map fun k => (k, match s.fetchWord k with | .error v => v | .ok _ => Verdict.skip)
  let s1 := s.takeVerdicts vs
  if vs.any fun v => v.2.waits then s1.setStalled true else s1.countWord

/-! ### Words that are no instruction (R92, R93) -/

/-- Whether an agent of its kind executes the major and minor of a word (R89, R311, R416). -/
def agentWord (k : FKey) (w : Nat) : Bool :=
  let mj := fieldOf w 31 26
  let mn := fieldOf w 25 23
  match k with
  | .fib _ _ => !(mj = 0x29 && decide (5 ≤ mn))
  | .ap _ =>
    if mj = 0 then mn = 0
    else if mj = 5 then mn = 0 || mn = 5
    else if mj = 0x0B ∨ 0x0E ≤ mj then
      (mj = 0x20 && (mn = 4 || mn = 5) && fieldOf w 22 21 = 0) || (mj = 0x29 && decide (5 ≤ mn))
    else mj ≠ 0x0D || decide (fieldOf w 25 24 ≤ 1)
  | .ctl _ =>
    if mj = 0 then mn ≠ 4 && mn ≠ 5
    else if mj = 5 then mn ∈ [0, 1, 3, 4, 5]
    else if mj = 0x0E then decide (mn ≤ 2)
    else if mj = 0x0B ∨ 0x0F ≤ mj then
      (mj = 0x20 && decide (mn ≤ 5)) || (mj = 0x21 && decide (mn ≤ 3)) || ((mj = 0x25 || mj = 0x26) && w % 8 = 0) || (mj = 0x27 && mn = 0) ||
        (mj = 0x38 && mn = 2) || (mj = 0x3C && decide (mn ≤ 1))
    else mj ≠ 0x0D || decide (fieldOf w 25 24 ≤ 2)

/-- Cause of a refused word (R92, R254). -/
def illCode : Ill → Nat
  | .illOpc => 0x01
  | .illField => 0x02
  | .illOpnd => 0x03
  | .illOrd => 0x04

/-- A word that is no instruction: each live member takes the trap of the first check it fails (R92, R93). -/
def State.illWord (s : State) (w : W32) (e : Ill) : State :=
  let trap := fun (k : FKey) => Verdict.trap
    { cause := if agentWord k w.toNat then illCode e else 0x01, pc := (s.fib k).pc, info := w.setWidth 64 }
  ((s.takeVerdicts (s.fetchers.map fun k => (k, trap k))).dropLines s.fetchers).countWord

/-! ### A word stored where the next step fetches it -/

/-- The page of the code that `withFetchWord` lays down: user, executable, lease class 0, of the device itself. -/
def fetchPte : W64 := 0xFFE00000000100CF

/-- Role of a gang that may execute a word (R89). -/
def roleFor (w : Nat) : Nat :=
  let mj := fieldOf w 31 26
  if mj = 0x29 ∨ mj = 0x2C then 1 else if 0x30 ≤ mj ∧ mj ≤ 0x35 then 2 else 0

/-- Who executes a word: an access processor its own minors, a control core SSCONV, a fibre any other (R89, R91). -/
def agentFor (w : Nat) : Agent :=
  if fieldOf w 31 26 = 0x29 ∧ 5 ≤ fieldOf w 25 23 then .ap 0
  else if fieldOf w 31 26 = 0x38 ∧ fieldOf w 25 23 = 2 then .ctl 0
  else .coach 0 0

/-- Puts a word at physical address 0x1_0000, mapped for partition 0 at the same virtual address, and an agent at it that may
execute it: a fresh block of one fibre in a coach on pipe 0 of core 0, with the access processor of core 0 running for it
where the word is the access processor's, or control core 0. The device is released, and the agenda holds the agent's turn. -/
def State.placeWord (s : State) (w : Nat) : State :=
  let b := s.nextBlock
  let a := agentFor w
  let k : FKey := match a with | .coach _ _ => .fib b 0 | .ap c => .ap c | .ctl n => .ctl n
  let block : Block := { lid := 0, core := 0, regs := 96, roles := roleFor w, order := b }
  { s with
    bootstat := 0x41
    mem := s.mem.put 0x10000 4 w
    poisonLines := s.poisonLines.filter (· ≠ 0x200)
    zeroing := s.zeroing.filter (· ≠ 1)
    tlb1 := s.tlb1.put 0 [{ part := 0, base := 0x10000, size := 16, pte := fetchPte }]
    blocks := s.blocks.put b block
    nextBlock := b + 1
    gangs := s.gangs.put (b, 0) {}
    fibres := (s.fibres.put (.fib b 0) { pc := 0x10000 }).put k { pc := 0x10000 }
    pipes := s.pipes.put 0 { block := b, members := [0], since := s.clock }
    cores := match a with
      | .ap c =>
        ((s.updCtx c 7 fun x => { x with issued := x.issued + 1 }).updCore c fun x =>
          { x with apOwner := some (b, 0, 0, (s.ctx c 7).issued + 1), apStop := false, apHome := none }).cores
      | _ => s.cores
    agenda := [.run a] }

end Sys2Proof.Machine
end

