-- ==== Sys2Proof/Machine/Flags.lean ====
section
/-!
DEFINITION. Machine/Flags.lean: what the compares write into predicates (R172, R174, R200). The architecture has no
flags (R17).
-/

namespace Sys2Proof.Machine

def holdsEq (a b : W32) : Bool := a = b
def holdsNe (a b : W32) : Bool := a ≠ b
/-- a.s < b.s -/
def holdsLt (a b : W32) : Bool := a.slt b
def holdsLe (a b : W32) : Bool := !(b.slt a)
/-- a.n < b.n -/
def holdsLtn (a b : W32) : Bool := a.ult b
def holdsLen (a b : W32) : Bool := !(b.ult a)
def holdsTst (a b : W32) : Bool := a &&& b ≠ 0

/-- Immediate compares: signed but for CMPI.LTN (R172). -/
def holdsIEq (a : W32) (i : BitVec 9) : Bool := holdsEq a (i.signExtend 32)
def holdsILt (a : W32) (i : BitVec 9) : Bool := holdsLt a (i.signExtend 32)
def holdsILtn (a : W32) (i : BitVec 9) : Bool := holdsLtn a (i.setWidth 32)
def holdsILe (a : W32) (i : BitVec 9) : Bool := holdsLe a (i.signExtend 32)

end Sys2Proof.Machine
end

