-- ==== Sys2Proof/Machine/Scalar.lean ====
section
/-!
DEFINITION. Machine/Scalar.lean: IALU.A, IALU.B, IALU.C, IALU.W, IMM, WIDE, MOVE, CMP and PRED (R167-R176).
-/

namespace Sys2Proof.Machine

/-! ### IALU.A (R167) -/
def execAdd (o : R3) (s : State) : Out := compute (.add o) s (lane2 o (· + ·))
def execSub (o : R3) (s : State) : Out := compute (.sub o) s (lane2 o (· - ·))
def execAnd (o : R3) (s : State) : Out := compute (.and o) s (lane2 o (· &&& ·))
def execOr (o : R3) (s : State) : Out := compute (.or o) s (lane2 o (· ||| ·))
def execXor (o : R3) (s : State) : Out := compute (.xor o) s (lane2 o (· ^^^ ·))
def execAndn (o : R3) (s : State) : Out := compute (.andn o) s (lane2 o fun a b => a &&& ~~~b)
def execMin (o : R3) (s : State) : Out := compute (.min o) s (lane2 o minS)
def execMax (o : R3) (s : State) : Out := compute (.max o) s (lane2 o maxS)

/-! ### IALU.B (R168) -/
def execMinn (o : R3) (s : State) : Out := compute (.minn o) s (lane2 o minU)
def execMaxn (o : R3) (s : State) : Out := compute (.maxn o) s (lane2 o maxU)
def execShl (o : R3) (s : State) : Out := compute (.shl o) s (lane2 o shl32)
def execShr (o : R3) (s : State) : Out := compute (.shr o) s (lane2 o shr32)
def execSar (o : R3) (s : State) : Out := compute (.sar o) s (lane2 o sar32)
def execRol (o : R3) (s : State) : Out := compute (.rol o) s (lane2 o rol32)
def execAbsd (o : R3) (s : State) : Out := compute (.absd o) s (lane2 o absd32)
def execBfe (o : R3) (s : State) : Out := compute (.bfe o) s (lane2 o bfe32)

/-! ### IALU.C (R169) -/
def execMul (o : R3) (s : State) : Out := compute (.mul o) s (lane2 o (· * ·))
def execMulh (o : R3) (s : State) : Out := compute (.mulh o) s (lane2 o mulhS)
def execMulhn (o : R3) (s : State) : Out := compute (.mulhn o) s (lane2 o mulhU)
def execMad (o : R3) (s : State) : Out := compute (.mad o) s (lane3 o fun a b d => a * b + d)
def execClz (o : R2) (s : State) : Out := compute (.clz o) s (lane1 o clz32)
def execPopc (o : R2) (s : State) : Out := compute (.popc o) s (lane1 o popc32)
def execBrev (o : R2) (s : State) : Out := compute (.brev o) s (lane1 o brev32)
def execBfi (o : R3) (s : State) : Out := compute (.bfi o) s (lane3 o bfi32)

/-! ### IALU.W (R170) -/
def execAdd64 (o : R3) (s : State) : Out := compute (.add64 o) s (laneW o (· + ·))
def execSub64 (o : R3) (s : State) : Out := compute (.sub64 o) s (laneW o (· - ·))
def execShl64 (o : R3) (s : State) : Out := compute (.shl64 o) s (laneWS o shl64)
def execShr64 (o : R3) (s : State) : Out := compute (.shr64 o) s (laneWS o shr64)
def execMadw (o : R3) (s : State) : Out := compute (.madw o) s (laneMad o madw64)
def execMadws (o : R3) (s : State) : Out := compute (.madws o) s (laneMad o madws64)
def execMov64 (o : R2) (s : State) : Out := compute (.mov64 o) s fun s k => [.wide o.d (s.src64 k o.a)]
def execSext64 (o : R2) (s : State) : Out := compute (.sext64 o) s fun s k => [.wide o.d ((s.src32 k o.a).signExtend 64)]

/-! ### IMM.A, IMM.B (R171) -/
def execAddi (o : RI) (s : State) : Out := compute (.addi o) s (laneI o (· + ·))
def execAndi (o : RI) (s : State) : Out := compute (.andi o) s (laneI o (· &&& ·))
def execOri (o : RI) (s : State) : Out := compute (.ori o) s (laneI o (· ||| ·))
def execXori (o : RI) (s : State) : Out := compute (.xori o) s (laneI o (· ^^^ ·))
def execShli (o : RI) (s : State) : Out := compute (.shli o) s (laneSh o shl32)
def execShri (o : RI) (s : State) : Out := compute (.shri o) s (laneSh o shr32)
def execSari (o : RI) (s : State) : Out := compute (.sari o) s (laneSh o sar32)
def execMuli (o : RI) (s : State) : Out := compute (.muli o) s (laneI o (· * ·))

/-! ### IMM.C (R172) -/
def execCmpiEq (o : PI) (s : State) : Out := compute (.cmpiEq o) s (lanePI o holdsIEq)
def execCmpiLt (o : PI) (s : State) : Out := compute (.cmpiLt o) s (lanePI o holdsILt)
def execCmpiLtn (o : PI) (s : State) : Out := compute (.cmpiLtn o) s (lanePI o holdsILtn)
def execCmpiLe (o : PI) (s : State) : Out := compute (.cmpiLe o) s (lanePI o holdsILe)

/-! ### WIDE (R173) -/
def execLdi (o : WI) (s : State) : Out := compute (.ldi o) s fun _ _ => [.reg o.d (o.imm.signExtend 32)]
def execLdih (o : WI) (s : State) : Out := compute (.ldih o) s fun s k =>
  [.reg o.d ((o.imm.setWidth 32 <<< 14) ||| (s.src32 k o.d &&& 0x3FFF))]

/-! ### CMP (R174) -/
def execCmpEq (o : PR) (s : State) : Out := compute (.cmpEq o) s (laneP o holdsEq)
def execCmpNe (o : PR) (s : State) : Out := compute (.cmpNe o) s (laneP o holdsNe)
def execCmpLt (o : PR) (s : State) : Out := compute (.cmpLt o) s (laneP o holdsLt)
def execCmpLe (o : PR) (s : State) : Out := compute (.cmpLe o) s (laneP o holdsLe)
def execCmpLtn (o : PR) (s : State) : Out := compute (.cmpLtn o) s (laneP o holdsLtn)
def execCmpLen (o : PR) (s : State) : Out := compute (.cmpLen o) s (laneP o holdsLen)
def execTst (o : PR) (s : State) : Out := compute (.tst o) s (laneP o holdsTst)

/-! ### PRED (R175) -/
def execPand (d a b : Pred) (s : State) : Out := compute (.pand d a b) s (laneP3 d a b fun x y => x && y)
def execPor (d a b : Pred) (s : State) : Out := compute (.por d a b) s (laneP3 d a b fun x y => x || y)
def execPxor (d a b : Pred) (s : State) : Out := compute (.pxor d a b) s (laneP3 d a b fun x y => x != y)
def execPandn (d a b : Pred) (s : State) : Out := compute (.pandn d a b) s (laneP3 d a b fun x y => x && !y)
def execPnot (d a : Pred) (s : State) : Out := compute (.pnot d a) s fun s k => [.pred d (!s.pred k a)]
def execPset (d : Pred) (s : State) : Out := compute (.pset d) s fun _ _ => [.pred d true]
def execPclr (d : Pred) (s : State) : Out := compute (.pclr d) s fun _ _ => [.pred d false]

/-! ### MOVE (R176) -/
def execMov (o : R2) (s : State) : Out := compute (.mov o) s (lane1 o id)
def execRdl (d : Reg) (s : State) : Out := compute (.rdl d) s fun s k => [.wide d (s.fib k).lr]
def execBcs (o : R2) (s : State) : Out := compute (.bcs o) s fun s k =>
  [.wide o.d (s.src32 k o.a ++ (s.src64 k o.d).setWidth 32)]
def execRdp (d : Reg) (s : State) : Out := compute (.rdp d) s fun s k => [.reg d ((s.fib k).p.setWidth 32)]
def execWrp (wa : Bool) (a : Reg) (s : State) : Out := compute (.wrp wa a) s fun s k => [.preds ((s.src32 k a).setWidth 16)]
def execSel (wa : Bool) (d a : Reg) (p : Pred) (s : State) : Out := compute (.sel wa d a p) s fun s k =>
  [.reg d (if s.pred k p then s.src32 k a else s.src32 k d)]
def execRdw (d : Reg) (s : State) : Out := compute (.rdw d) s fun s k => [.reg d ((s.fib k).wb.setWidth 32)]

/-- NOP does nothing, whatever its other bits hold (R94). -/
def execNop (b : BitVec 23) (s : State) : Out := compute (.nop b) s fun _ _ => []

end Sys2Proof.Machine
end

