-- ==== Sys2Proof/Machine/Dispatch.lean ====
section
/-!
DEFINITION. Machine/Dispatch.lean: the meaning of every step of the opcode table, one arm each, in the table's order.
-/

namespace Sys2Proof.Machine

def exec (i : Instr) (s : State) : Host.Outcome State Fault Refusal :=
  match i with
  | .nop bits => Sys2Proof.Machine.execNop bits s
  | .trap code => Sys2Proof.Machine.execTrap code s
  | .eret => Sys2Proof.Machine.execEret s
  | .bkpt => Sys2Proof.Machine.execBkpt s
  | .pre idx => Sys2Proof.Machine.execPre idx s
  | .idem r stop => Sys2Proof.Machine.execIdem r stop s
  | .rdsr d n => Sys2Proof.Machine.execRdsr d n s
  | .wrsr d n => Sys2Proof.Machine.execWrsr d n s
  | .add o => Sys2Proof.Machine.execAdd o s
  | .sub o => Sys2Proof.Machine.execSub o s
  | .and o => Sys2Proof.Machine.execAnd o s
  | .or o => Sys2Proof.Machine.execOr o s
  | .xor o => Sys2Proof.Machine.execXor o s
  | .andn o => Sys2Proof.Machine.execAndn o s
  | .min o => Sys2Proof.Machine.execMin o s
  | .max o => Sys2Proof.Machine.execMax o s
  | .minn o => Sys2Proof.Machine.execMinn o s
  | .maxn o => Sys2Proof.Machine.execMaxn o s
  | .shl o => Sys2Proof.Machine.execShl o s
  | .shr o => Sys2Proof.Machine.execShr o s
  | .sar o => Sys2Proof.Machine.execSar o s
  | .rol o => Sys2Proof.Machine.execRol o s
  | .absd o => Sys2Proof.Machine.execAbsd o s
  | .bfe o => Sys2Proof.Machine.execBfe o s
  | .mul o => Sys2Proof.Machine.execMul o s
  | .mulh o => Sys2Proof.Machine.execMulh o s
  | .mulhn o => Sys2Proof.Machine.execMulhn o s
  | .mad o => Sys2Proof.Machine.execMad o s
  | .clz o => Sys2Proof.Machine.execClz o s
  | .popc o => Sys2Proof.Machine.execPopc o s
  | .brev o => Sys2Proof.Machine.execBrev o s
  | .bfi o => Sys2Proof.Machine.execBfi o s
  | .add64 o => Sys2Proof.Machine.execAdd64 o s
  | .sub64 o => Sys2Proof.Machine.execSub64 o s
  | .shl64 o => Sys2Proof.Machine.execShl64 o s
  | .shr64 o => Sys2Proof.Machine.execShr64 o s
  | .madw o => Sys2Proof.Machine.execMadw o s
  | .madws o => Sys2Proof.Machine.execMadws o s
  | .mov64 o => Sys2Proof.Machine.execMov64 o s
  | .sext64 o => Sys2Proof.Machine.execSext64 o s
  | .mov o => Sys2Proof.Machine.execMov o s
  | .rdl d => Sys2Proof.Machine.execRdl d s
  | .bcs o => Sys2Proof.Machine.execBcs o s
  | .rdp d => Sys2Proof.Machine.execRdp d s
  | .wrp wa a => Sys2Proof.Machine.execWrp wa a s
  | .sel wa d a p => Sys2Proof.Machine.execSel wa d a p s
  | .rdw d => Sys2Proof.Machine.execRdw d s
  | .addi o => Sys2Proof.Machine.execAddi o s
  | .andi o => Sys2Proof.Machine.execAndi o s
  | .ori o => Sys2Proof.Machine.execOri o s
  | .xori o => Sys2Proof.Machine.execXori o s
  | .shli o => Sys2Proof.Machine.execShli o s
  | .shri o => Sys2Proof.Machine.execShri o s
  | .sari o => Sys2Proof.Machine.execSari o s
  | .muli o => Sys2Proof.Machine.execMuli o s
  | .cmpiEq o => Sys2Proof.Machine.execCmpiEq o s
  | .cmpiLt o => Sys2Proof.Machine.execCmpiLt o s
  | .cmpiLtn o => Sys2Proof.Machine.execCmpiLtn o s
  | .cmpiLe o => Sys2Proof.Machine.execCmpiLe o s
  | .ldi o => Sys2Proof.Machine.execLdi o s
  | .ldih o => Sys2Proof.Machine.execLdih o s
  | .cmpEq o => Sys2Proof.Machine.execCmpEq o s
  | .cmpNe o => Sys2Proof.Machine.execCmpNe o s
  | .cmpLt o => Sys2Proof.Machine.execCmpLt o s
  | .cmpLe o => Sys2Proof.Machine.execCmpLe o s
  | .cmpLtn o => Sys2Proof.Machine.execCmpLtn o s
  | .cmpLen o => Sys2Proof.Machine.execCmpLen o s
  | .tst o => Sys2Proof.Machine.execTst o s
  | .fcmpEq o => Sys2Proof.Machine.execFcmpEq o s
  | .fcmpLt o => Sys2Proof.Machine.execFcmpLt o s
  | .fcmpLe o => Sys2Proof.Machine.execFcmpLe o s
  | .fcmpUn o => Sys2Proof.Machine.execFcmpUn o s
  | .pand d a b => Sys2Proof.Machine.execPand d a b s
  | .por d a b => Sys2Proof.Machine.execPor d a b s
  | .pxor d a b => Sys2Proof.Machine.execPxor d a b s
  | .pandn d a b => Sys2Proof.Machine.execPandn d a b s
  | .pnot d a => Sys2Proof.Machine.execPnot d a s
  | .pset d => Sys2Proof.Machine.execPset d s
  | .pclr d => Sys2Proof.Machine.execPclr d s
  | .brp neg p off => Sys2Proof.Machine.execBrp neg p off s
  | .bra off => Sys2Proof.Machine.execBra off s
  | .call off => Sys2Proof.Machine.execCall off s
  | .jmpr wa a => Sys2Proof.Machine.execJmpr wa a s
  | .callr wa a => Sys2Proof.Machine.execCallr wa a s
  | .ret => Sys2Proof.Machine.execRet s
  | .reconv => Sys2Proof.Machine.execReconv s
  | .fork o => Sys2Proof.Machine.execFork o s
  | .endF => Sys2Proof.Machine.execEnd s
  | .wbase n => Sys2Proof.Machine.execWbase n s
  | .trl o => Sys2Proof.Machine.execTrl o s
  | .fadd o => Sys2Proof.Machine.execFadd o s
  | .fsub o => Sys2Proof.Machine.execFsub o s
  | .fmul o => Sys2Proof.Machine.execFmul o s
  | .ffma o => Sys2Proof.Machine.execFfma o s
  | .fmin o => Sys2Proof.Machine.execFmin o s
  | .fmax o => Sys2Proof.Machine.execFmax o s
  | .fabs o => Sys2Proof.Machine.execFabs o s
  | .fneg o => Sys2Proof.Machine.execFneg o s
  | .fclass o => Sys2Proof.Machine.execFclass o s
  | .frndN o => Sys2Proof.Machine.execFrndN o s
  | .frndZ o => Sys2Proof.Machine.execFrndZ o s
  | .frndD o => Sys2Proof.Machine.execFrndD o s
  | .frndU o => Sys2Proof.Machine.execFrndU o s
  | .fscale o => Sys2Proof.Machine.execFscale o s
  | .cvtFS o => Sys2Proof.Machine.execCvtFS o s
  | .cvtSF o => Sys2Proof.Machine.execCvtSF o s
  | .cvtFN o => Sys2Proof.Machine.execCvtFN o s
  | .cvtNF o => Sys2Proof.Machine.execCvtNF o s
  | .packH2 o => Sys2Proof.Machine.execPackH2 o s
  | .packB2 o => Sys2Proof.Machine.execPackB2 o s
  | .unpkH o => Sys2Proof.Machine.execUnpkH o s
  | .unpkB o => Sys2Proof.Machine.execUnpkB o s
  | .packE4 o => Sys2Proof.Machine.execPackE4 o s
  | .packE5 o => Sys2Proof.Machine.execPackE5 o s
  | .unpkE4 o => Sys2Proof.Machine.execUnpkE4 o s
  | .unpkE5 o => Sys2Proof.Machine.execUnpkE5 o s
  | .packI8 o => Sys2Proof.Machine.execPackI8 o s
  | .unpkI8 o => Sys2Proof.Machine.execUnpkI8 o s
  | .qscale o => Sys2Proof.Machine.execQscale o s
  | .qpack o => Sys2Proof.Machine.execQpack o s
  | .qunpk o => Sys2Proof.Machine.execQunpk o s
  | .rcp o => Sys2Proof.Machine.execRcp o s
  | .rsq o => Sys2Proof.Machine.execRsq o s
  | .sqrt o => Sys2Proof.Machine.execSqrt o s
  | .div o => Sys2Proof.Machine.execDiv o s
  | .act o t => Sys2Proof.Machine.execAct o t s
  | .actld wa a t => Sys2Proof.Machine.execActld wa a t s
  | .actsw t => Sys2Proof.Machine.execActsw t s
  | .qxh o => Sys2Proof.Machine.execQxh o s
  | .qxv o => Sys2Proof.Machine.execQxv o s
  | .qxd o => Sys2Proof.Machine.execQxd o s
  | .qbc o => Sys2Proof.Machine.execQbc o s
  | .qadd o => Sys2Proof.Machine.execQadd o s
  | .qmax o => Sys2Proof.Machine.execQmax o s
  | .qmin o => Sys2Proof.Machine.execQmin o s
  | .qhlp p => Sys2Proof.Machine.execQhlp p s
  | .shflIdx o => Sys2Proof.Machine.execShflIdx o s
  | .shflUp o => Sys2Proof.Machine.execShflUp o s
  | .shflDn o => Sys2Proof.Machine.execShflDn o s
  | .shflXor o => Sys2Proof.Machine.execShflXor o s
  | .bcast o => Sys2Proof.Machine.execBcast o s
  | .voteAny d a => Sys2Proof.Machine.execVoteAny d a s
  | .voteAll d a => Sys2Proof.Machine.execVoteAll d a s
  | .ballot d a => Sys2Proof.Machine.execBallot d a s
  | .gredFadd o => Sys2Proof.Machine.execGredFadd o s
  | .gredIadd o => Sys2Proof.Machine.execGredIadd o s
  | .gredFmax o => Sys2Proof.Machine.execGredFmax o s
  | .gredFmin o => Sys2Proof.Machine.execGredFmin o s
  | .gscanFadd o => Sys2Proof.Machine.execGscanFadd o s
  | .gscanIadd o => Sys2Proof.Machine.execGscanIadd o s
  | .matchV o => Sys2Proof.Machine.execMatchV o s
  | .ld o => Sys2Proof.Machine.execLd o s
  | .st o => Sys2Proof.Machine.execSt o s
  | .lds o => Sys2Proof.Machine.execLds o s
  | .sts o => Sys2Proof.Machine.execSts o s
  | .ldc o => Sys2Proof.Machine.execLdc o s
  | .stc o => Sys2Proof.Machine.execStc o s
  | .stcMd o => Sys2Proof.Machine.execStcMd o s
  | .aadd o => Sys2Proof.Machine.execAadd o s
  | .afadd o => Sys2Proof.Machine.execAfadd o s
  | .amin o => Sys2Proof.Machine.execAmin o s
  | .amax o => Sys2Proof.Machine.execAmax o s
  | .aminn o => Sys2Proof.Machine.execAminn o s
  | .amaxn o => Sys2Proof.Machine.execAmaxn o s
  | .aand o => Sys2Proof.Machine.execAand o s
  | .aor o => Sys2Proof.Machine.execAor o s
  | .axor o => Sys2Proof.Machine.execAxor o s
  | .axch o => Sys2Proof.Machine.execAxch o s
  | .acas o => Sys2Proof.Machine.execAcas o s
  | .ainc o => Sys2Proof.Machine.execAinc o s
  | .aadd64 o => Sys2Proof.Machine.execAadd64 o s
  | .acas64 o => Sys2Proof.Machine.execAcas64 o s
  | .axch64 o => Sys2Proof.Machine.execAxch64 o s
  | .ahadd o => Sys2Proof.Machine.execAhadd o s
  | .fence o => Sys2Proof.Machine.execFence o s
  | .cflush => Sys2Proof.Machine.execCflush s
  | .bar o => Sys2Proof.Machine.execBar o s
  | .arrive o => Sys2Proof.Machine.execArrive o s
  | .arriveBk o => Sys2Proof.Machine.execArriveBk o s
  | .rfence => Sys2Proof.Machine.execRfence s
  | .invl1 => Sys2Proof.Machine.execInvl1 s
  | .twph o => Sys2Proof.Machine.execTwph o s
  | .twtl wb p t b => Sys2Proof.Machine.execTwtl wb p t b s
  | .twge o => Sys2Proof.Machine.execTwge o s
  | .tlrd d t => Sys2Proof.Machine.execTlrd d t s
  | .apgo o => Sys2Proof.Machine.execApgo o s
  | .apstop => Sys2Proof.Machine.execApstop s
  | .qstat d q => Sys2Proof.Machine.execQstat d q s
  | .qdrain q => Sys2Proof.Machine.execQdrain q s
  | .qbind wa a q => Sys2Proof.Machine.execQbind wa a q s
  | .qreq o => Sys2Proof.Machine.execQreq o s
  | .qwr o => Sys2Proof.Machine.execQwr o s
  | .apend => Sys2Proof.Machine.execApend s
  | .pfL1 o => Sys2Proof.Machine.execPfL1 o s
  | .pfL2 o => Sys2Proof.Machine.execPfL2 o s
  | .tcpy o => Sys2Proof.Machine.execTcpy o s
  | .tgath o => Sys2Proof.Machine.execTgath o s
  | .tscat o => Sys2Proof.Machine.execTscat o s
  | .tfill o => Sys2Proof.Machine.execTfill o s
  | .tred o => Sys2Proof.Machine.execTred o s
  | .mmaR o => Sys2Proof.Machine.execMmaR o s
  | .mmaS o => Sys2Proof.Machine.execMmaS o s
  | .mmapR o => Sys2Proof.Machine.execMmapR o s
  | .mmapS o => Sys2Proof.Machine.execMmapS o s
  | .mxacq => Sys2Proof.Machine.execMxacq s
  | .mxrel => Sys2Proof.Machine.execMxrel s
  | .mxdrain o => Sys2Proof.Machine.execMxdrain o s
  | .mxzero d idx => Sys2Proof.Machine.execMxzero d idx s
  | .mxacqP => Sys2Proof.Machine.execMxacqP s
  | .mxrelP => Sys2Proof.Machine.execMxrelP s
  | .mxstat d => Sys2Proof.Machine.execMxstat d s
  | .cralloc d a => Sys2Proof.Machine.execCralloc d a s
  | .crload o => Sys2Proof.Machine.execCrload o s
  | .crldv o => Sys2Proof.Machine.execCrldv o s
  | .crpin a => Sys2Proof.Machine.execCrpin a s
  | .crunpin a => Sys2Proof.Machine.execCrunpin a s
  | .crfree a => Sys2Proof.Machine.execCrfree a s
  | .crstat d a => Sys2Proof.Machine.execCrstat d a s
  | .crdetach a => Sys2Proof.Machine.execCrdetach a s
  | .bxc o => Sys2Proof.Machine.execBxc o s
  | .rdx d a => Sys2Proof.Machine.execRdx d a s
  | .ssconv o => Sys2Proof.Machine.execSsconv o s
  | .devid d a => Sys2Proof.Machine.execDevid d a s
  | .wlease o => Sys2Proof.Machine.execWlease o s
  | .wrenew o => Sys2Proof.Machine.execWrenew o s
  | .wdrop a => Sys2Proof.Machine.execWdrop a s
  | .cstat d => Sys2Proof.Machine.execCstat d s
  | .launch o => Sys2Proof.Machine.execLaunch o s
  | .lqstat o => Sys2Proof.Machine.execLqstat o s
  | .tryWaitHintExpiry => Sys2Proof.Machine.execTryWaitHintExpiry s
  | .queueEntryFilled => Sys2Proof.Machine.execQueueEntryFilled s
  | .trolleyChunkDelivered => Sys2Proof.Machine.execTrolleyChunkDelivered s
  | .trolleyOperationComplete => Sys2Proof.Machine.execTrolleyOperationComplete s
  | .carriageLoadComplete => Sys2Proof.Machine.execCarriageLoadComplete s
  | .accumulatorAbsorb => Sys2Proof.Machine.execAccumulatorAbsorb s
  | .drainTilePerform => Sys2Proof.Machine.execDrainTilePerform s
  | .sum => Sys2Proof.Machine.execSum s
  | .axpy => Sys2Proof.Machine.execAxpy s
  | .maxv => Sys2Proof.Machine.execMaxv s
  | .copy => Sys2Proof.Machine.execCopy s
  | .fill => Sys2Proof.Machine.execFill s
  | .aop => Sys2Proof.Machine.execAop s
  | .waitflag => Sys2Proof.Machine.execWaitflag s
  | .setflag => Sys2Proof.Machine.execSetflag s
  | .waitflagLimitExpiry => Sys2Proof.Machine.execWaitflagLimitExpiry s
  | .bankCommandComplete => Sys2Proof.Machine.execBankCommandComplete s
  | .bankDrainApply => Sys2Proof.Machine.execBankDrainApply s
  | .stackReduction => Sys2Proof.Machine.execStackReduction s
  | .sqpeakRead => Sys2Proof.Machine.execSqpeakRead s
  | .sqspillRead => Sys2Proof.Machine.execSqspillRead s
  | .registerFill => Sys2Proof.Machine.execRegisterFill s
  | .coachForm => Sys2Proof.Machine.execCoachForm s
  | .reconvWindowExpiry => Sys2Proof.Machine.execReconvWindowExpiry s
  | .timerExpiry => Sys2Proof.Machine.execTimerExpiry s
  | .faultServiceMap => Sys2Proof.Machine.execFaultServiceMap s
  | .faultServiceReject => Sys2Proof.Machine.execFaultServiceReject s
  | .parkTimeout => Sys2Proof.Machine.execParkTimeout s
  | .nativeSwitchOut => Sys2Proof.Machine.execNativeSwitchOut s
  | .launchDependenceMet => Sys2Proof.Machine.execLaunchDependenceMet s
  | .blockPlace => Sys2Proof.Machine.execBlockPlace s
  | .stopDeadline => Sys2Proof.Machine.execStopDeadline s
  | .blockSave => Sys2Proof.Machine.execBlockSave s
  | .blockRestore => Sys2Proof.Machine.execBlockRestore s
  | .blockRetire => Sys2Proof.Machine.execBlockRetire s
  | .rollback => Sys2Proof.Machine.execRollback s
  | .debugStop => Sys2Proof.Machine.execDebugStop s
  | .debugRegisterWrite => Sys2Proof.Machine.execDebugRegisterWrite s
  | .debugRelease => Sys2Proof.Machine.execDebugRelease s
  | .actTableLoadDone => Sys2Proof.Machine.execActTableLoadDone s
  | .tlbWalkComplete => Sys2Proof.Machine.execTlbWalkComplete s
  | .sliceRequestAccept => Sys2Proof.Machine.execSliceRequestAccept s
  | .spillReturn => Sys2Proof.Machine.execSpillReturn s
  | .homeWritePerform => Sys2Proof.Machine.execHomeWritePerform s
  | .wayGroupConverted => Sys2Proof.Machine.execWayGroupConverted s
  | .wayGroupRestored => Sys2Proof.Machine.execWayGroupRestored s
  | .scrubStep => Sys2Proof.Machine.execScrubStep s
  | .thermLt1 => Sys2Proof.Machine.execThermLt1 s
  | .thermLt2 => Sys2Proof.Machine.execThermLt2 s
  | .thermLt3 => Sys2Proof.Machine.execThermLt3 s
  | .thermActionEnd => Sys2Proof.Machine.execThermActionEnd s
  | .thermctlWrite => Sys2Proof.Machine.execThermctlWrite s
  | .powerClockStep => Sys2Proof.Machine.execPowerClockStep s
  | .cartAgeExpiry => Sys2Proof.Machine.execCartAgeExpiry s
  | .cartSend => Sys2Proof.Machine.execCartSend s
  | .elementStatus => Sys2Proof.Machine.execElementStatus s
  | .packetArrival => Sys2Proof.Machine.execPacketArrival s
  | .transitForward => Sys2Proof.Machine.execTransitForward s
  | .linkReplay => Sys2Proof.Machine.execLinkReplay s
  | .e2eAck => Sys2Proof.Machine.execE2eAck s
  | .e2eTimeout => Sys2Proof.Machine.execE2eTimeout s
  | .portFailure => Sys2Proof.Machine.execPortFailure s
  | .peerRejoin => Sys2Proof.Machine.execPeerRejoin s
  | .writeLeaseExpiry => Sys2Proof.Machine.execWriteLeaseExpiry s
  | .holderLeaseExpiry => Sys2Proof.Machine.execHolderLeaseExpiry s
  | .orphanClear => Sys2Proof.Machine.execOrphanClear s
  | .powerOn => Sys2Proof.Machine.execPowerOn s
  | .hostDoorbell => Sys2Proof.Machine.execHostDoorbell s
  | .cxlMemRead => Sys2Proof.Machine.execCxlMemRead s
  | .cxlMemWrite => Sys2Proof.Machine.execCxlMemWrite s
  | .attestReport => Sys2Proof.Machine.execAttestReport s
  | .attestCertificate => Sys2Proof.Machine.execAttestCertificate s
  | .partcfgWrite => Sys2Proof.Machine.execPartcfgWrite s
  | .shadowUndoDrainDone => Sys2Proof.Machine.execShadowUndoDrainDone s
  | .fotEntryWrite => Sys2Proof.Machine.execFotEntryWrite s
  | .granuleZeroingDone => Sys2Proof.Machine.execGranuleZeroingDone s
  | .controlWindowWrite => Sys2Proof.Machine.execControlWindowWrite s
  | .ethernetFrame => Sys2Proof.Machine.execEthernetFrame s
  | .contextSwitchRequest => Sys2Proof.Machine.execContextSwitchRequest s
  | .tlbInvalidation => Sys2Proof.Machine.execTlbInvalidation s

end Sys2Proof.Machine
end

