-- ==== Sys2Proof/Machine/Turn.lean ====
section
/-!
DEFINITION. Machine/Turn.lean: what one turn does: an agent executes the word at its PC (R92, R139, R179), a unit or the
outside world takes a step, time passes where nothing must happen first (R14, R120, R154, R162, R289, R316, R399) and no timer runs out, the host writes its memory (R272), a word becomes uncorrectable (R278, R351), control firmware
extends a measurement (R423); and what follows of itself.
-/

namespace Sys2Proof.Machine

/-- A next state, with what comes about of itself; a fault or refusal as it is. -/
def closed (o : Out) : Out :=
  match o with
  | .next s => .next s.follow
  | .fault f => .fault f
  | .refused r => .refused r

/-- An agent executes the word at its PC (R92, R139, R179, R311, R416). -/
def runAgent (a : Agent) (s : State) : Out :=
  if s.inReset a then .fault .heldInReset
  else match s.runner a with
    | none => .refused (.notEnabled "RUN")
    | some k =>
      let s1 := { s with agent := some a }
      match a with
      | .ap c => if (s.core c).apStop then .next (s.endAp c) else runWord k s1
      | _ => runWord k s1
where
  /-- Fetch, decode and execution of the word at the PC of `k`. -/
  runWord (k : FKey) (s : State) : Out :=
    match s.fetchWord k with
    | .error _ => .next s.noWord
    | .ok w => match decode w with
      | .ok i => exec i s
      | .error e => .next (s.illWord w e)

/-! ### What must happen before time passes -/

/-- The timers that stand, each as the step that runs it out: of carts, flows and leases (R398, R403, R405 to R407), of gangs and
fibres (R158, R239, R256, R262), of stops and partitions (R256, R258), of flags that commands wait for (R376) and of a die's
power, whose reading is CAP where the agenda gives none (R427; DESIGN CHOICE, log 62). -/
def State.timers (s : State) : List (Instr × StepArgs) :=
  let die := fun (d : Nat) => (Instr.powerClockStep, { unit := d, word := BitVec.ofNat 64 (s.die d).cap }) ::
    (s.die d).carts.map fun c => (Instr.cartAgeExpiry, ({ unit := d, item := c.dest } : StepArgs))
  let fibre := fun (x : FKey × Fibre) => match x.1 with
    | .fib b _ => [(Instr.tryWaitHintExpiry, ({ fibre := x.1 } : StepArgs)), (.parkTimeout, { fibre := x.1 }),
        (.reconvWindowExpiry, { unit := b, sub := (s.gangOf x.1).2, word := x.2.pc })]
    | _ => []
  let all : List (List (Instr × StepArgs)) :=
    [[0, 1, 2, 3].flatMap die, s.flows.map fun x => (.e2eTimeout, { item := x.1.1, sub := x.1.2 }),
      s.heldLeases.map fun x => (.holderLeaseExpiry, { item := x.1 }), s.homeLeases.map fun x => (.writeLeaseExpiry, { unit := x.1 }),
      s.gangs.map fun x => (.timerExpiry, { unit := x.1.1, sub := x.1.2 }), s.fibres.flatMap fibre,
      s.blocks.map fun x => (.stopDeadline, { item := x.1 }), s.partitions.map fun x => (.nativeSwitchOut, { unit := x.1 }),
      s.banks.flatMap fun x => [(.waitflagLimitExpiry, { unit := x.1 }), (.waitflagLimitExpiry, { unit := x.1, sub := 1 })]]
  all.flatten

/-- The step of a timer that has run out. -/
def State.expired (s : State) : Option Turn :=
  (s.timers.find? fun x => match exec x.1 { s with agent := none, args := x.2 } with
    | .next _ => true
    | _ => false).map fun x => .event x.1 x.2

/-- The coach whose next word is due before time `clock`: an instruction takes at most two cycles on its pipe (R154), so one that can
execute its word has not stood at it for longer. A word that would only stall is not due. -/
def State.lateWord (s : State) (clock : Nat) : Option Turn :=
  (s.pipes.find? fun x =>
    let a := Agent.coach (x.1 / 4) (x.1 % 4)
    let f := (s.die (dieOf (x.1 / 4))).curClk
    !x.2.stalled && decide (x.2.since + (2000 + f - 1) / f < clock) && match runAgent a s with
      | .next t => !((t.pipes.at? x.1).any fun c => c.stalled && decide (c.served = x.2.served))
      | _ => false).map fun x => .run (.coach (x.1 / 4) (x.1 % 4))

/-- A cart that must be sent before time `clock`, where it can be. -/
def State.lateCart (s : State) (clock : Nat) : Option Turn :=
  ((s.lateCarts clock).find? fun d => match execCartSend { s with agent := none, args := { unit := d } } with
    | .next _ => true
    | _ => false).map fun d => .event .cartSend { unit := d }

/-- What must happen before `ns` nanoseconds pass: what is late at their end, and the timers that run out before it. -/
def State.due (s : State) (ns : Nat) : Option Turn :=
  let t := s.clock + ns
  [s.lateWord t, s.lateRead t, s.lateGroup t, s.lateElement t, s.lateCart t, s.lateFibre (s.passTime ns), (s.passTime (ns - 1)).expired].findSome? id

/-- A request that waits at its home for the end of another holder's write lease is excused from its bound, which starts again
(R399, R406). -/
def State.excuse (s : State) (id : Nat) (on : Bool) : Option State :=
  if s.reqs.any fun r => decide (r.id = id) && r.away then some (s.setReq id fun r => { r with excused := on, sentAt := if on then r.sentAt else s.clock }) else none

/-- A turn that may not be possible. -/
def perhaps (name : String) : Option State → Out
  | some t => .next t
  | none => .refused (.notEnabled name)

/-- What happens where the agenda names nothing: the first coach that does not stall executes its word, or what must happen
before 1 ns passes, or it passes (DESIGN CHOICE, log 1). -/
def State.defaultTurn (s : State) : Turn :=
  match s.pipes.find? fun x => !x.2.stalled with
  | some (p, _) => .run (.coach (p / 4) (p % 4))
  | none => (s.due 1).getD (.tick 1)

/-- Takes one turn. -/
def turn (t : Turn) (s : State) : Out :=
  match t with
  | .tick ns => if (s.due ns).isSome then .refused (.notEnabled "TICK") else .next (s.passTime ns).unstall
  | .run a => runAgent a s
  | .event i x => if i.isEvent then exec i { s.unstall with agent := none, args := x } else .refused .noAgent
  | .hostMem a bs => perhaps "HOST_MEMORY" (s.hostStore a bs)
  | .upset u => perhaps "UPSET" (s.upset u)
  | .veil on => .next (s.setVeil on)
  | .observe id p => perhaps "OBSERVE" (s.observes id p)
  | .late id => perhaps "LATE" (s.takeLate id)
  | .reserve id n => perhaps "RESERVE" (s.reserves id n)
  | .excuse id on => perhaps "EXCUSE" (s.excuse id on)
  | .writeBack key line => perhaps "WRITE_BACK" (s.writeLineBack key line)
  | .bindPort n d => perhaps "BIND_PORT" (s.bindPort n d)
  | .mailbox m off bs => perhaps "MAILBOX" (s.mailboxWrite m off bs)
  | .ethTake n => perhaps "ETHERNET_TAKE" (s.ethTake n)
  | .ethSend n p f => perhaps "ETHERNET_SEND" (s.ethSend n p f)
  | .ethLeave n p => perhaps "ETHERNET_LEAVE" (s.ethLeave n p)
  | .ethPause n p d on => perhaps "ETHERNET_PAUSE" (s.ethPause n p d on)
  | .extendMr n im => perhaps "EXTEND_MR" (s.firmwareMeasure n im)

end Sys2Proof.Machine
end

