-- ==== Sys2Proof/Machine/Step.lean ====
section
/-!
DEFINITION. Machine/Step.lean: one step of the machine. The agenda, plain data of the model, says whose turn it is (DESIGN CHOICE, log 1).
-/

namespace Sys2Proof.Machine

/-- One step: the head of the agenda, or the default turn where it is empty. -/
def step (s : State) : Host.Outcome State Fault Refusal :=
  match s.agenda with
  | [] => closed (turn s.defaultTurn s)
  | t :: r => closed (turn t { s with agenda := r })

/-- `s` with an instruction word placed where `step` fetches it next (DESIGN CHOICE, log 61). -/
def State.withFetchWord (s : State) (nbits w : Nat) : State := s.placeWord (w % 2 ^ nbits)

end Sys2Proof.Machine
end

