-- ==== Sys2Proof/WellFormed.lean ====
section
/-!
DEFINITION. WellFormed.lean: what an instruction word must satisfy whatever executes it: its fields have an encoding (R71, R79,
R344), each slot admits what it names (R74, R76, R78), its order, scope and use class are a row of R82.
-/

namespace Sys2Proof

/-- Shift immediates are 0 to 31 (R79). -/
def Instr.shiftOk : Instr → Bool
  | .shli o | .shri o | .sari o => decide (o.imm.toNat < 32)
  | _ => true

/-- BSEL is 0 where A carries no scale (R344). -/
def Instr.bselOk : Instr → Bool
  | .mmaR o | .mmapR o => decide (o.bsel = 0) || (o.fmt != .i8i8 && o.fmt != .bfbf)
  | _ => true

/-- Whether an instruction has a word that decodes to it. -/
def Instr.wordOk (i : Instr) : Bool := !i.isEvent && i.shiftOk && i.bselOk

/-- Every slot admits what its field names (R74, R78). -/
def Instr.classesOk (i : Instr) : Bool := i.slots.all Slot.admits

/-- No temporary is the destination of a long-latency or run-ending word (R76). -/
def Instr.tempsOk (i : Instr) : Bool :=
  !(i.longLatency || i.runEnding) || i.slots.all fun t => !t.wr || (match t.reg with | .k _ => false | _ => true)

/-- A well-formed instruction word. -/
def Instr.wf (i : Instr) : Bool := i.wordOk && i.classesOk && i.tempsOk && i.ordOk

end Sys2Proof
end

