-- ==== Sys2Proof/Laws/Encode.lean ====
section
/-!
SUPPORT. Laws/Encode.lean: the fields of an encoded word read back, format by format (R71).
-/

namespace Sys2Proof

@[simp] theorem bitOf_le (b : Bool) : bitOf b ≤ 1 := by cases b <;> simp [bitOf]
@[simp] theorem bitOf_beq_one (b : Bool) : (bitOf b == 1) = b := by cases b <;> rfl
@[simp] theorem bitOf_eq_one (b : Bool) : decide (bitOf b = 1) = b := by cases b <;> rfl
theorem bitOf_lt (b : Bool) : bitOf b < 2 := by cases b <;> simp [bitOf]

@[simp] theorem pred_lt (p : Pred) : p.toNat < 16 := p.isLt

theorem Reg.field_lt (r : Reg) : r.field < 128 := by
  cases r <;> simp [Reg.field] <;> omega

@[simp] theorem Reg.ofField_field (r : Reg) : Reg.ofField r.field = r := by
  cases r with
  | v n => simp [Reg.field, Reg.ofField]
  | s n => revert n; decide
  | k n => revert n; decide
  | q n => revert n; decide
  | z => rfl
  | id => rfl

@[simp] theorem Order.ofField_field (o : Order) : Order.ofField o.field = o := by cases o <;> rfl
@[simp] theorem Scope.ofField_field (o : Scope) : Scope.ofField o.field = some o := by cases o <;> rfl
@[simp] theorem Use.ofField_field (o : Use) : Use.ofField o.field = some o := by cases o <;> rfl
@[simp] theorem Hint.ofField_field (o : Hint) : Hint.ofField o.field = o := by cases o <;> rfl
@[simp] theorem FFmt.ofField_field (o : FFmt) : FFmt.ofField o.field = some o := by cases o <;> rfl
@[simp] theorem LdW.ofField_field (o : LdW) : LdW.ofField o.field = o := by cases o <;> rfl
@[simp] theorem StW.ofField_field (o : StW) : StW.ofField o.field = some o := by cases o <;> rfl
@[simp] theorem MFmt.ofField_field (o : MFmt) : MFmt.ofField o.field = some o := by cases o <;> rfl

theorem Order.field_lt (o : Order) : o.field < 4 := by cases o <;> simp [Order.field]
theorem Scope.field_lt (o : Scope) : o.field < 16 := by cases o <;> simp [Scope.field]
theorem Use.field_lt (o : Use) : o.field < 8 := by cases o <;> simp [Use.field]
theorem Hint.field_lt (o : Hint) : o.field < 4 := by cases o <;> simp [Hint.field]
theorem FFmt.field_lt (o : FFmt) : o.field < 8 := by cases o <;> simp [FFmt.field]
theorem LdW.field_lt (o : LdW) : o.field < 8 := by cases o <;> simp [LdW.field]
theorem StW.field_lt (o : StW) : o.field < 8 := by cases o <;> simp [StW.field]
theorem MFmt.field_lt (o : MFmt) : o.field < 8 := by cases o <;> simp [MFmt.field]

/-! ### Formats R and MX -/

theorem encR_lt {maj mn : Nat} {wa wb : Bool} {d a b : Nat} (hm : maj < 64) (hn : mn < 8) (hd : d < 128) (ha : a < 128) (hb : b < 128) :
    encR maj mn wa wb d a b < 2 ^ 32 := by
  have := bitOf_lt wa; have := bitOf_lt wb
  simp only [encR]; omega

theorem encR_maj {maj mn : Nat} {wa wb : Bool} {d a b : Nat} (hm : maj < 64) (hn : mn < 8) (hd : d < 128) (ha : a < 128) (hb : b < 128) :
    fieldOf (encR maj mn wa wb d a b) 31 26 = maj := by
  have := bitOf_lt wa; have := bitOf_lt wb
  simp only [fieldOf, encR]; omega

theorem encR_mn {maj mn : Nat} {wa wb : Bool} {d a b : Nat} (hn : mn < 8) (hd : d < 128) (ha : a < 128) (hb : b < 128) :
    fieldOf (encR maj mn wa wb d a b) 25 23 = mn := by
  have := bitOf_lt wa; have := bitOf_lt wb
  simp only [fieldOf, encR]; omega

theorem encR_raw {maj mn : Nat} {wa wb : Bool} {d a b : Nat} (hd : d < 128) (ha : a < 128) (hb : b < 128) :
    rawR (encR maj mn wa wb d a b) = ⟨wa, wb, d, a, b⟩ := by
  have h1 := bitOf_lt wa; have h2 := bitOf_lt wb
  have e1 : fieldOf (encR maj mn wa wb d a b) 22 22 = bitOf wa := by simp only [fieldOf, encR]; omega
  have e2 : fieldOf (encR maj mn wa wb d a b) 21 21 = bitOf wb := by simp only [fieldOf, encR]; omega
  have e3 : fieldOf (encR maj mn wa wb d a b) 20 14 = d := by simp only [fieldOf, encR]; omega
  have e4 : fieldOf (encR maj mn wa wb d a b) 13 7 = a := by simp only [fieldOf, encR]; omega
  have e5 : fieldOf (encR maj mn wa wb d a b) 6 0 = b := by simp only [fieldOf, encR]; omega
  simp [rawR, e1, e2, e3, e4, e5]

/-- The word of format R is decoded by its major and minor from its raw fields. -/
theorem decode_encR (maj mn : Nat) (wa wb : Bool) (d a b : Nat) (hm : maj < 64) (hn : mn < 8) (hd : d < 128) (ha : a < 128) (hb : b < 128)
    (f : Nat → RawR → Nat → Except Ill Instr) (hf : ∀ w, fieldOf w 31 26 = maj → decodeNat w = f (fieldOf w 25 23) (rawR w) w) :
    decode (BitVec.ofNat 32 (encR maj mn wa wb d a b)) = f mn ⟨wa, wb, d, a, b⟩ (encR maj mn wa wb d a b) := by
  rw [decode, BitVec.toNat_ofNat, Nat.mod_eq_of_lt (encR_lt hm hn hd ha hb), hf _ (encR_maj hm hn hd ha hb), encR_mn hn hd ha hb,
    encR_raw hd ha hb]

theorem encMX_eq (maj fmt bsel d a b : Nat) :
    encMX maj fmt bsel d a b = maj * 2 ^ 26 + fmt * 2 ^ 23 + bsel * 2 ^ 21 + d * 2 ^ 14 + a * 2 ^ 7 + b := rfl

/-- The fields of a word of format MX. -/
theorem encMX_fields {maj fmt bsel d a b : Nat} (hm : maj < 64) (hf : fmt < 8) (hs : bsel < 4) (hd : d < 128) (ha : a < 128) (hb : b < 128) :
    encMX maj fmt bsel d a b < 2 ^ 32 ∧ fieldOf (encMX maj fmt bsel d a b) 31 26 = maj ∧
      fieldOf (encMX maj fmt bsel d a b) 25 23 = fmt ∧ fieldOf (encMX maj fmt bsel d a b) 22 21 = bsel ∧
      fieldOf (encMX maj fmt bsel d a b) 20 14 = d ∧ fieldOf (encMX maj fmt bsel d a b) 13 7 = a ∧
      fieldOf (encMX maj fmt bsel d a b) 6 0 = b := by
  simp only [fieldOf, encMX]; omega

/-! ### Formats I, W and B -/

theorem encI_fields {maj mn : Nat} {wa : Bool} {d a imm : Nat} (hm : maj < 64) (hn : mn < 4) (hd : d < 128) (ha : a < 128) (hi : imm < 512) :
    encI maj mn wa d a imm < 2 ^ 32 ∧ fieldOf (encI maj mn wa d a imm) 31 26 = maj ∧ fieldOf (encI maj mn wa d a imm) 25 24 = mn ∧
      fieldOf (encI maj mn wa d a imm) 23 23 = bitOf wa ∧ fieldOf (encI maj mn wa d a imm) 22 16 = d ∧
      fieldOf (encI maj mn wa d a imm) 15 9 = a ∧ fieldOf (encI maj mn wa d a imm) 8 0 = imm := by
  have := bitOf_lt wa
  simp only [fieldOf, encI]; omega

theorem encW_fields {maj mn d imm : Nat} (hm : maj < 64) (hn : mn < 2) (hd : d < 128) (hi : imm < 2 ^ 18) :
    encW maj mn d imm < 2 ^ 32 ∧ fieldOf (encW maj mn d imm) 31 26 = maj ∧ fieldOf (encW maj mn d imm) 25 25 = mn ∧
      fieldOf (encW maj mn d imm) 24 18 = d ∧ fieldOf (encW maj mn d imm) 17 0 = imm := by
  simp only [fieldOf, encW]; omega

theorem encB_fields {maj mn : Nat} {neg : Bool} {p off : Nat} (hm : maj < 64) (hn : mn < 4) (hp : p < 16) (ho : off < 2 ^ 19) :
    encB maj mn neg p off < 2 ^ 32 ∧ fieldOf (encB maj mn neg p off) 31 26 = maj ∧ fieldOf (encB maj mn neg p off) 25 24 = mn ∧
      fieldOf (encB maj mn neg p off) 23 23 = bitOf neg ∧ fieldOf (encB maj mn neg p off) 22 19 = p ∧
      fieldOf (encB maj mn neg p off) 18 0 = off := by
  have := bitOf_lt neg
  simp only [fieldOf, encB]; omega

/-! ### Formats M and X -/

theorem encM_lt {maj mn ord sc d a low : Nat} (hm : maj < 64) (hn : mn < 8) (ho : ord < 4) (hs : sc < 16) (hd : d < 128) (ha : a < 128)
    (hl : low < 8) : encM maj mn ord sc d a low < 2 ^ 32 := by
  simp only [encM]; omega

theorem encM_maj {maj mn ord sc d a low : Nat} (hm : maj < 64) (hn : mn < 8) (ho : ord < 4) (hs : sc < 16) (hd : d < 128) (ha : a < 128)
    (hl : low < 8) : fieldOf (encM maj mn ord sc d a low) 31 26 = maj := by
  simp only [fieldOf, encM]; omega

theorem encM_mn {maj mn ord sc d a low : Nat} (hn : mn < 8) (ho : ord < 4) (hs : sc < 16) (hd : d < 128) (ha : a < 128)
    (hl : low < 8) : fieldOf (encM maj mn ord sc d a low) 25 23 = mn := by
  simp only [fieldOf, encM]; omega

theorem encM_raw {maj mn ord sc d a low : Nat} (ho : ord < 4) (hs : sc < 16) (hd : d < 128) (ha : a < 128) (hl : low < 8) :
    rawM (encM maj mn ord sc d a low) = ⟨ord, sc, d, a, low⟩ := by
  have e1 : fieldOf (encM maj mn ord sc d a low) 22 21 = ord := by simp only [fieldOf, encM]; omega
  have e2 : fieldOf (encM maj mn ord sc d a low) 20 17 = sc := by simp only [fieldOf, encM]; omega
  have e3 : fieldOf (encM maj mn ord sc d a low) 16 10 = d := by simp only [fieldOf, encM]; omega
  have e4 : fieldOf (encM maj mn ord sc d a low) 9 3 = a := by simp only [fieldOf, encM]; omega
  have e5 : fieldOf (encM maj mn ord sc d a low) 2 0 = low := by simp only [fieldOf, encM]; omega
  simp [rawM, e1, e2, e3, e4, e5]

/-- The word of format M or X is decoded by its major and minor from its raw fields. -/
theorem decode_encM (maj mn ord sc d a low : Nat) (hm : maj < 64) (hn : mn < 8) (ho : ord < 4) (hs : sc < 16) (hd : d < 128) (ha : a < 128)
    (hl : low < 8) (f : Nat → RawM → Except Ill Instr) (hf : ∀ w, fieldOf w 31 26 = maj → decodeNat w = f (fieldOf w 25 23) (rawM w)) :
    decode (BitVec.ofNat 32 (encM maj mn ord sc d a low)) = f mn ⟨ord, sc, d, a, low⟩ := by
  rw [decode, BitVec.toNat_ofNat, Nat.mod_eq_of_lt (encM_lt hm hn ho hs hd ha hl), hf _ (encM_maj hm hn ho hs hd ha hl),
    encM_mn hn ho hs hd ha hl, encM_raw ho hs hd ha hl]

end Sys2Proof
end

