-- ==== Sys2Proof/Laws/PerInstr.lean ====
section
/-!
SUPPORT. Laws/PerInstr.lean: family Enc: the word of an instruction decodes to it, constructor by constructor (R71, R87).
-/

namespace Sys2Proof.Laws.Enc

set_option Elab.async false

/-- Decoding the word of a well-encoded instruction gives it back. -/
def Statement (i : Instr) : Prop := i.wordOk = true → ∃ w, encode i = some w ∧ decode w = .ok i

/-- What well-encoded says beside having a word. -/
theorem wordOk_parts {i : Instr} (h : i.wordOk = true) : i.shiftOk = true ∧ i.bselOk = true := by
  rw [Instr.wordOk, Bool.and_eq_true, Bool.and_eq_true] at h
  exact ⟨h.1.2, h.2⟩

/-! ### Majors -/

/-- The decoder of a major that reads format R. -/
def ByR (maj : Nat) (f : Nat → RawR → Nat → Except Ill Instr) : Prop :=
  maj < 64 ∧ ∀ w, fieldOf w 31 26 = maj → decodeNat w = f (fieldOf w 25 23) (rawR w) w

/-- The decoder of a major that reads format M or X. -/
def ByM (maj : Nat) (f : Nat → RawM → Except Ill Instr) : Prop :=
  maj < 64 ∧ ∀ w, fieldOf w 31 26 = maj → decodeNat w = f (fieldOf w 25 23) (rawM w)

/-- The decoder of a major that reads the word itself. -/
def ByW (maj : Nat) (f : Nat → Except Ill Instr) : Prop := maj < 64 ∧ ∀ w, fieldOf w 31 26 = maj → decodeNat w = f w

theorem m00 : ByR 0x00 fun mn r w => decSys mn r w := ⟨by decide, fun w h => by simp only [decodeNat, h]⟩
theorem m01 : ByR 0x01 fun mn r _ => decIaluA mn r := ⟨by decide, fun w h => by simp only [decodeNat, h]⟩
theorem m02 : ByR 0x02 fun mn r _ => decIaluB mn r := ⟨by decide, fun w h => by simp only [decodeNat, h]⟩
theorem m03 : ByR 0x03 fun mn r _ => decIaluC mn r := ⟨by decide, fun w h => by simp only [decodeNat, h]⟩
theorem m04 : ByR 0x04 fun mn r _ => decIaluW mn r := ⟨by decide, fun w h => by simp only [decodeNat, h]⟩
theorem m05 : ByR 0x05 fun mn r _ => decMove mn r := ⟨by decide, fun w h => by simp only [decodeNat, h]⟩
theorem m06 : ByW 0x06 fun w => decImmA w := ⟨by decide, fun w h => by simp only [decodeNat, h]⟩
theorem m07 : ByW 0x07 fun w => decImmB w := ⟨by decide, fun w h => by simp only [decodeNat, h]⟩
theorem m08 : ByW 0x08 fun w => decImmC w := ⟨by decide, fun w h => by simp only [decodeNat, h]⟩
theorem m09 : ByW 0x09 fun w => decWide w := ⟨by decide, fun w h => by simp only [decodeNat, h]⟩
theorem m0A : ByR 0x0A fun mn r _ => decCmp mn r := ⟨by decide, fun w h => by simp only [decodeNat, h]⟩
theorem m0B : ByR 0x0B fun mn r _ => decFcmp mn r := ⟨by decide, fun w h => by simp only [decodeNat, h]⟩
theorem m0C : ByR 0x0C fun mn r _ => decPred mn r := ⟨by decide, fun w h => by simp only [decodeNat, h]⟩
theorem m0D : ByW 0x0D fun w => decBranch w := ⟨by decide, fun w h => by simp only [decodeNat, h]⟩
theorem m0E : ByR 0x0E fun mn r _ => decCtl mn r := ⟨by decide, fun w h => by simp only [decodeNat, h]⟩
theorem m10 : ByR 0x10 fun mn r _ => decF3 mn r .fadd := ⟨by decide, fun w h => by simp only [decodeNat, h]⟩
theorem m11 : ByR 0x11 fun mn r _ => decF3 mn r .fsub := ⟨by decide, fun w h => by simp only [decodeNat, h]⟩
theorem m12 : ByR 0x12 fun mn r _ => decF3 mn r .fmul := ⟨by decide, fun w h => by simp only [decodeNat, h]⟩
theorem m13 : ByR 0x13 fun mn r _ => decF3 mn r .ffma := ⟨by decide, fun w h => by simp only [decodeNat, h]⟩
theorem m14 : ByR 0x14 fun mn r _ => decF3 mn r .fmin := ⟨by decide, fun w h => by simp only [decodeNat, h]⟩
theorem m15 : ByR 0x15 fun mn r _ => decF3 mn r .fmax := ⟨by decide, fun w h => by simp only [decodeNat, h]⟩
theorem m16 : ByR 0x16 fun mn r _ => decFmisc mn r := ⟨by decide, fun w h => by simp only [decodeNat, h]⟩
theorem m17 : ByR 0x17 fun mn r _ => decCvt mn r := ⟨by decide, fun w h => by simp only [decodeNat, h]⟩
theorem m18 : ByR 0x18 fun mn r _ => decCvt8 mn r := ⟨by decide, fun w h => by simp only [decodeNat, h]⟩
theorem m19 : ByR 0x19 fun mn r _ => decQ4 mn r := ⟨by decide, fun w h => by simp only [decodeNat, h]⟩
theorem m1A : ByR 0x1A fun mn r _ => decSfu mn r := ⟨by decide, fun w h => by simp only [decodeNat, h]⟩
theorem m1B : ByR 0x1B fun mn r _ => decQuad mn r := ⟨by decide, fun w h => by simp only [decodeNat, h]⟩
theorem m1C : ByR 0x1C fun mn r _ => decXlane mn r := ⟨by decide, fun w h => by simp only [decodeNat, h]⟩
theorem m1D : ByR 0x1D fun mn r _ => decGcoll mn r := ⟨by decide, fun w h => by simp only [decodeNat, h]⟩
theorem m20 : ByM 0x20 decLd := ⟨by decide, fun w h => by simp only [decodeNat, h]⟩
theorem m21 : ByM 0x21 decSt := ⟨by decide, fun w h => by simp only [decodeNat, h]⟩
theorem m22 : ByM 0x22 decLds := ⟨by decide, fun w h => by simp only [decodeNat, h]⟩
theorem m23 : ByM 0x23 decSts := ⟨by decide, fun w h => by simp only [decodeNat, h]⟩
theorem m24 : ByM 0x24 decCell := ⟨by decide, fun w h => by simp only [decodeNat, h]⟩
theorem m25 : ByM 0x25 decAtomA := ⟨by decide, fun w h => by simp only [decodeNat, h]⟩
theorem m26 : ByM 0x26 decAtomB := ⟨by decide, fun w h => by simp only [decodeNat, h]⟩
theorem m27 : ByM 0x27 decSync := ⟨by decide, fun w h => by simp only [decodeNat, h]⟩
theorem m28 : ByR 0x28 fun mn r _ => decWait mn r := ⟨by decide, fun w h => by simp only [decodeNat, h]⟩
theorem m29 : ByR 0x29 fun mn r _ => decAp mn r := ⟨by decide, fun w h => by simp only [decodeNat, h]⟩
theorem m2A : ByM 0x2A decPf := ⟨by decide, fun w h => by simp only [decodeNat, h]⟩
theorem m2C : ByR 0x2C fun mn r _ => decTrolley mn r := ⟨by decide, fun w h => by simp only [decodeNat, h]⟩
theorem m30 : ByW 0x30 fun w => decMmaR w .mmaR := ⟨by decide, fun w h => by simp only [decodeNat, h]⟩
theorem m31 : ByW 0x31 fun w => decMmaS w .mmaS := ⟨by decide, fun w h => by simp only [decodeNat, h]⟩
theorem m32 : ByW 0x32 fun w => decMmaR w .mmapR := ⟨by decide, fun w h => by simp only [decodeNat, h]⟩
theorem m33 : ByW 0x33 fun w => decMmaS w .mmapS := ⟨by decide, fun w h => by simp only [decodeNat, h]⟩
theorem m34 : ByR 0x34 fun mn r _ => decMxctl mn r := ⟨by decide, fun w h => by simp only [decodeNat, h]⟩
theorem m35 : ByR 0x35 fun mn r _ => decCarr mn r := ⟨by decide, fun w h => by simp only [decodeNat, h]⟩
theorem m38 : ByR 0x38 fun mn r _ => decMemx mn r := ⟨by decide, fun w h => by simp only [decodeNat, h]⟩
theorem m3A : ByR 0x3A fun mn r _ => decFab mn r := ⟨by decide, fun w h => by simp only [decodeNat, h]⟩
theorem m3C : ByR 0x3C fun mn r _ => decLnch mn r := ⟨by decide, fun w h => by simp only [decodeNat, h]⟩

/-! ### Formats -/

theorem ofR {maj mn : Nat} {f} (hf : ByR maj f) {wa wb : Bool} {d a b : Nat} {i : Instr} (hn : mn < 8) (hd : d < 128) (ha : a < 128) (hb : b < 128)
    (he : encodeNat i = some (encR maj mn wa wb d a b)) (hi : f mn ⟨wa, wb, d, a, b⟩ (encR maj mn wa wb d a b) = .ok i) : Statement i :=
  fun _ => ⟨_, by rw [encode, he]; rfl, (decode_encR maj mn wa wb d a b hf.1 hn hd ha hb f hf.2).trans hi⟩

theorem ofM {maj mn : Nat} {f} (hf : ByM maj f) {ord sc d a low : Nat} {i : Instr} (hn : mn < 8) (ho : ord < 4) (hs : sc < 16) (hd : d < 128)
    (ha : a < 128) (hl : low < 8) (he : encodeNat i = some (encM maj mn ord sc d a low)) (hi : f mn ⟨ord, sc, d, a, low⟩ = .ok i) : Statement i :=
  fun _ => ⟨_, by rw [encode, he]; rfl, (decode_encM maj mn ord sc d a low hf.1 hn ho hs hd ha hl f hf.2).trans hi⟩

theorem ofW {maj w : Nat} {f} (hf : ByW maj f) {i : Instr} (hw : w < 2 ^ 32) (hm : fieldOf w 31 26 = maj) (he : encodeNat i = some w)
    (hi : f w = .ok i) : Statement i :=
  fun _ => ⟨_, by rw [encode, he]; rfl, by rw [decode, BitVec.toNat_ofNat, Nat.mod_eq_of_lt hw, hf.2 _ hm, hi]⟩

theorem r3 {maj mn : Nat} {f} (hf : ByR maj f) (c : R3 → Instr) (o : R3) (hn : mn < 8) (he : encodeNat (c o) = o.enc maj mn)
    (hi : ∀ r w, f mn r w = r.r3 c) : Statement (c o) :=
  ofR hf hn o.d.field_lt o.a.field_lt o.b.field_lt he (by simp [hi, RawR.r3])

theorem r2 {maj mn : Nat} {f} (hf : ByR maj f) (c : R2 → Instr) (o : R2) (hn : mn < 8) (he : encodeNat (c o) = o.enc maj mn)
    (hi : ∀ r w, f mn r w = r.r2 c) : Statement (c o) :=
  ofR hf hn o.d.field_lt o.a.field_lt (by decide) he (by simp [hi, RawR.r2, verdict])

theorem g3 {maj mn : Nat} {f} (hf : ByR maj f) (c : G3 → Instr) (o : G3) (hn : mn < 8) (he : encodeNat (c o) = o.enc maj mn)
    (hi : ∀ r w, f mn r w = r.g3 c) : Statement (c o) :=
  ofR hf hn o.d.field_lt o.a.field_lt o.b.field_lt he (by simp [hi, RawR.g3, verdict])

theorem pr {maj mn : Nat} {f} (hf : ByR maj f) (c : PR → Instr) (o : PR) (hn : mn < 8) (he : encodeNat (c o) = o.enc maj mn)
    (hi : ∀ r w, f mn r w = r.pr c) : Statement (c o) :=
  ofR hf hn (by have := o.p.isLt; omega) o.a.field_lt o.b.field_lt he (by simp [hi, RawR.pr, verdict])

theorem f3 {maj : Nat} {f} (hf : ByR maj f) (c : F3 → Instr) (o : F3) (he : encodeNat (c o) = o.enc maj)
    (hi : ∀ mn r w, f mn r w = decF3 mn r c) : Statement (c o) :=
  ofR hf o.fmt.field_lt o.d.field_lt o.a.field_lt o.b.field_lt he (by simp [hi, decF3])

theorem mop {maj mn : Nat} {f} (hf : ByM maj f) (c : MOp → Instr) (o : MOp) (hn : mn < 8) (he : encodeNat (c o) = o.enc maj mn)
    (hi : ∀ r, f mn r = r.mop c) : Statement (c o) :=
  ofM hf hn o.ord.field_lt o.sc.field_lt o.d.field_lt o.a.field_lt (by decide) he (by simp [hi, RawM.mop, RawM.scoped])

theorem atom {maj mn : Nat} {f} (hf : ByM maj f) (c : AtomOp → Instr) (o : AtomOp) (hn : mn < 8) (he : encodeNat (c o) = o.enc maj mn)
    (hi : ∀ r, f mn r = r.atom c) : Statement (c o) :=
  ofM hf hn o.ord.field_lt o.sc.field_lt o.d.field_lt o.a.field_lt o.use.field_lt he (by simp [hi, RawM.atom, RawM.scoped])

theorem sync {mn : Nat} (c : SyncOp → Instr) (o : SyncOp) (hn : mn < 8) (he : encodeNat (c o) = o.enc mn)
    (hi : ∀ r, decSync mn r = r.sync c) : Statement (c o) :=
  ofM m27 hn o.ord.field_lt o.sc.field_lt (by decide) (by decide) (by decide) he (by simp [hi, RawM.sync, RawM.scoped])

theorem imm {maj mn : Nat} {f} (hf : ByW maj f) (c : RI → Instr) (o : RI) (hn : mn < 4) (he : encodeNat (c o) = o.enc maj mn)
    (hi : ∀ w, fieldOf w 25 24 = mn → fieldOf w 8 0 = o.imm.toNat → f w = decImm w c) : Statement (c o) := by
  obtain ⟨h0, h1, h2, h3, h4, h5, h6⟩ := encI_fields (wa := o.wa) hf.1 hn o.d.field_lt o.a.field_lt o.imm.isLt
  exact ofW hf h0 h1 he (by simp [hi _ h2 h6, decImm, h3, h4, h5, h6])

theorem cmpi {maj mn : Nat} {f} (hf : ByW maj f) (c : PI → Instr) (o : PI) (hn : mn < 4) (he : encodeNat (c o) = o.enc maj mn)
    (hi : ∀ w, fieldOf w 25 24 = mn → f w = decCmpi w c) : Statement (c o) := by
  have hp := o.p.isLt
  obtain ⟨h0, h1, h2, h3, h4, h5, h6⟩ := encI_fields (wa := o.wa) hf.1 hn (Nat.lt_trans hp (by decide)) o.a.field_lt o.imm.isLt
  exact ofW hf h0 h1 he (by simp [hi _ h2, decCmpi, verdict, h3, h4, h5, h6])

theorem mmaRow {maj : Nat} (c : MmaROp → Instr) (hf : ByW maj fun w => decMmaR w c) (o : MmaROp) (he : encodeNat (c o) = o.enc maj)
    (hb : (c o).wordOk = true → (decide (o.bsel = 0) || (o.fmt != .i8i8 && o.fmt != .bfbf)) = true) : Statement (c o) := by
  intro h
  obtain ⟨h0, h1, h2, h3, h4, h5, h6⟩ := encMX_fields hf.1 o.fmt.field_lt o.bsel.isLt o.d.field_lt o.a.field_lt o.b.field_lt
  refine ofW hf h0 h1 he ?_ h
  have hb := hb h
  have hz : (o.bsel.toNat == 0) = decide (o.bsel = 0) := by
    rw [Bool.eq_iff_iff, beq_iff_eq, decide_eq_true_iff]
    exact ⟨fun e => BitVec.eq_of_toNat_eq e, fun e => by rw [e]; rfl⟩
  rw [decMmaR, h2, h3, h4, h5, h6, MFmt.ofField_field]
  simp only [verdict, hz, hb, if_true, Reg.ofField_field, BitVec.ofNat_toNat, BitVec.setWidth_eq]

theorem mmaTile {maj : Nat} (c : MmaSOp → Instr) (hf : ByW maj fun w => decMmaS w c) (o : MmaSOp) (he : encodeNat (c o) = o.enc maj) :
    Statement (c o) := by
  obtain ⟨h0, h1, h2, h3, h4, h5, h6⟩ := encMX_fields hf.1 o.fmt.field_lt (show 0 < 4 by decide) o.d.field_lt o.a.field_lt o.b.field_lt
  exact ofW hf h0 h1 he (by rw [decMmaS, h2, h3, h4, h5, h6, MFmt.ofField_field]; simp [verdict])

/-- A step with no word has nothing to encode. -/
theorem noWord (i : Instr) (h : i.isEvent = true) : Statement i := fun hw => by simp [Instr.wordOk, h] at hw

/-! ### Constructors -/

theorem nop (bits : BitVec 23) : Statement (.nop bits) := by
  have hb := bits.isLt
  have h1 : fieldOf bits.toNat 31 26 = 0 := by simp only [fieldOf]; omega
  have h2 : fieldOf bits.toNat 25 23 = 0 := by simp only [fieldOf]; omega
  have h3 : fieldOf bits.toNat 22 0 = bits.toNat := by simp only [fieldOf]; omega
  intro _
  refine ⟨_, rfl, ?_⟩
  rw [decode, BitVec.toNat_ofNat, Nat.mod_eq_of_lt (by omega), m00.2 _ h1, h2]
  simp [decSys, h3]
theorem trap (code : BitVec 14) : Statement (.trap code) := by
  have hn := code.isLt
  exact ofR m00 (mn := 1) (by decide) (by decide) (by omega) (by omega) rfl (by simp [decSys, verdict, Nat.div_add_mod'])
theorem eret : Statement (.eret) := ofR m00 (mn := 2) (by decide) (by decide) (by decide) (by decide) rfl rfl
theorem bkpt : Statement (.bkpt) := ofR m00 (mn := 3) (by decide) (by decide) (by decide) (by decide) rfl rfl
theorem pre (i : BitVec 14) : Statement (.pre i) := by
  have hn := i.isLt
  exact ofR m00 (mn := 4) (by decide) (by decide) (by omega) (by omega) rfl (by simp [decSys, verdict, Nat.div_add_mod'])
theorem idem (r : BitVec 7) (stop : Bool) : Statement (.idem r stop) :=
  ofR m00 (mn := 5) (by decide) (by decide) (by have := r.isLt; omega) (by have := bitOf_lt stop; omega) rfl (by have hr := r.isLt; cases stop <;> simp [decSys, verdict, bitOf, hr])
theorem rdsr (d : Reg) (n : BitVec 14) : Statement (.rdsr d n) := by
  have hn := n.isLt
  exact ofR m00 (mn := 6) (by decide) d.field_lt (by omega) (by omega) rfl (by simp [decSys, verdict, Nat.div_add_mod'])
theorem wrsr (d : Reg) (n : BitVec 14) : Statement (.wrsr d n) := by
  have hn := n.isLt
  exact ofR m00 (mn := 7) (by decide) d.field_lt (by omega) (by omega) rfl (by simp [decSys, verdict, Nat.div_add_mod'])
theorem add (o : R3) : Statement (.add o) := r3 m01 .add o (mn := 0) (by decide) rfl (fun _ _ => rfl)
theorem sub (o : R3) : Statement (.sub o) := r3 m01 .sub o (mn := 1) (by decide) rfl (fun _ _ => rfl)
theorem and (o : R3) : Statement (.and o) := r3 m01 .and o (mn := 2) (by decide) rfl (fun _ _ => rfl)
theorem or (o : R3) : Statement (.or o) := r3 m01 .or o (mn := 3) (by decide) rfl (fun _ _ => rfl)
theorem xor (o : R3) : Statement (.xor o) := r3 m01 .xor o (mn := 4) (by decide) rfl (fun _ _ => rfl)
theorem andn (o : R3) : Statement (.andn o) := r3 m01 .andn o (mn := 5) (by decide) rfl (fun _ _ => rfl)
theorem min (o : R3) : Statement (.min o) := r3 m01 .min o (mn := 6) (by decide) rfl (fun _ _ => rfl)
theorem max (o : R3) : Statement (.max o) := r3 m01 .max o (mn := 7) (by decide) rfl (fun _ _ => rfl)
theorem minn (o : R3) : Statement (.minn o) := r3 m02 .minn o (mn := 0) (by decide) rfl (fun _ _ => rfl)
theorem maxn (o : R3) : Statement (.maxn o) := r3 m02 .maxn o (mn := 1) (by decide) rfl (fun _ _ => rfl)
theorem shl (o : R3) : Statement (.shl o) := r3 m02 .shl o (mn := 2) (by decide) rfl (fun _ _ => rfl)
theorem shr (o : R3) : Statement (.shr o) := r3 m02 .shr o (mn := 3) (by decide) rfl (fun _ _ => rfl)
theorem sar (o : R3) : Statement (.sar o) := r3 m02 .sar o (mn := 4) (by decide) rfl (fun _ _ => rfl)
theorem rol (o : R3) : Statement (.rol o) := r3 m02 .rol o (mn := 5) (by decide) rfl (fun _ _ => rfl)
theorem absd (o : R3) : Statement (.absd o) := r3 m02 .absd o (mn := 6) (by decide) rfl (fun _ _ => rfl)
theorem bfe (o : R3) : Statement (.bfe o) := r3 m02 .bfe o (mn := 7) (by decide) rfl (fun _ _ => rfl)
theorem mul (o : R3) : Statement (.mul o) := r3 m03 .mul o (mn := 0) (by decide) rfl (fun _ _ => rfl)
theorem mulh (o : R3) : Statement (.mulh o) := r3 m03 .mulh o (mn := 1) (by decide) rfl (fun _ _ => rfl)
theorem mulhn (o : R3) : Statement (.mulhn o) := r3 m03 .mulhn o (mn := 2) (by decide) rfl (fun _ _ => rfl)
theorem mad (o : R3) : Statement (.mad o) := r3 m03 .mad o (mn := 3) (by decide) rfl (fun _ _ => rfl)
theorem clz (o : R2) : Statement (.clz o) := r2 m03 .clz o (mn := 4) (by decide) rfl (fun _ _ => rfl)
theorem popc (o : R2) : Statement (.popc o) := r2 m03 .popc o (mn := 5) (by decide) rfl (fun _ _ => rfl)
theorem brev (o : R2) : Statement (.brev o) := r2 m03 .brev o (mn := 6) (by decide) rfl (fun _ _ => rfl)
theorem bfi (o : R3) : Statement (.bfi o) := r3 m03 .bfi o (mn := 7) (by decide) rfl (fun _ _ => rfl)
theorem add64 (o : R3) : Statement (.add64 o) := r3 m04 .add64 o (mn := 0) (by decide) rfl (fun _ _ => rfl)
theorem sub64 (o : R3) : Statement (.sub64 o) := r3 m04 .sub64 o (mn := 1) (by decide) rfl (fun _ _ => rfl)
theorem shl64 (o : R3) : Statement (.shl64 o) := r3 m04 .shl64 o (mn := 2) (by decide) rfl (fun _ _ => rfl)
theorem shr64 (o : R3) : Statement (.shr64 o) := r3 m04 .shr64 o (mn := 3) (by decide) rfl (fun _ _ => rfl)
theorem madw (o : R3) : Statement (.madw o) := r3 m04 .madw o (mn := 4) (by decide) rfl (fun _ _ => rfl)
theorem madws (o : R3) : Statement (.madws o) := r3 m04 .madws o (mn := 5) (by decide) rfl (fun _ _ => rfl)
theorem mov64 (o : R2) : Statement (.mov64 o) := r2 m04 .mov64 o (mn := 6) (by decide) rfl (fun _ _ => rfl)
theorem sext64 (o : R2) : Statement (.sext64 o) := r2 m04 .sext64 o (mn := 7) (by decide) rfl (fun _ _ => rfl)
theorem mov (o : R2) : Statement (.mov o) := r2 m05 .mov o (mn := 0) (by decide) rfl (fun _ _ => rfl)
theorem rdl (d : Reg) : Statement (.rdl d) :=
  ofR m05 (mn := 1) (by decide) d.field_lt (by decide) (by decide) rfl (by simp [decMove, RawR.r1, verdict])
theorem bcs (o : R2) : Statement (.bcs o) := r2 m05 .bcs o (mn := 2) (by decide) rfl (fun _ _ => rfl)
theorem rdp (d : Reg) : Statement (.rdp d) :=
  ofR m05 (mn := 3) (by decide) d.field_lt (by decide) (by decide) rfl (by simp [decMove, RawR.r1, verdict])
theorem wrp (wa : Bool) (a : Reg) : Statement (.wrp wa a) :=
  ofR m05 (mn := 4) (by decide) (by decide) a.field_lt (by decide) rfl (by simp [decMove, RawR.srcA, verdict])
theorem sel (wa : Bool) (d a : Reg) (p : Pred) : Statement (.sel wa d a p) :=
  ofR m05 (mn := 5) (by decide) d.field_lt a.field_lt (by have := p.isLt; omega) rfl (by simp [decMove, verdict])
theorem rdw (d : Reg) : Statement (.rdw d) :=
  ofR m05 (mn := 6) (by decide) d.field_lt (by decide) (by decide) rfl (by simp [decMove, RawR.r1, verdict])
theorem addi (o : RI) : Statement (.addi o) := imm m06 .addi o (mn := 0) (by decide) rfl (fun w e _ => by simp [decImmA, e])
theorem andi (o : RI) : Statement (.andi o) := imm m06 .andi o (mn := 1) (by decide) rfl (fun w e _ => by simp [decImmA, e])
theorem ori (o : RI) : Statement (.ori o) := imm m06 .ori o (mn := 2) (by decide) rfl (fun w e _ => by simp [decImmA, e])
theorem xori (o : RI) : Statement (.xori o) := imm m06 .xori o (mn := 3) (by decide) rfl (fun w e _ => by simp [decImmA, e])
theorem shli (o : RI) : Statement (.shli o) := fun h =>
  have hs : o.imm.toNat < 32 := of_decide_eq_true (wordOk_parts h).1
  imm m07 .shli o (mn := 0) (by decide) rfl (fun w e e' => by simp [decImmB, decShiftImm, e, e', hs]) h
theorem shri (o : RI) : Statement (.shri o) := fun h =>
  have hs : o.imm.toNat < 32 := of_decide_eq_true (wordOk_parts h).1
  imm m07 .shri o (mn := 1) (by decide) rfl (fun w e e' => by simp [decImmB, decShiftImm, e, e', hs]) h
theorem sari (o : RI) : Statement (.sari o) := fun h =>
  have hs : o.imm.toNat < 32 := of_decide_eq_true (wordOk_parts h).1
  imm m07 .sari o (mn := 2) (by decide) rfl (fun w e e' => by simp [decImmB, decShiftImm, e, e', hs]) h
theorem muli (o : RI) : Statement (.muli o) := imm m07 .muli o (mn := 3) (by decide) rfl (fun w e _ => by simp [decImmB, e])
theorem cmpiEq (o : PI) : Statement (.cmpiEq o) := cmpi m08 .cmpiEq o (mn := 0) (by decide) rfl (fun w e => by simp [decImmC, e])
theorem cmpiLt (o : PI) : Statement (.cmpiLt o) := cmpi m08 .cmpiLt o (mn := 1) (by decide) rfl (fun w e => by simp [decImmC, e])
theorem cmpiLtn (o : PI) : Statement (.cmpiLtn o) := cmpi m08 .cmpiLtn o (mn := 2) (by decide) rfl (fun w e => by simp [decImmC, e])
theorem cmpiLe (o : PI) : Statement (.cmpiLe o) := cmpi m08 .cmpiLe o (mn := 3) (by decide) rfl (fun w e => by simp [decImmC, e])
theorem ldi (o : WI) : Statement (.ldi o) := by
  obtain ⟨h0, h1, h2, h3, h4⟩ := encW_fields (maj := 0x09) (mn := 0) (by decide) (by decide) o.d.field_lt o.imm.isLt
  exact ofW m09 h0 h1 rfl (by simp [decWide, h2, h3, h4])
theorem ldih (o : WI) : Statement (.ldih o) := by
  obtain ⟨h0, h1, h2, h3, h4⟩ := encW_fields (maj := 0x09) (mn := 1) (by decide) (by decide) o.d.field_lt o.imm.isLt
  exact ofW m09 h0 h1 rfl (by simp [decWide, h2, h3, h4])
theorem cmpEq (o : PR) : Statement (.cmpEq o) := pr m0A .cmpEq o (mn := 0) (by decide) rfl (fun _ _ => rfl)
theorem cmpNe (o : PR) : Statement (.cmpNe o) := pr m0A .cmpNe o (mn := 1) (by decide) rfl (fun _ _ => rfl)
theorem cmpLt (o : PR) : Statement (.cmpLt o) := pr m0A .cmpLt o (mn := 2) (by decide) rfl (fun _ _ => rfl)
theorem cmpLe (o : PR) : Statement (.cmpLe o) := pr m0A .cmpLe o (mn := 3) (by decide) rfl (fun _ _ => rfl)
theorem cmpLtn (o : PR) : Statement (.cmpLtn o) := pr m0A .cmpLtn o (mn := 4) (by decide) rfl (fun _ _ => rfl)
theorem cmpLen (o : PR) : Statement (.cmpLen o) := pr m0A .cmpLen o (mn := 5) (by decide) rfl (fun _ _ => rfl)
theorem tst (o : PR) : Statement (.tst o) := pr m0A .tst o (mn := 6) (by decide) rfl (fun _ _ => rfl)
theorem fcmpEq (o : PR) : Statement (.fcmpEq o) := pr m0B .fcmpEq o (mn := 0) (by decide) rfl (fun _ _ => rfl)
theorem fcmpLt (o : PR) : Statement (.fcmpLt o) := pr m0B .fcmpLt o (mn := 1) (by decide) rfl (fun _ _ => rfl)
theorem fcmpLe (o : PR) : Statement (.fcmpLe o) := pr m0B .fcmpLe o (mn := 2) (by decide) rfl (fun _ _ => rfl)
theorem fcmpUn (o : PR) : Statement (.fcmpUn o) := pr m0B .fcmpUn o (mn := 3) (by decide) rfl (fun _ _ => rfl)
theorem pand (d a b : Pred) : Statement (.pand d a b) :=
  ofR m0C (mn := 0) (by decide) (by have := d.isLt; omega) (by have := a.isLt; omega) (by have := b.isLt; omega) rfl (by simp [decPred, RawR.p3, verdict])
theorem por (d a b : Pred) : Statement (.por d a b) :=
  ofR m0C (mn := 1) (by decide) (by have := d.isLt; omega) (by have := a.isLt; omega) (by have := b.isLt; omega) rfl (by simp [decPred, RawR.p3, verdict])
theorem pxor (d a b : Pred) : Statement (.pxor d a b) :=
  ofR m0C (mn := 2) (by decide) (by have := d.isLt; omega) (by have := a.isLt; omega) (by have := b.isLt; omega) rfl (by simp [decPred, RawR.p3, verdict])
theorem pandn (d a b : Pred) : Statement (.pandn d a b) :=
  ofR m0C (mn := 3) (by decide) (by have := d.isLt; omega) (by have := a.isLt; omega) (by have := b.isLt; omega) rfl (by simp [decPred, RawR.p3, verdict])
theorem pnot (d a : Pred) : Statement (.pnot d a) :=
  ofR m0C (mn := 4) (by decide) (by have := d.isLt; omega) (by have := a.isLt; omega) (by decide) rfl (by simp [decPred, RawR.p2, verdict])
theorem pset (d : Pred) : Statement (.pset d) :=
  ofR m0C (mn := 5) (by decide) (by have := d.isLt; omega) (by decide) (by decide) rfl (by simp [decPred, RawR.p1, verdict])
theorem pclr (d : Pred) : Statement (.pclr d) :=
  ofR m0C (mn := 6) (by decide) (by have := d.isLt; omega) (by decide) (by decide) rfl (by simp [decPred, RawR.p1, verdict])
theorem brp (neg : Bool) (p : Pred) (off : BitVec 19) : Statement (.brp neg p off) := by
  obtain ⟨h0, h1, h2, h3, h4, h5⟩ := encB_fields (maj := 0x0D) (mn := 0) (neg := neg) (by decide) (by decide) p.isLt off.isLt
  exact ofW m0D h0 h1 rfl (by simp [decBranch, verdict, show bitOf false = 0 from rfl, h2, h3, h4, h5])
theorem bra (off : BitVec 19) : Statement (.bra off) := by
  obtain ⟨h0, h1, h2, h3, h4, h5⟩ := encB_fields (maj := 0x0D) (mn := 1) (neg := false) (by decide) (by decide) (show 0 < 16 by decide) off.isLt
  exact ofW m0D h0 h1 rfl (by simp [decBranch, verdict, show bitOf false = 0 from rfl, h2, h3, h4, h5])
theorem call (off : BitVec 19) : Statement (.call off) := by
  obtain ⟨h0, h1, h2, h3, h4, h5⟩ := encB_fields (maj := 0x0D) (mn := 2) (neg := false) (by decide) (by decide) (show 0 < 16 by decide) off.isLt
  exact ofW m0D h0 h1 rfl (by simp [decBranch, verdict, show bitOf false = 0 from rfl, h2, h3, h4, h5])
theorem jmpr (wa : Bool) (a : Reg) : Statement (.jmpr wa a) :=
  ofR m0E (mn := 0) (by decide) (by decide) a.field_lt (by decide) rfl (by simp [decCtl, RawR.srcA, verdict])
theorem callr (wa : Bool) (a : Reg) : Statement (.callr wa a) :=
  ofR m0E (mn := 1) (by decide) (by decide) a.field_lt (by decide) rfl (by simp [decCtl, RawR.srcA, verdict])
theorem ret : Statement (.ret) :=
  ofR m0E (mn := 2) (by decide) (by decide) (by decide) (by decide) rfl (by simp [decCtl, RawR.r0, verdict])
theorem reconv : Statement (.reconv) :=
  ofR m0E (mn := 3) (by decide) (by decide) (by decide) (by decide) rfl (by simp [decCtl, RawR.r0, verdict])
theorem fork (o : R3) : Statement (.fork o) := r3 m0E .fork o (mn := 4) (by decide) rfl (fun _ _ => rfl)
theorem endF : Statement (.endF) :=
  ofR m0E (mn := 5) (by decide) (by decide) (by decide) (by decide) rfl (by simp [decCtl, RawR.r0, verdict])
theorem wbase (n : BitVec 4) : Statement (.wbase n) :=
  ofR m0E (mn := 6) (by decide) (by decide) (by have := n.isLt; omega) (by decide) rfl (by have hn := n.isLt; simp [decCtl, verdict, hn])
theorem trl (o : R3) : Statement (.trl o) := r3 m0E .trl o (mn := 7) (by decide) rfl (fun _ _ => rfl)
theorem fadd (o : F3) : Statement (.fadd o) := f3 m10 .fadd o rfl (fun _ _ _ => rfl)
theorem fsub (o : F3) : Statement (.fsub o) := f3 m11 .fsub o rfl (fun _ _ _ => rfl)
theorem fmul (o : F3) : Statement (.fmul o) := f3 m12 .fmul o rfl (fun _ _ _ => rfl)
theorem ffma (o : F3) : Statement (.ffma o) := f3 m13 .ffma o rfl (fun _ _ _ => rfl)
theorem fmin (o : F3) : Statement (.fmin o) := f3 m14 .fmin o rfl (fun _ _ _ => rfl)
theorem fmax (o : F3) : Statement (.fmax o) := f3 m15 .fmax o rfl (fun _ _ _ => rfl)
theorem fabs (o : R2) : Statement (.fabs o) := r2 m16 .fabs o (mn := 0) (by decide) rfl (fun _ _ => rfl)
theorem fneg (o : R2) : Statement (.fneg o) := r2 m16 .fneg o (mn := 1) (by decide) rfl (fun _ _ => rfl)
theorem fclass (o : R2) : Statement (.fclass o) := r2 m16 .fclass o (mn := 2) (by decide) rfl (fun _ _ => rfl)
theorem frndN (o : R2) : Statement (.frndN o) := r2 m16 .frndN o (mn := 3) (by decide) rfl (fun _ _ => rfl)
theorem frndZ (o : R2) : Statement (.frndZ o) := r2 m16 .frndZ o (mn := 4) (by decide) rfl (fun _ _ => rfl)
theorem frndD (o : R2) : Statement (.frndD o) := r2 m16 .frndD o (mn := 5) (by decide) rfl (fun _ _ => rfl)
theorem frndU (o : R2) : Statement (.frndU o) := r2 m16 .frndU o (mn := 6) (by decide) rfl (fun _ _ => rfl)
theorem fscale (o : R3) : Statement (.fscale o) := r3 m16 .fscale o (mn := 7) (by decide) rfl (fun _ _ => rfl)
theorem cvtFS (o : R2) : Statement (.cvtFS o) := r2 m17 .cvtFS o (mn := 0) (by decide) rfl (fun _ _ => rfl)
theorem cvtSF (o : R2) : Statement (.cvtSF o) := r2 m17 .cvtSF o (mn := 1) (by decide) rfl (fun _ _ => rfl)
theorem cvtFN (o : R2) : Statement (.cvtFN o) := r2 m17 .cvtFN o (mn := 2) (by decide) rfl (fun _ _ => rfl)
theorem cvtNF (o : R2) : Statement (.cvtNF o) := r2 m17 .cvtNF o (mn := 3) (by decide) rfl (fun _ _ => rfl)
theorem packH2 (o : R3) : Statement (.packH2 o) := r3 m17 .packH2 o (mn := 4) (by decide) rfl (fun _ _ => rfl)
theorem packB2 (o : R3) : Statement (.packB2 o) := r3 m17 .packB2 o (mn := 5) (by decide) rfl (fun _ _ => rfl)
theorem unpkH (o : R2) : Statement (.unpkH o) := r2 m17 .unpkH o (mn := 6) (by decide) rfl (fun _ _ => rfl)
theorem unpkB (o : R2) : Statement (.unpkB o) := r2 m17 .unpkB o (mn := 7) (by decide) rfl (fun _ _ => rfl)
theorem packE4 (o : R3) : Statement (.packE4 o) := r3 m18 .packE4 o (mn := 0) (by decide) rfl (fun _ _ => rfl)
theorem packE5 (o : R3) : Statement (.packE5 o) := r3 m18 .packE5 o (mn := 1) (by decide) rfl (fun _ _ => rfl)
theorem unpkE4 (o : R2) : Statement (.unpkE4 o) := r2 m18 .unpkE4 o (mn := 2) (by decide) rfl (fun _ _ => rfl)
theorem unpkE5 (o : R2) : Statement (.unpkE5 o) := r2 m18 .unpkE5 o (mn := 3) (by decide) rfl (fun _ _ => rfl)
theorem packI8 (o : R3) : Statement (.packI8 o) := r3 m18 .packI8 o (mn := 4) (by decide) rfl (fun _ _ => rfl)
theorem unpkI8 (o : R2) : Statement (.unpkI8 o) := r2 m18 .unpkI8 o (mn := 5) (by decide) rfl (fun _ _ => rfl)
theorem qscale (o : R3) : Statement (.qscale o) := r3 m19 .qscale o (mn := 0) (by decide) rfl (fun _ _ => rfl)
theorem qpack (o : R3) : Statement (.qpack o) := r3 m19 .qpack o (mn := 1) (by decide) rfl (fun _ _ => rfl)
theorem qunpk (o : R3) : Statement (.qunpk o) := r3 m19 .qunpk o (mn := 2) (by decide) rfl (fun _ _ => rfl)
theorem rcp (o : R2) : Statement (.rcp o) := r2 m1A .rcp o (mn := 0) (by decide) rfl (fun _ _ => rfl)
theorem rsq (o : R2) : Statement (.rsq o) := r2 m1A .rsq o (mn := 1) (by decide) rfl (fun _ _ => rfl)
theorem sqrt (o : R2) : Statement (.sqrt o) := r2 m1A .sqrt o (mn := 2) (by decide) rfl (fun _ _ => rfl)
theorem div (o : R3) : Statement (.div o) := r3 m1A .div o (mn := 3) (by decide) rfl (fun _ _ => rfl)
theorem act (o : R2) (t : BitVec 3) : Statement (.act o t) :=
  ofR m1A (mn := 4) (by decide) o.d.field_lt o.a.field_lt (by have := t.isLt; omega) rfl (by have ht := t.isLt; simp [decSfu, verdict, ht])
theorem actld (wa : Bool) (a : Reg) (t : BitVec 3) : Statement (.actld wa a t) :=
  ofR m1A (mn := 5) (by decide) (by decide) a.field_lt (by have := t.isLt; omega) rfl (by have ht := t.isLt; simp [decSfu, verdict, ht])
theorem actsw (t : BitVec 3) : Statement (.actsw t) :=
  ofR m1A (mn := 6) (by decide) (by decide) (by decide) (by have := t.isLt; omega) rfl (by have ht := t.isLt; simp [decSfu, verdict, ht])
theorem qxh (o : R2) : Statement (.qxh o) := r2 m1B .qxh o (mn := 0) (by decide) rfl (fun _ _ => rfl)
theorem qxv (o : R2) : Statement (.qxv o) := r2 m1B .qxv o (mn := 1) (by decide) rfl (fun _ _ => rfl)
theorem qxd (o : R2) : Statement (.qxd o) := r2 m1B .qxd o (mn := 2) (by decide) rfl (fun _ _ => rfl)
theorem qbc (o : R3) : Statement (.qbc o) := r3 m1B .qbc o (mn := 3) (by decide) rfl (fun _ _ => rfl)
theorem qadd (o : R2) : Statement (.qadd o) := r2 m1B .qadd o (mn := 4) (by decide) rfl (fun _ _ => rfl)
theorem qmax (o : R2) : Statement (.qmax o) := r2 m1B .qmax o (mn := 5) (by decide) rfl (fun _ _ => rfl)
theorem qmin (o : R2) : Statement (.qmin o) := r2 m1B .qmin o (mn := 6) (by decide) rfl (fun _ _ => rfl)
theorem qhlp (p : Pred) : Statement (.qhlp p) :=
  ofR m1B (mn := 7) (by decide) (by have := p.isLt; omega) (by decide) (by decide) rfl (by simp [decQuad, RawR.p1, verdict])
theorem shflIdx (o : R3) : Statement (.shflIdx o) := r3 m1C .shflIdx o (mn := 0) (by decide) rfl (fun _ _ => rfl)
theorem shflUp (o : R3) : Statement (.shflUp o) := r3 m1C .shflUp o (mn := 1) (by decide) rfl (fun _ _ => rfl)
theorem shflDn (o : R3) : Statement (.shflDn o) := r3 m1C .shflDn o (mn := 2) (by decide) rfl (fun _ _ => rfl)
theorem shflXor (o : R3) : Statement (.shflXor o) := r3 m1C .shflXor o (mn := 3) (by decide) rfl (fun _ _ => rfl)
theorem bcast (o : R3) : Statement (.bcast o) := r3 m1C .bcast o (mn := 4) (by decide) rfl (fun _ _ => rfl)
theorem voteAny (d a : Pred) : Statement (.voteAny d a) :=
  ofR m1C (mn := 5) (by decide) (by have := d.isLt; omega) (by have := a.isLt; omega) (by decide) rfl (by simp [decXlane, RawR.p2, verdict])
theorem voteAll (d a : Pred) : Statement (.voteAll d a) :=
  ofR m1C (mn := 6) (by decide) (by have := d.isLt; omega) (by have := a.isLt; omega) (by decide) rfl (by simp [decXlane, RawR.p2, verdict])
theorem ballot (d : Reg) (a : Pred) : Statement (.ballot d a) :=
  ofR m1C (mn := 7) (by decide) d.field_lt (by have := a.isLt; omega) (by decide) rfl (by simp [decXlane, verdict])
theorem gredFadd (o : R2) : Statement (.gredFadd o) := r2 m1D .gredFadd o (mn := 0) (by decide) rfl (fun _ _ => rfl)
theorem gredIadd (o : R2) : Statement (.gredIadd o) := r2 m1D .gredIadd o (mn := 1) (by decide) rfl (fun _ _ => rfl)
theorem gredFmax (o : R2) : Statement (.gredFmax o) := r2 m1D .gredFmax o (mn := 2) (by decide) rfl (fun _ _ => rfl)
theorem gredFmin (o : R2) : Statement (.gredFmin o) := r2 m1D .gredFmin o (mn := 3) (by decide) rfl (fun _ _ => rfl)
theorem gscanFadd (o : R2) : Statement (.gscanFadd o) := r2 m1D .gscanFadd o (mn := 4) (by decide) rfl (fun _ _ => rfl)
theorem gscanIadd (o : R2) : Statement (.gscanIadd o) := r2 m1D .gscanIadd o (mn := 5) (by decide) rfl (fun _ _ => rfl)
theorem matchV (o : R2) : Statement (.matchV o) := r2 m1D .matchV o (mn := 6) (by decide) rfl (fun _ _ => rfl)
theorem ld (o : LdOp) : Statement (.ld o) :=
  ofM m20 (mn := o.w.field) o.w.field_lt o.ord.field_lt o.sc.field_lt o.d.field_lt o.a.field_lt (by have := o.ch.field_lt; omega) rfl (by have := o.ch.field_lt; simp [decLd, RawM.scoped, this])
theorem st (o : StOp) : Statement (.st o) :=
  ofM m21 (mn := o.w.field) o.w.field_lt o.ord.field_lt o.sc.field_lt o.d.field_lt o.a.field_lt (by have := o.ch.field_lt; omega) rfl (by have := o.ch.field_lt; simp [decSt, RawM.scoped, this])
theorem lds (o : LdsOp) : Statement (.lds o) :=
  ofM m22 (mn := o.w.field) o.w.field_lt o.ord.field_lt o.sc.field_lt o.d.field_lt o.a.field_lt (by decide) rfl (by simp [decLds, RawM.scoped])
theorem sts (o : StsOp) : Statement (.sts o) :=
  ofM m23 (mn := o.w.field) o.w.field_lt o.ord.field_lt o.sc.field_lt o.d.field_lt o.a.field_lt (by decide) rfl (by simp [decSts, RawM.scoped])
theorem ldc (o : MOp) : Statement (.ldc o) := mop m24 .ldc o (mn := 0) (by decide) rfl (fun _ => rfl)
theorem stc (o : MOp) : Statement (.stc o) := mop m24 .stc o (mn := 1) (by decide) rfl (fun _ => rfl)
theorem stcMd (o : MOp) : Statement (.stcMd o) := mop m24 .stcMd o (mn := 2) (by decide) rfl (fun _ => rfl)
theorem aadd (o : AtomOp) : Statement (.aadd o) := atom m25 .aadd o (mn := 0) (by decide) rfl (fun _ => rfl)
theorem afadd (o : AtomOp) : Statement (.afadd o) := atom m25 .afadd o (mn := 1) (by decide) rfl (fun _ => rfl)
theorem amin (o : AtomOp) : Statement (.amin o) := atom m25 .amin o (mn := 2) (by decide) rfl (fun _ => rfl)
theorem amax (o : AtomOp) : Statement (.amax o) := atom m25 .amax o (mn := 3) (by decide) rfl (fun _ => rfl)
theorem aminn (o : AtomOp) : Statement (.aminn o) := atom m25 .aminn o (mn := 4) (by decide) rfl (fun _ => rfl)
theorem amaxn (o : AtomOp) : Statement (.amaxn o) := atom m25 .amaxn o (mn := 5) (by decide) rfl (fun _ => rfl)
theorem aand (o : AtomOp) : Statement (.aand o) := atom m25 .aand o (mn := 6) (by decide) rfl (fun _ => rfl)
theorem aor (o : AtomOp) : Statement (.aor o) := atom m25 .aor o (mn := 7) (by decide) rfl (fun _ => rfl)
theorem axor (o : AtomOp) : Statement (.axor o) := atom m26 .axor o (mn := 0) (by decide) rfl (fun _ => rfl)
theorem axch (o : AtomOp) : Statement (.axch o) := atom m26 .axch o (mn := 1) (by decide) rfl (fun _ => rfl)
theorem acas (o : AtomOp) : Statement (.acas o) := atom m26 .acas o (mn := 2) (by decide) rfl (fun _ => rfl)
theorem ainc (o : AtomOp) : Statement (.ainc o) := atom m26 .ainc o (mn := 3) (by decide) rfl (fun _ => rfl)
theorem aadd64 (o : AtomOp) : Statement (.aadd64 o) := atom m26 .aadd64 o (mn := 4) (by decide) rfl (fun _ => rfl)
theorem acas64 (o : AtomOp) : Statement (.acas64 o) := atom m26 .acas64 o (mn := 5) (by decide) rfl (fun _ => rfl)
theorem axch64 (o : AtomOp) : Statement (.axch64 o) := atom m26 .axch64 o (mn := 6) (by decide) rfl (fun _ => rfl)
theorem ahadd (o : AtomOp) : Statement (.ahadd o) := atom m26 .ahadd o (mn := 7) (by decide) rfl (fun _ => rfl)
theorem fence (o : SyncOp) : Statement (.fence o) := sync .fence o (mn := 0) (by decide) rfl (fun _ => rfl)
theorem cflush : Statement (.cflush) :=
  ofM m27 (mn := 1) (by decide) (by decide) (by decide) (by decide) (by decide) (by decide) rfl (by simp [decSync, RawM.bare, Scope.ofField])
theorem bar (o : SyncOp) : Statement (.bar o) := sync .bar o (mn := 2) (by decide) rfl (fun _ => rfl)
theorem arrive (o : MOp) : Statement (.arrive o) := mop m27 .arrive o (mn := 3) (by decide) rfl (fun _ => rfl)
theorem arriveBk (o : MOp) : Statement (.arriveBk o) := mop m27 .arriveBk o (mn := 4) (by decide) rfl (fun _ => rfl)
theorem rfence : Statement (.rfence) :=
  ofM m27 (mn := 5) (by decide) (by decide) (by decide) (by decide) (by decide) (by decide) rfl (by simp [decSync, RawM.bare, Scope.ofField])
theorem invl1 : Statement (.invl1) :=
  ofM m27 (mn := 6) (by decide) (by decide) (by decide) (by decide) (by decide) (by decide) rfl (by simp [decSync, RawM.bare, Scope.ofField])
theorem twph (o : PR) : Statement (.twph o) := pr m28 .twph o (mn := 0) (by decide) rfl (fun _ _ => rfl)
theorem twtl (wb : Bool) (p : Pred) (t : BitVec 3) (b : Reg) : Statement (.twtl wb p t b) :=
  ofR m28 (mn := 1) (by decide) (by have := p.isLt; omega) (by have := t.isLt; omega) b.field_lt rfl (by have ht := t.isLt; simp [decWait, verdict, ht])
theorem twge (o : PR) : Statement (.twge o) := pr m28 .twge o (mn := 2) (by decide) rfl (fun _ _ => rfl)
theorem tlrd (d : Reg) (t : BitVec 3) : Statement (.tlrd d t) :=
  ofR m28 (mn := 3) (by decide) d.field_lt (by have := t.isLt; omega) (by decide) rfl (by have ht := t.isLt; simp [decWait, verdict, ht])
theorem apgo (o : R3) : Statement (.apgo o) := r3 m29 .apgo o (mn := 0) (by decide) rfl (fun _ _ => rfl)
theorem apstop : Statement (.apstop) :=
  ofR m29 (mn := 1) (by decide) (by decide) (by decide) (by decide) rfl (by simp [decAp, RawR.r0, verdict])
theorem qstat (d : Reg) (q : BitVec 3) : Statement (.qstat d q) :=
  ofR m29 (mn := 2) (by decide) d.field_lt (by decide) (by have := q.isLt; omega) rfl (by have hq := q.isLt; simp [decAp, verdict, hq])
theorem qdrain (q : BitVec 3) : Statement (.qdrain q) :=
  ofR m29 (mn := 3) (by decide) (by decide) (by decide) (by have := q.isLt; omega) rfl (by have hq := q.isLt; simp [decAp, verdict, hq])
theorem qbind (wa : Bool) (a : Reg) (q : BitVec 3) : Statement (.qbind wa a q) :=
  ofR m29 (mn := 4) (by decide) (by decide) a.field_lt (by have := q.isLt; omega) rfl (by have hq := q.isLt; simp [decAp, verdict, hq])
theorem qreq (o : R3) : Statement (.qreq o) := r3 m29 .qreq o (mn := 5) (by decide) rfl (fun _ _ => rfl)
theorem qwr (o : R3) : Statement (.qwr o) := r3 m29 .qwr o (mn := 6) (by decide) rfl (fun _ _ => rfl)
theorem apend : Statement (.apend) :=
  ofR m29 (mn := 7) (by decide) (by decide) (by decide) (by decide) rfl (by simp [decAp, RawR.r0, verdict])
theorem pfL1 (o : PfOp) : Statement (.pfL1 o) :=
  ofM m2A (mn := 0) (by decide) o.ord.field_lt o.sc.field_lt (by decide) o.a.field_lt (by have := o.ch.field_lt; omega) rfl
    (by have := o.ch.field_lt; simp [decPf, RawM.scoped, this])
theorem pfL2 (o : PfOp) : Statement (.pfL2 o) :=
  ofM m2A (mn := 1) (by decide) o.ord.field_lt o.sc.field_lt (by decide) o.a.field_lt (by have := o.ch.field_lt; omega) rfl
    (by have := o.ch.field_lt; simp [decPf, RawM.scoped, this])
theorem tcpy (o : G3) : Statement (.tcpy o) := g3 m2C .tcpy o (mn := 0) (by decide) rfl (fun _ _ => rfl)
theorem tgath (o : G3) : Statement (.tgath o) := g3 m2C .tgath o (mn := 1) (by decide) rfl (fun _ _ => rfl)
theorem tscat (o : G3) : Statement (.tscat o) := g3 m2C .tscat o (mn := 2) (by decide) rfl (fun _ _ => rfl)
theorem tfill (o : G3) : Statement (.tfill o) := g3 m2C .tfill o (mn := 3) (by decide) rfl (fun _ _ => rfl)
theorem tred (o : G3) : Statement (.tred o) := g3 m2C .tred o (mn := 4) (by decide) rfl (fun _ _ => rfl)
theorem mmaR (o : MmaROp) : Statement (.mmaR o) :=
  mmaRow .mmaR m30 o rfl (fun h => (wordOk_parts h).2)
theorem mmaS (o : MmaSOp) : Statement (.mmaS o) := mmaTile .mmaS m31 o rfl
theorem mmapR (o : MmaROp) : Statement (.mmapR o) :=
  mmaRow .mmapR m32 o rfl (fun h => (wordOk_parts h).2)
theorem mmapS (o : MmaSOp) : Statement (.mmapS o) := mmaTile .mmapS m33 o rfl
theorem mxacq : Statement (.mxacq) :=
  ofR m34 (mn := 0) (by decide) (by decide) (by decide) (by decide) rfl (by simp [decMxctl, RawR.r0, verdict])
theorem mxrel : Statement (.mxrel) :=
  ofR m34 (mn := 1) (by decide) (by decide) (by decide) (by decide) rfl (by simp [decMxctl, RawR.r0, verdict])
theorem mxdrain (o : G3) : Statement (.mxdrain o) := g3 m34 .mxdrain o (mn := 2) (by decide) rfl (fun _ _ => rfl)
theorem mxzero (d : Reg) (i : Bool) : Statement (.mxzero d i) :=
  ofR m34 (mn := 3) (by decide) d.field_lt (by have := bitOf_lt i; omega) (by decide) rfl (by cases i <;> simp [decMxctl, verdict, bitOf])
theorem mxacqP : Statement (.mxacqP) :=
  ofR m34 (mn := 4) (by decide) (by decide) (by decide) (by decide) rfl (by simp [decMxctl, RawR.r0, verdict])
theorem mxrelP : Statement (.mxrelP) :=
  ofR m34 (mn := 5) (by decide) (by decide) (by decide) (by decide) rfl (by simp [decMxctl, RawR.r0, verdict])
theorem mxstat (d : Reg) : Statement (.mxstat d) :=
  ofR m34 (mn := 6) (by decide) d.field_lt (by decide) (by decide) rfl (by simp [decMxctl, RawR.r1, verdict])
theorem cralloc (d a : Reg) : Statement (.cralloc d a) :=
  ofR m35 (mn := 0) (by decide) d.field_lt a.field_lt (by decide) rfl (by simp [decCarr, RawR.g2, verdict])
theorem crload (o : G3) : Statement (.crload o) := g3 m35 .crload o (mn := 1) (by decide) rfl (fun _ _ => rfl)
theorem crldv (o : G3) : Statement (.crldv o) := g3 m35 .crldv o (mn := 2) (by decide) rfl (fun _ _ => rfl)
theorem crpin (a : Reg) : Statement (.crpin a) :=
  ofR m35 (mn := 3) (by decide) (by decide) a.field_lt (by decide) rfl (by simp [decCarr, RawR.g1, verdict])
theorem crunpin (a : Reg) : Statement (.crunpin a) :=
  ofR m35 (mn := 4) (by decide) (by decide) a.field_lt (by decide) rfl (by simp [decCarr, RawR.g1, verdict])
theorem crfree (a : Reg) : Statement (.crfree a) :=
  ofR m35 (mn := 5) (by decide) (by decide) a.field_lt (by decide) rfl (by simp [decCarr, RawR.g1, verdict])
theorem crstat (d a : Reg) : Statement (.crstat d a) :=
  ofR m35 (mn := 6) (by decide) d.field_lt a.field_lt (by decide) rfl (by simp [decCarr, RawR.g2, verdict])
theorem crdetach (a : Reg) : Statement (.crdetach a) :=
  ofR m35 (mn := 7) (by decide) (by decide) a.field_lt (by decide) rfl (by simp [decCarr, RawR.g1, verdict])
theorem bxc (o : G3) : Statement (.bxc o) := g3 m38 .bxc o (mn := 0) (by decide) rfl (fun _ _ => rfl)
theorem rdx (d a : Reg) : Statement (.rdx d a) :=
  ofR m38 (mn := 1) (by decide) d.field_lt a.field_lt (by decide) rfl (by simp [decMemx, RawR.g2, verdict])
theorem ssconv (o : G3) : Statement (.ssconv o) := g3 m38 .ssconv o (mn := 2) (by decide) rfl (fun _ _ => rfl)
theorem devid (d a : Reg) : Statement (.devid d a) :=
  ofR m3A (mn := 0) (by decide) d.field_lt a.field_lt (by decide) rfl (by simp [decFab, RawR.g2, verdict])
theorem wlease (o : G3) : Statement (.wlease o) := g3 m3A .wlease o (mn := 1) (by decide) rfl (fun _ _ => rfl)
theorem wrenew (o : G3) : Statement (.wrenew o) := g3 m3A .wrenew o (mn := 2) (by decide) rfl (fun _ _ => rfl)
theorem wdrop (a : Reg) : Statement (.wdrop a) :=
  ofR m3A (mn := 3) (by decide) (by decide) a.field_lt (by decide) rfl (by simp [decFab, RawR.g1, verdict])
theorem cstat (d : Reg) : Statement (.cstat d) :=
  ofR m3A (mn := 4) (by decide) d.field_lt (by decide) (by decide) rfl (by simp [decFab, RawR.r1, verdict])
theorem launch (o : R3) : Statement (.launch o) := r3 m3C .launch o (mn := 0) (by decide) rfl (fun _ _ => rfl)
theorem lqstat (o : R2) : Statement (.lqstat o) := r2 m3C .lqstat o (mn := 1) (by decide) rfl (fun _ _ => rfl)
theorem tryWaitHintExpiry : Statement (.tryWaitHintExpiry) := noWord _ rfl
theorem queueEntryFilled : Statement (.queueEntryFilled) := noWord _ rfl
theorem trolleyChunkDelivered : Statement (.trolleyChunkDelivered) := noWord _ rfl
theorem trolleyOperationComplete : Statement (.trolleyOperationComplete) := noWord _ rfl
theorem carriageLoadComplete : Statement (.carriageLoadComplete) := noWord _ rfl
theorem accumulatorAbsorb : Statement (.accumulatorAbsorb) := noWord _ rfl
theorem drainTilePerform : Statement (.drainTilePerform) := noWord _ rfl
theorem sum : Statement (.sum) := noWord _ rfl
theorem axpy : Statement (.axpy) := noWord _ rfl
theorem maxv : Statement (.maxv) := noWord _ rfl
theorem copy : Statement (.copy) := noWord _ rfl
theorem fill : Statement (.fill) := noWord _ rfl
theorem aop : Statement (.aop) := noWord _ rfl
theorem waitflag : Statement (.waitflag) := noWord _ rfl
theorem setflag : Statement (.setflag) := noWord _ rfl
theorem waitflagLimitExpiry : Statement (.waitflagLimitExpiry) := noWord _ rfl
theorem bankCommandComplete : Statement (.bankCommandComplete) := noWord _ rfl
theorem bankDrainApply : Statement (.bankDrainApply) := noWord _ rfl
theorem stackReduction : Statement (.stackReduction) := noWord _ rfl
theorem sqpeakRead : Statement (.sqpeakRead) := noWord _ rfl
theorem sqspillRead : Statement (.sqspillRead) := noWord _ rfl
theorem registerFill : Statement (.registerFill) := noWord _ rfl
theorem coachForm : Statement (.coachForm) := noWord _ rfl
theorem reconvWindowExpiry : Statement (.reconvWindowExpiry) := noWord _ rfl
theorem timerExpiry : Statement (.timerExpiry) := noWord _ rfl
theorem faultServiceMap : Statement (.faultServiceMap) := noWord _ rfl
theorem faultServiceReject : Statement (.faultServiceReject) := noWord _ rfl
theorem parkTimeout : Statement (.parkTimeout) := noWord _ rfl
theorem nativeSwitchOut : Statement (.nativeSwitchOut) := noWord _ rfl
theorem launchDependenceMet : Statement (.launchDependenceMet) := noWord _ rfl
theorem blockPlace : Statement (.blockPlace) := noWord _ rfl
theorem stopDeadline : Statement (.stopDeadline) := noWord _ rfl
theorem blockSave : Statement (.blockSave) := noWord _ rfl
theorem blockRestore : Statement (.blockRestore) := noWord _ rfl
theorem blockRetire : Statement (.blockRetire) := noWord _ rfl
theorem rollback : Statement (.rollback) := noWord _ rfl
theorem debugStop : Statement (.debugStop) := noWord _ rfl
theorem debugRegisterWrite : Statement (.debugRegisterWrite) := noWord _ rfl
theorem debugRelease : Statement (.debugRelease) := noWord _ rfl
theorem actTableLoadDone : Statement (.actTableLoadDone) := noWord _ rfl
theorem tlbWalkComplete : Statement (.tlbWalkComplete) := noWord _ rfl
theorem sliceRequestAccept : Statement (.sliceRequestAccept) := noWord _ rfl
theorem spillReturn : Statement (.spillReturn) := noWord _ rfl
theorem homeWritePerform : Statement (.homeWritePerform) := noWord _ rfl
theorem wayGroupConverted : Statement (.wayGroupConverted) := noWord _ rfl
theorem wayGroupRestored : Statement (.wayGroupRestored) := noWord _ rfl
theorem scrubStep : Statement (.scrubStep) := noWord _ rfl
theorem thermLt1 : Statement (.thermLt1) := noWord _ rfl
theorem thermLt2 : Statement (.thermLt2) := noWord _ rfl
theorem thermLt3 : Statement (.thermLt3) := noWord _ rfl
theorem thermActionEnd : Statement (.thermActionEnd) := noWord _ rfl
theorem thermctlWrite : Statement (.thermctlWrite) := noWord _ rfl
theorem powerClockStep : Statement (.powerClockStep) := noWord _ rfl
theorem cartAgeExpiry : Statement (.cartAgeExpiry) := noWord _ rfl
theorem cartSend : Statement (.cartSend) := noWord _ rfl
theorem elementStatus : Statement (.elementStatus) := noWord _ rfl
theorem packetArrival : Statement (.packetArrival) := noWord _ rfl
theorem transitForward : Statement (.transitForward) := noWord _ rfl
theorem linkReplay : Statement (.linkReplay) := noWord _ rfl
theorem e2eAck : Statement (.e2eAck) := noWord _ rfl
theorem e2eTimeout : Statement (.e2eTimeout) := noWord _ rfl
theorem portFailure : Statement (.portFailure) := noWord _ rfl
theorem peerRejoin : Statement (.peerRejoin) := noWord _ rfl
theorem writeLeaseExpiry : Statement (.writeLeaseExpiry) := noWord _ rfl
theorem holderLeaseExpiry : Statement (.holderLeaseExpiry) := noWord _ rfl
theorem orphanClear : Statement (.orphanClear) := noWord _ rfl
theorem powerOn : Statement (.powerOn) := noWord _ rfl
theorem hostDoorbell : Statement (.hostDoorbell) := noWord _ rfl
theorem cxlMemRead : Statement (.cxlMemRead) := noWord _ rfl
theorem cxlMemWrite : Statement (.cxlMemWrite) := noWord _ rfl
theorem attestReport : Statement (.attestReport) := noWord _ rfl
theorem attestCertificate : Statement (.attestCertificate) := noWord _ rfl
theorem partcfgWrite : Statement (.partcfgWrite) := noWord _ rfl
theorem shadowUndoDrainDone : Statement (.shadowUndoDrainDone) := noWord _ rfl
theorem fotEntryWrite : Statement (.fotEntryWrite) := noWord _ rfl
theorem granuleZeroingDone : Statement (.granuleZeroingDone) := noWord _ rfl
theorem controlWindowWrite : Statement (.controlWindowWrite) := noWord _ rfl
theorem ethernetFrame : Statement (.ethernetFrame) := noWord _ rfl
theorem contextSwitchRequest : Statement (.contextSwitchRequest) := noWord _ rfl
theorem tlbInvalidation : Statement (.tlbInvalidation) := noWord _ rfl

end Sys2Proof.Laws.Enc
end

