-- ==== Sys2Proof/Safety.lean ====
section
/-!
DEFINITION. Safety.lean: the vocabulary of the claims: when a word goes on, what a destination holds afterwards, what a word
leaves alone, and what every state keeps.
-/

namespace Sys2Proof

/-- Whether a word writes window field `n`. -/
def Instr.writesV (i : Instr) (n : Nat) : Bool := i.slots.any fun t => t.wr && t.fields.contains n

/-- Whether a word writes register `r`. -/
def Instr.writesReg (i : Instr) (r : Reg) : Bool := i.slots.any fun t => t.wr && decide (t.reg = r)

/-- Whether a word writes a queue. -/
def Instr.usesQueue (i : Instr) : Bool := i.slots.any fun t => match t.reg with | .q _ => true | _ => false

/-- Whether a word writes predicate `p` (R172, R174-R176, R200, R213). -/
def Instr.writesP (i : Instr) (p : Pred) : Bool :=
  match i with
  | .wrp _ _ => true
  | .cmpiEq o | .cmpiLt o | .cmpiLtn o | .cmpiLe o => decide (o.p = p)
  | .cmpEq o | .cmpNe o | .cmpLt o | .cmpLe o | .cmpLtn o | .cmpLen o | .tst o => decide (o.p = p)
  | .fcmpEq o | .fcmpLt o | .fcmpLe o | .fcmpUn o => decide (o.p = p)
  | .pand d _ _ | .por d _ _ | .pxor d _ _ | .pandn d _ _ | .pnot d _ | .pset d | .pclr d | .qhlp d => decide (d = p)
  | _ => false

end Sys2Proof

namespace Sys2Proof.Machine

/-! ### Words -/

/-- The agent of the turn has the members `ks`, and the word goes on for each of them: it takes no trap and waits for nothing
(R92, R81). A helper for which the word has no effect skips it (R157). -/
def State.Proceeds (s : State) (i : Instr) (check : State → FKey → Verdict) (ks : List FKey) : Prop :=
  s.members = some ks ∧ ∀ k ∈ ks, s.verdict i check k = .go ∨ (s.isHelper k = true ∧ s.verdict i check k = .skip)

/-- The word goes on for member `k`. -/
def State.Performs (s : State) (i : Instr) (check : State → FKey → Verdict) (ks : List FKey) (k : FKey) : Prop :=
  k ∈ ks ∧ s.verdict i check k = .go

/-! ### Destinations (R73, R77, R163, R313) -/

/-- A 32-bit destination of member `k` holds `v`. A window register holds it where it is declared; a live fibre that names
another does not get this far (R75), and a helper's write to one is discarded (R157). Of the members of a gang that write an s register the lowest live one's value
stands, and a helper writes none; z discards; a queue is `Pushed`. -/
def Holds32 (s t : State) (k : FKey) (d : Reg) (v : W32) : Prop :=
  match d with
  | .v n => (s.fib k).wb.toNat + n < s.declared k → t.vcell k n = { val := v }
  | .s n => s.isHelper k = false → s.lead k = k → t.scell k n = { val := v.setWidth 64 }
  | .k n => (t.fib k).k.atD n 0 = v
  | .q _ => True
  | .z => True
  | .id => True

/-- Member `k` has pushed `v` into its next entry of queue `q`: a new entry at the queue's tail where its cursor stands there,
else the entry at its cursor; and its cursor has moved on (R163, R313). -/
def Pushed (s t : State) (k : FKey) (q : Nat) (v : W32) : Prop :=
  (t.fib k).cursor.at? q = some (s.cursorAt k q + 1) ∧
    (∀ e ∈ (s.queue (s.coreOf k) q).entries, e.serial = s.cursorAt k q →
      { e with words := e.words.set (s.laneOf k) (some v) } ∈ (t.queue (s.coreOf k) q).entries) ∧
    ((s.queue (s.coreOf k) q).next ≤ s.cursorAt k q →
      { serial := s.cursorAt k q, words := (List.replicate 32 none).set (s.laneOf k) (some v), ready := true } ∈
        (t.queue (s.coreOf k) q).entries)

/-- A 64-bit destination of member `k` holds `v`: an X pair, low word first, or an s register. -/
def Holds64 (s t : State) (k : FKey) (d : Reg) (v : W64) : Prop :=
  match d with
  | .v n => (s.fib k).wb.toNat + (n + 1) < s.declared k →
      t.vcell k n = { val := v.setWidth 32 } ∧ t.vcell k (n + 1) = { val := (v >>> 32).setWidth 32 }
  | .s n => s.isHelper k = false → s.lead k = k → t.scell k n = { val := v }
  | .k _ => True
  | .q _ => True
  | .z => True
  | .id => True

/-! ### Frames -/

/-- Only fibres, gangs, coaches, what the cores hold, the buffer of fetched lines, the agents that have sent carts, the pages that agents wait for and what the
memory model remembers differ: memory, scratchpads, and every other unit of the device are as before. -/
def SameDevice (s t : State) : Prop :=
  t = { s with fibres := t.fibres, gangs := t.gangs, pipes := t.pipes, cores := t.cores, lineBuf := t.lineBuf, evicted := t.evicted, missQ := t.missQ, veil := t.veil }

/-- Everything about a fibre but its PC, registers, temporaries, predicates and its place in queues is as before. -/
def SameControl (f g : Fibre) : Prop :=
  g = { f with pc := g.pc, regs := g.regs, k := g.k, p := g.p, cursor := g.cursor, pop := g.pop }

/-- What a register word leaves alone: memory and every unit of the device; of the gangs all but s registers, of the cores all
but queues; of each fibre all but its PC and the registers, temporaries and predicates that the word names as written. -/
structure RegisterFrame (s t : State) (i : Instr) (ks : List FKey) : Prop where
  device : SameDevice s t
  control : ∀ k, SameControl (s.fib k) (t.fib k)
  cell : ∀ k m, (k ∉ ks ∨ ∀ n, i.writesV n = true → m ≠ (s.fib k).wb.toNat + n) → (t.fib k).cell m = (s.fib k).cell m
  temp : ∀ k n, (k ∉ ks ∨ i.writesReg (.k n) = false) → (t.fib k).k.atD n 0 = (s.fib k).k.atD n 0
  pred : ∀ k p, (k ∉ ks ∨ i.writesP p = false) → t.pred k p = s.pred k p
  gang : ∀ g, t.gang g = { s.gang g with s := (t.gang g).s }
  scell : ∀ g n, ((∀ k ∈ ks, s.gangOf k ≠ g) ∨ i.writesReg (.s n) = false) → (t.gang g).s.atD n {} = (s.gang g).s.atD n {}
  core : ∀ c, t.core c = { s.core c with queues := (t.core c).queues }
  queues : i.usesQueue = false → t.cores = s.cores


/-! ### Results of register words, as the spec's tables give them -/

/-- A whole number as a 32-bit result: modulo 2^32 (R166). -/
def wrap (n : Int) : W32 := BitVec.ofInt 32 n

/-- `a` read as signed, moved right with sign fill: the floor of a / 2^n (R168, R171). -/
def floorShift (a : W32) (n : Nat) : W32 := wrap (a.toInt / 2 ^ n)

/-- Position and clipped length that BFE and BFI read from b (R168). -/
def fieldPos (b : W32) : Nat := b.toNat % 32
def fieldLen (b : W32) : Nat := min (b.toNat / 2 ^ 8 % 64) (32 - fieldPos b)

/-- Rows of R167, R168 and R169 with two sources: the destination and its value for a, b, and d before. -/
def intRow : Instr → Option (R3 × (W32 → W32 → W32 → W32))
  | .add o => some (o, fun a b _ => wrap (a.toNat + b.toNat))
  | .sub o => some (o, fun a b _ => wrap (a.toNat - b.toNat))
  | .and o => some (o, fun a b _ => BitVec.ofNat 32 (a.toNat &&& b.toNat))
  | .or o => some (o, fun a b _ => BitVec.ofNat 32 (a.toNat ||| b.toNat))
  | .xor o => some (o, fun a b _ => BitVec.ofNat 32 (a.toNat ^^^ b.toNat))
  | .andn o => some (o, fun a b _ => BitVec.ofNat 32 (a.toNat &&& (2 ^ 32 - 1 - b.toNat)))
  | .min o => some (o, fun a b _ => wrap (min a.toInt b.toInt))
  | .max o => some (o, fun a b _ => wrap (max a.toInt b.toInt))
  | .minn o => some (o, fun a b _ => wrap (min a.toNat b.toNat))
  | .maxn o => some (o, fun a b _ => wrap (max a.toNat b.toNat))
  | .shl o => some (o, fun a b _ => if 32 ≤ b.toNat then 0 else wrap (a.toNat * 2 ^ b.toNat))
  | .shr o => some (o, fun a b _ => if 32 ≤ b.toNat then 0 else wrap (a.toNat / 2 ^ b.toNat))
  | .sar o => some (o, fun a b _ => if 32 ≤ b.toNat then (if a.toInt < 0 then 0xFFFFFFFF else 0) else floorShift a b.toNat)
  | .rol o => some (o, fun a b _ => wrap (a.toNat * 2 ^ (b.toNat % 32) + a.toNat / 2 ^ (32 - b.toNat % 32)))
  | .absd o => some (o, fun a b _ => wrap (if a.toInt ≤ b.toInt then b.toInt - a.toInt else a.toInt - b.toInt))
  | .bfe o => some (o, fun a b _ => wrap (a.toNat / 2 ^ fieldPos b % 2 ^ fieldLen b))
  | .mul o => some (o, fun a b _ => wrap (a.toNat * b.toNat))
  | .mulh o => some (o, fun a b _ => wrap (a.toInt * b.toInt / 2 ^ 32))
  | .mulhn o => some (o, fun a b _ => wrap (a.toNat * b.toNat / 2 ^ 32))
  | .mad o => some (o, fun a b d => wrap (a.toNat * b.toNat + d.toNat))
  | .bfi o => some (o, fun a b d => wrap (d.toNat - d.toNat / 2 ^ fieldPos b % 2 ^ fieldLen b * 2 ^ fieldPos b +
      a.toNat % 2 ^ fieldLen b * 2 ^ fieldPos b))
  | _ => none

/-- Rows of R171 and R173: the destination, the source, and the value for a and d before. -/
def immRow : Instr → Option (Reg × Reg × (W32 → W32 → W32))
  | .addi o => some (o.d, o.a, fun a _ => wrap (a.toInt + o.imm.toInt))
  | .andi o => some (o.d, o.a, fun a _ => a &&& wrap o.imm.toInt)
  | .ori o => some (o.d, o.a, fun a _ => a ||| wrap o.imm.toInt)
  | .xori o => some (o.d, o.a, fun a _ => a ^^^ wrap o.imm.toInt)
  | .shli o => some (o.d, o.a, fun a _ => wrap (a.toNat * 2 ^ o.imm.toNat))
  | .shri o => some (o.d, o.a, fun a _ => wrap (a.toNat / 2 ^ o.imm.toNat))
  | .sari o => some (o.d, o.a, fun a _ => floorShift a o.imm.toNat)
  | .muli o => some (o.d, o.a, fun a _ => wrap (a.toInt * o.imm.toInt))
  | .ldi o => some (o.d, .z, fun _ _ => wrap o.imm.toInt)
  | .ldih o => some (o.d, .z, fun _ d => wrap (o.imm.toNat * 2 ^ 14 + d.toNat % 2 ^ 14))
  | _ => none

/-- Number of leading zero bits and of one bits, and the bits in reverse (R169). -/
def leadingZeros (a : W32) : Nat := ((List.range 32).takeWhile fun i => !a.getLsbD (31 - i)).length
def oneBits (a : W32) : Nat := ((List.range 32).map fun i => if a.getLsbD i then 1 else 0).sum
def mirrored (a : W32) : W32 := wrap (((List.range 32).map fun i => if a.getLsbD i then 2 ^ (31 - i) else 0).sum : Nat)

/-- Rows of R170 with two sources of their own widths: destination, and the value for the state and the member. -/
def wideRow : Instr → Option (Reg × (State → FKey → Int))
  | .add64 o => some (o.d, fun s k => (s.src64 k o.a).toNat + (s.src64 k o.b).toNat)
  | .sub64 o => some (o.d, fun s k => (s.src64 k o.a).toNat - (s.src64 k o.b).toNat)
  | .shl64 o => some (o.d, fun s k => if 64 ≤ (s.src32 k o.b).toNat then 0 else (s.src64 k o.a).toNat * 2 ^ (s.src32 k o.b).toNat)
  | .shr64 o => some (o.d, fun s k => if 64 ≤ (s.src32 k o.b).toNat then 0 else (s.src64 k o.a).toNat / 2 ^ (s.src32 k o.b).toNat)
  | .madw o => some (o.d, fun s k => (s.src64 k o.d).toNat + (s.src32 k o.a).toNat * (s.src32 k o.b).toNat)
  | .madws o => some (o.d, fun s k => (s.src64 k o.d).toNat + (s.src32 k o.a).toInt * (s.src32 k o.b).toInt)
  | .mov64 o => some (o.d, fun s k => (s.src64 k o.a).toNat)
  | .sext64 o => some (o.d, fun s k => (s.src32 k o.a).toInt)
  | .rdl d => some (d, fun s k => (s.fib k).lr.toNat)
  | .bcs o => some (o.d, fun s k => (s.src32 k o.a).toNat * 2 ^ 32 + (s.src64 k o.d).toNat % 2 ^ 32)
  | _ => none

/-- When a compare of R172, R174 or R200 holds, for the state and the member. -/
def compareRow : Instr → Option (Pred × (State → FKey → Prop))
  | .cmpiEq o => some (o.p, fun s k => (s.src32 k o.a).toInt = o.imm.toInt)
  | .cmpiLt o => some (o.p, fun s k => (s.src32 k o.a).toInt < o.imm.toInt)
  | .cmpiLtn o => some (o.p, fun s k => (s.src32 k o.a).toNat < o.imm.toNat)
  | .cmpiLe o => some (o.p, fun s k => (s.src32 k o.a).toInt ≤ o.imm.toInt)
  | .cmpEq o => some (o.p, fun s k => s.src32 k o.a = second s k o)
  | .cmpNe o => some (o.p, fun s k => s.src32 k o.a ≠ second s k o)
  | .cmpLt o => some (o.p, fun s k => (s.src32 k o.a).toInt < (second s k o).toInt)
  | .cmpLe o => some (o.p, fun s k => (s.src32 k o.a).toInt ≤ (second s k o).toInt)
  | .cmpLtn o => some (o.p, fun s k => (s.src32 k o.a).toNat < (second s k o).toNat)
  | .cmpLen o => some (o.p, fun s k => (s.src32 k o.a).toNat ≤ (second s k o).toNat)
  | .tst o => some (o.p, fun s k => ∃ n, (s.src32 k o.a).getLsbD n = true ∧ (second s k o).getLsbD n = true)
  | .fcmpEq o => some (o.p, fun s k => (number (s.src32 k o.a)).eqv (number (second s k o)) = true)
  | .fcmpLt o => some (o.p, fun s k => (number (s.src32 k o.a)).lt (number (second s k o)) = true)
  | .fcmpLe o => some (o.p, fun s k =>
      (number (s.src32 k o.a)).lt (number (second s k o)) = true ∨ (number (s.src32 k o.a)).eqv (number (second s k o)) = true)
  | .fcmpUn o => some (o.p, fun s k => (number (s.src32 k o.a)).isNan = true ∨ (number (second s k o)).isNan = true)
  | _ => none
where
  /-- Source B; a queue that A names as well is popped a second time (R164). -/
  second (s : State) (k : FKey) (o : PR) : W32 := s.src32 k o.b (if o.a = o.b then 1 else 0)
  /-- The number an FP32 pattern stands for. -/
  number (a : W32) : FVal := fp32.decode a.toNat

/-- The value a predicate word of R175 writes, or QHLP (R213). -/
def predicateRow : Instr → Option (Pred × (State → FKey → Bool))
  | .pand d a b => some (d, fun s k => s.pred k a && s.pred k b)
  | .por d a b => some (d, fun s k => s.pred k a || s.pred k b)
  | .pxor d a b => some (d, fun s k => s.pred k a != s.pred k b)
  | .pandn d a b => some (d, fun s k => s.pred k a && !s.pred k b)
  | .pnot d a => some (d, fun s k => !s.pred k a)
  | .pset d => some (d, fun _ _ => true)
  | .pclr d => some (d, fun _ _ => false)
  | .qhlp d => some (d, fun s k => s.isHelper k)
  | _ => none
/-- The element operation of a word of R196, on bit patterns of the format: x, y and the D operand c. -/
def elementOp : Instr → Option (F3 × (Fmt → Nat → Nat → Nat → Nat))
  | .fadd o => some (o, fun f x y _ => f.add x y)
  | .fsub o => some (o, fun f x y _ => f.sub x y)
  | .fmul o => some (o, fun f x y _ => f.mul x y)
  | .ffma o => some (o, fun f x y c => f.fma x y c)
  | .fmin o => some (o, fun f x y _ => f.min x y)
  | .fmax o => some (o, fun f x y _ => f.max x y)
  | _ => none

/-- Two 16-bit elements, each worked on by itself (R20). -/
def twoHalves (f : Nat → Nat → Nat → Nat) (a b c : W32) : Nat :=
  f (a.toNat % 2 ^ 16) (b.toNat % 2 ^ 16) (c.toNat % 2 ^ 16) + 2 ^ 16 * f (a.toNat / 2 ^ 16) (b.toNat / 2 ^ 16) (c.toNat / 2 ^ 16)

/-- Rows of R169 with one source, of R176, R198 and R201-R205 with a 32-bit destination: destination and value. -/
def moveRow : Instr → Option (Reg × (State → FKey → W32))
  | .clz o => some (o.d, fun s k => BitVec.ofNat 32 (leadingZeros (s.src32 k o.a)))
  | .popc o => some (o.d, fun s k => BitVec.ofNat 32 (oneBits (s.src32 k o.a)))
  | .brev o => some (o.d, fun s k => mirrored (s.src32 k o.a))
  | .mov o => some (o.d, fun s k => s.src32 k o.a)
  | .rdp d => some (d, fun s k => BitVec.ofNat 32 (s.fib k).p.toNat)
  | .rdw d => some (d, fun s k => BitVec.ofNat 32 (s.fib k).wb.toNat)
  | .sel _ d a p => some (d, fun s k => if s.pred k p then s.src32 k a else s.src32 k d)
  | .fabs o => some (o.d, fun s k => BitVec.ofNat 32 ((s.src32 k o.a).toNat % 2 ^ 31))
  | .fneg o => some (o.d, fun s k => BitVec.ofNat 32 ((s.src32 k o.a).toNat + 2 ^ 31))
  | .fclass o => some (o.d, fun s k => BitVec.ofNat 32 (fclass32 (s.src32 k o.a).toNat))
  | .frndN o => some (o.d, fun s k => rounded .near (s.src32 k o.a))
  | .frndZ o => some (o.d, fun s k => rounded .zero (s.src32 k o.a))
  | .frndD o => some (o.d, fun s k => rounded .down (s.src32 k o.a))
  | .frndU o => some (o.d, fun s k => rounded .up (s.src32 k o.a))
  | .fscale o => some (o.d, fun s k => BitVec.ofNat 32 (fp32.encode ((fp32.decode (s.a32 k o).toNat).scale (s.b32 k o).toInt)))
  | .cvtFS o => some (o.d, fun s k => BitVec.ofNat 32 (fp32.ofInt (s.src32 k o.a).toInt))
  | .cvtFN o => some (o.d, fun s k => BitVec.ofNat 32 (fp32.ofInt (s.src32 k o.a).toNat))
  | .cvtSF o => some (o.d, fun s k => wrap ((fp32.decode (s.src32 k o.a).toNat).toRange (-2 ^ 31) (2 ^ 31 - 1)))
  | .cvtNF o => some (o.d, fun s k => wrap ((fp32.decode (s.src32 k o.a).toNat).toRange 0 (2 ^ 32 - 1)))
  | .packH2 o => some (o.d, fun s k => wrap (fp32.convert fp16 (s.a32 k o).toNat + 2 ^ 16 * fp32.convert fp16 (s.b32 k o).toNat : Nat))
  | .packB2 o => some (o.d, fun s k => wrap (fp32.convert bf16 (s.a32 k o).toNat + 2 ^ 16 * fp32.convert bf16 (s.b32 k o).toNat : Nat))
  | .packE4 o => some (o.d, fun s k => funnel s k o fun a => fp32.convert e4m3 a.toNat)
  | .packE5 o => some (o.d, fun s k => funnel s k o fun a => fp32.convert e5m2 a.toNat)
  | .packI8 o => some (o.d, fun s k => funnel s k o fun a => (BitVec.ofInt 8 (max (-128) (min 127 a.toInt))).toNat)
  | .qscale o => some (o.d, fun s k => qscale32 (s.a32 k o) (s.b32 k o))
  | .qpack o => some (o.d, fun s k => wrap ((s.src32 k o.d).toNat / 2 ^ 4 + q4Pack ((s.b32 k o).toNat % 2 ^ 8) (s.a32 k o).toNat * 2 ^ 28 : Nat))
  | .qunpk o => some (o.d, fun s k => BitVec.ofNat 32 (fp32.encode (q4Decode ((s.b32 k o).toNat % 2 ^ 8) ((s.a32 k o).toNat % 2 ^ 4))))
  | _ => none
where
  /-- FRND in one of its four directions (R198). -/
  rounded (r : Rnd) (a : W32) : W32 := BitVec.ofNat 32 (fp32.encode ((fp32.decode a.toNat).integral r))
  /-- PACK shifts D right by two bytes and puts the converted a and b on top (R202). -/
  funnel (s : State) (k : FKey) (o : R3) (cv : W32 → Nat) : W32 :=
    BitVec.ofNat 32 ((s.src32 k o.d).toNat / 2 ^ 16 + cv (s.a32 k o) * 2 ^ 16 + cv (s.b32 k o) * 2 ^ 24)

/-- UNPK: the destination pair and its two halves (R201, R202). -/
def unpackRow : Instr → Option (Reg × (State → FKey → Nat × Nat))
  | .unpkH o => some (o.d, fun s k => two fp16 (s.src32 k o.a) 16)
  | .unpkB o => some (o.d, fun s k => two bf16 (s.src32 k o.a) 16)
  | .unpkE4 o => some (o.d, fun s k => two e4m3 (s.src32 k o.a) 8)
  | .unpkE5 o => some (o.d, fun s k => two e5m2 (s.src32 k o.a) 8)
  | .unpkI8 o => some (o.d, fun s k =>
      (((BitVec.ofNat 8 (s.src32 k o.a).toNat).signExtend 32).toNat, ((BitVec.ofNat 8 ((s.src32 k o.a).toNat / 2 ^ 8)).signExtend 32).toNat))
  | _ => none
where
  /-- The two lowest elements of `n` bits, each converted to FP32. -/
  two (f : Fmt) (a : W32) (n : Nat) : Nat × Nat := (f.convert fp32 (a.toNat % 2 ^ n), f.convert fp32 (a.toNat / 2 ^ n % 2 ^ n))


/-! ### Cross-fibre results -/

/-- What lane `l` of the quad of `k` holds in `a`: 0 where that lane is not in the coach (R212). -/
def inQuad (s : State) (ks : List FKey) (k : FKey) (a : Reg) (l : Nat) : W32 :=
  match k with
  | .fib b n => if FKey.fib b (n / 4 * 4 + l) ∈ ks then s.src32 (.fib b (n / 4 * 4 + l)) a else 0
  | _ => 0

/-- What lane `l` supplies to a reduction over the quad: +0 from a helper too (R212). -/
def addend (s : State) (ks : List FKey) (k : FKey) (a : Reg) (l : Nat) : Nat :=
  match k with
  | .fib b n => if s.isHelper (.fib b (n / 4 * 4 + l)) then 0 else (inQuad s ks k a l).toNat
  | _ => 0

/-- Rows of R213 with a register result: destination, and the value for the state, the members of the coach and the member;
`n` is the member's lane in its quad. -/
def quadRow : Instr → Option (Reg × (State → List FKey → FKey → Nat → W32))
  | .qxh o => some (o.d, fun s ks k n => inQuad s ks k o.a (n / 2 * 2 + (1 - n % 2)))
  | .qxv o => some (o.d, fun s ks k n => inQuad s ks k o.a ((n + 2) % 4))
  | .qxd o => some (o.d, fun s ks k n => inQuad s ks k o.a (3 - n))
  | .qbc o => some (o.d, fun s ks k _ => inQuad s ks k o.a ((s.src32 k o.b).toNat % 4))
  | .qadd o => some (o.d, fun s ks k _ =>
      let x := addend s ks k o.a
      BitVec.ofNat 32 (fp32.add (fp32.add (x 0) (x 1)) (fp32.add (x 2) (x 3))))
  | .qmax o => some (o.d, fun s ks k _ =>
      let x := addend s ks k o.a
      BitVec.ofNat 32 (fp32.max (fp32.max (fp32.max (fp32.max (x 0) (x 0)) (x 1)) (x 2)) (x 3)))
  | .qmin o => some (o.d, fun s ks k _ =>
      let x := addend s ks k o.a
      BitVec.ofNat 32 (fp32.min (fp32.min (fp32.min (fp32.min (x 0) (x 0)) (x 1)) (x 2)) (x 3)))
  | _ => none

/-- A status word by the rows of its table: highest bit, lowest bit and value; every other bit is 0. -/
def tableWord (rows : List (Nat × Nat × Nat)) : W32 :=
  BitVec.ofNat 32 (rows.map fun x => x.2.2 % 2 ^ (x.1 + 1 - x.2.1) * 2 ^ x.2.1).sum

/-- The word of CRSTAT for a live carriage of the tenant (R365). -/
def carRows (c : Carriage) : List (Nat × Nat × Nat) :=
  [(31, 31, 1), (30, 28, match c.state with | .ready => 0 | .loading => 1 | .stale => 2 | .evicted => 3 | .saved => 4), (27, 27, c.pinned.toNat),
    (26, 26, c.tracked.toNat), (25, 25, c.paired.toNat), (24, 23, c.form), (22, 22, (Car.side c).toNat), (21, 21, c.smoothed.toNat),
    (20, 14, c.kp), (13, 12, c.np)]

/-- The word of MXSTAT (R355). -/
def mxRows (s : State) (k : FKey) : List (Nat × Nat × Nat) :=
  let x := s.core (s.coreOf k)
  [(31, 31, (x.ownerPaired && decide (s.coreOf k % 2 = 1)).toNat),
    (30, 29, if x.owner = some (s.gangOf k) then 2 else if s.gangOf k ∈ x.mxq.map (·.1) then 1 else 0), (28, 25, x.mxq.length),
    (24, 16, x.mxOps.length + x.drains.length)]

/-- The word of CSTAT (R412). -/
def cartRows (s : State) (k : FKey) : List (Nat × Nat × Nat) :=
  let own := s.reqs.filter fun r => decide (r.core = s.coreOf k) && r.dev.isSome
  [(31, 31, ((s.core (s.coreOf k)).cartFaults.any fun e => decide ((e.block, e.gang) = s.gangOf k)).toNat),
    (28, 24, (s.core (s.coreOf k)).cartFaults.length), (15, 8, min 255 (own.filter fun r => decide (r.stage = .cart)).length),
    (7, 0, min 255 (own.filter fun r => decide (r.stage = .sent)).length)]

/-- The word of QSTAT (R246). -/
def queueRows (x : Queue) : List (Nat × Nat × Nat) :=
  [(31, 31, x.bound.isSome.toNat), (20, 16, (x.bound.map (·.2)).getD 0), (13, 7, (x.entries.filter fun e => !e.ready).length),
    (6, 0, (x.entries.filter fun e => e.ready).length)]

/-- Words that answer a status in a register (R355, R365, R412), by the rows of their tables. -/
def statusRow : Instr → Option (Reg × (State → FKey → W32))
  | .crstat d a => some (d, fun s k => match s.carriageAt k (s.src32 k a).toNat none with | some (_, c) => tableWord (carRows c) | none => 0)
  | .mxstat d => some (d, fun s k => tableWord (mxRows s k))
  | .cstat d => some (d, fun s k => tableWord (cartRows s k))
  | _ => none

/-- Words that compute on registers only: what they change is a destination, a predicate, a queue (R166-R176, R196-R205,
R213, R243, R355, R365, R412). -/
def registerWord (i : Instr) : Bool :=
  (intRow i).isSome || (immRow i).isSome || (wideRow i).isSome || (compareRow i).isSome || (predicateRow i).isSome ||
    (elementOp i).isSome || (moveRow i).isSome || (unpackRow i).isSome || (quadRow i).isSome || (statusRow i).isSome ||
    (match i with | .wrp _ _ | .tlrd _ _ | .nop _ => true | _ => false)

/-- Words with one 32-bit result of R167-R173, R176 and R198-R205. -/
def result32 (i : Instr) : Option (Reg × (State → FKey → W32)) :=
  match intRow i with
  | some (o, f) => some (o.d, fun s k => f (s.src32 k o.a) (s.src32 k o.b (if o.a = o.b then 1 else 0)) (s.src32 k o.d))
  | none => match immRow i with
    | some (d, a, f) => some (d, fun s k => f (s.src32 k a) (s.src32 k d))
    | none => moveRow i

/-- Where a word of R177-R180 goes, or a NOP: the next PC for the state and the member. -/
def branchRow : Instr → Option (State → FKey → W64)
  | .nop _ => some State.nextPc
  | .brp neg p off => some fun s k => if s.pred k p = neg then s.nextPc k else away s k off
  | .bra off => some fun s k => away s k off
  | .call off => some fun s k => away s k off
  | .jmpr _ a => some fun s k => s.src64 k a
  | .callr _ a => some fun s k => s.src64 k a
  | .ret => some fun s k => (s.fib k).lr
  | _ => none
where
  /-- PC + 4 + 4 * OFF19, modulo 2^64 (R177). -/
  away (s : State) (k : FKey) (off : BitVec 19) : W64 := BitVec.ofInt 64 ((s.fib k).pc.toNat + 4 + 4 * off.toInt)

/-- The register that a word of R179 or R180 takes its target from. -/
def targetReg : Instr → Option Reg
  | .jmpr _ a => some a
  | .callr _ a => some a
  | .fork o => some o.a
  | _ => none

/-- Whether a word sets the link register (R178, R179). -/
def links : Instr → Bool
  | .call _ => true
  | .callr _ _ => true
  | _ => false

/-! ### One agent -/

/-- The agent of the turn is `k` alone; it lives, has still to perform its word, and the word passes the checks of R92, finds
its sources full and its destination free (R81), and meets no mark (R222). -/
structure State.Ready (s : State) (i : Instr) (k : FKey) : Prop where
  sole : s.members = some [k]
  live : s.isHelper k = false
  fresh : s.isServed k = false
  go : s.issueCheck k i = .go

/-- No debugger stop or timer waits for the end of the run of `k` (R253). -/
structure State.NoHeld (s : State) (k : FKey) : Prop where
  timer : (s.fib k).heldTimer = false
  debug : (s.fib k).heldDebug = false

/-- The fields of a word are as the checks of R92 want them, but for privilege. -/
structure State.FieldsOk (s : State) (k : FKey) (i : Instr) : Prop where
  field : s.illField k i = false
  classes : illOpndClass k i = false
  window : s.illOpndWindow k i = false
  base : s.illWbase k i = false
  order : i.ordOk = true
  run : s.runCount k < 23 ∨ i.runEnding = true
  role : s.roleOk k i = true

/-- Each pipe holds one coach. -/
def State.PipesDistinct (s : State) : Prop := (s.pipes.map (·.1)).Nodup

/-- A trap of fibre `n` of block `b` is delivered at once: no fibre of its gang is in the trap queue, it is in no service, it waits
for no pop (R80), and there is a handler (R250-R252). -/
structure State.CanTrap (s : State) (b n : Nat) : Prop where
  idle : (s.fib (.fib b n)).service = false
  first : (s.gang (b, n / 32)).trapq = []
  handler : (s.gang (b, n / 32)).sr.tvec ≠ 0
  free : (s.gang (b, n / 32)).debug = false
  pop : (s.fib (.fib b n)).pop = none
  pipes : s.PipesDistinct

/-- Fibre `n` of block `b` has taken trap `x`: TCAUSE, TPC, TADDR and TINFO hold it, the fibre stands at TVEC in service, its
run is over, its other registers are as before, and so are memory and every other fibre (R93, R250-R252). -/
structure Trapped (s t : State) (b n : Nat) (x : Trap) : Prop where
  cause : (t.fib (.fib b n)).tcause = BitVec.ofNat 64 x.cause
  tpc : (t.fib (.fib b n)).tpc = x.pc
  addr : (t.fib (.fib b n)).taddr = x.addr
  info : (t.fib (.fib b n)).tinfo = x.info
  pc : (t.fib (.fib b n)).pc = (s.gang (b, n / 32)).sr.tvec
  service : (t.fib (.fib b n)).service = true
  queue : (t.gang (b, n / 32)).trapq = [{ lane := n % 32, trap := x }]
  temps : (t.fib (.fib b n)).k = []
  kept : (t.fib (.fib b n)).regs = (s.fib (.fib b n)).regs ∧ (t.fib (.fib b n)).p = (s.fib (.fib b n)).p ∧
    (t.fib (.fib b n)).wb = (s.fib (.fib b n)).wb ∧ (t.fib (.fib b n)).lr = (s.fib (.fib b n)).lr
  others : ∀ k, k ≠ .fib b n → t.fib k = s.fib k
  memory : t.mem = s.mem ∧ t.scratch = s.scratch

/-- Control core `n` has taken trap `x` into its own registers and stands at its TVEC (R416). -/
structure CtlTrapped (s t : State) (n : Nat) (x : Trap) : Prop where
  cause : (t.fib (.ctl n)).tcause = BitVec.ofNat 64 x.cause
  tpc : (t.fib (.ctl n)).tpc = x.pc
  addr : (t.fib (.ctl n)).taddr = x.addr
  info : (t.fib (.ctl n)).tinfo = x.info
  pc : (t.fib (.ctl n)).pc = (s.ctlSr.atD n {}).tvec
  service : (t.fib (.ctl n)).service = true
  kept : (t.fib (.ctl n)).regs = (s.fib (.ctl n)).regs ∧ (t.fib (.ctl n)).p = (s.fib (.ctl n)).p ∧
    (t.fib (.ctl n)).lr = (s.fib (.ctl n)).lr
  others : ∀ k, k ≠ .ctl n → t.fib k = s.fib k
  memory : t.mem = s.mem ∧ t.scratch = s.scratch

/-- The checks of R92 in their order, as causes of R254, for a fibre and a word that decodes. -/
def fibreChecks (s : State) (k : FKey) (i : Instr) : List (Nat × Bool) :=
  [(0x01, apOnly i), (0x02, s.illField k i), (0x03, illOpndClass k i || s.illOpndWindow k i || s.illWbase k i || (tempDst i && s.popWaits k i)), (0x04, !i.ordOk),
    (0x05, decide (23 ≤ s.runCount k) && !i.runEnding), (0x07, !s.roleOk k i), (0x08, privileged i)]

/-- Operands of the words of XLANE and GCOLL: a value of each lane, 0 where no live fibre of the gang stands in it (R215). -/
def laneOf (s : State) (g : Nat × Nat) (a : Reg) (l : Nat) : W32 :=
  if g.2 * 32 + l ∈ s.liveInGang g then s.src32 (.fib g.1 (g.2 * 32 + l)) a else 0

/-- Lanes of live fibres, in ascending order. -/
def lanesIn (s : State) (g : Nat × Nat) : List Nat := (List.range 32).filter fun l => decide (g.2 * 32 + l ∈ s.liveInGang g)

/-- The word of the lanes for which `f` holds. -/
def lanesWhere (s : State) (g : Nat × Nat) (f : Nat → Bool) : W32 :=
  BitVec.ofNat 32 (((lanesIn s g).filter f).map fun l => 2 ^ l).sum

/-- Rows of R216 and R217 with a register result: destination, and the value of lane `l` of gang `g`. -/
def collectiveRow : Instr → Option (Reg × (State → Nat × Nat → Nat → W32))
  | .shflIdx o => some (o.d, fun s g l => laneOf s g o.a ((own s g o.b l).toNat % 32))
  | .shflUp o => some (o.d, fun s g l => if l < (own s g o.b l).toNat then own s g o.a l else laneOf s g o.a (l - (own s g o.b l).toNat))
  | .shflDn o => some (o.d, fun s g l => if 31 < l + (own s g o.b l).toNat then own s g o.a l else laneOf s g o.a (l + (own s g o.b l).toNat))
  | .shflXor o => some (o.d, fun s g l => laneOf s g o.a (l ^^^ (own s g o.b l).toNat % 32))
  | .bcast o => some (o.d, fun s g _ => laneOf s g o.a ((own s g o.b ((lanesIn s g).headD 0)).toNat % 32))
  | .ballot d p => some (d, fun s g _ => lanesWhere s g fun l => s.pred (.fib g.1 (g.2 * 32 + l)) p)
  | .gredFadd o => some (o.d, fun s g _ => BitVec.ofNat 32 (pairwise fp32.add 0 ((List.range 32).map fun l => (laneOf s g o.a l).toNat)))
  | .gredIadd o => some (o.d, fun s g _ => wrap (((List.range 32).map fun l => (laneOf s g o.a l).toNat).sum : Nat))
  | .gredFmax o => some (o.d, fun s g _ => BitVec.ofNat 32 (foldF fp32.max ((lanesIn s g).map fun l => (laneOf s g o.a l).toNat)))
  | .gredFmin o => some (o.d, fun s g _ => BitVec.ofNat 32 (foldF fp32.min ((lanesIn s g).map fun l => (laneOf s g o.a l).toNat)))
  | .gscanFadd o => some (o.d, fun s g l =>
      BitVec.ofNat 32 (scanVal 0 fp32.add ((List.range 32).map fun m => (laneOf s g o.a m).toNat) l))
  | .gscanIadd o => some (o.d, fun s g l => wrap (((List.range (l + 1)).map fun m => (laneOf s g o.a m).toNat).sum : Nat))
  | .matchV o => some (o.d, fun s g l => lanesWhere s g fun m => decide (laneOf s g o.a m = own s g o.a l))
  | _ => none
where
  /-- A lane's own operand. -/
  own (s : State) (g : Nat × Nat) (a : Reg) (l : Nat) : W32 := s.src32 (.fib g.1 (g.2 * 32 + l)) a

/-- The votes of R216: predicate, and whether it holds for the gang. -/
def voteRow : Instr → Option (Pred × (State → Nat × Nat → Bool))
  | .voteAny d p => some (d, fun s g => (lanesIn s g).any fun l => s.pred (.fib g.1 (g.2 * 32 + l)) p)
  | .voteAll d p => some (d, fun s g => (lanesIn s g).all fun l => s.pred (.fib g.1 (g.2 * 32 + l)) p)
  | _ => none

/-- Every live fibre of gang `g`, and no other live one, is in the agent of the turn, all at one PC; the word goes on for each,
and no helper stalls. -/
structure State.WholeGang (s : State) (g : Nat × Nat) (i : Instr) (ks : List FKey) : Prop where
  members : s.members = some ks
  all : ks.filter (fun k => !s.isHelper k) = (s.liveInGang g).map (FKey.fib g.1)
  some_ : s.liveInGang g ≠ []
  go : ∀ n ∈ s.liveInGang g, s.issueCheck (.fib g.1 n) i = .go
  helpers : ∀ k ∈ ks, s.isHelper k = true → s.helperCheck k i ≠ .stall
  pc : ∀ n ∈ s.liveInGang g, ∀ m ∈ s.liveInGang g, (s.fib (.fib g.1 n)).pc = (s.fib (.fib g.1 m)).pc

/-- The agent of the turn brings the last live fibres of gang `g` to collective `i`: every other one waits there, all at one PC
(R214). -/
structure State.LastOfGang (s : State) (g : Nat × Nat) (i : Instr) (ks : List FKey) : Prop where
  members : s.members = some ks
  own : ∀ k ∈ ks, s.isHelper k = false → ∃ n ∈ s.liveInGang g, k = .fib g.1 n
  some_ : ∃ n ∈ s.liveInGang g, FKey.fib g.1 n ∈ ks
  others : ∀ n ∈ s.liveInGang g, FKey.fib g.1 n ∉ ks → (s.fib (.fib g.1 n)).wait = .coll i
  go : ∀ n ∈ s.liveInGang g, FKey.fib g.1 n ∈ ks → s.issueCheck (.fib g.1 n) i = .go
  helpers : ∀ k ∈ ks, s.isHelper k = true → s.helperCheck k i ≠ .stall
  pc : ∀ n ∈ s.liveInGang g, ∀ m ∈ s.liveInGang g, (s.fib (.fib g.1 n)).pc = (s.fib (.fib g.1 m)).pc

/-- The result of a collective for fibre `n` of gang `g`; of the participants that write an s register the lowest one's stands (R77). -/
def LaneHolds (s t : State) (g : Nat × Nat) (n : Nat) (d : Reg) (v : W32) : Prop :=
  match d with
  | .s m => (∀ x ∈ s.liveInGang g, n ≤ x) → t.scell (.fib g.1 n) m = { val := v.setWidth 64 }
  | d => Holds32 s t (.fib g.1 n) d v

/-- The value a special register holds once `v` has been written to it (R90, R91). -/
def srLimit (n : Nat) (v : W64) : W64 :=
  match n with
  | 0x005 => BitVec.ofNat 64 (v.toNat % 256)
  | 0x010 => BitVec.ofNat 64 (max 100 (min 65000 v.toNat))
  | 0x011 => BitVec.ofNat 64 (max 256 (min 65535 v.toNat))
  | 0x012 => BitVec.ofNat 64 (min 65535 v.toNat)
  | _ => v

/-- A destination of RDSR holds `v`: a pair or an s register the whole of a 64-bit register, any other its low half (R428). -/
def HoldsSr (s t : State) (k : FKey) (d : Reg) (n : Nat) (v : W64) : Prop :=
  match d with
  | .v m => if srWide n = true ∧ m.val % 2 = 0 then Holds64 s t k d v else Holds32 s t k d (v.setWidth 32)
  | .s _ => if srWide n = true then Holds64 s t k d v else Holds32 s t k d (v.setWidth 32)
  | _ => Holds32 s t k d (v.setWidth 32)

/-- The registers, predicates, window base and link register of `k` are as before. -/
def SameRegs (s t : State) (k : FKey) : Prop :=
  (t.fib k).regs = (s.fib k).regs ∧ (t.fib k).p = (s.fib k).p ∧ (t.fib k).wb = (s.fib k).wb ∧ (t.fib k).lr = (s.fib k).lr

/-- Memory, scratchpads and what is poisoned in them are as before. -/
def SameMemory (s t : State) : Prop :=
  t.mem = s.mem ∧ t.scratch = s.scratch ∧ t.poisonLines = s.poisonLines ∧ t.poisonWords = s.poisonWords ∧ t.poisonScratch = s.poisonScratch

/-- Every other fibre than `k` is as before. -/
def OthersSame (s t : State) (k : FKey) : Prop := ∀ m, m ≠ k → t.fib m = s.fib m

/-- What a word of one agent leaves alone when it acts on a unit: memory, its own registers but for those `d` covers, and
every other fibre. -/
structure UnitFrame (s t : State) (k : FKey) (d : Option Slot) : Prop where
  memory : SameMemory s t
  others : OthersSame s t k
  cell : ∀ m, (∀ x, d = some x → ∀ n ∈ x.fields, m ≠ (s.fib k).wb.toNat + n) → (t.fib k).cell m = (s.fib k).cell m
  own : (t.fib k).p = (s.fib k).p ∧ (t.fib k).wb = (s.fib k).wb ∧ (t.fib k).lr = (s.fib k).lr
  scell : ∀ g n, (∀ x, d = some x → x.reg ≠ .s n) → (t.gang g).s.atD n {} = (s.gang g).s.atD n {}

/-- The destination that a slot names stands empty until its value comes (R80). -/
def Emptied (t : State) (k : FKey) (x : Slot) : Prop :=
  match x.reg with
  | .s n => (t.scell k n).full = false
  | _ => ∀ n ∈ x.fields, (t.fib k).wb.toNat + n < t.declared k → (t.vcell k n).full = false

/-- A checked access of `k` to local memory: aligned, translated and permitted (R220), with nothing before it to wait for
(R104, R121, R279, R407). -/
structure State.Reaches (s : State) (k : FKey) (i : Instr) (acc : Acc) (ord : Order) (sc : Scope) (va : W64) (n : Nat) (x : Target) : Prop where
  aligned : va.toNat % n = 0
  target : s.target k acc va = .ok x
  acquired : s.acqPending k = false
  released : s.fabCheck k i ord sc = .go
  room : s.targetWait s k i va acc.writes x = .go
  here : x.dev = none
  plain : ∀ c, k = .ctl c → inControl va.toNat = false ∧ s.fotGranule x.pa = none

/-- A checked access of `k` to memory of device `d`, reached and under no lease that this device holds, with nothing before it to
wait for (R104, R121, R279, R393). -/
structure State.ReachesFar (s : State) (k : FKey) (i : Instr) (acc : Acc) (ord : Order) (sc : Scope) (va : W64) (n : Nat) (x : Target) (d : Nat) : Prop where
  aligned : va.toNat % n = 0
  target : s.target k acc va = .ok x
  acquired : s.acqPending k = false
  released : s.fabCheck k i ord sc = .go
  room : s.targetWait s k i va acc.writes x = .go
  away : x.dev = some d
  single : isGroup d = false
  free : s.held? d x.pa = none
  up : s.unreachable d = false

/-- Request `r`, asked of device `d`, has gone into a cart for it (R120, R403). -/
def InCart (t : State) (r : Req) (d : Nat) : Prop :=
  r.dev = some d ∧ r.stage = .cart ∧ ∃ c ∈ (t.die (dieOf r.core)).carts, c.dest = d ∧ r.id ∈ c.elems

/-- A cart of the die of `k` is free for device `d`, and none holds an access to the same address (R125, R403). -/
def State.CartFree (s : State) (k : FKey) (pa : Nat) : Prop :=
  (s.die (dieOf (s.coreOf k))).carts.length < 128 ∧ ∀ q ∈ s.reqs, q.stage = .cart → q.pa ≠ pa

/-- One request more than before, the last: of `k`, for what it asks at a physical address. -/
structure Asked (s t : State) (k : FKey) (w : What) (pa : Nat) (r : Req) : Prop where
  one : t.reqs.length = s.reqs.length + 1
  last : t.reqs.getLast? = some r
  by_ : r.org = .fibre k
  what : r.what = w
  at_ : r.pa = pa

end Sys2Proof.Machine

namespace Sys2Proof.Machine

/-! ### Memory words -/

/-- Rows of R230: operands, minor with 0x20 or 0x28, register slot of D, and what each member asks for (R231). -/
def atomRow : Instr → Option (AtomOp × Nat × SlotKind × (State → FKey → What))
  | .aadd o => some (o, 0x20, .vs, word 0x20 o)
  | .afadd o => some (o, 0x21, .vs, word 0x21 o)
  | .amin o => some (o, 0x22, .vs, word 0x22 o)
  | .amax o => some (o, 0x23, .vs, word 0x23 o)
  | .aminn o => some (o, 0x24, .vs, word 0x24 o)
  | .amaxn o => some (o, 0x25, .vs, word 0x25 o)
  | .aand o => some (o, 0x26, .vs, word 0x26 o)
  | .aor o => some (o, 0x27, .vs, word 0x27 o)
  | .axor o => some (o, 0x28, .vs, word 0x28 o)
  | .axch o => some (o, 0x29, .vs, word 0x29 o)
  | .acas o => some (o, 0x2A, .x, fun s k =>
      .atom 0x2A o.use (BitVec.ofNat 64 ((s.src64 k o.d).toNat / 2 ^ 32)) (BitVec.ofNat 64 ((s.src64 k o.d).toNat % 2 ^ 32)))
  | .ainc o => some (o, 0x2B, .vs, fun _ _ => .atom 0x2B o.use 0 0)
  | .aadd64 o => some (o, 0x2C, .xs, dword 0x2C o)
  | .acas64 o => some (o, 0x2D, .grp 4 4, fun s k =>
      .atom 0x2D o.use (BitVec.ofNat 64 (s.dataOf k (rdSlot (.grp 4 4) o.d) / 2 ^ 64)) (BitVec.ofNat 64 (s.dataOf k (rdSlot (.grp 4 4) o.d))))
  | .axch64 o => some (o, 0x2E, .xs, dword 0x2E o)
  | .ahadd o => some (o, 0x2F, .vs, word 0x2F o)
  | _ => none
where
  /-- A 32-bit operand, zero-extended. -/
  word (op : Nat) (o : AtomOp) (s : State) (k : FKey) : What := .atom op o.use (BitVec.ofNat 64 (s.src32 k o.d).toNat) 0
  /-- A 64-bit operand. -/
  dword (op : Nat) (o : AtomOp) (s : State) (k : FKey) : What := .atom op o.use (s.src64 k o.d) 0

/-- New value of an atomic of R230 on numbers, none where it writes nothing: old value `o`, operand `x`, expected value `e`. -/
def atomNew (op o x e : Nat) : Option Nat :=
  match op with
  | 0x20 => some ((o + x) % 2 ^ 32)
  | 0x21 => some (fp32.add o x % 2 ^ 32)
  | 0x22 => some (if (BitVec.ofNat 32 o).toInt ≤ (BitVec.ofNat 32 x).toInt then o else x)
  | 0x23 => some (if (BitVec.ofNat 32 o).toInt ≤ (BitVec.ofNat 32 x).toInt then x else o)
  | 0x24 => some (min o x)
  | 0x25 => some (max o x)
  | 0x26 => some (o &&& x)
  | 0x27 => some (o ||| x)
  | 0x28 => some (o ^^^ x)
  | 0x29 => some x
  | 0x2A => if o = e then some x else none
  | 0x2B => some ((o + 1) % 2 ^ 32)
  | 0x2C => some ((o + x) % 2 ^ 64)
  | 0x2D => if o = e then some x else none
  | 0x2E => some x
  | 0x2F => some ((fp16.add (o % 2 ^ 16) (x % 2 ^ 16) + 2 ^ 16 * fp16.add (o / 2 ^ 16) (x / 2 ^ 16)) % 2 ^ 32)
  | _ => none

/-- Words of the special-function unit and their results from the sources at issue (R206, R207). -/
def sfuRow : Instr → Option (Reg × (State → FKey → W32))
  | .rcp o => some (o.d, fun s k => BitVec.ofNat 32 (fp32.rcp (s.src32 k o.a).toNat))
  | .rsq o => some (o.d, fun s k => BitVec.ofNat 32 (fp32.rsq (s.src32 k o.a).toNat))
  | .sqrt o => some (o.d, fun s k => BitVec.ofNat 32 (fp32.sqrt (s.src32 k o.a).toNat))
  | .div o => some (o.d, fun s k => BitVec.ofNat 32 (fp32.div (s.src32 k o.a).toNat (s.src32 k o.b).toNat))
  | .act o n => some (o.d, fun s k => actBank (s.table (s.coreOf k) n.toNat).activeBank (s.src32 k o.a))
  | _ => none

/-- What an arrival update (dc, dt) makes of the arrival word at `a`: TARGET, COUNT, the phase word, REARM (R115, R116). -/
def ArrivalDone (m m' : Memory) (a dc dt : Nat) : Prop :=
  (∀ x, x < a ∨ a + 16 ≤ x → m'.read x = m.read x) ∧
  if (m.get a 4 + dt) % 2 ^ 32 ≤ (m.get (a + 4) 4 + dc) % 2 ^ 32 then
    m'.get a 4 = m.get (a + 12) 4 ∧ m'.get (a + 4) 4 = 0 ∧ m'.get (a + 12) 4 = m.get (a + 12) 4 ∧
      m'.get (a + 8) 4 = (1 - m.get (a + 8) 4 / 2 ^ 31) * 2 ^ 31 +
        (if (m.get a 4 + dt) % 2 ^ 32 < (m.get (a + 4) 4 + dc) % 2 ^ 32 then 1 else m.get (a + 8) 4 / 2 ^ 30 % 2) * 2 ^ 30 +
        (m.get (a + 8) 4 % 2 ^ 30 + 1) % 2 ^ 30
  else
    m'.get a 4 = (m.get a 4 + dt) % 2 ^ 32 ∧ m'.get (a + 4) 4 = (m.get (a + 4) 4 + dc) % 2 ^ 32 ∧
      m'.get (a + 8) 4 = m.get (a + 8) 4 ∧ m'.get (a + 12) 4 = m.get (a + 12) 4

/-- A scratchpad access of `k` through register `a`: `n`-aligned and inside an allocation, with storage byte `key` (R151, R226). -/
structure State.ScratchAt (s : State) (k : FKey) (a : Reg) (n key : Nat) : Prop where
  aligned : (s.src32 k a).toNat % n = 0
  at_ : ∃ b off, s.scratchAddr (s.gangOf k).1 (s.src32 k a).toNat = .ok (b, off) ∧ key = s.scratchKey b off

/-- After a try-wait: the predicate is set and the fibre goes on where the condition `c` holds, else it waits at its PC; no other
predicate and no register changes (R239). -/
def Settles (s t : State) (k : FKey) (p : Pred) (c : Bool) (w : Wait) : Prop :=
  (t.fib k).regs = (s.fib k).regs ∧ (∀ q, q ≠ p → t.pred k q = s.pred k q) ∧
    if c then t.pred k p = true ∧ (t.fib k).pc = (s.fib k).pc + 4 ∧ (t.fib k).wait = .ready
    else t.pred k p = s.pred k p ∧ (t.fib k).pc = (s.fib k).pc ∧ (t.fib k).wait = w

/-- What every step keeps: memory and scratchpads in their canonical form, one coach on a pipe. -/
structure State.Inv (s : State) : Prop where
  mem : s.mem.wf = true
  scratch : s.scratch.wf = true
  pipes : s.PipesDistinct

end Sys2Proof.Machine

namespace Sys2Proof.Machine

/-! ### Units -/

/-- Ticket `n` of context `x` of core `c` is completed: the value has reached it, or will once the tickets before it are done
(R8). -/
def State.Completed (s : State) (c x n : Nat) : Prop := n ≤ (s.ctx c x).value ∨ n ∈ (s.ctx c x).done

/-- The next ticket of a context (R305). -/
def State.nextTicket (s : State) (c x : Nat) : Nat := (s.ctx c x).issued + 1

/-- Trolley commands: operands, kind and what the record is checked as (R299). -/
def trolleyRow : Instr → Option (G3 × Nat × ShCmd)
  | .tcpy o => some (o, 0, .tcpy)
  | .tgath o => some (o, 1, .tgath)
  | .tscat o => some (o, 2, .tscat)
  | .tfill o => some (o, 3, .tfill)
  | .tred o => some (o, 4, .tred)
  | _ => none

/-- What a chunk of a trolley operation does, by its kind, with what the event's arguments supply (R306). -/
def State.chunk (s : State) (op : TrolleyOp) (row n : Nat) : Except EngStop State :=
  let s1 := s.joins (op.by_ s).p op.deps
  let sup : Sup := { data := s.args.bytes, idx := s.args.nats.drop 2, code := s.args.opt.getD 0 }
  if n = scaleChunk then s1.chunkScale op row sup
  else if op.toTensor then s1.chunkIn op row (((shLines op.record op.laddr row)[n]?).getD 0) sup
  else s1.chunkOut op row (((shLines op.record op.laddr row)[n]?).getD 0) sup

/-- What follows an accepted word of one agent: the next PC, memory and the other fibres as before. -/
def WordDone (s t : State) (k : FKey) : Prop := (t.fib k).pc = (s.fib k).pc + 4 ∧ SameMemory s t

/-- The engine operation of a product or MXZERO word: descriptor register, whether paired, kind, and its checks (R336, R348,
R349, R356). -/
def engineRow (i : Instr) : Option (Reg × (State → FKey → MxKind) × (State → FKey → Verdict)) :=
  match i with
  | .mmaR o => some (o.d, fun s k => .mmaR o.fmt o.bsel.toNat [s.fragment k o.a o.fmt] (s.carKey k o.b) false,
      mmaCheck i o.fmt false o.b State.lead (mmaRDesc i o.fmt false o.d))
  | .mmapR o => some (o.d, fun s k => .mmaR o.fmt o.bsel.toNat [s.fragment k o.a o.fmt] (s.carKey k o.b) true,
      mmaCheck i o.fmt true o.b State.lead (mmaRDesc i o.fmt true o.d))
  | .mmaS o => some (o.d, fun s k => .mmaS o.fmt (s.src64 k o.a) (s.carKey k o.b) false,
      mmaCheck i o.fmt false o.b (fun _ k => k) (mmaSDesc i o.fmt false o.d o.a))
  | .mmapS o => some (o.d, fun s k => .mmaS o.fmt (s.src64 k o.a) (s.carKey k o.b) true,
      mmaCheck i o.fmt true o.b (fun _ k => k) (mmaSDesc i o.fmt true o.d o.a))
  | .mxzero d both => some (d, fun _ _ => .zero both, mxzeroCheck d both)
  | _ => none

end Sys2Proof.Machine

namespace Sys2Proof.Machine

/-! ### Bank commands (R375) -/

/-- Values and their poison that a bank command reads at element `i` from `off`. -/
def bankElem (s : State) (n off i : Nat) (c : BankCmd) : Nat := s.mem.get (bankPa n (off + i * Bx.esize c)) (Bx.esize c)

/-- Element steps by instruction: operation code, steps in all, and for the state, the bank and the command as it stands the
offset, size and value of the element written. -/
def bankRow : Instr → Option (Nat × (BankCmd → Nat) × (State → Nat → BankCmd → Nat × Nat × Nat))
  | .sum => some (1, fun _ => 1, fun s n c =>
      (Bx.a1 c, Bx.osize c, bankSum c ((List.range (Bx.count c)).map fun i => bankElem s n (Bx.a2 c) i c)))
  | .axpy => some (2, Bx.count, fun s n c =>
      (Bx.a1 c + c.step * Bx.esize c, Bx.esize c, bankAxpy c (bankElem s n (Bx.a2 c) c.step c) (bankElem s n (Bx.a1 c) c.step c)))
  | .maxv => some (3, Bx.count, fun s n c =>
      (Bx.a1 c + c.step * Bx.esize c, Bx.esize c, bankMax c (bankElem s n (Bx.a1 c) c.step c) (bankElem s n (Bx.a2 c) c.step c)))
  | .copy => some (4, Bx.count, fun s n c =>
      (Bx.a1 c + c.step * Bx.esize c, Bx.esize c,
        if c.step = 0 then bankElem s n (Bx.a2 c) 0 c else (c.buf.getD c.step (0, false)).1))
  | .fill => some (5, Bx.count, fun _ _ c => (Bx.a1 c + c.step * Bx.esize c, Bx.esize c, Bx.a3 c))
  | _ => none

/-- The way group that holds the flag of a flag command is converted (R290, R376). -/
def State.flagStored (s : State) (c : BankCmd) : Bool :=
  decide (Bx.a1 c % 2 ^ 20 / 2 ^ 18 < (s.slice (Bx.a1 c / 2 ^ 30 % 4 * 48 + Bx.a1 c / 2 ^ 28 % 4 * 16 + Bx.a1 c / 2 ^ 24 % 16)).groups)

/-- The command `c` at the head of an executor of bank `n` has been performed and waits for its completion (R377). -/
structure CmdEnded (s t : State) (n : Nat) (exe : Bool) (c : BankCmd) : Prop where
  gone : (t.bank n).queue exe = ((s.bank n).queue exe).drop 1
  done : ∃ d, t.bankDone = s.bankDone ++ [d] ∧ d.bank = n ∧ d.exe = exe ∧ d.core = c.core ∧ d.ticket = c.ticket

/-- This device can send `n` packets in class `cls` to device `d` now: the flow has not been given up, has room for them, and none waits
before them (R398). -/
structure State.CanSend (s : State) (d cls n : Nat) : Prop where
  alive : (s.flows.atD (d, cls) {}).givenUp = false
  room : (s.flows.atD (d, cls) {}).unacked.length + n ≤ 1024
  first : ∀ b ∈ s.backlog, ¬(b.1 = d ∧ b.2.1 = cls)

/-- Nothing but units differ: no agent, memory or scratchpad. -/
def UnitsOnly (s t : State) : Prop := SameMemory s t ∧ t.fibres = s.fibres ∧ t.gangs = s.gangs ∧ t.pipes = s.pipes

end Sys2Proof.Machine
end

