-- ==== Sys2Proof/Certificates/Slice0/Obligations.lean ====
section
/-!
DEFINITION. Certificates/Slice0/Obligations.lean: the statements about the Q9, each with the rules of spec/ it formalises.
-/

open Sys2Proof Sys2Proof.Machine

/-! ## Encoding -/

/-- R71, R87: words the spec writes out decode to the instructions they stand for (the table after R316). -/
def Obligations.WordsDecode : Prop :=
  decode 0x3488000A = .ok (.brp true 1 10) ∧ decode 0x36000058 = .ok (.call 88) ∧
    decode 0x82008963 = .ok (.ld { w := .b32, ord := .rlx, sc := .fib, d := .v 34, a := .v 44, ch := .nol1 }) ∧
    decode 0x3B8891FE = .ok (.trl { wa := false, wb := false, d := .v 34, a := .v 35, b := .z }) ∧
    decode 0x26C00200 = .ok (.ldih { d := .v 48, imm := 0x200 }) ∧
    decode 0x0D8C942A = .ok (.mad { wa := false, wb := false, d := .v 50, a := .v 40, b := .v 42 }) ∧
    decode 0x1D346410 = .ok (.shri { wa := false, d := .v 52, a := .v 50, imm := 16 }) ∧
    decode 0x0307C11F = .ok (.rdsr (.v 31) 0x11F) ∧
    decode 0x868001D0 = .ok (.st { w := .b256, ord := .rlx, sc := .fib, d := .v 0, a := .v 58, ch := .normal })

/-- R71-R73, R87: every instruction with a well-formed word has one that decodes to it, with every operand at every value its
field admits. -/
def Obligations.EncodeThenDecode : Prop :=
  ∀ i : Instr, i.wordOk = true → ∃ w, encode i = some w ∧ decode w = .ok i

/-- R71, R79, R81, R92: no bit of a word that decodes is lost: the instruction's own word is the word it was decoded from. -/
def Obligations.DecodeThenEncode : Prop :=
  ∀ (w : W32) (i : Instr), decode w = .ok i → i.wordOk = true ∧ encode i = some w

/-! ## Register words

Every statement here is about an agent whose members all go on with the word (`Proceeds`): its conclusion is the next state. -/

/-- R167, R168, R169 (MUL to MAD, BFI): each member's destination takes the row's result, and its PC moves to the next word. -/
def Sys2Proof.Claims.IntegerResults : Prop :=
  ∀ i o f, intRow i = some (o, f) → ∀ s ks, s.Proceeds i noCheck ks → ∃ t, exec i s = .next t ∧
    ∀ k, s.Performs i noCheck ks k →
      Holds32 s t k o.d (f (s.src32 k o.a) (s.src32 k o.b (if o.a = o.b then 1 else 0)) (s.src32 k o.d)) ∧
        (s.isHelper k = false → (t.fib k).pc = (s.fib k).pc + 4)

/-- R171, R173: the immediate words, with the immediate sign-extended or, in a shift, unsigned; LDI and LDIH. -/
def Sys2Proof.Claims.ImmediateResults : Prop :=
  ∀ i d a f, immRow i = some (d, a, f) → ∀ s ks, s.Proceeds i noCheck ks → ∃ t, exec i s = .next t ∧
    ∀ k, s.Performs i noCheck ks k →
      Holds32 s t k d (f (s.src32 k a) (s.src32 k d)) ∧ (s.isHelper k = false → (t.fib k).pc = (s.fib k).pc + 4)

/-- R167 to R169, R171, R173: the integer words with register and with immediate operands. -/
def Obligations.RegisterResults : Prop :=
  Claims.IntegerResults ∧ Claims.ImmediateResults

/-- R170, R176 (RDL, BCS): 64-bit results modulo 2^64, in an X pair or an s register. R201, R202: UNPK fills an X pair, the
lower element in the lower register. -/
def Obligations.WideResults : Prop :=
  (∀ i d f, wideRow i = some (d, f) → ∀ s ks, s.Proceeds i noCheck ks → ∃ t, exec i s = .next t ∧
    ∀ k, s.Performs i noCheck ks k →
      Holds64 s t k d (BitVec.ofInt 64 (f s k)) ∧ (s.isHelper k = false → (t.fib k).pc = (s.fib k).pc + 4)) ∧
  (∀ i d f, unpackRow i = some (d, f) → ∀ s ks, s.Proceeds i noCheck ks → ∃ t, exec i s = .next t ∧
    ∀ k, s.Performs i noCheck ks k →
      Holds64 s t k d (BitVec.ofNat 64 ((f s k).1 + 2 ^ 32 * (f s k).2)) ∧ (s.isHelper k = false → (t.fib k).pc = (s.fib k).pc + 4))

/-- R172, R174: a compare writes 1 to its predicate when it holds and 0 otherwise. -/
def Sys2Proof.Claims.CompareResults : Prop :=
  ∀ i p f, compareRow i = some (p, f) → ∀ s ks, s.Proceeds i noCheck ks → ∃ t, exec i s = .next t ∧
    ∀ k, s.Performs i noCheck ks k →
      (t.pred k p = true ↔ f s k) ∧ (s.isHelper k = false → (t.fib k).pc = (s.fib k).pc + 4)

/-- R175, R213 (QHLP): the predicate words; R176 (WRP): all sixteen predicates take bits [15:0] of a. -/
def Sys2Proof.Claims.PredicateResults : Prop :=
  (∀ i p f, predicateRow i = some (p, f) → ∀ s ks, s.Proceeds i noCheck ks → ∃ t, exec i s = .next t ∧
    ∀ k, s.Performs i noCheck ks k → t.pred k p = f s k ∧ (s.isHelper k = false → (t.fib k).pc = (s.fib k).pc + 4)) ∧
  (∀ wa a s ks, s.Proceeds (.wrp wa a) noCheck ks → ∃ t, exec (.wrp wa a) s = .next t ∧
    ∀ k, s.Performs (.wrp wa a) noCheck ks k →
      (t.fib k).p = BitVec.ofNat 16 (s.src32 k a).toNat ∧ (s.isHelper k = false → (t.fib k).pc = (s.fib k).pc + 4))

/-- R172, R174 to R176, R200: compares and predicate words. -/
def Obligations.PredicateAndCompareResults : Prop :=
  Claims.CompareResults ∧ Claims.PredicateResults

/-- R196, R20: FADD to FMAX in FP32, in the two 16-bit formats half by half, and in FP64 on X pairs; the element operations
are the model's, from the exact result rounded once. -/
def Obligations.FloatResults : Prop :=
  ∀ i o op, elementOp i = some (o, op) → ∀ s ks, s.Proceeds i noCheck ks → ∃ t, exec i s = .next t ∧
    ∀ k, s.Performs i noCheck ks k → (s.isHelper k = false → (t.fib k).pc = (s.fib k).pc + 4) ∧
      match o.fmt with
      | .f32 => Holds32 s t k o.d (BitVec.ofNat 32 (op fp32 (s.src32 k o.a).toNat (s.src32 k o.b).toNat (s.src32 k o.d).toNat))
      | .h2 => Holds32 s t k o.d (BitVec.ofNat 32 (twoHalves (op fp16) (s.src32 k o.a) (s.src32 k o.b) (s.src32 k o.d)))
      | .b2 => Holds32 s t k o.d (BitVec.ofNat 32 (twoHalves (op bf16) (s.src32 k o.a) (s.src32 k o.b) (s.src32 k o.d)))
      | .d => Holds64 s t k o.d (BitVec.ofNat 64 (op fp64 (s.src64 k o.a).toNat (s.src64 k o.b).toNat (s.src64 k o.d).toNat))

/-- R169 (CLZ, POPC, BREV), R176, R198, R199, R201 to R205: 32-bit results of one source, of conversions and of PACK. -/
def Obligations.MoveResults : Prop :=
  ∀ i d f, moveRow i = some (d, f) → ∀ s ks, s.Proceeds i noCheck ks → ∃ t, exec i s = .next t ∧
    ∀ k, s.Performs i noCheck ks k →
      Holds32 s t k d (f s k) ∧ (s.isHelper k = false → (t.fib k).pc = (s.fib k).pc + 4)

/-- R212, R213: exchanges, QBC and the reductions over a quad; an absent lane supplies 0. -/
def Sys2Proof.Claims.QuadResults : Prop :=
  ∀ (i : Instr) d f, quadRow i = some (d, f) → ∀ s ks, s.Proceeds i noCheck ks → ∃ t, exec i s = .next t ∧
    ∀ b n, s.Performs i noCheck ks (.fib b n) →
      Holds32 s t (.fib b n) d (f s ks (.fib b n) (n % 4)) ∧ (s.isHelper (.fib b n) = false → (t.fib (.fib b n)).pc = (s.fib (.fib b n)).pc + 4)

/-- R355, R365, R412, R246: CRSTAT, MXSTAT, CSTAT and QSTAT answer a live member with a word of the bits that those tables give, every
other bit 0 (PAIRED of MXSTAT in the follower core: DEDUCED, log 26); R243: TLRD reads the value of a timeline context of the core. -/
def Sys2Proof.Claims.StatusReads : Prop :=
  (∀ (i : Instr) d f, statusRow i = some (d, f) → ∀ s ks, s.Proceeds i noCheck ks → ∃ t, exec i s = .next t ∧
    ∀ k, s.Performs i noCheck ks k → s.isHelper k = false → Holds32 s t k d (f s k) ∧ (t.fib k).pc = (s.fib k).pc + 4) ∧
  (∀ d q (s : State) k, s.Ready (.qstat d q) k → ∃ t, exec (.qstat d q) s = .next t ∧
    Holds32 s t k d (tableWord (queueRows (s.queue (s.coreOf k) q.toNat))) ∧ (t.fib k).pc = (s.fib k).pc + 4) ∧
  (∀ d c (s : State) ks, s.Proceeds (.tlrd d c) noCheck ks → ∃ t, exec (.tlrd d c) s = .next t ∧
    ∀ k, s.Performs (.tlrd d c) noCheck ks k →
      Holds64 s t k d (BitVec.ofNat 64 (s.ctx (s.coreOf k) c.toNat).value) ∧
        (s.isHelper k = false → (t.fib k).pc = (s.fib k).pc + 4))

/-- R212, R213, R243, R246, R355, R365, R412: words on a quad, and words that answer a status. -/
def Obligations.QuadAndStatusResults : Prop :=
  Claims.QuadResults ∧ Claims.StatusReads

/-- R163, R313: a result whose destination is q6 or q7 is pushed: into a new entry at the tail, or the entry at the fibre's
cursor, at its gang-lane. -/
def Sys2Proof.Claims.QueuePush : Prop :=
  ∀ (i : Instr) q f, result32 i = some (.q q, f) → ∀ s k, s.Ready i k → (∀ x ∈ i.slots, x.rd = true → x.reg ≠ .q q) → ∃ t, exec i s = .next t ∧ Pushed s t k q (f s k)

/-- R73, R163, R194: the frame of the words that compute on registers: everything they do not name stays as it was. -/
def Sys2Proof.Claims.RegisterWordFrame : Prop :=
  ∀ (i : Instr), registerWord i = true → ∀ s ks, s.Proceeds i noCheck ks → ∃ t, exec i s = .next t ∧ RegisterFrame s t i ks

/-- R73, R163, R194, R313: where a result in a queue goes, and what a register word leaves alone. -/
def Obligations.RegisterFrames : Prop :=
  Claims.QueuePush ∧ Claims.RegisterWordFrame

/-- R92, R81, R222, R163, R244: an agent goes on with a word whose fields pass the checks of R92, whose sources are full and carry
no mark, whose destinations are full, and whose queues are bound to its gang, filled where it pops (once more where a source before
it pops the same one) and not full where it pushes; and where no debugger has written the destination of a pop it waited for. -/
def Sys2Proof.Claims.CheckedWordGoes : Prop :=
  ∀ (i : Instr) (s : State) (b n : Nat), s.FieldsOk (.fib b n) i → apOnly i = false → privileged i = false →
    s.wordBusy (.fib b n) = false →
    (∀ t ∈ i.slots, t.rd = true ∨ t.wr = true → ∀ c ∈ s.slotCells (.fib b n) i t, c.1 = true) →
    (∀ t ∈ i.slots, t.rd = true → ∀ c ∈ s.slotCells (.fib b n) i t, c.2 = none) →
    (∀ t ∈ i.slots, ∀ q, t.reg = .q q → (s.queue (s.coreOf (.fib b n)) q).bound = some (b, n / 32)) →
    (∀ t m q, (t, m) ∈ i.slots.zipIdx → t.rd = true → t.reg = .q q → (s.inboundEntry (.fib b n) q (earlierPops i.slots m q)).isSome = true) →
    (∀ t ∈ i.slots, ∀ q, t.wr = true → t.reg = .q q → s.outboundFull (.fib b n) q = false) →
    ((s.fib (.fib b n)).pop.any fun x => !x.2) = false → s.issueCheck (.fib b n) i = .go

/-- R244: a word that names one queue, not bound to the fibre's gang, raises QUEUE_ROLE before any pop or push, with the queue in
TINFO[34:32]. -/
def Sys2Proof.Claims.QueueRole : Prop :=
  ∀ (i : Instr) (s : State) (b n : Nat) (q : Fin 8), i.isEvent = false → i ≠ .eret → s.members = some [.fib b n] → s.isHelper (.fib b n) = false →
    s.isServed (.fib b n) = false → s.wordBusy (.fib b n) = false → s.illCause (.fib b n) i = none →
    (∃ t ∈ i.slots, t.reg = .q q) → (∀ t ∈ i.slots, ∀ x, t.reg = .q x → x = q) →
    (s.queue (s.coreOf (.fib b n)) q).bound ≠ some (b, n / 32) → s.CanTrap b n →
    ∃ t, exec i s = .next t ∧ t.cores = s.cores ∧ Trapped s t b n
      { cause := 0x17, pc := (s.fib (.fib b n)).pc, addr := 0, info := BitVec.ofNat 64 (q.val * 2 ^ 32) ||| i.word.setWidth 64 }

/-! ## Steps -/

/-- R139, R179: an agent whose turn it is executes the instruction that the word at its PC decodes to; what comes about of
itself follows (`follow`). The agenda that gives the turn is the model's (DESIGN CHOICE, log 1). -/
def Sys2Proof.Claims.StepRunsWord : Prop :=
  ∀ (s : State) a r k w (i : Instr), (s.agenda = .run a :: r ∨ (s.agenda = [] ∧ r = [] ∧ s.defaultTurn = .run a)) →
    s.inReset a = false → s.runner a = some k → (∀ c, a = .ap c → (s.core c).apStop = false) →
    ({ s with agenda := r, agent := some a } : State).fetchWord k = .ok w → decode w = .ok i →
    step s = (match exec i { s with agenda := r, agent := some a } with
      | .next t => .next t.follow
      | .fault f => .fault f
      | .refused x => .refused x)

/-- A unit, the control complex or the outside world takes a step when the agenda names it (DESIGN CHOICE, log 1); a coach that
stalled tries again afterwards. -/
def Sys2Proof.Claims.StepTakesEvent : Prop :=
  ∀ (s : State) (i : Instr) x r, s.agenda = .event i x :: r → i.isEvent = true →
    step s = (match exec i { (({ s with agenda := r } : State).unstall) with agent := none, args := x } with
      | .next t => .next t.follow
      | .fault f => .fault f
      | .refused y => .refused y)

/-- R351, R423: a plane word that becomes uncorrectable makes its READY carriage STALE, and control firmware extends MR5 to MR7. When
this happens is the agenda's choice (DESIGN CHOICE, logs 19 and 46). -/
def Sys2Proof.Claims.StepTakesOther : Prop :=
  (∀ (s : State) r n c, s.agenda = .upset (.plane n) :: r → s.carriages.at? n = some c → c.state = .ready → c.slots = true →
    step s = .next ({ s with agenda := r, carriages := s.carriages.put n { c with state := .stale } } : State).follow) ∧
  (∀ (s : State) r n im, s.agenda = .extendMr n im :: r → 5 ≤ n → n ≤ 7 → 1 ≤ s.bootstat / 16 % 16 →
    step s = .next ({ s with agenda := r, mr := s.mr.set n (extendMr (s.mr.getD n []) im) } : State).follow)

/-- R139, R179: a step runs the decoded word of an agent, or takes the step of a unit, or lets what comes from outside happen. -/
def Obligations.StepRunsTurn : Prop :=
  Claims.StepRunsWord ∧ Claims.StepTakesEvent ∧ Claims.StepTakesOther

/-- R92, R93, R254: a word that decodes to no instruction traps: ILL_OPC where the agent has no such word, else the cause of
the check it fails; TINFO holds the word. -/
def Obligations.IllegalWordTraps : Prop :=
  ∀ (s : State) r (b : Nat) (n : Nat) c p w e, s.agenda = .run (.coach c p) :: r → s.released = true →
    ({ s with agenda := r, agent := some (.coach c p) } : State).members = some [.fib b n] →
    s.runner (.coach c p) = some (.fib b n) →
    ({ s with agenda := r, agent := some (.coach c p) } : State).fetchWord (.fib b n) = .ok w → decode w = .error e → s.CanTrap b n →
    ∃ t, step s = .next t.follow ∧
      Trapped s t b n
        { cause := if agentWord (.fib b n) w.toNat then illCode e else 1, pc := (s.fib (.fib b n)).pc, addr := 0, info := w.setWidth 64 }

/-! ## Traps -/

/-- R251, R252: a trap of a fibre whose gang already has one in service waits in the gang's queue; a trap during the fibre's own
service, one more than sixteen, or one with TVEC 0 ends the launch with its cause. -/
def Obligations.TrapQueue : Prop :=
  (∀ (s : State) (b : Nat) (n : Nat) x e r, (s.fib (.fib b n)).service = false → (s.gang (b, n / 32)).debug = false →
    (s.gang (b, n / 32)).trapq = e :: r → r.length < 15 → e.lane ≠ n % 32 →
    (s.fib (.fib b (n / 32 * 32 + e.lane))).wait = .ready →
    ((s.enterTrap b n x).fib (.fib b n)).wait = .queued ∧
      ((s.enterTrap b n x).gang (b, n / 32)).trapq = e :: r ++ [{ lane := n % 32, trap := x }] ∧
      ((s.enterTrap b n x).fib (.fib b n)).pc = (s.fib (.fib b n)).pc) ∧
  (∀ (s : State) (b : Nat) (n : Nat) x, (s.gang (b, n / 32)).debug = false →
    ((s.fib (.fib b n)).service = true ∧ x.cause ≠ 0x20 ∧ x.cause ≠ 0x23 ∨
      (s.fib (.fib b n)).service = false ∧ 16 ≤ (s.gang (b, n / 32)).trapq.length ∨
      (s.fib (.fib b n)).service = false ∧ (s.gang (b, n / 32)).trapq = [] ∧ (s.gang (b, n / 32)).sr.tvec = 0) →
    (s.enterTrap b n x).errs = s.errs ++ [{ lid := (s.block b).lid, cause := x.cause }])

/-- R92, R93, R254: the checks of a decoded word in their order; the first that fails gives the cause, TPC is the word's
address and TINFO holds the word. -/
def Sys2Proof.Claims.ChecksInOrder : Prop :=
  ∀ (i : Instr) (s : State) (b : Nat) (n : Nat) c, i.isEvent = false → i ≠ .eret → s.members = some [.fib b n] → s.isHelper (.fib b n) = false →
    s.isServed (.fib b n) = false → s.wordBusy (.fib b n) = false → ((fibreChecks s (.fib b n) i).find? (·.2)).map (·.1) = some c → s.CanTrap b n →
    ∃ t, exec i s = .next t ∧
      Trapped s t b n { cause := c, pc := (s.fib (.fib b n)).pc, addr := 0, info := i.word.setWidth 64 }

/-- R81, R92, R93, R163, R222, R244, R254: a word that passes the checks goes on; the first check that fails gives the trap, and a
queue that is not bound QUEUE_ROLE. -/
def Obligations.IssueChecks : Prop :=
  Claims.CheckedWordGoes ∧ Claims.ChecksInOrder ∧ Claims.QueueRole

/-- R185, R253: TRAP raises SOFTWARE with its code in TINFO, BKPT raises DEBUG_BREAK; TPC is the next word. On a control core
they take the core's own registers (R416). -/
def Obligations.SoftwareTraps : Prop :=
  (∀ code (s : State) (b : Nat) (n : Nat), s.Ready (.trap code) (.fib b n) → s.CanTrap b n → ∃ t, exec (.trap code) s = .next t ∧
    Trapped s t b n { cause := 0x22, pc := (s.fib (.fib b n)).pc + 4, addr := 0, info := code.setWidth 64 }) ∧
  (∀ (s : State) (b : Nat) (n : Nat), s.Ready .bkpt (.fib b n) → s.CanTrap b n → ∃ t, exec .bkpt s = .next t ∧
    Trapped s t b n { cause := 0x21, pc := (s.fib (.fib b n)).pc + 4, addr := 0, info := 0 }) ∧
  (∀ code (s : State) (n : Nat), s.Ready (.trap code) (.ctl n) → ∃ t, exec (.trap code) s = .next t ∧
    CtlTrapped s t n { cause := 0x22, pc := (s.fib (.ctl n)).pc + 4, addr := 0, info := code.setWidth 64 }) ∧
  (∀ (s : State) (n : Nat), s.Ready .bkpt (.ctl n) → ∃ t, exec .bkpt s = .next t ∧
    CtlTrapped s t n { cause := 0x21, pc := (s.fib (.ctl n)).pc + 4, addr := 0, info := 0 })

/-- R186, R251, R257: ERET returns to TPC and takes the entry off the trap queue; at the end of a compatibility continuation
the service field says wait, replay, or enter the fault. The trap then shows TINFO as it was raised, and the reserved service value 11
replays (both the model's: DESIGN CHOICE, log 51). -/
def Obligations.TrapReturn : Prop :=
  (∀ (s : State) (b : Nat) (n : Nat) e, s.Ready .eret (.fib b n) → s.NoHeld (.fib b n) → (s.fib (.fib b n)).wait = .ready →
    (s.fib (.fib b n)).service = true → ((s.fib (.fib b n)).continuing = none ∨ (s.fib (.fib b n)).inner = true) →
    (s.gang (b, n / 32)).trapq = [e] →
    ∃ t, exec .eret s = .next t ∧ (t.fib (.fib b n)).pc = (s.fib (.fib b n)).tpc ∧ (t.fib (.fib b n)).service = false ∧
      (t.gang (b, n / 32)).trapq = [] ∧ SameRegs s t (.fib b n) ∧ SameMemory s t ∧ OthersSame s t (.fib b n)) ∧
  (∀ (s : State) (b : Nat) (n : Nat) f, s.Ready .eret (.fib b n) → s.NoHeld (.fib b n) → (s.fib (.fib b n)).wait = .ready → s.CanTrap b n →
    (s.fib (.fib b n)).continuing = some f →
    ∃ t, exec .eret s = .next t ∧ SameMemory s t ∧ OthersSame s t (.fib b n) ∧
      match (s.fib (.fib b n)).tinfo.toNat / 2 ^ 62 with
      | 0 => (t.fib (.fib b n)).wait = .eret ∧ (t.fib (.fib b n)).pc = (s.fib (.fib b n)).pc ∧ SameRegs s t (.fib b n)
      | 2 => Trapped s t b n f.trap
      | _ => (t.fib (.fib b n)).pc = (s.fib (.fib b n)).tpc ∧ (t.fib (.fib b n)).continuing = none ∧ SameRegs s t (.fib b n)) ∧
  (∀ (s : State) (n : Nat), s.Ready .eret (.ctl n) → (s.fib (.ctl n)).service = true → (s.fib (.ctl n)).continuing = none → ∃ t, exec .eret s = .next t ∧
    (t.fib (.ctl n)).pc = (s.fib (.ctl n)).tpc ∧ (t.fib (.ctl n)).service = false ∧ SameRegs s t (.ctl n) ∧ SameMemory s t) ∧
  (∀ (s : State) (b : Nat) (n : Nat), s.Ready .eret (.fib b n) → s.CanTrap b n → (s.fib (.fib b n)).continuing = none → ∃ t, exec .eret s = .next t ∧
    Trapped s t b n { cause := 0x01, pc := (s.fib (.fib b n)).pc, addr := 0, info := Instr.eret.word.setWidth 64 })

/-! ## Control flow -/

/-- R94, R177 to R179: NOP and the branches: the next PC, the link register of CALL and CALLR, and nothing else. -/
def Sys2Proof.Claims.BranchTargets : Prop :=
  ∀ (i : Instr) f, branchRow i = some f → ∀ s ks, s.Proceeds i noCheck ks →
    (∀ a, targetReg i = some a → ∀ k ∈ ks, s.isHelper k = false → (s.src64 k a).toNat % 4 = 0) →
    (∀ k ∈ ks, s.NoHeld k) → ∃ t, exec i s = .next t ∧ SameDevice s t ∧ t.gangs = s.gangs ∧ t.cores = s.cores ∧
      ∀ k, s.Performs i noCheck ks k → s.isHelper k = false →
        (t.fib k).pc = f s k ∧ (t.fib k).lr = (if links i then (s.fib k).pc + 4 else (s.fib k).lr) ∧
          (t.fib k).regs = (s.fib k).regs ∧ (t.fib k).p = (s.fib k).p ∧ (t.fib k).wb = (s.fib k).wb

/-- R179, R180, R254: a jump, call or FORK to an address that is not a multiple of 4 raises ALIGN at the word, with the target
in TADDR. -/
def Sys2Proof.Claims.JumpMisaligned : Prop :=
  ∀ (i : Instr) a (s : State) (b : Nat) (n : Nat), targetReg i = some a → s.Ready i (.fib b n) → (s.src64 (.fib b n) a).toNat % 4 ≠ 0 → s.CanTrap b n →
    ∃ t, exec i s = .next t ∧ Trapped s t b n
      { cause := 0x12, pc := (s.fib (.fib b n)).pc, addr := s.src64 (.fib b n) a, info := i.word.setWidth 64 }

/-- R94, R177 to R180, R254: where branches and jumps go, and the trap of a misaligned target. -/
def Obligations.Branches : Prop :=
  Claims.BranchTargets ∧ Claims.JumpMisaligned

/-- R183: WBASE sets the window base to 16 * n. -/
def Sys2Proof.Claims.WindowBase : Prop :=
  ∀ m (s : State) ks, s.Proceeds (.wbase m) noCheck ks → ∃ t, exec (.wbase m) s = .next t ∧ SameMemory s t ∧
    ∀ k, s.Performs (.wbase m) noCheck ks k → (t.fib k).wb = BitVec.ofNat 8 (16 * m.toNat) ∧ (t.fib k).regs = (s.fib k).regs ∧
      (t.fib k).p = (s.fib k).p ∧ (s.isHelper k = false → (t.fib k).pc = (s.fib k).pc + 4)

/-- R84, R86, R184: TRL ends the run and names the registers the fibre awaits. -/
def Sys2Proof.Claims.RunEnd : Prop :=
  ∀ o (s : State) ks, s.Proceeds (.trl o) noCheck ks → (∀ k ∈ ks, s.NoHeld k) → ∃ t, exec (.trl o) s = .next t ∧ SameMemory s t ∧
    (∀ c p, s.agent = some (.coach c p) → t.pipes.at? (pipeKey c p) = none) ∧
    ∀ k, s.Performs (.trl o) noCheck ks k → s.isHelper k = false → SameRegs s t k ∧ (t.fib k).pc = (s.fib k).pc + 4 ∧
      ((∃ c p, s.agent = some (.coach c p)) → (s.fib k).wait = .ready → (t.fib k).k = []) ∧
      (t.fib k).await = [o.d, o.a, o.b].filter (· ≠ .z)

/-- R84, R86, R183, R184: WBASE and TRL. -/
def Obligations.WindowAndRunEnd : Prop :=
  Claims.WindowBase ∧ Claims.RunEnd

/-- R158, R182: RECONV gathers the gang: the group departs to PC + 4 when every live fibre of the gang is in it; otherwise the
fibre waits at its PC. -/
def Obligations.Reconvergence : Prop :=
  ∀ (s : State) (b : Nat) (n : Nat), s.Ready .reconv (.fib b n) → n ∈ s.liveSlots b →
    ((∀ m ∈ s.liveInGang (b, n / 32), m ≠ n →
        (s.fib (.fib b m)).atReconv.isSome = true ∧ (s.fib (.fib b m)).pc = (s.fib (.fib b n)).pc) →
      ∃ t, exec .reconv s = .next t ∧ ∀ m ∈ s.liveInGang (b, n / 32),
        (t.fib (.fib b m)).pc = (s.fib (.fib b n)).pc + 4 ∧ (t.fib (.fib b m)).wait = .ready) ∧
    ((∃ m ∈ s.liveInGang (b, n / 32), m ≠ n ∧ (s.fib (.fib b m)).atReconv = none) →
      (∀ m ∈ s.liveInGang (b, n / 32), (s.fib (.fib b m)).atReconv.isSome = true → (s.fib (.fib b m)).pc ≠ (s.fib (.fib b n)).pc) →
      0 < (s.gang (b, n / 32)).sr.rcvwin →
      ∃ t, exec .reconv s = .next t ∧ (t.fib (.fib b n)).pc = (s.fib (.fib b n)).pc ∧
        (t.fib (.fib b n)).wait = .reconv (s.cycles (s.coreOf (.fib b n))))

/-- R156, R180: FORK creates a fibre in the lowest free slot with v0 := b and writes its number, or 0xFFFF_FFFF where no slot
is free. -/
def Sys2Proof.Claims.ForkCreates : Prop :=
  ∀ o (s : State) (b : Nat) (n : Nat), s.Ready (.fork o) (.fib b n) → n ∈ s.liveSlots b → s.NoHeld (.fib b n) →
    (s.src64 (.fib b n) o.a).toNat % 4 = 0 → s.outstanding (.fib b n) = [] →
    ∃ t, exec (.fork o) s = .next t ∧ (t.fib (.fib b n)).pc = (s.fib (.fib b n)).pc + 4 ∧ SameMemory s t ∧
      match s.freeSlot b with
      | some m => Holds32 s t (.fib b n) o.d (BitVec.ofNat 32 m) ∧ (t.fib (.fib b m)).status = .live ∧
          (t.fib (.fib b m)).pc = s.src64 (.fib b n) o.a ∧ (t.fib (.fib b m)).cell 0 = { val := s.src32 (.fib b n) o.b } ∧
          (∀ r, r ≠ 0 → (t.fib (.fib b m)).cell r = {}) ∧ (t.fib (.fib b m)).p = 0 ∧ (t.fib (.fib b m)).wb = 0 ∧
          (t.fib (.fib b m)).lr = 0 ∧ (t.fib (.fib b m)).wait = .ready
      | none => Holds32 s t (.fib b n) o.d 0xFFFFFFFF

/-- R156, R181: END retires the fibre: its slot is a helper while its quad has a live fibre, else free; its empty registers
become 0 and full, and no other fibre's life changes. -/
def Sys2Proof.Claims.EndRetires : Prop :=
  ∀ (s : State) (b : Nat) (n : Nat), s.Ready .endF (.fib b n) → n ∈ s.liveSlots b → (s.fib (.fib b n)).pop = none → ∃ t, exec .endF s = .next t ∧ SameMemory s t ∧
    t.liveSlots b = (s.liveSlots b).filter (· ≠ n) ∧
    (t.fib (.fib b n)).status = (if (s.liveSlots b).any (fun m => decide (m ≠ n ∧ m / 4 = n / 4)) then .helper else .free) ∧
    (t.fib (.fib b n)).regs = (s.fib (.fib b n)).settleRegs.regs

/-- R156, R180, R181: FORK and END. -/
def Obligations.FibreLife : Prop :=
  Claims.ForkCreates ∧ Claims.EndRetires

/-! ## Special registers -/

/-- R189, R428: RDSR reads a special register; a 64-bit one into a pair or an s register whole. R91, R287, R315: a read of a slice
counter returns the count and clears that counter, and no other: SQSPILL to 0, SQPEAK to the requests its queue still holds. -/
def Sys2Proof.Claims.SpecialReads : Prop :=
  (∀ d r (s : State) ks, s.Proceeds (.rdsr d r) noCheck ks → (∀ k ∈ ks, s.counterOf k r.toNat = none) →
    ∃ t, exec (.rdsr d r) s = .next t ∧ SameMemory s t ∧ ∀ k, s.Performs (.rdsr d r) noCheck ks k →
      HoldsSr s t k d r.toNat (s.srRead k r.toNat) ∧ (s.isHelper k = false → (t.fib k).pc = (s.fib k).pc + 4)) ∧
  (∀ d r (s : State) k c, s.Ready (.rdsr d r) k → s.counterOf k r.toNat = some c →
    ∃ t, exec (.rdsr d r) s = .next t ∧ HoldsSr s t k d r.toNat (s.counter c) ∧ t.counter c = (if c.2 then 0 else BitVec.ofNat 64 (s.occupancy c.1)) ∧
      (∀ x, x ≠ c → t.counter x = s.counter x) ∧ (t.fib k).pc = (s.fib k).pc + 4 ∧ SameMemory s t)

/-- R90, R91, R189: what WRSR has written, RDSR reads back, at the limits of the register. -/
def Sys2Proof.Claims.SpecialWrites : Prop :=
  ∀ d r (s : State) k, s.Ready (.wrsr d r) k → ∃ t, exec (.wrsr d r) s = .next t ∧
    t.srRead k r.toNat = srLimit r.toNat (s.srSource k d r.toNat) ∧ (t.fib k).pc = (s.fib k).pc + 4 ∧
    SameRegs s t k ∧ SameMemory s t ∧ OthersSame s t k

/-- R90, R91, R189, R287, R315, R417, R428: RDSR and WRSR. -/
def Obligations.SpecialRegisters : Prop :=
  Claims.SpecialReads ∧ Claims.SpecialWrites

/-! ## Collectives -/

/-- R159, R214 to R217: when every live fibre of a gang is at one collective, each gets its result and goes on at PC + 4. -/
def Sys2Proof.Claims.CollectiveResults : Prop :=
  ∀ (i : Instr) (s : State) g ks, s.WholeGang g i ks →
    (∀ d f, collectiveRow i = some (d, f) → ∃ t, exec i s = .next t ∧ SameMemory s t ∧ ∀ n ∈ s.liveInGang g,
      Holds32 s t (.fib g.1 n) d (f s g (n % 32)) ∧ (t.fib (.fib g.1 n)).pc = (s.fib (.fib g.1 n)).pc + 4 ∧
        (t.fib (.fib g.1 n)).wait = .ready) ∧
    (∀ d f, voteRow i = some (d, f) → ∃ t, exec i s = .next t ∧ SameMemory s t ∧ ∀ n ∈ s.liveInGang g,
      t.pred (.fib g.1 n) d = f s g ∧ (t.fib (.fib g.1 n)).pc = (s.fib (.fib g.1 n)).pc + 4 ∧ (t.fib (.fib g.1 n)).wait = .ready)

/-- R159, R214: the same where the gang stands in several coaches: the last live fibres to arrive complete the collective, for those
that wait as well. -/
def Sys2Proof.Claims.CollectiveLast : Prop :=
  ∀ (i : Instr) (s : State) g ks, s.LastOfGang g i ks →
    (∀ d f, collectiveRow i = some (d, f) → ∃ t, exec i s = .next t ∧ SameMemory s t ∧ ∀ n ∈ s.liveInGang g,
      LaneHolds s t g n d (f s g (n % 32)) ∧ (t.fib (.fib g.1 n)).pc = (s.fib (.fib g.1 n)).pc + 4 ∧ (t.fib (.fib g.1 n)).wait = .ready) ∧
    (∀ d f, voteRow i = some (d, f) → ∃ t, exec i s = .next t ∧ SameMemory s t ∧ ∀ n ∈ s.liveInGang g,
      t.pred (.fib g.1 n) d = f s g ∧ (t.fib (.fib g.1 n)).pc = (s.fib (.fib g.1 n)).pc + 4 ∧ (t.fib (.fib g.1 n)).wait = .ready)

/-- R214: a fibre that arrives at a collective before another live fibre of its gang waits there. -/
def Sys2Proof.Claims.CollectiveWaits : Prop :=
  ∀ (i : Instr) (s : State) (b : Nat) (n : Nat), ((collectiveRow i).isSome || (voteRow i).isSome) = true → s.Ready i (.fib b n) → n ∈ s.liveSlots b →
    (∃ m ∈ s.liveInGang (b, n / 32), m ≠ n ∧ (s.fib (.fib b m)).collAt = none) →
    ∃ t, exec i s = .next t ∧ (t.fib (.fib b n)).wait = .coll i ∧ (t.fib (.fib b n)).pc = (s.fib (.fib b n)).pc ∧
      SameRegs s t (.fib b n) ∧ SameMemory s t ∧ OthersSame s t (.fib b n)

/-- R76, R159, R214 to R217: gang collectives: the whole gang in one coach, the last to arrive, and the wait (a waiting fibre's
temporaries stand until then: DEDUCED, log 41; a fibre in trap service or a continuation arrives: DESIGN CHOICE, log 90). -/
def Obligations.Collectives : Prop :=
  Claims.CollectiveResults ∧ Claims.CollectiveLast ∧ Claims.CollectiveWaits

/-! ## Rules stated whole -/

/-- R167: the eight words of IALU.A, their major and minor, and what each computes from a and b. -/
def Obligations.IaluA : Prop :=
  ∀ (m : Nat) (i : Instr) (o : R3) (f : W32 → W32 → W32),
    (m, i, f) ∈ ([(0, .add o, fun a b => a + b), (1, .sub o, fun a b => a - b), (2, .and o, fun a b => a &&& b), (3, .or o, fun a b => a ||| b),
      (4, .xor o, fun a b => a ^^^ b), (5, .andn o, fun a b => a &&& ~~~b),
      (6, .min o, fun a b => if a.toInt ≤ b.toInt then a else b), (7, .max o, fun a b => if a.toInt ≤ b.toInt then b else a)] :
        List (Nat × Instr × (W32 → W32 → W32))) →
    (i.wordOk = true → i.word.toNat / 2 ^ 23 = 0x01 * 8 + m) ∧
    ∀ s ks, s.Proceeds i noCheck ks → ∃ t, exec i s = .next t ∧
      ∀ k, s.Performs i noCheck ks k → Holds32 s t k o.d (f (s.src32 k o.a) (s.src32 k o.b (if o.a = o.b then 1 else 0)))

/-- R199: FCLASS writes a word with exactly one of the bits 0 to 8 set, that of the operand's class. -/
def Obligations.FloatClass : Prop :=
  ∀ o s ks, s.Proceeds (.fclass o) noCheck ks → ∃ t, exec (.fclass o) s = .next t ∧
    ∀ k, s.Performs (.fclass o) noCheck ks k → ∃ n : Nat, n ≤ 8 ∧ Holds32 s t k o.d (BitVec.ofNat 32 (2 ^ n)) ∧
      let a := s.src32 k o.a
      let neg := a.toNat / 2 ^ 31 = 1
      let exp := a.toNat / 2 ^ 23 % 2 ^ 8
      let frac := a.toNat % 2 ^ 23
      match n with
      | 0 => neg ∧ exp = 255 ∧ frac = 0
      | 1 => neg ∧ 0 < exp ∧ exp < 255
      | 2 => neg ∧ exp = 0 ∧ frac ≠ 0
      | 3 => neg ∧ exp = 0 ∧ frac = 0
      | 4 => ¬neg ∧ exp = 0 ∧ frac = 0
      | 5 => ¬neg ∧ exp = 0 ∧ frac ≠ 0
      | 6 => ¬neg ∧ 0 < exp ∧ exp < 255
      | 7 => ¬neg ∧ exp = 255 ∧ frac = 0
      | _ => exp = 255 ∧ frac ≠ 0

/-! ## Reset and invariants -/

/-- R90, R158, R256, R273, R305, R321, R401, R403, R418 to R421: the values the spec gives at reset. -/
def Obligations.ResetValues : Prop :=
  let s := State.reset
  (∀ g, (s.gang g).sr.rcvwin = 256 ∧ (s.gang g).sr.tmrcmp = 0 ∧ (s.gang g).sr.tvec = 0 ∧ (s.gang g).sr.cont = 0) ∧
    (∀ d, (s.die d).cartAge = 2000 ∧ (s.die d).fairWin = 4096 ∧ (s.die d).carts = []) ∧
    (∀ p, (s.part p).parkthr = 40 ∧ (s.part p).predeadline = 20000) ∧
    (∀ c n, (s.ctx c n).issued = 0 ∧ (s.ctx c n).value = 0) ∧
    (∀ c n, (s.table c n).active = false ∧ (s.table c n).activeBank.state = .zero) ∧
    (∀ n, (s.homeLease n).state = .open) ∧ s.clock = 0 ∧ s.bootstat = 0 ∧ s.launches = [] ∧ s.carriages = []

/-- The state after reset has the form that every step keeps (logs 10 and 11 name the values the spec does not give). -/
def Obligations.ResetInvariant : Prop := State.reset.Inv

/-- Every step, of whatever agent, unit or event, keeps memory and scratchpads in their canonical form and one coach on a
pipe. -/
def Obligations.StepInvariant : Prop :=
  ∀ s t, s.Inv → step s = .next t → t.Inv

/-! ## Special-function unit and activation tables -/

/-- R195, R206, R207: RCP, RSQ, SQRT, DIV and ACT leave D empty; the result, computed from the sources at issue, is on its way
to it. -/
def Sys2Proof.Claims.SfuResults : Prop :=
  ∀ i d f, sfuRow i = some (d, f) → ∀ s k, s.Ready i k →
    (∀ o n, i = .act o n → (s.table (s.coreOf k) n.toNat).activeBank.state ≠ .loading) →
    ∃ t, exec i s = .next t ∧ (t.fib k).pc = (s.fib k).pc + 4 ∧ UnitFrame s t k (some (wrSlot .v d)) ∧
      ∀ n, d = .v n → Emptied t k (wrSlot .v d) ∧ t.reqs.length = s.reqs.length + 1 ∧
        ∃ r, t.reqs.getLast? = some r ∧ r.org = .fibre k ∧ r.stage = .served (f s k).toNat false ∧ r.dst = .regs [(s.fib k).wb.toNat + n]

/-- R208 to R210: ACTLD makes the inactive bank LOADING from a 64-aligned image with a valid header; ACTSW makes it the active
one unless it is loading or poisoned; a load that has read every segment behind the header that ACTLD has read leaves it READY. R208: it
waits for the ACTs that still use the bank. ACTLD judges the bytes of a header whatever error they carry, and a header read poisoned
makes the load leave the bank POISONED (the model's: DESIGN CHOICE, log 75). -/
def Sys2Proof.Claims.TableWords : Prop :=
  (∀ wa a n s k bs p, s.Ready (.actld wa a n) k → (s.src64 k a).toNat % 64 = 0 →
    (s.table (s.coreOf k) n.toNat).inactiveBank.state ≠ .loading → s.acqPending k = false →
    (∀ r ∈ s.reqs, r.core = s.coreOf k → r.what ≠ .sfu (some (n.toNat, !(s.table (s.coreOf k) n.toNat).active))) →
    (s.reading (.actld wa a n)).readVirt k (.actld wa a n) .load 3 (s.src64 k a) 4160 = .ok (bs, p) → headerOk bs = true →
    ∃ t, exec (.actld wa a n) s = .next t ∧ (t.fib k).pc = (s.fib k).pc + 4 ∧ UnitFrame s t k none ∧
      (t.table (s.coreOf k) n.toNat).inactiveBank.state = .loading ∧
      (t.table (s.coreOf k) n.toNat).inactiveBank.addr = (s.src64 k a).toNat ∧
      (t.table (s.coreOf k) n.toNat).inactiveBank.header.isSome = true ∧
      (t.table (s.coreOf k) n.toNat).activeBank = (s.table (s.coreOf k) n.toNat).activeBank) ∧
  (∀ n s k, s.Ready (.actsw n) k → (s.table (s.coreOf k) n.toNat).inactiveBank.state ∉ [.loading, .poisoned] →
    ∃ t, exec (.actsw n) s = .next t ∧ (t.fib k).pc = (s.fib k).pc + 4 ∧ UnitFrame s t k none ∧
      (t.table (s.coreOf k) n.toNat).activeBank = (s.table (s.coreOf k) n.toNat).inactiveBank ∧
      (t.table (s.coreOf k) n.toNat).inactiveBank = (s.table (s.coreOf k) n.toNat).activeBank) ∧
  (∀ (s : State) x n rest, s.table s.args.unit s.args.sub = x → n = (if x.inactiveBank.header.isSome = true then 64 else 0) → (x.activeBank.state = .loading → x.activeBank.fault.isSome = true) →
    x.inactiveBank.state = .loading → x.inactiveBank.fault = none → x.inactiveBank.restore = none →
    s.engRead { core := s.args.unit, part := x.inactiveBank.part, lid := 0, p := tableParty s.args.unit s.args.sub }
      (BitVec.ofNat 64 (x.inactiveBank.addr + n)) (4160 - n) { data := s.args.bytes, code := s.args.opt.getD 0 } = .ok rest →
    ∃ t, exec .actTableLoadDone s = .next t ∧ UnitsOnly s t ∧ (t.table s.args.unit s.args.sub).activeBank = x.activeBank ∧
      (t.table s.args.unit s.args.sub).inactiveBank =
        (if x.inactiveBank.header.any (·.2) = true then { x.inactiveBank with state := .poisoned, fault := none }
        else { x.inactiveBank with state := .ready, bytes := (x.inactiveBank.header.elim [] (·.1)) ++ rest }))

/-- R195, R206 to R210: the special-function unit and its tables. -/
def Obligations.FunctionUnits : Prop :=
  Claims.SfuResults ∧ Claims.TableWords

/-! ## Memory -/

/-- R80, R220, R223, R227: LD and LDC ask for the bytes at their address; D is empty until they come. -/
def Sys2Proof.Claims.Loads : Prop :=
  (∀ o s k x, s.Ready (.ld o) k →
    s.Reaches k (.ld o) (if o.ch = .nol1 then .homeLoad else .load) o.ord o.sc (s.src64 k o.a) o.w.bytes x →
    ∃ t r, exec (.ld o) s = .next t ∧ (t.fib k).pc = (s.fib k).pc + 4 ∧ Asked s t k (.load o.w) x.pa r ∧
      r.dst = s.dstOf k (wrSlot o.w.kind o.d) ∧ r.ord = o.ord ∧ r.sc = o.sc ∧
      Emptied t k (wrSlot o.w.kind o.d) ∧ UnitFrame s t k (some (wrSlot o.w.kind o.d))) ∧
  (∀ o s k x, s.Ready (.ldc o) k → s.Reaches k (.ldc o) .ldc o.ord o.sc (s.src64 k o.a) 16 x →
    ∃ t r, exec (.ldc o) s = .next t ∧ (t.fib k).pc = (s.fib k).pc + 4 ∧ Asked s t k .ldc x.pa r ∧
      r.dst = s.dstOf k (wrSlot (.grp 4 4) o.d) ∧ r.ord = o.ord ∧ r.sc = o.sc ∧
      Emptied t k (wrSlot (.grp 4 4) o.d) ∧ UnitFrame s t k (some (wrSlot (.grp 4 4) o.d)))

/-- R223, R227: ST, STC and STC.MD read D at issue and ask for the write at their address; no byte changes before it is
performed at its home. -/
def Sys2Proof.Claims.Stores : Prop :=
  (∀ o s k x, s.Ready (.st o) k → s.Reaches k (.st o) .store o.ord o.sc (s.src64 k o.a) o.w.bytes x →
    ∃ t r, exec (.st o) s = .next t ∧ (t.fib k).pc = (s.fib k).pc + 4 ∧
      Asked s t k (.store o.w.bytes (s.dataOf k (rdSlot o.w.kind o.d) % 2 ^ (8 * o.w.bytes))) x.pa r ∧
      r.ord = o.ord ∧ r.sc = o.sc ∧ UnitFrame s t k none) ∧
  (∀ (md : Bool) o s k x, s.Ready (if md then .stcMd o else .stc o) k →
    s.Reaches k (if md then .stcMd o else .stc o) .cellStore o.ord o.sc (s.src64 k o.a) 16 x →
    ∃ t r, exec (if md then .stcMd o else .stc o) s = .next t ∧ (t.fib k).pc = (s.fib k).pc + 4 ∧
      Asked s t k (.cell md (BitVec.ofNat 32 (s.dataOf k (rdSlot (.grp 4 4) o.d) / 2 ^ 64))
        (BitVec.ofNat 64 (s.dataOf k (rdSlot (.grp 4 4) o.d)))) x.pa r ∧
      r.ord = o.ord ∧ r.sc = o.sc ∧ UnitFrame s t k none)

/-- R120, R403: memory of another device: a relaxed ST of 4 or 8 bytes and a relaxed STC or STC.MD go into a cart; any other store, and
every load, is sent by itself, a load that a leased copy answers apart (every request in flow class 0: DESIGN CHOICE, log 79). -/
def Sys2Proof.Claims.FarLoadsAndStores : Prop :=
  (∀ o s k x d, s.Ready (.ld o) k →
    s.ReachesFar k (.ld o) (if o.ch = .nol1 then .homeLoad else .load) o.ord o.sc (s.src64 k o.a) o.w.bytes x d → s.unacked d < 1024 →
    ∃ t r, exec (.ld o) s = .next t ∧ (t.fib k).pc = (s.fib k).pc + 4 ∧ Asked s t k (.load o.w) x.pa r ∧ r.dev = some d ∧
      (r.stage = .remote ∨ ∃ v p, r.stage = .served v p) ∧ r.dst = s.dstOf k (wrSlot o.w.kind o.d) ∧
      Emptied t k (wrSlot o.w.kind o.d) ∧ UnitFrame s t k (some (wrSlot o.w.kind o.d))) ∧
  (∀ o s k x d, s.Ready (.ldc o) k → s.ReachesFar k (.ldc o) .ldc o.ord o.sc (s.src64 k o.a) 16 x d → s.unacked d < 1024 →
    ∃ t r, exec (.ldc o) s = .next t ∧ (t.fib k).pc = (s.fib k).pc + 4 ∧ Asked s t k .ldc x.pa r ∧ r.dev = some d ∧
      (r.stage = .remote ∨ ∃ v p, r.stage = .served v p) ∧ Emptied t k (wrSlot (.grp 4 4) o.d) ∧
      UnitFrame s t k (some (wrSlot (.grp 4 4) o.d))) ∧
  (∀ o s k x d, s.Ready (.st o) k → s.ReachesFar k (.st o) .store o.ord o.sc (s.src64 k o.a) o.w.bytes x d →
    s.unacked d < 1024 → s.CartFree k x.pa →
    ∃ t r, exec (.st o) s = .next t ∧ (t.fib k).pc = (s.fib k).pc + 4 ∧
      Asked s t k (.store o.w.bytes (s.dataOf k (rdSlot o.w.kind o.d) % 2 ^ (8 * o.w.bytes))) x.pa r ∧ UnitFrame s t k none ∧
      if o.ord = .rlx ∧ (o.w.bytes = 4 ∨ o.w.bytes = 8) then InCart t r d else r.dev = some d ∧ r.stage = .remote) ∧
  (∀ (md : Bool) o s k x d, s.Ready (if md then .stcMd o else .stc o) k →
    s.ReachesFar k (if md then .stcMd o else .stc o) .cellStore o.ord o.sc (s.src64 k o.a) 16 x d →
    s.unacked d < 1024 → s.CartFree k x.pa →
    ∃ t r, exec (if md then .stcMd o else .stc o) s = .next t ∧ (t.fib k).pc = (s.fib k).pc + 4 ∧
      Asked s t k (.cell md (BitVec.ofNat 32 (s.dataOf k (rdSlot (.grp 4 4) o.d) / 2 ^ 64))
        (BitVec.ofNat 64 (s.dataOf k (rdSlot (.grp 4 4) o.d)))) x.pa r ∧ UnitFrame s t k none ∧
      if o.ord = .rlx then InCart t r d else r.dev = some d ∧ r.stage = .remote)

/-- R80, R120, R220, R223, R227, R403: loads and stores of memory, local and of another device. -/
def Obligations.LoadsAndStores : Prop :=
  Claims.Loads ∧ Claims.Stores ∧ Claims.FarLoadsAndStores

/-- R229 to R231: an atomic asks for its operation at its address, with its operands read at issue; D is empty until the old
value returns, but for com, which returns none. -/
def Sys2Proof.Claims.Atomics : Prop :=
  ∀ i o op kd w, atomRow i = some (o, op, kd, w) → ∀ s k x, s.Ready i k →
    s.Reaches k i .atomic o.ord o.sc (s.src64 k o.a) (atomBytes op) x →
    ∃ t r, exec i s = .next t ∧ (t.fib k).pc = (s.fib k).pc + 4 ∧ Asked s t k (w s k) x.pa r ∧
      if o.use = .com then r.dst = .none ∧ UnitFrame s t k none
      else r.dst = s.dstOf k (wrSlot kd o.d) ∧ Emptied t k (wrSlot kd o.d) ∧ UnitFrame s t k (some (wrSlot kd o.d))

/-- R230, R231: the new value of each atomic, and the old value it returns; ACAS and ACAS64 return it with 1 above it where
they have written. -/
def Sys2Proof.Claims.AtomicValues : Prop :=
  ∀ op old d e, 0x20 ≤ op → op ≤ 0x2F →
    let w := 8 * atomBytes op
    let o := BitVec.toNat (w := 64) old % 2 ^ w
    (atomApply op old d e).1.map BitVec.toNat = atomNew op o (BitVec.toNat d % 2 ^ w) (BitVec.toNat e % 2 ^ w) ∧
      (atomApply op old d e).2 =
        o + (if op = 0x2A ∨ op = 0x2D then (if o = BitVec.toNat e % 2 ^ w then 2 ^ w else 0) else 0)

/-- R120, R403: an atomic on memory of another device goes into a cart where it is relaxed and its USE is unp, com, nor or qnt, and is
sent by itself otherwise. -/
def Sys2Proof.Claims.FarAtomics : Prop :=
  ∀ i o op kd w, atomRow i = some (o, op, kd, w) → ∀ s k x d, s.Ready i k →
    s.ReachesFar k i .atomic o.ord o.sc (s.src64 k o.a) (atomBytes op) x d → s.unacked d < 1024 → s.CartFree k x.pa →
    ∃ t r, exec i s = .next t ∧ (t.fib k).pc = (s.fib k).pc + 4 ∧ Asked s t k (w s k) x.pa r ∧
      (if o.ord = .rlx ∧ o.use ∈ [.unp, .com, .nor, .qnt] then InCart t r d else r.dev = some d ∧ r.stage = .remote) ∧
      if o.use = .com then r.dst = .none ∧ UnitFrame s t k none
      else r.dst = s.dstOf k (wrSlot kd o.d) ∧ Emptied t k (wrSlot kd o.d) ∧ UnitFrame s t k (some (wrSlot kd o.d))

/-- R120, R229 to R231, R403: what an atomic asks for, of this device or of another, and what it computes. -/
def Obligations.AtomicWords : Prop :=
  Claims.Atomics ∧ Claims.AtomicValues ∧ Claims.FarAtomics

/-- R110, R124, R281: the first accepted request of a line, once its leases have run out, is performed: a write puts its value at
its address and nowhere else; an atomic or cell store what its operation makes of the old value. A qnt atomic that takes a quantum
adds the whole of it; one served from a quantum leaves memory alone (which ones are is the agenda's choice, DESIGN CHOICE, log 67). -/
def Sys2Proof.Claims.HomePerform : Prop :=
  ∀ s r n, s.reqs.find? (·.id = s.args.item) = some r → r.stage = .queued → r.what.writes = true → s.mem.wf = true →
    s.isFirst r = true → s.open r = true → s.orphaned r.pa = false → n = r.what.bytes →
    ∃ t, exec .homeWritePerform s = .next t ∧ t.scratch = s.scratch ∧
      (∀ a, a < r.pa ∨ r.pa + n ≤ a → t.mem.read a = s.mem.read a) ∧
      (r.count.isSome = true → t.mem = s.mem) ∧
      (r.count = none → r.ahead = 0 ∨ r.what.quantum = none →
        t.mem.get r.pa n = ((r.what.apply r.id (s.mem.get r.pa n)).1.getD (s.mem.get r.pa n)) % 2 ^ (8 * n)) ∧
      (r.count = none → r.ahead ≠ 0 → r.what.quantum ≠ none →
        t.mem.get r.pa n = (s.mem.get r.pa n + (s.quantumOf r (s.mem.get r.pa n)).2) % 2 ^ (8 * n))

/-- R151, R226, R278: LDS reads its bytes at issue, the value on its way to D; STS writes them, and no other byte. Where writes
are remembered that the fibre may not have observed (DESIGN CHOICE, log 66), LDS may find an older value. -/
def Sys2Proof.Claims.Scratchpad : Prop :=
  (∀ o s k key, s.Ready (.lds o) k → s.ScratchAt k o.a o.w.bytes key → s.scratchWaits k o.ord = false →
    ∃ t r v p, exec (.lds o) s = .next t ∧ (t.fib k).pc = (s.fib k).pc + 4 ∧ Asked s t k (.lds o.w) 0 r ∧
      r.stage = .served v p ∧ (s.veil.hidden = [] → v = s.scratch.get key o.w.bytes) ∧ r.dst = s.dstOf k (wrSlot o.w.kind o.d) ∧
      Emptied t k (wrSlot o.w.kind o.d) ∧ UnitFrame s t k (some (wrSlot o.w.kind o.d))) ∧
  (∀ o s k key, s.Ready (.sts o) k → s.ScratchAt k o.a o.w.bytes key → s.scratchWaits k o.ord = false → s.scratch.wf = true →
    ∃ t, exec (.sts o) s = .next t ∧ (t.fib k).pc = (s.fib k).pc + 4 ∧ t.mem = s.mem ∧ SameRegs s t k ∧ OthersSame s t k ∧
      t.scratch.get key o.w.bytes = s.dataOf k (rdSlot o.w.kind o.d) % 2 ^ (8 * o.w.bytes) ∧
      ∀ a, a < key ∨ key + o.w.bytes ≤ a → t.scratch.read a = s.scratch.read a)

/-- R115, R116, R236: ARRIVE adds its operand to COUNT of the arrival word, ARRIVE.BK to TARGET; a phase that is complete flips
the phase bit, counts the generation and re-arms the word. -/
def Sys2Proof.Claims.Arrivals : Prop :=
  ∀ (bk : Bool) o s k key, s.Ready (if bk then .arriveBk o else .arrive o) k → s.ScratchAt k o.a 16 key →
    s.acqPending k = false → (o.ord = .rel → s.outstanding k = []) → s.scratch.wf = true →
    ∃ t, exec (if bk then .arriveBk o else .arrive o) s = .next t ∧ (t.fib k).pc = (s.fib k).pc + 4 ∧ t.mem = s.mem ∧
      SameRegs s t k ∧ OthersSame s t k ∧
      if bk then ArrivalDone s.scratch t.scratch key 0 (s.src32 k o.d).toNat
      else if s.src32 k o.d = 0 then t.scratch = s.scratch
      else ArrivalDone s.scratch t.scratch key (s.src32 k o.d).toNat 0

/-- R115, R116, R151, R226, R236, R278: scratchpad accesses and arrival words. -/
def Obligations.ScratchpadWords : Prop :=
  Claims.Scratchpad ∧ Claims.Arrivals

/-! ## Synchronisation -/

/-- R105 to R107, R233, R234, R237, R238, R247: fences, CFLUSH, RFENCE, INVL1 and the prefetches go on once what they wait for
is done; an acquire at die scope or wider, and INVL1, leave no leased copy in the cluster's L1. -/
def Sys2Proof.Claims.Fences : Prop :=
  (∀ o s k, s.Ready (.fence o) k → s.acqPending k = false → s.fencePending k o.ord = false →
    (∀ m ∈ s.fencePeers k o.ord o.sc, s.outstanding m = []) →
    (fabRelease o.ord o.sc = true → s.fabPending k = false ∧ s.reportable k (.fence o) = none) →
    ∃ t, exec (.fence o) s = .next t ∧ (t.fib k).pc = (s.fib k).pc + 4 ∧ UnitFrame s t k none ∧
      (o.ord ≠ .rel → Scope.wide o.sc = true → (∀ c, k ≠ .ctl c) → t.l1.atD (clusterOf (s.coreOf k)) [] = [])) ∧
  (∀ s k, s.Ready .cflush k → s.fabPending k = false → s.reportable k .cflush = none →
    ∃ t, exec .cflush s = .next t ∧ (t.fib k).pc = (s.fib k).pc + 4 ∧ UnitFrame s t k none) ∧
  (∀ s k, s.Ready .rfence k →
    ∃ t, exec .rfence s = .next t ∧ (t.fib k).pc = (s.fib k).pc + 4 ∧ UnitFrame s t k none ∧ (t.core (s.coreOf k)).recCache = []) ∧
  (∀ s k, s.Ready .invl1 k →
    ∃ t, exec .invl1 s = .next t ∧ (t.fib k).pc = (s.fib k).pc + 4 ∧ UnitFrame s t k none ∧ t.l1.atD (clusterOf (s.coreOf k)) [] = []) ∧
  (∀ i o s k, (i = .pfL1 o ∨ i = .pfL2 o) → s.Ready i k → pfCheck o.a s k = .go →
    ∃ t, exec i s = .next t ∧ (t.fib k).pc = (s.fib k).pc + 4 ∧ UnitFrame s t k none)

/-- R108, R159, R235: BAR waits for every live fibre of its block, and at cluster scope of the twin as well; the last to arrive
lets them go on. -/
def Sys2Proof.Claims.Barriers : Prop :=
  ∀ o s b n, s.Ready (.bar o) (.fib b n) → n ∈ s.liveSlots b → s.acqPending (.fib b n) = false → s.outstanding (.fib b n) = [] →
    ((∀ m ∈ s.liveSlots b, m ≠ n → (s.fib (.fib b m)).atBar.isSome = true) →
      (∀ u, (s.block b).twin = some u → o.sc = .clu → u ≠ b ∧ s.allAtBar u = true) →
      ∃ t, exec (.bar o) s = .next t ∧ SameMemory s t ∧ (t.fib (.fib b n)).pc = (s.fib (.fib b n)).pc + 4 ∧
        (t.fib (.fib b n)).wait = .ready) ∧
    (((∃ m ∈ s.liveSlots b, m ≠ n ∧ (s.fib (.fib b m)).atBar = none) ∨
        ∃ u, (s.block b).twin = some u ∧ o.sc = .clu ∧ u ≠ b ∧ s.allAtBar u = false) →
      ∃ t, exec (.bar o) s = .next t ∧ SameMemory s t ∧ (t.fib (.fib b n)).pc = (s.fib (.fib b n)).pc ∧
        (t.fib (.fib b n)).wait = .bar (decide (o.sc = .clu)))

/-- R105 to R108, R159, R233 to R238, R247: what orders accesses. -/
def Obligations.FencesAndBarriers : Prop :=
  Claims.Fences ∧ Claims.Barriers

/-- R239 to R242: a try-wait whose condition holds sets its predicate and goes on; one whose condition does not hold waits,
and where its hint expires first, clears its predicate and goes on. -/
def Obligations.TryWaits : Prop :=
  (∀ o s k key, s.Ready (.twph o) k → s.ScratchAt k o.a 16 key → s.acqPending k = false →
    ∃ t, exec (.twph o) s = .next t ∧ SameMemory s t ∧
      Settles s t k o.p (decide (s.scratch.get (key + 8) 4 / 2 ^ 31 ≠ (s.src32 k o.b).toNat % 2))
        (.twph o.p key ((s.src32 k o.b).getLsbD 0) (s.cycles (s.coreOf k)) (s.fib k).whint.toNat)) ∧
  (∀ wb p c b s k, s.Ready (.twtl wb p c b) k → s.acqPending k = false → s.ctxFault (s.coreOf k) c.toNat (s.gangOf k) = none →
    ∃ t, exec (.twtl wb p c b) s = .next t ∧ SameMemory s t ∧
      Settles s t k p (decide ((s.src64 k b).toNat ≤ (s.ctx (s.coreOf k) c.toNat).value))
        (.twtl p c.toNat (s.src64 k b) (s.cycles (s.coreOf k)) (s.fib k).whint.toNat (Instr.twtl wb p c b).word)) ∧
  (∀ o s k key, s.Ready (.twge o) k → s.ScratchAt k o.a 4 key → s.acqPending k = false →
    ∃ t, exec (.twge o) s = .next t ∧ SameMemory s t ∧
      Settles s t k o.p (decide ((s.src32 k o.b).toNat ≤ s.scratch.get key 4))
        (.twge o.p key (s.src32 k o.b) (s.cycles (s.coreOf k)) (s.fib k).whint.toNat)) ∧
  (∀ s p h, (s.fib s.args.fibre).wait.twPred = some p → (s.fib s.args.fibre).wait.twLimit = some h → h ≤ s.cycles (s.coreOf s.args.fibre) →
    ∃ t, exec .tryWaitHintExpiry s = .next t ∧ SameMemory s t ∧ t.pred s.args.fibre p = false ∧
      (t.fib s.args.fibre).pc = (s.fib s.args.fibre).pc + 4 ∧ (t.fib s.args.fibre).wait = .ready ∧
      (t.fib s.args.fibre).regs = (s.fib s.args.fibre).regs)

/-! ## Queues and the access processor -/

/-- R244 to R246, R311: APGO starts a program with v0 := b under a T7 ticket; APSTOP stops it, and at its next boundary it ends and its
ticket completes, what its queues hold standing; QDRAIN empties a queue and drops the requests in flight for it, QBIND empties and binds
it. -/
def Sys2Proof.Claims.QueueControl : Prop :=
  (∀ o s b n, s.Ready (.apgo o) (.fib b n) → (s.src64 (.fib b n) o.a).toNat % 4 = 0 → (s.core (s.coreOf (.fib b n))).apOwner = none →
    ∃ t, exec (.apgo o) s = .next t ∧ WordDone s t (.fib b n) ∧
      (let c := s.coreOf (.fib b n)
      (t.core c).apOwner = some (b, n / 32, n % 32, s.nextTicket c 7) ∧ (t.core c).apStop = false ∧
        (t.ctx c 7).issued = s.nextTicket c 7 ∧ Holds64 s t (.fib b n) o.d (BitVec.ofNat 64 (s.nextTicket c 7)) ∧
        (t.fib (.ap c)).pc = s.src64 (.fib b n) o.a ∧ (t.fib (.ap c)).cell 0 = { val := s.src32 (.fib b n) o.b } ∧
        ∀ r, r ≠ 0 → (t.fib (.ap c)).cell r = {})) ∧
  (∀ s k, s.Ready .apstop k → ∃ t, exec .apstop s = .next t ∧ WordDone s t k ∧ UnitFrame s t k none ∧
    (t.core (s.coreOf k)).apStop = ((s.core (s.coreOf k)).apStop || (s.core (s.coreOf k)).apOwner.isSome)) ∧
  (∀ (s : State) c r b g l n, s.agenda = .run (.ap c) :: r → s.released = true → s.runner (.ap c) = some (.ap c) →
    (s.core c).apOwner = some (b, g, l, n) → (s.core c).apStop = true →
    ∃ t, step s = .next t.follow ∧ SameMemory s t ∧ (t.core c).apOwner = none ∧ (t.core c).apStop = false ∧ t.fibres.at? (.ap c) = none ∧
      (t.core c).queues = (s.core c).queues ∧ t.Completed (((s.core c).apHome).getD c) 7 n) ∧
  (∀ q s k, s.Ready (.qdrain q) k → (6 ≤ q.toNat → (s.queue (s.coreOf k) q.toNat).entries = []) →
    ∃ t, exec (.qdrain q) s = .next t ∧ WordDone s t k ∧ SameRegs s t k ∧ (t.queue (s.coreOf k) q.toNat).entries = [] ∧
      (∀ r ∈ t.reqs, ∀ n l, r.dst ≠ .queue (s.coreOf k) q.toNat n l) ∧
      (t.queue (s.coreOf k) q.toNat).bound = (s.queue (s.coreOf k) q.toNat).bound) ∧
  (∀ wa a q s b n, s.Ready (.qbind wa a q) (.fib b n) → (s.src32 (.fib b n) a).toNat < ((s.block b).maxf + 31) / 32 →
    (6 ≤ q.toNat → (s.queue (s.coreOf (.fib b n)) q.toNat).entries = []) →
    ∃ t, exec (.qbind wa a q) s = .next t ∧ WordDone s t (.fib b n) ∧ SameRegs s t (.fib b n) ∧
      (t.queue (s.coreOf (.fib b n)) q.toNat).entries = [] ∧
      (t.queue (s.coreOf (.fib b n)) q.toNat).bound = some (b, (s.src32 (.fib b n) a).toNat))

/-- R312 to R314: QREQ reserves an entry and asks for its 32 words; a filled entry becomes readable; QWR takes a complete entry and
writes its present lanes; APEND ends the program and completes its ticket. The lanes lie in local memory. -/
def Sys2Proof.Claims.AccessProcessor : Prop :=
  (∀ o s c q, s.Ready (.qreq o) (.ap c) → queueNo o.d = q → (s.queue c q).entries.length < 64 →
    (∀ l < 32, ∃ x, s.checkGlobal (.ap c) .load (s.laneAddr (.ap c) o l) = .ok x ∧ x.dev = none ∧
      (s.laneAddr (.ap c) o l).toNat % 4 = 0 ∧ s.targetWait s (.ap c) (.qreq o) (s.laneAddr (.ap c) o l) false x = .go) →
    ∃ t, exec (.qreq o) s = .next t ∧ WordDone s t (.ap c) ∧ t.reqs.length = s.reqs.length + 32 ∧
      (t.queue c q).entries = (s.queue c q).entries ++ [{ serial := (s.queue c q).next, words := List.replicate 32 none, ready := false }] ∧
      (t.queue c q).next = (s.queue c q).next + 1) ∧
  (∀ s, s.args.sub < 6 → (∃ e ∈ (s.queue s.args.unit s.args.sub).entries, e.serial = s.args.item ∧ e.ready = false ∧ ∀ w ∈ e.words, w.isSome = true) →
    ∃ t, exec .queueEntryFilled s = .next t ∧ SameMemory s t ∧ t.fibres = s.fibres ∧
      ∀ e ∈ (s.queue s.args.unit s.args.sub).entries, e.serial = s.args.item → (∀ w ∈ e.words, w.isSome = true) →
        { e with ready := true } ∈ (t.queue s.args.unit s.args.sub).entries) ∧
  (∀ o s c q e r, s.Ready (.qwr o) (.ap c) → queueNo o.d = q → (s.queue c q).entries = e :: r → s.entryComplete (s.queue c q) e = true →
    s.lanesCheck (.ap c) (.qwr o) o .store (e.present.map (·.1)) = .go →
    (∀ x ∈ e.present, ∃ y, s.checkGlobal (.ap c) .store (s.laneAddr (.ap c) o x.1) = .ok y ∧ y.dev = none) →
    s.writePendingCount (clusterOf (s.coreOf (.ap c))) + e.present.length ≤ 256 →
    ∃ t, exec (.qwr o) s = .next t ∧ WordDone s t (.ap c) ∧ t.reqs.length = s.reqs.length + e.present.length ∧ (t.queue c q).entries = r) ∧
  (∀ s c b g l n, s.Ready .apend (.ap c) → (s.core c).apOwner = some (b, g, l, n) → ((s.ownReqs (.ap c)).any fun r => r.what.writes) = false →
    ∃ t, exec .apend s = .next t ∧ SameMemory s t ∧ (t.core c).apOwner = none ∧ t.fibres.at? (.ap c) = none ∧
      t.Completed (((s.core c).apHome).getD c) 7 n)

/-- R244, R245, R310 to R314: queues and the access processor. -/
def Obligations.Queues : Prop :=
  Claims.QueueControl ∧ Claims.AccessProcessor

/-! ## Trolley -/

/-- R299, R305: a trolley command that passes its checks takes the next ticket of its context, written to D, and enters the core's
trolley with its record and command group as they stand, behind what the fibre has issued. -/
def Sys2Proof.Claims.TrolleyWords : Prop :=
  ∀ i o kd cmd, trolleyRow i = some (o, kd, cmd) → ∀ s k r, s.Ready i k → trolleyCheck i cmd o (s.reading i) k = .go →
    (s.reading i).recordRead k i (s.src64 k o.a) = .ok r →
    ∃ t op, exec i s = .next t ∧ WordDone s t k ∧ UnitFrame s t k (some (wrSlot .xs o.d)) ∧
      (let c := s.coreOf k
      let x := groupWord (s.groupOf k o.b) 3 % 4
      (t.core c).trolley = (s.core c).trolley ++ [op] ∧ op.kind = kd ∧ op.record = r ∧ op.group = s.groupOf k o.b ∧
        op.fibre = k ∧ op.ticket = s.nextTicket c x ∧ op.deps = s.outstanding k ∧ op.done = [] ∧ (t.ctx c x).issued = s.nextTicket c x ∧
        Holds64 s t k o.d (BitVec.ofNat 64 (s.nextTicket c x)))

/-- R305, R306: a chunk of an operation whose turn it is is delivered once, with what it writes; when every chunk is delivered the
operation leaves the trolley and its ticket completes. -/
def Sys2Proof.Claims.TrolleySteps : Prop :=
  (∀ s op row n u, (s.core s.args.unit).trolley.find? (·.id = s.args.item) = some op → op.core = s.args.unit →
    s.args.nats[0]?.getD 0 = row → s.args.nats[1]?.getD 0 = n → s.trolleyReady op = true →
    chunkId row n ∈ op.chunks → chunkId row n ∉ op.done →
    s.chunk op row n = .ok u →
    ∃ t, exec .trolleyChunkDelivered s = .next t ∧ t.mem = u.mem ∧
      ((op.ctl.testBit 4 && !op.glob && !op.toTensor) = false → t.scratch = u.scratch) ∧
      ∀ o ∈ (u.core op.core).trolley, o.id = op.id → { o with done := chunkId row n :: o.done } ∈ (t.core op.core).trolley) ∧
  (∀ s op, (s.core s.args.unit).trolley.find? (·.id = s.args.item) = some op → op.core = s.args.unit →
    (op.aborted = true ∨ ∀ c ∈ op.chunks, c ∈ op.done) →
    ∃ t, exec .trolleyOperationComplete s = .next t ∧ SameMemory s t ∧ t.fibres = s.fibres ∧
      (t.core op.core).trolley = (s.core op.core).trolley.filter (·.id ≠ op.id) ∧ t.Completed op.core op.ctx op.ticket)

/-- R299, R305, R306: trolley operations. -/
def Obligations.Trolley : Prop :=
  Claims.TrolleyWords ∧ Claims.TrolleySteps

/-! ## Matrix engine -/

/-- R336, R339, R348, R349, R356: a product or MXZERO that passes its checks enters the core's engine at its tail, with its
descriptor and its register operands as they stand. -/
def Sys2Proof.Claims.EngineWords : Prop :=
  ∀ i d f chk, engineRow i = some (d, f, chk) → ∀ s k, s.Ready i k → chk s k = .go →
    ∃ t op, exec i s = .next t ∧ WordDone s t k ∧ UnitFrame s t k none ∧
      (t.core (s.coreOf k)).mxOps = (s.core (s.coreOf k)).mxOps ++ [op] ∧ op.desc = s.src64 k d ∧ op.kind = f s k ∧ op.fibre = k ∧ op.next = 0

/-- R330, R332, R353: MXACQ takes a free engine and goes on, or waits in the owner queue; MXACQ.P takes both arrays of the cluster;
MXREL and MXREL.P release what the gang owns. -/
def Obligations.EngineOwnership : Prop :=
  (∀ s k, s.Ready .mxacq k → (s.core (s.coreOf k)).owner = none → (s.core (s.coreOf k)).mxq = [] →
    ∃ t, exec .mxacq s = .next t ∧ WordDone s t k ∧ (t.fib k).wait = .ready ∧ (t.core (s.coreOf k)).owner = some (s.gangOf k)) ∧
  (∀ s k g, s.Ready .mxacq k → (s.core (s.coreOf k)).owner = some g → g ≠ s.gangOf k → (∀ x ∈ (s.core (s.coreOf k)).mxq, x.1 ≠ s.gangOf k) →
    ∃ t, exec .mxacq s = .next t ∧ SameMemory s t ∧ (t.fib k).wait = .mxacq false ∧ (t.fib k).pc = (s.fib k).pc ∧
      (t.core (s.coreOf k)).owner = some g ∧ (t.core (s.coreOf k)).mxq = (s.core (s.coreOf k)).mxq ++ [(s.gangOf k, false)]) ∧
  (∀ s k, s.Ready .mxacqP k → s.leaderBlock k = true →
    (∀ c ∈ [s.coreOf k, partnerOf (s.coreOf k)], (s.core c).owner = none ∧ (s.core c).mxq = []) →
    ∃ t, exec .mxacqP s = .next t ∧ WordDone s t k ∧ (t.fib k).wait = .ready ∧
      ∀ c ∈ [s.coreOf k, partnerOf (s.coreOf k)], (t.core c).owner = some (s.gangOf k) ∧ (t.core c).ownerPaired = true) ∧
  (∀ i s b n, (i = .mxrel ∨ i = .mxrelP) → s.Ready i (.fib b n) →
    ∃ t, exec i s = .next t ∧ WordDone s t (.fib b n) ∧ SameRegs s t (.fib b n) ∧
      ∀ c ∈ [s.coreOf (.fib b n), partnerOf (s.coreOf (.fib b n))], (t.core c).owner ≠ some (b, n / 32) ∧
        ∀ x ∈ (t.core c).mxq, x.1 ≠ (b, n / 32))

/-- R337 to R339, R356: the oldest operation of a core, with none of its cluster's other core before it, performs its next
segment: a product adds, in FP32, the element sum acc of its row and column to each of 128 accumulator elements; MXZERO writes
+0. -/
def Sys2Proof.Claims.Absorption : Prop :=
  ∀ s o r i x g, (s.core s.args.unit).mxOps = o :: r → s.depsDone o.deps = true → (∀ d ∈ (s.core s.args.unit).drains, d.target ≠ 0) →
    s.mxBehind s.args.unit o = false → o.segs[o.next]? = some (i, x, g) → (∀ w n rows, o.kind ≠ .drain w n rows) →
    ∃ t, exec .accumulatorAbsorb s = .next t ∧ t.mem = s.mem ∧ t.fibres = s.fibres ∧
      (t.core s.args.unit).mxOps = (if o.next + 1 < o.segs.length then { o with next := o.next + 1 } :: r else r) ∧
      (let at_ := s.segAt o i x g
      match o.kind with
      | .mmaR f bsel rows car _ => ∀ c, s.carriages.at? car = some c → t.scratch =
          (s.scratchWrite (o.writer i) at_.1 at_.2 ((List.range 128).flatMap fun j => toBytes 4 (fp32.add (s.scratchGet at_.1 (at_.2 + 4 * j) 4)
            (dot f c (match rows.find? (·.1 = i) with | some y => regRow f bsel y.2.1 y.2.2 | none => regRow f bsel [] 0)
              (kBase f o.desc) (mmaK f) (x * 128 * c.np + 128 * g + j))))).scratch
      | .mmaS f a car _ => ∀ c, s.carriages.at? car = some c → t.scratch =
          (s.scratchWrite (o.writer i) at_.1 at_.2 ((List.range 128).flatMap fun j => toBytes 4 (fp32.add (s.scratchGet at_.1 (at_.2 + 4 * j) 4)
            (dot f c (s.tileRow o.fibre (s.opBlock o.fibre) f a (mmaSK f o.desc) i) (kBase f o.desc) (mmaSK f o.desc)
              (x * 128 * c.np + 128 * g + j))))).scratch
      | .zero _ => t.scratch = (s.scratchWrite (o.writer i) at_.1 at_.2 (List.replicate 512 0)).scratch
      | .drain _ _ _ => True)

/-- R336 to R339, R348, R349, R356: products and MXZERO. -/
def Obligations.EngineOperations : Prop :=
  Claims.EngineWords ∧ Claims.Absorption

/-- R340, R341, R358, R359: MXDRAIN takes a T4 ticket; when its turn comes the engine reads its tile, and the tile is applied whole,
with which its ticket completes. -/
def Obligations.Drains : Prop :=
  (∀ o s k, s.Ready (.mxdrain o) k → mxdrainCheck o s k = .go →
    ∃ t op, exec (.mxdrain o) s = .next t ∧ WordDone s t k ∧ UnitFrame s t k (some (wrSlot .xs o.d)) ∧
      (t.core (s.coreOf k)).mxOps = (s.core (s.coreOf k)).mxOps ++ [op] ∧ op.desc = s.src64 k o.a ∧ op.deps = s.outstanding k ∧
      (∃ rows, op.kind = .drain (s.groupOf k o.b) (s.nextTicket (s.coreOf k) 4) rows) ∧
      (t.ctx (s.coreOf k) 4).issued = s.nextTicket (s.coreOf k) 4 ∧
      Holds64 s t k o.d (BitVec.ofNat 64 (s.nextTicket (s.coreOf k) 4))) ∧
  (∀ s o r g n rows, (s.core s.args.unit).mxOps = o :: r → s.depsDone o.deps = true → (∀ d ∈ (s.core s.args.unit).drains, d.target ≠ 0) →
    s.mxBehind s.args.unit o = false → o.kind = .drain g n rows →
    ∃ t, exec .accumulatorAbsorb s = .next t ∧ SameMemory s t ∧ t.fibres = s.fibres ∧ (t.core s.args.unit).mxOps = r ∧
      (t.core s.args.unit).drains = (s.core s.args.unit).drains ++ [s.readTile s.args.unit o g n rows]) ∧
  (∀ s d, (s.core s.args.unit).drains.find? (·.id = s.args.item) = some d → d.core = s.args.unit → d.target ≠ 1 → s.tileOpen d = true →
    (d.poisoned = none → d.target ≠ 0 → s.visitBarred d.lines = false) →
    ∃ t, exec .drainTilePerform s = .next t ∧ t.mem = (s.applyTile d).mem ∧ t.scratch = (s.applyTile d).scratch ∧
      (d.poisoned.isSome = true → t.mem = s.mem ∧ t.scratch = s.scratch) ∧
      (t.core d.core).drains = (s.core d.core).drains.filter (·.id ≠ d.id) ∧ t.Completed d.core 4 d.ticket)

/-! ## Carriages -/

/-- R321, R322, R360, R363, R364: CRALLOC gives a zeroed READY carriage at the first fit, or 0; CRLDV fills the lane's column and makes
the carriage READY and untracked; CRPIN, CRUNPIN, CRFREE and CRDETACH. -/
def Sys2Proof.Claims.CarriageWords : Prop :=
  (∀ d a s k, s.Ready (.cralloc d a) k → crallocCheck (.cralloc d a) a s k = .go →
    ∃ t, exec (.cralloc d a) s = .next t ∧ WordDone s t k ∧ UnitFrame s t k (some (wrSlot .vs d)) ∧
      match s.firstFit (s.newCarriage k (s.src32 k a).toNat) with
      | none => Holds32 s t k d 0 ∧ t.carriages = s.carriages
      | some n => ∃ c, t.carriages.at? (Car.key (s.coreOf k) n) = some c ∧ c.state = .ready ∧ c.weights = [] ∧ c.sideStore = [] ∧
          c.pinned = false ∧ c.tracked = false ∧ c.first = n ∧ c.gen = (s.core (s.coreOf k)).gens.atD n 1 ∧
          c.kp = (s.src32 k a).toNat % 128 ∧ c.np = (s.src32 k a).toNat / 2 ^ 8 % 4 ∧ c.form = (s.src32 k a).toNat / 2 ^ 10 % 4 ∧
          c.holder = some (s.gangOf k).1 ∧
          Holds32 s t k d (BitVec.ofNat 32 (handleOf c.gen (s.coreOf k) n c.paired))) ∧
  (∀ o s k n c, s.Ready (.crldv o) k → crldvCheck o s k = .go → s.carriageAt k (s.src32 k o.b).toNat none = some (n, c) →
    ∃ t x, exec (.crldv o) s = .next t ∧ WordDone s t k ∧ UnitFrame s t k none ∧ t.carriages.at? n = some x ∧
      x.state = .ready ∧ x.tracked = false ∧ x.smoothed = false ∧
      x.weights = (s.fillColumn o.a (s.src32 k o.d).toNat c.startLoad k).weights ∧
      x.sideStore = (s.fillColumn o.a (s.src32 k o.d).toNat c.startLoad k).sideStore) ∧
  (∀ a s k n c, s.Ready (.crpin a) k → crpinCheck a s k = .go → s.carriageAt k (s.src32 k a).toNat none = some (n, c) →
    ∃ t, exec (.crpin a) s = .next t ∧ WordDone s t k ∧ UnitFrame s t k none ∧ t.carriages.at? n = some { c with pinned := true }) ∧
  (∀ a s k n c, s.Ready (.crunpin a) k → s.carriageAt k (s.src32 k a).toNat none = some (n, c) → c.state ≠ .loading →
    ∃ t, exec (.crunpin a) s = .next t ∧ WordDone s t k ∧ UnitFrame s t k none ∧ t.carriages.at? n = some { c with pinned := false }) ∧
  (∀ a s k n c, s.Ready (.crfree a) k → s.carriageAt k (s.src32 k a).toNat none = some (n, c) → c.state ≠ .loading → s.carBusy n c = false →
    ∃ t, exec (.crfree a) s = .next t ∧ WordDone s t k ∧ UnitFrame s t k none ∧ t.carriages.at? n = none ∧
      (t.core c.core).gens.atD c.first 1 = nextGen c.gen) ∧
  (∀ a s k n c, s.Ready (.crdetach a) k → s.carriageAt k (s.src32 k a).toNat none = some (n, c) → c.state ≠ .loading →
    ∃ t, exec (.crdetach a) s = .next t ∧ WordDone s t k ∧ UnitFrame s t k none ∧
      t.carriages.at? n = some { c with tracked := false, hulls := [] })

/-- R323 to R325, R361, R362: CRLOAD takes a T4 ticket and makes the carriage LOADING; the load leaves its planes, READY, or STALE
where a tracked write met it, and completes the ticket. That the load reads its sources in one step (DEDUCED, log 6) and takes the
smoothing vector at issue (DEDUCED, log 9) are the model's choices. -/
def Sys2Proof.Claims.CarriageLoads : Prop :=
  (∀ o s k r n c, s.Ready (.crload o) k → crloadCheck o (s.reading (.crload o)) k = .go →
    (s.reading (.crload o)).recordRead k (.crload o) (s.src64 k o.a) = .ok r →
    s.carriageAt k (s.src32 k o.b).toNat none = some (n, c) → s.smoothPoisoned k c r = none →
    ∃ t x l, exec (.crload o) s = .next t ∧ WordDone s t k ∧ UnitFrame s t k (some (wrSlot .xs o.d)) ∧ t.carriages.at? n = some x ∧
      x.state = .loading ∧ x.load = some l ∧ l.record = r ∧ l.ticket = some (s.nextTicket (s.coreOf k) 4) ∧ l.deps = s.outstanding k ∧
      (t.ctx (s.coreOf k) 4).issued = s.nextTicket (s.coreOf k) 4 ∧
      Holds64 s t k o.d (BitVec.ofNat 64 (s.nextTicket (s.coreOf k) 4))) ∧
  (∀ (s : State) c l c1 e w sd, s.carriages.at? s.args.item = some c → c.load = some l → c.state = .loading → c.loadFault = none →
    s.depsDone l.deps = true → e = s.loadBy s.args.item c l →
    c1 = { c with
      tracked := c.tracked && (s.loadHulls e c l.record).isSome,
      hulls := if c.tracked then (s.loadHulls e c l.record).getD [] else [] } →
    ({ s with carriages := s.carriages.put s.args.item c1 } : State).sourcesFit = true →
    ({ s.joins e.p l.deps with carriages := s.carriages.put s.args.item c1 } : State).syncSources.loadPlanes e c1 l
      (fun row => { data := s.args.bytes.drop (row * (shCols l.record * nibbles (shTfmt l.record) / 2)), code := s.args.opt.getD 0 })
      s.args.nats = .ok (w, sd) →
    ∃ t, exec .carriageLoadComplete s = .next t ∧ SameMemory s t ∧ t.fibres = s.fibres ∧
      t.carriages.at? s.args.item = some { c1 with weights := w, sideStore := sd, state := if c.loadDirty then .stale else .ready } ∧
      ∀ n, l.ticket = some n → t.Completed c.core 4 n)

/-- R321 to R325, R360 to R364: carriages. -/
def Obligations.Carriages : Prop :=
  Claims.CarriageWords ∧ Claims.CarriageLoads

/-! ## Bank executors and stack reducers -/

/-- R372, R373, R380, R385: BXC enters its command in the executor's queue of the bank its address names, under a T5 ticket; RDX joins its
stack reducer's queue under a T6 ticket, also where its destination has no translation yet (the model's: log 22), and its elements are
then taken at the head, one at a time (the model's: log 29); SSCONV of a control core gives the slices it names their target under a T5
ticket of the control core's own context (DEDUCED, log 23). -/
def Sys2Proof.Claims.MemoryExecutorWords : Prop :=
  (∀ o s k n, s.Ready (.bxc o) k → bxcCheck o s k = .go → s.bankAt k o.a = some n →
    ∃ t c, exec (.bxc o) s = .next t ∧ WordDone s t k ∧ UnitFrame s t k (some (wrSlot .xs o.d)) ∧
      (let exe := Bx.exe (bankCmd (s.groupOf k o.b))
      (t.bank n).queue exe = (s.bank n).queue exe ++ [c] ∧ [c.w0, c.w1, c.w2, c.w3] = s.groupOf k o.b ∧ c.step = 0 ∧ c.started = false ∧
        c.ticket = s.nextTicket (s.coreOf k) 5 ∧ c.deps = s.outstanding k ∧
        Holds64 s t k o.d (BitVec.ofNat 64 (s.nextTicket (s.coreOf k) 5)))) ∧
  (∀ d a s k r p, s.Ready (.rdx d a) k → rdxCheck d a (s.reading (.rdx d a)) k = .go →
    (s.reading (.rdx d a)).readVirt k (.rdx d a) .load 2 (s.src64 k a) 128 = .ok (r, p) →
    ∃ t x, exec (.rdx d a) s = .next t ∧ WordDone s t k ∧ UnitFrame s t k (some (wrSlot .xs d)) ∧
      (t.stack (s.rdxStack k r)).rdx = (s.stack (s.rdxStack k r)).rdx ++ [x] ∧ x.block = r ∧ x.next = 0 ∧
      x.ticket = s.nextTicket (s.coreOf k) 6 ∧ x.deps = s.outstanding k ∧
      Holds64 s t k d (BitVec.ofNat 64 (s.nextTicket (s.coreOf k) 6))) ∧
  (∀ o s n, s.Ready (.ssconv o) (.ctl n) → ssconvCheck o s (.ctl n) = .go →
    ∃ t, exec (.ssconv o) s = .next t ∧ WordDone s t (.ctl n) ∧ UnitFrame s t (.ctl n) (some (wrSlot .xs o.d)) ∧
      (t.ctx (384 + n) 5).issued = s.nextTicket (384 + n) 5 ∧
      Holds64 s t (.ctl n) o.d (BitVec.ofNat 64 (s.nextTicket (384 + n) 5)) ∧
      ∀ x ∈ convSlices (s.src32 (.ctl n) o.a).toNat,
        ((s.src32 (.ctl n) o.b).toNat, 384 + n, 5, s.nextTicket (384 + n) 5) ∈ (t.slice x).targets ∨
          t.Completed (384 + n) 5 (s.nextTicket (384 + n) 5))

/-- R370, R374, R375: the executor's command at the head of its queue performs its next element step: SUM, AXPY, MAXV, COPY, FILL and
AOP; after its last step it leaves the queue, and its completion is due. Values are those of memory where no write is remembered that the
executor may not have observed (DESIGN CHOICE, log 66). -/
def Sys2Proof.Claims.BankSteps : Prop :=
  (∀ i op total f, bankRow i = some (op, total, f) → ∀ s n exe c, s.headCmd op = some (n, exe, c) → s.veil.hidden = [] →
    ∃ t, exec i s = .next t ∧ t.scratch = s.scratch ∧
      t.mem = s.mem.put (bankPa n (f s n c).1) (f s n c).2.1 (f s n c).2.2 ∧
      if total c ≤ c.step + 1 then CmdEnded s t n exe c
      else ∃ d, (t.bank n).queue exe = d :: ((s.bank n).queue exe).drop 1 ∧ d.step = c.step + 1 ∧ d.ticket = c.ticket ∧ d.w0 = c.w0) ∧
  (∀ s n exe c, s.headCmd 6 = some (n, exe, c) → s.veil.hidden = [] →
    ∃ t, exec .aop s = .next t ∧ t.scratch = s.scratch ∧ CmdEnded s t n exe c ∧
      (let old := s.mem.get (bankPa n (Bx.a1 c)) 4
      let m := s.mem.put (bankPa n (Bx.a1 c)) 4 (bankAop (Bx.sub c) (BitVec.ofNat 32 old) c.w3).toNat
      t.mem = if Bx.a2 c = Bx.none_ then m else m.put (bankPa n (Bx.a2 c)) 4 old))

/-- R376: WAITFLAG ends when its flag has its value, with 1 in its result word; where its flag has no storage, or after its
limit, it fails with 0, and the commands of its block behind it are cancelled, their tickets completed. SETFLAG writes its flag,
at die scope and wider once the leases of what its executor has written are gone. -/
def Sys2Proof.Claims.BankFlags : Prop :=
  (∀ s n exe c, s.headCmd 7 = some (n, exe, c) → c.started = false → s.flagStored c = true → s.flagMatches c = true →
    ∃ t, exec .waitflag s = .next t ∧ CmdEnded s t n exe c ∧
      t.mem = if Bx.a2 c = Bx.none_ then s.mem else s.mem.put (bankPa n (Bx.a2 c)) 4 1) ∧
  (∀ s n exe c, s.headCmd 7 = some (n, exe, c) → c.started = false → s.flagStored c = true → s.flagMatches c = false →
    ∃ t, exec .waitflag s = .next t ∧ SameMemory s t ∧
      (t.bank n).queue exe = { c with started := true, since := some s.clock } :: ((s.bank n).queue exe).drop 1) ∧
  (∀ s n exe c, s.headCmd 7 = some (n, exe, c) → c.started = false → s.flagStored c = false →
    ∃ t, exec .waitflag s = .next t ∧
      t.mem = (if Bx.a2 c = Bx.none_ then s.mem else s.mem.put (bankPa n (Bx.a2 c)) 4 0) ∧
      (t.bank n).queue exe = (((s.bank n).queue exe).drop 1).filter (fun d => d.block ≠ c.block) ∧
      ∀ d ∈ ((s.bank n).queue exe).drop 1, d.block = c.block → t.Completed d.core 5 d.ticket) ∧
  (∀ s n exe c x, s.headCmd 7 = some (n, exe, c) → c.since = some x → x + Bx.count c * 256000 ≤ s.clock →
    ∃ t, exec .waitflagLimitExpiry s = .next t ∧
      t.mem = (if Bx.a2 c = Bx.none_ then s.mem else s.mem.put (bankPa n (Bx.a2 c)) 4 0) ∧
      (t.bank n).queue exe = (((s.bank n).queue exe).drop 1).filter (fun d => d.block ≠ c.block) ∧
      ∀ d ∈ ((s.bank n).queue exe).drop 1, d.block = c.block → t.Completed d.core 5 d.ticket) ∧
  (∀ s n exe c, s.headCmd 8 = some (n, exe, c) → s.ssaOk (Bx.a1 c) = true →
    (Bx.wide c = true → s.leasesGone ((windowBase + Bx.a1 c) / 128 ::
      (s.bankDone.filter fun d => d.bank = n && d.exe = exe).flatMap BankDone.lines ++ (s.bank n).dirty exe) = true) →
    ∃ t, exec .setflag s = .next t ∧ CmdEnded s t n exe c ∧ t.mem = s.mem.put (windowBase + Bx.a1 c) 4 (Bx.a3 c))

/-- R370, R374 to R376: what a bank command does. -/
def Obligations.BankCommands : Prop :=
  Claims.BankSteps ∧ Claims.BankFlags

/-- R112, R340, R371, R377, R383: a performed command completes its ticket once the leases of its lines are gone; a drain's tile is
applied at its bank between two commands; a stack reducer writes one element of its head block at a time (the model's order: log 29),
then its flag, and completes its ticket. -/
def Sys2Proof.Claims.ExecutorCompletion : Prop :=
  (∀ s d, (s.bankDone.find? fun d => d.bank = s.args.unit && d.exe = decide (s.args.sub = 1)) = some d → s.leasesGone d.lines = true →
    ∃ t, exec .bankCommandComplete s = .next t ∧ UnitsOnly s t ∧ t.bankDone = s.bankDone.erase d ∧ t.Completed d.core 5 d.ticket) ∧
  (∀ s d e r, (s.core s.args.unit).drains.find? (·.id = s.args.item) = some d → d.core = s.args.unit → d.target = 1 →
    d.elems = e :: r → s.tileOpen d = true → (∀ x ∈ [false, true], betweenCmds ((s.bank (bankOf (e.1 - windowBase))).queue x) = true) →
    ∃ t, exec .bankDrainApply s = .next t ∧ t.mem = (s.applyTile d).mem ∧ t.scratch = s.scratch ∧
      (t.core d.core).drains = (s.core d.core).drains.filter (·.id ≠ d.id) ∧ t.Completed d.core 4 d.ticket) ∧
  (∀ s x r u, (s.stack s.args.unit).rdx = x :: r → x.fault = none → s.depsDone x.deps = true →
    ((s.joins (.reducer s.args.unit) x.deps).follows (opParty x.fibre x.id) (.reducer s.args.unit)).rdxStep s.args.unit x = .ok u →
    ∃ t, exec .stackReduction s = .next t ∧ t.mem = u.mem ∧ t.scratch = u.scratch ∧
      if x.next < Rd.count x.block then
        (t.stack s.args.unit).rdx = (u.stack s.args.unit).rdx.map fun y => if y.id = x.id then { y with next := y.next + 1 } else y
      else (t.stack s.args.unit).rdx = (u.stack s.args.unit).rdx.filter (·.id ≠ x.id) ∧ t.Completed x.core 6 x.ticket)

/-- R112, R340, R371 to R373, R377, R380, R383, R385: commands to bank executors and reducers, and their completion. -/
def Obligations.MemoryExecutors : Prop :=
  Claims.MemoryExecutorWords ∧ Claims.ExecutorCompletion

/-! ## Slices, stacks, translation -/

/-- R80, R223, R227: a served request fills its destination: registers that are still empty, an s register, or the lane of a queue
entry; an uncorrectable value marks them. R286: a request reaches its slice's queue, or its spill queue; a spilled one returns. -/
def Sys2Proof.Claims.SliceSteps : Prop :=
  (∀ s r k v p, s.reqs.find? (·.id = s.args.item) = some r → r.stage = .served v p → r.org = .fibre k → r.what.returns = true →
    r.hold ≤ s.clock → (p = true → ∀ c, k ≠ .ap c) →
    ∃ t, exec .registerFill s = .next t ∧ SameMemory s t ∧
      match r.dst with
      | .regs [n] => ((s.fib k).cell n).full = false →
          (t.fib k).cell n = { val := BitVec.ofNat 32 (r.what.fill v), mark := if p then some (.poison r.va) else none }
      | .sreg b g n => ((s.gang (b, g)).s.atD n {}).full = false →
          (t.gang (b, g)).s.atD n {} = { val := BitVec.ofNat 64 (r.what.fill v), mark := if p then some (.poison r.va) else none }
      | .queue c q n l => p = false → ∀ e ∈ (s.queue c q).entries, e.serial = n →
          { e with words := e.words.set l (some (BitVec.ofNat 32 v)) } ∈ (t.queue c q).entries
      | _ => True) ∧
  (∀ s r, s.reqs.find? (·.id = s.args.item) = some r → r.stage = .inFlight → r.dev = none → s.depsDone r.deps = true →
    s.orderHeld r = false → s.args.opt = none → s.orphaned r.pa = false → r.what.writes = true → r.bypasses = false →
    ¬ (32 ≤ s.occupancy r.slice ∨ 0 < s.spilledCount r.slice) →
    (s.meets ((s.reqs.filter fun x => decide (x.id ≠ r.id) && (match x.stage with | .queued | .spilled => true | _ => false)).map Req.id) r) = none →
    ∃ t, exec .sliceRequestAccept s = .next t ∧ SameMemory s t ∧ t.reqs = (s.reqs.filter fun x => x.id ≠ r.id) ++ [{ r with stage := .queued, hold := s.clock }]) ∧
  (∀ s r, (s.reqs.find? fun r => decide (r.slice = s.args.unit ∧ r.stage = .spilled)) = some r → s.occupancy s.args.unit < 32 →
    (∀ x ∈ s.reqs, x.id = r.id → x.what.writes = true) →
    ∃ t, exec .spillReturn s = .next t ∧ SameMemory s t ∧
      t.reqs = s.reqs.map fun x => if x.id = r.id then { x with stage := .queued, hold := s.clock } else x)

/-- R80, R124, R223, R227, R281, R286: a request at its slice, its performance, its return. -/
def Obligations.HomeSteps : Prop :=
  Claims.HomePerform ∧ Claims.SliceSteps

/-- R289, R291, R294, R387: a way group converted reads as zero, and its addresses answer once no target of the slice is left (not
before: DEDUCED, log 27); the highest group goes back; the scrubber, where the line's controller has few entries or the escalator has
reserved a slot (how many and when: DESIGN CHOICE, log 77), takes a stack's lines in turn and enters what it meets (the error is the
agenda's: DESIGN CHOICE, log 19) in the ring, with the layer it knows or 0xFF. -/
def Sys2Proof.Claims.StackSteps : Prop :=
  (∀ s g c y k r, (s.slice s.args.unit).targets = (g, c, y, k) :: r → (s.slice s.args.unit).groups < g →
    ∃ t, exec .wayGroupConverted s = .next t ∧ t.scratch = s.scratch ∧ (t.slice s.args.unit).groups = (s.slice s.args.unit).groups + 1 ∧
      ∀ b < 16, ∀ x < 262144, t.mem.read (bankPa ((s.args.unit / 48 * 4 + s.args.unit % 48 / 16) * 256 + s.args.unit % 16 * 16 + b)
        ((s.slice s.args.unit).groups * 262144) + x) = 0 ∧
        (s.args.unit < 192 → (s.slice s.args.unit).groups < 4 → (t.slice s.args.unit).targets = [] →
          t.paOk (bankPa ((s.args.unit / 48 * 4 + s.args.unit % 48 / 16) * 256 + s.args.unit % 16 * 16 + b)
            ((s.slice s.args.unit).groups * 262144) + x) = true)) ∧
  (∀ s g c y k r, (s.slice s.args.unit).targets = (g, c, y, k) :: r → g < (s.slice s.args.unit).groups → s.queuedBefore s.args.unit = false →
    ∃ t, exec .wayGroupRestored s = .next t ∧ t.scratch = s.scratch ∧ (t.slice s.args.unit).groups = (s.slice s.args.unit).groups - 1) ∧
  (∀ s, s.args.unit < 12 → (s.args.opt = none ∨ s.args.opt = some 2 ∨ s.args.opt = some 3) →
    (s.args.sub < 16 ∨ s.args.sub = 0xFF) →
    (s.occupancy (controllerOf ((s.args.unit * 2 ^ 29 + (s.stack s.args.unit).scrubNext) * 128)) < (s.stack s.args.unit).thr ∨
      s.scrubSlots s.args.unit ≠ 0) →
    ∃ t, exec .scrubStep s = .next t ∧ t.mem = s.mem ∧
      (t.stack s.args.unit).scrubNext =
        (if (s.stack s.args.unit).scrubNext + 1 < stackLines then (s.stack s.args.unit).scrubNext + 1 else 0) ∧
      (t.stack s.args.unit).errCount = (s.stack s.args.unit).errCount + (if s.args.opt = none then 0 else 1) ∧
      (∀ kind, s.args.opt = some kind → (t.stack s.args.unit).ring.at? ((s.stack s.args.unit).errCount % 128) =
        some (toBytes 8 s.clock ++ toBytes 6 ((s.args.unit * 2 ^ 29 + (s.stack s.args.unit).scrubNext) * 128) ++ toBytes 1 kind ++ toBytes 1 s.args.sub)) ∧
      (s.args.opt = some 3 → s.args.unit * 2 ^ 29 + (s.stack s.args.unit).scrubNext ∈ t.poisonLines) ∧
      (s.args.opt ≠ some 3 → t.poisonLines = s.poisonLines))

/-- R274, R276: a completed walk gives the waiting agents' TLBs their page, or the agents its fault; an invalidation leaves no entry for
its page. The walk's reads go to the homes that HSEC 3 selects (the model's: DESIGN CHOICE, log 93), and find them open (R286, R421). -/
def Sys2Proof.Claims.TranslationSteps : Prop :=
  (∀ (s : State) m size pte, (s.missQ.filter fun m => decide (m.sector = s.args.unit) && m.walking)[s.args.item]? = some m →
    s.walkBarred m.part (m.page * 65536) = false → s.visitBarred (((s.walkEntries m.part (m.page * 65536)).filter inDram).map fun a => (homeSlice a 3, a / 128)) = false →
    s.walk m.part (m.page * 65536) = some (size, pte) →
    ∃ t, exec .tlbWalkComplete s = .next t ∧ UnitsOnly s t ∧ { m with walking := false, filled := true } ∈ t.missQ ∧ ∀ p ∈ m.waiters,
      { part := m.part, base := m.page * 65536 / 2 ^ size * 2 ^ size, size := size, pte := pte } ∈
        t.tlb1.atD (clusterOf (s.coreOfParty p)) []) ∧
  (∀ (s : State) m, (s.missQ.filter fun m => decide (m.sector = s.args.unit) && m.walking)[s.args.item]? = some m →
    s.walkBarred m.part (m.page * 65536) = false → s.visitBarred (((s.walkEntries m.part (m.page * 65536)).filter inDram).map fun a => (homeSlice a 3, a / 128)) = false →
    s.walk m.part (m.page * 65536) = none →
    ∃ t, exec .tlbWalkComplete s = .next t ∧ UnitsOnly s t ∧ { m with walking := false, result := some 0 } ∈ t.missQ) ∧
  (∀ s, s.args.unit < 12 → ∃ t, exec .tlbInvalidation s = .next t ∧ UnitsOnly s t ∧
    ∀ x ∈ t.tlb1 ++ t.tlb2, ∀ e ∈ x.2, ¬(e.part = s.args.unit ∧ s.args.item * 65536 / 2 ^ e.size = e.base / 2 ^ e.size))

/-- R274, R276, R289, R291, R294: ways, scrubbing, walks and invalidations. -/
def Obligations.StackAndTranslationSteps : Prop :=
  Claims.StackSteps ∧ Claims.TranslationSteps

/-! ## Stop points, leases, launches -/

/-- R187, R188, R258 to R260: PRE goes on where no stop is requested; else the fibre waits there with its liveness entry, and
its block stops once every live fibre waits at a PRE outside its handlers or stands in a region, none waits for its LAUNCH (what that
means: DEDUCED, log 33) and no other coach has performed its word for some members only; that it stops at this very step is the model's
(DEDUCED, log 60). IDEM opens its region with a snapshot, or closes it. -/
def Obligations.StopPoints : Prop :=
  (∀ n (s : State) (b : Nat) (m : Nat), s.Ready (.pre n) (.fib b m) → s.NoHeld (.fib b m) → s.stopRequested b = false →
    ∃ t, exec (.pre n) s = .next t ∧ WordDone s t (.fib b m) ∧ SameRegs s t (.fib b m) ∧ OthersSame s t (.fib b m) ∧ t.blocks = s.blocks) ∧
  (∀ n (s : State) (b : Nat) (m : Nat) why t0 e, s.Ready (.pre n) (.fib b m) → m ∈ s.liveSlots b → (s.block b).stop = .requested why t0 →
    (s.fib (.fib b m)).inHandler = false → (s.fib (.fib b m)).pop = none →
    s.readVirt (.fib b m) (.pre n) .load 2 (s.livenessAt (.fib b m) n.toNat) 128 = .ok (e, none) → livenessOk (s.block b) e = true →
    ∃ t, exec (.pre n) s = .next t ∧ SameMemory s t ∧ SameRegs s t (.fib b m) ∧ (t.fib (.fib b m)).wait = .pre e ∧
      (t.fib (.fib b m)).pc = (s.fib (.fib b m)).pc ∧
      (t.block b).stop = (if (∀ x ∈ s.liveSlots b, x = m ∨ (s.fib (.fib b x)).atStop = true) ∧ (∀ x ∈ s.liveSlots b, s.wordBusy (.fib b x) = false) ∧
          ∀ p ∈ s.pipes, p.2.block = b → s.agent ≠ some (.coach (p.1 / 4) (p.1 % 4)) → p.2.served = []
        then .stopped why false else .requested why t0)) ∧
  (∀ r (s : State) (b : Nat) (m : Nat) e, s.Ready (.idem r false) (.fib b m) → s.NoHeld (.fib b m) → s.stopRequested b = false →
    s.readVirt (.fib b m) (.idem r false) .load 2 (s.regionAt (.fib b m) r.toNat) 32 = .ok (e, none) →
    regionOk (s.block b) (field (s.recordOf (.fib b m)) 0 8) (s.fib (.fib b m)).pc.toNat e = true →
    (∀ n ∈ regionRegs e, ((s.fib (.fib b m)).cell n).full = true) →
    ∃ t, exec (.idem r false) s = .next t ∧ WordDone s t (.fib b m) ∧ SameRegs s t (.fib b m) ∧
      (let f := s.fib (.fib b m)
      (t.fib (.fib b m)).region = some
        { index := r.toNat, pc := f.pc, regs := (regionRegs e).map fun n => (n, (f.cell n).val), p := f.p, wb := f.wb, lr := f.lr })) ∧
  (∀ r (s : State) (b : Nat) (m : Nat), s.Ready (.idem r true) (.fib b m) → s.NoHeld (.fib b m) → s.stopRequested b = false →
    ∃ t, exec (.idem r true) s = .next t ∧ WordDone s t (.fib b m) ∧ SameRegs s t (.fib b m) ∧
      (t.fib (.fib b m)).region =
        (if ((s.fib (.fib b m)).region.map Snap.index) = some r.toNat then none else (s.fib (.fib b m)).region))

/-- R409 to R411: DEVID writes its word; WLEASE and WRENEW leave D empty and ask the home for its region, or are refused here where the
device is not reached or 64 leases of the die stand or are asked for; WDROP sends its request, goes on once the home has answered, and
raises LEASE_LOST where its lease is not held, also where the device is not reached. -/
def Obligations.RegionWords : Prop :=
  (∀ d a (s : State) k, s.Ready (.devid d a) k → devidCheck a s k = .go →
    ∃ t, exec (.devid d a) s = .next t ∧ WordDone s t k ∧ UnitFrame s t k (some (wrSlot .vs d)) ∧ Holds32 s t k d (s.devidWord k (s.src64 k a))) ∧
  (∀ (renew : Bool) o (s : State) k x, s.Ready (if renew then .wrenew o else .wlease o) k → s.acqPending k = false →
    s.regionCheck k (if renew then .wrenew o else .wlease o) (s.src64 k o.a) = .ok x → s.unacked (x.dev.getD 0) < 1024 →
    ∃ t r, exec (if renew then .wrenew o else .wlease o) s = .next t ∧ WordDone s t k ∧ UnitFrame s t k (some (wrSlot .xs o.d)) ∧
      Emptied t k (wrSlot .xs o.d) ∧ Asked s t k (.wlease renew (max 1 (min 1000 (s.src32 k o.b).toNat))) x.pa r ∧ r.dev = x.dev ∧
      r.dst = s.dstOf k (wrSlot .xs o.d) ∧
      r.stage = (if s.unreachable (x.dev.getD 0) = true then .served 6 false
        else if renew = false ∧ 64 ≤ s.dieLeases (dieOf (s.coreOf k)) then .served 3 false else .remote)) ∧
  (∀ a (s : State) k x r v p, s.Ready (.wdrop a) k → s.regionCheck k (.wdrop a) (s.src64 k a) = .ok x → s.dropAsk k x = some r →
    r.stage = .served v p →
    ∃ t, exec (.wdrop a) s = .next t ∧ WordDone s t k ∧ UnitFrame s t k none ∧ ∀ y ∈ t.reqs, y.id ≠ r.id) ∧
  (∀ a (s : State) k x h d, s.Ready (.wdrop a) k → s.regionCheck k (.wdrop a) (s.src64 k a) = .ok x → x.dev = some d → s.dropAsk k x = none →
    s.acqPending k = false → s.fabCheck k (.wdrop a) .rel .fab = .go → s.outstanding k = [] →
    (∀ r ∈ s.reqs, r.dev = some d → r.pa / 65536 ≠ x.pa / 65536) → s.unreachable d = false → s.held? d x.pa = some h →
    s.heldLive h = true → s.unacked d < 1024 →
    ∃ t r, exec (.wdrop a) s = .next t ∧ SameMemory s t ∧ (t.fib k).pc = (s.fib k).pc ∧ t.reqs = s.reqs ++ [r] ∧ r.what = .wdrop ∧
      r.dev = some d ∧ r.stage = .remote) ∧
  (∀ a (s : State) b n x d, s.Ready (.wdrop a) (.fib b n) → s.regionCheck (.fib b n) (.wdrop a) (s.src64 (.fib b n) a) = .ok x → x.dev = some d →
    s.dropAsk (.fib b n) x = none → s.acqPending (.fib b n) = false → s.fabCheck (.fib b n) (.wdrop a) .rel .fab = .go →
    s.outstanding (.fib b n) = [] → (∀ r ∈ s.reqs, r.dev = some d → r.pa / 65536 ≠ x.pa / 65536) →
    (∀ h, s.held? d x.pa = some h → s.heldLive h = false) → s.CanTrap b n →
    ∃ t, exec (.wdrop a) s = .next t ∧ Trapped s t b n (s.trapOf (.fib b n) (.wdrop a) 0x15 (s.src64 (.fib b n) a)))

/-- R143, R145, R148, R190 to R193: LAUNCH answers a LAUNCHID and its queue holds the launch, and its SIG ticket goes to the
record, D empty until it is performed (DEDUCED, log 33); or it answers a status word with the cause and offset of its refusal. LQSTAT
answers the queue's status word. -/
def Sys2Proof.Claims.LaunchWords : Prop :=
  (∀ o (s : State) k r, s.Ready (.launch o) k → launchCheck o (s.reading (.launch o)) k = .go →
    (s.reading (.launch o)).readRecord k (.launch o) (s.src64 k o.a) = .ok (r, none) →
    ∃ t, exec (.launch o) s = .next t ∧ WordDone s t k ∧
      match s.queueNamed k (s.src32 k o.b).toNat with
      | none => Holds64 s t k o.d (BitVec.ofNat 64 (2 ^ 63 + 4 * 2 ^ 8)) ∧ t.launches = s.launches ∧ OthersSame s t k
      | some (part, q) => match s.judge part q r false with
        | some (c, off) => Holds64 s t k o.d (BitVec.ofNat 64 (2 ^ 63 + c * 2 ^ 8 + off)) ∧ t.launches = s.launches ∧
            OthersSame s t k ∧ (t.lqueue (queueKey part q)).cause = c
        | none => OthersSame s t k ∧
            (∃ l, t.launches.at? s.nextLid = some l ∧ l.part = part ∧ l.queue = q ∧ l.record = r ∧ l.state = .accepted) ∧
            (t.lqueue (queueKey part q)).held = (s.lqueue (queueKey part q)).held ++ [s.nextLid] ∧
            (Rec.sigValid r = false → Holds64 s t k o.d (BitVec.ofNat 64 s.nextLid)) ∧
            (∀ x, Rec.sigValid r = true → s.target k .store (s.src64 k o.a + 0x78) = .ok x → x.dev = none →
              ∃ q, Asked s t k (.sig (s.nextTicket (Rec.depCore r 0x70) (Rec.depCtx r 0x70)) s.nextLid) x.pa q ∧
                q.dst = s.dstOf k (wrSlot .xs o.d) ∧ Emptied t k (wrSlot .xs o.d))) ∧
  (∀ o (s : State) k p q, s.Ready (.lqstat o) k → s.queueNamed k (s.src32 k o.a).toNat = some (p, q) →
    ∃ t, exec (.lqstat o) s = .next t ∧ WordDone s t k ∧ UnitFrame s t k (some (wrSlot .xs o.d)) ∧
      Holds64 s t k o.d (s.queueStatus (queueKey p q)))

/-- R145 to R149, R156: a launch whose dependences are met enters PLACING; the dispatchers place its next block on the chosen core, its
fibres at ENTRY with PARAM in s0 of gang 0, or pause it where no core has room; a block without a live fibre retires, and with the last
block its launch, whose SIG ticket completes. -/
def Obligations.LaunchSteps : Prop :=
  (∀ (s : State) l, s.launch? s.args.item = some l → s.headOf (queueKey l.part l.queue) = some s.args.item →
    (l.state = .accepted ∨ l.state = .pending) → (∀ o ∈ [0x30, 0x40, 0x50, 0x60], s.depMet l.record o = true) →
    ∃ t, exec .launchDependenceMet s = .next t ∧ UnitsOnly s t ∧ t.launch? s.args.item = some { l with state := .placing }) ∧
  (∀ (s : State) lid l c, s.chosen s.args.unit = some (lid, l) → s.launch? lid = some l → l.state = .placing → l.paused = false →
    s.stoppedAhead s.args.unit (s.effPrio lid) = false → Rec.twin l.record = false → s.args.nats = [] →
    s.findRoom (s.part s.args.unit).fromNext (blockOfRecord lid l s) false [] = some c →
    ∃ t, exec .blockPlace s = .next t ∧ t.mem = s.mem ∧
      (∃ x, t.blocks.at? s.nextBlock = some x ∧ x.lid = lid ∧ x.core = c ∧ x.stop = .running ∧
        x.x = l.cursor % Rec.gridx l.record ∧ x.y = l.cursor / Rec.gridx l.record % Rec.gridy l.record ∧
        x.z = l.cursor / (Rec.gridx l.record * Rec.gridy l.record)) ∧
      (∀ n < Rec.fibres l.record,
        (FKey.fib s.nextBlock n, ({ pc := BitVec.ofNat 64 (Rec.entry l.record), readySince := s.cycles c } : Fibre)) ∈ t.fibres) ∧
      (0 < Rec.gangs l.record → ((s.nextBlock, 0), ({ s := [(0, { val := BitVec.ofNat 64 (Rec.param l.record) })] } : Gang)) ∈ t.gangs) ∧
      ∃ m, t.launch? lid = some m ∧ m.cursor = l.cursor + 1 ∧
        m.state = (if Rec.blocks l.record ≤ l.cursor + 1 then .running else .placing)) ∧
  (∀ (s : State) lid l, s.chosen s.args.unit = some (lid, l) → s.launch? lid = some l → l.state = .placing → l.paused = false →
    s.stoppedAhead s.args.unit (s.effPrio lid) = false → Rec.preempt l.record = false →
    s.findRoom (s.part s.args.unit).fromNext (blockOfRecord lid l s) (Rec.twin l.record) [] = none →
    ∃ t, exec .blockPlace s = .next t ∧ UnitsOnly s t ∧ t.blocks = s.blocks ∧ t.launch? lid = some { l with paused := true }) ∧
  (∀ (s : State) x, s.blocks.at? s.args.item = some x → s.liveSlots s.args.item = [] → s.blockBusy s.args.item = false →
    ∃ t, exec .blockRetire s = .next t ∧ SameMemory s t ∧ t.blocks.at? s.args.item = none ∧
      (∀ n, t.fibres.at? (.fib s.args.item n) = none) ∧
      ∀ l, s.launch? x.lid = some l → l.state = .running → (∀ y ∈ s.blocks, y.1 ≠ s.args.item → y.2.lid ≠ x.lid) →
        t.launch? x.lid = none ∧ ∀ c u n, l.sig = some (c, u, n) → t.Completed c u n)

/-- R419, R420: a doorbell of an enabled partition with a record that passes its checks is accepted like a LAUNCH, and its status word
is the LAUNCHID; one that does not is refused, and the status word says why. -/
def Sys2Proof.Claims.Doorbells : Prop :=
  ∀ (s : State) r, s.args.unit < 12 → s.args.sub < 64 → s.released = true →
    (∀ q ∈ s.reqs, ¬(q.org = .host ∧ q.part = s.args.unit ∧ q.lane = s.args.sub)) →
    ((s.part s.args.unit).enabled = false →
      ∃ t, exec .hostDoorbell s = .next t ∧ UnitsOnly s t ∧ t.launches = s.launches ∧
        t.doorbells.at? (queueKey s.args.unit s.args.sub) = some (BitVec.ofNat 64 (2 ^ 63 + 2 * 2 ^ 8))) ∧
    ((s.part s.args.unit).enabled = true → s.args.word.toNat % 64 ≠ 0 →
      ∃ t, exec .hostDoorbell s = .next t ∧ UnitsOnly s t ∧ t.launches = s.launches ∧
        t.doorbells.at? (queueKey s.args.unit s.args.sub) = some (BitVec.ofNat 64 (2 ^ 63 + 5 * 2 ^ 8 + 0x12))) ∧
    ((s.part s.args.unit).enabled = true → s.args.word.toNat % 64 = 0 → s.bellRead s.args.unit s.args.bytes 5 s.args.word 256 = .ok r false →
      Rec.sigValid r = false →
      ∃ t, exec .hostDoorbell s = .next t ∧ UnitsOnly s t ∧
        match s.judge s.args.unit s.args.sub r false with
        | some (c, off) => t.launches = s.launches ∧
            t.doorbells.at? (queueKey s.args.unit s.args.sub) = some (BitVec.ofNat 64 (2 ^ 63 + c * 2 ^ 8 + off))
        | none => t.doorbells.at? (queueKey s.args.unit s.args.sub) = some (BitVec.ofNat 64 s.nextLid) ∧
            (t.lqueue (queueKey s.args.unit s.args.sub)).held = (s.lqueue (queueKey s.args.unit s.args.sub)).held ++ [s.nextLid] ∧
            ∃ l, t.launches.at? s.nextLid = some l ∧ l.record = r ∧ l.state = .accepted)

/-- R143, R145, R148, R190 to R193, R419: LAUNCH, LQSTAT and the doorbell. -/
def Obligations.Launches : Prop :=
  Claims.LaunchWords ∧ Claims.Doorbells

/-- R152 to R154, R161: a free pipe takes a coach: the head fibre and ready fibres of its block with its role and PC, at most 32; their
temporaries and await sets are gone. -/
def Sys2Proof.Claims.Coaches : Prop :=
  ∀ (s : State) b n, s.args.unit < 384 → s.args.sub < 4 → s.pipes.at? (pipeKey s.args.unit s.args.sub) = none →
    s.headFibre s.args.unit = some (b, n) →
    ∃ t ms, exec .coachForm s = .next t ∧ SameMemory s t ∧
      t.pipes.at? (pipeKey s.args.unit s.args.sub) = some { block := b, members := ms, since := s.clock } ∧ n ∈ ms ∧ ms.length ≤ 32 ∧
      (∀ m ∈ ms, (t.fib (.fib b m)).pc = (s.fib (.fib b n)).pc ∧ (t.fib (.fib b m)).k = [] ∧ (t.fib (.fib b m)).await = [] ∧
        (t.fib (.fib b m)).regs = (s.fib (.fib b m)).regs) ∧
      ∀ m ∈ ms, s.isHelper (.fib b m) = false → s.fibReady b m = true ∧ s.inCoach b m = false ∧ s.roleOf (.fib b m) = s.roleOf (.fib b n)

/-- R158, R239, R253, R262: an open reconvergence group departs when its window has passed; TIMER is raised in the gang's lowest live
fibre when RUNCYC has reached TMRCMP, which becomes 0, at once or at the end of its run. R91, R287, R315: a read of a slice
counter returns and clears it: SQSPILL to 0, SQPEAK to what its queue holds. -/
def Sys2Proof.Claims.Expiries : Prop :=
  (∀ (s : State) x r, s.reconvGroup (s.args.unit, s.args.sub) s.args.word = x :: r → (∀ o, (s.fib x).atReconv = some o →
      o + (s.gang (s.args.unit, s.args.sub)).sr.rcvwin ≤ s.cycles (s.block s.args.unit).core) →
    ∃ t, exec .reconvWindowExpiry s = .next t ∧ SameMemory s t ∧
      ∀ k ∈ x :: r, (t.fib k).pc = (s.fib k).pc + 4 ∧ (t.fib k).wait = .ready ∧ (t.fib k).regs = (s.fib k).regs) ∧
  (∀ (s : State) n r, (s.gangs.at? (s.args.unit, s.args.sub)).isSome = true → (s.gang (s.args.unit, s.args.sub)).sr.tmrcmp ≠ 0 →
    (s.gang (s.args.unit, s.args.sub)).sr.tmrcmp.toNat ≤ (s.gang (s.args.unit, s.args.sub)).sr.runcyc →
    (∀ x ∈ s.fibres, x.2.heldTimer = false ∧ x.2.heldDebug = false) →
    s.liveInGang (s.args.unit, s.args.sub) = n :: r → (s.fib (.fib s.args.unit n)).wait = .ready →
    ∃ t, exec .timerExpiry s = .next t ∧ (t.gang (s.args.unit, s.args.sub)).sr.tmrcmp = 0 ∧
      (s.inCoach s.args.unit n = true → (t.fib (.fib s.args.unit n)).heldTimer = true ∧ SameMemory s t) ∧
      (s.inCoach s.args.unit n = false → s.CanTrap s.args.unit n →
        Trapped s t s.args.unit n { cause := 0x20, pc := (s.fib (.fib s.args.unit n)).pc, addr := 0, info := 0 })) ∧
  (∀ (s : State), s.args.unit < 192 →
    (∃ t, exec .sqpeakRead s = .next t ∧ SameMemory s t ∧ (t.slice s.args.unit).peak = s.occupancy s.args.unit ∧
      Holds32 s t s.args.fibre s.args.reg (BitVec.ofNat 32 (s.slice s.args.unit).peak)) ∧
    (∃ t, exec .sqspillRead s = .next t ∧ SameMemory s t ∧ (t.slice s.args.unit).spills = 0 ∧
      Holds32 s t s.args.fibre s.args.reg (BitVec.ofNat 32 (s.slice s.args.unit).spills)))

/-- R152 to R154, R158, R161, R253, R262, R287: coaches, and what time brings. -/
def Obligations.CoachesAndExpiries : Prop :=
  Claims.Coaches ∧ Claims.Expiries

/-! ## Faults, stops, the debugger -/

/-- R255 to R257, R276: the fault service lets the fibres parked on its page replay their word, or rejects them, which take their trap;
a fibre parked for more than 1 ms is rejected. -/
def Obligations.FaultService : Prop :=
  (∀ (s : State) k f, (∃ r ∈ s.faultReports, r.part = s.args.unit ∧ r.page = s.args.item ∧ r.cause = s.args.sub) →
    k ∈ s.faulted s.args.unit s.args.item s.args.sub → (s.fib k).parkedOn = some f → f.is s.args.item s.args.sub = true →
    ∃ t, exec .faultServiceMap s = .next t ∧ SameMemory s t ∧ (t.fib k).wait = .ready ∧ (t.fib k).pc = (s.fib k).pc ∧ SameRegs s t k ∧
      ∀ r ∈ t.faultReports, ¬(r.part = s.args.unit ∧ r.page = s.args.item ∧ r.cause = s.args.sub)) ∧
  (∀ (s : State) (b : Nat) (n : Nat) f, (∃ r ∈ s.faultReports, r.part = s.args.unit ∧ r.page = s.args.item ∧ r.cause = s.args.sub) →
    s.faulted s.args.unit s.args.item s.args.sub = [.fib b n] → (s.fib (.fib b n)).parkedOn = some f → f.is s.args.item s.args.sub = true →
    s.CanTrap b n →
    ∃ u, Trapped s u b n f.trap ∧ exec .faultServiceReject s =
      .next ((u.rejectEngines s.args.unit s.args.item s.args.sub).dropReport s.args.unit s.args.item s.args.sub)) ∧
  (∀ (s : State) (b : Nat) (n : Nat) f t0, s.args.fibre = .fib b n → (s.fib (.fib b n)).wait = .parked f t0 → t0 + 1000000 < s.clock →
    s.CanTrap b n → ∃ t, exec .parkTimeout s = .next t ∧ Trapped s t b n f.trap)

/-- R253, R263: DEBUG_STOP stops a fibre between two runs at once, in the gang's debug attachment or as a trap, and one in a coach at the
end of its run; a debugger's register write leaves the register full; a release lets the fibres go on. -/
def Obligations.Debugger : Prop :=
  (∀ (s : State), (s.gangs.at? (s.args.unit, s.args.sub)).isSome = true → s.args.opt = some 1 →
    (∀ x ∈ s.fibres, x.2.heldTimer = false ∧ x.2.heldDebug = false) →
    ∃ t, exec .debugStop s = .next t ∧ SameMemory s t ∧ ∀ n ∈ s.liveInGang (s.args.unit, s.args.sub),
      (s.fib (.fib s.args.unit n)).wait = .ready →
      (t.fib (.fib s.args.unit n)).pc = (s.fib (.fib s.args.unit n)).pc ∧ SameRegs s t (.fib s.args.unit n) ∧
        (s.inCoach s.args.unit n = true → (t.fib (.fib s.args.unit n)).heldDebug = true) ∧
        (s.inCoach s.args.unit n = false → (t.fib (.fib s.args.unit n)).wait = .debug)) ∧
  (∀ (s : State) n, (s.gangs.at? (s.args.unit, s.args.sub)).isSome = true → s.args.opt = none →
    (∀ x ∈ s.fibres, x.2.heldTimer = false ∧ x.2.heldDebug = false) → s.liveInGang (s.args.unit, s.args.sub) = [n] →
    (s.fib (.fib s.args.unit n)).wait = .ready → s.inCoach s.args.unit n = false → s.CanTrap s.args.unit n →
    ∃ t, exec .debugStop s = .next t ∧
      Trapped s t s.args.unit n { cause := 0x23, pc := (s.fib (.fib s.args.unit n)).pc, addr := 0, info := 0 }) ∧
  (∀ (s : State) (b : Nat) (n : Nat), s.args.fibre = .fib b n → (s.fibres.at? (.fib b n)).isSome = true →
    (∀ m, s.args.reg = .v m → (s.fib (.fib b n)).wb.toNat + m < s.declared (.fib b n) →
      ∃ t, exec .debugRegisterWrite s = .next t ∧ SameMemory s t ∧ OthersSame s t (.fib b n) ∧
        (∀ x, (t.fib (.fib b n)).cell x =
          if x = (s.fib (.fib b n)).wb.toNat + m then { val := s.args.word.setWidth 32 } else (s.fib (.fib b n)).cell x) ∧
        ∀ q ∈ t.reqs, q.org = .fibre (.fib b n) → ∀ rs, q.dst = .regs rs → (s.fib (.fib b n)).wb.toNat + m ∉ rs) ∧
    (∀ m, s.args.reg = .s m →
      ∃ t, exec .debugRegisterWrite s = .next t ∧ SameMemory s t ∧ t.fibres = s.fibres ∧
        (t.gang (b, n / 32)).s.atD m {} = { val := s.args.word } ∧ ∀ q ∈ t.reqs, q.dst ≠ .sreg b (n / 32) m)) ∧
  (∀ (s : State), (s.gang (s.args.unit, s.args.sub)).debug = true →
    ∃ t, exec .debugRelease s = .next t ∧ SameMemory s t ∧ (t.gang (s.args.unit, s.args.sub)).debug = decide (s.args.opt = some 1) ∧
      ∀ n ∈ s.liveInGang (s.args.unit, s.args.sub), (s.fib (.fib s.args.unit n)).wait = .debug →
        (t.fib (.fib s.args.unit n)).wait = .ready ∧ (t.fib (.fib s.args.unit n)).pc = (s.fib (.fib s.args.unit n)).pc ∧
          SameRegs s t (.fib s.args.unit n))

/-- R9, R160, R256, R258, R261: a context switch requests the stop of every running block of its partition; at the deadline, or where too
many fibres are parked, a block stops with its coaches; its state is saved, no byte outside the partition's save area changing, and it
comes back on a core with room, its registers and PCs as they were: after a preemption or a native switch-out behind launches of higher
priority, and after the latter once its faults are resolved. -/
def Obligations.StopSteps : Prop :=
  (∀ (s : State), (s.part s.args.unit).enabled = true → (s.part s.args.unit).shadow = true → (s.part s.args.unit).pendShadow = false →
    (s.stopsLeft s.args.unit = true ∨ s.looseLoads s.args.unit = false) →
    ∃ t, exec .contextSwitchRequest s = .next t ∧ SameMemory s t ∧ t.fibres = s.fibres ∧ t.pipes = s.pipes ∧
      ∀ b x, s.blocks.at? b = some x → x.part = s.args.unit → x.stop = .running → (t.block b).stop = .requested .switch s.clock) ∧
  (∀ (s : State) why t0, (s.block s.args.item).stop = .requested why t0 → (s.block s.args.item).twin = none →
    t0 + (s.part (s.block s.args.item).part).predeadline ≤ s.clock →
    ∃ t, exec .stopDeadline s = .next t ∧ SameMemory s t ∧
      (∀ n, (t.fib (.fib s.args.item n)).pc = (s.fib (.fib s.args.item n)).pc ∧ (t.fib (.fib s.args.item n)).p = (s.fib (.fib s.args.item n)).p) ∧
      (t.block s.args.item).stop = .stopped why true ∧
      ∀ p ∈ t.pipes, p.2.block = s.args.item → p.2.run ≠ 0 ∨ p.2.served ≠ []) ∧
  (∀ (s : State) t0, (s.part s.args.unit).overSince = some t0 → t0 + 2000 < s.clock → s.overThreshold s.args.unit = true →
    ∃ t, exec .nativeSwitchOut s = .next t ∧ SameMemory s t ∧
      ∀ b x, s.blocks.at? b = some x → x.part = s.args.unit → x.active = true → (t.block b).stop = .stopped .faults true) ∧
  (∀ (s : State) why d, (s.block s.args.item).stop = .stopped why d → why ≠ .rollback → (s.block s.args.item).twin = none →
    s.noCoach s.args.item = true → s.enginesQuiet s.args.item = true → s.looseLoads (s.block s.args.item).part = false →
    ∃ t, exec .blockSave s = .next t ∧ t.scratch = s.scratch ∧ (t.block s.args.item).stop = .saved why ∧
      (∀ a, (let r := s.saveArea (s.block s.args.item).part
          a < r.1 ∨ r.1 + r.2 ≤ a) → t.mem.read a = s.mem.read a) ∧
      (t.block s.args.item).units = [] ∧
      (d = true → ∀ n, t.fib (.fib s.args.item n) = (s.fib (.fib s.args.item n)).saved)) ∧
  (∀ (s : State) why c, (s.blocks.at? s.args.item).isSome = true → (s.block s.args.item).stop = .saved why →
    (why ≠ .switch → ∀ lid l, s.chosen (s.block s.args.item).part = some (lid, l) → s.effPrio lid ≤ s.effPrio (s.block s.args.item).lid) →
    (why = .faults → s.unresolved s.args.item = false) →
    (s.block s.args.item).twin = none → s.args.opt = none → s.args.nats = [] → (s.block s.args.item).image.reissue = [] →
    s.findRoom (s.part (s.block s.args.item).part).sectors (s.block s.args.item) false [] = some c → s.canRestore s.args.item c = true →
    ∃ t, exec .blockRestore s = .next t ∧ t.mem = s.mem ∧ (t.block s.args.item).stop = .running ∧ (t.block s.args.item).core = c ∧
      (t.block s.args.item).image = {} ∧
      ∀ n, SameRegs s t (.fib s.args.item n) ∧
        ((∀ p, (s.fib (.fib s.args.item n)).wait ≠ .mxacq p) → (t.fib (.fib s.args.item n)).pc = (s.fib (.fib s.args.item n)).pc))

/-- R264: a launch that has consumed an uncorrectable error asks its blocks to stop; once they have and what they wrote is
performed (DEDUCED, log 52), the undo log is written back, latest line first, and the launch starts again at block 0; after three
rollbacks it ends as a launch error. -/
def Obligations.Rollback : Prop :=
  ∀ (s : State) l, s.launch? s.args.item = some l → l.mustRollback = true → l.error = none →
    (3 ≤ l.rollbacks →
      ∃ t m, exec .rollback s = .next t ∧ SameMemory s t ∧ t.errs = s.errs ++ [{ lid := s.args.item, cause := 0x30 }] ∧
        t.launch? s.args.item = some m ∧ m.error = some 0x30 ∧ m.mustRollback = false) ∧
    (l.rollbacks < 3 → (∃ b ∈ s.blocksOfLaunch s.args.item, (s.block b).stop.forRollback s.clock ≠ (s.block b).stop) →
      ∃ t, exec .rollback s = .next t ∧ SameMemory s t ∧ t.fibres = s.fibres ∧ t.pipes = s.pipes ∧
        ∀ b ∈ s.blocksOfLaunch s.args.item, (t.block b).stop = (s.block b).stop.forRollback s.clock) ∧
    (l.rollbacks < 3 →
      (∀ b ∈ s.blocksOfLaunch s.args.item, ((∃ d, (s.block b).stop = .stopped .rollback d) ∨ ∃ w, (s.block b).stop = .saved w) ∧
        s.toHalt b = false ∧ s.quietBlock b = true) →
      (∀ x ∈ l.undo, ∀ h ∈ homesOf x.1, s.lineOpen undoParty h = true) →
      ∃ t m, exec .rollback s = .next t ∧ t.mem = l.undo.foldl (fun m x => m.writeBytes (x.1 * 128) x.2) s.mem ∧
        (∀ y ∈ t.blocks, y.2.lid ≠ s.args.item) ∧ t.launch? s.args.item = some m ∧ m.state = .placing ∧ m.cursor = 0 ∧ m.undo = [] ∧
        m.rollbacks = l.rollbacks + 1 ∧ m.mustRollback = false)

/-! ## Fabric -/

/-- R394 to R396, R398, R403: a FILLING cart leaves at CART_AGE; a LEAVING cart is sent, its elements outstanding, in flow class 0 (the
model's: DESIGN CHOICE, log 79); an acknowledgement frees packets; at a timeout the packets stand as sent once more, and after the fourth
in a row the flow is given up; a replay changes nothing, and a failed port leaves its link. -/
def Obligations.CartsAndFlows : Prop :=
  (∀ (s : State) c, c ∈ (s.die s.args.unit).carts → c.dest = s.args.item → c.leaving = false →
    c.since + (s.die s.args.unit).cartAge ≤ s.clock →
    ∃ t, exec .cartAgeExpiry s = .next t ∧ UnitsOnly s t ∧ t.reqs = s.reqs ∧ { c with leaving := true, left := s.clock } ∈ (t.die s.args.unit).carts) ∧
  (∀ (s : State) c, (s.die s.args.unit).carts.find? Cart.leaving = some c → s.unreachable c.dest = false →
    s.inFlight s.args.unit + c.elems.length ≤ 2048 → s.unacked c.dest < 1024 →
    ∃ t, exec .cartSend s = .next t ∧ UnitsOnly s t ∧ (t.die s.args.unit).carts = (s.die s.args.unit).carts.erase c ∧
      t.reqs = s.reqs.map (fun r => if r.id ∈ c.elems then { r with stage := .sent, sentAt := s.clock } else r) ∧
      (t.flows.atD (c.dest, 0) {}).next = ((s.flows.atD (c.dest, 0) {}).next + 1) % 2 ^ 32 ∧
      (t.flows.atD (c.dest, 0) {}).unacked = (s.flows.atD (c.dest, 0) {}).unacked ++ [((s.flows.atD (c.dest, 0) {}).next, c.elems)]) ∧
  (∀ (s : State) n, s.args.opt = some n → isGroup s.args.item = false → (∃ e ∈ (s.flows.atD (s.args.item, s.args.sub) {}).unacked, e.1 = n) →
    ∃ t, exec .e2eAck s = .next t ∧ UnitsOnly s t ∧ (t.flows.atD (s.args.item, s.args.sub) {}).timeouts = 0 ∧
      ∃ l e r new, (s.flows.atD (s.args.item, s.args.sub) {}).unacked = l ++ (n, e) :: r ∧ (∀ x ∈ l, x.1 ≠ n) ∧
        (t.flows.atD (s.args.item, s.args.sub) {}).unacked = r ++ new ∧
        ((∀ b ∈ s.backlog, ¬(b.1 = s.args.item ∧ b.2.1 = s.args.sub)) → new = [])) ∧
  (∀ (s : State), isGroup s.args.item = false → (s.flows.atD (s.args.item, s.args.sub) {}).unacked ≠ [] →
    (s.flows.atD (s.args.item, s.args.sub) {}).lastAck + (s.die 0).e2eto * 1000 ≤ s.clock →
    ∃ t, exec .e2eTimeout s = .next t ∧ SameMemory s t ∧
      if (s.flows.atD (s.args.item, s.args.sub) {}).timeouts < 3 then
        t.reqs = s.reqs ∧ (t.flows.atD (s.args.item, s.args.sub) {}).unacked = (s.flows.atD (s.args.item, s.args.sub) {}).unacked ∧
          (t.flows.atD (s.args.item, s.args.sub) {}).timeouts = (s.flows.atD (s.args.item, s.args.sub) {}).timeouts + 1 ∧
          (t.flows.atD (s.args.item, s.args.sub) {}).resends = (s.flows.atD (s.args.item, s.args.sub) {}).resends + 1
      else (t.flows.atD (s.args.item, s.args.sub) {}).givenUp = true ∧ (t.flows.atD (s.args.item, s.args.sub) {}).unacked = []) ∧
  (∀ (s : State), s.args.unit < 128 → s.args.unit ∉ s.failedPorts →
    exec .linkReplay s = .next s ∧
      exec .portFailure s = .next { s with
        failedPorts := s.failedPorts ++ [s.args.unit], links := s.links.map fun l => (l.1, l.2.filter (· ≠ s.args.unit)) })

/-- R222, R402, R404, R410: the status of an access to another device ends it: its value is served, a write is done; a lease word is
recorded; a multicast store ends with the last of its members. -/
def Sys2Proof.Claims.GoodStatuses : Prop :=
  ∀ (s : State) r d, s.reqs.find? (·.id = s.args.item) = some r → r.dev = some d → (r.stage = .sent ∨ r.stage = .remote) →
    s.depsDone r.deps = true → s.args.opt = none →
    (isGroup d = false → r.held = false → r.what.returns = true → (∀ b u, r.what ≠ .wlease b u) → r.what ≠ .line → r.what ≠ .wdrop →
      (∀ n l, r.what ≠ .sig n l) →
      ∃ t, exec .elementStatus s = .next t ∧ SameMemory s t ∧ t.fibres = s.fibres ∧
        ∀ x ∈ s.reqs, x.id = r.id → { x with
          stage := .served (ofBytes (if s.args.bytes.length = 128 then (s.args.bytes.drop (r.pa % 128)).take r.what.bytes else s.args.bytes)) false
          slice := 1001 } ∈ t.reqs) ∧
    (isGroup d = false → r.held = false → r.what.returns = false → r.what ≠ .line → r.what ≠ .wdrop → (∀ b u, r.what ≠ .wlease b u) →
      ∃ t, exec .elementStatus s = .next t ∧ UnitsOnly s t ∧ ∀ x ∈ t.reqs, x.id ≠ r.id) ∧
    (∀ n l k, isGroup d = false → r.what = .sig n l → r.org = .fibre k →
      ∃ t, exec .elementStatus s = .next t ∧ UnitsOnly s t ∧ ∀ x ∈ s.reqs, x.id = r.id → { x with stage := .served l false, slice := 1001 } ∈ t.reqs) ∧
    (∀ us, isGroup d = false → r.what = .wlease false us → s.args.word.toNat / 2 ^ 48 ≠ 0 →
      ∃ t h, exec .elementStatus s = .next t ∧ UnitsOnly s t ∧ t.held? d r.pa = some h ∧ h.dev = d ∧ h.gen = s.args.word.toNat / 2 ^ 48 ∧
        h.exp % 2 ^ 48 = s.args.word.toNat % 2 ^ 48 ∧
        ∀ x ∈ s.reqs, x.id = r.id → { x with stage := .served s.args.word.toNat false, slice := 1001 } ∈ t.reqs) ∧
    (isGroup d = true → r.members = [s.args.sub] → s.args.sub ≠ s.devId → r.refused = none →
      ∃ t, exec .elementStatus s = .next t ∧ UnitsOnly s t ∧ ∀ x ∈ t.reqs, x.id ≠ r.id)

/-- R123, R222, R402, R404: a refused element of a fibre ends too: where it returns a value its destination, still empty, is marked with
the code and its address; where it returns none an entry with its address, its origin and the code stands in the core's cart-fault record,
and with that record full the launch of its gang ends as a launch error. The refusal of the last member of a group is the store's. -/
def Sys2Proof.Claims.RefusedStatuses : Prop :=
  ∀ (s : State) r d b n c, s.reqs.find? (·.id = s.args.item) = some r → r.dev = some d → (r.stage = .sent ∨ r.stage = .remote) →
    s.depsDone r.deps = true → s.args.opt = some c → c ∈ [0x10, 0x11, 0x15, 0x16, 0x30, 0x40, 0x41] → r.org = .fibre (.fib b n) → r.copy = none →
    (isGroup d = false ∨ (r.members = [s.args.sub] ∧ s.args.sub ≠ s.devId ∧ r.refused = none)) →
    (∀ x y, r.what ≠ .wlease x y) → r.what ≠ .line → r.what ≠ .wdrop → (∀ x y, r.what ≠ .sig x y) →
    ∃ t, exec .elementStatus s = .next t ∧ SameMemory s t ∧ (∀ x ∈ t.reqs, x.id ≠ r.id) ∧
      (r.what.returns = true → t.cores = s.cores ∧ OthersSame s t (.fib b n) ∧
        (∀ m, r.dst = .regs [m] → ((s.fib (.fib b n)).cell m).full = false →
          (t.fib (.fib b n)).cell m = { val := 0, mark := some (.remote r.va (BitVec.ofNat 8 c) r.lane) }) ∧
        (∀ x g m, r.dst = .sreg x g m → ((s.gang (x, g)).s.atD m {}).full = false →
          (t.gang (x, g)).s.atD m {} = { val := 0, mark := some (.remote r.va (BitVec.ofNat 8 c) r.lane) })) ∧
      (r.what.returns = false → r.dst = .none → s.liveInGang r.gang ≠ [] →
        if (s.core r.core).cartFaults.length < 16 then t.fibres = s.fibres ∧ (t.core r.core).cartFaults =
          (s.core r.core).cartFaults ++ [{ block := r.gang.1, gang := r.gang.2, lane := r.lane, addr := r.va, cause := 0x14, code := c }]
        else { lid := (s.block r.gang.1).lid, cause := 0x14 } ∈ t.errs)

/-- R123, R222, R402, R404, R410: the status of an access to another device, good or refused. -/
def Obligations.Statuses : Prop :=
  Claims.GoodStatuses ∧ Claims.RefusedStatuses

/-- R391, R392, R398, R401, R406, R410: a packet in its turn is acknowledged and each element answered or taken on: the reads, writes,
atomics and cell accesses that the import table admits become requests, in their order; one that is not admitted is refused
PAGE_PROT, one without storage PAGE_NP, one whose CELL disagrees CELL_ALIGN; a lease request gets its lease word. A packet for an
earlier incarnation is answered INCARNATION, one of another incarnation of its source is dropped. Of the entries that admit an element
the first gives HSEC and LCMAX (the model's: DESIGN CHOICE, log 80); the order of the checks is the model's (DEDUCED, log 36). -/
def Sys2Proof.Claims.PacketArrivals : Prop :=
  ∀ (s : State) p, s.args.packet = some p → s.linksUp = true → s.forUs p = true → p.src ≠ s.devId → p.src ≤ 1057 → p.cls ≤ 3 →
    p.seq < 2 ^ 32 → packetFits p = true → s.CanSend p.src 1 p.elems.length →
    (p.dstInc.toNat ≠ s.incarnation →
      ∃ t, exec .packetArrival s = .next t ∧ t = { s with outbox := t.outbox, flows := t.flows } ∧
        t.outbox = s.outbox ++ (List.range p.elems.length).map fun i => .status p.src p.cls p.seq i 0x41 0 0) ∧
    (p.dstInc.toNat = s.incarnation → p.srcInc.toNat ≠ s.peers.atD p.src 0 → exec .packetArrival s = .next s) ∧
    (p.dstInc.toNat = s.incarnation → p.srcInc.toNat = s.peers.atD p.src 0 → p.seq = s.expected.atD (flowKey p, p.cls) 0 % 2 ^ 32 →
      ((∀ e ∈ p.elems, s.paOk e.addr = true ∧ (∃ w, asWhat e.what = some w ∧ ((∀ a b c d, w ≠ .atom a b c d) ∨ inHost e.addr = false)) ∧
          ∃ x, s.admits p.src p.tenant e = some x ∧ cellClash e.what (Imp.cell x) = false) →
        ∃ t rs, exec .packetArrival s = .next t ∧ UnitsOnly s t ∧ t.outbox = s.outbox ++ [.ack p.src p.cls p.seq] ∧
          t.expected.atD (flowKey p, p.cls) 0 = (s.expected.atD (flowKey p, p.cls) 0 + 1) % 2 ^ 32 ∧
          t.reqs = s.reqs ++ rs ∧ rs.length = p.elems.length ∧
          ∀ (i : Nat) e r, p.elems[i]? = some e → rs[i]? = some r → r.pa = e.addr ∧ asWhat e.what = some r.what ∧ r.ord = e.ord ∧
            r.org = .remote p.src p.tenant p.cls p.seq i ∧ r.stage = .inFlight ∧
            ∀ x, s.admits p.src p.tenant e = some x → r.hsec = Imp.hsec x ∧ r.lcls = min e.lclass (Imp.lcmax x)) ∧
      (∀ e, p.elems = [e] →
        (∀ w, asWhat e.what = some w → ∀ c, (c = 0x10 ∧ s.paOk e.addr = false ∨ c = 0x11 ∧ s.paOk e.addr = true ∧ s.admits p.src p.tenant e = none ∨
            c = 0x16 ∧ s.paOk e.addr = true ∧ ∃ x, s.admits p.src p.tenant e = some x ∧ cellClash e.what (Imp.cell x) = true) →
          ∃ t, exec .packetArrival s = .next t ∧ UnitsOnly s t ∧ t.reqs = s.reqs ∧
            t.outbox = s.outbox ++ [.status p.src p.cls p.seq 0 c 0 0, .ack p.src p.cls p.seq]) ∧
        (∀ us x, e.what = .leaseRequest us → s.paOk e.addr = true → s.admits p.src p.tenant e = some x →
          (s.homeLease (e.addr / 65536)).state = .open → s.homeCount < 256 → ∃ t gen, exec .packetArrival s = .next t ∧ UnitsOnly s t ∧
            gen = (if (s.homeLease (e.addr / 65536)).gen = 65535 then 1 else (s.homeLease (e.addr / 65536)).gen + 1) ∧
            (t.homeLease (e.addr / 65536)).state = .held p.src (s.clock + 1000 * us) ∧ (t.homeLease (e.addr / 65536)).gen = gen ∧
            t.outbox = s.outbox ++ [.status p.src p.cls p.seq 0 0 (gen * 2 ^ 48 + (s.clock + 1000 * us) % 2 ^ 48) 0, .ack p.src p.cls p.seq])))

/-- R2, R395, R402: a packet of a size that one has that is passing through goes out, its hop noted, on the minimal path to its
intermediate where it still has one, else to its destination (the paths: DESIGN CHOICE, log 38); a multicast packet on the branches with
room, and later on those it held. -/
def Sys2Proof.Claims.Transit : Prop :=
  (∀ (s : State) p via b, s.args.packet = some p → s.linksUp = true → packetFits p = true → 1 ≤ s.args.sub → s.args.sub ≤ 4 →
    isGroup p.dst = false → p.dst ≠ s.devId → via = (if p.via = some s.devId then none else p.via) → s.nextHop (via.getD p.dst) = some b →
    exec .transitForward s = .next { s with outbox := s.outbox ++ [.forward b s.args.sub { p with via := via }] }) ∧
  (∀ (s : State) p n, s.args.packet = some p → s.linksUp = true → packetFits p = true → 1 ≤ s.args.sub → s.args.sub ≤ 4 → isGroup p.dst = true → s.args.opt = some n →
    (s.args.nats.drop n = [] ∨ s.args.unit < 128 ∧ s.slotsUsed s.args.unit < 16) →
    ∃ t, exec .transitForward s = .next t ∧ t = { s with outbox := t.outbox, transit := t.transit } ∧
      t.outbox = s.outbox ++ (s.args.nats.take n).map (fun b => .forward b s.args.sub p) ∧
      t.transit.length = s.transit.length + (if s.args.nats.drop n = [] then 0 else 1)) ∧
  (∀ (s : State) x, s.args.packet = none → s.linksUp = true → s.transit[s.args.item]? = some x → s.args.nats ≠ [] → (∀ b ∈ s.args.nats, b ∈ x.branches) →
    ∃ t, exec .transitForward s = .next t ∧ t = { s with outbox := t.outbox, transit := t.transit } ∧
      t.outbox = s.outbox ++ s.args.nats.map fun b => .forward b x.hop x.packet)

/-- R391, R392, R395, R398, R401, R402, R406, R410: packets that arrive and packets that pass through. -/
def Obligations.Packets : Prop :=
  Claims.PacketArrivals ∧ Claims.Transit

/-- R401, R406, R407, R410: a write lease ends at the home 200 ns after its expiry, its region ORPHANED until control-mode code clears
it; the holder discards the dirty lines of an expired lease and tells the home; a peer that joins again leaves its regions ORPHANED, its
flows afresh and none of its accesses; that what stands in carts or in flight to it ends with it is the model's (DEDUCED, log 37). -/
def Obligations.LeaseEnds : Prop :=
  (∀ (s : State) d e, (s.homeLease s.args.unit).state = .held d e → e + 200 ≤ s.clock →
    ∃ t, exec .writeLeaseExpiry s = .next t ∧ t = { s with homeLeases := t.homeLeases } ∧
      ∀ n, t.homeLease n = if n = s.args.unit then { s.homeLease n with state := .orphaned } else s.homeLease n) ∧
  (∀ (s : State), (s.homeLease s.args.unit).state = .orphaned →
    ∃ t, exec .orphanClear s = .next t ∧ t = { s with homeLeases := t.homeLeases } ∧
      ∀ n, t.homeLease n = if n = s.args.unit then { s.homeLease n with state := .open } else s.homeLease n) ∧
  (∀ (s : State) h, s.heldLeases.at? s.args.item = some h → h.gen ≠ 0 → s.heldLive h = false →
    ∃ t x, exec .holderLeaseExpiry s = .next t ∧ SameMemory s t ∧ t.heldLeases.at? s.args.item = some x ∧ x.gen = 0 ∧ x.data = [] ∧
      x.dirty = [] ∧ (s.CanSend h.dev 0 1 → .notice h.dev (s.args.item % 2 ^ 28) h.gen ∈ t.outbox)) ∧
  (∀ (s : State), s.args.unit ≤ 1057 → s.args.unit ≠ s.devId → 0 < s.args.word.toNat → s.args.word.toNat < 2 ^ 32 →
    s.args.word.toNat ≠ s.peers.atD s.args.unit 0 →
    ∃ t, exec .peerRejoin s = .next t ∧ SameMemory s t ∧ t.peers.atD s.args.unit 0 = s.args.word.toNat ∧
      (∀ f ∈ t.flows, f.1.1 ≠ s.args.unit) ∧ (∀ r ∈ t.reqs, r.device ≠ some s.args.unit) ∧
      ∀ n e, (s.homeLease n).state = .held s.args.unit e → (t.homeLease n).state = .orphaned)

/-! ## Control complex, host, stacks' temperatures, power -/

/-- R90, R401, R423, R424: a start leaves the machine at reset with its measurements: released after four good images, stopped at the
first one that is not signed; a later start raises the incarnation; host memory stays. That other memory then reads 0 (DESIGN CHOICE,
log 11) and that the first start of a module keeps its incarnation (DEDUCED, log 63) are the model's. -/
def Sys2Proof.Claims.Boot : Prop :=
  ∀ (s : State) x r, s.args.images = x :: r → r.length = 3 →
    ∃ t, exec .powerOn s = .next t ∧ t.clock = 0 ∧ t.fibres = [] ∧ t.launches = [] ∧ t.scratch = [] ∧ t.devId = s.devId ∧
      (∀ a, t.mem.read a = if inHost a = true then s.mem.read a else 0) ∧
      t.incarnation = (if s.bootstat % 16 = 0 then s.incarnation else if s.incarnation + 1 = 2 ^ 32 then 1 else s.incarnation + 1) ∧
      ((∀ y ∈ x :: r, y.signed = true ∧ y.wellFormed = true) → t.bootstat = 0x41 ∧ t.released = true) ∧
      (x.signed = false → t.bootstat = 0x02 ∧ t.released = false) ∧
      (x.signed = true → x.wellFormed = false → t.bootstat = 0x03 ∧ t.released = false)

/-- R406, R419, R421, R424: once the dies are released, the host reads and writes device memory within a line: a write once the leases
have run out, no other byte touched; a hole reads as all ones with the poison indicator and takes no write. What an ORPHANED region and a
poisoned line answer, and the bound of one line, are the model's (DEDUCED, log 44). -/
def Obligations.HostAccess : Prop :=
  (∀ (s : State) n, s.args.nats.head? = some n → 0 < n → s.args.item % 128 + n ≤ 128 → hostReaches s.args.item = true → s.released = true →
    s.visitBarred [(homeSlice s.args.item 3, s.args.item / 128)] = false → s.hostWaits s.args.item = false → s.writeWaits (homeSlice s.args.item 3, s.args.item / 128) = false →
    ∃ t, exec .cxlMemRead s = .next t ∧ UnitsOnly s t ∧
      if s.hostOk s.args.item = true then t.hostData = s.mem.bytes s.args.item n ∧ t.hostPoison = s.memPoisoned s.args.item n
      else t.hostData = List.replicate n 0xFF ∧ t.hostPoison = true) ∧
  (∀ (s : State), 0 < s.args.bytes.length → s.args.item % 128 + s.args.bytes.length ≤ 128 → hostReaches s.args.item = true →
    s.released = true → s.visitBarred [(homeSlice s.args.item 3, s.args.item / 128)] = false → s.hostWaits s.args.item = false → s.lineOpen .host (homeSlice s.args.item 3, s.args.item / 128) = true →
    ∃ t, exec .cxlMemWrite s = .next t ∧ t.scratch = s.scratch ∧ t.fibres = s.fibres ∧
      t.mem = if s.hostOk s.args.item = true then s.mem.writeBytes s.args.item s.args.bytes else s.mem)

/-- R425: a mailbox whose GO is 1 answers command 1 with a report that begins with its tag and echoes the nonce, command 2 with the public
key and its certificate, and any other with a status of 2, its response as it was (the model's: DESIGN CHOICE, log 48); GO is then 0, CMD
and the nonce as they were. A requester's write leaves the response area and STATUS alone, and GO while it is 1. The hash and signature
are uninterpreted (DESIGN CHOICE, log 13). -/
def Sys2Proof.Claims.Attestation : Prop :=
  (∀ (s : State) x, s.args.unit < 13 → s.released = true → s.mailboxes.at? s.args.unit = some x → x.go = 1 →
    (x.cmd = 1 → ∃ t y, exec .attestReport s = .next t ∧ UnitsOnly s t ∧ t.mailboxes.at? s.args.unit = some y ∧ y.status = 0 ∧ y.go = 0 ∧
      y.cmd = 1 ∧ y.nonce = x.nonce ∧ y.response.length = 0x1F00 ∧ y.response.take 4 = [0x4B, 0x58, 0x41, 0x52] ∧
      (y.response.drop 0x18).take 32 = padTo 32 x.nonce) ∧
    (x.cmd ≠ 1 → x.cmd ≠ 2 → ∃ t, exec .attestReport s = .next t ∧ UnitsOnly s t ∧
      t.mailboxes.at? s.args.unit = some { x with go := 0, status := 2 }) ∧
    (x.cmd = 2 → ∃ t y, exec .attestCertificate s = .next t ∧ UnitsOnly s t ∧ t.mailboxes.at? s.args.unit = some y ∧ y.status = 0 ∧
      y.go = 0 ∧ y.cmd = 2 ∧ y.nonce = x.nonce ∧ y.response.take 1952 = s.publicKey)) ∧
  (∀ (s : State) r m off bs x, s.agenda = .mailbox m off bs :: r → m < 13 → off + bs.length ≤ 0x2000 → s.bootstat % 16 < 2 →
    s.mailboxes.at? m = some x →
    ∃ t y, step s = .next t.follow ∧ UnitsOnly s t ∧ t.mailboxes.at? m = some y ∧ y.response = x.response ∧ y.status = x.status ∧
      (x.go = 1 → y.go = 1) ∧ (off = 0x1FFC → bs = [1, 0, 0, 0] → x.go = 0 → y.go = 1 ∧ y.cmd = x.cmd ∧ y.nonce = x.nonce) ∧
      (off = 0x1F00 → bs = [1, 0, 0, 0] → x.cmd = 0 → y.cmd = 1))

/-- R90, R401, R423 to R425: a start, and what the device attests. -/
def Obligations.BootAndAttestation : Prop :=
  Claims.Boot ∧ Claims.Attestation

/-- R418, R420, R421: control software's writes: PARTCFG takes its fields where no block, launch or sector of another partition stands in
the way; a drain that is done ends the wait for shadow or undo ways; the other registers of the window; a frame's new owner starts its
zeroing, and a zeroed granule reads 0. -/
def Obligations.ControlSoftware : Prop :=
  (∀ (s : State) p, s.args.unit = p → p < 12 → (∀ y ∈ s.blocks, y.2.part ≠ p) → (∀ l ∈ s.launches, l.2.part = p → l.2.state = .retired) →
    (∀ q < 12, q ≠ p → (s.part q).enabled = true → ∀ x ∈ (s.part q).sectors, s.args.word.toNat.testBit x = false) →
    (s.args.word.toNat.testBit 63 = true → ∃ x < 12, s.args.word.toNat.testBit x = true) → s.args.word.toNat / 2 ^ 52 % 16 ≤ 11 →
    ∃ t, exec .partcfgWrite s = .next t ∧ UnitsOnly s t ∧ (t.part p).cfg = s.args.word &&& 0xE0F0000000000FFF) ∧
  (∀ (s : State), s.args.unit < 12 → (∃ y ∈ s.blocks, y.2.part = s.args.unit) → exec .partcfgWrite s = .next s) ∧
  (∀ (s : State), s.args.sub = 0 → (s.part s.args.unit).pendShadow = true →
    ∃ t, exec .shadowUndoDrainDone s = .next t ∧ UnitsOnly s t ∧ t.part s.args.unit = { s.part s.args.unit with pendShadow := false }) ∧
  (∀ (s : State), s.args.sub = 1 → (s.part s.args.unit).pendUndo = true →
    ∃ t, exec .shadowUndoDrainDone s = .next t ∧ UnitsOnly s t ∧ t.part s.args.unit = { s.part s.args.unit with pendUndo := false }) ∧
  (∀ (s : State), s.args.item % 8 = 0 → s.args.item < 0x1000000 →
    ∃ t, exec .controlWindowWrite s = .next t ∧ UnitsOnly s t ∧ (s.args.item = 0 → t = s) ∧
      (s.args.item = 0x40 → t.fotBase = s.args.word) ∧
      (0x20000 ≤ s.args.item → s.args.item < 0x20800 → t.windowRead s.args.item = s.args.word.toNat &&& field importMask (s.args.item % 32) 8) ∧
      (∀ p < 12, s.args.item = 0x10008 + 64 * p → (t.part p).ptbase = s.args.word) ∧
      (∀ p < 12, s.args.item = 0x10028 + 64 * p → (t.part p).parkthr = max 1 (min 64 s.args.word.toNat)) ∧
      (∀ p < 12, s.args.item = 0x10030 + 64 * p → (t.part p).predeadline = max 1000 (min 1000000 s.args.word.toNat))) ∧
  (∀ (s : State) g, s.fotGranule s.args.item = some g → s.lineOpen (.agent (.ctl 0)) (homeSlice s.args.item 3, s.args.item / 128) = true →
    s.visitBarred [(homeSlice s.args.item 3, s.args.item / 128)] = false →
    ∃ t, exec .fotEntryWrite s = .next t ∧ t.fibres = s.fibres ∧ t.scratch = s.scratch ∧
      t.mem = s.mem.put s.args.item 1 (s.args.word.toNat % 2 ^ 8) ∧
      (s.args.word.toNat % 2 ^ 8 ≤ 11 → s.args.word.toNat % 2 ^ 8 ≠ (s.mem.read s.args.item).toNat → g ∈ t.zeroing)) ∧
  (∀ (s : State), s.args.item ∈ s.zeroing → s.granuleFree s.args.item = true →
    ∃ t, exec .granuleZeroingDone s = .next t ∧ t.fibres = s.fibres ∧ t.scratch = s.scratch ∧ s.args.item ∉ t.zeroing ∧
      ∀ a, t.mem.read a = if a / 65536 = s.args.item then 0 else s.mem.read a)

/-- R386, R427: a stack that reaches a threshold starts its action, which ends 3 degrees below it; THERMCTL takes its thresholds clamped
and in order, or nothing; every 10 us a die's clock moves by its power, and stands at 1000 MHz from the moment a stack of it is hot and
while it is. R426: a frame of a priority that is not paused arrives, is taken by control firmware, and is sent. That the readings are
operands (DESIGN CHOICE, log 28), that the 10 us count from the due time (DEDUCED, log 55) and when firmware takes and sends frames (DESIGN
CHOICE, log 95) are the model's. -/
def Obligations.ThermalAndPower : Prop :=
  (∀ (s : State) h, s.args.unit < 12 → s.args.bytes.length = 16 → (∀ b ∈ s.args.bytes, b.toNat ≤ h) → (∃ b ∈ s.args.bytes, b.toNat = h) →
    let x := s.stack s.args.unit
    (x.lt1 ≤ h → x.act1 = false → ∃ t, exec .thermLt1 s = .next t ∧ UnitsOnly s t ∧
      t.stack s.args.unit = { x with act1 := true, temps := s.args.bytes }) ∧
    (x.lt2 ≤ h → x.act2 = false → ∃ t, exec .thermLt2 s = .next t ∧ UnitsOnly s t ∧
      t.stack s.args.unit = { x with act2 := true, act2hot := x.act2hot || decide (x.lt2 + 5 ≤ h), temps := s.args.bytes }) ∧
    (x.lt3 ≤ h → x.act3 = false → ∃ t, exec .thermLt3 s = .next t ∧ UnitsOnly s t ∧
      t.stack s.args.unit = { x with act3 := true, temps := s.args.bytes } ∧ (t.die (s.args.unit / 3)).curClk = 1000) ∧
    (x.act1 = true → h + 3 ≤ x.lt1 → ∃ t, exec .thermActionEnd s = .next t ∧ UnitsOnly s t ∧ (t.stack s.args.unit).act1 = false ∧
      (t.stack s.args.unit).temps = s.args.bytes ∧ (x.act3 = true → ((t.stack s.args.unit).act3 = true ↔ x.lt3 < h + 3)))) ∧
  (∀ (s : State), s.args.unit < 12 →
    ∃ t, exec .thermctlWrite s = .next t ∧ UnitsOnly s t ∧
      (let v := s.args.word.toNat
      let lim := fun (n : Nat) => max 60 (min 125 n)
      t.stack s.args.unit =
        if lim (v % 256) ≤ lim (v / 256 % 256) ∧ lim (v / 256 % 256) ≤ lim (v / 65536 % 256) then
          { s.stack s.args.unit with lt1 := lim (v % 256), lt2 := lim (v / 256 % 256), lt3 := lim (v / 65536 % 256) }
        else s.stack s.args.unit)) ∧
  (∀ (s : State), s.args.unit < 4 → (s.die s.args.unit).powerAt + 10000 ≤ s.clock →
    ∃ t, exec .powerClockStep s = .next t ∧ UnitsOnly s t ∧ (t.die s.args.unit).powerAt = (s.die s.args.unit).powerAt + 10000 ∧
      (t.die s.args.unit).curClk =
        (if (∃ n ∈ [3 * s.args.unit, 3 * s.args.unit + 1, 3 * s.args.unit + 2], (s.stack n).act3 = true) then 1000
        else if (s.die s.args.unit).cap < s.args.word.toNat then max 1000 ((s.die s.args.unit).curClk - 100)
        else if 100 * s.args.word.toNat < 95 * (s.die s.args.unit).cap then min 2500 ((s.die s.args.unit).curClk + 100)
        else (s.die s.args.unit).curClk)) ∧
  (∀ (s : State), s.args.unit < 2 → s.args.bytes.length ≤ 9216 → s.args.sub < 8 → s.args.sub ∉ (s.ethPorts.atD s.args.unit {}).holding →
    exec .ethernetFrame s = .next { s with eth := s.eth ++ [(s.args.unit, s.args.bytes)] }) ∧
  (∀ (s : State) r n f l, s.agenda = .ethTake n :: r → s.eth = (n, f) :: l →
    step s = .next ({ s with agenda := r, eth := l } : State).follow) ∧
  (∀ (s : State) r n p f, s.agenda = .ethSend n p f :: r → n < 2 → p < 8 → f.length ≤ 9216 → 1 ≤ s.bootstat / 16 % 16 →
    ∃ t, step s = .next t.follow ∧ UnitsOnly s t ∧ (t.ethPorts.atD n {}).sending = (s.ethPorts.atD n {}).sending ++ [(p, f)])
end

