-- ==== Sys2Proof/Laws/Data.lean ====
section
/-!
SUPPORT. Laws/Data.lean: maps read back what is put; memory operations read back what is written and keep the canonical form.
-/

namespace Sys2Proof.Machine

/-! ### Maps -/

section Maps
variable {κ α : Type} [DecidableEq κ]

@[simp] theorem Map.at?_nil (k : κ) : Map.at? ([] : Map κ α) k = none := rfl

@[simp] theorem Map.at?_put_same (m : Map κ α) (k : κ) (v : α) : Map.at? (Map.put m k v) k = some v := by
  induction m with
  | nil => simp [Map.put, Map.at?]
  | cons x r ih =>
    obtain ⟨x, w⟩ := x
    by_cases h : x = k <;> simp [Map.put, Map.at?, h, ih]

theorem Map.at?_put_ne (m : Map κ α) {k k' : κ} (v : α) (h : k' ≠ k) : Map.at? (Map.put m k v) k' = Map.at? m k' := by
  induction m with
  | nil => simp [Map.put, Map.at?, Ne.symm h]
  | cons x r ih =>
    obtain ⟨x, w⟩ := x
    by_cases hx : x = k
    · subst hx; simp [Map.put, Map.at?, Ne.symm h]
    · by_cases hy : x = k'
      · subst hy; simp [Map.put, Map.at?, h]
      · simp [Map.put, Map.at?, hx, hy, ih]

theorem Map.at?_put (m : Map κ α) (k k' : κ) (v : α) : Map.at? (Map.put m k v) k' = if k' = k then some v else Map.at? m k' := by
  by_cases h : k' = k
  · subst h; simp
  · simp [h, Map.at?_put_ne m v h]

@[simp] theorem Map.atD_put_same (m : Map κ α) (k : κ) (v d : α) : Map.atD (Map.put m k v) k d = v := by simp [Map.atD]

theorem Map.atD_put_ne (m : Map κ α) {k k' : κ} (v d : α) (h : k' ≠ k) : Map.atD (Map.put m k v) k' d = Map.atD m k' d := by
  simp [Map.atD, Map.at?_put_ne m v h]

theorem Map.atD_put (m : Map κ α) (k k' : κ) (v d : α) : Map.atD (Map.put m k v) k' d = if k' = k then v else Map.atD m k' d := by
  by_cases h : k' = k
  · subst h; simp
  · simp [h, Map.atD_put_ne m v d h]

@[simp] theorem Map.at?_del_same (m : Map κ α) (k : κ) : Map.at? (Map.del m k) k = none := by
  induction m with
  | nil => rfl
  | cons x r ih =>
    obtain ⟨x, w⟩ := x
    by_cases h : x = k <;> simp [Map.del, Map.at?, h, ih]

theorem Map.at?_del_ne (m : Map κ α) {k k' : κ} (h : k' ≠ k) : Map.at? (Map.del m k) k' = Map.at? m k' := by
  induction m with
  | nil => rfl
  | cons x r ih =>
    obtain ⟨x, w⟩ := x
    by_cases hx : x = k
    · subst hx; simp [Map.del, Map.at?, Ne.symm h, ih]
    · by_cases hy : x = k'
      · subst hy; simp [Map.del, Map.at?, h]
      · simp [Map.del, Map.at?, hx, hy, ih]

end Maps

/-! ### Memory: reads after writes -/

namespace Memory

@[simp] theorem read_nil (a : Nat) : read [] a = 0 := rfl

/-- A write leaves every other byte alone. -/
theorem read_write_ne (m : Memory) {a a' : Nat} (b : Byte) (h : a' ≠ a) : (m.write a b).read a' = m.read a' := by
  induction m with
  | nil => by_cases hb : b = 0#8 <;> simp [write, read, hb, Ne.symm h]
  | cons x r ih =>
    obtain ⟨x, c⟩ := x
    by_cases h1 : a < x
    · by_cases hb : b = 0#8 <;> simp [write, read, h1, hb, Ne.symm h]
    · by_cases h2 : a = x
      · subst h2
        by_cases hb : b = 0#8 <;> simp [write, read, hb, Ne.symm h]
      · by_cases h3 : x = a'
        · subst h3; simp [write, read, h1, h2]
        · simp [write, read, h1, h2, h3, ih]

/-- Below the least address of a canonical memory every byte reads as unlisted. -/
theorem read_of_lt {m : Memory} {lo a : Nat} (hw : m.wfFrom lo = true) (h : a < lo) : m.read a = 0 := by
  induction m generalizing lo with
  | nil => rfl
  | cons x r ih =>
    obtain ⟨x, c⟩ := x
    simp only [wfFrom, Bool.and_eq_true, decide_eq_true_eq] at hw
    have hx : x ≠ a := by omega
    simp only [read, hx, if_false]
    exact ih hw.2 (by omega)

/-- A written byte reads back. -/
theorem read_write_same {m : Memory} {lo : Nat} (hw : m.wfFrom lo = true) (a : Nat) (b : Byte) : (m.write a b).read a = b := by
  induction m generalizing lo with
  | nil => by_cases hb : b = 0#8 <;> simp [write, read, hb]
  | cons x r ih =>
    obtain ⟨x, c⟩ := x
    simp only [wfFrom, Bool.and_eq_true, decide_eq_true_eq] at hw
    by_cases h1 : a < x
    · by_cases hb : b = 0#8
      · have hx : x ≠ a := by omega
        simp [write, read, h1, hb, hx, read_of_lt hw.2 (show a < x + 1 by omega)]
      · simp [write, read, h1, hb]
    · by_cases h2 : a = x
      · subst h2
        by_cases hb : b = 0#8
        · simp [write, hb, read_of_lt hw.2 (show a < a + 1 by omega)]
        · simp [write, read, hb]
      · have hx : x ≠ a := fun e => h2 e.symm
        simp only [write, h1, h2, if_false, read, hx]
        exact ih hw.2

/-! ### The canonical form -/

theorem wfFrom_mono {m : Memory} {lo lo' : Nat} (h : m.wfFrom lo = true) (hl : lo' ≤ lo) : m.wfFrom lo' = true := by
  cases m with
  | nil => rfl
  | cons x r =>
    obtain ⟨x, c⟩ := x
    simp only [wfFrom, Bool.and_eq_true, decide_eq_true_eq] at h ⊢
    exact ⟨⟨by omega, h.1.2⟩, h.2⟩

theorem wfFrom_write {m : Memory} {lo : Nat} (hw : m.wfFrom lo = true) {a : Nat} (ha : lo ≤ a) (b : Byte) : (m.write a b).wfFrom lo = true := by
  induction m generalizing lo with
  | nil => by_cases hb : b = 0#8 <;> simp [write, wfFrom, hb, ha]
  | cons x r ih =>
    obtain ⟨x, c⟩ := x
    have hw0 := hw
    simp only [wfFrom, Bool.and_eq_true, decide_eq_true_eq] at hw
    by_cases h1 : a < x
    · by_cases hb : b = 0#8
      · simpa [write, h1, hb] using hw0
      · have e : Memory.write ((x, c) :: r) a b = (a, b) :: (x, c) :: r := by
          rw [write, if_pos h1]; exact if_neg hb
        simp only [e, wfFrom, Bool.and_eq_true, decide_eq_true_eq]
        exact ⟨⟨ha, hb⟩, ⟨by omega, hw.1.2⟩, hw.2⟩
    · by_cases h2 : a = x
      · subst h2
        by_cases hb : b = 0#8
        · simpa [write, hb] using wfFrom_mono hw.2 (by omega)
        · have e : Memory.write ((a, c) :: r) a b = (a, b) :: r := by
            rw [write, if_neg h1, if_pos rfl]; exact if_neg hb
          simp only [e, wfFrom, Bool.and_eq_true, decide_eq_true_eq]
          exact ⟨⟨ha, hb⟩, hw.2⟩
      · simp only [write, h1, h2, if_false, wfFrom, Bool.and_eq_true, decide_eq_true_eq]
        exact ⟨⟨hw.1.1, hw.1.2⟩, ih hw.2 (by omega)⟩

@[simp] theorem wf_nil : wf [] = true := rfl

theorem wf_write {m : Memory} (hw : m.wf = true) (a : Nat) (b : Byte) : (m.write a b).wf = true := wfFrom_write hw (Nat.zero_le a) b

theorem wf_writeBytes {m : Memory} (hw : m.wf = true) (a : Nat) (bs : List Byte) : (m.writeBytes a bs).wf = true := by
  induction bs generalizing m a with
  | nil => exact hw
  | cons b bs ih => exact ih (wf_write hw a b) (a + 1)

theorem wf_put {m : Memory} (hw : m.wf = true) (a n v : Nat) : (m.put a n v).wf = true := wf_writeBytes hw a _

theorem wfFrom_filter {m : Memory} {lo : Nat} (hw : m.wfFrom lo = true) (p : Host.Cell → Bool) : wfFrom lo (m.filter p) = true := by
  induction m generalizing lo with
  | nil => rfl
  | cons x r ih =>
    obtain ⟨x, c⟩ := x
    simp only [wfFrom, Bool.and_eq_true, decide_eq_true_eq] at hw
    by_cases h : p (x, c) = true
    · simp only [List.filter_cons_of_pos h, wfFrom, Bool.and_eq_true, decide_eq_true_eq]
      exact ⟨hw.1, ih hw.2⟩
    · rw [List.filter_cons_of_neg h]
      exact ih (wfFrom_mono hw.2 (by omega))

theorem wf_filter {m : Memory} (hw : m.wf = true) (p : Host.Cell → Bool) : wf (m.filter p) = true := wfFrom_filter hw p

theorem wf_clear {m : Memory} (hw : m.wf = true) (a n : Nat) : (m.clear a n).wf = true := wf_filter hw _

/-! ### Runs of bytes -/

/-- Bytes outside a written run keep their values. -/
theorem read_writeBytes_of_outside (m : Memory) (a : Nat) (bs : List Byte) {x : Nat} (h : x < a ∨ a + bs.length ≤ x) :
    (m.writeBytes a bs).read x = m.read x := by
  induction bs generalizing m a with
  | nil => rfl
  | cons b bs ih =>
    simp only [List.length_cons] at h
    rw [writeBytes, ih _ _ (by omega), read_write_ne _ _ (by omega)]

/-- Byte `i` of a written run reads back. -/
theorem read_writeBytes {m : Memory} (hw : m.wf = true) (a : Nat) (bs : List Byte) {i : Nat} (h : i < bs.length) :
    (m.writeBytes a bs).read (a + i) = bs[i] := by
  induction bs generalizing m a i with
  | nil => exact absurd h (by simp)
  | cons b bs ih =>
    cases i with
    | zero =>
      rw [writeBytes, read_writeBytes_of_outside _ _ _ (by omega)]
      exact read_write_same hw a b
    | succ i =>
      rw [writeBytes, show a + (i + 1) = a + 1 + i by omega, ih (wf_write hw a b) (a + 1) (by simpa using h)]
      rfl

/-- A written run reads back. -/
theorem bytes_writeBytes {m : Memory} (hw : m.wf = true) (a : Nat) (bs : List Byte) : (m.writeBytes a bs).bytes a bs.length = bs := by
  induction bs generalizing m a with
  | nil => rfl
  | cons b bs ih =>
    simp only [List.length_cons, bytes, writeBytes, List.cons.injEq]
    exact ⟨by rw [read_writeBytes_of_outside _ _ _ (by omega)]; exact read_write_same hw a b, ih (wf_write hw a b) (a + 1)⟩

/-- Bytes outside a zeroed run keep their values. -/
theorem read_clear_of_outside (m : Memory) (a n : Nat) {x : Nat} (h : x < a ∨ a + n ≤ x) : (m.clear a n).read x = m.read x := by
  induction m with
  | nil => rfl
  | cons y r ih =>
    obtain ⟨y, c⟩ := y
    by_cases hy : y < a ∨ a + n ≤ y
    · have : (Memory.clear ((y, c) :: r) a n) = (y, c) :: Memory.clear r a n := List.filter_cons_of_pos (by simpa using hy)
      rw [this]
      by_cases hx : y = x <;> simp [read, hx, ih]
    · have : (Memory.clear ((y, c) :: r) a n) = Memory.clear r a n := List.filter_cons_of_neg (by simpa using hy)
      have hx : y ≠ x := fun e => hy (e ▸ h)
      rw [this, ih]; simp [read, hx]

/-- Bytes of a zeroed run read 0. -/
theorem read_clear (m : Memory) (a n : Nat) {x : Nat} (h : a ≤ x ∧ x < a + n) : (m.clear a n).read x = 0 := by
  induction m with
  | nil => rfl
  | cons y r ih =>
    obtain ⟨y, c⟩ := y
    by_cases hy : y < a ∨ a + n ≤ y
    · have : (Memory.clear ((y, c) :: r) a n) = (y, c) :: Memory.clear r a n := List.filter_cons_of_pos (by simpa using hy)
      have hx : y ≠ x := by omega
      rw [this]; simp [read, hx, ih]
    · have : (Memory.clear ((y, c) :: r) a n) = Memory.clear r a n := List.filter_cons_of_neg (by simpa using hy)
      rw [this, ih]

end Memory

/-! ### Little-endian values (R12) -/

@[simp] theorem toBytes_length (n v : Nat) : (toBytes n v).length = n := by
  induction n generalizing v with
  | zero => rfl
  | succ n ih => simp [toBytes, ih]

theorem ofBytes_toBytes (n v : Nat) : ofBytes (toBytes n v) = v % 256 ^ n := by
  induction n generalizing v with
  | zero => simp [toBytes, ofBytes, Nat.mod_one]
  | succ n ih =>
    rw [toBytes, ofBytes, ih, BitVec.toNat_ofNat, show 256 ^ (n + 1) = 256 * 256 ^ n from pow_succ' 256 n, Nat.mod_mul]

/-- A stored value reads back, cut to the bytes stored. -/
theorem Memory.get_put {m : Memory} (hw : m.wf = true) (a n v : Nat) : (m.put a n v).get a n = v % 256 ^ n := by
  have h := Memory.bytes_writeBytes hw a (toBytes n v)
  rw [toBytes_length] at h
  rw [Memory.get, Memory.put, h, ofBytes_toBytes]

end Sys2Proof.Machine
end

