-- ==== Sys2Proof/Laws/State.lean ====
section
/-!
SUPPORT. Laws/State.lean: every field of the state after every named update, and every named record after an update of its
kind.
-/

namespace Sys2Proof.Machine

set_option Elab.async false

/-! ### setFib -/

@[simp] theorem State.setFib_clock (s : State) (k : FKey) (f : Fibre) : (s.setFib k f).clock = s.clock := rfl
@[simp] theorem State.setFib_devId (s : State) (k : FKey) (f : Fibre) : (s.setFib k f).devId = s.devId := rfl
@[simp] theorem State.setFib_incarnation (s : State) (k : FKey) (f : Fibre) : (s.setFib k f).incarnation = s.incarnation := rfl
@[simp] theorem State.setFib_bootstat (s : State) (k : FKey) (f : Fibre) : (s.setFib k f).bootstat = s.bootstat := rfl
@[simp] theorem State.setFib_mr (s : State) (k : FKey) (f : Fibre) : (s.setFib k f).mr = s.mr := rfl
@[simp] theorem State.setFib_mem (s : State) (k : FKey) (f : Fibre) : (s.setFib k f).mem = s.mem := rfl
@[simp] theorem State.setFib_scratch (s : State) (k : FKey) (f : Fibre) : (s.setFib k f).scratch = s.scratch := rfl
@[simp] theorem State.setFib_poisonLines (s : State) (k : FKey) (f : Fibre) : (s.setFib k f).poisonLines = s.poisonLines := rfl
@[simp] theorem State.setFib_poisonWords (s : State) (k : FKey) (f : Fibre) : (s.setFib k f).poisonWords = s.poisonWords := rfl
@[simp] theorem State.setFib_poisonScratch (s : State) (k : FKey) (f : Fibre) : (s.setFib k f).poisonScratch = s.poisonScratch := rfl
@[simp] theorem State.setFib_exps (s : State) (k : FKey) (f : Fibre) : (s.setFib k f).exps = s.exps := rfl
@[simp] theorem State.setFib_hz (s : State) (k : FKey) (f : Fibre) : (s.setFib k f).hz = s.hz := rfl
@[simp] theorem State.setFib_remoteExps (s : State) (k : FKey) (f : Fibre) : (s.setFib k f).remoteExps = s.remoteExps := rfl
@[simp] theorem State.setFib_holds (s : State) (k : FKey) (f : Fibre) : (s.setFib k f).holds = s.holds := rfl
@[simp] theorem State.setFib_reqs (s : State) (k : FKey) (f : Fibre) : (s.setFib k f).reqs = s.reqs := rfl
@[simp] theorem State.setFib_lineBuf (s : State) (k : FKey) (f : Fibre) : (s.setFib k f).lineBuf = s.lineBuf := rfl
@[simp] theorem State.setFib_evicted (s : State) (k : FKey) (f : Fibre) : (s.setFib k f).evicted = s.evicted := rfl
@[simp] theorem State.setFib_nextReq (s : State) (k : FKey) (f : Fibre) : (s.setFib k f).nextReq = s.nextReq := rfl
@[simp] theorem State.setFib_tlb1 (s : State) (k : FKey) (f : Fibre) : (s.setFib k f).tlb1 = s.tlb1 := rfl
@[simp] theorem State.setFib_tlb2 (s : State) (k : FKey) (f : Fibre) : (s.setFib k f).tlb2 = s.tlb2 := rfl
@[simp] theorem State.setFib_missQ (s : State) (k : FKey) (f : Fibre) : (s.setFib k f).missQ = s.missQ := rfl
@[simp] theorem State.setFib_l1 (s : State) (k : FKey) (f : Fibre) : (s.setFib k f).l1 = s.l1 := rfl
@[simp] theorem State.setFib_predictor (s : State) (k : FKey) (f : Fibre) : (s.setFib k f).predictor = s.predictor := rfl
@[simp] theorem State.setFib_lastLease (s : State) (k : FKey) (f : Fibre) : (s.setFib k f).lastLease = s.lastLease := rfl
@[simp] theorem State.setFib_seen (s : State) (k : FKey) (f : Fibre) : (s.setFib k f).seen = s.seen := rfl
@[simp] theorem State.setFib_slices (s : State) (k : FKey) (f : Fibre) : (s.setFib k f).slices = s.slices := rfl
@[simp] theorem State.setFib_fotBase (s : State) (k : FKey) (f : Fibre) : (s.setFib k f).fotBase = s.fotBase := rfl
@[simp] theorem State.setFib_zeroing (s : State) (k : FKey) (f : Fibre) : (s.setFib k f).zeroing = s.zeroing := rfl
@[simp] theorem State.setFib_partitions (s : State) (k : FKey) (f : Fibre) : (s.setFib k f).partitions = s.partitions := rfl
@[simp] theorem State.setFib_queues (s : State) (k : FKey) (f : Fibre) : (s.setFib k f).queues = s.queues := rfl
@[simp] theorem State.setFib_launches (s : State) (k : FKey) (f : Fibre) : (s.setFib k f).launches = s.launches := rfl
@[simp] theorem State.setFib_nextLid (s : State) (k : FKey) (f : Fibre) : (s.setFib k f).nextLid = s.nextLid := rfl
@[simp] theorem State.setFib_doorbells (s : State) (k : FKey) (f : Fibre) : (s.setFib k f).doorbells = s.doorbells := rfl
@[simp] theorem State.setFib_blocks (s : State) (k : FKey) (f : Fibre) : (s.setFib k f).blocks = s.blocks := rfl
@[simp] theorem State.setFib_nextBlock (s : State) (k : FKey) (f : Fibre) : (s.setFib k f).nextBlock = s.nextBlock := rfl
@[simp] theorem State.setFib_gangs (s : State) (k : FKey) (f : Fibre) : (s.setFib k f).gangs = s.gangs := rfl
@[simp] theorem State.setFib_ctlSr (s : State) (k : FKey) (f : Fibre) : (s.setFib k f).ctlSr = s.ctlSr := rfl
@[simp] theorem State.setFib_pipes (s : State) (k : FKey) (f : Fibre) : (s.setFib k f).pipes = s.pipes := rfl
@[simp] theorem State.setFib_cores (s : State) (k : FKey) (f : Fibre) : (s.setFib k f).cores = s.cores := rfl
@[simp] theorem State.setFib_carriages (s : State) (k : FKey) (f : Fibre) : (s.setFib k f).carriages = s.carriages := rfl
@[simp] theorem State.setFib_dies (s : State) (k : FKey) (f : Fibre) : (s.setFib k f).dies = s.dies := rfl
@[simp] theorem State.setFib_shadowUsed (s : State) (k : FKey) (f : Fibre) : (s.setFib k f).shadowUsed = s.shadowUsed := rfl
@[simp] theorem State.setFib_stackTab (s : State) (k : FKey) (f : Fibre) : (s.setFib k f).stackTab = s.stackTab := rfl
@[simp] theorem State.setFib_banks (s : State) (k : FKey) (f : Fibre) : (s.setFib k f).banks = s.banks := rfl
@[simp] theorem State.setFib_bankDone (s : State) (k : FKey) (f : Fibre) : (s.setFib k f).bankDone = s.bankDone := rfl
@[simp] theorem State.setFib_importTab (s : State) (k : FKey) (f : Fibre) : (s.setFib k f).importTab = s.importTab := rfl
@[simp] theorem State.setFib_routeTab (s : State) (k : FKey) (f : Fibre) : (s.setFib k f).routeTab = s.routeTab := rfl
@[simp] theorem State.setFib_mcast (s : State) (k : FKey) (f : Fibre) : (s.setFib k f).mcast = s.mcast := rfl
@[simp] theorem State.setFib_peers (s : State) (k : FKey) (f : Fibre) : (s.setFib k f).peers = s.peers := rfl
@[simp] theorem State.setFib_flows (s : State) (k : FKey) (f : Fibre) : (s.setFib k f).flows = s.flows := rfl
@[simp] theorem State.setFib_expected (s : State) (k : FKey) (f : Fibre) : (s.setFib k f).expected = s.expected := rfl
@[simp] theorem State.setFib_homeLeases (s : State) (k : FKey) (f : Fibre) : (s.setFib k f).homeLeases = s.homeLeases := rfl
@[simp] theorem State.setFib_heldLeases (s : State) (k : FKey) (f : Fibre) : (s.setFib k f).heldLeases = s.heldLeases := rfl
@[simp] theorem State.setFib_transit (s : State) (k : FKey) (f : Fibre) : (s.setFib k f).transit = s.transit := rfl
@[simp] theorem State.setFib_failedPorts (s : State) (k : FKey) (f : Fibre) : (s.setFib k f).failedPorts = s.failedPorts := rfl
@[simp] theorem State.setFib_links (s : State) (k : FKey) (f : Fibre) : (s.setFib k f).links = s.links := rfl
@[simp] theorem State.setFib_outbox (s : State) (k : FKey) (f : Fibre) : (s.setFib k f).outbox = s.outbox := rfl
@[simp] theorem State.setFib_backlog (s : State) (k : FKey) (f : Fibre) : (s.setFib k f).backlog = s.backlog := rfl
@[simp] theorem State.setFib_mailboxes (s : State) (k : FKey) (f : Fibre) : (s.setFib k f).mailboxes = s.mailboxes := rfl
@[simp] theorem State.setFib_eth (s : State) (k : FKey) (f : Fibre) : (s.setFib k f).eth = s.eth := rfl
@[simp] theorem State.setFib_ethPorts (s : State) (k : FKey) (f : Fibre) : (s.setFib k f).ethPorts = s.ethPorts := rfl
@[simp] theorem State.setFib_faultReports (s : State) (k : FKey) (f : Fibre) : (s.setFib k f).faultReports = s.faultReports := rfl
@[simp] theorem State.setFib_errs (s : State) (k : FKey) (f : Fibre) : (s.setFib k f).errs = s.errs := rfl
@[simp] theorem State.setFib_hostData (s : State) (k : FKey) (f : Fibre) : (s.setFib k f).hostData = s.hostData := rfl
@[simp] theorem State.setFib_hostPoison (s : State) (k : FKey) (f : Fibre) : (s.setFib k f).hostPoison = s.hostPoison := rfl
@[simp] theorem State.setFib_veil (s : State) (k : FKey) (f : Fibre) : (s.setFib k f).veil = s.veil := rfl
@[simp] theorem State.setFib_agenda (s : State) (k : FKey) (f : Fibre) : (s.setFib k f).agenda = s.agenda := rfl
@[simp] theorem State.setFib_agent (s : State) (k : FKey) (f : Fibre) : (s.setFib k f).agent = s.agent := rfl
@[simp] theorem State.setFib_args (s : State) (k : FKey) (f : Fibre) : (s.setFib k f).args = s.args := rfl

/-! ### updFib -/

@[simp] theorem State.updFib_clock (s : State) (k : FKey) (g : Fibre → Fibre) : (s.updFib k g).clock = s.clock := rfl
@[simp] theorem State.updFib_devId (s : State) (k : FKey) (g : Fibre → Fibre) : (s.updFib k g).devId = s.devId := rfl
@[simp] theorem State.updFib_incarnation (s : State) (k : FKey) (g : Fibre → Fibre) : (s.updFib k g).incarnation = s.incarnation := rfl
@[simp] theorem State.updFib_bootstat (s : State) (k : FKey) (g : Fibre → Fibre) : (s.updFib k g).bootstat = s.bootstat := rfl
@[simp] theorem State.updFib_mr (s : State) (k : FKey) (g : Fibre → Fibre) : (s.updFib k g).mr = s.mr := rfl
@[simp] theorem State.updFib_mem (s : State) (k : FKey) (g : Fibre → Fibre) : (s.updFib k g).mem = s.mem := rfl
@[simp] theorem State.updFib_scratch (s : State) (k : FKey) (g : Fibre → Fibre) : (s.updFib k g).scratch = s.scratch := rfl
@[simp] theorem State.updFib_poisonLines (s : State) (k : FKey) (g : Fibre → Fibre) : (s.updFib k g).poisonLines = s.poisonLines := rfl
@[simp] theorem State.updFib_poisonWords (s : State) (k : FKey) (g : Fibre → Fibre) : (s.updFib k g).poisonWords = s.poisonWords := rfl
@[simp] theorem State.updFib_poisonScratch (s : State) (k : FKey) (g : Fibre → Fibre) : (s.updFib k g).poisonScratch = s.poisonScratch := rfl
@[simp] theorem State.updFib_exps (s : State) (k : FKey) (g : Fibre → Fibre) : (s.updFib k g).exps = s.exps := rfl
@[simp] theorem State.updFib_hz (s : State) (k : FKey) (g : Fibre → Fibre) : (s.updFib k g).hz = s.hz := rfl
@[simp] theorem State.updFib_remoteExps (s : State) (k : FKey) (g : Fibre → Fibre) : (s.updFib k g).remoteExps = s.remoteExps := rfl
@[simp] theorem State.updFib_holds (s : State) (k : FKey) (g : Fibre → Fibre) : (s.updFib k g).holds = s.holds := rfl
@[simp] theorem State.updFib_reqs (s : State) (k : FKey) (g : Fibre → Fibre) : (s.updFib k g).reqs = s.reqs := rfl
@[simp] theorem State.updFib_lineBuf (s : State) (k : FKey) (g : Fibre → Fibre) : (s.updFib k g).lineBuf = s.lineBuf := rfl
@[simp] theorem State.updFib_evicted (s : State) (k : FKey) (g : Fibre → Fibre) : (s.updFib k g).evicted = s.evicted := rfl
@[simp] theorem State.updFib_nextReq (s : State) (k : FKey) (g : Fibre → Fibre) : (s.updFib k g).nextReq = s.nextReq := rfl
@[simp] theorem State.updFib_tlb1 (s : State) (k : FKey) (g : Fibre → Fibre) : (s.updFib k g).tlb1 = s.tlb1 := rfl
@[simp] theorem State.updFib_tlb2 (s : State) (k : FKey) (g : Fibre → Fibre) : (s.updFib k g).tlb2 = s.tlb2 := rfl
@[simp] theorem State.updFib_missQ (s : State) (k : FKey) (g : Fibre → Fibre) : (s.updFib k g).missQ = s.missQ := rfl
@[simp] theorem State.updFib_l1 (s : State) (k : FKey) (g : Fibre → Fibre) : (s.updFib k g).l1 = s.l1 := rfl
@[simp] theorem State.updFib_predictor (s : State) (k : FKey) (g : Fibre → Fibre) : (s.updFib k g).predictor = s.predictor := rfl
@[simp] theorem State.updFib_lastLease (s : State) (k : FKey) (g : Fibre → Fibre) : (s.updFib k g).lastLease = s.lastLease := rfl
@[simp] theorem State.updFib_seen (s : State) (k : FKey) (g : Fibre → Fibre) : (s.updFib k g).seen = s.seen := rfl
@[simp] theorem State.updFib_slices (s : State) (k : FKey) (g : Fibre → Fibre) : (s.updFib k g).slices = s.slices := rfl
@[simp] theorem State.updFib_fotBase (s : State) (k : FKey) (g : Fibre → Fibre) : (s.updFib k g).fotBase = s.fotBase := rfl
@[simp] theorem State.updFib_zeroing (s : State) (k : FKey) (g : Fibre → Fibre) : (s.updFib k g).zeroing = s.zeroing := rfl
@[simp] theorem State.updFib_partitions (s : State) (k : FKey) (g : Fibre → Fibre) : (s.updFib k g).partitions = s.partitions := rfl
@[simp] theorem State.updFib_queues (s : State) (k : FKey) (g : Fibre → Fibre) : (s.updFib k g).queues = s.queues := rfl
@[simp] theorem State.updFib_launches (s : State) (k : FKey) (g : Fibre → Fibre) : (s.updFib k g).launches = s.launches := rfl
@[simp] theorem State.updFib_nextLid (s : State) (k : FKey) (g : Fibre → Fibre) : (s.updFib k g).nextLid = s.nextLid := rfl
@[simp] theorem State.updFib_doorbells (s : State) (k : FKey) (g : Fibre → Fibre) : (s.updFib k g).doorbells = s.doorbells := rfl
@[simp] theorem State.updFib_blocks (s : State) (k : FKey) (g : Fibre → Fibre) : (s.updFib k g).blocks = s.blocks := rfl
@[simp] theorem State.updFib_nextBlock (s : State) (k : FKey) (g : Fibre → Fibre) : (s.updFib k g).nextBlock = s.nextBlock := rfl
@[simp] theorem State.updFib_gangs (s : State) (k : FKey) (g : Fibre → Fibre) : (s.updFib k g).gangs = s.gangs := rfl
@[simp] theorem State.updFib_ctlSr (s : State) (k : FKey) (g : Fibre → Fibre) : (s.updFib k g).ctlSr = s.ctlSr := rfl
@[simp] theorem State.updFib_pipes (s : State) (k : FKey) (g : Fibre → Fibre) : (s.updFib k g).pipes = s.pipes := rfl
@[simp] theorem State.updFib_cores (s : State) (k : FKey) (g : Fibre → Fibre) : (s.updFib k g).cores = s.cores := rfl
@[simp] theorem State.updFib_carriages (s : State) (k : FKey) (g : Fibre → Fibre) : (s.updFib k g).carriages = s.carriages := rfl
@[simp] theorem State.updFib_dies (s : State) (k : FKey) (g : Fibre → Fibre) : (s.updFib k g).dies = s.dies := rfl
@[simp] theorem State.updFib_shadowUsed (s : State) (k : FKey) (g : Fibre → Fibre) : (s.updFib k g).shadowUsed = s.shadowUsed := rfl
@[simp] theorem State.updFib_stackTab (s : State) (k : FKey) (g : Fibre → Fibre) : (s.updFib k g).stackTab = s.stackTab := rfl
@[simp] theorem State.updFib_banks (s : State) (k : FKey) (g : Fibre → Fibre) : (s.updFib k g).banks = s.banks := rfl
@[simp] theorem State.updFib_bankDone (s : State) (k : FKey) (g : Fibre → Fibre) : (s.updFib k g).bankDone = s.bankDone := rfl
@[simp] theorem State.updFib_importTab (s : State) (k : FKey) (g : Fibre → Fibre) : (s.updFib k g).importTab = s.importTab := rfl
@[simp] theorem State.updFib_routeTab (s : State) (k : FKey) (g : Fibre → Fibre) : (s.updFib k g).routeTab = s.routeTab := rfl
@[simp] theorem State.updFib_mcast (s : State) (k : FKey) (g : Fibre → Fibre) : (s.updFib k g).mcast = s.mcast := rfl
@[simp] theorem State.updFib_peers (s : State) (k : FKey) (g : Fibre → Fibre) : (s.updFib k g).peers = s.peers := rfl
@[simp] theorem State.updFib_flows (s : State) (k : FKey) (g : Fibre → Fibre) : (s.updFib k g).flows = s.flows := rfl
@[simp] theorem State.updFib_expected (s : State) (k : FKey) (g : Fibre → Fibre) : (s.updFib k g).expected = s.expected := rfl
@[simp] theorem State.updFib_homeLeases (s : State) (k : FKey) (g : Fibre → Fibre) : (s.updFib k g).homeLeases = s.homeLeases := rfl
@[simp] theorem State.updFib_heldLeases (s : State) (k : FKey) (g : Fibre → Fibre) : (s.updFib k g).heldLeases = s.heldLeases := rfl
@[simp] theorem State.updFib_transit (s : State) (k : FKey) (g : Fibre → Fibre) : (s.updFib k g).transit = s.transit := rfl
@[simp] theorem State.updFib_failedPorts (s : State) (k : FKey) (g : Fibre → Fibre) : (s.updFib k g).failedPorts = s.failedPorts := rfl
@[simp] theorem State.updFib_links (s : State) (k : FKey) (g : Fibre → Fibre) : (s.updFib k g).links = s.links := rfl
@[simp] theorem State.updFib_outbox (s : State) (k : FKey) (g : Fibre → Fibre) : (s.updFib k g).outbox = s.outbox := rfl
@[simp] theorem State.updFib_backlog (s : State) (k : FKey) (g : Fibre → Fibre) : (s.updFib k g).backlog = s.backlog := rfl
@[simp] theorem State.updFib_mailboxes (s : State) (k : FKey) (g : Fibre → Fibre) : (s.updFib k g).mailboxes = s.mailboxes := rfl
@[simp] theorem State.updFib_eth (s : State) (k : FKey) (g : Fibre → Fibre) : (s.updFib k g).eth = s.eth := rfl
@[simp] theorem State.updFib_ethPorts (s : State) (k : FKey) (g : Fibre → Fibre) : (s.updFib k g).ethPorts = s.ethPorts := rfl
@[simp] theorem State.updFib_faultReports (s : State) (k : FKey) (g : Fibre → Fibre) : (s.updFib k g).faultReports = s.faultReports := rfl
@[simp] theorem State.updFib_errs (s : State) (k : FKey) (g : Fibre → Fibre) : (s.updFib k g).errs = s.errs := rfl
@[simp] theorem State.updFib_hostData (s : State) (k : FKey) (g : Fibre → Fibre) : (s.updFib k g).hostData = s.hostData := rfl
@[simp] theorem State.updFib_hostPoison (s : State) (k : FKey) (g : Fibre → Fibre) : (s.updFib k g).hostPoison = s.hostPoison := rfl
@[simp] theorem State.updFib_veil (s : State) (k : FKey) (g : Fibre → Fibre) : (s.updFib k g).veil = s.veil := rfl
@[simp] theorem State.updFib_agenda (s : State) (k : FKey) (g : Fibre → Fibre) : (s.updFib k g).agenda = s.agenda := rfl
@[simp] theorem State.updFib_agent (s : State) (k : FKey) (g : Fibre → Fibre) : (s.updFib k g).agent = s.agent := rfl
@[simp] theorem State.updFib_args (s : State) (k : FKey) (g : Fibre → Fibre) : (s.updFib k g).args = s.args := rfl

/-! ### updBlock -/

@[simp] theorem State.updBlock_clock (s : State) (b : Nat) (g : Block → Block) : (s.updBlock b g).clock = s.clock := rfl
@[simp] theorem State.updBlock_devId (s : State) (b : Nat) (g : Block → Block) : (s.updBlock b g).devId = s.devId := rfl
@[simp] theorem State.updBlock_incarnation (s : State) (b : Nat) (g : Block → Block) : (s.updBlock b g).incarnation = s.incarnation := rfl
@[simp] theorem State.updBlock_bootstat (s : State) (b : Nat) (g : Block → Block) : (s.updBlock b g).bootstat = s.bootstat := rfl
@[simp] theorem State.updBlock_mr (s : State) (b : Nat) (g : Block → Block) : (s.updBlock b g).mr = s.mr := rfl
@[simp] theorem State.updBlock_mem (s : State) (b : Nat) (g : Block → Block) : (s.updBlock b g).mem = s.mem := rfl
@[simp] theorem State.updBlock_scratch (s : State) (b : Nat) (g : Block → Block) : (s.updBlock b g).scratch = s.scratch := rfl
@[simp] theorem State.updBlock_poisonLines (s : State) (b : Nat) (g : Block → Block) : (s.updBlock b g).poisonLines = s.poisonLines := rfl
@[simp] theorem State.updBlock_poisonWords (s : State) (b : Nat) (g : Block → Block) : (s.updBlock b g).poisonWords = s.poisonWords := rfl
@[simp] theorem State.updBlock_poisonScratch (s : State) (b : Nat) (g : Block → Block) : (s.updBlock b g).poisonScratch = s.poisonScratch := rfl
@[simp] theorem State.updBlock_exps (s : State) (b : Nat) (g : Block → Block) : (s.updBlock b g).exps = s.exps := rfl
@[simp] theorem State.updBlock_hz (s : State) (b : Nat) (g : Block → Block) : (s.updBlock b g).hz = s.hz := rfl
@[simp] theorem State.updBlock_remoteExps (s : State) (b : Nat) (g : Block → Block) : (s.updBlock b g).remoteExps = s.remoteExps := rfl
@[simp] theorem State.updBlock_holds (s : State) (b : Nat) (g : Block → Block) : (s.updBlock b g).holds = s.holds := rfl
@[simp] theorem State.updBlock_reqs (s : State) (b : Nat) (g : Block → Block) : (s.updBlock b g).reqs = s.reqs := rfl
@[simp] theorem State.updBlock_lineBuf (s : State) (b : Nat) (g : Block → Block) : (s.updBlock b g).lineBuf = s.lineBuf := rfl
@[simp] theorem State.updBlock_evicted (s : State) (b : Nat) (g : Block → Block) : (s.updBlock b g).evicted = s.evicted := rfl
@[simp] theorem State.updBlock_nextReq (s : State) (b : Nat) (g : Block → Block) : (s.updBlock b g).nextReq = s.nextReq := rfl
@[simp] theorem State.updBlock_tlb1 (s : State) (b : Nat) (g : Block → Block) : (s.updBlock b g).tlb1 = s.tlb1 := rfl
@[simp] theorem State.updBlock_tlb2 (s : State) (b : Nat) (g : Block → Block) : (s.updBlock b g).tlb2 = s.tlb2 := rfl
@[simp] theorem State.updBlock_missQ (s : State) (b : Nat) (g : Block → Block) : (s.updBlock b g).missQ = s.missQ := rfl
@[simp] theorem State.updBlock_l1 (s : State) (b : Nat) (g : Block → Block) : (s.updBlock b g).l1 = s.l1 := rfl
@[simp] theorem State.updBlock_predictor (s : State) (b : Nat) (g : Block → Block) : (s.updBlock b g).predictor = s.predictor := rfl
@[simp] theorem State.updBlock_lastLease (s : State) (b : Nat) (g : Block → Block) : (s.updBlock b g).lastLease = s.lastLease := rfl
@[simp] theorem State.updBlock_seen (s : State) (b : Nat) (g : Block → Block) : (s.updBlock b g).seen = s.seen := rfl
@[simp] theorem State.updBlock_slices (s : State) (b : Nat) (g : Block → Block) : (s.updBlock b g).slices = s.slices := rfl
@[simp] theorem State.updBlock_fotBase (s : State) (b : Nat) (g : Block → Block) : (s.updBlock b g).fotBase = s.fotBase := rfl
@[simp] theorem State.updBlock_zeroing (s : State) (b : Nat) (g : Block → Block) : (s.updBlock b g).zeroing = s.zeroing := rfl
@[simp] theorem State.updBlock_partitions (s : State) (b : Nat) (g : Block → Block) : (s.updBlock b g).partitions = s.partitions := rfl
@[simp] theorem State.updBlock_queues (s : State) (b : Nat) (g : Block → Block) : (s.updBlock b g).queues = s.queues := rfl
@[simp] theorem State.updBlock_launches (s : State) (b : Nat) (g : Block → Block) : (s.updBlock b g).launches = s.launches := rfl
@[simp] theorem State.updBlock_nextLid (s : State) (b : Nat) (g : Block → Block) : (s.updBlock b g).nextLid = s.nextLid := rfl
@[simp] theorem State.updBlock_doorbells (s : State) (b : Nat) (g : Block → Block) : (s.updBlock b g).doorbells = s.doorbells := rfl
@[simp] theorem State.updBlock_nextBlock (s : State) (b : Nat) (g : Block → Block) : (s.updBlock b g).nextBlock = s.nextBlock := rfl
@[simp] theorem State.updBlock_gangs (s : State) (b : Nat) (g : Block → Block) : (s.updBlock b g).gangs = s.gangs := rfl
@[simp] theorem State.updBlock_ctlSr (s : State) (b : Nat) (g : Block → Block) : (s.updBlock b g).ctlSr = s.ctlSr := rfl
@[simp] theorem State.updBlock_fibres (s : State) (b : Nat) (g : Block → Block) : (s.updBlock b g).fibres = s.fibres := rfl
@[simp] theorem State.updBlock_pipes (s : State) (b : Nat) (g : Block → Block) : (s.updBlock b g).pipes = s.pipes := rfl
@[simp] theorem State.updBlock_cores (s : State) (b : Nat) (g : Block → Block) : (s.updBlock b g).cores = s.cores := rfl
@[simp] theorem State.updBlock_carriages (s : State) (b : Nat) (g : Block → Block) : (s.updBlock b g).carriages = s.carriages := rfl
@[simp] theorem State.updBlock_dies (s : State) (b : Nat) (g : Block → Block) : (s.updBlock b g).dies = s.dies := rfl
@[simp] theorem State.updBlock_shadowUsed (s : State) (b : Nat) (g : Block → Block) : (s.updBlock b g).shadowUsed = s.shadowUsed := rfl
@[simp] theorem State.updBlock_stackTab (s : State) (b : Nat) (g : Block → Block) : (s.updBlock b g).stackTab = s.stackTab := rfl
@[simp] theorem State.updBlock_banks (s : State) (b : Nat) (g : Block → Block) : (s.updBlock b g).banks = s.banks := rfl
@[simp] theorem State.updBlock_bankDone (s : State) (b : Nat) (g : Block → Block) : (s.updBlock b g).bankDone = s.bankDone := rfl
@[simp] theorem State.updBlock_importTab (s : State) (b : Nat) (g : Block → Block) : (s.updBlock b g).importTab = s.importTab := rfl
@[simp] theorem State.updBlock_routeTab (s : State) (b : Nat) (g : Block → Block) : (s.updBlock b g).routeTab = s.routeTab := rfl
@[simp] theorem State.updBlock_mcast (s : State) (b : Nat) (g : Block → Block) : (s.updBlock b g).mcast = s.mcast := rfl
@[simp] theorem State.updBlock_peers (s : State) (b : Nat) (g : Block → Block) : (s.updBlock b g).peers = s.peers := rfl
@[simp] theorem State.updBlock_flows (s : State) (b : Nat) (g : Block → Block) : (s.updBlock b g).flows = s.flows := rfl
@[simp] theorem State.updBlock_expected (s : State) (b : Nat) (g : Block → Block) : (s.updBlock b g).expected = s.expected := rfl
@[simp] theorem State.updBlock_homeLeases (s : State) (b : Nat) (g : Block → Block) : (s.updBlock b g).homeLeases = s.homeLeases := rfl
@[simp] theorem State.updBlock_heldLeases (s : State) (b : Nat) (g : Block → Block) : (s.updBlock b g).heldLeases = s.heldLeases := rfl
@[simp] theorem State.updBlock_transit (s : State) (b : Nat) (g : Block → Block) : (s.updBlock b g).transit = s.transit := rfl
@[simp] theorem State.updBlock_failedPorts (s : State) (b : Nat) (g : Block → Block) : (s.updBlock b g).failedPorts = s.failedPorts := rfl
@[simp] theorem State.updBlock_links (s : State) (b : Nat) (g : Block → Block) : (s.updBlock b g).links = s.links := rfl
@[simp] theorem State.updBlock_outbox (s : State) (b : Nat) (g : Block → Block) : (s.updBlock b g).outbox = s.outbox := rfl
@[simp] theorem State.updBlock_backlog (s : State) (b : Nat) (g : Block → Block) : (s.updBlock b g).backlog = s.backlog := rfl
@[simp] theorem State.updBlock_mailboxes (s : State) (b : Nat) (g : Block → Block) : (s.updBlock b g).mailboxes = s.mailboxes := rfl
@[simp] theorem State.updBlock_eth (s : State) (b : Nat) (g : Block → Block) : (s.updBlock b g).eth = s.eth := rfl
@[simp] theorem State.updBlock_ethPorts (s : State) (b : Nat) (g : Block → Block) : (s.updBlock b g).ethPorts = s.ethPorts := rfl
@[simp] theorem State.updBlock_faultReports (s : State) (b : Nat) (g : Block → Block) : (s.updBlock b g).faultReports = s.faultReports := rfl
@[simp] theorem State.updBlock_errs (s : State) (b : Nat) (g : Block → Block) : (s.updBlock b g).errs = s.errs := rfl
@[simp] theorem State.updBlock_hostData (s : State) (b : Nat) (g : Block → Block) : (s.updBlock b g).hostData = s.hostData := rfl
@[simp] theorem State.updBlock_hostPoison (s : State) (b : Nat) (g : Block → Block) : (s.updBlock b g).hostPoison = s.hostPoison := rfl
@[simp] theorem State.updBlock_veil (s : State) (b : Nat) (g : Block → Block) : (s.updBlock b g).veil = s.veil := rfl
@[simp] theorem State.updBlock_agenda (s : State) (b : Nat) (g : Block → Block) : (s.updBlock b g).agenda = s.agenda := rfl
@[simp] theorem State.updBlock_agent (s : State) (b : Nat) (g : Block → Block) : (s.updBlock b g).agent = s.agent := rfl
@[simp] theorem State.updBlock_args (s : State) (b : Nat) (g : Block → Block) : (s.updBlock b g).args = s.args := rfl

/-! ### updGang -/

@[simp] theorem State.updGang_clock (s : State) (g : Nat × Nat) (f : Gang → Gang) : (s.updGang g f).clock = s.clock := rfl
@[simp] theorem State.updGang_devId (s : State) (g : Nat × Nat) (f : Gang → Gang) : (s.updGang g f).devId = s.devId := rfl
@[simp] theorem State.updGang_incarnation (s : State) (g : Nat × Nat) (f : Gang → Gang) : (s.updGang g f).incarnation = s.incarnation := rfl
@[simp] theorem State.updGang_bootstat (s : State) (g : Nat × Nat) (f : Gang → Gang) : (s.updGang g f).bootstat = s.bootstat := rfl
@[simp] theorem State.updGang_mr (s : State) (g : Nat × Nat) (f : Gang → Gang) : (s.updGang g f).mr = s.mr := rfl
@[simp] theorem State.updGang_mem (s : State) (g : Nat × Nat) (f : Gang → Gang) : (s.updGang g f).mem = s.mem := rfl
@[simp] theorem State.updGang_scratch (s : State) (g : Nat × Nat) (f : Gang → Gang) : (s.updGang g f).scratch = s.scratch := rfl
@[simp] theorem State.updGang_poisonLines (s : State) (g : Nat × Nat) (f : Gang → Gang) : (s.updGang g f).poisonLines = s.poisonLines := rfl
@[simp] theorem State.updGang_poisonWords (s : State) (g : Nat × Nat) (f : Gang → Gang) : (s.updGang g f).poisonWords = s.poisonWords := rfl
@[simp] theorem State.updGang_poisonScratch (s : State) (g : Nat × Nat) (f : Gang → Gang) : (s.updGang g f).poisonScratch = s.poisonScratch := rfl
@[simp] theorem State.updGang_exps (s : State) (g : Nat × Nat) (f : Gang → Gang) : (s.updGang g f).exps = s.exps := rfl
@[simp] theorem State.updGang_hz (s : State) (g : Nat × Nat) (f : Gang → Gang) : (s.updGang g f).hz = s.hz := rfl
@[simp] theorem State.updGang_remoteExps (s : State) (g : Nat × Nat) (f : Gang → Gang) : (s.updGang g f).remoteExps = s.remoteExps := rfl
@[simp] theorem State.updGang_holds (s : State) (g : Nat × Nat) (f : Gang → Gang) : (s.updGang g f).holds = s.holds := rfl
@[simp] theorem State.updGang_reqs (s : State) (g : Nat × Nat) (f : Gang → Gang) : (s.updGang g f).reqs = s.reqs := rfl
@[simp] theorem State.updGang_lineBuf (s : State) (g : Nat × Nat) (f : Gang → Gang) : (s.updGang g f).lineBuf = s.lineBuf := rfl
@[simp] theorem State.updGang_evicted (s : State) (g : Nat × Nat) (f : Gang → Gang) : (s.updGang g f).evicted = s.evicted := rfl
@[simp] theorem State.updGang_nextReq (s : State) (g : Nat × Nat) (f : Gang → Gang) : (s.updGang g f).nextReq = s.nextReq := rfl
@[simp] theorem State.updGang_tlb1 (s : State) (g : Nat × Nat) (f : Gang → Gang) : (s.updGang g f).tlb1 = s.tlb1 := rfl
@[simp] theorem State.updGang_tlb2 (s : State) (g : Nat × Nat) (f : Gang → Gang) : (s.updGang g f).tlb2 = s.tlb2 := rfl
@[simp] theorem State.updGang_missQ (s : State) (g : Nat × Nat) (f : Gang → Gang) : (s.updGang g f).missQ = s.missQ := rfl
@[simp] theorem State.updGang_l1 (s : State) (g : Nat × Nat) (f : Gang → Gang) : (s.updGang g f).l1 = s.l1 := rfl
@[simp] theorem State.updGang_predictor (s : State) (g : Nat × Nat) (f : Gang → Gang) : (s.updGang g f).predictor = s.predictor := rfl
@[simp] theorem State.updGang_lastLease (s : State) (g : Nat × Nat) (f : Gang → Gang) : (s.updGang g f).lastLease = s.lastLease := rfl
@[simp] theorem State.updGang_seen (s : State) (g : Nat × Nat) (f : Gang → Gang) : (s.updGang g f).seen = s.seen := rfl
@[simp] theorem State.updGang_slices (s : State) (g : Nat × Nat) (f : Gang → Gang) : (s.updGang g f).slices = s.slices := rfl
@[simp] theorem State.updGang_fotBase (s : State) (g : Nat × Nat) (f : Gang → Gang) : (s.updGang g f).fotBase = s.fotBase := rfl
@[simp] theorem State.updGang_zeroing (s : State) (g : Nat × Nat) (f : Gang → Gang) : (s.updGang g f).zeroing = s.zeroing := rfl
@[simp] theorem State.updGang_partitions (s : State) (g : Nat × Nat) (f : Gang → Gang) : (s.updGang g f).partitions = s.partitions := rfl
@[simp] theorem State.updGang_queues (s : State) (g : Nat × Nat) (f : Gang → Gang) : (s.updGang g f).queues = s.queues := rfl
@[simp] theorem State.updGang_launches (s : State) (g : Nat × Nat) (f : Gang → Gang) : (s.updGang g f).launches = s.launches := rfl
@[simp] theorem State.updGang_nextLid (s : State) (g : Nat × Nat) (f : Gang → Gang) : (s.updGang g f).nextLid = s.nextLid := rfl
@[simp] theorem State.updGang_doorbells (s : State) (g : Nat × Nat) (f : Gang → Gang) : (s.updGang g f).doorbells = s.doorbells := rfl
@[simp] theorem State.updGang_blocks (s : State) (g : Nat × Nat) (f : Gang → Gang) : (s.updGang g f).blocks = s.blocks := rfl
@[simp] theorem State.updGang_nextBlock (s : State) (g : Nat × Nat) (f : Gang → Gang) : (s.updGang g f).nextBlock = s.nextBlock := rfl
@[simp] theorem State.updGang_ctlSr (s : State) (g : Nat × Nat) (f : Gang → Gang) : (s.updGang g f).ctlSr = s.ctlSr := rfl
@[simp] theorem State.updGang_fibres (s : State) (g : Nat × Nat) (f : Gang → Gang) : (s.updGang g f).fibres = s.fibres := rfl
@[simp] theorem State.updGang_pipes (s : State) (g : Nat × Nat) (f : Gang → Gang) : (s.updGang g f).pipes = s.pipes := rfl
@[simp] theorem State.updGang_cores (s : State) (g : Nat × Nat) (f : Gang → Gang) : (s.updGang g f).cores = s.cores := rfl
@[simp] theorem State.updGang_carriages (s : State) (g : Nat × Nat) (f : Gang → Gang) : (s.updGang g f).carriages = s.carriages := rfl
@[simp] theorem State.updGang_dies (s : State) (g : Nat × Nat) (f : Gang → Gang) : (s.updGang g f).dies = s.dies := rfl
@[simp] theorem State.updGang_shadowUsed (s : State) (g : Nat × Nat) (f : Gang → Gang) : (s.updGang g f).shadowUsed = s.shadowUsed := rfl
@[simp] theorem State.updGang_stackTab (s : State) (g : Nat × Nat) (f : Gang → Gang) : (s.updGang g f).stackTab = s.stackTab := rfl
@[simp] theorem State.updGang_banks (s : State) (g : Nat × Nat) (f : Gang → Gang) : (s.updGang g f).banks = s.banks := rfl
@[simp] theorem State.updGang_bankDone (s : State) (g : Nat × Nat) (f : Gang → Gang) : (s.updGang g f).bankDone = s.bankDone := rfl
@[simp] theorem State.updGang_importTab (s : State) (g : Nat × Nat) (f : Gang → Gang) : (s.updGang g f).importTab = s.importTab := rfl
@[simp] theorem State.updGang_routeTab (s : State) (g : Nat × Nat) (f : Gang → Gang) : (s.updGang g f).routeTab = s.routeTab := rfl
@[simp] theorem State.updGang_mcast (s : State) (g : Nat × Nat) (f : Gang → Gang) : (s.updGang g f).mcast = s.mcast := rfl
@[simp] theorem State.updGang_peers (s : State) (g : Nat × Nat) (f : Gang → Gang) : (s.updGang g f).peers = s.peers := rfl
@[simp] theorem State.updGang_flows (s : State) (g : Nat × Nat) (f : Gang → Gang) : (s.updGang g f).flows = s.flows := rfl
@[simp] theorem State.updGang_expected (s : State) (g : Nat × Nat) (f : Gang → Gang) : (s.updGang g f).expected = s.expected := rfl
@[simp] theorem State.updGang_homeLeases (s : State) (g : Nat × Nat) (f : Gang → Gang) : (s.updGang g f).homeLeases = s.homeLeases := rfl
@[simp] theorem State.updGang_heldLeases (s : State) (g : Nat × Nat) (f : Gang → Gang) : (s.updGang g f).heldLeases = s.heldLeases := rfl
@[simp] theorem State.updGang_transit (s : State) (g : Nat × Nat) (f : Gang → Gang) : (s.updGang g f).transit = s.transit := rfl
@[simp] theorem State.updGang_failedPorts (s : State) (g : Nat × Nat) (f : Gang → Gang) : (s.updGang g f).failedPorts = s.failedPorts := rfl
@[simp] theorem State.updGang_links (s : State) (g : Nat × Nat) (f : Gang → Gang) : (s.updGang g f).links = s.links := rfl
@[simp] theorem State.updGang_outbox (s : State) (g : Nat × Nat) (f : Gang → Gang) : (s.updGang g f).outbox = s.outbox := rfl
@[simp] theorem State.updGang_backlog (s : State) (g : Nat × Nat) (f : Gang → Gang) : (s.updGang g f).backlog = s.backlog := rfl
@[simp] theorem State.updGang_mailboxes (s : State) (g : Nat × Nat) (f : Gang → Gang) : (s.updGang g f).mailboxes = s.mailboxes := rfl
@[simp] theorem State.updGang_eth (s : State) (g : Nat × Nat) (f : Gang → Gang) : (s.updGang g f).eth = s.eth := rfl
@[simp] theorem State.updGang_ethPorts (s : State) (g : Nat × Nat) (f : Gang → Gang) : (s.updGang g f).ethPorts = s.ethPorts := rfl
@[simp] theorem State.updGang_faultReports (s : State) (g : Nat × Nat) (f : Gang → Gang) : (s.updGang g f).faultReports = s.faultReports := rfl
@[simp] theorem State.updGang_errs (s : State) (g : Nat × Nat) (f : Gang → Gang) : (s.updGang g f).errs = s.errs := rfl
@[simp] theorem State.updGang_hostData (s : State) (g : Nat × Nat) (f : Gang → Gang) : (s.updGang g f).hostData = s.hostData := rfl
@[simp] theorem State.updGang_hostPoison (s : State) (g : Nat × Nat) (f : Gang → Gang) : (s.updGang g f).hostPoison = s.hostPoison := rfl
@[simp] theorem State.updGang_veil (s : State) (g : Nat × Nat) (f : Gang → Gang) : (s.updGang g f).veil = s.veil := rfl
@[simp] theorem State.updGang_agenda (s : State) (g : Nat × Nat) (f : Gang → Gang) : (s.updGang g f).agenda = s.agenda := rfl
@[simp] theorem State.updGang_agent (s : State) (g : Nat × Nat) (f : Gang → Gang) : (s.updGang g f).agent = s.agent := rfl
@[simp] theorem State.updGang_args (s : State) (g : Nat × Nat) (f : Gang → Gang) : (s.updGang g f).args = s.args := rfl

/-! ### updCore -/

@[simp] theorem State.updCore_clock (s : State) (c : Nat) (f : Core → Core) : (s.updCore c f).clock = s.clock := rfl
@[simp] theorem State.updCore_devId (s : State) (c : Nat) (f : Core → Core) : (s.updCore c f).devId = s.devId := rfl
@[simp] theorem State.updCore_incarnation (s : State) (c : Nat) (f : Core → Core) : (s.updCore c f).incarnation = s.incarnation := rfl
@[simp] theorem State.updCore_bootstat (s : State) (c : Nat) (f : Core → Core) : (s.updCore c f).bootstat = s.bootstat := rfl
@[simp] theorem State.updCore_mr (s : State) (c : Nat) (f : Core → Core) : (s.updCore c f).mr = s.mr := rfl
@[simp] theorem State.updCore_mem (s : State) (c : Nat) (f : Core → Core) : (s.updCore c f).mem = s.mem := rfl
@[simp] theorem State.updCore_scratch (s : State) (c : Nat) (f : Core → Core) : (s.updCore c f).scratch = s.scratch := rfl
@[simp] theorem State.updCore_poisonLines (s : State) (c : Nat) (f : Core → Core) : (s.updCore c f).poisonLines = s.poisonLines := rfl
@[simp] theorem State.updCore_poisonWords (s : State) (c : Nat) (f : Core → Core) : (s.updCore c f).poisonWords = s.poisonWords := rfl
@[simp] theorem State.updCore_poisonScratch (s : State) (c : Nat) (f : Core → Core) : (s.updCore c f).poisonScratch = s.poisonScratch := rfl
@[simp] theorem State.updCore_exps (s : State) (c : Nat) (f : Core → Core) : (s.updCore c f).exps = s.exps := rfl
@[simp] theorem State.updCore_hz (s : State) (c : Nat) (f : Core → Core) : (s.updCore c f).hz = s.hz := rfl
@[simp] theorem State.updCore_remoteExps (s : State) (c : Nat) (f : Core → Core) : (s.updCore c f).remoteExps = s.remoteExps := rfl
@[simp] theorem State.updCore_holds (s : State) (c : Nat) (f : Core → Core) : (s.updCore c f).holds = s.holds := rfl
@[simp] theorem State.updCore_reqs (s : State) (c : Nat) (f : Core → Core) : (s.updCore c f).reqs = s.reqs := rfl
@[simp] theorem State.updCore_lineBuf (s : State) (c : Nat) (f : Core → Core) : (s.updCore c f).lineBuf = s.lineBuf := rfl
@[simp] theorem State.updCore_evicted (s : State) (c : Nat) (f : Core → Core) : (s.updCore c f).evicted = s.evicted := rfl
@[simp] theorem State.updCore_nextReq (s : State) (c : Nat) (f : Core → Core) : (s.updCore c f).nextReq = s.nextReq := rfl
@[simp] theorem State.updCore_tlb1 (s : State) (c : Nat) (f : Core → Core) : (s.updCore c f).tlb1 = s.tlb1 := rfl
@[simp] theorem State.updCore_tlb2 (s : State) (c : Nat) (f : Core → Core) : (s.updCore c f).tlb2 = s.tlb2 := rfl
@[simp] theorem State.updCore_missQ (s : State) (c : Nat) (f : Core → Core) : (s.updCore c f).missQ = s.missQ := rfl
@[simp] theorem State.updCore_l1 (s : State) (c : Nat) (f : Core → Core) : (s.updCore c f).l1 = s.l1 := rfl
@[simp] theorem State.updCore_predictor (s : State) (c : Nat) (f : Core → Core) : (s.updCore c f).predictor = s.predictor := rfl
@[simp] theorem State.updCore_lastLease (s : State) (c : Nat) (f : Core → Core) : (s.updCore c f).lastLease = s.lastLease := rfl
@[simp] theorem State.updCore_seen (s : State) (c : Nat) (f : Core → Core) : (s.updCore c f).seen = s.seen := rfl
@[simp] theorem State.updCore_slices (s : State) (c : Nat) (f : Core → Core) : (s.updCore c f).slices = s.slices := rfl
@[simp] theorem State.updCore_fotBase (s : State) (c : Nat) (f : Core → Core) : (s.updCore c f).fotBase = s.fotBase := rfl
@[simp] theorem State.updCore_zeroing (s : State) (c : Nat) (f : Core → Core) : (s.updCore c f).zeroing = s.zeroing := rfl
@[simp] theorem State.updCore_partitions (s : State) (c : Nat) (f : Core → Core) : (s.updCore c f).partitions = s.partitions := rfl
@[simp] theorem State.updCore_queues (s : State) (c : Nat) (f : Core → Core) : (s.updCore c f).queues = s.queues := rfl
@[simp] theorem State.updCore_launches (s : State) (c : Nat) (f : Core → Core) : (s.updCore c f).launches = s.launches := rfl
@[simp] theorem State.updCore_nextLid (s : State) (c : Nat) (f : Core → Core) : (s.updCore c f).nextLid = s.nextLid := rfl
@[simp] theorem State.updCore_doorbells (s : State) (c : Nat) (f : Core → Core) : (s.updCore c f).doorbells = s.doorbells := rfl
@[simp] theorem State.updCore_blocks (s : State) (c : Nat) (f : Core → Core) : (s.updCore c f).blocks = s.blocks := rfl
@[simp] theorem State.updCore_nextBlock (s : State) (c : Nat) (f : Core → Core) : (s.updCore c f).nextBlock = s.nextBlock := rfl
@[simp] theorem State.updCore_gangs (s : State) (c : Nat) (f : Core → Core) : (s.updCore c f).gangs = s.gangs := rfl
@[simp] theorem State.updCore_ctlSr (s : State) (c : Nat) (f : Core → Core) : (s.updCore c f).ctlSr = s.ctlSr := rfl
@[simp] theorem State.updCore_fibres (s : State) (c : Nat) (f : Core → Core) : (s.updCore c f).fibres = s.fibres := rfl
@[simp] theorem State.updCore_pipes (s : State) (c : Nat) (f : Core → Core) : (s.updCore c f).pipes = s.pipes := rfl
@[simp] theorem State.updCore_carriages (s : State) (c : Nat) (f : Core → Core) : (s.updCore c f).carriages = s.carriages := rfl
@[simp] theorem State.updCore_dies (s : State) (c : Nat) (f : Core → Core) : (s.updCore c f).dies = s.dies := rfl
@[simp] theorem State.updCore_shadowUsed (s : State) (c : Nat) (f : Core → Core) : (s.updCore c f).shadowUsed = s.shadowUsed := rfl
@[simp] theorem State.updCore_stackTab (s : State) (c : Nat) (f : Core → Core) : (s.updCore c f).stackTab = s.stackTab := rfl
@[simp] theorem State.updCore_banks (s : State) (c : Nat) (f : Core → Core) : (s.updCore c f).banks = s.banks := rfl
@[simp] theorem State.updCore_bankDone (s : State) (c : Nat) (f : Core → Core) : (s.updCore c f).bankDone = s.bankDone := rfl
@[simp] theorem State.updCore_importTab (s : State) (c : Nat) (f : Core → Core) : (s.updCore c f).importTab = s.importTab := rfl
@[simp] theorem State.updCore_routeTab (s : State) (c : Nat) (f : Core → Core) : (s.updCore c f).routeTab = s.routeTab := rfl
@[simp] theorem State.updCore_mcast (s : State) (c : Nat) (f : Core → Core) : (s.updCore c f).mcast = s.mcast := rfl
@[simp] theorem State.updCore_peers (s : State) (c : Nat) (f : Core → Core) : (s.updCore c f).peers = s.peers := rfl
@[simp] theorem State.updCore_flows (s : State) (c : Nat) (f : Core → Core) : (s.updCore c f).flows = s.flows := rfl
@[simp] theorem State.updCore_expected (s : State) (c : Nat) (f : Core → Core) : (s.updCore c f).expected = s.expected := rfl
@[simp] theorem State.updCore_homeLeases (s : State) (c : Nat) (f : Core → Core) : (s.updCore c f).homeLeases = s.homeLeases := rfl
@[simp] theorem State.updCore_heldLeases (s : State) (c : Nat) (f : Core → Core) : (s.updCore c f).heldLeases = s.heldLeases := rfl
@[simp] theorem State.updCore_transit (s : State) (c : Nat) (f : Core → Core) : (s.updCore c f).transit = s.transit := rfl
@[simp] theorem State.updCore_failedPorts (s : State) (c : Nat) (f : Core → Core) : (s.updCore c f).failedPorts = s.failedPorts := rfl
@[simp] theorem State.updCore_links (s : State) (c : Nat) (f : Core → Core) : (s.updCore c f).links = s.links := rfl
@[simp] theorem State.updCore_outbox (s : State) (c : Nat) (f : Core → Core) : (s.updCore c f).outbox = s.outbox := rfl
@[simp] theorem State.updCore_backlog (s : State) (c : Nat) (f : Core → Core) : (s.updCore c f).backlog = s.backlog := rfl
@[simp] theorem State.updCore_mailboxes (s : State) (c : Nat) (f : Core → Core) : (s.updCore c f).mailboxes = s.mailboxes := rfl
@[simp] theorem State.updCore_eth (s : State) (c : Nat) (f : Core → Core) : (s.updCore c f).eth = s.eth := rfl
@[simp] theorem State.updCore_ethPorts (s : State) (c : Nat) (f : Core → Core) : (s.updCore c f).ethPorts = s.ethPorts := rfl
@[simp] theorem State.updCore_faultReports (s : State) (c : Nat) (f : Core → Core) : (s.updCore c f).faultReports = s.faultReports := rfl
@[simp] theorem State.updCore_errs (s : State) (c : Nat) (f : Core → Core) : (s.updCore c f).errs = s.errs := rfl
@[simp] theorem State.updCore_hostData (s : State) (c : Nat) (f : Core → Core) : (s.updCore c f).hostData = s.hostData := rfl
@[simp] theorem State.updCore_hostPoison (s : State) (c : Nat) (f : Core → Core) : (s.updCore c f).hostPoison = s.hostPoison := rfl
@[simp] theorem State.updCore_veil (s : State) (c : Nat) (f : Core → Core) : (s.updCore c f).veil = s.veil := rfl
@[simp] theorem State.updCore_agenda (s : State) (c : Nat) (f : Core → Core) : (s.updCore c f).agenda = s.agenda := rfl
@[simp] theorem State.updCore_agent (s : State) (c : Nat) (f : Core → Core) : (s.updCore c f).agent = s.agent := rfl
@[simp] theorem State.updCore_args (s : State) (c : Nat) (f : Core → Core) : (s.updCore c f).args = s.args := rfl

/-! ### updDie -/

@[simp] theorem State.updDie_clock (s : State) (d : Nat) (f : Die → Die) : (s.updDie d f).clock = s.clock := rfl
@[simp] theorem State.updDie_devId (s : State) (d : Nat) (f : Die → Die) : (s.updDie d f).devId = s.devId := rfl
@[simp] theorem State.updDie_incarnation (s : State) (d : Nat) (f : Die → Die) : (s.updDie d f).incarnation = s.incarnation := rfl
@[simp] theorem State.updDie_bootstat (s : State) (d : Nat) (f : Die → Die) : (s.updDie d f).bootstat = s.bootstat := rfl
@[simp] theorem State.updDie_mr (s : State) (d : Nat) (f : Die → Die) : (s.updDie d f).mr = s.mr := rfl
@[simp] theorem State.updDie_mem (s : State) (d : Nat) (f : Die → Die) : (s.updDie d f).mem = s.mem := rfl
@[simp] theorem State.updDie_scratch (s : State) (d : Nat) (f : Die → Die) : (s.updDie d f).scratch = s.scratch := rfl
@[simp] theorem State.updDie_poisonLines (s : State) (d : Nat) (f : Die → Die) : (s.updDie d f).poisonLines = s.poisonLines := rfl
@[simp] theorem State.updDie_poisonWords (s : State) (d : Nat) (f : Die → Die) : (s.updDie d f).poisonWords = s.poisonWords := rfl
@[simp] theorem State.updDie_poisonScratch (s : State) (d : Nat) (f : Die → Die) : (s.updDie d f).poisonScratch = s.poisonScratch := rfl
@[simp] theorem State.updDie_exps (s : State) (d : Nat) (f : Die → Die) : (s.updDie d f).exps = s.exps := rfl
@[simp] theorem State.updDie_hz (s : State) (d : Nat) (f : Die → Die) : (s.updDie d f).hz = s.hz := rfl
@[simp] theorem State.updDie_remoteExps (s : State) (d : Nat) (f : Die → Die) : (s.updDie d f).remoteExps = s.remoteExps := rfl
@[simp] theorem State.updDie_holds (s : State) (d : Nat) (f : Die → Die) : (s.updDie d f).holds = s.holds := rfl
@[simp] theorem State.updDie_reqs (s : State) (d : Nat) (f : Die → Die) : (s.updDie d f).reqs = s.reqs := rfl
@[simp] theorem State.updDie_lineBuf (s : State) (d : Nat) (f : Die → Die) : (s.updDie d f).lineBuf = s.lineBuf := rfl
@[simp] theorem State.updDie_evicted (s : State) (d : Nat) (f : Die → Die) : (s.updDie d f).evicted = s.evicted := rfl
@[simp] theorem State.updDie_nextReq (s : State) (d : Nat) (f : Die → Die) : (s.updDie d f).nextReq = s.nextReq := rfl
@[simp] theorem State.updDie_tlb1 (s : State) (d : Nat) (f : Die → Die) : (s.updDie d f).tlb1 = s.tlb1 := rfl
@[simp] theorem State.updDie_tlb2 (s : State) (d : Nat) (f : Die → Die) : (s.updDie d f).tlb2 = s.tlb2 := rfl
@[simp] theorem State.updDie_missQ (s : State) (d : Nat) (f : Die → Die) : (s.updDie d f).missQ = s.missQ := rfl
@[simp] theorem State.updDie_l1 (s : State) (d : Nat) (f : Die → Die) : (s.updDie d f).l1 = s.l1 := rfl
@[simp] theorem State.updDie_predictor (s : State) (d : Nat) (f : Die → Die) : (s.updDie d f).predictor = s.predictor := rfl
@[simp] theorem State.updDie_lastLease (s : State) (d : Nat) (f : Die → Die) : (s.updDie d f).lastLease = s.lastLease := rfl
@[simp] theorem State.updDie_seen (s : State) (d : Nat) (f : Die → Die) : (s.updDie d f).seen = s.seen := rfl
@[simp] theorem State.updDie_slices (s : State) (d : Nat) (f : Die → Die) : (s.updDie d f).slices = s.slices := rfl
@[simp] theorem State.updDie_fotBase (s : State) (d : Nat) (f : Die → Die) : (s.updDie d f).fotBase = s.fotBase := rfl
@[simp] theorem State.updDie_zeroing (s : State) (d : Nat) (f : Die → Die) : (s.updDie d f).zeroing = s.zeroing := rfl
@[simp] theorem State.updDie_partitions (s : State) (d : Nat) (f : Die → Die) : (s.updDie d f).partitions = s.partitions := rfl
@[simp] theorem State.updDie_queues (s : State) (d : Nat) (f : Die → Die) : (s.updDie d f).queues = s.queues := rfl
@[simp] theorem State.updDie_launches (s : State) (d : Nat) (f : Die → Die) : (s.updDie d f).launches = s.launches := rfl
@[simp] theorem State.updDie_nextLid (s : State) (d : Nat) (f : Die → Die) : (s.updDie d f).nextLid = s.nextLid := rfl
@[simp] theorem State.updDie_doorbells (s : State) (d : Nat) (f : Die → Die) : (s.updDie d f).doorbells = s.doorbells := rfl
@[simp] theorem State.updDie_blocks (s : State) (d : Nat) (f : Die → Die) : (s.updDie d f).blocks = s.blocks := rfl
@[simp] theorem State.updDie_nextBlock (s : State) (d : Nat) (f : Die → Die) : (s.updDie d f).nextBlock = s.nextBlock := rfl
@[simp] theorem State.updDie_gangs (s : State) (d : Nat) (f : Die → Die) : (s.updDie d f).gangs = s.gangs := rfl
@[simp] theorem State.updDie_ctlSr (s : State) (d : Nat) (f : Die → Die) : (s.updDie d f).ctlSr = s.ctlSr := rfl
@[simp] theorem State.updDie_fibres (s : State) (d : Nat) (f : Die → Die) : (s.updDie d f).fibres = s.fibres := rfl
@[simp] theorem State.updDie_pipes (s : State) (d : Nat) (f : Die → Die) : (s.updDie d f).pipes = s.pipes := rfl
@[simp] theorem State.updDie_cores (s : State) (d : Nat) (f : Die → Die) : (s.updDie d f).cores = s.cores := rfl
@[simp] theorem State.updDie_carriages (s : State) (d : Nat) (f : Die → Die) : (s.updDie d f).carriages = s.carriages := rfl
@[simp] theorem State.updDie_shadowUsed (s : State) (d : Nat) (f : Die → Die) : (s.updDie d f).shadowUsed = s.shadowUsed := rfl
@[simp] theorem State.updDie_stackTab (s : State) (d : Nat) (f : Die → Die) : (s.updDie d f).stackTab = s.stackTab := rfl
@[simp] theorem State.updDie_banks (s : State) (d : Nat) (f : Die → Die) : (s.updDie d f).banks = s.banks := rfl
@[simp] theorem State.updDie_bankDone (s : State) (d : Nat) (f : Die → Die) : (s.updDie d f).bankDone = s.bankDone := rfl
@[simp] theorem State.updDie_importTab (s : State) (d : Nat) (f : Die → Die) : (s.updDie d f).importTab = s.importTab := rfl
@[simp] theorem State.updDie_routeTab (s : State) (d : Nat) (f : Die → Die) : (s.updDie d f).routeTab = s.routeTab := rfl
@[simp] theorem State.updDie_mcast (s : State) (d : Nat) (f : Die → Die) : (s.updDie d f).mcast = s.mcast := rfl
@[simp] theorem State.updDie_peers (s : State) (d : Nat) (f : Die → Die) : (s.updDie d f).peers = s.peers := rfl
@[simp] theorem State.updDie_flows (s : State) (d : Nat) (f : Die → Die) : (s.updDie d f).flows = s.flows := rfl
@[simp] theorem State.updDie_expected (s : State) (d : Nat) (f : Die → Die) : (s.updDie d f).expected = s.expected := rfl
@[simp] theorem State.updDie_homeLeases (s : State) (d : Nat) (f : Die → Die) : (s.updDie d f).homeLeases = s.homeLeases := rfl
@[simp] theorem State.updDie_heldLeases (s : State) (d : Nat) (f : Die → Die) : (s.updDie d f).heldLeases = s.heldLeases := rfl
@[simp] theorem State.updDie_transit (s : State) (d : Nat) (f : Die → Die) : (s.updDie d f).transit = s.transit := rfl
@[simp] theorem State.updDie_failedPorts (s : State) (d : Nat) (f : Die → Die) : (s.updDie d f).failedPorts = s.failedPorts := rfl
@[simp] theorem State.updDie_links (s : State) (d : Nat) (f : Die → Die) : (s.updDie d f).links = s.links := rfl
@[simp] theorem State.updDie_outbox (s : State) (d : Nat) (f : Die → Die) : (s.updDie d f).outbox = s.outbox := rfl
@[simp] theorem State.updDie_backlog (s : State) (d : Nat) (f : Die → Die) : (s.updDie d f).backlog = s.backlog := rfl
@[simp] theorem State.updDie_mailboxes (s : State) (d : Nat) (f : Die → Die) : (s.updDie d f).mailboxes = s.mailboxes := rfl
@[simp] theorem State.updDie_eth (s : State) (d : Nat) (f : Die → Die) : (s.updDie d f).eth = s.eth := rfl
@[simp] theorem State.updDie_ethPorts (s : State) (d : Nat) (f : Die → Die) : (s.updDie d f).ethPorts = s.ethPorts := rfl
@[simp] theorem State.updDie_faultReports (s : State) (d : Nat) (f : Die → Die) : (s.updDie d f).faultReports = s.faultReports := rfl
@[simp] theorem State.updDie_errs (s : State) (d : Nat) (f : Die → Die) : (s.updDie d f).errs = s.errs := rfl
@[simp] theorem State.updDie_hostData (s : State) (d : Nat) (f : Die → Die) : (s.updDie d f).hostData = s.hostData := rfl
@[simp] theorem State.updDie_hostPoison (s : State) (d : Nat) (f : Die → Die) : (s.updDie d f).hostPoison = s.hostPoison := rfl
@[simp] theorem State.updDie_veil (s : State) (d : Nat) (f : Die → Die) : (s.updDie d f).veil = s.veil := rfl
@[simp] theorem State.updDie_agenda (s : State) (d : Nat) (f : Die → Die) : (s.updDie d f).agenda = s.agenda := rfl
@[simp] theorem State.updDie_agent (s : State) (d : Nat) (f : Die → Die) : (s.updDie d f).agent = s.agent := rfl
@[simp] theorem State.updDie_args (s : State) (d : Nat) (f : Die → Die) : (s.updDie d f).args = s.args := rfl

/-! ### updPart -/

@[simp] theorem State.updPart_clock (s : State) (p : Nat) (f : Partition → Partition) : (s.updPart p f).clock = s.clock := rfl
@[simp] theorem State.updPart_devId (s : State) (p : Nat) (f : Partition → Partition) : (s.updPart p f).devId = s.devId := rfl
@[simp] theorem State.updPart_incarnation (s : State) (p : Nat) (f : Partition → Partition) : (s.updPart p f).incarnation = s.incarnation := rfl
@[simp] theorem State.updPart_bootstat (s : State) (p : Nat) (f : Partition → Partition) : (s.updPart p f).bootstat = s.bootstat := rfl
@[simp] theorem State.updPart_mr (s : State) (p : Nat) (f : Partition → Partition) : (s.updPart p f).mr = s.mr := rfl
@[simp] theorem State.updPart_mem (s : State) (p : Nat) (f : Partition → Partition) : (s.updPart p f).mem = s.mem := rfl
@[simp] theorem State.updPart_scratch (s : State) (p : Nat) (f : Partition → Partition) : (s.updPart p f).scratch = s.scratch := rfl
@[simp] theorem State.updPart_poisonLines (s : State) (p : Nat) (f : Partition → Partition) : (s.updPart p f).poisonLines = s.poisonLines := rfl
@[simp] theorem State.updPart_poisonWords (s : State) (p : Nat) (f : Partition → Partition) : (s.updPart p f).poisonWords = s.poisonWords := rfl
@[simp] theorem State.updPart_poisonScratch (s : State) (p : Nat) (f : Partition → Partition) : (s.updPart p f).poisonScratch = s.poisonScratch := rfl
@[simp] theorem State.updPart_exps (s : State) (p : Nat) (f : Partition → Partition) : (s.updPart p f).exps = s.exps := rfl
@[simp] theorem State.updPart_hz (s : State) (p : Nat) (f : Partition → Partition) : (s.updPart p f).hz = s.hz := rfl
@[simp] theorem State.updPart_remoteExps (s : State) (p : Nat) (f : Partition → Partition) : (s.updPart p f).remoteExps = s.remoteExps := rfl
@[simp] theorem State.updPart_holds (s : State) (p : Nat) (f : Partition → Partition) : (s.updPart p f).holds = s.holds := rfl
@[simp] theorem State.updPart_reqs (s : State) (p : Nat) (f : Partition → Partition) : (s.updPart p f).reqs = s.reqs := rfl
@[simp] theorem State.updPart_lineBuf (s : State) (p : Nat) (f : Partition → Partition) : (s.updPart p f).lineBuf = s.lineBuf := rfl
@[simp] theorem State.updPart_evicted (s : State) (p : Nat) (f : Partition → Partition) : (s.updPart p f).evicted = s.evicted := rfl
@[simp] theorem State.updPart_nextReq (s : State) (p : Nat) (f : Partition → Partition) : (s.updPart p f).nextReq = s.nextReq := rfl
@[simp] theorem State.updPart_tlb1 (s : State) (p : Nat) (f : Partition → Partition) : (s.updPart p f).tlb1 = s.tlb1 := rfl
@[simp] theorem State.updPart_tlb2 (s : State) (p : Nat) (f : Partition → Partition) : (s.updPart p f).tlb2 = s.tlb2 := rfl
@[simp] theorem State.updPart_missQ (s : State) (p : Nat) (f : Partition → Partition) : (s.updPart p f).missQ = s.missQ := rfl
@[simp] theorem State.updPart_l1 (s : State) (p : Nat) (f : Partition → Partition) : (s.updPart p f).l1 = s.l1 := rfl
@[simp] theorem State.updPart_predictor (s : State) (p : Nat) (f : Partition → Partition) : (s.updPart p f).predictor = s.predictor := rfl
@[simp] theorem State.updPart_lastLease (s : State) (p : Nat) (f : Partition → Partition) : (s.updPart p f).lastLease = s.lastLease := rfl
@[simp] theorem State.updPart_seen (s : State) (p : Nat) (f : Partition → Partition) : (s.updPart p f).seen = s.seen := rfl
@[simp] theorem State.updPart_slices (s : State) (p : Nat) (f : Partition → Partition) : (s.updPart p f).slices = s.slices := rfl
@[simp] theorem State.updPart_fotBase (s : State) (p : Nat) (f : Partition → Partition) : (s.updPart p f).fotBase = s.fotBase := rfl
@[simp] theorem State.updPart_zeroing (s : State) (p : Nat) (f : Partition → Partition) : (s.updPart p f).zeroing = s.zeroing := rfl
@[simp] theorem State.updPart_queues (s : State) (p : Nat) (f : Partition → Partition) : (s.updPart p f).queues = s.queues := rfl
@[simp] theorem State.updPart_launches (s : State) (p : Nat) (f : Partition → Partition) : (s.updPart p f).launches = s.launches := rfl
@[simp] theorem State.updPart_nextLid (s : State) (p : Nat) (f : Partition → Partition) : (s.updPart p f).nextLid = s.nextLid := rfl
@[simp] theorem State.updPart_doorbells (s : State) (p : Nat) (f : Partition → Partition) : (s.updPart p f).doorbells = s.doorbells := rfl
@[simp] theorem State.updPart_blocks (s : State) (p : Nat) (f : Partition → Partition) : (s.updPart p f).blocks = s.blocks := rfl
@[simp] theorem State.updPart_nextBlock (s : State) (p : Nat) (f : Partition → Partition) : (s.updPart p f).nextBlock = s.nextBlock := rfl
@[simp] theorem State.updPart_gangs (s : State) (p : Nat) (f : Partition → Partition) : (s.updPart p f).gangs = s.gangs := rfl
@[simp] theorem State.updPart_ctlSr (s : State) (p : Nat) (f : Partition → Partition) : (s.updPart p f).ctlSr = s.ctlSr := rfl
@[simp] theorem State.updPart_fibres (s : State) (p : Nat) (f : Partition → Partition) : (s.updPart p f).fibres = s.fibres := rfl
@[simp] theorem State.updPart_pipes (s : State) (p : Nat) (f : Partition → Partition) : (s.updPart p f).pipes = s.pipes := rfl
@[simp] theorem State.updPart_cores (s : State) (p : Nat) (f : Partition → Partition) : (s.updPart p f).cores = s.cores := rfl
@[simp] theorem State.updPart_carriages (s : State) (p : Nat) (f : Partition → Partition) : (s.updPart p f).carriages = s.carriages := rfl
@[simp] theorem State.updPart_dies (s : State) (p : Nat) (f : Partition → Partition) : (s.updPart p f).dies = s.dies := rfl
@[simp] theorem State.updPart_shadowUsed (s : State) (p : Nat) (f : Partition → Partition) : (s.updPart p f).shadowUsed = s.shadowUsed := rfl
@[simp] theorem State.updPart_stackTab (s : State) (p : Nat) (f : Partition → Partition) : (s.updPart p f).stackTab = s.stackTab := rfl
@[simp] theorem State.updPart_banks (s : State) (p : Nat) (f : Partition → Partition) : (s.updPart p f).banks = s.banks := rfl
@[simp] theorem State.updPart_bankDone (s : State) (p : Nat) (f : Partition → Partition) : (s.updPart p f).bankDone = s.bankDone := rfl
@[simp] theorem State.updPart_importTab (s : State) (p : Nat) (f : Partition → Partition) : (s.updPart p f).importTab = s.importTab := rfl
@[simp] theorem State.updPart_routeTab (s : State) (p : Nat) (f : Partition → Partition) : (s.updPart p f).routeTab = s.routeTab := rfl
@[simp] theorem State.updPart_mcast (s : State) (p : Nat) (f : Partition → Partition) : (s.updPart p f).mcast = s.mcast := rfl
@[simp] theorem State.updPart_peers (s : State) (p : Nat) (f : Partition → Partition) : (s.updPart p f).peers = s.peers := rfl
@[simp] theorem State.updPart_flows (s : State) (p : Nat) (f : Partition → Partition) : (s.updPart p f).flows = s.flows := rfl
@[simp] theorem State.updPart_expected (s : State) (p : Nat) (f : Partition → Partition) : (s.updPart p f).expected = s.expected := rfl
@[simp] theorem State.updPart_homeLeases (s : State) (p : Nat) (f : Partition → Partition) : (s.updPart p f).homeLeases = s.homeLeases := rfl
@[simp] theorem State.updPart_heldLeases (s : State) (p : Nat) (f : Partition → Partition) : (s.updPart p f).heldLeases = s.heldLeases := rfl
@[simp] theorem State.updPart_transit (s : State) (p : Nat) (f : Partition → Partition) : (s.updPart p f).transit = s.transit := rfl
@[simp] theorem State.updPart_failedPorts (s : State) (p : Nat) (f : Partition → Partition) : (s.updPart p f).failedPorts = s.failedPorts := rfl
@[simp] theorem State.updPart_links (s : State) (p : Nat) (f : Partition → Partition) : (s.updPart p f).links = s.links := rfl
@[simp] theorem State.updPart_outbox (s : State) (p : Nat) (f : Partition → Partition) : (s.updPart p f).outbox = s.outbox := rfl
@[simp] theorem State.updPart_backlog (s : State) (p : Nat) (f : Partition → Partition) : (s.updPart p f).backlog = s.backlog := rfl
@[simp] theorem State.updPart_mailboxes (s : State) (p : Nat) (f : Partition → Partition) : (s.updPart p f).mailboxes = s.mailboxes := rfl
@[simp] theorem State.updPart_eth (s : State) (p : Nat) (f : Partition → Partition) : (s.updPart p f).eth = s.eth := rfl
@[simp] theorem State.updPart_ethPorts (s : State) (p : Nat) (f : Partition → Partition) : (s.updPart p f).ethPorts = s.ethPorts := rfl
@[simp] theorem State.updPart_faultReports (s : State) (p : Nat) (f : Partition → Partition) : (s.updPart p f).faultReports = s.faultReports := rfl
@[simp] theorem State.updPart_errs (s : State) (p : Nat) (f : Partition → Partition) : (s.updPart p f).errs = s.errs := rfl
@[simp] theorem State.updPart_hostData (s : State) (p : Nat) (f : Partition → Partition) : (s.updPart p f).hostData = s.hostData := rfl
@[simp] theorem State.updPart_hostPoison (s : State) (p : Nat) (f : Partition → Partition) : (s.updPart p f).hostPoison = s.hostPoison := rfl
@[simp] theorem State.updPart_veil (s : State) (p : Nat) (f : Partition → Partition) : (s.updPart p f).veil = s.veil := rfl
@[simp] theorem State.updPart_agenda (s : State) (p : Nat) (f : Partition → Partition) : (s.updPart p f).agenda = s.agenda := rfl
@[simp] theorem State.updPart_agent (s : State) (p : Nat) (f : Partition → Partition) : (s.updPart p f).agent = s.agent := rfl
@[simp] theorem State.updPart_args (s : State) (p : Nat) (f : Partition → Partition) : (s.updPart p f).args = s.args := rfl

/-! ### updSlice -/

@[simp] theorem State.updSlice_clock (s : State) (n : Nat) (f : Slice → Slice) : (s.updSlice n f).clock = s.clock := rfl
@[simp] theorem State.updSlice_devId (s : State) (n : Nat) (f : Slice → Slice) : (s.updSlice n f).devId = s.devId := rfl
@[simp] theorem State.updSlice_incarnation (s : State) (n : Nat) (f : Slice → Slice) : (s.updSlice n f).incarnation = s.incarnation := rfl
@[simp] theorem State.updSlice_bootstat (s : State) (n : Nat) (f : Slice → Slice) : (s.updSlice n f).bootstat = s.bootstat := rfl
@[simp] theorem State.updSlice_mr (s : State) (n : Nat) (f : Slice → Slice) : (s.updSlice n f).mr = s.mr := rfl
@[simp] theorem State.updSlice_mem (s : State) (n : Nat) (f : Slice → Slice) : (s.updSlice n f).mem = s.mem := rfl
@[simp] theorem State.updSlice_scratch (s : State) (n : Nat) (f : Slice → Slice) : (s.updSlice n f).scratch = s.scratch := rfl
@[simp] theorem State.updSlice_poisonLines (s : State) (n : Nat) (f : Slice → Slice) : (s.updSlice n f).poisonLines = s.poisonLines := rfl
@[simp] theorem State.updSlice_poisonWords (s : State) (n : Nat) (f : Slice → Slice) : (s.updSlice n f).poisonWords = s.poisonWords := rfl
@[simp] theorem State.updSlice_poisonScratch (s : State) (n : Nat) (f : Slice → Slice) : (s.updSlice n f).poisonScratch = s.poisonScratch := rfl
@[simp] theorem State.updSlice_exps (s : State) (n : Nat) (f : Slice → Slice) : (s.updSlice n f).exps = s.exps := rfl
@[simp] theorem State.updSlice_hz (s : State) (n : Nat) (f : Slice → Slice) : (s.updSlice n f).hz = s.hz := rfl
@[simp] theorem State.updSlice_remoteExps (s : State) (n : Nat) (f : Slice → Slice) : (s.updSlice n f).remoteExps = s.remoteExps := rfl
@[simp] theorem State.updSlice_holds (s : State) (n : Nat) (f : Slice → Slice) : (s.updSlice n f).holds = s.holds := rfl
@[simp] theorem State.updSlice_reqs (s : State) (n : Nat) (f : Slice → Slice) : (s.updSlice n f).reqs = s.reqs := rfl
@[simp] theorem State.updSlice_lineBuf (s : State) (n : Nat) (f : Slice → Slice) : (s.updSlice n f).lineBuf = s.lineBuf := rfl
@[simp] theorem State.updSlice_evicted (s : State) (n : Nat) (f : Slice → Slice) : (s.updSlice n f).evicted = s.evicted := rfl
@[simp] theorem State.updSlice_nextReq (s : State) (n : Nat) (f : Slice → Slice) : (s.updSlice n f).nextReq = s.nextReq := rfl
@[simp] theorem State.updSlice_tlb1 (s : State) (n : Nat) (f : Slice → Slice) : (s.updSlice n f).tlb1 = s.tlb1 := rfl
@[simp] theorem State.updSlice_tlb2 (s : State) (n : Nat) (f : Slice → Slice) : (s.updSlice n f).tlb2 = s.tlb2 := rfl
@[simp] theorem State.updSlice_missQ (s : State) (n : Nat) (f : Slice → Slice) : (s.updSlice n f).missQ = s.missQ := rfl
@[simp] theorem State.updSlice_l1 (s : State) (n : Nat) (f : Slice → Slice) : (s.updSlice n f).l1 = s.l1 := rfl
@[simp] theorem State.updSlice_predictor (s : State) (n : Nat) (f : Slice → Slice) : (s.updSlice n f).predictor = s.predictor := rfl
@[simp] theorem State.updSlice_lastLease (s : State) (n : Nat) (f : Slice → Slice) : (s.updSlice n f).lastLease = s.lastLease := rfl
@[simp] theorem State.updSlice_seen (s : State) (n : Nat) (f : Slice → Slice) : (s.updSlice n f).seen = s.seen := rfl
@[simp] theorem State.updSlice_fotBase (s : State) (n : Nat) (f : Slice → Slice) : (s.updSlice n f).fotBase = s.fotBase := rfl
@[simp] theorem State.updSlice_zeroing (s : State) (n : Nat) (f : Slice → Slice) : (s.updSlice n f).zeroing = s.zeroing := rfl
@[simp] theorem State.updSlice_partitions (s : State) (n : Nat) (f : Slice → Slice) : (s.updSlice n f).partitions = s.partitions := rfl
@[simp] theorem State.updSlice_queues (s : State) (n : Nat) (f : Slice → Slice) : (s.updSlice n f).queues = s.queues := rfl
@[simp] theorem State.updSlice_launches (s : State) (n : Nat) (f : Slice → Slice) : (s.updSlice n f).launches = s.launches := rfl
@[simp] theorem State.updSlice_nextLid (s : State) (n : Nat) (f : Slice → Slice) : (s.updSlice n f).nextLid = s.nextLid := rfl
@[simp] theorem State.updSlice_doorbells (s : State) (n : Nat) (f : Slice → Slice) : (s.updSlice n f).doorbells = s.doorbells := rfl
@[simp] theorem State.updSlice_blocks (s : State) (n : Nat) (f : Slice → Slice) : (s.updSlice n f).blocks = s.blocks := rfl
@[simp] theorem State.updSlice_nextBlock (s : State) (n : Nat) (f : Slice → Slice) : (s.updSlice n f).nextBlock = s.nextBlock := rfl
@[simp] theorem State.updSlice_gangs (s : State) (n : Nat) (f : Slice → Slice) : (s.updSlice n f).gangs = s.gangs := rfl
@[simp] theorem State.updSlice_ctlSr (s : State) (n : Nat) (f : Slice → Slice) : (s.updSlice n f).ctlSr = s.ctlSr := rfl
@[simp] theorem State.updSlice_fibres (s : State) (n : Nat) (f : Slice → Slice) : (s.updSlice n f).fibres = s.fibres := rfl
@[simp] theorem State.updSlice_pipes (s : State) (n : Nat) (f : Slice → Slice) : (s.updSlice n f).pipes = s.pipes := rfl
@[simp] theorem State.updSlice_cores (s : State) (n : Nat) (f : Slice → Slice) : (s.updSlice n f).cores = s.cores := rfl
@[simp] theorem State.updSlice_carriages (s : State) (n : Nat) (f : Slice → Slice) : (s.updSlice n f).carriages = s.carriages := rfl
@[simp] theorem State.updSlice_dies (s : State) (n : Nat) (f : Slice → Slice) : (s.updSlice n f).dies = s.dies := rfl
@[simp] theorem State.updSlice_shadowUsed (s : State) (n : Nat) (f : Slice → Slice) : (s.updSlice n f).shadowUsed = s.shadowUsed := rfl
@[simp] theorem State.updSlice_stackTab (s : State) (n : Nat) (f : Slice → Slice) : (s.updSlice n f).stackTab = s.stackTab := rfl
@[simp] theorem State.updSlice_banks (s : State) (n : Nat) (f : Slice → Slice) : (s.updSlice n f).banks = s.banks := rfl
@[simp] theorem State.updSlice_bankDone (s : State) (n : Nat) (f : Slice → Slice) : (s.updSlice n f).bankDone = s.bankDone := rfl
@[simp] theorem State.updSlice_importTab (s : State) (n : Nat) (f : Slice → Slice) : (s.updSlice n f).importTab = s.importTab := rfl
@[simp] theorem State.updSlice_routeTab (s : State) (n : Nat) (f : Slice → Slice) : (s.updSlice n f).routeTab = s.routeTab := rfl
@[simp] theorem State.updSlice_mcast (s : State) (n : Nat) (f : Slice → Slice) : (s.updSlice n f).mcast = s.mcast := rfl
@[simp] theorem State.updSlice_peers (s : State) (n : Nat) (f : Slice → Slice) : (s.updSlice n f).peers = s.peers := rfl
@[simp] theorem State.updSlice_flows (s : State) (n : Nat) (f : Slice → Slice) : (s.updSlice n f).flows = s.flows := rfl
@[simp] theorem State.updSlice_expected (s : State) (n : Nat) (f : Slice → Slice) : (s.updSlice n f).expected = s.expected := rfl
@[simp] theorem State.updSlice_homeLeases (s : State) (n : Nat) (f : Slice → Slice) : (s.updSlice n f).homeLeases = s.homeLeases := rfl
@[simp] theorem State.updSlice_heldLeases (s : State) (n : Nat) (f : Slice → Slice) : (s.updSlice n f).heldLeases = s.heldLeases := rfl
@[simp] theorem State.updSlice_transit (s : State) (n : Nat) (f : Slice → Slice) : (s.updSlice n f).transit = s.transit := rfl
@[simp] theorem State.updSlice_failedPorts (s : State) (n : Nat) (f : Slice → Slice) : (s.updSlice n f).failedPorts = s.failedPorts := rfl
@[simp] theorem State.updSlice_links (s : State) (n : Nat) (f : Slice → Slice) : (s.updSlice n f).links = s.links := rfl
@[simp] theorem State.updSlice_outbox (s : State) (n : Nat) (f : Slice → Slice) : (s.updSlice n f).outbox = s.outbox := rfl
@[simp] theorem State.updSlice_backlog (s : State) (n : Nat) (f : Slice → Slice) : (s.updSlice n f).backlog = s.backlog := rfl
@[simp] theorem State.updSlice_mailboxes (s : State) (n : Nat) (f : Slice → Slice) : (s.updSlice n f).mailboxes = s.mailboxes := rfl
@[simp] theorem State.updSlice_eth (s : State) (n : Nat) (f : Slice → Slice) : (s.updSlice n f).eth = s.eth := rfl
@[simp] theorem State.updSlice_ethPorts (s : State) (n : Nat) (f : Slice → Slice) : (s.updSlice n f).ethPorts = s.ethPorts := rfl
@[simp] theorem State.updSlice_faultReports (s : State) (n : Nat) (f : Slice → Slice) : (s.updSlice n f).faultReports = s.faultReports := rfl
@[simp] theorem State.updSlice_errs (s : State) (n : Nat) (f : Slice → Slice) : (s.updSlice n f).errs = s.errs := rfl
@[simp] theorem State.updSlice_hostData (s : State) (n : Nat) (f : Slice → Slice) : (s.updSlice n f).hostData = s.hostData := rfl
@[simp] theorem State.updSlice_hostPoison (s : State) (n : Nat) (f : Slice → Slice) : (s.updSlice n f).hostPoison = s.hostPoison := rfl
@[simp] theorem State.updSlice_veil (s : State) (n : Nat) (f : Slice → Slice) : (s.updSlice n f).veil = s.veil := rfl
@[simp] theorem State.updSlice_agenda (s : State) (n : Nat) (f : Slice → Slice) : (s.updSlice n f).agenda = s.agenda := rfl
@[simp] theorem State.updSlice_agent (s : State) (n : Nat) (f : Slice → Slice) : (s.updSlice n f).agent = s.agent := rfl
@[simp] theorem State.updSlice_args (s : State) (n : Nat) (f : Slice → Slice) : (s.updSlice n f).args = s.args := rfl

/-! ### updStack -/

@[simp] theorem State.updStack_clock (s : State) (n : Nat) (f : Stack → Stack) : (s.updStack n f).clock = s.clock := rfl
@[simp] theorem State.updStack_devId (s : State) (n : Nat) (f : Stack → Stack) : (s.updStack n f).devId = s.devId := rfl
@[simp] theorem State.updStack_incarnation (s : State) (n : Nat) (f : Stack → Stack) : (s.updStack n f).incarnation = s.incarnation := rfl
@[simp] theorem State.updStack_bootstat (s : State) (n : Nat) (f : Stack → Stack) : (s.updStack n f).bootstat = s.bootstat := rfl
@[simp] theorem State.updStack_mr (s : State) (n : Nat) (f : Stack → Stack) : (s.updStack n f).mr = s.mr := rfl
@[simp] theorem State.updStack_mem (s : State) (n : Nat) (f : Stack → Stack) : (s.updStack n f).mem = s.mem := rfl
@[simp] theorem State.updStack_scratch (s : State) (n : Nat) (f : Stack → Stack) : (s.updStack n f).scratch = s.scratch := rfl
@[simp] theorem State.updStack_poisonLines (s : State) (n : Nat) (f : Stack → Stack) : (s.updStack n f).poisonLines = s.poisonLines := rfl
@[simp] theorem State.updStack_poisonWords (s : State) (n : Nat) (f : Stack → Stack) : (s.updStack n f).poisonWords = s.poisonWords := rfl
@[simp] theorem State.updStack_poisonScratch (s : State) (n : Nat) (f : Stack → Stack) : (s.updStack n f).poisonScratch = s.poisonScratch := rfl
@[simp] theorem State.updStack_exps (s : State) (n : Nat) (f : Stack → Stack) : (s.updStack n f).exps = s.exps := rfl
@[simp] theorem State.updStack_hz (s : State) (n : Nat) (f : Stack → Stack) : (s.updStack n f).hz = s.hz := rfl
@[simp] theorem State.updStack_remoteExps (s : State) (n : Nat) (f : Stack → Stack) : (s.updStack n f).remoteExps = s.remoteExps := rfl
@[simp] theorem State.updStack_holds (s : State) (n : Nat) (f : Stack → Stack) : (s.updStack n f).holds = s.holds := rfl
@[simp] theorem State.updStack_reqs (s : State) (n : Nat) (f : Stack → Stack) : (s.updStack n f).reqs = s.reqs := rfl
@[simp] theorem State.updStack_lineBuf (s : State) (n : Nat) (f : Stack → Stack) : (s.updStack n f).lineBuf = s.lineBuf := rfl
@[simp] theorem State.updStack_evicted (s : State) (n : Nat) (f : Stack → Stack) : (s.updStack n f).evicted = s.evicted := rfl
@[simp] theorem State.updStack_nextReq (s : State) (n : Nat) (f : Stack → Stack) : (s.updStack n f).nextReq = s.nextReq := rfl
@[simp] theorem State.updStack_tlb1 (s : State) (n : Nat) (f : Stack → Stack) : (s.updStack n f).tlb1 = s.tlb1 := rfl
@[simp] theorem State.updStack_tlb2 (s : State) (n : Nat) (f : Stack → Stack) : (s.updStack n f).tlb2 = s.tlb2 := rfl
@[simp] theorem State.updStack_missQ (s : State) (n : Nat) (f : Stack → Stack) : (s.updStack n f).missQ = s.missQ := rfl
@[simp] theorem State.updStack_l1 (s : State) (n : Nat) (f : Stack → Stack) : (s.updStack n f).l1 = s.l1 := rfl
@[simp] theorem State.updStack_predictor (s : State) (n : Nat) (f : Stack → Stack) : (s.updStack n f).predictor = s.predictor := rfl
@[simp] theorem State.updStack_lastLease (s : State) (n : Nat) (f : Stack → Stack) : (s.updStack n f).lastLease = s.lastLease := rfl
@[simp] theorem State.updStack_seen (s : State) (n : Nat) (f : Stack → Stack) : (s.updStack n f).seen = s.seen := rfl
@[simp] theorem State.updStack_slices (s : State) (n : Nat) (f : Stack → Stack) : (s.updStack n f).slices = s.slices := rfl
@[simp] theorem State.updStack_fotBase (s : State) (n : Nat) (f : Stack → Stack) : (s.updStack n f).fotBase = s.fotBase := rfl
@[simp] theorem State.updStack_zeroing (s : State) (n : Nat) (f : Stack → Stack) : (s.updStack n f).zeroing = s.zeroing := rfl
@[simp] theorem State.updStack_partitions (s : State) (n : Nat) (f : Stack → Stack) : (s.updStack n f).partitions = s.partitions := rfl
@[simp] theorem State.updStack_queues (s : State) (n : Nat) (f : Stack → Stack) : (s.updStack n f).queues = s.queues := rfl
@[simp] theorem State.updStack_launches (s : State) (n : Nat) (f : Stack → Stack) : (s.updStack n f).launches = s.launches := rfl
@[simp] theorem State.updStack_nextLid (s : State) (n : Nat) (f : Stack → Stack) : (s.updStack n f).nextLid = s.nextLid := rfl
@[simp] theorem State.updStack_doorbells (s : State) (n : Nat) (f : Stack → Stack) : (s.updStack n f).doorbells = s.doorbells := rfl
@[simp] theorem State.updStack_blocks (s : State) (n : Nat) (f : Stack → Stack) : (s.updStack n f).blocks = s.blocks := rfl
@[simp] theorem State.updStack_nextBlock (s : State) (n : Nat) (f : Stack → Stack) : (s.updStack n f).nextBlock = s.nextBlock := rfl
@[simp] theorem State.updStack_gangs (s : State) (n : Nat) (f : Stack → Stack) : (s.updStack n f).gangs = s.gangs := rfl
@[simp] theorem State.updStack_ctlSr (s : State) (n : Nat) (f : Stack → Stack) : (s.updStack n f).ctlSr = s.ctlSr := rfl
@[simp] theorem State.updStack_fibres (s : State) (n : Nat) (f : Stack → Stack) : (s.updStack n f).fibres = s.fibres := rfl
@[simp] theorem State.updStack_pipes (s : State) (n : Nat) (f : Stack → Stack) : (s.updStack n f).pipes = s.pipes := rfl
@[simp] theorem State.updStack_cores (s : State) (n : Nat) (f : Stack → Stack) : (s.updStack n f).cores = s.cores := rfl
@[simp] theorem State.updStack_carriages (s : State) (n : Nat) (f : Stack → Stack) : (s.updStack n f).carriages = s.carriages := rfl
@[simp] theorem State.updStack_dies (s : State) (n : Nat) (f : Stack → Stack) : (s.updStack n f).dies = s.dies := rfl
@[simp] theorem State.updStack_shadowUsed (s : State) (n : Nat) (f : Stack → Stack) : (s.updStack n f).shadowUsed = s.shadowUsed := rfl
@[simp] theorem State.updStack_banks (s : State) (n : Nat) (f : Stack → Stack) : (s.updStack n f).banks = s.banks := rfl
@[simp] theorem State.updStack_bankDone (s : State) (n : Nat) (f : Stack → Stack) : (s.updStack n f).bankDone = s.bankDone := rfl
@[simp] theorem State.updStack_importTab (s : State) (n : Nat) (f : Stack → Stack) : (s.updStack n f).importTab = s.importTab := rfl
@[simp] theorem State.updStack_routeTab (s : State) (n : Nat) (f : Stack → Stack) : (s.updStack n f).routeTab = s.routeTab := rfl
@[simp] theorem State.updStack_mcast (s : State) (n : Nat) (f : Stack → Stack) : (s.updStack n f).mcast = s.mcast := rfl
@[simp] theorem State.updStack_peers (s : State) (n : Nat) (f : Stack → Stack) : (s.updStack n f).peers = s.peers := rfl
@[simp] theorem State.updStack_flows (s : State) (n : Nat) (f : Stack → Stack) : (s.updStack n f).flows = s.flows := rfl
@[simp] theorem State.updStack_expected (s : State) (n : Nat) (f : Stack → Stack) : (s.updStack n f).expected = s.expected := rfl
@[simp] theorem State.updStack_homeLeases (s : State) (n : Nat) (f : Stack → Stack) : (s.updStack n f).homeLeases = s.homeLeases := rfl
@[simp] theorem State.updStack_heldLeases (s : State) (n : Nat) (f : Stack → Stack) : (s.updStack n f).heldLeases = s.heldLeases := rfl
@[simp] theorem State.updStack_transit (s : State) (n : Nat) (f : Stack → Stack) : (s.updStack n f).transit = s.transit := rfl
@[simp] theorem State.updStack_failedPorts (s : State) (n : Nat) (f : Stack → Stack) : (s.updStack n f).failedPorts = s.failedPorts := rfl
@[simp] theorem State.updStack_links (s : State) (n : Nat) (f : Stack → Stack) : (s.updStack n f).links = s.links := rfl
@[simp] theorem State.updStack_outbox (s : State) (n : Nat) (f : Stack → Stack) : (s.updStack n f).outbox = s.outbox := rfl
@[simp] theorem State.updStack_backlog (s : State) (n : Nat) (f : Stack → Stack) : (s.updStack n f).backlog = s.backlog := rfl
@[simp] theorem State.updStack_mailboxes (s : State) (n : Nat) (f : Stack → Stack) : (s.updStack n f).mailboxes = s.mailboxes := rfl
@[simp] theorem State.updStack_eth (s : State) (n : Nat) (f : Stack → Stack) : (s.updStack n f).eth = s.eth := rfl
@[simp] theorem State.updStack_ethPorts (s : State) (n : Nat) (f : Stack → Stack) : (s.updStack n f).ethPorts = s.ethPorts := rfl
@[simp] theorem State.updStack_faultReports (s : State) (n : Nat) (f : Stack → Stack) : (s.updStack n f).faultReports = s.faultReports := rfl
@[simp] theorem State.updStack_errs (s : State) (n : Nat) (f : Stack → Stack) : (s.updStack n f).errs = s.errs := rfl
@[simp] theorem State.updStack_hostData (s : State) (n : Nat) (f : Stack → Stack) : (s.updStack n f).hostData = s.hostData := rfl
@[simp] theorem State.updStack_hostPoison (s : State) (n : Nat) (f : Stack → Stack) : (s.updStack n f).hostPoison = s.hostPoison := rfl
@[simp] theorem State.updStack_veil (s : State) (n : Nat) (f : Stack → Stack) : (s.updStack n f).veil = s.veil := rfl
@[simp] theorem State.updStack_agenda (s : State) (n : Nat) (f : Stack → Stack) : (s.updStack n f).agenda = s.agenda := rfl
@[simp] theorem State.updStack_agent (s : State) (n : Nat) (f : Stack → Stack) : (s.updStack n f).agent = s.agent := rfl
@[simp] theorem State.updStack_args (s : State) (n : Nat) (f : Stack → Stack) : (s.updStack n f).args = s.args := rfl

/-! ### updQueue -/

@[simp] theorem State.updQueue_clock (s : State) (c q : Nat) (f : Queue → Queue) : (s.updQueue c q f).clock = s.clock := rfl
@[simp] theorem State.updQueue_devId (s : State) (c q : Nat) (f : Queue → Queue) : (s.updQueue c q f).devId = s.devId := rfl
@[simp] theorem State.updQueue_incarnation (s : State) (c q : Nat) (f : Queue → Queue) : (s.updQueue c q f).incarnation = s.incarnation := rfl
@[simp] theorem State.updQueue_bootstat (s : State) (c q : Nat) (f : Queue → Queue) : (s.updQueue c q f).bootstat = s.bootstat := rfl
@[simp] theorem State.updQueue_mr (s : State) (c q : Nat) (f : Queue → Queue) : (s.updQueue c q f).mr = s.mr := rfl
@[simp] theorem State.updQueue_mem (s : State) (c q : Nat) (f : Queue → Queue) : (s.updQueue c q f).mem = s.mem := rfl
@[simp] theorem State.updQueue_scratch (s : State) (c q : Nat) (f : Queue → Queue) : (s.updQueue c q f).scratch = s.scratch := rfl
@[simp] theorem State.updQueue_poisonLines (s : State) (c q : Nat) (f : Queue → Queue) : (s.updQueue c q f).poisonLines = s.poisonLines := rfl
@[simp] theorem State.updQueue_poisonWords (s : State) (c q : Nat) (f : Queue → Queue) : (s.updQueue c q f).poisonWords = s.poisonWords := rfl
@[simp] theorem State.updQueue_poisonScratch (s : State) (c q : Nat) (f : Queue → Queue) : (s.updQueue c q f).poisonScratch = s.poisonScratch := rfl
@[simp] theorem State.updQueue_exps (s : State) (c q : Nat) (f : Queue → Queue) : (s.updQueue c q f).exps = s.exps := rfl
@[simp] theorem State.updQueue_hz (s : State) (c q : Nat) (f : Queue → Queue) : (s.updQueue c q f).hz = s.hz := rfl
@[simp] theorem State.updQueue_remoteExps (s : State) (c q : Nat) (f : Queue → Queue) : (s.updQueue c q f).remoteExps = s.remoteExps := rfl
@[simp] theorem State.updQueue_holds (s : State) (c q : Nat) (f : Queue → Queue) : (s.updQueue c q f).holds = s.holds := rfl
@[simp] theorem State.updQueue_reqs (s : State) (c q : Nat) (f : Queue → Queue) : (s.updQueue c q f).reqs = s.reqs := rfl
@[simp] theorem State.updQueue_lineBuf (s : State) (c q : Nat) (f : Queue → Queue) : (s.updQueue c q f).lineBuf = s.lineBuf := rfl
@[simp] theorem State.updQueue_evicted (s : State) (c q : Nat) (f : Queue → Queue) : (s.updQueue c q f).evicted = s.evicted := rfl
@[simp] theorem State.updQueue_nextReq (s : State) (c q : Nat) (f : Queue → Queue) : (s.updQueue c q f).nextReq = s.nextReq := rfl
@[simp] theorem State.updQueue_tlb1 (s : State) (c q : Nat) (f : Queue → Queue) : (s.updQueue c q f).tlb1 = s.tlb1 := rfl
@[simp] theorem State.updQueue_tlb2 (s : State) (c q : Nat) (f : Queue → Queue) : (s.updQueue c q f).tlb2 = s.tlb2 := rfl
@[simp] theorem State.updQueue_missQ (s : State) (c q : Nat) (f : Queue → Queue) : (s.updQueue c q f).missQ = s.missQ := rfl
@[simp] theorem State.updQueue_l1 (s : State) (c q : Nat) (f : Queue → Queue) : (s.updQueue c q f).l1 = s.l1 := rfl
@[simp] theorem State.updQueue_predictor (s : State) (c q : Nat) (f : Queue → Queue) : (s.updQueue c q f).predictor = s.predictor := rfl
@[simp] theorem State.updQueue_lastLease (s : State) (c q : Nat) (f : Queue → Queue) : (s.updQueue c q f).lastLease = s.lastLease := rfl
@[simp] theorem State.updQueue_seen (s : State) (c q : Nat) (f : Queue → Queue) : (s.updQueue c q f).seen = s.seen := rfl
@[simp] theorem State.updQueue_slices (s : State) (c q : Nat) (f : Queue → Queue) : (s.updQueue c q f).slices = s.slices := rfl
@[simp] theorem State.updQueue_fotBase (s : State) (c q : Nat) (f : Queue → Queue) : (s.updQueue c q f).fotBase = s.fotBase := rfl
@[simp] theorem State.updQueue_zeroing (s : State) (c q : Nat) (f : Queue → Queue) : (s.updQueue c q f).zeroing = s.zeroing := rfl
@[simp] theorem State.updQueue_partitions (s : State) (c q : Nat) (f : Queue → Queue) : (s.updQueue c q f).partitions = s.partitions := rfl
@[simp] theorem State.updQueue_queues (s : State) (c q : Nat) (f : Queue → Queue) : (s.updQueue c q f).queues = s.queues := rfl
@[simp] theorem State.updQueue_launches (s : State) (c q : Nat) (f : Queue → Queue) : (s.updQueue c q f).launches = s.launches := rfl
@[simp] theorem State.updQueue_nextLid (s : State) (c q : Nat) (f : Queue → Queue) : (s.updQueue c q f).nextLid = s.nextLid := rfl
@[simp] theorem State.updQueue_doorbells (s : State) (c q : Nat) (f : Queue → Queue) : (s.updQueue c q f).doorbells = s.doorbells := rfl
@[simp] theorem State.updQueue_blocks (s : State) (c q : Nat) (f : Queue → Queue) : (s.updQueue c q f).blocks = s.blocks := rfl
@[simp] theorem State.updQueue_nextBlock (s : State) (c q : Nat) (f : Queue → Queue) : (s.updQueue c q f).nextBlock = s.nextBlock := rfl
@[simp] theorem State.updQueue_gangs (s : State) (c q : Nat) (f : Queue → Queue) : (s.updQueue c q f).gangs = s.gangs := rfl
@[simp] theorem State.updQueue_ctlSr (s : State) (c q : Nat) (f : Queue → Queue) : (s.updQueue c q f).ctlSr = s.ctlSr := rfl
@[simp] theorem State.updQueue_fibres (s : State) (c q : Nat) (f : Queue → Queue) : (s.updQueue c q f).fibres = s.fibres := rfl
@[simp] theorem State.updQueue_pipes (s : State) (c q : Nat) (f : Queue → Queue) : (s.updQueue c q f).pipes = s.pipes := rfl
@[simp] theorem State.updQueue_carriages (s : State) (c q : Nat) (f : Queue → Queue) : (s.updQueue c q f).carriages = s.carriages := rfl
@[simp] theorem State.updQueue_dies (s : State) (c q : Nat) (f : Queue → Queue) : (s.updQueue c q f).dies = s.dies := rfl
@[simp] theorem State.updQueue_shadowUsed (s : State) (c q : Nat) (f : Queue → Queue) : (s.updQueue c q f).shadowUsed = s.shadowUsed := rfl
@[simp] theorem State.updQueue_stackTab (s : State) (c q : Nat) (f : Queue → Queue) : (s.updQueue c q f).stackTab = s.stackTab := rfl
@[simp] theorem State.updQueue_banks (s : State) (c q : Nat) (f : Queue → Queue) : (s.updQueue c q f).banks = s.banks := rfl
@[simp] theorem State.updQueue_bankDone (s : State) (c q : Nat) (f : Queue → Queue) : (s.updQueue c q f).bankDone = s.bankDone := rfl
@[simp] theorem State.updQueue_importTab (s : State) (c q : Nat) (f : Queue → Queue) : (s.updQueue c q f).importTab = s.importTab := rfl
@[simp] theorem State.updQueue_routeTab (s : State) (c q : Nat) (f : Queue → Queue) : (s.updQueue c q f).routeTab = s.routeTab := rfl
@[simp] theorem State.updQueue_mcast (s : State) (c q : Nat) (f : Queue → Queue) : (s.updQueue c q f).mcast = s.mcast := rfl
@[simp] theorem State.updQueue_peers (s : State) (c q : Nat) (f : Queue → Queue) : (s.updQueue c q f).peers = s.peers := rfl
@[simp] theorem State.updQueue_flows (s : State) (c q : Nat) (f : Queue → Queue) : (s.updQueue c q f).flows = s.flows := rfl
@[simp] theorem State.updQueue_expected (s : State) (c q : Nat) (f : Queue → Queue) : (s.updQueue c q f).expected = s.expected := rfl
@[simp] theorem State.updQueue_homeLeases (s : State) (c q : Nat) (f : Queue → Queue) : (s.updQueue c q f).homeLeases = s.homeLeases := rfl
@[simp] theorem State.updQueue_heldLeases (s : State) (c q : Nat) (f : Queue → Queue) : (s.updQueue c q f).heldLeases = s.heldLeases := rfl
@[simp] theorem State.updQueue_transit (s : State) (c q : Nat) (f : Queue → Queue) : (s.updQueue c q f).transit = s.transit := rfl
@[simp] theorem State.updQueue_failedPorts (s : State) (c q : Nat) (f : Queue → Queue) : (s.updQueue c q f).failedPorts = s.failedPorts := rfl
@[simp] theorem State.updQueue_links (s : State) (c q : Nat) (f : Queue → Queue) : (s.updQueue c q f).links = s.links := rfl
@[simp] theorem State.updQueue_outbox (s : State) (c q : Nat) (f : Queue → Queue) : (s.updQueue c q f).outbox = s.outbox := rfl
@[simp] theorem State.updQueue_backlog (s : State) (c q : Nat) (f : Queue → Queue) : (s.updQueue c q f).backlog = s.backlog := rfl
@[simp] theorem State.updQueue_mailboxes (s : State) (c q : Nat) (f : Queue → Queue) : (s.updQueue c q f).mailboxes = s.mailboxes := rfl
@[simp] theorem State.updQueue_eth (s : State) (c q : Nat) (f : Queue → Queue) : (s.updQueue c q f).eth = s.eth := rfl
@[simp] theorem State.updQueue_ethPorts (s : State) (c q : Nat) (f : Queue → Queue) : (s.updQueue c q f).ethPorts = s.ethPorts := rfl
@[simp] theorem State.updQueue_faultReports (s : State) (c q : Nat) (f : Queue → Queue) : (s.updQueue c q f).faultReports = s.faultReports := rfl
@[simp] theorem State.updQueue_errs (s : State) (c q : Nat) (f : Queue → Queue) : (s.updQueue c q f).errs = s.errs := rfl
@[simp] theorem State.updQueue_hostData (s : State) (c q : Nat) (f : Queue → Queue) : (s.updQueue c q f).hostData = s.hostData := rfl
@[simp] theorem State.updQueue_hostPoison (s : State) (c q : Nat) (f : Queue → Queue) : (s.updQueue c q f).hostPoison = s.hostPoison := rfl
@[simp] theorem State.updQueue_veil (s : State) (c q : Nat) (f : Queue → Queue) : (s.updQueue c q f).veil = s.veil := rfl
@[simp] theorem State.updQueue_agenda (s : State) (c q : Nat) (f : Queue → Queue) : (s.updQueue c q f).agenda = s.agenda := rfl
@[simp] theorem State.updQueue_agent (s : State) (c q : Nat) (f : Queue → Queue) : (s.updQueue c q f).agent = s.agent := rfl
@[simp] theorem State.updQueue_args (s : State) (c q : Nat) (f : Queue → Queue) : (s.updQueue c q f).args = s.args := rfl

/-! ### updCtx -/

@[simp] theorem State.updCtx_clock (s : State) (c t : Nat) (f : Ctx → Ctx) : (s.updCtx c t f).clock = s.clock := rfl
@[simp] theorem State.updCtx_devId (s : State) (c t : Nat) (f : Ctx → Ctx) : (s.updCtx c t f).devId = s.devId := rfl
@[simp] theorem State.updCtx_incarnation (s : State) (c t : Nat) (f : Ctx → Ctx) : (s.updCtx c t f).incarnation = s.incarnation := rfl
@[simp] theorem State.updCtx_bootstat (s : State) (c t : Nat) (f : Ctx → Ctx) : (s.updCtx c t f).bootstat = s.bootstat := rfl
@[simp] theorem State.updCtx_mr (s : State) (c t : Nat) (f : Ctx → Ctx) : (s.updCtx c t f).mr = s.mr := rfl
@[simp] theorem State.updCtx_mem (s : State) (c t : Nat) (f : Ctx → Ctx) : (s.updCtx c t f).mem = s.mem := rfl
@[simp] theorem State.updCtx_scratch (s : State) (c t : Nat) (f : Ctx → Ctx) : (s.updCtx c t f).scratch = s.scratch := rfl
@[simp] theorem State.updCtx_poisonLines (s : State) (c t : Nat) (f : Ctx → Ctx) : (s.updCtx c t f).poisonLines = s.poisonLines := rfl
@[simp] theorem State.updCtx_poisonWords (s : State) (c t : Nat) (f : Ctx → Ctx) : (s.updCtx c t f).poisonWords = s.poisonWords := rfl
@[simp] theorem State.updCtx_poisonScratch (s : State) (c t : Nat) (f : Ctx → Ctx) : (s.updCtx c t f).poisonScratch = s.poisonScratch := rfl
@[simp] theorem State.updCtx_exps (s : State) (c t : Nat) (f : Ctx → Ctx) : (s.updCtx c t f).exps = s.exps := rfl
@[simp] theorem State.updCtx_hz (s : State) (c t : Nat) (f : Ctx → Ctx) : (s.updCtx c t f).hz = s.hz := rfl
@[simp] theorem State.updCtx_remoteExps (s : State) (c t : Nat) (f : Ctx → Ctx) : (s.updCtx c t f).remoteExps = s.remoteExps := rfl
@[simp] theorem State.updCtx_holds (s : State) (c t : Nat) (f : Ctx → Ctx) : (s.updCtx c t f).holds = s.holds := rfl
@[simp] theorem State.updCtx_reqs (s : State) (c t : Nat) (f : Ctx → Ctx) : (s.updCtx c t f).reqs = s.reqs := rfl
@[simp] theorem State.updCtx_lineBuf (s : State) (c t : Nat) (f : Ctx → Ctx) : (s.updCtx c t f).lineBuf = s.lineBuf := rfl
@[simp] theorem State.updCtx_evicted (s : State) (c t : Nat) (f : Ctx → Ctx) : (s.updCtx c t f).evicted = s.evicted := rfl
@[simp] theorem State.updCtx_nextReq (s : State) (c t : Nat) (f : Ctx → Ctx) : (s.updCtx c t f).nextReq = s.nextReq := rfl
@[simp] theorem State.updCtx_tlb1 (s : State) (c t : Nat) (f : Ctx → Ctx) : (s.updCtx c t f).tlb1 = s.tlb1 := rfl
@[simp] theorem State.updCtx_tlb2 (s : State) (c t : Nat) (f : Ctx → Ctx) : (s.updCtx c t f).tlb2 = s.tlb2 := rfl
@[simp] theorem State.updCtx_missQ (s : State) (c t : Nat) (f : Ctx → Ctx) : (s.updCtx c t f).missQ = s.missQ := rfl
@[simp] theorem State.updCtx_l1 (s : State) (c t : Nat) (f : Ctx → Ctx) : (s.updCtx c t f).l1 = s.l1 := rfl
@[simp] theorem State.updCtx_predictor (s : State) (c t : Nat) (f : Ctx → Ctx) : (s.updCtx c t f).predictor = s.predictor := rfl
@[simp] theorem State.updCtx_lastLease (s : State) (c t : Nat) (f : Ctx → Ctx) : (s.updCtx c t f).lastLease = s.lastLease := rfl
@[simp] theorem State.updCtx_seen (s : State) (c t : Nat) (f : Ctx → Ctx) : (s.updCtx c t f).seen = s.seen := rfl
@[simp] theorem State.updCtx_slices (s : State) (c t : Nat) (f : Ctx → Ctx) : (s.updCtx c t f).slices = s.slices := rfl
@[simp] theorem State.updCtx_fotBase (s : State) (c t : Nat) (f : Ctx → Ctx) : (s.updCtx c t f).fotBase = s.fotBase := rfl
@[simp] theorem State.updCtx_zeroing (s : State) (c t : Nat) (f : Ctx → Ctx) : (s.updCtx c t f).zeroing = s.zeroing := rfl
@[simp] theorem State.updCtx_partitions (s : State) (c t : Nat) (f : Ctx → Ctx) : (s.updCtx c t f).partitions = s.partitions := rfl
@[simp] theorem State.updCtx_queues (s : State) (c t : Nat) (f : Ctx → Ctx) : (s.updCtx c t f).queues = s.queues := rfl
@[simp] theorem State.updCtx_launches (s : State) (c t : Nat) (f : Ctx → Ctx) : (s.updCtx c t f).launches = s.launches := rfl
@[simp] theorem State.updCtx_nextLid (s : State) (c t : Nat) (f : Ctx → Ctx) : (s.updCtx c t f).nextLid = s.nextLid := rfl
@[simp] theorem State.updCtx_doorbells (s : State) (c t : Nat) (f : Ctx → Ctx) : (s.updCtx c t f).doorbells = s.doorbells := rfl
@[simp] theorem State.updCtx_blocks (s : State) (c t : Nat) (f : Ctx → Ctx) : (s.updCtx c t f).blocks = s.blocks := rfl
@[simp] theorem State.updCtx_nextBlock (s : State) (c t : Nat) (f : Ctx → Ctx) : (s.updCtx c t f).nextBlock = s.nextBlock := rfl
@[simp] theorem State.updCtx_gangs (s : State) (c t : Nat) (f : Ctx → Ctx) : (s.updCtx c t f).gangs = s.gangs := rfl
@[simp] theorem State.updCtx_ctlSr (s : State) (c t : Nat) (f : Ctx → Ctx) : (s.updCtx c t f).ctlSr = s.ctlSr := rfl
@[simp] theorem State.updCtx_fibres (s : State) (c t : Nat) (f : Ctx → Ctx) : (s.updCtx c t f).fibres = s.fibres := rfl
@[simp] theorem State.updCtx_pipes (s : State) (c t : Nat) (f : Ctx → Ctx) : (s.updCtx c t f).pipes = s.pipes := rfl
@[simp] theorem State.updCtx_carriages (s : State) (c t : Nat) (f : Ctx → Ctx) : (s.updCtx c t f).carriages = s.carriages := rfl
@[simp] theorem State.updCtx_dies (s : State) (c t : Nat) (f : Ctx → Ctx) : (s.updCtx c t f).dies = s.dies := rfl
@[simp] theorem State.updCtx_shadowUsed (s : State) (c t : Nat) (f : Ctx → Ctx) : (s.updCtx c t f).shadowUsed = s.shadowUsed := rfl
@[simp] theorem State.updCtx_stackTab (s : State) (c t : Nat) (f : Ctx → Ctx) : (s.updCtx c t f).stackTab = s.stackTab := rfl
@[simp] theorem State.updCtx_banks (s : State) (c t : Nat) (f : Ctx → Ctx) : (s.updCtx c t f).banks = s.banks := rfl
@[simp] theorem State.updCtx_bankDone (s : State) (c t : Nat) (f : Ctx → Ctx) : (s.updCtx c t f).bankDone = s.bankDone := rfl
@[simp] theorem State.updCtx_importTab (s : State) (c t : Nat) (f : Ctx → Ctx) : (s.updCtx c t f).importTab = s.importTab := rfl
@[simp] theorem State.updCtx_routeTab (s : State) (c t : Nat) (f : Ctx → Ctx) : (s.updCtx c t f).routeTab = s.routeTab := rfl
@[simp] theorem State.updCtx_mcast (s : State) (c t : Nat) (f : Ctx → Ctx) : (s.updCtx c t f).mcast = s.mcast := rfl
@[simp] theorem State.updCtx_peers (s : State) (c t : Nat) (f : Ctx → Ctx) : (s.updCtx c t f).peers = s.peers := rfl
@[simp] theorem State.updCtx_flows (s : State) (c t : Nat) (f : Ctx → Ctx) : (s.updCtx c t f).flows = s.flows := rfl
@[simp] theorem State.updCtx_expected (s : State) (c t : Nat) (f : Ctx → Ctx) : (s.updCtx c t f).expected = s.expected := rfl
@[simp] theorem State.updCtx_homeLeases (s : State) (c t : Nat) (f : Ctx → Ctx) : (s.updCtx c t f).homeLeases = s.homeLeases := rfl
@[simp] theorem State.updCtx_heldLeases (s : State) (c t : Nat) (f : Ctx → Ctx) : (s.updCtx c t f).heldLeases = s.heldLeases := rfl
@[simp] theorem State.updCtx_transit (s : State) (c t : Nat) (f : Ctx → Ctx) : (s.updCtx c t f).transit = s.transit := rfl
@[simp] theorem State.updCtx_failedPorts (s : State) (c t : Nat) (f : Ctx → Ctx) : (s.updCtx c t f).failedPorts = s.failedPorts := rfl
@[simp] theorem State.updCtx_links (s : State) (c t : Nat) (f : Ctx → Ctx) : (s.updCtx c t f).links = s.links := rfl
@[simp] theorem State.updCtx_outbox (s : State) (c t : Nat) (f : Ctx → Ctx) : (s.updCtx c t f).outbox = s.outbox := rfl
@[simp] theorem State.updCtx_backlog (s : State) (c t : Nat) (f : Ctx → Ctx) : (s.updCtx c t f).backlog = s.backlog := rfl
@[simp] theorem State.updCtx_mailboxes (s : State) (c t : Nat) (f : Ctx → Ctx) : (s.updCtx c t f).mailboxes = s.mailboxes := rfl
@[simp] theorem State.updCtx_eth (s : State) (c t : Nat) (f : Ctx → Ctx) : (s.updCtx c t f).eth = s.eth := rfl
@[simp] theorem State.updCtx_ethPorts (s : State) (c t : Nat) (f : Ctx → Ctx) : (s.updCtx c t f).ethPorts = s.ethPorts := rfl
@[simp] theorem State.updCtx_faultReports (s : State) (c t : Nat) (f : Ctx → Ctx) : (s.updCtx c t f).faultReports = s.faultReports := rfl
@[simp] theorem State.updCtx_errs (s : State) (c t : Nat) (f : Ctx → Ctx) : (s.updCtx c t f).errs = s.errs := rfl
@[simp] theorem State.updCtx_hostData (s : State) (c t : Nat) (f : Ctx → Ctx) : (s.updCtx c t f).hostData = s.hostData := rfl
@[simp] theorem State.updCtx_hostPoison (s : State) (c t : Nat) (f : Ctx → Ctx) : (s.updCtx c t f).hostPoison = s.hostPoison := rfl
@[simp] theorem State.updCtx_veil (s : State) (c t : Nat) (f : Ctx → Ctx) : (s.updCtx c t f).veil = s.veil := rfl
@[simp] theorem State.updCtx_agenda (s : State) (c t : Nat) (f : Ctx → Ctx) : (s.updCtx c t f).agenda = s.agenda := rfl
@[simp] theorem State.updCtx_agent (s : State) (c t : Nat) (f : Ctx → Ctx) : (s.updCtx c t f).agent = s.agent := rfl
@[simp] theorem State.updCtx_args (s : State) (c t : Nat) (f : Ctx → Ctx) : (s.updCtx c t f).args = s.args := rfl

/-! ### addReq -/

@[simp] theorem State.addReq_clock (s : State) (r : Req) : (s.addReq r).clock = s.clock := rfl
@[simp] theorem State.addReq_devId (s : State) (r : Req) : (s.addReq r).devId = s.devId := rfl
@[simp] theorem State.addReq_incarnation (s : State) (r : Req) : (s.addReq r).incarnation = s.incarnation := rfl
@[simp] theorem State.addReq_bootstat (s : State) (r : Req) : (s.addReq r).bootstat = s.bootstat := rfl
@[simp] theorem State.addReq_mr (s : State) (r : Req) : (s.addReq r).mr = s.mr := rfl
@[simp] theorem State.addReq_mem (s : State) (r : Req) : (s.addReq r).mem = s.mem := rfl
@[simp] theorem State.addReq_scratch (s : State) (r : Req) : (s.addReq r).scratch = s.scratch := rfl
@[simp] theorem State.addReq_poisonLines (s : State) (r : Req) : (s.addReq r).poisonLines = s.poisonLines := rfl
@[simp] theorem State.addReq_poisonWords (s : State) (r : Req) : (s.addReq r).poisonWords = s.poisonWords := rfl
@[simp] theorem State.addReq_poisonScratch (s : State) (r : Req) : (s.addReq r).poisonScratch = s.poisonScratch := rfl
@[simp] theorem State.addReq_exps (s : State) (r : Req) : (s.addReq r).exps = s.exps := rfl
@[simp] theorem State.addReq_hz (s : State) (r : Req) : (s.addReq r).hz = s.hz := rfl
@[simp] theorem State.addReq_remoteExps (s : State) (r : Req) : (s.addReq r).remoteExps = s.remoteExps := rfl
@[simp] theorem State.addReq_holds (s : State) (r : Req) : (s.addReq r).holds = s.holds := rfl
@[simp] theorem State.addReq_lineBuf (s : State) (r : Req) : (s.addReq r).lineBuf = s.lineBuf := rfl
@[simp] theorem State.addReq_evicted (s : State) (r : Req) : (s.addReq r).evicted = s.evicted := rfl
@[simp] theorem State.addReq_tlb1 (s : State) (r : Req) : (s.addReq r).tlb1 = s.tlb1 := rfl
@[simp] theorem State.addReq_tlb2 (s : State) (r : Req) : (s.addReq r).tlb2 = s.tlb2 := rfl
@[simp] theorem State.addReq_missQ (s : State) (r : Req) : (s.addReq r).missQ = s.missQ := rfl
@[simp] theorem State.addReq_l1 (s : State) (r : Req) : (s.addReq r).l1 = s.l1 := rfl
@[simp] theorem State.addReq_predictor (s : State) (r : Req) : (s.addReq r).predictor = s.predictor := rfl
@[simp] theorem State.addReq_lastLease (s : State) (r : Req) : (s.addReq r).lastLease = s.lastLease := rfl
@[simp] theorem State.addReq_seen (s : State) (r : Req) : (s.addReq r).seen = s.seen := rfl
@[simp] theorem State.addReq_slices (s : State) (r : Req) : (s.addReq r).slices = s.slices := rfl
@[simp] theorem State.addReq_fotBase (s : State) (r : Req) : (s.addReq r).fotBase = s.fotBase := rfl
@[simp] theorem State.addReq_zeroing (s : State) (r : Req) : (s.addReq r).zeroing = s.zeroing := rfl
@[simp] theorem State.addReq_partitions (s : State) (r : Req) : (s.addReq r).partitions = s.partitions := rfl
@[simp] theorem State.addReq_queues (s : State) (r : Req) : (s.addReq r).queues = s.queues := rfl
@[simp] theorem State.addReq_launches (s : State) (r : Req) : (s.addReq r).launches = s.launches := rfl
@[simp] theorem State.addReq_nextLid (s : State) (r : Req) : (s.addReq r).nextLid = s.nextLid := rfl
@[simp] theorem State.addReq_doorbells (s : State) (r : Req) : (s.addReq r).doorbells = s.doorbells := rfl
@[simp] theorem State.addReq_blocks (s : State) (r : Req) : (s.addReq r).blocks = s.blocks := rfl
@[simp] theorem State.addReq_nextBlock (s : State) (r : Req) : (s.addReq r).nextBlock = s.nextBlock := rfl
@[simp] theorem State.addReq_gangs (s : State) (r : Req) : (s.addReq r).gangs = s.gangs := rfl
@[simp] theorem State.addReq_ctlSr (s : State) (r : Req) : (s.addReq r).ctlSr = s.ctlSr := rfl
@[simp] theorem State.addReq_fibres (s : State) (r : Req) : (s.addReq r).fibres = s.fibres := rfl
@[simp] theorem State.addReq_pipes (s : State) (r : Req) : (s.addReq r).pipes = s.pipes := rfl
@[simp] theorem State.addReq_cores (s : State) (r : Req) : (s.addReq r).cores = s.cores := rfl
@[simp] theorem State.addReq_carriages (s : State) (r : Req) : (s.addReq r).carriages = s.carriages := rfl
@[simp] theorem State.addReq_dies (s : State) (r : Req) : (s.addReq r).dies = s.dies := rfl
@[simp] theorem State.addReq_shadowUsed (s : State) (r : Req) : (s.addReq r).shadowUsed = s.shadowUsed := rfl
@[simp] theorem State.addReq_stackTab (s : State) (r : Req) : (s.addReq r).stackTab = s.stackTab := rfl
@[simp] theorem State.addReq_banks (s : State) (r : Req) : (s.addReq r).banks = s.banks := rfl
@[simp] theorem State.addReq_bankDone (s : State) (r : Req) : (s.addReq r).bankDone = s.bankDone := rfl
@[simp] theorem State.addReq_importTab (s : State) (r : Req) : (s.addReq r).importTab = s.importTab := rfl
@[simp] theorem State.addReq_routeTab (s : State) (r : Req) : (s.addReq r).routeTab = s.routeTab := rfl
@[simp] theorem State.addReq_mcast (s : State) (r : Req) : (s.addReq r).mcast = s.mcast := rfl
@[simp] theorem State.addReq_peers (s : State) (r : Req) : (s.addReq r).peers = s.peers := rfl
@[simp] theorem State.addReq_flows (s : State) (r : Req) : (s.addReq r).flows = s.flows := rfl
@[simp] theorem State.addReq_expected (s : State) (r : Req) : (s.addReq r).expected = s.expected := rfl
@[simp] theorem State.addReq_homeLeases (s : State) (r : Req) : (s.addReq r).homeLeases = s.homeLeases := rfl
@[simp] theorem State.addReq_heldLeases (s : State) (r : Req) : (s.addReq r).heldLeases = s.heldLeases := rfl
@[simp] theorem State.addReq_transit (s : State) (r : Req) : (s.addReq r).transit = s.transit := rfl
@[simp] theorem State.addReq_failedPorts (s : State) (r : Req) : (s.addReq r).failedPorts = s.failedPorts := rfl
@[simp] theorem State.addReq_links (s : State) (r : Req) : (s.addReq r).links = s.links := rfl
@[simp] theorem State.addReq_outbox (s : State) (r : Req) : (s.addReq r).outbox = s.outbox := rfl
@[simp] theorem State.addReq_backlog (s : State) (r : Req) : (s.addReq r).backlog = s.backlog := rfl
@[simp] theorem State.addReq_mailboxes (s : State) (r : Req) : (s.addReq r).mailboxes = s.mailboxes := rfl
@[simp] theorem State.addReq_eth (s : State) (r : Req) : (s.addReq r).eth = s.eth := rfl
@[simp] theorem State.addReq_ethPorts (s : State) (r : Req) : (s.addReq r).ethPorts = s.ethPorts := rfl
@[simp] theorem State.addReq_faultReports (s : State) (r : Req) : (s.addReq r).faultReports = s.faultReports := rfl
@[simp] theorem State.addReq_errs (s : State) (r : Req) : (s.addReq r).errs = s.errs := rfl
@[simp] theorem State.addReq_hostData (s : State) (r : Req) : (s.addReq r).hostData = s.hostData := rfl
@[simp] theorem State.addReq_hostPoison (s : State) (r : Req) : (s.addReq r).hostPoison = s.hostPoison := rfl
@[simp] theorem State.addReq_veil (s : State) (r : Req) : (s.addReq r).veil = s.veil := rfl
@[simp] theorem State.addReq_agenda (s : State) (r : Req) : (s.addReq r).agenda = s.agenda := rfl
@[simp] theorem State.addReq_agent (s : State) (r : Req) : (s.addReq r).agent = s.agent := rfl
@[simp] theorem State.addReq_args (s : State) (r : Req) : (s.addReq r).args = s.args := rfl

/-! ### setReq -/

@[simp] theorem State.setReq_clock (s : State) (n : Nat) (f : Req → Req) : (s.setReq n f).clock = s.clock := rfl
@[simp] theorem State.setReq_devId (s : State) (n : Nat) (f : Req → Req) : (s.setReq n f).devId = s.devId := rfl
@[simp] theorem State.setReq_incarnation (s : State) (n : Nat) (f : Req → Req) : (s.setReq n f).incarnation = s.incarnation := rfl
@[simp] theorem State.setReq_bootstat (s : State) (n : Nat) (f : Req → Req) : (s.setReq n f).bootstat = s.bootstat := rfl
@[simp] theorem State.setReq_mr (s : State) (n : Nat) (f : Req → Req) : (s.setReq n f).mr = s.mr := rfl
@[simp] theorem State.setReq_mem (s : State) (n : Nat) (f : Req → Req) : (s.setReq n f).mem = s.mem := rfl
@[simp] theorem State.setReq_scratch (s : State) (n : Nat) (f : Req → Req) : (s.setReq n f).scratch = s.scratch := rfl
@[simp] theorem State.setReq_poisonLines (s : State) (n : Nat) (f : Req → Req) : (s.setReq n f).poisonLines = s.poisonLines := rfl
@[simp] theorem State.setReq_poisonWords (s : State) (n : Nat) (f : Req → Req) : (s.setReq n f).poisonWords = s.poisonWords := rfl
@[simp] theorem State.setReq_poisonScratch (s : State) (n : Nat) (f : Req → Req) : (s.setReq n f).poisonScratch = s.poisonScratch := rfl
@[simp] theorem State.setReq_exps (s : State) (n : Nat) (f : Req → Req) : (s.setReq n f).exps = s.exps := rfl
@[simp] theorem State.setReq_hz (s : State) (n : Nat) (f : Req → Req) : (s.setReq n f).hz = s.hz := rfl
@[simp] theorem State.setReq_remoteExps (s : State) (n : Nat) (f : Req → Req) : (s.setReq n f).remoteExps = s.remoteExps := rfl
@[simp] theorem State.setReq_holds (s : State) (n : Nat) (f : Req → Req) : (s.setReq n f).holds = s.holds := rfl
@[simp] theorem State.setReq_lineBuf (s : State) (n : Nat) (f : Req → Req) : (s.setReq n f).lineBuf = s.lineBuf := rfl
@[simp] theorem State.setReq_evicted (s : State) (n : Nat) (f : Req → Req) : (s.setReq n f).evicted = s.evicted := rfl
@[simp] theorem State.setReq_nextReq (s : State) (n : Nat) (f : Req → Req) : (s.setReq n f).nextReq = s.nextReq := rfl
@[simp] theorem State.setReq_tlb1 (s : State) (n : Nat) (f : Req → Req) : (s.setReq n f).tlb1 = s.tlb1 := rfl
@[simp] theorem State.setReq_tlb2 (s : State) (n : Nat) (f : Req → Req) : (s.setReq n f).tlb2 = s.tlb2 := rfl
@[simp] theorem State.setReq_missQ (s : State) (n : Nat) (f : Req → Req) : (s.setReq n f).missQ = s.missQ := rfl
@[simp] theorem State.setReq_l1 (s : State) (n : Nat) (f : Req → Req) : (s.setReq n f).l1 = s.l1 := rfl
@[simp] theorem State.setReq_predictor (s : State) (n : Nat) (f : Req → Req) : (s.setReq n f).predictor = s.predictor := rfl
@[simp] theorem State.setReq_lastLease (s : State) (n : Nat) (f : Req → Req) : (s.setReq n f).lastLease = s.lastLease := rfl
@[simp] theorem State.setReq_seen (s : State) (n : Nat) (f : Req → Req) : (s.setReq n f).seen = s.seen := rfl
@[simp] theorem State.setReq_slices (s : State) (n : Nat) (f : Req → Req) : (s.setReq n f).slices = s.slices := rfl
@[simp] theorem State.setReq_fotBase (s : State) (n : Nat) (f : Req → Req) : (s.setReq n f).fotBase = s.fotBase := rfl
@[simp] theorem State.setReq_zeroing (s : State) (n : Nat) (f : Req → Req) : (s.setReq n f).zeroing = s.zeroing := rfl
@[simp] theorem State.setReq_partitions (s : State) (n : Nat) (f : Req → Req) : (s.setReq n f).partitions = s.partitions := rfl
@[simp] theorem State.setReq_queues (s : State) (n : Nat) (f : Req → Req) : (s.setReq n f).queues = s.queues := rfl
@[simp] theorem State.setReq_launches (s : State) (n : Nat) (f : Req → Req) : (s.setReq n f).launches = s.launches := rfl
@[simp] theorem State.setReq_nextLid (s : State) (n : Nat) (f : Req → Req) : (s.setReq n f).nextLid = s.nextLid := rfl
@[simp] theorem State.setReq_doorbells (s : State) (n : Nat) (f : Req → Req) : (s.setReq n f).doorbells = s.doorbells := rfl
@[simp] theorem State.setReq_blocks (s : State) (n : Nat) (f : Req → Req) : (s.setReq n f).blocks = s.blocks := rfl
@[simp] theorem State.setReq_nextBlock (s : State) (n : Nat) (f : Req → Req) : (s.setReq n f).nextBlock = s.nextBlock := rfl
@[simp] theorem State.setReq_gangs (s : State) (n : Nat) (f : Req → Req) : (s.setReq n f).gangs = s.gangs := rfl
@[simp] theorem State.setReq_ctlSr (s : State) (n : Nat) (f : Req → Req) : (s.setReq n f).ctlSr = s.ctlSr := rfl
@[simp] theorem State.setReq_fibres (s : State) (n : Nat) (f : Req → Req) : (s.setReq n f).fibres = s.fibres := rfl
@[simp] theorem State.setReq_pipes (s : State) (n : Nat) (f : Req → Req) : (s.setReq n f).pipes = s.pipes := rfl
@[simp] theorem State.setReq_cores (s : State) (n : Nat) (f : Req → Req) : (s.setReq n f).cores = s.cores := rfl
@[simp] theorem State.setReq_carriages (s : State) (n : Nat) (f : Req → Req) : (s.setReq n f).carriages = s.carriages := rfl
@[simp] theorem State.setReq_dies (s : State) (n : Nat) (f : Req → Req) : (s.setReq n f).dies = s.dies := rfl
@[simp] theorem State.setReq_shadowUsed (s : State) (n : Nat) (f : Req → Req) : (s.setReq n f).shadowUsed = s.shadowUsed := rfl
@[simp] theorem State.setReq_stackTab (s : State) (n : Nat) (f : Req → Req) : (s.setReq n f).stackTab = s.stackTab := rfl
@[simp] theorem State.setReq_banks (s : State) (n : Nat) (f : Req → Req) : (s.setReq n f).banks = s.banks := rfl
@[simp] theorem State.setReq_bankDone (s : State) (n : Nat) (f : Req → Req) : (s.setReq n f).bankDone = s.bankDone := rfl
@[simp] theorem State.setReq_importTab (s : State) (n : Nat) (f : Req → Req) : (s.setReq n f).importTab = s.importTab := rfl
@[simp] theorem State.setReq_routeTab (s : State) (n : Nat) (f : Req → Req) : (s.setReq n f).routeTab = s.routeTab := rfl
@[simp] theorem State.setReq_mcast (s : State) (n : Nat) (f : Req → Req) : (s.setReq n f).mcast = s.mcast := rfl
@[simp] theorem State.setReq_peers (s : State) (n : Nat) (f : Req → Req) : (s.setReq n f).peers = s.peers := rfl
@[simp] theorem State.setReq_flows (s : State) (n : Nat) (f : Req → Req) : (s.setReq n f).flows = s.flows := rfl
@[simp] theorem State.setReq_expected (s : State) (n : Nat) (f : Req → Req) : (s.setReq n f).expected = s.expected := rfl
@[simp] theorem State.setReq_homeLeases (s : State) (n : Nat) (f : Req → Req) : (s.setReq n f).homeLeases = s.homeLeases := rfl
@[simp] theorem State.setReq_heldLeases (s : State) (n : Nat) (f : Req → Req) : (s.setReq n f).heldLeases = s.heldLeases := rfl
@[simp] theorem State.setReq_transit (s : State) (n : Nat) (f : Req → Req) : (s.setReq n f).transit = s.transit := rfl
@[simp] theorem State.setReq_failedPorts (s : State) (n : Nat) (f : Req → Req) : (s.setReq n f).failedPorts = s.failedPorts := rfl
@[simp] theorem State.setReq_links (s : State) (n : Nat) (f : Req → Req) : (s.setReq n f).links = s.links := rfl
@[simp] theorem State.setReq_outbox (s : State) (n : Nat) (f : Req → Req) : (s.setReq n f).outbox = s.outbox := rfl
@[simp] theorem State.setReq_backlog (s : State) (n : Nat) (f : Req → Req) : (s.setReq n f).backlog = s.backlog := rfl
@[simp] theorem State.setReq_mailboxes (s : State) (n : Nat) (f : Req → Req) : (s.setReq n f).mailboxes = s.mailboxes := rfl
@[simp] theorem State.setReq_eth (s : State) (n : Nat) (f : Req → Req) : (s.setReq n f).eth = s.eth := rfl
@[simp] theorem State.setReq_ethPorts (s : State) (n : Nat) (f : Req → Req) : (s.setReq n f).ethPorts = s.ethPorts := rfl
@[simp] theorem State.setReq_faultReports (s : State) (n : Nat) (f : Req → Req) : (s.setReq n f).faultReports = s.faultReports := rfl
@[simp] theorem State.setReq_errs (s : State) (n : Nat) (f : Req → Req) : (s.setReq n f).errs = s.errs := rfl
@[simp] theorem State.setReq_hostData (s : State) (n : Nat) (f : Req → Req) : (s.setReq n f).hostData = s.hostData := rfl
@[simp] theorem State.setReq_hostPoison (s : State) (n : Nat) (f : Req → Req) : (s.setReq n f).hostPoison = s.hostPoison := rfl
@[simp] theorem State.setReq_veil (s : State) (n : Nat) (f : Req → Req) : (s.setReq n f).veil = s.veil := rfl
@[simp] theorem State.setReq_agenda (s : State) (n : Nat) (f : Req → Req) : (s.setReq n f).agenda = s.agenda := rfl
@[simp] theorem State.setReq_agent (s : State) (n : Nat) (f : Req → Req) : (s.setReq n f).agent = s.agent := rfl
@[simp] theorem State.setReq_args (s : State) (n : Nat) (f : Req → Req) : (s.setReq n f).args = s.args := rfl

/-! ### dropReq -/

@[simp] theorem State.dropReq_clock (s : State) (n : Nat) : (s.dropReq n).clock = s.clock := rfl
@[simp] theorem State.dropReq_devId (s : State) (n : Nat) : (s.dropReq n).devId = s.devId := rfl
@[simp] theorem State.dropReq_incarnation (s : State) (n : Nat) : (s.dropReq n).incarnation = s.incarnation := rfl
@[simp] theorem State.dropReq_bootstat (s : State) (n : Nat) : (s.dropReq n).bootstat = s.bootstat := rfl
@[simp] theorem State.dropReq_mr (s : State) (n : Nat) : (s.dropReq n).mr = s.mr := rfl
@[simp] theorem State.dropReq_mem (s : State) (n : Nat) : (s.dropReq n).mem = s.mem := rfl
@[simp] theorem State.dropReq_scratch (s : State) (n : Nat) : (s.dropReq n).scratch = s.scratch := rfl
@[simp] theorem State.dropReq_poisonLines (s : State) (n : Nat) : (s.dropReq n).poisonLines = s.poisonLines := rfl
@[simp] theorem State.dropReq_poisonWords (s : State) (n : Nat) : (s.dropReq n).poisonWords = s.poisonWords := rfl
@[simp] theorem State.dropReq_poisonScratch (s : State) (n : Nat) : (s.dropReq n).poisonScratch = s.poisonScratch := rfl
@[simp] theorem State.dropReq_exps (s : State) (n : Nat) : (s.dropReq n).exps = s.exps := rfl
@[simp] theorem State.dropReq_hz (s : State) (n : Nat) : (s.dropReq n).hz = s.hz := rfl
@[simp] theorem State.dropReq_remoteExps (s : State) (n : Nat) : (s.dropReq n).remoteExps = s.remoteExps := rfl
@[simp] theorem State.dropReq_holds (s : State) (n : Nat) : (s.dropReq n).holds = s.holds := rfl
@[simp] theorem State.dropReq_lineBuf (s : State) (n : Nat) : (s.dropReq n).lineBuf = s.lineBuf := rfl
@[simp] theorem State.dropReq_evicted (s : State) (n : Nat) : (s.dropReq n).evicted = s.evicted := rfl
@[simp] theorem State.dropReq_nextReq (s : State) (n : Nat) : (s.dropReq n).nextReq = s.nextReq := rfl
@[simp] theorem State.dropReq_tlb1 (s : State) (n : Nat) : (s.dropReq n).tlb1 = s.tlb1 := rfl
@[simp] theorem State.dropReq_tlb2 (s : State) (n : Nat) : (s.dropReq n).tlb2 = s.tlb2 := rfl
@[simp] theorem State.dropReq_missQ (s : State) (n : Nat) : (s.dropReq n).missQ = s.missQ := rfl
@[simp] theorem State.dropReq_l1 (s : State) (n : Nat) : (s.dropReq n).l1 = s.l1 := rfl
@[simp] theorem State.dropReq_predictor (s : State) (n : Nat) : (s.dropReq n).predictor = s.predictor := rfl
@[simp] theorem State.dropReq_lastLease (s : State) (n : Nat) : (s.dropReq n).lastLease = s.lastLease := rfl
@[simp] theorem State.dropReq_seen (s : State) (n : Nat) : (s.dropReq n).seen = s.seen := rfl
@[simp] theorem State.dropReq_slices (s : State) (n : Nat) : (s.dropReq n).slices = s.slices := rfl
@[simp] theorem State.dropReq_fotBase (s : State) (n : Nat) : (s.dropReq n).fotBase = s.fotBase := rfl
@[simp] theorem State.dropReq_zeroing (s : State) (n : Nat) : (s.dropReq n).zeroing = s.zeroing := rfl
@[simp] theorem State.dropReq_partitions (s : State) (n : Nat) : (s.dropReq n).partitions = s.partitions := rfl
@[simp] theorem State.dropReq_queues (s : State) (n : Nat) : (s.dropReq n).queues = s.queues := rfl
@[simp] theorem State.dropReq_launches (s : State) (n : Nat) : (s.dropReq n).launches = s.launches := rfl
@[simp] theorem State.dropReq_nextLid (s : State) (n : Nat) : (s.dropReq n).nextLid = s.nextLid := rfl
@[simp] theorem State.dropReq_doorbells (s : State) (n : Nat) : (s.dropReq n).doorbells = s.doorbells := rfl
@[simp] theorem State.dropReq_blocks (s : State) (n : Nat) : (s.dropReq n).blocks = s.blocks := rfl
@[simp] theorem State.dropReq_nextBlock (s : State) (n : Nat) : (s.dropReq n).nextBlock = s.nextBlock := rfl
@[simp] theorem State.dropReq_gangs (s : State) (n : Nat) : (s.dropReq n).gangs = s.gangs := rfl
@[simp] theorem State.dropReq_ctlSr (s : State) (n : Nat) : (s.dropReq n).ctlSr = s.ctlSr := rfl
@[simp] theorem State.dropReq_fibres (s : State) (n : Nat) : (s.dropReq n).fibres = s.fibres := rfl
@[simp] theorem State.dropReq_pipes (s : State) (n : Nat) : (s.dropReq n).pipes = s.pipes := rfl
@[simp] theorem State.dropReq_cores (s : State) (n : Nat) : (s.dropReq n).cores = s.cores := rfl
@[simp] theorem State.dropReq_carriages (s : State) (n : Nat) : (s.dropReq n).carriages = s.carriages := rfl
@[simp] theorem State.dropReq_dies (s : State) (n : Nat) : (s.dropReq n).dies = s.dies := rfl
@[simp] theorem State.dropReq_shadowUsed (s : State) (n : Nat) : (s.dropReq n).shadowUsed = s.shadowUsed := rfl
@[simp] theorem State.dropReq_stackTab (s : State) (n : Nat) : (s.dropReq n).stackTab = s.stackTab := rfl
@[simp] theorem State.dropReq_banks (s : State) (n : Nat) : (s.dropReq n).banks = s.banks := rfl
@[simp] theorem State.dropReq_bankDone (s : State) (n : Nat) : (s.dropReq n).bankDone = s.bankDone := rfl
@[simp] theorem State.dropReq_importTab (s : State) (n : Nat) : (s.dropReq n).importTab = s.importTab := rfl
@[simp] theorem State.dropReq_routeTab (s : State) (n : Nat) : (s.dropReq n).routeTab = s.routeTab := rfl
@[simp] theorem State.dropReq_mcast (s : State) (n : Nat) : (s.dropReq n).mcast = s.mcast := rfl
@[simp] theorem State.dropReq_peers (s : State) (n : Nat) : (s.dropReq n).peers = s.peers := rfl
@[simp] theorem State.dropReq_flows (s : State) (n : Nat) : (s.dropReq n).flows = s.flows := rfl
@[simp] theorem State.dropReq_expected (s : State) (n : Nat) : (s.dropReq n).expected = s.expected := rfl
@[simp] theorem State.dropReq_homeLeases (s : State) (n : Nat) : (s.dropReq n).homeLeases = s.homeLeases := rfl
@[simp] theorem State.dropReq_heldLeases (s : State) (n : Nat) : (s.dropReq n).heldLeases = s.heldLeases := rfl
@[simp] theorem State.dropReq_transit (s : State) (n : Nat) : (s.dropReq n).transit = s.transit := rfl
@[simp] theorem State.dropReq_failedPorts (s : State) (n : Nat) : (s.dropReq n).failedPorts = s.failedPorts := rfl
@[simp] theorem State.dropReq_links (s : State) (n : Nat) : (s.dropReq n).links = s.links := rfl
@[simp] theorem State.dropReq_outbox (s : State) (n : Nat) : (s.dropReq n).outbox = s.outbox := rfl
@[simp] theorem State.dropReq_backlog (s : State) (n : Nat) : (s.dropReq n).backlog = s.backlog := rfl
@[simp] theorem State.dropReq_mailboxes (s : State) (n : Nat) : (s.dropReq n).mailboxes = s.mailboxes := rfl
@[simp] theorem State.dropReq_eth (s : State) (n : Nat) : (s.dropReq n).eth = s.eth := rfl
@[simp] theorem State.dropReq_ethPorts (s : State) (n : Nat) : (s.dropReq n).ethPorts = s.ethPorts := rfl
@[simp] theorem State.dropReq_faultReports (s : State) (n : Nat) : (s.dropReq n).faultReports = s.faultReports := rfl
@[simp] theorem State.dropReq_errs (s : State) (n : Nat) : (s.dropReq n).errs = s.errs := rfl
@[simp] theorem State.dropReq_hostData (s : State) (n : Nat) : (s.dropReq n).hostData = s.hostData := rfl
@[simp] theorem State.dropReq_hostPoison (s : State) (n : Nat) : (s.dropReq n).hostPoison = s.hostPoison := rfl
@[simp] theorem State.dropReq_veil (s : State) (n : Nat) : (s.dropReq n).veil = s.veil := rfl
@[simp] theorem State.dropReq_agenda (s : State) (n : Nat) : (s.dropReq n).agenda = s.agenda := rfl
@[simp] theorem State.dropReq_agent (s : State) (n : Nat) : (s.dropReq n).agent = s.agent := rfl
@[simp] theorem State.dropReq_args (s : State) (n : Nat) : (s.dropReq n).args = s.args := rfl

/-! ### dropLines -/

@[simp] theorem State.dropLines_clock (s : State) (ks : List FKey) : (s.dropLines ks).clock = s.clock := rfl
@[simp] theorem State.dropLines_devId (s : State) (ks : List FKey) : (s.dropLines ks).devId = s.devId := rfl
@[simp] theorem State.dropLines_incarnation (s : State) (ks : List FKey) : (s.dropLines ks).incarnation = s.incarnation := rfl
@[simp] theorem State.dropLines_bootstat (s : State) (ks : List FKey) : (s.dropLines ks).bootstat = s.bootstat := rfl
@[simp] theorem State.dropLines_mr (s : State) (ks : List FKey) : (s.dropLines ks).mr = s.mr := rfl
@[simp] theorem State.dropLines_mem (s : State) (ks : List FKey) : (s.dropLines ks).mem = s.mem := rfl
@[simp] theorem State.dropLines_scratch (s : State) (ks : List FKey) : (s.dropLines ks).scratch = s.scratch := rfl
@[simp] theorem State.dropLines_poisonLines (s : State) (ks : List FKey) : (s.dropLines ks).poisonLines = s.poisonLines := rfl
@[simp] theorem State.dropLines_poisonWords (s : State) (ks : List FKey) : (s.dropLines ks).poisonWords = s.poisonWords := rfl
@[simp] theorem State.dropLines_poisonScratch (s : State) (ks : List FKey) : (s.dropLines ks).poisonScratch = s.poisonScratch := rfl
@[simp] theorem State.dropLines_exps (s : State) (ks : List FKey) : (s.dropLines ks).exps = s.exps := rfl
@[simp] theorem State.dropLines_hz (s : State) (ks : List FKey) : (s.dropLines ks).hz = s.hz := rfl
@[simp] theorem State.dropLines_remoteExps (s : State) (ks : List FKey) : (s.dropLines ks).remoteExps = s.remoteExps := rfl
@[simp] theorem State.dropLines_holds (s : State) (ks : List FKey) : (s.dropLines ks).holds = s.holds := rfl
@[simp] theorem State.dropLines_reqs (s : State) (ks : List FKey) : (s.dropLines ks).reqs = s.reqs := rfl
@[simp] theorem State.dropLines_nextReq (s : State) (ks : List FKey) : (s.dropLines ks).nextReq = s.nextReq := rfl
@[simp] theorem State.dropLines_tlb1 (s : State) (ks : List FKey) : (s.dropLines ks).tlb1 = s.tlb1 := rfl
@[simp] theorem State.dropLines_tlb2 (s : State) (ks : List FKey) : (s.dropLines ks).tlb2 = s.tlb2 := rfl
@[simp] theorem State.dropLines_missQ (s : State) (ks : List FKey) : (s.dropLines ks).missQ = s.missQ := rfl
@[simp] theorem State.dropLines_l1 (s : State) (ks : List FKey) : (s.dropLines ks).l1 = s.l1 := rfl
@[simp] theorem State.dropLines_predictor (s : State) (ks : List FKey) : (s.dropLines ks).predictor = s.predictor := rfl
@[simp] theorem State.dropLines_lastLease (s : State) (ks : List FKey) : (s.dropLines ks).lastLease = s.lastLease := rfl
@[simp] theorem State.dropLines_seen (s : State) (ks : List FKey) : (s.dropLines ks).seen = s.seen := rfl
@[simp] theorem State.dropLines_slices (s : State) (ks : List FKey) : (s.dropLines ks).slices = s.slices := rfl
@[simp] theorem State.dropLines_fotBase (s : State) (ks : List FKey) : (s.dropLines ks).fotBase = s.fotBase := rfl
@[simp] theorem State.dropLines_zeroing (s : State) (ks : List FKey) : (s.dropLines ks).zeroing = s.zeroing := rfl
@[simp] theorem State.dropLines_partitions (s : State) (ks : List FKey) : (s.dropLines ks).partitions = s.partitions := rfl
@[simp] theorem State.dropLines_queues (s : State) (ks : List FKey) : (s.dropLines ks).queues = s.queues := rfl
@[simp] theorem State.dropLines_launches (s : State) (ks : List FKey) : (s.dropLines ks).launches = s.launches := rfl
@[simp] theorem State.dropLines_nextLid (s : State) (ks : List FKey) : (s.dropLines ks).nextLid = s.nextLid := rfl
@[simp] theorem State.dropLines_doorbells (s : State) (ks : List FKey) : (s.dropLines ks).doorbells = s.doorbells := rfl
@[simp] theorem State.dropLines_blocks (s : State) (ks : List FKey) : (s.dropLines ks).blocks = s.blocks := rfl
@[simp] theorem State.dropLines_nextBlock (s : State) (ks : List FKey) : (s.dropLines ks).nextBlock = s.nextBlock := rfl
@[simp] theorem State.dropLines_gangs (s : State) (ks : List FKey) : (s.dropLines ks).gangs = s.gangs := rfl
@[simp] theorem State.dropLines_ctlSr (s : State) (ks : List FKey) : (s.dropLines ks).ctlSr = s.ctlSr := rfl
@[simp] theorem State.dropLines_fibres (s : State) (ks : List FKey) : (s.dropLines ks).fibres = s.fibres := rfl
@[simp] theorem State.dropLines_pipes (s : State) (ks : List FKey) : (s.dropLines ks).pipes = s.pipes := rfl
@[simp] theorem State.dropLines_cores (s : State) (ks : List FKey) : (s.dropLines ks).cores = s.cores := rfl
@[simp] theorem State.dropLines_carriages (s : State) (ks : List FKey) : (s.dropLines ks).carriages = s.carriages := rfl
@[simp] theorem State.dropLines_dies (s : State) (ks : List FKey) : (s.dropLines ks).dies = s.dies := rfl
@[simp] theorem State.dropLines_shadowUsed (s : State) (ks : List FKey) : (s.dropLines ks).shadowUsed = s.shadowUsed := rfl
@[simp] theorem State.dropLines_stackTab (s : State) (ks : List FKey) : (s.dropLines ks).stackTab = s.stackTab := rfl
@[simp] theorem State.dropLines_banks (s : State) (ks : List FKey) : (s.dropLines ks).banks = s.banks := rfl
@[simp] theorem State.dropLines_bankDone (s : State) (ks : List FKey) : (s.dropLines ks).bankDone = s.bankDone := rfl
@[simp] theorem State.dropLines_importTab (s : State) (ks : List FKey) : (s.dropLines ks).importTab = s.importTab := rfl
@[simp] theorem State.dropLines_routeTab (s : State) (ks : List FKey) : (s.dropLines ks).routeTab = s.routeTab := rfl
@[simp] theorem State.dropLines_mcast (s : State) (ks : List FKey) : (s.dropLines ks).mcast = s.mcast := rfl
@[simp] theorem State.dropLines_peers (s : State) (ks : List FKey) : (s.dropLines ks).peers = s.peers := rfl
@[simp] theorem State.dropLines_flows (s : State) (ks : List FKey) : (s.dropLines ks).flows = s.flows := rfl
@[simp] theorem State.dropLines_expected (s : State) (ks : List FKey) : (s.dropLines ks).expected = s.expected := rfl
@[simp] theorem State.dropLines_homeLeases (s : State) (ks : List FKey) : (s.dropLines ks).homeLeases = s.homeLeases := rfl
@[simp] theorem State.dropLines_heldLeases (s : State) (ks : List FKey) : (s.dropLines ks).heldLeases = s.heldLeases := rfl
@[simp] theorem State.dropLines_transit (s : State) (ks : List FKey) : (s.dropLines ks).transit = s.transit := rfl
@[simp] theorem State.dropLines_failedPorts (s : State) (ks : List FKey) : (s.dropLines ks).failedPorts = s.failedPorts := rfl
@[simp] theorem State.dropLines_links (s : State) (ks : List FKey) : (s.dropLines ks).links = s.links := rfl
@[simp] theorem State.dropLines_outbox (s : State) (ks : List FKey) : (s.dropLines ks).outbox = s.outbox := rfl
@[simp] theorem State.dropLines_backlog (s : State) (ks : List FKey) : (s.dropLines ks).backlog = s.backlog := rfl
@[simp] theorem State.dropLines_mailboxes (s : State) (ks : List FKey) : (s.dropLines ks).mailboxes = s.mailboxes := rfl
@[simp] theorem State.dropLines_eth (s : State) (ks : List FKey) : (s.dropLines ks).eth = s.eth := rfl
@[simp] theorem State.dropLines_ethPorts (s : State) (ks : List FKey) : (s.dropLines ks).ethPorts = s.ethPorts := rfl
@[simp] theorem State.dropLines_faultReports (s : State) (ks : List FKey) : (s.dropLines ks).faultReports = s.faultReports := rfl
@[simp] theorem State.dropLines_errs (s : State) (ks : List FKey) : (s.dropLines ks).errs = s.errs := rfl
@[simp] theorem State.dropLines_hostData (s : State) (ks : List FKey) : (s.dropLines ks).hostData = s.hostData := rfl
@[simp] theorem State.dropLines_hostPoison (s : State) (ks : List FKey) : (s.dropLines ks).hostPoison = s.hostPoison := rfl
@[simp] theorem State.dropLines_veil (s : State) (ks : List FKey) : (s.dropLines ks).veil = s.veil := rfl
@[simp] theorem State.dropLines_agenda (s : State) (ks : List FKey) : (s.dropLines ks).agenda = s.agenda := rfl
@[simp] theorem State.dropLines_agent (s : State) (ks : List FKey) : (s.dropLines ks).agent = s.agent := rfl
@[simp] theorem State.dropLines_args (s : State) (ks : List FKey) : (s.dropLines ks).args = s.args := rfl

/-! ### packet -/

@[simp] theorem State.packet_clock (s : State) (d : Nat) (ids : List Nat) : (s.packet d ids).clock = s.clock := rfl
@[simp] theorem State.packet_devId (s : State) (d : Nat) (ids : List Nat) : (s.packet d ids).devId = s.devId := rfl
@[simp] theorem State.packet_incarnation (s : State) (d : Nat) (ids : List Nat) : (s.packet d ids).incarnation = s.incarnation := rfl
@[simp] theorem State.packet_bootstat (s : State) (d : Nat) (ids : List Nat) : (s.packet d ids).bootstat = s.bootstat := rfl
@[simp] theorem State.packet_mr (s : State) (d : Nat) (ids : List Nat) : (s.packet d ids).mr = s.mr := rfl
@[simp] theorem State.packet_mem (s : State) (d : Nat) (ids : List Nat) : (s.packet d ids).mem = s.mem := rfl
@[simp] theorem State.packet_scratch (s : State) (d : Nat) (ids : List Nat) : (s.packet d ids).scratch = s.scratch := rfl
@[simp] theorem State.packet_poisonLines (s : State) (d : Nat) (ids : List Nat) : (s.packet d ids).poisonLines = s.poisonLines := rfl
@[simp] theorem State.packet_poisonWords (s : State) (d : Nat) (ids : List Nat) : (s.packet d ids).poisonWords = s.poisonWords := rfl
@[simp] theorem State.packet_poisonScratch (s : State) (d : Nat) (ids : List Nat) : (s.packet d ids).poisonScratch = s.poisonScratch := rfl
@[simp] theorem State.packet_exps (s : State) (d : Nat) (ids : List Nat) : (s.packet d ids).exps = s.exps := rfl
@[simp] theorem State.packet_hz (s : State) (d : Nat) (ids : List Nat) : (s.packet d ids).hz = s.hz := rfl
@[simp] theorem State.packet_remoteExps (s : State) (d : Nat) (ids : List Nat) : (s.packet d ids).remoteExps = s.remoteExps := rfl
@[simp] theorem State.packet_holds (s : State) (d : Nat) (ids : List Nat) : (s.packet d ids).holds = s.holds := rfl
@[simp] theorem State.packet_reqs (s : State) (d : Nat) (ids : List Nat) : (s.packet d ids).reqs = s.reqs := rfl
@[simp] theorem State.packet_lineBuf (s : State) (d : Nat) (ids : List Nat) : (s.packet d ids).lineBuf = s.lineBuf := rfl
@[simp] theorem State.packet_evicted (s : State) (d : Nat) (ids : List Nat) : (s.packet d ids).evicted = s.evicted := rfl
@[simp] theorem State.packet_nextReq (s : State) (d : Nat) (ids : List Nat) : (s.packet d ids).nextReq = s.nextReq := rfl
@[simp] theorem State.packet_tlb1 (s : State) (d : Nat) (ids : List Nat) : (s.packet d ids).tlb1 = s.tlb1 := rfl
@[simp] theorem State.packet_tlb2 (s : State) (d : Nat) (ids : List Nat) : (s.packet d ids).tlb2 = s.tlb2 := rfl
@[simp] theorem State.packet_missQ (s : State) (d : Nat) (ids : List Nat) : (s.packet d ids).missQ = s.missQ := rfl
@[simp] theorem State.packet_l1 (s : State) (d : Nat) (ids : List Nat) : (s.packet d ids).l1 = s.l1 := rfl
@[simp] theorem State.packet_predictor (s : State) (d : Nat) (ids : List Nat) : (s.packet d ids).predictor = s.predictor := rfl
@[simp] theorem State.packet_lastLease (s : State) (d : Nat) (ids : List Nat) : (s.packet d ids).lastLease = s.lastLease := rfl
@[simp] theorem State.packet_seen (s : State) (d : Nat) (ids : List Nat) : (s.packet d ids).seen = s.seen := rfl
@[simp] theorem State.packet_slices (s : State) (d : Nat) (ids : List Nat) : (s.packet d ids).slices = s.slices := rfl
@[simp] theorem State.packet_fotBase (s : State) (d : Nat) (ids : List Nat) : (s.packet d ids).fotBase = s.fotBase := rfl
@[simp] theorem State.packet_zeroing (s : State) (d : Nat) (ids : List Nat) : (s.packet d ids).zeroing = s.zeroing := rfl
@[simp] theorem State.packet_partitions (s : State) (d : Nat) (ids : List Nat) : (s.packet d ids).partitions = s.partitions := rfl
@[simp] theorem State.packet_queues (s : State) (d : Nat) (ids : List Nat) : (s.packet d ids).queues = s.queues := rfl
@[simp] theorem State.packet_launches (s : State) (d : Nat) (ids : List Nat) : (s.packet d ids).launches = s.launches := rfl
@[simp] theorem State.packet_nextLid (s : State) (d : Nat) (ids : List Nat) : (s.packet d ids).nextLid = s.nextLid := rfl
@[simp] theorem State.packet_doorbells (s : State) (d : Nat) (ids : List Nat) : (s.packet d ids).doorbells = s.doorbells := rfl
@[simp] theorem State.packet_blocks (s : State) (d : Nat) (ids : List Nat) : (s.packet d ids).blocks = s.blocks := rfl
@[simp] theorem State.packet_nextBlock (s : State) (d : Nat) (ids : List Nat) : (s.packet d ids).nextBlock = s.nextBlock := rfl
@[simp] theorem State.packet_gangs (s : State) (d : Nat) (ids : List Nat) : (s.packet d ids).gangs = s.gangs := rfl
@[simp] theorem State.packet_ctlSr (s : State) (d : Nat) (ids : List Nat) : (s.packet d ids).ctlSr = s.ctlSr := rfl
@[simp] theorem State.packet_fibres (s : State) (d : Nat) (ids : List Nat) : (s.packet d ids).fibres = s.fibres := rfl
@[simp] theorem State.packet_pipes (s : State) (d : Nat) (ids : List Nat) : (s.packet d ids).pipes = s.pipes := rfl
@[simp] theorem State.packet_cores (s : State) (d : Nat) (ids : List Nat) : (s.packet d ids).cores = s.cores := rfl
@[simp] theorem State.packet_carriages (s : State) (d : Nat) (ids : List Nat) : (s.packet d ids).carriages = s.carriages := rfl
@[simp] theorem State.packet_dies (s : State) (d : Nat) (ids : List Nat) : (s.packet d ids).dies = s.dies := rfl
@[simp] theorem State.packet_shadowUsed (s : State) (d : Nat) (ids : List Nat) : (s.packet d ids).shadowUsed = s.shadowUsed := rfl
@[simp] theorem State.packet_stackTab (s : State) (d : Nat) (ids : List Nat) : (s.packet d ids).stackTab = s.stackTab := rfl
@[simp] theorem State.packet_banks (s : State) (d : Nat) (ids : List Nat) : (s.packet d ids).banks = s.banks := rfl
@[simp] theorem State.packet_bankDone (s : State) (d : Nat) (ids : List Nat) : (s.packet d ids).bankDone = s.bankDone := rfl
@[simp] theorem State.packet_importTab (s : State) (d : Nat) (ids : List Nat) : (s.packet d ids).importTab = s.importTab := rfl
@[simp] theorem State.packet_routeTab (s : State) (d : Nat) (ids : List Nat) : (s.packet d ids).routeTab = s.routeTab := rfl
@[simp] theorem State.packet_mcast (s : State) (d : Nat) (ids : List Nat) : (s.packet d ids).mcast = s.mcast := rfl
@[simp] theorem State.packet_peers (s : State) (d : Nat) (ids : List Nat) : (s.packet d ids).peers = s.peers := rfl
@[simp] theorem State.packet_expected (s : State) (d : Nat) (ids : List Nat) : (s.packet d ids).expected = s.expected := rfl
@[simp] theorem State.packet_homeLeases (s : State) (d : Nat) (ids : List Nat) : (s.packet d ids).homeLeases = s.homeLeases := rfl
@[simp] theorem State.packet_heldLeases (s : State) (d : Nat) (ids : List Nat) : (s.packet d ids).heldLeases = s.heldLeases := rfl
@[simp] theorem State.packet_transit (s : State) (d : Nat) (ids : List Nat) : (s.packet d ids).transit = s.transit := rfl
@[simp] theorem State.packet_failedPorts (s : State) (d : Nat) (ids : List Nat) : (s.packet d ids).failedPorts = s.failedPorts := rfl
@[simp] theorem State.packet_links (s : State) (d : Nat) (ids : List Nat) : (s.packet d ids).links = s.links := rfl
@[simp] theorem State.packet_outbox (s : State) (d : Nat) (ids : List Nat) : (s.packet d ids).outbox = s.outbox := rfl
@[simp] theorem State.packet_backlog (s : State) (d : Nat) (ids : List Nat) : (s.packet d ids).backlog = s.backlog := rfl
@[simp] theorem State.packet_mailboxes (s : State) (d : Nat) (ids : List Nat) : (s.packet d ids).mailboxes = s.mailboxes := rfl
@[simp] theorem State.packet_eth (s : State) (d : Nat) (ids : List Nat) : (s.packet d ids).eth = s.eth := rfl
@[simp] theorem State.packet_ethPorts (s : State) (d : Nat) (ids : List Nat) : (s.packet d ids).ethPorts = s.ethPorts := rfl
@[simp] theorem State.packet_faultReports (s : State) (d : Nat) (ids : List Nat) : (s.packet d ids).faultReports = s.faultReports := rfl
@[simp] theorem State.packet_errs (s : State) (d : Nat) (ids : List Nat) : (s.packet d ids).errs = s.errs := rfl
@[simp] theorem State.packet_hostData (s : State) (d : Nat) (ids : List Nat) : (s.packet d ids).hostData = s.hostData := rfl
@[simp] theorem State.packet_hostPoison (s : State) (d : Nat) (ids : List Nat) : (s.packet d ids).hostPoison = s.hostPoison := rfl
@[simp] theorem State.packet_veil (s : State) (d : Nat) (ids : List Nat) : (s.packet d ids).veil = s.veil := rfl
@[simp] theorem State.packet_agenda (s : State) (d : Nat) (ids : List Nat) : (s.packet d ids).agenda = s.agenda := rfl
@[simp] theorem State.packet_agent (s : State) (d : Nat) (ids : List Nat) : (s.packet d ids).agent = s.agent := rfl
@[simp] theorem State.packet_args (s : State) (d : Nat) (ids : List Nat) : (s.packet d ids).args = s.args := rfl

/-! ### updLaunch -/

@[simp] theorem State.updLaunch_clock (s : State) (l : Nat) (g : Launch → Launch) : (s.updLaunch l g).clock = s.clock := by
  unfold State.updLaunch; split <;> rfl
@[simp] theorem State.updLaunch_devId (s : State) (l : Nat) (g : Launch → Launch) : (s.updLaunch l g).devId = s.devId := by
  unfold State.updLaunch; split <;> rfl
@[simp] theorem State.updLaunch_incarnation (s : State) (l : Nat) (g : Launch → Launch) : (s.updLaunch l g).incarnation = s.incarnation := by
  unfold State.updLaunch; split <;> rfl
@[simp] theorem State.updLaunch_bootstat (s : State) (l : Nat) (g : Launch → Launch) : (s.updLaunch l g).bootstat = s.bootstat := by
  unfold State.updLaunch; split <;> rfl
@[simp] theorem State.updLaunch_mr (s : State) (l : Nat) (g : Launch → Launch) : (s.updLaunch l g).mr = s.mr := by
  unfold State.updLaunch; split <;> rfl
@[simp] theorem State.updLaunch_mem (s : State) (l : Nat) (g : Launch → Launch) : (s.updLaunch l g).mem = s.mem := by
  unfold State.updLaunch; split <;> rfl
@[simp] theorem State.updLaunch_scratch (s : State) (l : Nat) (g : Launch → Launch) : (s.updLaunch l g).scratch = s.scratch := by
  unfold State.updLaunch; split <;> rfl
@[simp] theorem State.updLaunch_poisonLines (s : State) (l : Nat) (g : Launch → Launch) : (s.updLaunch l g).poisonLines = s.poisonLines := by
  unfold State.updLaunch; split <;> rfl
@[simp] theorem State.updLaunch_poisonWords (s : State) (l : Nat) (g : Launch → Launch) : (s.updLaunch l g).poisonWords = s.poisonWords := by
  unfold State.updLaunch; split <;> rfl
@[simp] theorem State.updLaunch_poisonScratch (s : State) (l : Nat) (g : Launch → Launch) : (s.updLaunch l g).poisonScratch = s.poisonScratch := by
  unfold State.updLaunch; split <;> rfl
@[simp] theorem State.updLaunch_exps (s : State) (l : Nat) (g : Launch → Launch) : (s.updLaunch l g).exps = s.exps := by
  unfold State.updLaunch; split <;> rfl
@[simp] theorem State.updLaunch_hz (s : State) (l : Nat) (g : Launch → Launch) : (s.updLaunch l g).hz = s.hz := by
  unfold State.updLaunch; split <;> rfl
@[simp] theorem State.updLaunch_remoteExps (s : State) (l : Nat) (g : Launch → Launch) : (s.updLaunch l g).remoteExps = s.remoteExps := by
  unfold State.updLaunch; split <;> rfl
@[simp] theorem State.updLaunch_holds (s : State) (l : Nat) (g : Launch → Launch) : (s.updLaunch l g).holds = s.holds := by
  unfold State.updLaunch; split <;> rfl
@[simp] theorem State.updLaunch_reqs (s : State) (l : Nat) (g : Launch → Launch) : (s.updLaunch l g).reqs = s.reqs := by
  unfold State.updLaunch; split <;> rfl
@[simp] theorem State.updLaunch_lineBuf (s : State) (l : Nat) (g : Launch → Launch) : (s.updLaunch l g).lineBuf = s.lineBuf := by
  unfold State.updLaunch; split <;> rfl
@[simp] theorem State.updLaunch_evicted (s : State) (l : Nat) (g : Launch → Launch) : (s.updLaunch l g).evicted = s.evicted := by
  unfold State.updLaunch; split <;> rfl
@[simp] theorem State.updLaunch_nextReq (s : State) (l : Nat) (g : Launch → Launch) : (s.updLaunch l g).nextReq = s.nextReq := by
  unfold State.updLaunch; split <;> rfl
@[simp] theorem State.updLaunch_tlb1 (s : State) (l : Nat) (g : Launch → Launch) : (s.updLaunch l g).tlb1 = s.tlb1 := by
  unfold State.updLaunch; split <;> rfl
@[simp] theorem State.updLaunch_tlb2 (s : State) (l : Nat) (g : Launch → Launch) : (s.updLaunch l g).tlb2 = s.tlb2 := by
  unfold State.updLaunch; split <;> rfl
@[simp] theorem State.updLaunch_missQ (s : State) (l : Nat) (g : Launch → Launch) : (s.updLaunch l g).missQ = s.missQ := by
  unfold State.updLaunch; split <;> rfl
@[simp] theorem State.updLaunch_l1 (s : State) (l : Nat) (g : Launch → Launch) : (s.updLaunch l g).l1 = s.l1 := by
  unfold State.updLaunch; split <;> rfl
@[simp] theorem State.updLaunch_predictor (s : State) (l : Nat) (g : Launch → Launch) : (s.updLaunch l g).predictor = s.predictor := by
  unfold State.updLaunch; split <;> rfl
@[simp] theorem State.updLaunch_lastLease (s : State) (l : Nat) (g : Launch → Launch) : (s.updLaunch l g).lastLease = s.lastLease := by
  unfold State.updLaunch; split <;> rfl
@[simp] theorem State.updLaunch_seen (s : State) (l : Nat) (g : Launch → Launch) : (s.updLaunch l g).seen = s.seen := by
  unfold State.updLaunch; split <;> rfl
@[simp] theorem State.updLaunch_slices (s : State) (l : Nat) (g : Launch → Launch) : (s.updLaunch l g).slices = s.slices := by
  unfold State.updLaunch; split <;> rfl
@[simp] theorem State.updLaunch_fotBase (s : State) (l : Nat) (g : Launch → Launch) : (s.updLaunch l g).fotBase = s.fotBase := by
  unfold State.updLaunch; split <;> rfl
@[simp] theorem State.updLaunch_zeroing (s : State) (l : Nat) (g : Launch → Launch) : (s.updLaunch l g).zeroing = s.zeroing := by
  unfold State.updLaunch; split <;> rfl
@[simp] theorem State.updLaunch_partitions (s : State) (l : Nat) (g : Launch → Launch) : (s.updLaunch l g).partitions = s.partitions := by
  unfold State.updLaunch; split <;> rfl
@[simp] theorem State.updLaunch_queues (s : State) (l : Nat) (g : Launch → Launch) : (s.updLaunch l g).queues = s.queues := by
  unfold State.updLaunch; split <;> rfl
@[simp] theorem State.updLaunch_nextLid (s : State) (l : Nat) (g : Launch → Launch) : (s.updLaunch l g).nextLid = s.nextLid := by
  unfold State.updLaunch; split <;> rfl
@[simp] theorem State.updLaunch_doorbells (s : State) (l : Nat) (g : Launch → Launch) : (s.updLaunch l g).doorbells = s.doorbells := by
  unfold State.updLaunch; split <;> rfl
@[simp] theorem State.updLaunch_blocks (s : State) (l : Nat) (g : Launch → Launch) : (s.updLaunch l g).blocks = s.blocks := by
  unfold State.updLaunch; split <;> rfl
@[simp] theorem State.updLaunch_nextBlock (s : State) (l : Nat) (g : Launch → Launch) : (s.updLaunch l g).nextBlock = s.nextBlock := by
  unfold State.updLaunch; split <;> rfl
@[simp] theorem State.updLaunch_gangs (s : State) (l : Nat) (g : Launch → Launch) : (s.updLaunch l g).gangs = s.gangs := by
  unfold State.updLaunch; split <;> rfl
@[simp] theorem State.updLaunch_ctlSr (s : State) (l : Nat) (g : Launch → Launch) : (s.updLaunch l g).ctlSr = s.ctlSr := by
  unfold State.updLaunch; split <;> rfl
@[simp] theorem State.updLaunch_fibres (s : State) (l : Nat) (g : Launch → Launch) : (s.updLaunch l g).fibres = s.fibres := by
  unfold State.updLaunch; split <;> rfl
@[simp] theorem State.updLaunch_pipes (s : State) (l : Nat) (g : Launch → Launch) : (s.updLaunch l g).pipes = s.pipes := by
  unfold State.updLaunch; split <;> rfl
@[simp] theorem State.updLaunch_cores (s : State) (l : Nat) (g : Launch → Launch) : (s.updLaunch l g).cores = s.cores := by
  unfold State.updLaunch; split <;> rfl
@[simp] theorem State.updLaunch_carriages (s : State) (l : Nat) (g : Launch → Launch) : (s.updLaunch l g).carriages = s.carriages := by
  unfold State.updLaunch; split <;> rfl
@[simp] theorem State.updLaunch_dies (s : State) (l : Nat) (g : Launch → Launch) : (s.updLaunch l g).dies = s.dies := by
  unfold State.updLaunch; split <;> rfl
@[simp] theorem State.updLaunch_shadowUsed (s : State) (l : Nat) (g : Launch → Launch) : (s.updLaunch l g).shadowUsed = s.shadowUsed := by
  unfold State.updLaunch; split <;> rfl
@[simp] theorem State.updLaunch_stackTab (s : State) (l : Nat) (g : Launch → Launch) : (s.updLaunch l g).stackTab = s.stackTab := by
  unfold State.updLaunch; split <;> rfl
@[simp] theorem State.updLaunch_banks (s : State) (l : Nat) (g : Launch → Launch) : (s.updLaunch l g).banks = s.banks := by
  unfold State.updLaunch; split <;> rfl
@[simp] theorem State.updLaunch_bankDone (s : State) (l : Nat) (g : Launch → Launch) : (s.updLaunch l g).bankDone = s.bankDone := by
  unfold State.updLaunch; split <;> rfl
@[simp] theorem State.updLaunch_importTab (s : State) (l : Nat) (g : Launch → Launch) : (s.updLaunch l g).importTab = s.importTab := by
  unfold State.updLaunch; split <;> rfl
@[simp] theorem State.updLaunch_routeTab (s : State) (l : Nat) (g : Launch → Launch) : (s.updLaunch l g).routeTab = s.routeTab := by
  unfold State.updLaunch; split <;> rfl
@[simp] theorem State.updLaunch_mcast (s : State) (l : Nat) (g : Launch → Launch) : (s.updLaunch l g).mcast = s.mcast := by
  unfold State.updLaunch; split <;> rfl
@[simp] theorem State.updLaunch_peers (s : State) (l : Nat) (g : Launch → Launch) : (s.updLaunch l g).peers = s.peers := by
  unfold State.updLaunch; split <;> rfl
@[simp] theorem State.updLaunch_flows (s : State) (l : Nat) (g : Launch → Launch) : (s.updLaunch l g).flows = s.flows := by
  unfold State.updLaunch; split <;> rfl
@[simp] theorem State.updLaunch_expected (s : State) (l : Nat) (g : Launch → Launch) : (s.updLaunch l g).expected = s.expected := by
  unfold State.updLaunch; split <;> rfl
@[simp] theorem State.updLaunch_homeLeases (s : State) (l : Nat) (g : Launch → Launch) : (s.updLaunch l g).homeLeases = s.homeLeases := by
  unfold State.updLaunch; split <;> rfl
@[simp] theorem State.updLaunch_heldLeases (s : State) (l : Nat) (g : Launch → Launch) : (s.updLaunch l g).heldLeases = s.heldLeases := by
  unfold State.updLaunch; split <;> rfl
@[simp] theorem State.updLaunch_transit (s : State) (l : Nat) (g : Launch → Launch) : (s.updLaunch l g).transit = s.transit := by
  unfold State.updLaunch; split <;> rfl
@[simp] theorem State.updLaunch_failedPorts (s : State) (l : Nat) (g : Launch → Launch) : (s.updLaunch l g).failedPorts = s.failedPorts := by
  unfold State.updLaunch; split <;> rfl
@[simp] theorem State.updLaunch_links (s : State) (l : Nat) (g : Launch → Launch) : (s.updLaunch l g).links = s.links := by
  unfold State.updLaunch; split <;> rfl
@[simp] theorem State.updLaunch_outbox (s : State) (l : Nat) (g : Launch → Launch) : (s.updLaunch l g).outbox = s.outbox := by
  unfold State.updLaunch; split <;> rfl
@[simp] theorem State.updLaunch_backlog (s : State) (l : Nat) (g : Launch → Launch) : (s.updLaunch l g).backlog = s.backlog := by
  unfold State.updLaunch; split <;> rfl
@[simp] theorem State.updLaunch_mailboxes (s : State) (l : Nat) (g : Launch → Launch) : (s.updLaunch l g).mailboxes = s.mailboxes := by
  unfold State.updLaunch; split <;> rfl
@[simp] theorem State.updLaunch_eth (s : State) (l : Nat) (g : Launch → Launch) : (s.updLaunch l g).eth = s.eth := by
  unfold State.updLaunch; split <;> rfl
@[simp] theorem State.updLaunch_ethPorts (s : State) (l : Nat) (g : Launch → Launch) : (s.updLaunch l g).ethPorts = s.ethPorts := by
  unfold State.updLaunch; split <;> rfl
@[simp] theorem State.updLaunch_faultReports (s : State) (l : Nat) (g : Launch → Launch) : (s.updLaunch l g).faultReports = s.faultReports := by
  unfold State.updLaunch; split <;> rfl
@[simp] theorem State.updLaunch_errs (s : State) (l : Nat) (g : Launch → Launch) : (s.updLaunch l g).errs = s.errs := by
  unfold State.updLaunch; split <;> rfl
@[simp] theorem State.updLaunch_hostData (s : State) (l : Nat) (g : Launch → Launch) : (s.updLaunch l g).hostData = s.hostData := by
  unfold State.updLaunch; split <;> rfl
@[simp] theorem State.updLaunch_hostPoison (s : State) (l : Nat) (g : Launch → Launch) : (s.updLaunch l g).hostPoison = s.hostPoison := by
  unfold State.updLaunch; split <;> rfl
@[simp] theorem State.updLaunch_veil (s : State) (l : Nat) (g : Launch → Launch) : (s.updLaunch l g).veil = s.veil := by
  unfold State.updLaunch; split <;> rfl
@[simp] theorem State.updLaunch_agenda (s : State) (l : Nat) (g : Launch → Launch) : (s.updLaunch l g).agenda = s.agenda := by
  unfold State.updLaunch; split <;> rfl
@[simp] theorem State.updLaunch_agent (s : State) (l : Nat) (g : Launch → Launch) : (s.updLaunch l g).agent = s.agent := by
  unfold State.updLaunch; split <;> rfl
@[simp] theorem State.updLaunch_args (s : State) (l : Nat) (g : Launch → Launch) : (s.updLaunch l g).args = s.args := by
  unfold State.updLaunch; split <;> rfl

/-! ### Named records -/

@[simp] theorem State.setFib_block (s : State) (k : FKey) (f : Fibre) (i : Nat) : (s.setFib k f).block i = s.block i := rfl
@[simp] theorem State.setFib_gang (s : State) (k : FKey) (f : Fibre) (i : Nat × Nat) : (s.setFib k f).gang i = s.gang i := rfl
@[simp] theorem State.setFib_core (s : State) (k : FKey) (f : Fibre) (i : Nat) : (s.setFib k f).core i = s.core i := rfl
@[simp] theorem State.setFib_die (s : State) (k : FKey) (f : Fibre) (i : Nat) : (s.setFib k f).die i = s.die i := rfl
@[simp] theorem State.setFib_part (s : State) (k : FKey) (f : Fibre) (i : Nat) : (s.setFib k f).part i = s.part i := rfl
@[simp] theorem State.setFib_slice (s : State) (k : FKey) (f : Fibre) (i : Nat) : (s.setFib k f).slice i = s.slice i := rfl
@[simp] theorem State.setFib_stack (s : State) (k : FKey) (f : Fibre) (i : Nat) : (s.setFib k f).stack i = s.stack i := rfl
@[simp] theorem State.setFib_launchAt (s : State) (k : FKey) (f : Fibre) (i : Nat) : (s.setFib k f).launch? i = s.launch? i := rfl
@[simp] theorem State.setFib_queue (s : State) (k : FKey) (f : Fibre) (c0 q0 : Nat) : (s.setFib k f).queue c0 q0 = s.queue c0 q0 := rfl
@[simp] theorem State.setFib_ctx (s : State) (k : FKey) (f : Fibre) (c0 t0 : Nat) : (s.setFib k f).ctx c0 t0 = s.ctx c0 t0 := rfl
@[simp] theorem State.updFib_block (s : State) (k : FKey) (g : Fibre → Fibre) (i : Nat) : (s.updFib k g).block i = s.block i := rfl
@[simp] theorem State.updFib_gang (s : State) (k : FKey) (g : Fibre → Fibre) (i : Nat × Nat) : (s.updFib k g).gang i = s.gang i := rfl
@[simp] theorem State.updFib_core (s : State) (k : FKey) (g : Fibre → Fibre) (i : Nat) : (s.updFib k g).core i = s.core i := rfl
@[simp] theorem State.updFib_die (s : State) (k : FKey) (g : Fibre → Fibre) (i : Nat) : (s.updFib k g).die i = s.die i := rfl
@[simp] theorem State.updFib_part (s : State) (k : FKey) (g : Fibre → Fibre) (i : Nat) : (s.updFib k g).part i = s.part i := rfl
@[simp] theorem State.updFib_slice (s : State) (k : FKey) (g : Fibre → Fibre) (i : Nat) : (s.updFib k g).slice i = s.slice i := rfl
@[simp] theorem State.updFib_stack (s : State) (k : FKey) (g : Fibre → Fibre) (i : Nat) : (s.updFib k g).stack i = s.stack i := rfl
@[simp] theorem State.updFib_launchAt (s : State) (k : FKey) (g : Fibre → Fibre) (i : Nat) : (s.updFib k g).launch? i = s.launch? i := rfl
@[simp] theorem State.updFib_queue (s : State) (k : FKey) (g : Fibre → Fibre) (c0 q0 : Nat) : (s.updFib k g).queue c0 q0 = s.queue c0 q0 := rfl
@[simp] theorem State.updFib_ctx (s : State) (k : FKey) (g : Fibre → Fibre) (c0 t0 : Nat) : (s.updFib k g).ctx c0 t0 = s.ctx c0 t0 := rfl
@[simp] theorem State.updBlock_fib (s : State) (b : Nat) (g : Block → Block) (i : FKey) : (s.updBlock b g).fib i = s.fib i := rfl
@[simp] theorem State.updBlock_gang (s : State) (b : Nat) (g : Block → Block) (i : Nat × Nat) : (s.updBlock b g).gang i = s.gang i := rfl
@[simp] theorem State.updBlock_core (s : State) (b : Nat) (g : Block → Block) (i : Nat) : (s.updBlock b g).core i = s.core i := rfl
@[simp] theorem State.updBlock_die (s : State) (b : Nat) (g : Block → Block) (i : Nat) : (s.updBlock b g).die i = s.die i := rfl
@[simp] theorem State.updBlock_part (s : State) (b : Nat) (g : Block → Block) (i : Nat) : (s.updBlock b g).part i = s.part i := rfl
@[simp] theorem State.updBlock_slice (s : State) (b : Nat) (g : Block → Block) (i : Nat) : (s.updBlock b g).slice i = s.slice i := rfl
@[simp] theorem State.updBlock_stack (s : State) (b : Nat) (g : Block → Block) (i : Nat) : (s.updBlock b g).stack i = s.stack i := rfl
@[simp] theorem State.updBlock_launchAt (s : State) (b : Nat) (g : Block → Block) (i : Nat) : (s.updBlock b g).launch? i = s.launch? i := rfl
@[simp] theorem State.updBlock_queue (s : State) (b : Nat) (g : Block → Block) (c0 q0 : Nat) : (s.updBlock b g).queue c0 q0 = s.queue c0 q0 := rfl
@[simp] theorem State.updBlock_ctx (s : State) (b : Nat) (g : Block → Block) (c0 t0 : Nat) : (s.updBlock b g).ctx c0 t0 = s.ctx c0 t0 := rfl
@[simp] theorem State.updGang_fib (s : State) (g : Nat × Nat) (f : Gang → Gang) (i : FKey) : (s.updGang g f).fib i = s.fib i := rfl
@[simp] theorem State.updGang_block (s : State) (g : Nat × Nat) (f : Gang → Gang) (i : Nat) : (s.updGang g f).block i = s.block i := rfl
@[simp] theorem State.updGang_core (s : State) (g : Nat × Nat) (f : Gang → Gang) (i : Nat) : (s.updGang g f).core i = s.core i := rfl
@[simp] theorem State.updGang_die (s : State) (g : Nat × Nat) (f : Gang → Gang) (i : Nat) : (s.updGang g f).die i = s.die i := rfl
@[simp] theorem State.updGang_part (s : State) (g : Nat × Nat) (f : Gang → Gang) (i : Nat) : (s.updGang g f).part i = s.part i := rfl
@[simp] theorem State.updGang_slice (s : State) (g : Nat × Nat) (f : Gang → Gang) (i : Nat) : (s.updGang g f).slice i = s.slice i := rfl
@[simp] theorem State.updGang_stack (s : State) (g : Nat × Nat) (f : Gang → Gang) (i : Nat) : (s.updGang g f).stack i = s.stack i := rfl
@[simp] theorem State.updGang_launchAt (s : State) (g : Nat × Nat) (f : Gang → Gang) (i : Nat) : (s.updGang g f).launch? i = s.launch? i := rfl
@[simp] theorem State.updGang_queue (s : State) (g : Nat × Nat) (f : Gang → Gang) (c0 q0 : Nat) : (s.updGang g f).queue c0 q0 = s.queue c0 q0 := rfl
@[simp] theorem State.updGang_ctx (s : State) (g : Nat × Nat) (f : Gang → Gang) (c0 t0 : Nat) : (s.updGang g f).ctx c0 t0 = s.ctx c0 t0 := rfl
@[simp] theorem State.updCore_fib (s : State) (c : Nat) (f : Core → Core) (i : FKey) : (s.updCore c f).fib i = s.fib i := rfl
@[simp] theorem State.updCore_block (s : State) (c : Nat) (f : Core → Core) (i : Nat) : (s.updCore c f).block i = s.block i := rfl
@[simp] theorem State.updCore_gang (s : State) (c : Nat) (f : Core → Core) (i : Nat × Nat) : (s.updCore c f).gang i = s.gang i := rfl
@[simp] theorem State.updCore_die (s : State) (c : Nat) (f : Core → Core) (i : Nat) : (s.updCore c f).die i = s.die i := rfl
@[simp] theorem State.updCore_part (s : State) (c : Nat) (f : Core → Core) (i : Nat) : (s.updCore c f).part i = s.part i := rfl
@[simp] theorem State.updCore_slice (s : State) (c : Nat) (f : Core → Core) (i : Nat) : (s.updCore c f).slice i = s.slice i := rfl
@[simp] theorem State.updCore_stack (s : State) (c : Nat) (f : Core → Core) (i : Nat) : (s.updCore c f).stack i = s.stack i := rfl
@[simp] theorem State.updCore_launchAt (s : State) (c : Nat) (f : Core → Core) (i : Nat) : (s.updCore c f).launch? i = s.launch? i := rfl
@[simp] theorem State.updDie_fib (s : State) (d : Nat) (f : Die → Die) (i : FKey) : (s.updDie d f).fib i = s.fib i := rfl
@[simp] theorem State.updDie_block (s : State) (d : Nat) (f : Die → Die) (i : Nat) : (s.updDie d f).block i = s.block i := rfl
@[simp] theorem State.updDie_gang (s : State) (d : Nat) (f : Die → Die) (i : Nat × Nat) : (s.updDie d f).gang i = s.gang i := rfl
@[simp] theorem State.updDie_core (s : State) (d : Nat) (f : Die → Die) (i : Nat) : (s.updDie d f).core i = s.core i := rfl
@[simp] theorem State.updDie_part (s : State) (d : Nat) (f : Die → Die) (i : Nat) : (s.updDie d f).part i = s.part i := rfl
@[simp] theorem State.updDie_slice (s : State) (d : Nat) (f : Die → Die) (i : Nat) : (s.updDie d f).slice i = s.slice i := rfl
@[simp] theorem State.updDie_stack (s : State) (d : Nat) (f : Die → Die) (i : Nat) : (s.updDie d f).stack i = s.stack i := rfl
@[simp] theorem State.updDie_launchAt (s : State) (d : Nat) (f : Die → Die) (i : Nat) : (s.updDie d f).launch? i = s.launch? i := rfl
@[simp] theorem State.updDie_queue (s : State) (d : Nat) (f : Die → Die) (c0 q0 : Nat) : (s.updDie d f).queue c0 q0 = s.queue c0 q0 := rfl
@[simp] theorem State.updDie_ctx (s : State) (d : Nat) (f : Die → Die) (c0 t0 : Nat) : (s.updDie d f).ctx c0 t0 = s.ctx c0 t0 := rfl
@[simp] theorem State.updPart_fib (s : State) (p : Nat) (f : Partition → Partition) (i : FKey) : (s.updPart p f).fib i = s.fib i := rfl
@[simp] theorem State.updPart_block (s : State) (p : Nat) (f : Partition → Partition) (i : Nat) : (s.updPart p f).block i = s.block i := rfl
@[simp] theorem State.updPart_gang (s : State) (p : Nat) (f : Partition → Partition) (i : Nat × Nat) : (s.updPart p f).gang i = s.gang i := rfl
@[simp] theorem State.updPart_core (s : State) (p : Nat) (f : Partition → Partition) (i : Nat) : (s.updPart p f).core i = s.core i := rfl
@[simp] theorem State.updPart_die (s : State) (p : Nat) (f : Partition → Partition) (i : Nat) : (s.updPart p f).die i = s.die i := rfl
@[simp] theorem State.updPart_slice (s : State) (p : Nat) (f : Partition → Partition) (i : Nat) : (s.updPart p f).slice i = s.slice i := rfl
@[simp] theorem State.updPart_stack (s : State) (p : Nat) (f : Partition → Partition) (i : Nat) : (s.updPart p f).stack i = s.stack i := rfl
@[simp] theorem State.updPart_launchAt (s : State) (p : Nat) (f : Partition → Partition) (i : Nat) : (s.updPart p f).launch? i = s.launch? i := rfl
@[simp] theorem State.updPart_queue (s : State) (p : Nat) (f : Partition → Partition) (c0 q0 : Nat) : (s.updPart p f).queue c0 q0 = s.queue c0 q0 := rfl
@[simp] theorem State.updPart_ctx (s : State) (p : Nat) (f : Partition → Partition) (c0 t0 : Nat) : (s.updPart p f).ctx c0 t0 = s.ctx c0 t0 := rfl
@[simp] theorem State.updSlice_fib (s : State) (n : Nat) (f : Slice → Slice) (i : FKey) : (s.updSlice n f).fib i = s.fib i := rfl
@[simp] theorem State.updSlice_block (s : State) (n : Nat) (f : Slice → Slice) (i : Nat) : (s.updSlice n f).block i = s.block i := rfl
@[simp] theorem State.updSlice_gang (s : State) (n : Nat) (f : Slice → Slice) (i : Nat × Nat) : (s.updSlice n f).gang i = s.gang i := rfl
@[simp] theorem State.updSlice_core (s : State) (n : Nat) (f : Slice → Slice) (i : Nat) : (s.updSlice n f).core i = s.core i := rfl
@[simp] theorem State.updSlice_die (s : State) (n : Nat) (f : Slice → Slice) (i : Nat) : (s.updSlice n f).die i = s.die i := rfl
@[simp] theorem State.updSlice_part (s : State) (n : Nat) (f : Slice → Slice) (i : Nat) : (s.updSlice n f).part i = s.part i := rfl
@[simp] theorem State.updSlice_stack (s : State) (n : Nat) (f : Slice → Slice) (i : Nat) : (s.updSlice n f).stack i = s.stack i := rfl
@[simp] theorem State.updSlice_launchAt (s : State) (n : Nat) (f : Slice → Slice) (i : Nat) : (s.updSlice n f).launch? i = s.launch? i := rfl
@[simp] theorem State.updSlice_queue (s : State) (n : Nat) (f : Slice → Slice) (c0 q0 : Nat) : (s.updSlice n f).queue c0 q0 = s.queue c0 q0 := rfl
@[simp] theorem State.updSlice_ctx (s : State) (n : Nat) (f : Slice → Slice) (c0 t0 : Nat) : (s.updSlice n f).ctx c0 t0 = s.ctx c0 t0 := rfl
@[simp] theorem State.updStack_fib (s : State) (n : Nat) (f : Stack → Stack) (i : FKey) : (s.updStack n f).fib i = s.fib i := rfl
@[simp] theorem State.updStack_block (s : State) (n : Nat) (f : Stack → Stack) (i : Nat) : (s.updStack n f).block i = s.block i := rfl
@[simp] theorem State.updStack_gang (s : State) (n : Nat) (f : Stack → Stack) (i : Nat × Nat) : (s.updStack n f).gang i = s.gang i := rfl
@[simp] theorem State.updStack_core (s : State) (n : Nat) (f : Stack → Stack) (i : Nat) : (s.updStack n f).core i = s.core i := rfl
@[simp] theorem State.updStack_die (s : State) (n : Nat) (f : Stack → Stack) (i : Nat) : (s.updStack n f).die i = s.die i := rfl
@[simp] theorem State.updStack_part (s : State) (n : Nat) (f : Stack → Stack) (i : Nat) : (s.updStack n f).part i = s.part i := rfl
@[simp] theorem State.updStack_slice (s : State) (n : Nat) (f : Stack → Stack) (i : Nat) : (s.updStack n f).slice i = s.slice i := rfl
@[simp] theorem State.updStack_launchAt (s : State) (n : Nat) (f : Stack → Stack) (i : Nat) : (s.updStack n f).launch? i = s.launch? i := rfl
@[simp] theorem State.updStack_queue (s : State) (n : Nat) (f : Stack → Stack) (c0 q0 : Nat) : (s.updStack n f).queue c0 q0 = s.queue c0 q0 := rfl
@[simp] theorem State.updStack_ctx (s : State) (n : Nat) (f : Stack → Stack) (c0 t0 : Nat) : (s.updStack n f).ctx c0 t0 = s.ctx c0 t0 := rfl
@[simp] theorem State.updQueue_fib (s : State) (c q : Nat) (f : Queue → Queue) (i : FKey) : (s.updQueue c q f).fib i = s.fib i := rfl
@[simp] theorem State.updQueue_block (s : State) (c q : Nat) (f : Queue → Queue) (i : Nat) : (s.updQueue c q f).block i = s.block i := rfl
@[simp] theorem State.updQueue_gang (s : State) (c q : Nat) (f : Queue → Queue) (i : Nat × Nat) : (s.updQueue c q f).gang i = s.gang i := rfl
@[simp] theorem State.updQueue_die (s : State) (c q : Nat) (f : Queue → Queue) (i : Nat) : (s.updQueue c q f).die i = s.die i := rfl
@[simp] theorem State.updQueue_part (s : State) (c q : Nat) (f : Queue → Queue) (i : Nat) : (s.updQueue c q f).part i = s.part i := rfl
@[simp] theorem State.updQueue_slice (s : State) (c q : Nat) (f : Queue → Queue) (i : Nat) : (s.updQueue c q f).slice i = s.slice i := rfl
@[simp] theorem State.updQueue_stack (s : State) (c q : Nat) (f : Queue → Queue) (i : Nat) : (s.updQueue c q f).stack i = s.stack i := rfl
@[simp] theorem State.updQueue_launchAt (s : State) (c q : Nat) (f : Queue → Queue) (i : Nat) : (s.updQueue c q f).launch? i = s.launch? i := rfl
@[simp] theorem State.updCtx_fib (s : State) (c t : Nat) (f : Ctx → Ctx) (i : FKey) : (s.updCtx c t f).fib i = s.fib i := rfl
@[simp] theorem State.updCtx_block (s : State) (c t : Nat) (f : Ctx → Ctx) (i : Nat) : (s.updCtx c t f).block i = s.block i := rfl
@[simp] theorem State.updCtx_gang (s : State) (c t : Nat) (f : Ctx → Ctx) (i : Nat × Nat) : (s.updCtx c t f).gang i = s.gang i := rfl
@[simp] theorem State.updCtx_die (s : State) (c t : Nat) (f : Ctx → Ctx) (i : Nat) : (s.updCtx c t f).die i = s.die i := rfl
@[simp] theorem State.updCtx_part (s : State) (c t : Nat) (f : Ctx → Ctx) (i : Nat) : (s.updCtx c t f).part i = s.part i := rfl
@[simp] theorem State.updCtx_slice (s : State) (c t : Nat) (f : Ctx → Ctx) (i : Nat) : (s.updCtx c t f).slice i = s.slice i := rfl
@[simp] theorem State.updCtx_stack (s : State) (c t : Nat) (f : Ctx → Ctx) (i : Nat) : (s.updCtx c t f).stack i = s.stack i := rfl
@[simp] theorem State.updCtx_launchAt (s : State) (c t : Nat) (f : Ctx → Ctx) (i : Nat) : (s.updCtx c t f).launch? i = s.launch? i := rfl
@[simp] theorem State.addReq_fib (s : State) (r : Req) (i : FKey) : (s.addReq r).fib i = s.fib i := rfl
@[simp] theorem State.addReq_block (s : State) (r : Req) (i : Nat) : (s.addReq r).block i = s.block i := rfl
@[simp] theorem State.addReq_gang (s : State) (r : Req) (i : Nat × Nat) : (s.addReq r).gang i = s.gang i := rfl
@[simp] theorem State.addReq_core (s : State) (r : Req) (i : Nat) : (s.addReq r).core i = s.core i := rfl
@[simp] theorem State.addReq_die (s : State) (r : Req) (i : Nat) : (s.addReq r).die i = s.die i := rfl
@[simp] theorem State.addReq_part (s : State) (r : Req) (i : Nat) : (s.addReq r).part i = s.part i := rfl
@[simp] theorem State.addReq_slice (s : State) (r : Req) (i : Nat) : (s.addReq r).slice i = s.slice i := rfl
@[simp] theorem State.addReq_stack (s : State) (r : Req) (i : Nat) : (s.addReq r).stack i = s.stack i := rfl
@[simp] theorem State.addReq_launchAt (s : State) (r : Req) (i : Nat) : (s.addReq r).launch? i = s.launch? i := rfl
@[simp] theorem State.addReq_queue (s : State) (r : Req) (c0 q0 : Nat) : (s.addReq r).queue c0 q0 = s.queue c0 q0 := rfl
@[simp] theorem State.addReq_ctx (s : State) (r : Req) (c0 t0 : Nat) : (s.addReq r).ctx c0 t0 = s.ctx c0 t0 := rfl
@[simp] theorem State.setReq_fib (s : State) (n : Nat) (f : Req → Req) (i : FKey) : (s.setReq n f).fib i = s.fib i := rfl
@[simp] theorem State.setReq_block (s : State) (n : Nat) (f : Req → Req) (i : Nat) : (s.setReq n f).block i = s.block i := rfl
@[simp] theorem State.setReq_gang (s : State) (n : Nat) (f : Req → Req) (i : Nat × Nat) : (s.setReq n f).gang i = s.gang i := rfl
@[simp] theorem State.setReq_core (s : State) (n : Nat) (f : Req → Req) (i : Nat) : (s.setReq n f).core i = s.core i := rfl
@[simp] theorem State.setReq_die (s : State) (n : Nat) (f : Req → Req) (i : Nat) : (s.setReq n f).die i = s.die i := rfl
@[simp] theorem State.setReq_part (s : State) (n : Nat) (f : Req → Req) (i : Nat) : (s.setReq n f).part i = s.part i := rfl
@[simp] theorem State.setReq_slice (s : State) (n : Nat) (f : Req → Req) (i : Nat) : (s.setReq n f).slice i = s.slice i := rfl
@[simp] theorem State.setReq_stack (s : State) (n : Nat) (f : Req → Req) (i : Nat) : (s.setReq n f).stack i = s.stack i := rfl
@[simp] theorem State.setReq_launchAt (s : State) (n : Nat) (f : Req → Req) (i : Nat) : (s.setReq n f).launch? i = s.launch? i := rfl
@[simp] theorem State.setReq_queue (s : State) (n : Nat) (f : Req → Req) (c0 q0 : Nat) : (s.setReq n f).queue c0 q0 = s.queue c0 q0 := rfl
@[simp] theorem State.setReq_ctx (s : State) (n : Nat) (f : Req → Req) (c0 t0 : Nat) : (s.setReq n f).ctx c0 t0 = s.ctx c0 t0 := rfl
@[simp] theorem State.dropReq_fib (s : State) (n : Nat) (i : FKey) : (s.dropReq n).fib i = s.fib i := rfl
@[simp] theorem State.dropReq_block (s : State) (n : Nat) (i : Nat) : (s.dropReq n).block i = s.block i := rfl
@[simp] theorem State.dropReq_gang (s : State) (n : Nat) (i : Nat × Nat) : (s.dropReq n).gang i = s.gang i := rfl
@[simp] theorem State.dropReq_core (s : State) (n : Nat) (i : Nat) : (s.dropReq n).core i = s.core i := rfl
@[simp] theorem State.dropReq_die (s : State) (n : Nat) (i : Nat) : (s.dropReq n).die i = s.die i := rfl
@[simp] theorem State.dropReq_part (s : State) (n : Nat) (i : Nat) : (s.dropReq n).part i = s.part i := rfl
@[simp] theorem State.dropReq_slice (s : State) (n : Nat) (i : Nat) : (s.dropReq n).slice i = s.slice i := rfl
@[simp] theorem State.dropReq_stack (s : State) (n : Nat) (i : Nat) : (s.dropReq n).stack i = s.stack i := rfl
@[simp] theorem State.dropReq_launchAt (s : State) (n : Nat) (i : Nat) : (s.dropReq n).launch? i = s.launch? i := rfl
@[simp] theorem State.dropReq_queue (s : State) (n : Nat) (c0 q0 : Nat) : (s.dropReq n).queue c0 q0 = s.queue c0 q0 := rfl
@[simp] theorem State.dropReq_ctx (s : State) (n : Nat) (c0 t0 : Nat) : (s.dropReq n).ctx c0 t0 = s.ctx c0 t0 := rfl
@[simp] theorem State.dropLines_fib (s : State) (ks : List FKey) (i : FKey) : (s.dropLines ks).fib i = s.fib i := rfl
@[simp] theorem State.dropLines_block (s : State) (ks : List FKey) (i : Nat) : (s.dropLines ks).block i = s.block i := rfl
@[simp] theorem State.dropLines_gang (s : State) (ks : List FKey) (i : Nat × Nat) : (s.dropLines ks).gang i = s.gang i := rfl
@[simp] theorem State.dropLines_core (s : State) (ks : List FKey) (i : Nat) : (s.dropLines ks).core i = s.core i := rfl
@[simp] theorem State.dropLines_die (s : State) (ks : List FKey) (i : Nat) : (s.dropLines ks).die i = s.die i := rfl
@[simp] theorem State.dropLines_part (s : State) (ks : List FKey) (i : Nat) : (s.dropLines ks).part i = s.part i := rfl
@[simp] theorem State.dropLines_slice (s : State) (ks : List FKey) (i : Nat) : (s.dropLines ks).slice i = s.slice i := rfl
@[simp] theorem State.dropLines_stack (s : State) (ks : List FKey) (i : Nat) : (s.dropLines ks).stack i = s.stack i := rfl
@[simp] theorem State.dropLines_launchAt (s : State) (ks : List FKey) (i : Nat) : (s.dropLines ks).launch? i = s.launch? i := rfl
@[simp] theorem State.dropLines_queue (s : State) (ks : List FKey) (c0 q0 : Nat) : (s.dropLines ks).queue c0 q0 = s.queue c0 q0 := rfl
@[simp] theorem State.dropLines_ctx (s : State) (ks : List FKey) (c0 t0 : Nat) : (s.dropLines ks).ctx c0 t0 = s.ctx c0 t0 := rfl
@[simp] theorem State.packet_fib (s : State) (d : Nat) (ids : List Nat) (i : FKey) : (s.packet d ids).fib i = s.fib i := rfl
@[simp] theorem State.packet_block (s : State) (d : Nat) (ids : List Nat) (i : Nat) : (s.packet d ids).block i = s.block i := rfl
@[simp] theorem State.packet_gang (s : State) (d : Nat) (ids : List Nat) (i : Nat × Nat) : (s.packet d ids).gang i = s.gang i := rfl
@[simp] theorem State.packet_core (s : State) (d : Nat) (ids : List Nat) (i : Nat) : (s.packet d ids).core i = s.core i := rfl
@[simp] theorem State.packet_die (s : State) (d : Nat) (ids : List Nat) (i : Nat) : (s.packet d ids).die i = s.die i := rfl
@[simp] theorem State.packet_part (s : State) (d : Nat) (ids : List Nat) (i : Nat) : (s.packet d ids).part i = s.part i := rfl
@[simp] theorem State.packet_slice (s : State) (d : Nat) (ids : List Nat) (i : Nat) : (s.packet d ids).slice i = s.slice i := rfl
@[simp] theorem State.packet_stack (s : State) (d : Nat) (ids : List Nat) (i : Nat) : (s.packet d ids).stack i = s.stack i := rfl
@[simp] theorem State.packet_launchAt (s : State) (d : Nat) (ids : List Nat) (i : Nat) : (s.packet d ids).launch? i = s.launch? i := rfl
@[simp] theorem State.packet_queue (s : State) (d : Nat) (ids : List Nat) (c0 q0 : Nat) : (s.packet d ids).queue c0 q0 = s.queue c0 q0 := rfl
@[simp] theorem State.packet_ctx (s : State) (d : Nat) (ids : List Nat) (c0 t0 : Nat) : (s.packet d ids).ctx c0 t0 = s.ctx c0 t0 := rfl

@[simp] theorem State.setFib_fib_same (s : State) (k : FKey) (f : Fibre) : (s.setFib k f).fib k = f := by simp [State.fib, State.setFib]
theorem State.setFib_fib_ne (s : State) {k k' : FKey} (f : Fibre) (h : k' ≠ k) : (s.setFib k f).fib k' = s.fib k' := by
  simp [State.fib, State.setFib, Map.atD_put_ne _ _ _ h]
@[simp] theorem State.updFib_fib_same (s : State) (k : FKey) (g : Fibre → Fibre) : (s.updFib k g).fib k = g (s.fib k) := by
  simp [State.updFib]
theorem State.updFib_fib_ne (s : State) {k k' : FKey} (g : Fibre → Fibre) (h : k' ≠ k) : (s.updFib k g).fib k' = s.fib k' :=
  State.setFib_fib_ne s _ h
theorem State.updFib_fib (s : State) (k k' : FKey) (g : Fibre → Fibre) : (s.updFib k g).fib k' = if k' = k then g (s.fib k) else s.fib k' := by
  by_cases h : k' = k
  · subst h; simp
  · simp [h, State.updFib_fib_ne s g h]

@[simp] theorem State.updBlock_block_same (s : State) (i : Nat) (f : Block → Block) : (s.updBlock i f).block i = f (s.block i) := by
  simp [State.updBlock, State.block]
theorem State.updBlock_block_ne (s : State) {i j : Nat} (f : Block → Block) (h : j ≠ i) : (s.updBlock i f).block j = s.block j := by
  simp [State.updBlock, State.block, Map.atD_put_ne _ _ _ h]
@[simp] theorem State.updGang_gang_same (s : State) (i : Nat × Nat) (f : Gang → Gang) : (s.updGang i f).gang i = f (s.gang i) := by
  simp [State.updGang, State.gang]
theorem State.updGang_gang_ne (s : State) {i j : Nat × Nat} (f : Gang → Gang) (h : j ≠ i) : (s.updGang i f).gang j = s.gang j := by
  simp [State.updGang, State.gang, Map.atD_put_ne _ _ _ h]
@[simp] theorem State.updCore_core_same (s : State) (i : Nat) (f : Core → Core) : (s.updCore i f).core i = f (s.core i) := by
  simp [State.updCore, State.core]
theorem State.updCore_core_ne (s : State) {i j : Nat} (f : Core → Core) (h : j ≠ i) : (s.updCore i f).core j = s.core j := by
  simp [State.updCore, State.core, Map.atD_put_ne _ _ _ h]
@[simp] theorem State.updDie_die_same (s : State) (i : Nat) (f : Die → Die) : (s.updDie i f).die i = f (s.die i) := by
  simp [State.updDie, State.die]
theorem State.updDie_die_ne (s : State) {i j : Nat} (f : Die → Die) (h : j ≠ i) : (s.updDie i f).die j = s.die j := by
  simp [State.updDie, State.die, Map.atD_put_ne _ _ _ h]
@[simp] theorem State.updPart_part_same (s : State) (i : Nat) (f : Partition → Partition) : (s.updPart i f).part i = f (s.part i) := by
  simp [State.updPart, State.part]
theorem State.updPart_part_ne (s : State) {i j : Nat} (f : Partition → Partition) (h : j ≠ i) : (s.updPart i f).part j = s.part j := by
  simp [State.updPart, State.part, Map.atD_put_ne _ _ _ h]
@[simp] theorem State.updSlice_slice_same (s : State) (i : Nat) (f : Slice → Slice) : (s.updSlice i f).slice i = f (s.slice i) := by
  simp [State.updSlice, State.slice]
theorem State.updSlice_slice_ne (s : State) {i j : Nat} (f : Slice → Slice) (h : j ≠ i) : (s.updSlice i f).slice j = s.slice j := by
  simp [State.updSlice, State.slice, Map.atD_put_ne _ _ _ h]
@[simp] theorem State.updStack_stack_same (s : State) (i : Nat) (f : Stack → Stack) : (s.updStack i f).stack i = f (s.stack i) := by
  simp [State.updStack, State.stack]
theorem State.updStack_stack_ne (s : State) {i j : Nat} (f : Stack → Stack) (h : j ≠ i) : (s.updStack i f).stack j = s.stack j := by
  simp [State.updStack, State.stack, Map.atD_put_ne _ _ _ h]

@[simp] theorem State.updQueue_queue_same (s : State) (c q : Nat) (f : Queue → Queue) : (s.updQueue c q f).queue c q = f (s.queue c q) := by
  simp [State.updQueue, State.queue]
@[simp] theorem State.updCtx_ctx_same (s : State) (c t : Nat) (f : Ctx → Ctx) : (s.updCtx c t f).ctx c t = f (s.ctx c t) := by
  simp [State.updCtx, State.ctx]
theorem State.updCtx_ctx_ne (s : State) {c t c' t' : Nat} (f : Ctx → Ctx) (h : c' ≠ c ∨ t' ≠ t) : (s.updCtx c t f).ctx c' t' = s.ctx c' t' := by
  by_cases hc : c' = c
  · subst hc
    have ht : t' ≠ t := h.resolve_left (fun e => e rfl)
    simp [State.updCtx, State.ctx, Map.atD_put_ne _ _ _ ht]
  · simp [State.updCtx, State.ctx, State.updCore_core_ne s _ hc]
theorem State.updLaunch_launchAt_same {s : State} {l : Nat} {x : Launch} (g : Launch → Launch) (h : s.launch? l = some x) :
    (s.updLaunch l g).launch? l = some (g x) := by
  have h' : s.launches.at? l = some x := h
  simp [State.updLaunch, State.launch?, h']

end Sys2Proof.Machine
end

