-- ==== Sys2Proof/Laws/Order.lean ====
section
/-!
SUPPORT. Laws/Order.lean: what the memory model remembers is all that its operations change; with nothing remembered every read
finds memory as it stands, and with the veil off the operations change nothing.
-/

namespace Sys2Proof.Machine

set_option Elab.async false

/-- Only what the memory model remembers differs. -/
def VeilOnly (s t : State) : Prop := t = { s with veil := t.veil }

theorem VeilOnly.refl (s : State) : VeilOnly s s := rfl
theorem VeilOnly.trans {s t u : State} (h : VeilOnly s t) (h' : VeilOnly t u) : VeilOnly s u := by
  unfold VeilOnly at *; rw [h', h]

theorem VeilOnly.of (s : State) (v : Veil) : VeilOnly s { s with veil := v } := rfl

theorem VeilOnly.put {s t : State} (h : VeilOnly s t) (v : Veil) : VeilOnly s { t with veil := v } := by
  unfold VeilOnly at *; rw [h]

theorem VeilOnly.ite {s t u : State} {c : Prop} [Decidable c] (h : c → VeilOnly s t) (h' : ¬c → VeilOnly s u) :
    VeilOnly s (if c then t else u) := by
  split
  · exact h ‹_›
  · exact h' ‹_›

/-- A fold of steps that change only what is remembered. -/
theorem VeilOnly.foldl {α : Type} {f : State → α → State} (h : ∀ s a, VeilOnly s (f s a)) (l : List α) (s : State) :
    VeilOnly s (l.foldl f s) := by
  induction l generalizing s with
  | nil => exact .refl s
  | cons a l ih => exact (h s a).trans (ih _)

/-- Only what the memory model remembers and the pages that agents wait for differ: what a word changes that goes on for every
member, before its effect. -/
def NotesOnly (s t : State) : Prop := t = { s with veil := t.veil, missQ := t.missQ }

theorem NotesOnly.refl (s : State) : NotesOnly s s := rfl
theorem NotesOnly.trans {s t u : State} (h : NotesOnly s t) (h' : NotesOnly t u) : NotesOnly s u := by
  unfold NotesOnly at *; rw [h', h]

theorem VeilOnly.notes {s t : State} (h : VeilOnly s t) : NotesOnly s t := by unfold NotesOnly; rw [h]

theorem notesOnly_leaveMissOf (s : State) (p : Party) : NotesOnly s (s.leaveMissOf p) := rfl

section Facts
variable {s t : State} (h : NotesOnly s t)
include h

theorem NotesOnly.mem : t.mem = s.mem := by rw [h]
theorem NotesOnly.scratch : t.scratch = s.scratch := by rw [h]
theorem NotesOnly.pipes : t.pipes = s.pipes := by rw [h]
theorem NotesOnly.reqs : t.reqs = s.reqs := by rw [h]
theorem NotesOnly.fib (k : FKey) : t.fib k = s.fib k := by rw [h]; rfl
theorem NotesOnly.gang (g : Nat × Nat) : t.gang g = s.gang g := by rw [h]; rfl
theorem NotesOnly.core (c : Nat) : t.core c = s.core c := by rw [h]; rfl
theorem NotesOnly.block (b : Nat) : t.block b = s.block b := by rw [h]; rfl
theorem NotesOnly.isHelper (k : FKey) : t.isHelper k = s.isHelper k := by rw [h]; rfl

end Facts

theorem VeilOnly.mem {s t : State} (h : VeilOnly s t) : t.mem = s.mem := h.notes.mem
theorem VeilOnly.scratch {s t : State} (h : VeilOnly s t) : t.scratch = s.scratch := h.notes.scratch
theorem VeilOnly.pipes {s t : State} (h : VeilOnly s t) : t.pipes = s.pipes := h.notes.pipes
theorem VeilOnly.fib {s t : State} (h : VeilOnly s t) (k : FKey) : t.fib k = s.fib k := h.notes.fib k

/-! ### The operations -/

theorem veilOnly_follows (s : State) (p q : Party) : VeilOnly s (s.follows p q) := rfl

theorem veilOnly_joins (s : State) (p : Party) (ds : List Nat) : VeilOnly s (s.joins p ds) := by
  unfold State.joins; exact .ite (fun _ => .refl s) fun _ => .of s _

theorem veilOnly_newAgent (s : State) (p : Party) : VeilOnly s (s.newAgent p) := by
  unfold State.newAgent; exact .ite (fun _ => .refl s) fun _ => .of s _

theorem veilOnly_seesAll (s : State) (p : Party) : VeilOnly s (s.seesAll p) := rfl

theorem veilOnly_forget (s : State) (p : Bool → Nat → Bool) : VeilOnly s (s.forget p) := rfl

theorem veilOnly_noteWrite (s : State) (w : Writer) (scr : Bool) (a : Nat) (old : List Byte) : VeilOnly s (s.noteWrite w scr a old) := by
  unfold State.noteWrite; exact .ite (fun _ => .of s _) fun _ => .refl s

theorem veilOnly_fuse (s : State) (n : Nat) : VeilOnly s (s.fuse n) := rfl

theorem veilOnly_acquire (s : State) (p : Party) (sc : Scope) (m : Msg) : VeilOnly s (s.acquire p sc m) := by
  unfold State.acquire; split
  · split
    · exact .ite (fun _ => .of s _) fun _ => .refl s
    · exact .refl s
  · exact .ite (fun _ => .of s _) fun _ => .refl s

theorem veilOnly_noteRead (s : State) (v : View) (a n : Nat) (acq : Option Scope) : VeilOnly s (s.noteRead v a n acq) := by
  unfold State.noteRead
  refine .ite (fun _ => .refl s) fun _ => ?_
  dsimp only; split
  · exact (VeilOnly.of s _).trans (.foldl (fun s m => veilOnly_acquire s _ _ m) _ _)
  · exact .of s _

theorem veilOnly_noteNewest (s : State) (v : View) (a n : Nat) : VeilOnly s (s.noteNewest v a n) := by
  unfold State.noteNewest; exact .ite (fun _ => .refl s) fun _ => .of s _

theorem veilOnly_noteFence (s : State) (p : Party) (ord : Order) (sc : Scope) : VeilOnly s (s.noteFence p ord sc) := by
  unfold State.noteFence
  refine .ite (fun _ => .refl s) fun _ => VeilOnly.put ?_ _
  have ars : ∀ s : State, VeilOnly s (if ord = .ar then s.veil.ars.foldl (fun s x =>
      if s.meet 0 x.1 x.2.1 p sc then { s with veil := s.veil.learn p x.2.2 } else s) s else s) := fun s =>
    .ite (fun _ => .foldl (fun s x => .ite (fun _ => .of s _) fun _ => .refl s) _ _) fun _ => .refl _
  refine VeilOnly.trans (.ite (fun _ => .refl s) fun _ => ?_) (ars _)
  exact (VeilOnly.foldl (fun s m => veilOnly_acquire s p sc m) _ s).trans
    (.ite (fun _ => .foldl (fun s x => .ite (fun _ => VeilOnly.trans (.of s _) (veilOnly_joins _ _ _)) fun _ => .refl s) _ _) fun _ => .refl _)

theorem veilOnly_noteBarrier (s : State) (ks : List FKey) (sc : Scope) : VeilOnly s (s.noteBarrier ks sc) := by
  have fence : ∀ s : State, VeilOnly s (ks.foldl (fun s k => s.noteFence (.agent k) .ar sc) s) :=
    fun s => .foldl (fun s k => veilOnly_noteFence s _ _ _) _ s
  unfold State.noteBarrier
  exact .ite (fun _ => .refl s) fun _ => ((fence s).trans (.foldl (fun s k => .of s _) _ _)).trans (fence _)

theorem veilOnly_noteCross (s : State) (ks : List FKey) (same : FKey → FKey → Bool) : VeilOnly s (s.noteCross ks same) := by
  unfold State.noteCross; exact .ite (fun _ => .refl s) fun _ => .of s _

theorem veilOnly_noteDone (s : State) (p : Party) (sc : Scope) (c x n : Nat) : VeilOnly s (s.noteDone p sc c x n) := by
  unfold State.noteDone; exact .ite (fun _ => .refl s) fun _ => .of s _

theorem veilOnly_noteTicket (s : State) (p : Party) (c x n : Nat) : VeilOnly s (s.noteTicket p c x n) := by
  unfold State.noteTicket
  exact .foldl (fun s d => .ite (fun _ => .of s _) fun _ => .refl s) _ s

theorem veilOnly_ordered (s : State) (i : Instr) (ks : List FKey) : VeilOnly s (s.ordered i ks) := by
  unfold State.ordered
  exact .ite (fun _ => .refl s) fun _ => .foldl (fun s k => .foldl (fun s m => .ite (fun _ => .of s _) fun _ => .refl s) _ s) _ s

theorem veilOnly_depends (s : State) (i : Instr) (ks : List FKey) : VeilOnly s (s.depends i ks) := by
  unfold State.depends
  exact .ite (fun _ => .refl s) fun _ => .foldl (fun s k => (veilOnly_ordered s i [k]).put _) _ s

theorem veilOnly_noteWord (s : State) (i : Instr) (ks : List FKey) : VeilOnly s (s.noteWord i ks) := by
  unfold State.noteWord
  exact VeilOnly.trans (.ite (fun _ => veilOnly_noteCross s _ _) fun _ => .refl s) (veilOnly_depends _ i ks)

theorem veilOnly_taintDst (s : State) (k : FKey) (d : Dst) (ms : List Msg) : VeilOnly s (s.taintDst k d ms) := by
  unfold State.taintDst; exact .ite (fun _ => .refl s) fun _ => .of s _

theorem veilOnly_scratchRead (s : State) (p : Party) (b off n : Nat) (acq : Option Scope) : VeilOnly s (s.scratchRead p b off n acq) := by
  unfold State.scratchRead
  exact .foldl (fun s x => veilOnly_noteRead s _ _ _ _) _ s

theorem veilOnly_readDone (s : State) (r : Req) (l : Option Line) : VeilOnly s (s.readDone r l) := by
  unfold State.readDone; split
  · exact (veilOnly_taintDst _ _ _ _).trans (veilOnly_noteRead _ _ _ _ _)
  · exact veilOnly_noteRead _ _ _ _ _

/-! ### Reads where nothing is remembered (R102) -/

@[simp] theorem lookBack_nil (v : View) (a : Nat) (x : Byte) : lookBack v a [] x = (x, 0) := rfl

/-- With nothing remembered every agent finds memory as it stands. -/
theorem viewed_of_nil {s : State} (h : s.veil.hidden = []) (v : View) (a : Nat) (bs : List Byte) : s.viewed v a bs = bs := by
  have hp : s.past v = [] := by unfold State.past; split <;> simp [h]
  unfold State.viewed
  rw [hp]
  simp [List.zipIdx_map_fst]

@[simp] theorem viewed_length (s : State) (v : View) (a : Nat) (bs : List Byte) : (s.viewed v a bs).length = bs.length := by
  simp [State.viewed]

/-! ### The veil off -/

section Off
variable {s : State} (h : s.veil.on = false)
include h

theorem joins_off (p : Party) (ds : List Nat) : s.joins p ds = s := by simp [State.joins, h]
theorem newAgent_off (p : Party) : s.newAgent p = s := by simp [State.newAgent, h]
theorem noteWrite_off (w : Writer) (scr : Bool) (a : Nat) (old : List Byte) : s.noteWrite w scr a old = s := by simp [State.noteWrite, h]
theorem noteRead_off (v : View) (a n : Nat) (acq : Option Scope) : s.noteRead v a n acq = s := by simp [State.noteRead, h]
theorem noteNewest_off (v : View) (a n : Nat) : s.noteNewest v a n = s := by simp [State.noteNewest, h]
theorem noteFence_off (p : Party) (ord : Order) (sc : Scope) : s.noteFence p ord sc = s := by simp [State.noteFence, h]
theorem noteBarrier_off (ks : List FKey) (sc : Scope) : s.noteBarrier ks sc = s := by simp [State.noteBarrier, h]
theorem noteCross_off (ks : List FKey) (same : FKey → FKey → Bool) : s.noteCross ks same = s := by simp [State.noteCross, h]
theorem noteDone_off (p : Party) (sc : Scope) (c x n : Nat) : s.noteDone p sc c x n = s := by simp [State.noteDone, h]
theorem ordered_off (i : Instr) (ks : List FKey) : s.ordered i ks = s := by simp [State.ordered, h]
theorem depends_off (i : Instr) (ks : List FKey) : s.depends i ks = s := by simp [State.depends, h]
theorem taintDst_off (k : FKey) (d : Dst) (ms : List Msg) : s.taintDst k d ms = s := by simp [State.taintDst, h]
theorem noteWord_off (i : Instr) (ks : List FKey) : s.noteWord i ks = s := by
  unfold State.noteWord; split
  · rw [noteCross_off h, depends_off h]
  · exact depends_off h i ks

end Off

end Sys2Proof.Machine
end

