-- ==== Sys2Proof/Laws/Ops.lean ====
section
/-!
SUPPORT. Laws/Ops.lean: what the shared operations of an instruction word can do: one lane's writes, the frame of a word, and
the words that compute on registers only.
-/

namespace Sys2Proof.Machine

/-! ### What register writes leave alone -/

/-- Only fibres, gangs, cores, what the memory model remembers and the pages that agents wait for differ. -/
def RegsOnly (s t : State) : Prop :=
  t = { s with fibres := t.fibres, gangs := t.gangs, cores := t.cores, veil := t.veil, missQ := t.missQ }

theorem RegsOnly.refl (s : State) : RegsOnly s s := rfl
theorem RegsOnly.trans {s t u : State} (h : RegsOnly s t) (h' : RegsOnly t u) : RegsOnly s u := by
  unfold RegsOnly at *; rw [h', h]

theorem regsOnly_setFib (s : State) (k : FKey) (f : Fibre) : RegsOnly s (s.setFib k f) := rfl
theorem regsOnly_updFib (s : State) (k : FKey) (f : Fibre → Fibre) : RegsOnly s (s.updFib k f) := rfl
theorem regsOnly_updGang (s : State) (g : Nat × Nat) (f : Gang → Gang) : RegsOnly s (s.updGang g f) := rfl
theorem regsOnly_updQueue (s : State) (c q : Nat) (f : Queue → Queue) : RegsOnly s (s.updQueue c q f) := rfl
theorem regsOnly_updCore (s : State) (c : Nat) (f : Core → Core) : RegsOnly s (s.updCore c f) := rfl

theorem regsOnly_setV (s : State) (k : FKey) (n : Nat) (v : W32) : RegsOnly s (s.setV k n v) := by
  unfold State.setV; dsimp only; split
  · exact regsOnly_setFib _ _ _
  · exact .refl _

theorem regsOnly_setS (s : State) (k : FKey) (n : Nat) (v : W64) : RegsOnly s (s.setS k n v) := by
  unfold State.setS; split
  · exact .refl _
  · exact regsOnly_updGang _ _ _

theorem regsOnly_pushWord (s : State) (k : FKey) (q : Nat) (v : W32) : RegsOnly s (s.pushWord k q v) := by
  unfold State.pushWord; split
  · exact .refl _
  · exact (regsOnly_updQueue _ _ _ _).trans (regsOnly_updFib _ _ _)

theorem regsOnly_setGroup (s : State) (k : FKey) (n : Nat) (vs : List W32) : RegsOnly s (s.setGroup k n vs) := by
  induction vs generalizing s n with
  | nil => exact .refl _
  | cons v vs ih => exact (regsOnly_setV s k n v).trans (ih _ _)

theorem regsOnly_wr (s : State) (k : FKey) (w : Wr) : RegsOnly s (s.wr k w) := by
  unfold State.wr; split
  all_goals first
    | exact regsOnly_setV _ _ _ _
    | exact regsOnly_setS _ _ _ _
    | exact regsOnly_updFib _ _ _
    | exact regsOnly_pushWord _ _ _ _
    | exact .refl _
    | exact (regsOnly_setV _ _ _ _).trans (regsOnly_setV _ _ _ _)
    | exact regsOnly_setGroup _ _ _ _

theorem regsOnly_wrs (s : State) (k : FKey) (ws : List Wr) : RegsOnly s (s.wrs k ws) := by
  induction ws generalizing s with
  | nil => exact .refl _
  | cons w ws ih => exact (regsOnly_wr s k w).trans (ih _)

theorem regsOnly_lanes (s : State) (ws : List (FKey × List Wr)) : RegsOnly s (s.lanes ws) := by
  induction ws with
  | nil => exact .refl _
  | cons w ws ih => obtain ⟨k, w⟩ := w; exact ih.trans (regsOnly_wrs _ _ _)

theorem regsOnly_freeEntries (s : State) (c q : Nat) : RegsOnly s (s.freeEntries c q) := by
  unfold State.freeEntries; dsimp only; split
  · exact .refl _
  · exact regsOnly_updQueue _ _ _ _

theorem regsOnly_pop (s : State) (k : FKey) (q n : Nat) : RegsOnly s (s.pop k q n) := by
  unfold State.pop; split
  · exact .refl _
  · exact (regsOnly_updFib _ _ _).trans (regsOnly_freeEntries _ _ _)

/-- A relation kept by every step of a fold is kept by the fold. -/
theorem foldl_rel {α σ : Type} {R : σ → σ → Prop} (hr : ∀ s, R s s) (ht : ∀ {a b c}, R a b → R b c → R a c) {f : σ → α → σ}
    (h : ∀ s a, R s (f s a)) (l : List α) (s : σ) : R s (l.foldl f s) := by
  induction l generalizing s with
  | nil => exact hr s
  | cons a l ih => exact ht (h s a) (ih _)

theorem regsOnly_popSlots (s : State) (k : FKey) (ts : List Slot) : RegsOnly s (s.popSlots k ts) :=
  foldl_rel RegsOnly.refl RegsOnly.trans (fun s t => by
    split
    · split
      · exact regsOnly_pop _ _ _ _
      · exact .refl _
    · exact .refl _) ts s

/-! ### What register writes leave alone, record by record -/

/-- All of a fibre but its registers, temporaries, predicates, window base and place in queues. -/
def FibreKept (f g : Fibre) : Prop :=
  g = { f with regs := g.regs, k := g.k, p := g.p, wb := g.wb, cursor := g.cursor, pop := g.pop }

/-- Register writes: only registers, predicates and queues differ. -/
structure Kept (s t : State) : Prop where
  regs : RegsOnly s t
  fib : ∀ k, FibreKept (s.fib k) (t.fib k)
  gang : ∀ g, t.gang g = { s.gang g with s := (t.gang g).s }
  core : ∀ c, t.core c = { s.core c with queues := (t.core c).queues }

theorem Kept.refl (s : State) : Kept s s := ⟨.refl s, fun _ => rfl, fun _ => rfl, fun _ => rfl⟩

theorem Kept.trans {s t u : State} (h : Kept s t) (h' : Kept t u) : Kept s u :=
  ⟨h.regs.trans h'.regs, fun k => by have a := h.fib k; have b := h'.fib k; unfold FibreKept at *; rw [b, a],
    fun g => by rw [h'.gang g, h.gang g], fun c => by rw [h'.core c, h.core c]⟩

theorem NotesOnly.kept {s t : State} (h : NotesOnly s t) : Kept s t :=
  ⟨by unfold RegsOnly; rw [h], fun k => by rw [h.fib]; rfl, fun g => by rw [h.gang], fun c => by rw [h.core]⟩

theorem kept_updFib (s : State) (k : FKey) (f : Fibre → Fibre) (h : FibreKept (s.fib k) (f (s.fib k))) : Kept s (s.updFib k f) :=
  ⟨rfl, fun k' => by
    by_cases e : k' = k
    · subst e; simpa using h
    · rw [State.updFib_fib_ne s f e]; rfl, fun _ => rfl, fun _ => rfl⟩

theorem kept_updGang (s : State) (g : Nat × Nat) (f : Gang → Gang) (h : f (s.gang g) = { s.gang g with s := (f (s.gang g)).s }) :
    Kept s (s.updGang g f) :=
  ⟨rfl, fun _ => rfl, fun g' => by
    by_cases e : g' = g
    · subst e; simpa using h
    · rw [State.updGang_gang_ne s f e], fun _ => rfl⟩

theorem kept_updQueue (s : State) (c q : Nat) (f : Queue → Queue) : Kept s (s.updQueue c q f) :=
  ⟨rfl, fun _ => rfl, fun _ => rfl, fun c' => by
    by_cases e : c' = c
    · subst e; simp [State.updQueue]
    · rw [State.updQueue, State.updCore_core_ne s _ e]⟩

theorem kept_setV (s : State) (k : FKey) (n : Nat) (v : W32) : Kept s (s.setV k n v) := by
  unfold State.setV; dsimp only; split
  · exact kept_updFib s k (fun f => f.setReg (f.wb.toNat + n) v) rfl
  · exact .refl _

theorem kept_setS (s : State) (k : FKey) (n : Nat) (v : W64) : Kept s (s.setS k n v) := by
  unfold State.setS; split
  · exact .refl _
  · exact kept_updGang _ _ _ rfl

theorem kept_pushWord (s : State) (k : FKey) (q : Nat) (v : W32) : Kept s (s.pushWord k q v) := by
  unfold State.pushWord; split
  · exact .refl _
  · exact (kept_updQueue _ _ _ _).trans (kept_updFib _ _ (fun f => { f with cursor := f.cursor.put q _ }) rfl)

theorem kept_setGroup (s : State) (k : FKey) (n : Nat) (vs : List W32) : Kept s (s.setGroup k n vs) := by
  induction vs generalizing s n with
  | nil => exact .refl _
  | cons v vs ih => exact (kept_setV s k n v).trans (ih _ _)

theorem kept_wr (s : State) (k : FKey) (w : Wr) : Kept s (s.wr k w) := by
  unfold State.wr; split
  all_goals first
    | exact kept_setV _ _ _ _
    | exact kept_setS _ _ _ _
    | exact kept_updFib _ _ _ rfl
    | exact kept_pushWord _ _ _ _
    | exact .refl _
    | exact (kept_setV _ _ _ _).trans (kept_setV _ _ _ _)
    | exact kept_setGroup _ _ _ _

theorem kept_wrs (s : State) (k : FKey) (ws : List Wr) : Kept s (s.wrs k ws) := by
  induction ws generalizing s with
  | nil => exact .refl _
  | cons w ws ih => exact (kept_wr s k w).trans (ih _)

theorem kept_lanes (s : State) (ws : List (FKey × List Wr)) : Kept s (s.lanes ws) := by
  induction ws with
  | nil => exact .refl _
  | cons w ws ih => obtain ⟨k, w⟩ := w; exact ih.trans (kept_wrs _ _ _)

theorem kept_pop (s : State) (k : FKey) (q n : Nat) : Kept s (s.pop k q n) := by
  unfold State.pop; split
  · exact .refl _
  · refine (kept_updFib s k (fun f => { f with cursor := f.cursor.put q (s.cursorAt k q + n), pop := none }) rfl).trans ?_
    unfold State.freeEntries; dsimp only; split
    · exact .refl _
    · exact kept_updQueue _ _ _ _

theorem kept_popSlots (s : State) (k : FKey) (ts : List Slot) : Kept s (s.popSlots k ts) :=
  foldl_rel Kept.refl Kept.trans (fun s t => by
    split
    · split
      · exact kept_pop _ _ _ _
      · exact .refl _
    · exact .refl _) ts s

section KeptFacts
variable {s t : State} (h : Kept s t)
include h

theorem Kept.block (b : Nat) : t.block b = s.block b := by rw [h.regs]; rfl
theorem Kept.coreOf (k : FKey) : t.coreOf k = s.coreOf k := by cases k <;> simp [State.coreOf, h.block]
theorem Kept.isHelper (k : FKey) : t.isHelper k = s.isHelper k := by
  have := h.fib k
  unfold State.isHelper; rw [show (t.fib k).status = (s.fib k).status by rw [this]]
theorem Kept.pc (k : FKey) : (t.fib k).pc = (s.fib k).pc := by rw [h.fib k]
theorem Kept.apOwner (c : Nat) : (t.core c).apOwner = (s.core c).apOwner := by rw [h.core c]
theorem Kept.gangOf (k : FKey) : t.gangOf k = s.gangOf k := by cases k <;> simp [State.gangOf, h.apOwner]
theorem Kept.laneOf (k : FKey) : t.laneOf k = s.laneOf k := by cases k <;> simp [State.laneOf, h.apOwner]
theorem Kept.declared (k : FKey) : t.declared k = s.declared k := by cases k <;> simp [State.declared, h.block]
theorem Kept.mem : t.mem = s.mem := by rw [h.regs]
theorem Kept.agent : t.agent = s.agent := by rw [h.regs]
theorem Kept.pipes : t.pipes = s.pipes := by rw [h.regs]

end KeptFacts

/-! ### Window registers after a lane's write -/

theorem setV_vcell (s : State) (k k' : FKey) (n m : Nat) (v : W32) :
    (s.setV k n v).vcell k' m = if k' = k ∧ m = n ∧ (s.fib k).wb.toNat + n < s.declared k then { val := v } else s.vcell k' m := by
  unfold State.setV; dsimp only
  by_cases hw : (s.fib k).wb.toNat + n < s.declared k
  · simp only [hw, if_true, and_true]
    have hd : ∀ f, (s.setFib k f).declared k' = s.declared k' := fun f => by cases k' <;> rfl
    by_cases hk : k' = k
    · subst hk
      by_cases hm : m = n
      · subst hm
        simp [State.vcell, hd, hw, Fibre.setReg, Fibre.cell]
      · have hne : (s.fib k').wb.toNat + m ≠ (s.fib k').wb.toNat + n := by omega
        simp [State.vcell, hd, hm, Fibre.setReg, Fibre.cell, Map.atD_put_ne _ _ _ hne]
    · simp [State.vcell, hd, hk, State.setFib_fib_ne s _ hk]
  · simp [hw]

theorem setV_cell (s : State) (k k' : FKey) (n m : Nat) (v : W32) (h : k' = k → m ≠ (s.fib k).wb.toNat + n) :
    ((s.setV k n v).fib k').cell m = (s.fib k').cell m := by
  unfold State.setV; dsimp only; split
  · by_cases hk : k' = k
    · subst hk
      simp [Fibre.setReg, Fibre.cell, Map.atD_put_ne _ _ _ (h rfl)]
    · rw [State.setFib_fib_ne s _ hk]
  · rfl

/-! ### One lane's writes and the other lanes -/

theorem setV_fib_ne (s : State) {k k' : FKey} (n : Nat) (v : W32) (h : k' ≠ k) : (s.setV k n v).fib k' = s.fib k' := by
  unfold State.setV; dsimp only; split
  · exact State.setFib_fib_ne s _ h
  · rfl

theorem setS_fib (s : State) (k k' : FKey) (n : Nat) (v : W64) : (s.setS k n v).fib k' = s.fib k' := by
  unfold State.setS; split <;> rfl

theorem setGroup_fib_ne (s : State) {k k' : FKey} (n : Nat) (vs : List W32) (h : k' ≠ k) : (s.setGroup k n vs).fib k' = s.fib k' := by
  induction vs generalizing s n with
  | nil => rfl
  | cons v vs ih => rw [State.setGroup, ih, setV_fib_ne s n v h]

theorem wr_fib_ne (s : State) {k k' : FKey} (w : Wr) (h : k' ≠ k) : (s.wr k w).fib k' = s.fib k' := by
  unfold State.wr; split
  all_goals first
    | exact setV_fib_ne _ _ _ h
    | exact setS_fib _ _ _ _ _
    | exact State.updFib_fib_ne _ _ h
    | rfl
    | exact setGroup_fib_ne _ _ _ h
    | exact (setV_fib_ne _ _ _ h).trans (setV_fib_ne _ _ _ h)
    | (unfold State.pushWord; split
       · rfl
       · exact State.updFib_fib_ne _ _ h)

theorem wrs_fib_ne (s : State) {k k' : FKey} (ws : List Wr) (h : k' ≠ k) : (s.wrs k ws).fib k' = s.fib k' := by
  induction ws generalizing s with
  | nil => rfl
  | cons w ws ih => rw [State.wrs, ih, wr_fib_ne s w h]

/-- Whether a write sets the window base. -/
def Wr.base : Wr → Bool
  | .wb _ => true
  | _ => false

theorem setV_wb (s : State) (k k' : FKey) (n : Nat) (v : W32) : ((s.setV k n v).fib k').wb = (s.fib k').wb := by
  unfold State.setV; dsimp only; split
  · by_cases h : k' = k
    · subst h; simp [Fibre.setReg]
    · rw [State.setFib_fib_ne s _ h]
  · rfl

theorem setGroup_wb (s : State) (k k' : FKey) (n : Nat) (vs : List W32) : ((s.setGroup k n vs).fib k').wb = (s.fib k').wb := by
  induction vs generalizing s n with
  | nil => rfl
  | cons v vs ih => rw [State.setGroup, ih, setV_wb]

theorem updFib_wb (s : State) (k k' : FKey) (f : Fibre → Fibre) (h : (f (s.fib k)).wb = (s.fib k).wb) :
    ((s.updFib k f).fib k').wb = (s.fib k').wb := by
  by_cases e : k' = k
  · subst e; simpa using h
  · rw [State.updFib_fib_ne s f e]

theorem wr_wb (s : State) (k k' : FKey) {w : Wr} (hw : w.base = false) : ((s.wr k w).fib k').wb = (s.fib k').wb := by
  unfold State.wr; split
  all_goals first
    | exact setV_wb _ _ _ _ _
    | rw [setS_fib]
    | exact updFib_wb _ _ _ _ rfl
    | rfl
    | exact setGroup_wb _ _ _ _ _
    | exact (setV_wb _ _ _ _ _).trans (setV_wb _ _ _ _ _)
    | (unfold State.pushWord; split
       · rfl
       · exact (updFib_wb _ _ _ (fun f => { f with cursor := f.cursor.put _ _ }) rfl).trans rfl)
    | simp [Wr.base] at hw

theorem wrs_wb (s : State) (k k' : FKey) {ws : List Wr} (hw : ∀ w ∈ ws, w.base = false) : ((s.wrs k ws).fib k').wb = (s.fib k').wb := by
  induction ws generalizing s with
  | nil => rfl
  | cons w ws ih =>
    rw [State.wrs, ih _ (fun x hx => hw x (List.mem_cons_of_mem _ hx)), wr_wb s k k' (hw w List.mem_cons_self)]

/-! ### The writes of all lanes -/

/-- What lane `k`'s own writes establish, and no other lane's writes undo, holds after the writes of all lanes. -/
theorem lanes_local {s : State} {ks : List FKey} {f : FKey → List Wr} {k : FKey} (hb : ∀ k, ∀ w ∈ f k, w.base = false) (hk : k ∈ ks)
    (Q : State → Prop) (hset : ∀ t, Kept s t → (∀ k', (t.fib k').wb = (s.fib k').wb) → Q (t.wrs k (f k)))
    (hkeep : ∀ t k0, k0 ≠ k → Kept s t → Q t → Q (t.wrs k0 (f k0))) : Q (s.lanes (ks.map fun k => (k, f k))) := by
  have base : ∀ l : List FKey, Kept s (s.lanes (l.map fun k => (k, f k))) ∧
      ∀ k', ((s.lanes (l.map fun k => (k, f k))).fib k').wb = (s.fib k').wb := by
    intro l
    induction l with
    | nil => exact ⟨.refl _, fun _ => rfl⟩
    | cons a l ih => exact ⟨ih.1.trans (kept_wrs _ _ _), fun k' => by rw [List.map_cons, State.lanes, wrs_wb _ _ _ (hb a), ih.2 k']⟩
  induction ks with
  | nil => exact absurd hk (by simp)
  | cons a l ih =>
    rw [List.map_cons, State.lanes]
    by_cases e : a = k
    · subst e; exact hset _ (base l).1 (base l).2
    · exact hkeep _ a e (base l).1 (ih (by simpa [Ne.symm e] using hk))

/-- Window registers of a lane after the writes of the others. -/
theorem vcell_wrs_ne (t : State) {k k0 : FKey} (ws : List Wr) (h : k0 ≠ k) (n : Nat) : (t.wrs k0 ws).vcell k n = t.vcell k n := by
  unfold State.vcell
  rw [wrs_fib_ne t ws (Ne.symm h), (kept_wrs t k0 ws).declared]

/-- A 32-bit window register after the writes of all lanes. -/
theorem lanes_v {s : State} {ks : List FKey} {val : FKey → W32} {k : FKey} {n : Fin 96} (hk : k ∈ ks)
    (hw : (s.fib k).wb.toNat + n < s.declared k) :
    (s.lanes (ks.map fun k => (k, [Wr.reg (.v n) (val k)]))).vcell k n = { val := val k } := by
  refine lanes_local (f := fun k => [Wr.reg (.v n) (val k)]) (by simp [Wr.base]) hk (fun t => t.vcell k n = { val := val k })
    (fun t ht hwb => ?_) (fun t k0 h0 _ h => ?_)
  · have : (t.fib k).wb.toNat + n < t.declared k := by rw [hwb, ht.declared]; exact hw
    simp only [State.wrs, State.wr, setV_vcell, this, and_self, if_true]
  · exact (vcell_wrs_ne t _ h0 n).trans h

/-- An X pair after the writes of all lanes. -/
theorem lanes_x {s : State} {ks : List FKey} {val : FKey → W64} {k : FKey} {n : Fin 96} (hk : k ∈ ks)
    (hw : (s.fib k).wb.toNat + (n + 1) < s.declared k) :
    (s.lanes (ks.map fun k => (k, [Wr.wide (.v n) (val k)]))).vcell k n = { val := (val k).setWidth 32 } ∧
      (s.lanes (ks.map fun k => (k, [Wr.wide (.v n) (val k)]))).vcell k (n + 1) = { val := (val k >>> 32).setWidth 32 } := by
  refine lanes_local (f := fun k => [Wr.wide (.v n) (val k)]) (by simp [Wr.base]) hk
    (fun t => t.vcell k n = { val := (val k).setWidth 32 } ∧ t.vcell k (n + 1) = { val := (val k >>> 32).setWidth 32 })
    (fun t ht hwb => ?_) (fun t k0 h0 _ h => ?_)
  · have h1 : (t.fib k).wb.toNat + (n + 1) < t.declared k := by rw [hwb, ht.declared]; exact hw
    have h0 : (t.fib k).wb.toNat + n < t.declared k := by omega
    have hd : ∀ t' : State, Kept t t' → t'.declared k = t.declared k := fun t' h => h.declared k
    have h2 : ((t.setV k n ((val k).setWidth 32)).fib k).wb.toNat + (n + 1) < (t.setV k n ((val k).setWidth 32)).declared k := by
      rw [setV_wb, hd _ (kept_setV _ _ _ _)]; exact h1
    simp only [State.wrs, State.wr, setV_vcell, h0, h2, and_self, if_true]
    simp
  · exact ⟨(vcell_wrs_ne t _ h0 n).trans h.1, (vcell_wrs_ne t _ h0 (n + 1)).trans h.2⟩

/-- A temporary after the writes of all lanes. -/
theorem lanes_k {s : State} {ks : List FKey} {val : FKey → W32} {k : FKey} {n : Fin 6} (hk : k ∈ ks) :
    ((s.lanes (ks.map fun k => (k, [Wr.reg (.k n) (val k)]))).fib k).k.atD n 0 = val k := by
  refine lanes_local (f := fun k => [Wr.reg (.k n) (val k)]) (by simp [Wr.base]) hk (fun t => (t.fib k).k.atD n 0 = val k)
    (fun t _ _ => ?_) (fun t k0 h0 _ h => ?_)
  · simp [State.wrs, State.wr]
  · rw [wrs_fib_ne t _ (Ne.symm h0)]; exact h

/-- A predicate after the writes of all lanes. -/
theorem lanes_pred {s : State} {ks : List FKey} {val : FKey → Bool} {k : FKey} {p : Pred} (hk : k ∈ ks) :
    (s.lanes (ks.map fun k => (k, [Wr.pred p (val k)]))).pred k p = val k := by
  refine lanes_local (f := fun k => [Wr.pred p (val k)]) (by simp [Wr.base]) hk (fun t => t.pred k p = val k)
    (fun t _ _ => ?_) (fun t k0 h0 _ h => ?_)
  · simp only [State.wrs, State.wr, State.pred, State.updFib_fib_same, setPredBit]
    cases val k <;> simp [p.isLt]
  · unfold State.pred at *; rw [wrs_fib_ne t _ (Ne.symm h0)]; exact h

theorem gangOf_wrs (t : State) (k k' : FKey) (ws : List Wr) : (t.wrs k ws).gangOf k' = t.gangOf k' := (kept_wrs t k ws).gangOf k'

/-- An s register after the writes of all lanes: the lowest live member of the gang in the word is the one whose value
stands. -/
theorem lanes_s {s : State} {ks : List FKey} {n : Nat} {w : FKey → Wr} {val : FKey → W64} {k : FKey}
    (hw : ∀ (t : State) (k : FKey), t.wr k (w k) = t.setS k n (val k))
    (hk : ks.find? (fun m => !s.isHelper m && decide (s.gangOf m = s.gangOf k)) = some k) :
    (s.lanes (ks.map fun k => (k, [w k]))).scell k n = { val := val k } := by
  have hp := List.find?_some hk
  simp only [Bool.and_eq_true, Bool.not_eq_true', decide_eq_true_eq] at hp
  induction ks with
  | nil => simp at hk
  | cons a l ih =>
    have hl := kept_lanes s (l.map fun k => (k, [w k]))
    simp only [List.map_cons, State.lanes, State.wrs, hw]
    unfold State.scell
    rw [(kept_setS _ a n (val a)).gangOf, hl.gangOf]
    by_cases hh : s.isHelper a = true
    · have : (s.lanes (l.map fun k => (k, [w k]))).isHelper a = true := by rw [hl.isHelper]; exact hh
      rw [State.setS, if_pos this]
      have := ih (by simpa [hh] using hk)
      unfold State.scell at this; rw [hl.gangOf] at this; exact this
    · have hf : s.isHelper a = false := by simpa using hh
      have hf' : ¬ (s.lanes (l.map fun k => (k, [w k]))).isHelper a = true := by rw [hl.isHelper, hf]; simp
      rw [State.setS, if_neg hf', hl.gangOf]
      by_cases hg : s.gangOf a = s.gangOf k
      · have : a = k := by simpa [hf, hg] using hk
        subst this; simp
      · rw [State.updGang_gang_ne _ _ (Ne.symm hg)]
        have := ih (by simpa [hf, hg] using hk)
        unfold State.scell at this; rw [hl.gangOf] at this; exact this


/-! ### The frame of a word -/

/-- Only PCs, coaches, the buffer of fetched lines and the agents that have sent carts differ. -/
structure Moved (s t : State) : Prop where
  dev : t = { s with fibres := t.fibres, pipes := t.pipes, lineBuf := t.lineBuf, evicted := t.evicted }
  fib : ∀ k, t.fib k = { s.fib k with pc := (t.fib k).pc }

theorem Moved.refl (s : State) : Moved s s := ⟨rfl, fun _ => rfl⟩
theorem Moved.trans {s t u : State} (h : Moved s t) (h' : Moved t u) : Moved s u :=
  ⟨by rw [h'.dev, h.dev], fun k => by rw [h'.fib k, h.fib k]⟩

theorem moved_pc (s : State) (k : FKey) (pc : W64) : Moved s (s.updFib k fun f => { f with pc := pc }) :=
  ⟨rfl, fun k' => by
    by_cases h : k' = k
    · subst h; simp
    · rw [State.updFib_fib_ne s _ h]⟩

theorem moved_dropLines (s : State) (ks : List FKey) : Moved s (s.dropLines ks) := ⟨rfl, fun _ => rfl⟩

theorem moved_setPcs (s : State) (l : List (FKey × W64)) : Moved s (s.setPcs l) := by
  unfold State.setPcs
  exact foldl_rel Moved.refl Moved.trans (fun s a => moved_pc s a.1 a.2) l s

theorem Moved.isHelper {s t : State} (h : Moved s t) (k : FKey) : t.isHelper k = s.isHelper k := by
  unfold State.isHelper; rw [h.fib k]

/-- Only PCs of helpers and coaches differ. -/
structure Synced (s t : State) : Prop where
  moved : Moved s t
  pc : ∀ k, s.isHelper k = false → t.fib k = s.fib k

theorem Synced.refl (s : State) : Synced s s := ⟨.refl s, fun _ _ => rfl⟩
theorem Synced.trans {s t u : State} (h : Synced s t) (h' : Synced t u) : Synced s u :=
  ⟨h.moved.trans h'.moved, fun k hk => by rw [h'.pc k (by rw [h.moved.isHelper]; exact hk), h.pc k hk]⟩

theorem synced_pipes (s : State) (p : Map Nat Coach) : Synced s { s with pipes := p } := ⟨⟨rfl, fun _ => rfl⟩, fun _ _ => rfl⟩

theorem synced_syncHelpers (s : State) (c p : Nat) : Synced s (s.syncHelpers c p) := by
  unfold State.syncHelpers
  split
  · exact .refl s
  · rename_i x _
    dsimp only
    refine Synced.trans (t := (x.members.filter fun n => s.isHelper (.fib x.block n)).foldl (fun s n => match s.quadLeader x.block n with
      | some m => s.updFib (.fib x.block n) fun f => { f with pc := (s.fib (.fib x.block m)).pc }
      | none => s) s) ?_ ⟨⟨rfl, fun _ => rfl⟩, fun _ _ => rfl⟩
    have hmem : ∀ n ∈ x.members.filter (fun n => s.isHelper (.fib x.block n)), s.isHelper (.fib x.block n) = true := by simp
    generalize x.members.filter (fun n => s.isHelper (.fib x.block n)) = l at hmem
    suffices ∀ s', Synced s s' → Synced s (l.foldl (fun s n => match s.quadLeader x.block n with
      | some m => s.updFib (.fib x.block n) fun f => { f with pc := (s.fib (.fib x.block m)).pc }
      | none => s) s') from this s (.refl s)
    induction l with
    | nil => exact fun s' h => h
    | cons a l ih =>
      intro s' h
      refine ih (fun n hn => hmem n (List.mem_cons_of_mem _ hn)) _ (h.trans ?_)
      dsimp only
      split
      · refine ⟨moved_pc _ _ _, fun k hk => State.updFib_fib_ne _ _ ?_⟩
        rintro rfl
        rw [h.moved.isHelper, hmem a List.mem_cons_self] at hk
        exact absurd hk (by simp)
      · exact .refl _

theorem synced_countWord (s : State) : Synced s s.countWord := by
  unfold State.countWord
  split
  · split
    · exact .refl s
    · exact (synced_pipes s _).trans (synced_syncHelpers _ _ _)
  · exact .refl s

theorem setPcs_pc (s : State) (l : List FKey) (f : FKey → W64) {k : FKey} (h : k ∈ l) :
    ((s.setPcs (l.map fun k => (k, f k))).fib k).pc = f k := by
  suffices ∀ (l : List FKey) (s : State), (k ∈ l ∨ (s.fib k).pc = f k) → ((s.setPcs (l.map fun k => (k, f k))).fib k).pc = f k from
    this l s (.inl h)
  intro l
  induction l with
  | nil => intro s h; exact h.resolve_left (by simp)
  | cons a l ih =>
    intro s h
    refine ih _ ?_
    by_cases e : a = k
    · subst e; right; simp
    · rcases h with h | h
      · left; simpa [Ne.symm e] using h
      · right; rw [State.updFib_fib_ne s _ (Ne.symm e)]; exact h

theorem setPcs_fib_of_not_mem (s : State) (l : List (FKey × W64)) {k : FKey} (h : ∀ x ∈ l, x.1 ≠ k) : (s.setPcs l).fib k = s.fib k := by
  induction l generalizing s with
  | nil => rfl
  | cons a l ih =>
    refine (ih _ fun x hx => h x (List.mem_cons_of_mem _ hx)).trans ?_
    exact State.updFib_fib_ne s _ (Ne.symm (h a List.mem_cons_self))

/-- A word that goes on for every member takes no verdict; the members leave the pages they have waited for. -/
theorem takeVerdicts_quiet (s : State) (vs : List (FKey × Verdict)) (h : ∀ v ∈ vs, v.2 = .go ∨ v.2 = .skip) :
    s.takeVerdicts vs = (vs.map (·.1)).foldl State.leaveMiss s := by
  induction vs generalizing s with
  | nil => rfl
  | cons v vs ih =>
    have hv := h v List.mem_cons_self
    have ih := ih (s.leaveMiss v.1) fun x hx => h x (List.mem_cons_of_mem _ hx)
    obtain ⟨k, v⟩ := v
    rcases hv with rfl | rfl <;> exact ih

/-- A member for which a word goes on, or that skips it, spends no pop beside it. -/
theorem spend_quiet (vs : List (FKey × Verdict)) (h : ∀ v ∈ vs, v.2 = .go ∨ v.2 = .skip) (s : State) : vs.foldl State.spend s = s := by
  induction vs with
  | nil => rfl
  | cons v vs ih =>
    have hv : s.spend v = s := by unfold State.spend; rcases h v List.mem_cons_self with e | e <;> rw [e]
    rw [List.foldl_cons, hv]
    exact ih fun x hx => h x (List.mem_cons_of_mem _ hx)

/-- The members for which a word goes on. -/
def State.performers (s : State) (i : Instr) (check : State → FKey → Verdict) (ks : List FKey) : List FKey :=
  ks.filter fun k => decide (s.verdict i check k = .go)

theorem mem_performers {s : State} {i : Instr} {check : State → FKey → Verdict} {ks : List FKey} {k : FKey} :
    k ∈ s.performers i check ks ↔ s.Performs i check ks k := by
  simp [State.performers, State.Performs]

/-- The state in which a word takes its effect: the state before, its members out of the pages they have waited for (R276), the
word noted in what the memory model remembers (R106). -/
def State.noted (s : State) (i : Instr) (check : State → FKey → Verdict) (ks : List FKey) : State :=
  (ks.foldl State.leaveMiss s).noteWord i ((s.performers i check ks).filter fun k => !s.isHelper k)

theorem notesOnly_leaveMiss (s : State) (ks : List FKey) : NotesOnly s (ks.foldl State.leaveMiss s) :=
  foldl_rel NotesOnly.refl NotesOnly.trans (fun s _ => notesOnly_leaveMissOf s _) ks s

theorem notesOnly_noted (s : State) (i : Instr) (check : State → FKey → Verdict) (ks : List FKey) : NotesOnly s (s.noted i check ks) :=
  (notesOnly_leaveMiss s ks).trans (veilOnly_noteWord _ i _).notes

/-- The frame of a word that goes on for every member. -/
theorem issue_next {s : State} {i : Instr} {check : State → FKey → Verdict} {ks : List FKey} (h : s.Proceeds i check ks)
    (eff : State → List FKey → State) (next : State → FKey → W64) (after : State → List FKey → State) :
    issue i s check eff next after =
      .next (after (if i.runEnding then
          (((eff (s.noted i check ks) (s.performers i check ks)).dropLines (s.performers i check ks)).setPcs
            (((s.performers i check ks).filter fun k => !s.isHelper k).map fun k => (k, next (s.noted i check ks) k))).endRun
        else
          (((eff (s.noted i check ks) (s.performers i check ks)).dropLines (s.performers i check ks)).setPcs
            (((s.performers i check ks).filter fun k => !s.isHelper k).map fun k => (k, next (s.noted i check ks) k))).countWord)
        (s.performers i check ks)) := by
  obtain ⟨hm, hv⟩ := h
  have hq : ∀ v ∈ ks.map (fun k => (k, s.verdict i check k)), v.2 = .go ∨ v.2 = .skip := by
    intro v hx
    obtain ⟨k, hk, rfl⟩ := List.mem_map.mp hx
    exact (hv k hk).imp id And.right
  have hw : ((ks.map fun k => (k, s.verdict i check k)).any fun v => v.2.waits) = false := by
    rw [List.any_eq_false]
    intro v hx
    rcases hq v hx with e | e <;> rw [e] <;> decide
  have hf : ((ks.map fun k => (k, s.verdict i check k)).filter fun v => decide (v.2 = .go)).map (·.1) = s.performers i check ks := by
    rw [List.filter_map, List.map_map]
    exact List.map_id _
  unfold issue
  rw [hm]
  dsimp only
  have hh : ∀ k, (ks.foldl State.leaveMiss s).isHelper k = s.isHelper k := (notesOnly_leaveMiss s ks).isHelper
  have hm1 : (ks.map fun k => (k, s.verdict i check k)).map (·.1) = ks := by rw [List.map_map]; exact List.map_id _
  rw [takeVerdicts_quiet _ _ hq, hw, hf, hm1, spend_quiet _ hq]
  simp only [hh]
  rfl

/-- Every word of an agent that has the turn answers a next state. -/
theorem issue_answers {s : State} {ks : List FKey} (h : s.members = some ks) (i : Instr) (check : State → FKey → Verdict)
    (eff : State → List FKey → State) (next : State → FKey → W64) (after : State → List FKey → State) :
    ∃ t, issue i s check eff next after = .next t := by
  unfold issue; rw [h]; dsimp only; split <;> exact ⟨_, rfl⟩

theorem issueSerial_answers {s : State} {ks : List FKey} (h : s.members = some ks) (i : Instr) (check : State → FKey → Verdict)
    (eff : State → FKey → State) : ∃ t, issueSerial i s check eff = .next t := by
  unfold issueSerial; rw [h]; dsimp only; split <;> exact ⟨_, rfl⟩

/-- A word that commands a unit, in a coach of one live fibre, an access processor or a control core. -/
theorem issueSerial_one {s : State} {i : Instr} {check : State → FKey → Verdict} {k : FKey} (hm : s.members = some [k])
    (hh : s.isHelper k = false) (hs : s.isServed k = false) (hv : s.verdict i check k = .go) (eff : State → FKey → State) :
    issueSerial i s check eff = .next (((eff (s.depends i [k]) k).dropLines [k]).markServed k).countWord := by
  unfold issueSerial
  rw [hm]
  simp [serialGo, hh, hs, hv, Verdict.waits]

/-! ### Words that compute on registers only -/

/-- What a register word does: its queue sources are popped, its writes performed, then PCs and coaches move. What it computes
does not depend on what the memory model remembers. -/
theorem compute_law {s : State} {i : Instr} {ks : List FKey} (h : s.Proceeds i noCheck ks) (hr : i.runEnding = false)
    (lane : State → FKey → List Wr) (hl : ∀ s v q k, lane { s with veil := v, missQ := q } k = lane s k) :
    ∃ t u v, compute i s lane = .next t ∧ Kept s u ∧ v = u.lanes ((s.performers i noCheck ks).map fun k => (k, lane s k)) ∧ Moved v t ∧
      (∀ k, s.Performs i noCheck ks k → s.isHelper k = false → (t.fib k).pc = (s.fib k).pc + 4) ∧
      (∀ k, k ∉ ks → s.isHelper k = false → (t.fib k).pc = (s.fib k).pc) ∧
      u = (s.performers i noCheck ks).foldl (fun s k => s.popSlots k i.slots) (s.noted i noCheck ks) := by
  have hn := (notesOnly_noted s i noCheck ks).kept
  have hlane : lane (s.noted i noCheck ks) = lane s := by funext k; rw [notesOnly_noted s i noCheck ks]; exact hl s _ _ k
  refine ⟨_, _, _, by rw [compute, issue_next h, if_neg (by rw [hr]; decide), hlane], ?_, rfl, ?_, ?_, ?_, rfl⟩
  · exact hn.trans (foldl_rel Kept.refl Kept.trans (fun s k => kept_popSlots s k _) _ _)
  · exact ((moved_dropLines _ _).trans (moved_setPcs _ _)).trans (synced_countWord _).moved
  all_goals
    have hu : Kept s ((s.performers i noCheck ks).foldl (fun s k => s.popSlots k i.slots) (s.noted i noCheck ks)) :=
      hn.trans (foldl_rel Kept.refl Kept.trans (fun s k => kept_popSlots s k _) _ _)
    have hl := hu.trans (kept_lanes _ ((s.performers i noCheck ks).map fun k => (k, lane s k)))
  · intro k hk hh
    rw [(synced_countWord _).pc k (by rw [(moved_setPcs _ _).isHelper, (moved_dropLines _ _).isHelper, hl.isHelper]; exact hh)]
    rw [setPcs_pc _ _ (fun k => (s.noted i noCheck ks).nextPc k) (List.mem_filter.mpr ⟨mem_performers.mpr hk, by simp [hh]⟩)]
    unfold State.nextPc; rw [hn.pc]
  · intro k hk hh
    rw [(synced_countWord _).pc k (by rw [(moved_setPcs _ _).isHelper, (moved_dropLines _ _).isHelper, hl.isHelper]; exact hh)]
    rw [setPcs_fib_of_not_mem]
    · exact hl.pc k
    · intro x hx
      obtain ⟨m, hm, rfl⟩ := List.mem_map.mp hx
      rintro rfl
      exact hk (mem_performers.mp (List.mem_filter.mp hm).1).1


section MovedFacts
variable {s t : State} (h : Moved s t)
include h

theorem Moved.block (b : Nat) : t.block b = s.block b := by rw [h.dev]; rfl
theorem Moved.declared (k : FKey) : t.declared k = s.declared k := by cases k <;> simp [State.declared, h.block]
theorem Moved.gangOf (k : FKey) : t.gangOf k = s.gangOf k := by rw [h.dev]; rfl
theorem Moved.vcell (k : FKey) (n : Nat) : t.vcell k n = s.vcell k n := by
  unfold State.vcell; rw [h.declared, h.fib k]; rfl
theorem Moved.scell (k : FKey) (n : Nat) : t.scell k n = s.scell k n := by
  unfold State.scell; rw [h.gangOf, show t.gang = s.gang by rw [h.dev]; rfl]
theorem Moved.pred (k : FKey) (p : Pred) : t.pred k p = s.pred k p := by unfold State.pred; rw [h.fib k]
theorem Moved.k (k : FKey) : (t.fib k).k = (s.fib k).k := by rw [h.fib k]

end MovedFacts

/-- The member whose s-register write stands is the first live one of its gang for which the word goes on. -/
theorem find_of_lead {s u : State} {i : Instr} {check : State → FKey → Verdict} {ks : List FKey} (h : s.Proceeds i check ks)
    (hu : ∀ k, u.isHelper k = s.isHelper k) (hg : ∀ k, u.gangOf k = s.gangOf k) {k : FKey} (hk : s.Performs i check ks k)
    (hh : s.isHelper k = false) (hl : s.lead k = k) :
    (s.performers i check ks).find? (fun m => !u.isHelper m && decide (u.gangOf m = u.gangOf k)) = some k := by
  have h1 : ks.find? (fun m => !s.isHelper m && decide (s.gangOf m = s.gangOf k)) = some k := by
    have : s.lead k = (ks.find? (fun m => !s.isHelper m && decide (s.gangOf m = s.gangOf k))).getD k := by
      unfold State.lead; rw [h.1]; rfl
    rw [this] at hl
    cases hf : ks.find? (fun m => !s.isHelper m && decide (s.gangOf m = s.gangOf k)) with
    | some x => rw [hf] at hl; exact congrArg some hl
    | none =>
      have := List.find?_eq_none.mp hf k hk.1
      simp [hh] at this
  have h2 : (fun m => !u.isHelper m && decide (u.gangOf m = u.gangOf k)) = fun m => !s.isHelper m && decide (s.gangOf m = s.gangOf k) := by
    funext m; rw [hu, hg, hg]
  rw [h2, State.performers, List.find?_filter, ← h1]
  refine List.find?_congr fun m hm => ?_
  by_cases hp : s.isHelper m = true
  · simp [hp]
  · have : s.verdict i check m = .go := (h.2 m hm).resolve_right fun e => hp e.1
    simp [this]

/-- The first member for which a word goes on, in a state that register writes alone made. -/
theorem window_kept {s u : State} (hu : Kept s u) (hwb : ∀ k, (u.fib k).wb = (s.fib k).wb) {k : FKey} {n : Nat}
    (h : (s.fib k).wb.toNat + n < s.declared k) : (u.fib k).wb.toNat + n < u.declared k := by
  rw [hwb, hu.declared]; exact h

theorem pop_wb (s : State) (k k' : FKey) (q n : Nat) : ((s.pop k q n).fib k').wb = (s.fib k').wb := by
  unfold State.pop; split
  · rfl
  · have e := updFib_wb s k k' (fun f => { f with cursor := f.cursor.put q (s.cursorAt k q + n), pop := none }) rfl
    rw [← e]
    unfold State.freeEntries; dsimp only; split <;> rfl

theorem popSlots_wb (s : State) (k k' : FKey) (ts : List Slot) : ((s.popSlots k ts).fib k').wb = (s.fib k').wb := by
  unfold State.popSlots
  refine (foldl_rel (R := fun a b => (b.fib k').wb = (a.fib k').wb) (fun _ => rfl) (by intro a b c h h'; exact h'.trans h) (fun s t => ?_) ts s)
  split
  · split
    · exact pop_wb _ _ _ _ _
    · rfl
  · rfl

theorem popAll_wb (s : State) (ks : List FKey) (ts : List Slot) (k' : FKey) :
    ((ks.foldl (fun s k => s.popSlots k ts) s).fib k').wb = (s.fib k').wb :=
  foldl_rel (R := fun a b => (b.fib k').wb = (a.fib k').wb) (fun _ => rfl) (by intro a b c h h'; exact h'.trans h)
    (fun s k => popSlots_wb s k k' ts) ks s

/-- A register word with one 32-bit destination. -/
theorem compute_holds32 {s : State} {i : Instr} {ks : List FKey} (h : s.Proceeds i noCheck ks) (hr : i.runEnding = false) (d : Reg)
    (val : State → FKey → W32) (hl : ∀ s v q k, val { s with veil := v, missQ := q } k = val s k) :
    ∃ t, compute i s (fun s k => [.reg d (val s k)]) = .next t ∧
      ∀ k, s.Performs i noCheck ks k → Holds32 s t k d (val s k) ∧ (s.isHelper k = false → (t.fib k).pc = (s.fib k).pc + 4) := by
  obtain ⟨t, u, v, he, hu, hv, hm, hpc, -, hp⟩ := compute_law h hr (fun s k => [Wr.reg d (val s k)]) fun s v q k => by rw [hl]
  have hwb : ∀ k, (u.fib k).wb = (s.fib k).wb := fun k => by rw [hp, popAll_wb, (notesOnly_noted s i noCheck ks).fib]
  refine ⟨t, he, fun k hk => ⟨?_, hpc k hk⟩⟩
  have hmem := mem_performers.mpr hk
  cases d with
  | v n =>
    intro hw
    rw [hm.vcell, hv]
    exact lanes_v (val := val s) hmem (window_kept hu hwb hw)
  | s n =>
    intro hh hl
    rw [hm.scell, hv]
    exact lanes_s (val := fun k => (val s k).setWidth 64) (fun t k => rfl) (find_of_lead h hu.isHelper hu.gangOf hk hh hl)
  | k n =>
    show (t.fib k).k.atD n 0 = val s k
    rw [hm.k, hv]; exact lanes_k (val := val s) hmem
  | q n => trivial
  | z => trivial
  | id => trivial

/-- A register word with one 64-bit destination. -/
theorem compute_holds64 {s : State} {i : Instr} {ks : List FKey} (h : s.Proceeds i noCheck ks) (hr : i.runEnding = false) (d : Reg)
    (val : State → FKey → W64) (hl : ∀ s v q k, val { s with veil := v, missQ := q } k = val s k) :
    ∃ t, compute i s (fun s k => [.wide d (val s k)]) = .next t ∧
      ∀ k, s.Performs i noCheck ks k → Holds64 s t k d (val s k) ∧ (s.isHelper k = false → (t.fib k).pc = (s.fib k).pc + 4) := by
  obtain ⟨t, u, v, he, hu, hv, hm, hpc, -, hp⟩ := compute_law h hr (fun s k => [Wr.wide d (val s k)]) fun s v q k => by rw [hl]
  have hwb : ∀ k, (u.fib k).wb = (s.fib k).wb := fun k => by rw [hp, popAll_wb, (notesOnly_noted s i noCheck ks).fib]
  refine ⟨t, he, fun k hk => ⟨?_, hpc k hk⟩⟩
  have hmem := mem_performers.mpr hk
  cases d with
  | v n =>
    intro hw
    rw [hm.vcell, hm.vcell, hv]
    exact lanes_x (val := val s) hmem (window_kept hu hwb hw)
  | s n =>
    intro hh hl
    rw [hm.scell, hv]
    exact lanes_s (val := val s) (fun t k => rfl) (find_of_lead h hu.isHelper hu.gangOf hk hh hl)
  | k n => trivial
  | q n => trivial
  | z => trivial
  | id => trivial

/-- A register word with a predicate destination. -/
theorem compute_pred {s : State} {i : Instr} {ks : List FKey} (h : s.Proceeds i noCheck ks) (hr : i.runEnding = false) (p : Pred)
    (val : State → FKey → Bool) (hl : ∀ s v q k, val { s with veil := v, missQ := q } k = val s k) :
    ∃ t, compute i s (fun s k => [.pred p (val s k)]) = .next t ∧
      ∀ k, s.Performs i noCheck ks k → t.pred k p = val s k ∧ (s.isHelper k = false → (t.fib k).pc = (s.fib k).pc + 4) := by
  obtain ⟨t, u, v, he, hu, hv, hm, hpc, -, -⟩ := compute_law h hr (fun s k => [Wr.pred p (val s k)]) fun s v q k => by rw [hl]
  refine ⟨t, he, fun k hk => ⟨?_, hpc k hk⟩⟩
  rw [hm.pred, hv]
  exact lanes_pred (val := val s) (mem_performers.mpr hk)


/-! ### What a register word leaves alone -/

/-- Window fields a write covers. -/
def Wr.fields : Wr → List Nat
  | .reg (.v n) _ => [n]
  | .wide (.v n) _ => [n, n + 1]
  | .group n vs => (List.range vs.length).map (n + ·)
  | _ => []

/-- Whether a write is one that the word's slots and predicates name. -/
def Wr.within (i : Instr) (w : Wr) : Prop :=
  w.base = false ∧ (∀ n ∈ w.fields, i.writesV n = true) ∧
    match w with
    | .reg r _ => i.writesReg r = true
    | .wide r _ => i.writesReg r = true
    | .group _ _ => True
    | .pred p _ => i.writesP p = true
    | .preds _ => ∀ p, i.writesP p = true
    | .wb _ => False

theorem setGroup_cell (s : State) (k k' : FKey) (n m : Nat) (vs : List W32)
    (h : k' = k → ∀ x ∈ (List.range vs.length).map (n + ·), m ≠ (s.fib k).wb.toNat + x) :
    ((s.setGroup k n vs).fib k').cell m = (s.fib k').cell m := by
  induction vs generalizing s n with
  | nil => rfl
  | cons v vs ih =>
    have h0 : k' = k → m ≠ (s.fib k).wb.toNat + n := fun e => h e n (by simp)
    rw [State.setGroup, ih, setV_cell _ _ _ _ _ _ h0]
    intro e x hx
    rw [setV_wb]
    obtain ⟨y, hy, rfl⟩ := List.mem_map.mp hx
    exact h e _ (List.mem_map.mpr ⟨y + 1, by simpa using hy, by omega⟩)

theorem updFib_cell (s : State) (k k' : FKey) (f : Fibre → Fibre) (m : Nat) (h : (f (s.fib k)).regs = (s.fib k).regs) :
    ((s.updFib k f).fib k').cell m = (s.fib k').cell m := by
  by_cases e : k' = k
  · subst e; simp [Fibre.cell, h]
  · rw [State.updFib_fib_ne s f e]

theorem pushWord_cell (s : State) (k k' : FKey) (q : Nat) (v : W32) (m : Nat) :
    ((s.pushWord k q v).fib k').cell m = (s.fib k').cell m := by
  unfold State.pushWord; split
  · rfl
  · exact updFib_cell _ k k' (fun f => { f with cursor := f.cursor.put q _ }) m rfl

theorem wr_cell (s : State) (k k' : FKey) (m : Nat) (w : Wr) (h : k' = k → ∀ n ∈ w.fields, m ≠ (s.fib k).wb.toNat + n) :
    ((s.wr k w).fib k').cell m = (s.fib k').cell m := by
  cases w with
  | reg r v =>
    cases r with
    | v n => exact setV_cell s k k' n m v fun e => h e n (by simp [Wr.fields])
    | s n => exact congrArg (Fibre.cell · m) (setS_fib s k k' n _)
    | k n => exact updFib_cell s k k' (fun f => { f with k := f.k.put n v }) m rfl
    | q n => exact pushWord_cell s k k' n v m
    | z => rfl
    | id => rfl
  | wide r v =>
    cases r with
    | v n =>
      refine (setV_cell _ k k' (n + 1) m _ fun e => ?_).trans (setV_cell s k k' n m _ fun e => h e n (by simp [Wr.fields]))
      rw [setV_wb]; exact h e _ (by simp [Wr.fields])
    | s n => exact congrArg (Fibre.cell · m) (setS_fib s k k' n _)
    | k n => rfl
    | q n => rfl
    | z => rfl
    | id => rfl
  | group n vs => exact setGroup_cell s k k' n m vs fun e x hx => h e x hx
  | pred p b => exact updFib_cell s k k' (fun f => { f with p := setPredBit f.p p b }) m rfl
  | preds v => exact updFib_cell s k k' (fun f => { f with p := v }) m rfl
  | wb v => exact updFib_cell s k k' (fun f => { f with wb := v }) m rfl

/-- What one lane's writes leave alone. -/
structure LaneFrame (s t : State) (i : Instr) (k : FKey) : Prop where
  kept : Kept s t
  wb : ∀ k', (t.fib k').wb = (s.fib k').wb
  cell : ∀ k' m, (k' ≠ k ∨ ∀ n, i.writesV n = true → m ≠ (s.fib k').wb.toNat + n) → (t.fib k').cell m = (s.fib k').cell m
  temp : ∀ k' n, (k' ≠ k ∨ i.writesReg (.k n) = false) → (t.fib k').k.atD n 0 = (s.fib k').k.atD n 0
  pred : ∀ k' p, (k' ≠ k ∨ i.writesP p = false) → t.pred k' p = s.pred k' p
  scell : ∀ g n, (s.gangOf k ≠ g ∨ i.writesReg (.s n) = false) → (t.gang g).s.atD n {} = (s.gang g).s.atD n {}

theorem LaneFrame.refl (s : State) (i : Instr) (k : FKey) : LaneFrame s s i k :=
  ⟨.refl s, fun _ => rfl, fun _ _ _ => rfl, fun _ _ _ => rfl, fun _ _ _ => rfl, fun _ _ _ => rfl⟩

theorem LaneFrame.trans {s t u : State} {i : Instr} {k : FKey} (h : LaneFrame s t i k) (h' : LaneFrame t u i k) : LaneFrame s u i k where
  kept := h.kept.trans h'.kept
  wb k' := (h'.wb k').trans (h.wb k')
  cell k' m hc := (h'.cell k' m (by simpa [h.wb k'] using hc)).trans (h.cell k' m hc)
  temp k' n hc := (h'.temp k' n hc).trans (h.temp k' n hc)
  pred k' p hc := (h'.pred k' p hc).trans (h.pred k' p hc)
  scell g n hc := (h'.scell g n (by rw [h.kept.gangOf]; exact hc)).trans (h.scell g n hc)

theorem setV_k (s : State) (k k' : FKey) (n : Nat) (v : W32) :
    ((s.setV k n v).fib k').k = (s.fib k').k ∧ ((s.setV k n v).fib k').p = (s.fib k').p := by
  unfold State.setV; dsimp only; split
  · by_cases h : k' = k
    · subst h; simp [Fibre.setReg]
    · rw [State.setFib_fib_ne s _ h]; exact ⟨rfl, rfl⟩
  · exact ⟨rfl, rfl⟩

theorem setGroup_k (s : State) (k k' : FKey) (n : Nat) (vs : List W32) :
    ((s.setGroup k n vs).fib k').k = (s.fib k').k ∧ ((s.setGroup k n vs).fib k').p = (s.fib k').p := by
  induction vs generalizing s n with
  | nil => exact ⟨rfl, rfl⟩
  | cons v vs ih => rw [State.setGroup]; exact ⟨(ih _ _).1.trans (setV_k _ _ _ _ _).1, (ih _ _).2.trans (setV_k _ _ _ _ _).2⟩

theorem setV_gang (s : State) (k : FKey) (n : Nat) (v : W32) (g : Nat × Nat) : (s.setV k n v).gang g = s.gang g := by
  unfold State.setV; dsimp only; split <;> rfl

theorem setGroup_gang (s : State) (k : FKey) (n : Nat) (vs : List W32) (g : Nat × Nat) : (s.setGroup k n vs).gang g = s.gang g := by
  induction vs generalizing s n with
  | nil => rfl
  | cons v vs ih => rw [State.setGroup, ih, setV_gang]

theorem pushWord_kp (s : State) (k k' : FKey) (q : Nat) (v : W32) :
    ((s.pushWord k q v).fib k').k = (s.fib k').k ∧ ((s.pushWord k q v).fib k').p = (s.fib k').p := by
  unfold State.pushWord; split
  · exact ⟨rfl, rfl⟩
  · by_cases h : k' = k
    · subst h; simp
    · rw [State.updFib_fib_ne _ _ h]; exact ⟨rfl, rfl⟩

theorem setS_scell (s : State) (k : FKey) (n : Nat) (v : W64) (g : Nat × Nat) (m : Nat) (h : s.gangOf k ≠ g ∨ m ≠ n) :
    ((s.setS k n v).gang g).s.atD m {} = (s.gang g).s.atD m {} := by
  unfold State.setS; split
  · rfl
  · by_cases e : g = s.gangOf k
    · subst e
      have hm : m ≠ n := h.resolve_left (fun c => c rfl)
      simp [Map.atD_put_ne _ _ _ hm]
    · rw [State.updGang_gang_ne _ _ e]

theorem setPredBit_ne (v : BitVec 16) (p q : Pred) (b : Bool) (h : q ≠ p) : (setPredBit v p b).getLsbD q.toNat = v.getLsbD q.toNat := by
  have hn : q.toNat ≠ p.toNat := fun e => h (BitVec.eq_of_toNat_eq e)
  have hq := q.isLt
  have h1 : ((1#16 <<< p.toNat : BitVec 16)).getLsbD q.toNat = false := by
    rw [BitVec.getLsbD_shiftLeft]
    by_cases hl : q.toNat < p.toNat
    · simp [hl]
    · have : q.toNat - p.toNat ≠ 0 := by omega
      simp [hl, this]
  cases b
  · simp only [setPredBit, Bool.false_eq_true, if_false, BitVec.getLsbD_and, BitVec.getLsbD_not, h1, hq]
    simp
  · simp only [setPredBit, if_true, BitVec.getLsbD_or, h1, Bool.or_false]

theorem laneFrame_wr (s : State) (i : Instr) (k : FKey) {w : Wr} (h : w.within i) : LaneFrame s (s.wr k w) i k where
  kept := kept_wr s k w
  wb k' := wr_wb s k k' h.1
  cell k' m hc := wr_cell s k k' m w fun e n hn => by subst e; exact hc.resolve_left (fun c => c rfl) n (h.2.1 n hn)
  temp k' n hc := by
    by_cases e : k' = k
    · subst e
      have hc := hc.resolve_left (fun c => c rfl)
      have h3 := h.2.2
      unfold State.wr; split
      all_goals first
        | rw [(setV_k _ _ _ _ _).1, (setV_k _ _ _ _ _).1]
        | rw [(setV_k _ _ _ _ _).1]
        | rw [setS_fib]
        | rw [(setGroup_k _ _ _ _ _).1]
        | rw [(pushWord_kp _ _ _ _ _).1]
        | rfl
        | (simp; done)
        | skip
      rename_i m v
      have hm : m ≠ n := by rintro rfl; simp [hc] at h3
      have : (n : Nat) ≠ m := fun e => hm (Fin.ext e.symm)
      simp [Map.atD_put_ne _ _ _ this]
    · rw [wr_fib_ne s w e]
  pred k' p hc := by
    by_cases e : k' = k
    · subst e
      have hc := hc.resolve_left (fun c => c rfl)
      have h3 := h.2.2
      unfold State.wr State.pred; split
      all_goals first
        | rw [(setV_k _ _ _ _ _).2, (setV_k _ _ _ _ _).2]
        | rw [(setV_k _ _ _ _ _).2]
        | rw [setS_fib]
        | rw [(setGroup_k _ _ _ _ _).2]
        | rw [(pushWord_kp _ _ _ _ _).2]
        | rfl
        | (simp; done)
        | skip
      · rename_i q b
        have hq : p ≠ q := by rintro rfl; simp [hc] at h3
        simpa using setPredBit_ne _ q p b hq
      · exact absurd (h3 p) (by simp [hc])
    · unfold State.pred; rw [wr_fib_ne s w e]
  scell g n hc := by
    have h3 := h.2.2
    unfold State.wr; split
    all_goals first
      | rw [setV_gang, setV_gang]
      | rw [setV_gang]
      | rw [setGroup_gang]
      | rfl
      | (unfold State.pushWord; split <;> rfl)
      | skip
    all_goals
      rename_i m _
      by_cases e : s.gangOf k = g
      · have hne : m ≠ n := by rintro rfl; simp [hc.resolve_left (fun c => c e)] at h3
        exact setS_scell _ _ _ _ _ _ (.inr fun e' => hne (Fin.ext e'.symm))
      · exact setS_scell _ _ _ _ _ _ (.inl e)

theorem laneFrame_wrs (s : State) (i : Instr) (k : FKey) {ws : List Wr} (h : ∀ w ∈ ws, w.within i) : LaneFrame s (s.wrs k ws) i k := by
  induction ws generalizing s with
  | nil => exact .refl s i k
  | cons w ws ih => exact (laneFrame_wr s i k (h w List.mem_cons_self)).trans (ih _ fun x hx => h x (List.mem_cons_of_mem _ hx))


/-- What the writes of all lanes leave alone. -/
structure LanesFrame (s t : State) (i : Instr) (ks : List FKey) : Prop where
  kept : Kept s t
  wb : ∀ k, (t.fib k).wb = (s.fib k).wb
  cell : ∀ k m, (k ∉ ks ∨ ∀ n, i.writesV n = true → m ≠ (s.fib k).wb.toNat + n) → (t.fib k).cell m = (s.fib k).cell m
  temp : ∀ k n, (k ∉ ks ∨ i.writesReg (.k n) = false) → (t.fib k).k.atD n 0 = (s.fib k).k.atD n 0
  pred : ∀ k p, (k ∉ ks ∨ i.writesP p = false) → t.pred k p = s.pred k p
  scell : ∀ g n, ((∀ k ∈ ks, s.gangOf k ≠ g) ∨ i.writesReg (.s n) = false) → (t.gang g).s.atD n {} = (s.gang g).s.atD n {}

theorem lanesFrame {s : State} {i : Instr} (ks : List FKey) {f : FKey → List Wr} (h : ∀ k, ∀ w ∈ f k, w.within i) :
    LanesFrame s (s.lanes (ks.map fun k => (k, f k))) i ks := by
  induction ks with
  | nil => exact ⟨.refl s, fun _ => rfl, fun _ _ _ => rfl, fun _ _ _ => rfl, fun _ _ _ => rfl, fun _ _ _ => rfl⟩
  | cons a l ih =>
    have hw := laneFrame_wrs (s.lanes (l.map fun k => (k, f k))) i a (h a)
    rw [List.map_cons, State.lanes]
    exact
      { kept := ih.kept.trans hw.kept
        wb := fun k => (hw.wb k).trans (ih.wb k)
        cell := fun k m hc => by
          refine (hw.cell k m ?_).trans (ih.cell k m ?_)
          · rw [ih.wb k]; exact hc.imp (fun c e => c (e ▸ List.mem_cons_self)) id
          · exact hc.imp (fun c e => c (List.mem_cons_of_mem _ e)) id
        temp := fun k n hc => (hw.temp k n (hc.imp (fun c e => c (e ▸ List.mem_cons_self)) id)).trans
          (ih.temp k n (hc.imp (fun c e => c (List.mem_cons_of_mem _ e)) id))
        pred := fun k p hc => (hw.pred k p (hc.imp (fun c e => c (e ▸ List.mem_cons_self)) id)).trans
          (ih.pred k p (hc.imp (fun c e => c (List.mem_cons_of_mem _ e)) id))
        scell := fun g n hc => by
          refine (hw.scell g n ?_).trans (ih.scell g n (hc.imp (fun c k hk => c k (List.mem_cons_of_mem _ hk)) id))
          rw [ih.kept.gangOf]; exact hc.imp (fun c => c a List.mem_cons_self) id }

/-- What popping queue sources leaves alone. -/
structure PopFrame (s t : State) : Prop where
  kept : Kept s t
  fib : ∀ k, t.fib k = { s.fib k with cursor := (t.fib k).cursor, pop := (t.fib k).pop }
  gangs : t.gangs = s.gangs

theorem PopFrame.refl (s : State) : PopFrame s s := ⟨.refl s, fun _ => rfl, rfl⟩
theorem PopFrame.trans {s t u : State} (h : PopFrame s t) (h' : PopFrame t u) : PopFrame s u :=
  ⟨h.kept.trans h'.kept, fun k => by rw [h'.fib k, h.fib k], h'.gangs.trans h.gangs⟩

theorem popFrame_pop (s : State) (k : FKey) (q n : Nat) : PopFrame s (s.pop k q n) := by
  refine ⟨kept_pop s k q n, fun k' => ?_, ?_⟩
  · unfold State.pop; split
    · rfl
    · have hf : ∀ (u : State) c q, (u.freeEntries c q).fib k' = u.fib k' := fun u c q => by
        unfold State.freeEntries; dsimp only; split <;> rfl
      rw [hf]
      by_cases e : k' = k
      · subst e; simp
      · rw [State.updFib_fib_ne s _ e]
  · unfold State.pop; split
    · rfl
    · unfold State.freeEntries; dsimp only; split <;> rfl

theorem popFrame_popSlots (s : State) (k : FKey) (ts : List Slot) : PopFrame s (s.popSlots k ts) :=
  foldl_rel PopFrame.refl PopFrame.trans (fun s t => by
    split
    · split
      · exact popFrame_pop _ _ _ _
      · exact .refl _
    · exact .refl _) ts s

theorem popFrame_all (s : State) (ks : List FKey) (ts : List Slot) : PopFrame s (ks.foldl (fun s k => s.popSlots k ts) s) :=
  foldl_rel PopFrame.refl PopFrame.trans (fun s k => popFrame_popSlots s k ts) ks s

theorem popSlots_noQueue (s : State) (k : FKey) (ts : List Slot) (h : (ts.any fun t => match t.reg with | .q _ => true | _ => false) = false) :
    s.popSlots k ts = s := by
  induction ts generalizing s with
  | nil => rfl
  | cons t ts ih =>
    simp only [List.any_cons, Bool.or_eq_false_iff] at h
    have : s.popSlots k (t :: ts) = State.popSlots (match t.reg with | .q n => if t.rd then s.pop k n 1 else s | _ => s) k ts := rfl
    rw [this, ih _ h.2]
    cases ht : t.reg <;> simp_all

theorem popAll_noQueue (s : State) (ks : List FKey) (i : Instr) (h : i.usesQueue = false) :
    ks.foldl (fun s k => s.popSlots k i.slots) s = s := by
  induction ks with
  | nil => rfl
  | cons a l ih => rw [List.foldl_cons, popSlots_noQueue _ _ _ h, ih]

theorem updGang_cores (s : State) (k : FKey) (n : Nat) (v : W64) : (s.setS k n v).cores = s.cores := by
  unfold State.setS; split <;> rfl

theorem setV_cores (s : State) (k : FKey) (n : Nat) (v : W32) : (s.setV k n v).cores = s.cores := by
  unfold State.setV; dsimp only; split <;> rfl

theorem setGroup_cores (s : State) (k : FKey) (n : Nat) (vs : List W32) : (s.setGroup k n vs).cores = s.cores := by
  induction vs generalizing s n with
  | nil => rfl
  | cons v vs ih => rw [State.setGroup, ih, setV_cores]

/-- A write of no queue leaves the cores alone. -/
theorem wr_cores (s : State) (k : FKey) {w : Wr} {i : Instr} (h : w.within i) (hq : i.usesQueue = false) : (s.wr k w).cores = s.cores := by
  cases w with
  | reg r v =>
    cases r with
    | v n => exact setV_cores s k n v
    | s n => exact updGang_cores s k n _
    | q n =>
      obtain ⟨x, hx, hw⟩ := List.any_eq_true.mp (show i.writesReg (.q n) = true from h.2.2)
      simp only [Bool.and_eq_true, decide_eq_true_eq] at hw
      have := List.any_eq_false.mp hq x hx
      rw [hw.2] at this
      exact absurd rfl this
    | k n => rfl
    | z => rfl
    | id => rfl
  | wide r v =>
    cases r with
    | v n => exact (setV_cores _ k _ _).trans (setV_cores s k n _)
    | s n => exact updGang_cores s k n _
    | k n => rfl
    | q n => rfl
    | z => rfl
    | id => rfl
  | group n vs => exact setGroup_cores s k n vs
  | pred p b => rfl
  | preds v => rfl
  | wb v => rfl

theorem lanes_cores (s : State) (ks : List FKey) {f : FKey → List Wr} {i : Instr} (h : ∀ k, ∀ w ∈ f k, w.within i) (hq : i.usesQueue = false) :
    (s.lanes (ks.map fun k => (k, f k))).cores = s.cores := by
  induction ks with
  | nil => rfl
  | cons a l ih =>
    rw [List.map_cons, State.lanes]
    refine Eq.trans ?_ ih
    suffices ∀ (ws : List Wr) (u : State), (∀ w ∈ ws, w.within i) → (u.wrs a ws).cores = u.cores from this _ _ (h a)
    intro ws
    induction ws with
    | nil => exact fun _ _ => rfl
    | cons w ws ihw =>
      intro u hu
      rw [State.wrs, ihw _ fun x hx => hu x (List.mem_cons_of_mem _ hx), wr_cores u a (hu w List.mem_cons_self) hq]

/-- The frame of a register word whose writes its slots and predicates name. -/
theorem compute_frame {s : State} {i : Instr} {ks : List FKey} (h : s.Proceeds i noCheck ks) (hr : i.runEnding = false)
    {lane : State → FKey → List Wr} (hl : ∀ s k, ∀ w ∈ lane s k, w.within i) (hlv : ∀ s v q k, lane { s with veil := v, missQ := q } k = lane s k) :
    ∃ t, compute i s lane = .next t ∧ RegisterFrame s t i ks := by
  obtain ⟨t, u, v, he, -, hv, hm, -, -, hp⟩ := compute_law h hr lane hlv
  have hn := notesOnly_noted s i noCheck ks
  have hu : PopFrame s u := hp ▸ PopFrame.trans ⟨hn.kept, fun k => by rw [hn.fib], by rw [hn]⟩ (popFrame_all _ _ _)
  have hf : LanesFrame u v i (s.performers i noCheck ks) := hv ▸ lanesFrame _ fun k => hl s k
  have hsub : ∀ k, k ∉ ks → k ∉ s.performers i noCheck ks := fun k hk hc => hk (mem_performers.mp hc).1
  have hk := hu.kept.trans hf.kept
  have hgang : ∀ g, t.gang g = v.gang g := fun g => by rw [hm.dev]; rfl
  have hcores : t.cores = v.cores := by rw [hm.dev]
  refine ⟨t, he, ?_, fun k => ?_, fun k m hc => ?_, fun k n hc => ?_, fun k p hc => ?_, fun g => ?_, fun g n hc => ?_, fun c => ?_, fun hq => ?_⟩
  · have a := hm.dev; have b := hk.regs
    unfold RegsOnly at b; unfold SameDevice
    rw [a, b]
  · have a := hm.fib k; have b := hk.fib k; have c := hf.wb k; have d := hu.fib k
    unfold SameControl
    have e : (v.fib k).wb = (s.fib k).wb := by rw [c, d]
    unfold FibreKept at b
    rw [a, b, e]
  · rw [show (t.fib k).cell m = (v.fib k).cell m by rw [hm.fib k]; rfl, hf.cell k m]
    · rw [hu.fib k]; rfl
    · rw [show (u.fib k).wb = (s.fib k).wb by rw [hu.fib k]]; exact hc.imp (hsub k) id
  · rw [hm.k, hf.temp k n (hc.imp (hsub k) id), hu.fib k]
  · rw [hm.pred, hf.pred k p (hc.imp (hsub k) id)]; unfold State.pred; rw [hu.fib k]
  · rw [hgang, hk.gang g]
  · rw [hgang, hf.scell g n]
    · rw [show u.gang g = s.gang g by unfold State.gang; rw [hu.gangs]]
    · refine hc.imp (fun c k hk' => ?_) id
      rw [hu.kept.gangOf]; exact c k (mem_performers.mp hk').1
  · rw [show t.core c = v.core c by unfold State.core; rw [hcores], hk.core c]
  · rw [hcores, hv, lanes_cores _ _ (fun k => hl s k) hq, hp, popAll_noQueue _ _ _ hq, hn]

end Sys2Proof.Machine
end

