-- ==== Sys2Proof/Laws/Keep.lean ====
section
/-!
SUPPORT. Laws/Keep.lean: what the shared operations do to memory, scratchpads and pipes: traps and the frame of a word leave
memory as it was, writes change the bytes they name and keep the canonical form, and one coach stands on a pipe throughout.
-/

namespace Sys2Proof.Machine

/-! ### Maps with distinct keys -/

theorem Map.mem_keys_put {κ α : Type} [DecidableEq κ] (m : Map κ α) (k : κ) (v : α) (x : κ) :
    x ∈ (Map.put m k v).map (·.1) ↔ x = k ∨ x ∈ m.map (·.1) := by
  induction m with
  | nil => simp [Map.put]
  | cons a r ih =>
    obtain ⟨y, w⟩ := a
    unfold Map.put; split
    · next h => subst h; simp
    · simp only [List.map_cons, List.mem_cons, ih]; tauto

theorem Map.nodup_put {κ α : Type} [DecidableEq κ] {m : Map κ α} (h : (m.map (·.1)).Nodup) (k : κ) (v : α) :
    ((Map.put m k v).map (·.1)).Nodup := by
  induction m with
  | nil => simp [Map.put]
  | cons a r ih =>
    obtain ⟨y, w⟩ := a
    rw [List.map_cons, List.nodup_cons] at h
    unfold Map.put; split
    · next e => subst e; simpa [List.map_cons, List.nodup_cons] using h
    · next e =>
      rw [List.map_cons, List.nodup_cons, Map.mem_keys_put]
      exact ⟨fun c => c.elim e h.1, ih h.2⟩

theorem Map.del_sublist {κ α : Type} [DecidableEq κ] (m : Map κ α) (k : κ) : (Map.del m k).Sublist m := by
  induction m with
  | nil => exact .slnil
  | cons a r ih =>
    obtain ⟨y, w⟩ := a
    unfold Map.del; split
    · exact ih.cons _
    · exact ih.cons_cons _

theorem Map.nodup_sublist {κ α : Type} {m n : Map κ α} (h : (m.map (·.1)).Nodup) (hs : n.Sublist m) : (n.map (·.1)).Nodup :=
  h.sublist (hs.map _)

/-! ### Operations that leave memory alone -/

/-- Memory and scratchpads are the same, and each pipe still holds one coach. -/
structure Quiet (s t : State) : Prop where
  mem : t.mem = s.mem
  scratch : t.scratch = s.scratch
  pipes : s.PipesDistinct → t.PipesDistinct

theorem Quiet.refl (s : State) : Quiet s s := ⟨rfl, rfl, id⟩
theorem Quiet.trans {s t u : State} (h : Quiet s t) (h' : Quiet t u) : Quiet s u :=
  ⟨h'.mem.trans h.mem, h'.scratch.trans h.scratch, fun x => h'.pipes (h.pipes x)⟩
/-- Steps in the order of the later first. -/
theorem Quiet.after {s t u : State} (h' : Quiet t u) (h : Quiet s t) : Quiet s u := h.trans h'
theorem Quiet.inv {s t : State} (h : Quiet s t) (hi : s.Inv) : t.Inv :=
  ⟨by rw [h.mem]; exact hi.mem, by rw [h.scratch]; exact hi.scratch, h.pipes hi.pipes⟩
/-- The same pipes. -/
theorem Quiet.of {s t : State} (hm : t.mem = s.mem) (hs : t.scratch = s.scratch) (hp : t.pipes = s.pipes) : Quiet s t :=
  ⟨hm, hs, fun h => by unfold State.PipesDistinct; rw [hp]; exact h⟩
/-- Fewer coaches, or coaches changed where they stand. -/
theorem Quiet.ofSub {s t : State} (hm : t.mem = s.mem) (hs : t.scratch = s.scratch)
    (hp : (t.pipes.map (·.1)).Sublist (s.pipes.map (·.1))) : Quiet s t :=
  ⟨hm, hs, fun h => h.sublist hp⟩

theorem quiet_updFib (s : State) (k : FKey) (f : Fibre → Fibre) : Quiet s (s.updFib k f) := .of rfl rfl rfl
theorem quiet_updGang (s : State) (g : Nat × Nat) (f : Gang → Gang) : Quiet s (s.updGang g f) := .of rfl rfl rfl
theorem quiet_updCore (s : State) (c : Nat) (f : Core → Core) : Quiet s (s.updCore c f) := .of rfl rfl rfl
theorem quiet_updCtx (s : State) (c t : Nat) (f : Ctx → Ctx) : Quiet s (s.updCtx c t f) := .of rfl rfl rfl
theorem quiet_updLaunch (s : State) (l : Nat) (f : Launch → Launch) : Quiet s (s.updLaunch l f) := by
  unfold State.updLaunch; split <;> exact .of rfl rfl rfl
theorem quiet_updDie (s : State) (d : Nat) (f : Die → Die) : Quiet s (s.updDie d f) := .of rfl rfl rfl

theorem quiet_notes {s t : State} (h : NotesOnly s t) : Quiet s t := .of h.mem h.scratch h.pipes
theorem quiet_veil {s t : State} (h : VeilOnly s t) : Quiet s t := quiet_notes h.notes

theorem quiet_setFull (s : State) (k : FKey) (r : Reg) (b : Bool) : Quiet s (s.setFull k r b) := by
  unfold State.setFull; split
  · dsimp only; split
    · exact .of rfl rfl rfl
    · exact .refl _
  · exact quiet_updGang _ _ _
  · exact .refl _
theorem quiet_unpop (s : State) (k : FKey) : Quiet s (s.unpop k) := by
  unfold State.unpop; split
  · exact (quiet_setFull _ _ _ _).trans (quiet_updFib _ _ _)
  · exact .refl _

theorem quiet_leaveCoach (s : State) (b n : Nat) : Quiet s (s.leaveCoach b n) := by
  have h0 := quiet_unpop s (.fib b n)
  unfold State.leaveCoach
  refine h0.trans ?_
  dsimp only
  generalize s.unpop (.fib b n) = s
  refine .ofSub rfl rfl ?_
  have h : ((s.pipes.map fun (p, c) =>
      if c.block = b then (p, { c with members := c.members.filter (· ≠ n) }) else (p, c)).map (·.1)) = s.pipes.map (·.1) := by
    rw [List.map_map]; apply List.map_congr_left; rintro ⟨p, c⟩ _; dsimp only [Function.comp]; split <;> rfl
  rw [← h]
  exact List.Sublist.map _ List.filter_sublist
theorem quiet_endRunOf (s : State) (k : FKey) : Quiet s (s.endRunOf k) := .of rfl rfl rfl

theorem quiet_launchError (s : State) (l c : Nat) : Quiet s (s.launchError l c) := by
  have fewer : ∀ (u : State) (bs : List Nat) es fs, Quiet u { u with errs := es, pipes := u.pipes.filter fun p => !decide (p.2.block ∈ bs), fibres := fs } :=
    fun _ _ _ _ => .ofSub rfl rfl (List.Sublist.map _ List.filter_sublist)
  unfold State.launchError
  refine Quiet.trans ?_ (fewer _ _ _ _)
  split
  · split
    · exact .refl _
    · exact (quiet_updLaunch _ _ _).trans (.of rfl rfl rfl)
  · exact .refl _

theorem quiet_deliver (s : State) (g : Nat × Nat) : Quiet s (s.deliver g) := by
  unfold State.deliver; split
  · exact .refl _
  · dsimp only; split
    · split
      · exact quiet_launchError _ _ _
      · exact quiet_updFib _ _ _
    · exact .refl _

theorem quiet_enterTrap (s : State) (b n : Nat) (t : Trap) : Quiet s (s.enterTrap b n t) := by
  have h0 : Quiet s ((s.leaveCoach b n).endRunOf (.fib b n)) := (quiet_leaveCoach s b n).trans (quiet_endRunOf _ _)
  unfold State.enterTrap
  refine h0.trans ?_
  dsimp only
  split
  · exact quiet_updFib _ _ _
  split
  · exact quiet_updFib _ _ _
  split
  · exact quiet_updFib _ _ _
  split
  · exact quiet_launchError _ _ _
  split
  · exact quiet_launchError _ _ _
  · exact ((quiet_updGang _ _ _).trans (quiet_updFib _ _ _)).trans (quiet_deliver _ _)

theorem quiet_completeTicket (s : State) (p : Party) (sc : Scope) (c t n : Nat) : Quiet s (s.completeTicket p sc c t n) :=
  (quiet_veil (veilOnly_noteDone s p sc c t n)).trans (.of rfl rfl rfl)
theorem quiet_takeTicket (s : State) (k : FKey) (c t : Nat) : Quiet s (s.takeTicket k c t).2 := .of rfl rfl rfl

theorem quiet_recordFault (s : State) (c t : Nat) (e : CtxFault) : Quiet s (s.recordFault c t e) := by
  unfold State.recordFault; split
  · exact quiet_launchError _ _ _
  · exact quiet_updCtx _ _ _ _

theorem quiet_endAp (s : State) (c : Nat) : Quiet s (s.endAp c) := by
  unfold State.endAp; split
  · exact .refl _
  · exact (quiet_completeTicket _ _ _ _ _ _).after (.of rfl rfl rfl)

theorem quiet_raise (s : State) (k : FKey) (t : Trap) : Quiet s (s.raise k t) := by
  unfold State.raise; split
  · exact quiet_enterTrap _ _ _ _
  · exact (quiet_recordFault _ _ _ _).trans (quiet_endAp _ _)
  · exact quiet_updFib _ _ _

theorem quiet_report (s : State) (p g c : Nat) (k : FKey) : Quiet s (s.report p g c k) := .of rfl rfl rfl

theorem quiet_pageFault (s : State) (k : FKey) (f : PageFault) : Quiet s (s.pageFault k f) := by
  unfold State.pageFault; split
  · next b n =>
    have h0 : Quiet s (((s.leaveCoach b n).endRunOf (.fib b n)).report (s.block b).part f.page f.trap.cause (.fib b n)) :=
      ((quiet_leaveCoach s b n).trans (quiet_endRunOf _ _)).trans (quiet_report _ _ _ _ _)
    refine h0.trans ?_
    dsimp only
    split <;> exact quiet_updFib _ _ _
  · exact (quiet_report _ _ _ _ _).trans (quiet_updFib _ _ _)
  · exact quiet_raise _ _ _

/-! ### The frame of a word -/

theorem quiet_startWalks (d n : Nat) (s : State) : Quiet s (State.startWalks d n s) := by
  induction n generalizing s with
  | zero => exact .refl _
  | succ n ih =>
    unfold State.startWalks; split
    · exact .refl _
    · split
      · exact (ih _).after (.of rfl rfl rfl)
      · exact .refl _
theorem quiet_enterMiss (s : State) (k : FKey) (va : W64) : Quiet s (s.enterMiss k va) := by
  unfold State.enterMiss State.enqueueMiss; dsimp only; split
  · exact (quiet_startWalks _ _ _).after (.of rfl rfl rfl)
  · split
    · exact .refl _
    · exact (quiet_startWalks _ _ _).after (.of rfl rfl rfl)
theorem quiet_leaveMiss (s : State) (k : FKey) : Quiet s (s.leaveMiss k) := .of rfl rfl rfl
theorem quiet_flushCarts (s : State) (d : Nat) (p : Req → Bool) : Quiet s (s.flushCarts d p) := .of rfl rfl rfl
theorem quiet_sendFetch (s : State) (r : Req) : Quiet s (s.sendFetch r) := by
  unfold State.sendFetch; dsimp only; split
  · split
    · exact .of rfl rfl rfl
    · split
      · exact .refl _
      · split
        · exact quiet_flushCarts _ _ _
        · split
          · exact .refl _
          · exact .of rfl rfl rfl
  · exact .refl _
theorem quiet_startReload (s : State) (k : FKey) (n : Nat) : Quiet s (s.startReload k n) := by
  unfold State.startReload; split
  · split
    · next c _ _ =>
      have h := quiet_veil ((veilOnly_newAgent s (loadParty (c.load.elim k CrLoad.fibre) n)).trans
        (veilOnly_follows _ (.agent k) (loadParty (c.load.elim k CrLoad.fibre) n)))
      exact ⟨h.mem, h.scratch, h.pipes⟩
    · exact .refl _
  · exact .refl _
theorem quiet_dropLines (s : State) (ks : List FKey) : Quiet s (s.dropLines ks) := .of rfl rfl rfl

theorem quiet_evictCart (s : State) (k : FKey) (d x : Nat) : Quiet s (s.evictCart k d x) := by
  unfold State.evictCart; dsimp only; split
  · exact .refl _
  · split
    · exact .refl _
    · exact .of rfl rfl rfl
theorem quiet_dropCartFault (s : State) (c : Nat) (e : CartFault) : Quiet s (s.dropCartFault c e) := .of rfl rfl rfl
theorem quiet_startPop (s : State) (k : FKey) (r : Reg) : Quiet s (s.startPop k r) := by
  unfold State.startPop; split
  · exact .refl _
  · exact (quiet_setFull _ _ _ _).trans (quiet_updFib _ _ _)
theorem quiet_consume (s : State) (k : FKey) : Quiet s (s.consume k) := by
  unfold State.consume
  refine Quiet.trans ?_ ((quiet_updFib _ _ _).trans (quiet_updLaunch _ _ _))
  split
  · exact (quiet_leaveCoach _ _ _).trans (quiet_endRunOf _ _)
  · exact .refl _
theorem quiet_dropCtxFault (s : State) (c t : Nat) (g : Nat × Nat) : Quiet s (s.dropCtxFault c t g) := .of rfl rfl rfl

/-- Whatever the members of a word meet, memory stays. -/
theorem quiet_takeVerdicts (s : State) (vs : List (FKey × Verdict)) : Quiet s (s.takeVerdicts vs) :=
  foldl_rel Quiet.refl Quiet.trans (fun s v => by
    obtain ⟨k, v⟩ := v
    have h := quiet_leaveMiss s k
    cases v with
    | trap t => exact h.trans (quiet_raise _ k t)
    | page f => exact h.trans (quiet_pageFault _ k f)
    | miss va => exact quiet_enterMiss s k va
    | reject f => exact (h.trans (quiet_updFib _ _ _)).trans (quiet_raise _ k f.trap)
    | cart d x => exact h.trans (quiet_evictCart _ _ d x)
    | flush c => exact h.trans (quiet_flushCarts _ _ _)
    | report t e => exact (h.trans (quiet_dropCartFault _ _ e)).trans (quiet_raise _ k t)
    | fetch r => exact h.trans (quiet_sendFetch _ r)
    | reload n => exact h.trans (quiet_startReload _ k n)
    | pop r => exact h.trans (quiet_startPop _ k r)
    | ctx t n => exact (h.trans (quiet_dropCtxFault _ _ n _)).trans (quiet_raise _ k t)
    | rollback => exact h.trans (quiet_consume _ k)
    | go | skip | stall | spent _ => exact h) vs s

theorem keys_map {α : Type} (m : Map Nat α) (f : α → α) (k : Nat) :
    ((m.map fun (q, x) => if q = k then (q, f x) else (q, x)).map (·.1)) = m.map (·.1) := by
  rw [List.map_map]; apply List.map_congr_left; rintro ⟨q, x⟩ _; dsimp only [Function.comp]; split <;> rfl

theorem quiet_setStalled (s : State) (b : Bool) : Quiet s (s.setStalled b) := by
  unfold State.setStalled; split
  · next c p _ => exact .ofSub rfl rfl (by
      rw [show (State.pipes _).map (·.1) = _ from keys_map s.pipes (fun x => { x with stalled := b }) (pipeKey c p)])
  · exact .refl _

theorem quiet_putPipe (s : State) (k : Nat) (c : Coach) : Quiet s { s with pipes := s.pipes.put k c } :=
  ⟨rfl, rfl, fun h => Map.nodup_put h k c⟩
theorem quiet_delPipe (s : State) (k : Nat) : Quiet s { s with pipes := s.pipes.del k } :=
  .ofSub rfl rfl (List.Sublist.map _ (Map.del_sublist _ _))

theorem quiet_syncHelpers (s : State) (c p : Nat) : Quiet s (s.syncHelpers c p) := by
  unfold State.syncHelpers; split
  · exact .refl _
  · next x hx =>
    dsimp only
    refine Quiet.trans (t := (x.members.filter fun n => s.isHelper (.fib x.block n)).foldl (fun s n => match s.quadLeader x.block n with
      | some m => s.updFib (.fib x.block n) fun f => { f with pc := (s.fib (.fib x.block m)).pc }
      | none => s) s) ?_ ?_
    · refine foldl_rel Quiet.refl Quiet.trans (fun s n => ?_) _ s
      split
      · exact quiet_updFib _ _ _
      · exact .refl _
    · split
      · exact quiet_delPipe _ _
      · exact quiet_putPipe _ _ _

theorem quiet_boundaryTraps (s : State) (k : FKey) : Quiet s (s.boundaryTraps k) := by
  unfold State.boundaryTraps; dsimp only; split
  · split
    · exact .refl _
    · split
      · exact (quiet_updFib _ _ _).trans (quiet_raise _ _ _)
      · split
        · exact (quiet_updFib _ _ _).trans (quiet_raise _ _ _)
        · exact .refl _
  · exact .refl _

theorem quiet_endRun (s : State) : Quiet s s.endRun := by
  unfold State.endRun; split
  · split
    · exact .refl _
    · refine Quiet.trans ?_ (foldl_rel Quiet.refl Quiet.trans (fun _ _ => quiet_boundaryTraps _ _) _ _)
      refine Quiet.trans ?_ (foldl_rel Quiet.refl Quiet.trans (fun _ _ => quiet_updFib _ _ _) _ _)
      exact (quiet_syncHelpers _ _ _).trans (quiet_delPipe _ _)
  · exact .refl _

theorem quiet_countWord (s : State) : Quiet s s.countWord := by
  unfold State.countWord; split
  · split
    · exact .refl _
    · exact (quiet_putPipe _ _ _).trans (quiet_syncHelpers _ _ _)
  · exact .refl _

theorem quiet_setPcs (s : State) (l : List (FKey × W64)) : Quiet s (s.setPcs l) :=
  foldl_rel Quiet.refl Quiet.trans (fun _ _ => quiet_updFib _ _ _) l s

theorem quiet_regsOnly {s t : State} (h : RegsOnly s t) : Quiet s t := by rw [h]; exact .of rfl rfl rfl

theorem quiet_spend (s : State) (vs : List (FKey × Verdict)) : Quiet s (vs.foldl State.spend s) :=
  foldl_rel Quiet.refl Quiet.trans (fun s x => by
    unfold State.spend; split
    · exact (quiet_regsOnly (foldl_rel RegsOnly.refl RegsOnly.trans (fun s _ => regsOnly_pop s _ _ _) _ s)).trans (quiet_updFib _ _ _)
    · exact .refl _) vs s

/-- The frame of a word adds nothing to what its effect and what follows it do to memory and pipes: a relation that holds of
both, that quiet steps have and that composes, holds of the word. -/
theorem issue_rel {R : State → State → Prop} (hq : ∀ {s t}, Quiet s t → R s t) (ht : ∀ {s t u}, R s t → R t u → R s u) {i : Instr}
    {s t : State} {check : State → FKey → Verdict} {eff : State → List FKey → State} {next : State → FKey → W64}
    {after : State → List FKey → State} (he : ∀ s ks, R s (eff s ks)) (ha : ∀ s ks, R s (after s ks))
    (h : issue i s check eff next after = .next t) : R s t := by
  unfold issue at h
  split at h
  · cases h
  · next ks hk =>
    dsimp only at h
    split at h
    · cases h; exact hq ((quiet_takeVerdicts _ _).trans (quiet_setStalled _ _))
    · cases h
      refine ht ?_ (ha _ _)
      have h1 := fun live => ht (hq (((quiet_takeVerdicts s (ks.map fun k => (k, s.verdict i check k))).trans
        (quiet_spend _ (ks.map fun k => (k, s.verdict i check k)))).trans (quiet_veil (veilOnly_noteWord _ i live)))) (he _ (((ks.map fun k => (k, s.verdict i check k)).filter fun v => v.2 = .go).map (·.1)))
      split
      · exact ht (h1 _) (hq (((quiet_dropLines _ _).trans (quiet_setPcs _ _)).trans (quiet_endRun _)))
      · exact ht (h1 _) (hq (((quiet_dropLines _ _).trans (quiet_setPcs _ _)).trans (quiet_countWord _)))

theorem issue_quiet {i : Instr} {s t : State} {check : State → FKey → Verdict} {eff : State → List FKey → State}
    {next : State → FKey → W64} {after : State → List FKey → State} (he : ∀ s ks, Quiet s (eff s ks)) (ha : ∀ s ks, Quiet s (after s ks))
    (h : issue i s check eff next after = .next t) : Quiet s t := issue_rel id Quiet.trans he ha h

theorem issue_inv {i : Instr} {s t : State} {check : State → FKey → Verdict} {eff : State → List FKey → State}
    {next : State → FKey → W64} {after : State → List FKey → State} (he : ∀ s ks, s.Inv → (eff s ks).Inv)
    (ha : ∀ s ks, s.Inv → (after s ks).Inv) (hi : s.Inv) (h : issue i s check eff next after = .next t) : t.Inv :=
  issue_rel (R := fun s t => s.Inv → t.Inv) (fun hq => hq.inv) (fun h h' hi => h' (h hi)) he ha h hi

theorem quiet_markServed (s : State) (k : FKey) : Quiet s (s.markServed k) := by
  unfold State.markServed; dsimp only; split
  · next c p b n _ => exact .ofSub rfl rfl (by
      rw [show (State.pipes _).map (·.1) = _ from keys_map s.pipes (fun x => { x with served := n :: x.served }) (pipeKey c p)])
  · exact quiet_updFib _ _ _

theorem serialGo_rel {R : State → State → Prop} (hq : ∀ {s t}, Quiet s t → R s t) (ht : ∀ {s t u}, R s t → R t u → R s u) {i : Instr}
    {check : State → FKey → Verdict} {eff : State → FKey → State} (he : ∀ s k, R s (eff s k)) (ks : List FKey) (s : State) :
    R s (serialGo i check eff ks s).1 := by
  induction ks generalizing s with
  | nil => exact hq (.refl _)
  | cons k r ih =>
    unfold serialGo
    split
    · exact ih _
    · dsimp only
      split
      · exact hq (quiet_takeVerdicts _ _)
      · split
        · exact ht (ht (ht (hq (quiet_veil (veilOnly_depends _ _ _))) (he _ _)) (hq ((quiet_dropLines _ _).trans (quiet_markServed _ _)))) (ih _)
        · exact ht (hq (quiet_takeVerdicts _ _)) (ih _)

theorem issueSerial_rel {R : State → State → Prop} (hq : ∀ {s t}, Quiet s t → R s t) (ht : ∀ {s t u}, R s t → R t u → R s u) {i : Instr}
    {s t : State} {check : State → FKey → Verdict} {eff : State → FKey → State} (he : ∀ s k, R s (eff s k))
    (h : issueSerial i s check eff = .next t) : R s t := by
  unfold issueSerial at h
  split at h
  · cases h
  · next ks hk =>
    have h0 := serialGo_rel hq ht (i := i) (check := check) he ks s
    dsimp only at h
    split at h
    · cases h; exact ht h0 (hq (quiet_setStalled _ _))
    · cases h; exact ht h0 (hq (quiet_countWord _))

theorem issueSerial_inv {i : Instr} {s t : State} {check : State → FKey → Verdict} {eff : State → FKey → State}
    (he : ∀ s k, s.Inv → (eff s k).Inv) (hi : s.Inv) (h : issueSerial i s check eff = .next t) : t.Inv :=
  issueSerial_rel (R := fun s t => s.Inv → t.Inv) (fun hq => hq.inv) (fun h h' hi => h' (h hi)) he h hi

/-- A word that computes on registers only leaves memory alone. -/
theorem compute_quiet {i : Instr} {s t : State} {lane : State → FKey → List Wr} (h : compute i s lane = .next t) : Quiet s t :=
  issue_quiet (fun s ks => quiet_regsOnly ((foldl_rel RegsOnly.refl RegsOnly.trans (fun s k => regsOnly_popSlots s k _) ks s).trans
    (regsOnly_lanes _ _))) (fun _ _ => .refl _) h

/-! ### Writes -/

theorem inv_of {s t : State} (hm : s.mem.wf = true → t.mem.wf = true) (hs : s.scratch.wf = true → t.scratch.wf = true)
    (hp : s.PipesDistinct → t.PipesDistinct) (hi : s.Inv) : t.Inv := ⟨hm hi.mem, hs hi.scratch, hp hi.pipes⟩

theorem quiet_markCarriages (s : State) (pa n : Nat) : Quiet s (s.markCarriages pa n) := by
  unfold State.markCarriages; split <;> exact .of rfl rfl rfl
theorem quiet_nonRecoverable (s : State) (l : Nat) (w : NonRec) : Quiet s (s.nonRecoverable l w) := by
  unfold State.nonRecoverable; split
  · split
    · exact (quiet_updLaunch _ _ _).trans (.of rfl rfl rfl)
    · exact .refl _
  · exact .refl _
theorem quiet_logUndo (s : State) (l : Option Nat) (pa : Nat) : Quiet s (s.logUndo l pa) := by
  unfold State.logUndo; split
  · exact .refl _
  · split
    · exact .refl _
    · dsimp only; split
      · exact .refl _
      · split
        · exact quiet_nonRecoverable _ _ _
        · exact quiet_updLaunch _ _ _

/-- Before a write at its home: carriages are marked, the undo log is fed, the write is noted; memory stays. -/
theorem quiet_beforeWrite (s : State) (l : Option Nat) (w : Writer) (pa : Nat) (bs : List Byte) (old : List Byte) :
    Quiet s (((linesOf pa bs.length).foldl (fun s la => s.logUndo l (la * 128)) (s.markCarriages pa bs.length)).noteWrite w false pa old) :=
  ((quiet_markCarriages s pa _).trans (foldl_rel Quiet.refl Quiet.trans (fun s _ => quiet_logUndo s l _) _ _)).trans
    (quiet_veil (veilOnly_noteWrite _ _ _ _ _))

/-- A write at its home changes memory as it says, and no scratchpad. -/
theorem homeWrite_mem (s : State) (l : Option Nat) (w : Writer) (pa : Nat) (bs : List Byte) :
    (s.homeWrite l w pa bs).mem = s.mem.writeBytes pa bs :=
  congrArg (Memory.writeBytes · pa bs) (quiet_beforeWrite s l w pa bs _).mem
theorem homeWrite_scratch (s : State) (l : Option Nat) (w : Writer) (pa : Nat) (bs : List Byte) : (s.homeWrite l w pa bs).scratch = s.scratch :=
  (quiet_beforeWrite s l w pa bs _).scratch
theorem homeWrite_pipes (s : State) (l : Option Nat) (w : Writer) (pa : Nat) (bs : List Byte) (h : s.PipesDistinct) :
    (s.homeWrite l w pa bs).PipesDistinct := (quiet_beforeWrite s l w pa bs _).pipes h
theorem homeWrite_outside (s : State) (l : Option Nat) (w : Writer) (pa : Nat) (bs : List Byte) {a : Nat}
    (h : a < pa ∨ pa + bs.length ≤ a) : (s.homeWrite l w pa bs).mem.read a = s.mem.read a := by
  rw [homeWrite_mem]; exact Memory.read_writeBytes_of_outside _ _ _ h
theorem homeWrite_inv {s : State} (hi : s.Inv) (l : Option Nat) (w : Writer) (pa : Nat) (bs : List Byte) : (s.homeWrite l w pa bs).Inv :=
  inv_of (fun h => by rw [homeWrite_mem]; exact Memory.wf_writeBytes h _ _) (fun h => by rw [homeWrite_scratch]; exact h)
    (homeWrite_pipes s l w pa bs) hi

theorem wf_foldl_write {α : Type} (f : α → Nat) (g : α → Byte) (l : List α) {m : Memory} (h : m.wf = true) :
    Memory.wf (l.foldl (fun m x => m.write (f x) (g x)) m) = true := by
  induction l generalizing m with
  | nil => exact h
  | cons x r ih => exact ih (Memory.wf_write h _ _)

/-- A write to a scratchpad leaves memory alone and keeps the canonical form. -/
theorem quiet_noteScratch (s : State) (w : Writer) (b : Nat) (l : List (Nat × Nat)) :
    VeilOnly s (l.foldl (fun s (o, m) => s.noteWrite w true (s.scratchKey b o) (s.scratchBytes b o m)) s) :=
  .foldl (fun s _ => veilOnly_noteWrite s _ _ _ _) l s
theorem scratchWrite_mem (s : State) (w : Writer) (b off : Nat) (bs : List Byte) : (s.scratchWrite w b off bs).mem = s.mem :=
  (quiet_noteScratch s w b _).mem
theorem scratchWrite_inv {s : State} (hi : s.Inv) (w : Writer) (b off : Nat) (bs : List Byte) : (s.scratchWrite w b off bs).Inv := by
  have h := (quiet_veil (quiet_noteScratch s w b (scratchPieces bs.length off bs.length))).inv hi
  exact ⟨h.mem, wf_foldl_write (fun x : Byte × Nat => State.scratchKey _ b (off + x.2)) (·.1) _ h.scratch, h.pipes⟩
theorem quiet_scratchPoison (s : State) (b off n : Nat) : Quiet s (s.scratchPoison b off n) := .of rfl rfl rfl
theorem arrival_inv {s : State} (hi : s.Inv) (p : Party) (rel : Option Scope) (b off dc dt : Nat) (bk : Bool) :
    (s.arrival p rel b off dc dt bk).Inv := by
  unfold State.arrival; dsimp only; split
  · exact hi
  · split
    · exact scratchWrite_inv hi _ _ _ _
    · exact scratchWrite_inv hi _ _ _ _

theorem quiet_addReq (s : State) (r : Req) : Quiet s (s.addReq r) := .of rfl rfl rfl
theorem quiet_setReq (s : State) (id : Nat) (f : Req → Req) : Quiet s (s.setReq id f) := .of rfl rfl rfl
theorem quiet_dropReq (s : State) (id : Nat) : Quiet s (s.dropReq id) := .of rfl rfl rfl

/-! ### Lines at their homes (R224, R281, R286) -/

theorem quiet_startExp (s : State) (h la : Nat) : Quiet s (s.startExp h la) := by
  unfold State.startExp; split <;> exact .of rfl rfl rfl
theorem quiet_claim (s : State) (p : Party) (ls : List (Nat × Nat)) : Quiet s (s.claim p ls) := by
  unfold State.claim
  exact (foldl_rel Quiet.refl Quiet.trans (fun s l => quiet_startExp s l.1 l.2) ls s).trans (.of rfl rfl rfl)
theorem quiet_unclaim (s : State) (p : Party) : Quiet s (s.unclaim p) := .of rfl rfl rfl
theorem quiet_unclaimLine (s : State) (p : Party) (l : Nat × Nat) : Quiet s (s.unclaimLine p l) := .of rfl rfl rfl
theorem quiet_grantLease (s : State) (h la e : Nat) : Quiet s (s.grantLease h la e) := .of rfl rfl rfl
theorem quiet_foldLine (s : State) (h la : Nat) : Quiet s (s.foldLine h la) := by
  unfold State.foldLine; split <;> exact .of rfl rfl rfl
theorem quiet_useController (s : State) (pa t : Nat) : Quiet s (s.useController pa t) := .of rfl rfl rfl
theorem quiet_allocate (s : State) (n la : Nat) (strm : Bool) (copy : Option Line) : Quiet s (s.allocate n la strm copy) := by
  have start : ∀ s : State, Quiet s (if copy.isNone then s.startExp n la else s) := fun s => by split; exact quiet_startExp _ _ _; exact .refl _
  unfold State.allocate; dsimp only; split
  · exact (start _).trans (.of rfl rfl rfl)
  · split
    · exact (start _).trans (.of rfl rfl rfl)
    · split
      · exact ((quiet_foldLine _ _ _).trans (start _)).trans (.of rfl rfl rfl)
      · exact .refl _
theorem quiet_called (s : State) (n w : Nat) : Quiet s (s.called n w) := .of rfl rfl rfl
theorem quiet_visitLine (s : State) (w h la : Nat) (strm : Bool) : Quiet s (s.visitLine w h la strm) := by
  have h0 : Quiet s (if h < 192 then s.called h w else s) := by split; exact quiet_called _ _ _; exact .refl _
  unfold State.visitLine
  refine h0.trans ?_
  generalize (if h < 192 then s.called h w else s) = s
  dsimp only; split
  · split
    · exact quiet_useController _ _ _
    · exact .refl _
  · split
    · exact .of rfl rfl rfl
    · refine Quiet.trans ?_ (quiet_allocate _ _ _ _ _)
      split
      · exact .of rfl rfl rfl
      · exact (quiet_useController _ _ _).after (.of rfl rfl rfl)
theorem quiet_visitSlice (s : State) (r : Req) : Quiet s (s.visitSlice r) := by
  unfold State.visitSlice; split
  · exact .refl _
  · dsimp only
    have h0 : ∀ t : State, Quiet s t → Quiet s (t.allocate r.slice (r.pa / 128) r.strm none) := fun t h => h.trans (quiet_allocate _ _ _ _ _)
    have h2 := h0 s (.refl s)
    have h3 := h0 _ (quiet_useController s r.pa (r.hold + 150))
    split <;> split <;> first | exact h2.trans (.of rfl rfl rfl) | exact h3.trans (.of rfl rfl rfl)

/-! ### Tickets (R8) -/

theorem completeTicket_other (s : State) (p : Party) (sc : Scope) (c t n : Nat) {c' t' : Nat} (h : c' ≠ c ∨ t' ≠ t) :
    (s.completeTicket p sc c t n).ctx c' t' = s.ctx c' t' := by
  unfold State.completeTicket
  rw [State.updCtx_ctx_ne _ _ h]
  show ((s.noteDone p sc c t n).core c').ctx.atD t' {} = _
  rw [(veilOnly_noteDone s p sc c t n).notes.core]; rfl

theorem le_advance (fuel v : Nat) (done : List Nat) : v ≤ advance fuel v done := by
  induction fuel generalizing v with
  | zero => exact Nat.le_refl _
  | succ n ih =>
    unfold advance; split
    · exact Nat.le_trans (Nat.le_succ v) (ih (v + 1))
    · exact Nat.le_refl _

/-- Completing a ticket never lowers the value, and issues none. -/
theorem completeTicket_same (s : State) (p : Party) (sc : Scope) (c t n : Nat) :
    ((s.completeTicket p sc c t n).ctx c t).issued = (s.ctx c t).issued ∧
      (s.ctx c t).value ≤ ((s.completeTicket p sc c t n).ctx c t).value := by
  have h : ∀ hs, State.ctx { s.noteDone p sc c t n with holds := hs } c t = s.ctx c t := fun hs => by
    show ((s.noteDone p sc c t n).core c).ctx.atD t {} = _
    rw [(veilOnly_noteDone s p sc c t n).notes.core]; rfl
  unfold State.completeTicket
  rw [State.updCtx_ctx_same, h]
  exact ⟨rfl, le_advance _ _ _⟩

/-- A ticket taken is the next one, and nothing else of the context changes. -/
theorem takeTicket_ctx (s : State) (k : FKey) (c t : Nat) :
    (s.takeTicket k c t).1 = (s.ctx c t).issued + 1 ∧ ((s.takeTicket k c t).2.ctx c t).issued = (s.ctx c t).issued + 1 ∧
      ((s.takeTicket k c t).2.ctx c t).value = (s.ctx c t).value := by
  unfold State.takeTicket State.updCtx State.ctx State.updCore State.core
  simp

end Sys2Proof.Machine
end

