-- ==== Sys2Proof/Tests/Slice0.lean ====
section
/-!
SUPPORT. Tests/Slice0.lean: ill-formed terms that WellFormed refuses, words of the spec's encodings decoded, a witness for the
hypotheses of every statement, and single steps with results worked out from the spec.
-/

namespace Sys2Proof.Tests
open Sys2Proof Sys2Proof.Machine

set_option Elab.async false

/-! ### A small machine -/

/-- A page-table word: destination device, frame, low bits (R273). 0xCF is readable, writable, executable, user, homed by line. -/
def pte (dev frame low : Nat) : W64 := BitVec.ofNat 64 (dev * 2 ^ 53 + frame * 2 ^ 16 + low)

/-- A 64 KB page of partition 0. -/
def page (n : Nat) (p : W64) : Tlb := { part := 0, base := n * 65536, size := 16, pte := p }

/-- Pages 0 and 1 of this device, a cell page 2, page 3 of device 5, page 4 of the shared store, page 5 of lease class 3, page 6
of a multicast group. -/
def pages : List Tlb :=
  [page 0 (pte 0x7FF 0 0xCF), page 1 (pte 0x7FF 1 0xCF), page 2 (pte 0x7FF 2 0x1CF), page 3 (pte 5 3 0xCF),
    page 4 (pte 0x7FF 0x8000000 0xCF), page 5 (pte 0x7FF 5 0xFF), page 6 (pte 0x500 6 0xCF)]

/-- A launch record (R140): entry 0x100, one block, two fibres of at most four, 64 registers, 1024 bytes of scratchpad; a liveness
record and a region record in page 1. -/
def rec (roles flags : Nat) : List Byte :=
  toBytes 8 0x100 ++ toBytes 12 (1 + 2 ^ 32 + 2 ^ 64) ++ toBytes 4 (2 + 4 * 2 ^ 16) ++ toBytes 4 64 ++ toBytes 4 1024 ++ toBytes 8 roles ++
    toBytes 4 flags ++ List.replicate 0x54 0 ++ toBytes 8 0x10000 ++ toBytes 8 0x10400 ++ toBytes 8 0x77 ++ toBytes 8 (1 + 2 ^ 16) ++
    List.replicate 96 0

/-- The launch, placed on core 0. -/
def launch (roles flags : Nat) : Launch :=
  { part := 0, queue := 0, recAt := 0x10000, record := rec roles flags, state := .running, cursor := 1, placed := 1 }

def blk (roles : Nat) : Block :=
  { lid := 1, core := 0, fibres := 2, maxf := 4, regs := 64, scratch := 1024, roles := roles, units := List.range 8, order := 1 }

/-- Values of the registers of fibre `n`: v0 to v15 for arithmetic, then 64-bit addresses in pairs from v16. -/
def regs (n : Nat) : Map Nat RegCell :=
  ([5 + n, 3, 0xFFFFFFFE, 0x80000001, 0x3F800000, 0xC0400000, 7, 31, 0x00080004, 40, 0x10, 0x40, 1, 0, 0x21F, 9,
    0x10000, 0, 0x20000, 0, 0x30000, 0, 0x10100, 0, 0x40000, 0, 0x50000, 0, 0x60000, 0].zipIdx).map fun x => (x.2, { val := BitVec.ofNat 32 x.1 })

/-- Fibre `n`, at 0x100. -/
def fibre (n : Nat) : Fibre := { pc := 0x100, p := 0x2, lr := 0x200, regs := regs n }

/-- A released device that runs one block with the fibre of slot 0 in the coach on pipe 0 of core 0, whose turn it is. -/
def base (roles : Nat := 0) (flags : Nat := 0) : State :=
  { State.reset with
    clock := 5000
    bootstat := 0x41
    tlb1 := [(0, pages)]
    partitions := [(0, { cfg := 0xE000000000000001 })]
    launches := [(1, launch roles flags)]
    queues := [(0, { held := [1] })]
    nextLid := 2
    blocks := [(0, blk roles)]
    nextBlock := 1
    gangs := [((0, 0), { s := [(1, { val := 0x1234 }), (2, { val := 0x100000002 })], sr := { tvec := 0x800 } })]
    fibres := [(.fib 0 0, fibre 0)]
    pipes := [(0, { block := 0, members := [0] })]
    agent := some (.coach 0 0) }

/-- As `base`, with the fibres of slots 0 and 1 and a helper in slot 2 in the coach. -/
def trio (roles : Nat := 0) : State :=
  { base roles with
    fibres := [(.fib 0 0, fibre 0), (.fib 0 1, fibre 1), (.fib 0 2, { fibre 2 with status := .helper })]
    pipes := [(0, { block := 0, members := [0, 1, 2] })] }

/-- As `base`, with a second live fibre that is in no coach. -/
def pair (roles : Nat := 0) : State := { base roles with fibres := [(.fib 0 0, fibre 0), (.fib 0 1, fibre 1)] }

/-- The access processor of core 0 runs a program of gang 0. -/
def apBase : State :=
  { base with
    fibres := [(.ap 0, { fibre 0 with p := 0x2 }), (.fib 0 0, fibre 0)]
    cores := [(0, { apOwner := some (0, 0, 0, 1), ctx := [(7, { issued := 1 })] })]
    agent := some (.ap 0) }

/-- Control core 0 has the turn. -/
def ctlBase : State :=
  { base with
    fibres := [(.ctl 0, { fibre 0 with pc := 0x300 }), (.fib 0 0, fibre 0)]
    ctlSr := [(0, { tvec := 0x900 })]
    agent := some (.ctl 0) }

/-- `s` with registers of fibre `k` set. -/
def withRegs (s : State) (k : FKey) (l : List (Nat × W32)) : State := l.foldl (fun s x => s.setV k x.1 x.2) s

/-- `s` with an event's operands. -/
def withArgs (s : State) (x : StepArgs) : State := { s with agent := none, args := x }

/-! ### Hypotheses by evaluation -/

theorem ready_of {s : State} {i : Instr} {k : FKey}
    (h : (s.members = some [k] ∧ s.isHelper k = false) ∧ s.isServed k = false ∧ s.issueCheck k i = .go) : s.Ready i k :=
  ⟨h.1.1, h.1.2, h.2.1, h.2.2⟩

theorem noHeld_of {s : State} {k : FKey} (h : (s.fib k).heldTimer = false ∧ (s.fib k).heldDebug = false) : s.NoHeld k := ⟨h.1, h.2⟩

theorem canTrap_of {s : State} {b n : Nat}
    (h : ((s.fib (.fib b n)).service = false ∧ (s.gang (b, n / 32)).trapq = []) ∧ (s.gang (b, n / 32)).sr.tvec ≠ 0 ∧
      (s.gang (b, n / 32)).debug = false ∧ (s.fib (.fib b n)).pop = none ∧ (s.pipes.map (·.1)).Nodup) : s.CanTrap b n :=
  ⟨h.1.1, h.1.2, h.2.1, h.2.2.1, h.2.2.2.1, h.2.2.2.2⟩

theorem proceeds_of {s : State} {i : Instr} {c : State → FKey → Verdict} {ks : List FKey}
    (h : s.members = some ks ∧ ∀ k ∈ ks, s.verdict i c k = .go ∨ (s.isHelper k = true ∧ s.verdict i c k = .skip)) : s.Proceeds i c ks := h

theorem reaches_of {s : State} {k : FKey} {i : Instr} {acc : Acc} {ord : Order} {sc : Scope} {va : W64} {n : Nat} {x : Target}
    (h : (va.toNat % n = 0 ∧ s.target k acc va = .ok x) ∧ s.acqPending k = false ∧ s.fabCheck k i ord sc = .go ∧
      s.targetWait s k i va acc.writes x = .go ∧ x.dev = none) (hc : ∀ c, k = .ctl c → inControl va.toNat = false ∧ s.fotGranule x.pa = none) :
    s.Reaches k i acc ord sc va n x :=
  ⟨h.1.1, h.1.2, h.2.1, h.2.2.1, h.2.2.2.1, h.2.2.2.2, hc⟩

theorem scratch_of {s : State} {k : FKey} {a : Reg} {n key : Nat} (b off : Nat)
    (h : (s.src32 k a).toNat % n = 0 ∧ s.scratchAddr (s.gangOf k).1 (s.src32 k a).toNat = .ok (b, off) ∧ key = s.scratchKey b off) :
    s.ScratchAt k a n key :=
  ⟨h.1, b, off, h.2.1, h.2.2⟩

theorem reachesFar_of {s : State} {k : FKey} {i : Instr} {acc : Acc} {ord : Order} {sc : Scope} {va : W64} {n : Nat} {x : Target} {d : Nat}
    (h : (va.toNat % n = 0 ∧ s.target k acc va = .ok x ∧ s.acqPending k = false ∧ s.fabCheck k i ord sc = .go) ∧
      s.targetWait s k i va acc.writes x = .go ∧ x.dev = some d ∧ isGroup d = false ∧ s.held? d x.pa = none ∧ s.unreachable d = false) :
    s.ReachesFar k i acc ord sc va n x d :=
  ⟨h.1.1, h.1.2.1, h.1.2.2.1, h.1.2.2.2, h.2.1, h.2.2.1, h.2.2.2.1, h.2.2.2.2.1, h.2.2.2.2.2⟩

theorem canSend_of {s : State} {d cls n : Nat}
    (h : (s.flows.atD (d, cls) {}).givenUp = false ∧ (s.flows.atD (d, cls) {}).unacked.length + n ≤ 1024 ∧
      ∀ b ∈ s.backlog, ¬(b.1 = d ∧ b.2.1 = cls)) : s.CanSend d cls n :=
  ⟨h.1, h.2.1, h.2.2⟩

theorem last_of {s : State} {g : Nat × Nat} {i : Instr} {ks : List FKey}
    (h : (s.members = some ks ∧ (∀ k ∈ ks, s.isHelper k = false → k ∈ (s.liveInGang g).map (FKey.fib g.1))) ∧
      (∃ n ∈ s.liveInGang g, FKey.fib g.1 n ∈ ks) ∧ (∀ n ∈ s.liveInGang g, FKey.fib g.1 n ∉ ks → (s.fib (.fib g.1 n)).wait = .coll i) ∧
      (∀ n ∈ s.liveInGang g, FKey.fib g.1 n ∈ ks → s.issueCheck (.fib g.1 n) i = .go) ∧ (∀ k ∈ ks, s.isHelper k = true → s.helperCheck k i ≠ .stall) ∧
      ∀ n ∈ s.liveInGang g, ∀ m ∈ s.liveInGang g, (s.fib (.fib g.1 n)).pc = (s.fib (.fib g.1 m)).pc) : s.LastOfGang g i ks :=
  ⟨h.1.1, fun k hk hl => (List.mem_map.1 (h.1.2 k hk hl)).imp fun _ x => ⟨x.1, x.2.symm⟩, h.2.1, h.2.2.1, h.2.2.2.1, h.2.2.2.2.1, h.2.2.2.2.2⟩

theorem pops_of {s : State} {k : FKey} {l : List Slot}
    (h : ∀ x ∈ l.zipIdx, x.1.rd = true → ∀ q, x.1.reg = .q q → (s.inboundEntry k q (earlierPops l x.2 q)).isSome = true) :
    ∀ t m q, (t, m) ∈ l.zipIdx → t.rd = true → t.reg = .q q → (s.inboundEntry k q (earlierPops l m q)).isSome = true :=
  fun t m q hx => (h (t, m) hx · q)

theorem fields_of {s : State} {k : FKey} {i : Instr}
    (h : (s.illField k i = false ∧ illOpndClass k i = false ∧ s.illOpndWindow k i = false) ∧ (s.illWbase k i = false ∧ i.ordOk = true) ∧
      (s.runCount k < 23 ∨ i.runEnding = true) ∧ s.roleOk k i = true) : s.FieldsOk k i :=
  ⟨h.1.1, h.1.2.1, h.1.2.2, h.2.1.1, h.2.1.2, h.2.2.1, h.2.2.2⟩

theorem whole_of {s : State} {g : Nat × Nat} {i : Instr} {ks : List FKey}
    (h : (s.members = some ks ∧ ks.filter (fun k => !s.isHelper k) = (s.liveInGang g).map (FKey.fib g.1)) ∧ s.liveInGang g ≠ [] ∧
      (∀ n ∈ s.liveInGang g, s.issueCheck (.fib g.1 n) i = .go) ∧ (∀ k ∈ ks, s.isHelper k = true → s.helperCheck k i ≠ .stall) ∧
      ∀ n ∈ s.liveInGang g, ∀ m ∈ s.liveInGang g, (s.fib (.fib g.1 n)).pc = (s.fib (.fib g.1 m)).pc) : s.WholeGang g i ks :=
  ⟨h.1.1, h.1.2, h.2.1, h.2.2.1, h.2.2.2.1, h.2.2.2.2⟩

theorem noHelds_of {s : State} {ks : List FKey} (h : ∀ k ∈ ks, (s.fib k).heldTimer = false ∧ (s.fib k).heldDebug = false) :
    ∀ k ∈ ks, s.NoHeld k := fun k hk => noHeld_of (h k hk)

/-- A table image at 0x10000 with a header that is valid (R33): format 1, no sign, 4 exponent and 4 mantissa bits. -/
def tableImage : Memory := [(0x10000, 1), (0x10003, 4), (0x10004, 4)]


/-- Bytes from an address, as memory cells. -/
def cells (a : Nat) (bs : List Byte) : Memory := (bs.zipIdx.filter fun x => decide (x.1 ≠ 0)).map fun x => (a + x.2, x.1)

/-- A shape record (R295): tensor at 0x11000, rank 2, elements of `f` on both sides, 4 x 2 elements in rows of 64 bytes. -/
def shape (f flags idx : Nat) : List Byte :=
  toBytes 8 0x11000 ++ toBytes 4 (2 + f * 2 ^ 8 + flags * 2 ^ 16) ++ toBytes 4 0 ++ toBytes 20 (4 + 2 * 2 ^ 32) ++ toBytes 4 0 ++
    toBytes 40 (64 * 2 ^ 64) ++ toBytes 20 (4 + 2 * 2 ^ 32) ++ toBytes 4 0x3F800000 ++ toBytes 20 0 ++ toBytes 4 f ++ toBytes 16 0 ++
    toBytes 8 idx ++ toBytes 40 0

/-- A shape record at 0x10800, its address in v16; the command group in v4 to v7: scratchpad byte 0x40, arrival word 0x80,
context 1. -/
def shapeBase (f flags idx ctl : Nat) : State :=
  withRegs { base 1 with mem := cells 0x10800 (shape f flags idx) } (.fib 0 0)
    [(16, 0x10800), (4, 0x40), (5, 0), (6, 0x80), (7, BitVec.ofNat 32 ctl)]

/-- A trolley operation of fibre 0. -/
def trolleyOp (kind ctl : Nat) : TrolleyOp :=
  { id := 4, core := 0, fibre := .fib 0 0, kind := kind, record := shape 0x10 0 0, recAt := 0x10800
    group := [0x40, 0, 0x80, BitVec.ofNat 32 ctl], ticket := 1 }

/-- The answer of an operation that did not stop. -/
def got {ε α : Type} (d : α) : Except ε α → α
  | .ok v => v
  | .error _ => d

def isOk {ε α : Type} : Except ε α → Bool
  | .ok _ => true
  | .error _ => false

theorem ok_pair {ε α β : Type} (d : α × β) {x : Except ε (α × β)} (h : isOk x = true) : x = .ok ((got d x).1, (got d x).2) := by
  cases x with
  | ok v => rfl
  | error e => cases h

theorem ok_got {ε α : Type} (d : α) {x : Except ε α} (h : isOk x = true) : x = .ok (got d x) := by
  cases x with
  | ok v => rfl
  | error e => cases h

/-- A READY carriage of one plane, BF16, of core 0. -/
def car : Carriage := { core := 0, first := 0, gen := 1, kp := 1, np := 1, form := 3 }

/-- Gang 0 owns the matrix engine of core 0. v0 to v32 hold a fragment, s5 a tile descriptor (R345: 32 rows of 512 bytes
at 0), s6 an A descriptor (R346), v36 the carriage's handle, v40 to v43 a command group. -/
def mxBase (paired : Bool) : State :=
  { base 2 with
    blocks := [(0, { blk 2 with scratch := 65536, units := List.range 512, twin := if paired then some 1 else none }),
      (1, { blk 2 with core := 1, scratch := 65536, units := List.range 512, twin := some 0 })]
    cores := [(0, { owner := some (0, 0), ownerPaired := paired }), (1, {})]
    partitions := [(0, { cfg := 0xE000000000000001, quota := 0x4040 })]
    carriages := [(0, { car with paired := paired })]
    gangs := [((0, 0), { s := [(5, { val := 0x100107C00000 }), (6, { val := 0x2008000 })], sr := { tvec := 0x800 } })]
    fibres := [(.fib 0 0, { fibre 0 with
      regs := (List.range 33).map (fun n => (n, { val := 0x3F803F80 })) ++
        [(36, { val := if paired then 0x100010 else 0x100000 }), (40, { val := 0x8000 }), (41, { val := 0 }), (42, { val := 512 }), (43, { val := 0 }), (44, { val := 0xD01 }),
          (45, { val := 0 }), (46, { val := 0x10800 }), (47, { val := 0 })] })] }

/-- A command at the head of executor 0 of bank 0. -/
def cmd (w0 w1 w2 w3 : W32) : BankCmd := { id := 3, w0 := w0, w1 := w1, w2 := w2, w3 := w3, core := 0, fibre := .fib 0 0, block := 0, ticket := 1 }

/-- Bank 0 with one group of ways converted, and commands in executor 0. -/
def bankBase (q : List BankCmd) : State :=
  withArgs { base 2 with slices := [(0, { groups := 1 })], banks := [(0, { e0 := q })], mem := cells 0x80000000000 ([5, 0, 0, 0] ++ [7]) } { unit := 0 }

/-- A reduction block (R381): two sources of one FP32 element, to 0x11200, flag 0x11300. -/
def rdxBlock : List Byte :=
  toBytes 64 (0x11000 + 0x11100 * 2 ^ 64) ++ toBytes 4 2 ++ toBytes 4 1 ++ toBytes 8 0x11200 ++ toBytes 8 0x11300 ++ toBytes 4 9 ++ toBytes 36 0

/-- A page table at 0x100000 (R274): pages 1, 3 and 7 of 64 KB, page 3 on device 5. -/
def walkMem : Memory :=
  cells 0x100000 (toBytes 8 (pte 0x7FF 0x11 0xF001).toNat) ++ cells 0x110000 (toBytes 8 (pte 0x7FF 0x12 0xF001).toNat) ++
    cells 0x120000 (toBytes 8 (pte 0x7FF 0x13 0xF001).toNat) ++ cells 0x130000 (toBytes 8 (pte 0x7FF 0x14 0xF001).toNat) ++
    cells 0x140008 (toBytes 8 (pte 0x7FF 1 0xCF).toNat) ++ cells 0x140018 (toBytes 8 (pte 5 3 0xCF).toNat) ++
    cells 0x140038 (toBytes 8 (pte 0x7FF 7 0xCF).toNat)

/-- Partition 0 with the page table of `walkMem`. -/
def walkPart : Partition := { cfg := 0xE000000000000001, ptbase := 0x100000 }

/-- A machine with no block yet, whose launch 1 is being placed. -/
def placing (l : Launch) : State :=
  { base with blocks := [], gangs := [], fibres := [], pipes := [], agent := none, nextBlock := 0, launches := [(1, l)] }

/-- Device 5 is reached over port 1. -/
def routes : Map Nat (List Byte) := [(5, 1 :: List.replicate 15 0)]

/-- A lease that this device holds on the region at 0x30000 of device 5. -/
def lease5 : HeldLease := { dev := 5, gen := 2, exp := 100000 }

/-- A parked fibre's fault: a load from page 9 that is not present. -/
def fault9 : PageFault := { trap := { cause := 0x10, pc := 0x100, addr := 0x90000 }, page := 9 }

/-- Fibre 0 parked on `fault9` and in no coach; args name partition 0, the page and the cause. -/
def parked : State :=
  withArgs { base with
    fibres := [(.fib 0 0, { fibre 0 with wait := .parked fault9 100 })], pipes := []
    faultReports := [{ part := 0, page := 9, cause := 0x10, fibres := [.fib 0 0] }] } { unit := 0, item := 9, sub := 0x10, fibre := .fib 0 0 }

/-- A store of this device to device 5. -/
def remoteReq (what : What) (stage : Stage) : Req :=
  { id := 3, org := .fibre (.fib 0 0), core := 0, part := 0, va := 0x30004, pa := 0x30004, dev := some 5, what := what, stage := stage, dst := .regs [40] }

/-- A packet of device 5 with one element. -/
def packet5 (e : PacketElem) : Packet :=
  { src := 5, dst := State.reset.devId, cls := 0, seq := 0, srcInc := 9, dstInc := 1, tenant := 0, elems := [e] }

/-- An import entry (R391) for all of page 1, sources 0 to 100, tenant 0, every right, LCMAX 2, HSEC 3. -/
def importEntry : List Byte := toBytes 8 0x10000 ++ toBytes 8 0x1FFFF ++ toBytes 4 (100 * 2 ^ 16) ++ [0, 0x1F, 0x0E, 0] ++ toBytes 8 0

/-- Device 5 joined under incarnation 9, and page 1 is imported. -/
def homeBase : State := { base with incarnation := 1, peers := [(5, 9)], importTab := [(0, importEntry)], routeTab := routes }

theorem four {a b c d r : Prop} (h : a ∧ b ∧ c ∧ d) (hr : r) : a ∧ b ∧ c ∧ d ∧ r := ⟨h.1, h.2.1, h.2.2.1, h.2.2.2, hr⟩

theorem lanes_of {s : State} {k : FKey} {acc : Acc} {i : Instr} {o : R3} {l : List Nat}
    (h : (l.all fun n => match s.checkGlobal k acc (s.laneAddr k o n) with
      | .ok x => x.dev.isNone && decide ((s.laneAddr k o n).toNat % 4 = 0) && decide (s.targetWait s k i (s.laneAddr k o n) false x = .go)
      | _ => false) = true) :
    ∀ n ∈ l, ∃ x, s.checkGlobal k acc (s.laneAddr k o n) = .ok x ∧ x.dev = none ∧ (s.laneAddr k o n).toNat % 4 = 0 ∧
      s.targetWait s k i (s.laneAddr k o n) false x = .go := by
  intro n hn
  have := List.all_eq_true.1 h n hn
  split at this
  · next x hx => simp only [Bool.and_eq_true, Option.isNone_iff_eq_none, decide_eq_true_eq] at this; exact ⟨x, hx, this.1.1, this.1.2, this.2⟩
  · cases this

/-- Two filled entries of q2 and an empty q6, both bound to gang 0. -/
def popBase : State :=
  { base with cores := [(0, { queues := [(2, { bound := some (0, 0), next := 2, entries := [entry 0, entry 1] }), (6, { bound := some (0, 0) })] })] }
where
  entry (n : Nat) : QEntry := { serial := n, words := List.replicate 32 (some 7), ready := true }

/-- Device 5 is reached, and page 3 of it has the low bits `n`. -/
def farBase (n : Nat) : State := { base with tlb1 := [(0, [page 3 (pte 5 3 n)])], routeTab := routes }

/-- Fibre 1 waits at a collective that fibre 0 comes to. -/
def lastBase (i : Instr) : State := { pair with fibres := [(.fib 0 0, fibre 0), (.fib 0 1, { fibre 1 with wait := .coll i })] }

/-- A block that was preempted and saved. -/
def preempted : State := withArgs { pair with pipes := [], blocks := [(0, { blk 0 with stop := .saved .preempt, units := [] })] } { item := 0 }

/-- What the load of a carriage's planes needs: the CRLOAD's record, the carriage LOADING, and what the load reads. -/
def carLoad : CrLoad := { record := shape 0x12 0 0, recAt := 0x10800, part := 0, fibre := .fib 0 0, ticket := some 1 }
def loadingCar : Carriage := { car with state := .loading, load := some carLoad }
def loadBase : State := withArgs { mxBase false with carriages := [(0, loadingCar)] } { item := 0 }
def loadEng : EngBy := loadBase.loadBy loadBase.args.item loadingCar carLoad
def loadSup (row : Nat) : Sup :=
  { data := loadBase.args.bytes.drop (row * (shCols carLoad.record * nibbles (shTfmt carLoad.record) / 2)), code := loadBase.args.opt.getD 0 }
def joined : State :=
  ({ loadBase.joins loadEng.p carLoad.deps with carriages := loadBase.carriages.put loadBase.args.item loadingCar } : State).syncSources
def planes : Except EngStop (Memory × Memory) := joined.loadPlanes loadEng loadingCar carLoad loadSup loadBase.args.nats

theorem mapStop_ok {α β : Type} {f : α → Except EngStop β} (l : List α) (h : ∀ a ∈ l, isOk (f a) = true) : isOk (mapStop f l) = true := by
  induction l with
  | nil => rfl
  | cons a r ih =>
    have ha := h a (List.mem_cons_self ..)
    have hr := ih fun b hb => h b (List.mem_cons_of_mem _ hb)
    unfold mapStop
    cases hx : f a with
    | error e => rw [hx] at ha; cases ha
    | ok v =>
      cases hy : mapStop f r with
      | error e => rw [hy] at hr; cases hr
      | ok vs => rfl

/-- The code of a position, as the load reads it. -/
def loadedCode (k n : Nat) : Except EngStop Nat :=
  joined.loadCode loadEng loadingCar carLoad loadSup loadBase.args.nats k n

theorem loadedCode_ok {k n : Nat} (hn : n < 128) : isOk (loadedCode k n) = true := by
  by_cases hk : k < 2
  · have h : (List.range 2).all (fun k => (List.range 128).all fun n => isOk (loadedCode k n)) = true := by decide +kernel
    exact List.all_eq_true.1 (List.all_eq_true.1 h k (List.mem_range.2 hk)) n (List.mem_range.2 hn)
  · have hr : shRows carLoad.record = 2 := by decide +kernel
    have hq : shQuant carLoad.record = false := by decide +kernel
    have hf : shLfmt carLoad.record = formLfmt loadingCar.form := by decide +kernel
    have h : shRows carLoad.record ≤ k ∨ shCols carLoad.record ≤ n := .inl (by rw [hr]; exact Nat.le_of_not_lt hk)
    simp only [loadedCode, State.loadCode, State.loadRaw, if_pos h, hq, hf, if_true, Bool.false_eq_true, if_false]
    rfl

theorem loadPlanes_ok {s : State} {e : EngBy} {c : Carriage} {l : CrLoad} {sup : Nat → Sup} {far : List Nat} (hs : Car.side c = false)
    (h : ∀ p ∈ positions (Car.kext c) (Car.ncol c), isOk (s.loadCode e c l sup far p.1 p.2) = true) : isOk (s.loadPlanes e c l sup far) = true := by
  have hm := mapStop_ok _ h
  unfold State.loadPlanes
  cases hx : mapStop (fun p : Nat × Nat => s.loadCode e c l sup far p.1 p.2) (positions (Car.kext c) (Car.ncol c)) with
  | error e => rw [hx] at hm; cases hm
  | ok vs => simp [hs, isOk, hx]

theorem planes_ok : isOk planes = true :=
  loadPlanes_ok rfl fun p hp => by
    simp only [positions, List.mem_flatMap, List.mem_map, List.mem_range] at hp
    obtain ⟨k, -, n, hn, rfl⟩ := hp
    exact loadedCode_ok hn

/-! ### Words of the encoding, one or two of every constructor (R71-R73, R87) -/

/-- Whether every word decodes to its instruction. -/
def decodes (l : List (W32 × Instr)) : Bool := l.all fun x => decide (decode x.1 = .ok x.2)

theorem test_decode_SYS : decodes
    [(0x00416363, .nop 0x416363),
     (0x00802A55, .trap 0x2A55),
     (0x01000000, .eret),
     (0x01800000, .bkpt),
     (0x02002A55, .pre 0x2A55),
     (0x02802681, .idem 77 true),
     (0x0301C11F, .rdsr (.v 7) 0x11F),
     (0x0389411E, .wrsr (.v 37) 0x11E)] = true := by decide +kernel

theorem test_decode_IALU_A : decodes
    [(0x041901E0, .add { wa := false, wb := false, d := .s 4, a := .v 3, b := .s 0 }),
     (0x04DC41FE, .sub { wa := true, wb := false, d := .k 1, a := .v 3, b := .z }),
     (0x053FBBFE, .and { wa := false, wb := true, d := .z, a := .q 1, b := .z }),
     (0x05E0BBFE, .or { wa := true, wb := true, d := .v 2, a := .q 1, b := .z }),
     (0x0601ED73, .xor { wa := false, wb := false, d := .v 7, a := .v 90, b := .k 3 }),
     (0x06C96D73, .andn { wa := true, wb := false, d := .v 37, a := .v 90, b := .k 3 }),
     (0x07393FF3, .min { wa := false, wb := true, d := .s 4, a := .id, b := .k 3 }),
     (0x07FC7FA1, .max { wa := true, wb := true, d := .k 1, a := .id, b := .v 33 })] = true := by decide +kernel

theorem test_decode_IALU_B : decodes
    [(0x081FA021, .minn { wa := false, wb := false, d := .z, a := .v 64, b := .v 33 }),
     (0x08C0A021, .maxn { wa := true, wb := false, d := .v 2, a := .v 64, b := .v 33 }),
     (0x0921F789, .shl { wa := false, wb := true, d := .v 7, a := .s 15, b := .v 9 }),
     (0x09E97789, .shr { wa := true, wb := true, d := .v 37, a := .s 15, b := .v 9 }),
     (0x0A190189, .sar { wa := false, wb := false, d := .s 4, a := .v 3, b := .v 9 }),
     (0x0ADC41D0, .rol { wa := true, wb := false, d := .k 1, a := .v 3, b := .v 80 }),
     (0x0B3FBBD0, .absd { wa := false, wb := true, d := .z, a := .q 1, b := .v 80 }),
     (0x0BE0BBD0, .bfe { wa := true, wb := true, d := .v 2, a := .q 1, b := .v 80 })] = true := by decide +kernel

theorem test_decode_IALU_C : decodes
    [(0x0C01ED60, .mul { wa := false, wb := false, d := .v 7, a := .v 90, b := .s 0 }),
     (0x0CC96D60, .mulh { wa := true, wb := false, d := .v 37, a := .v 90, b := .s 0 }),
     (0x0D393FE0, .mulhn { wa := false, wb := true, d := .s 4, a := .id, b := .s 0 }),
     (0x0DFC7FFE, .mad { wa := true, wb := true, d := .k 1, a := .id, b := .z }),
     (0x0E1FA000, .clz { wa := false, d := .z, a := .v 64 }),
     (0x0EC0A000, .popc { wa := true, d := .v 2, a := .v 64 }),
     (0x0F01F780, .brev { wa := false, d := .v 7, a := .s 15 }),
     (0x0FE977F3, .bfi { wa := true, wb := true, d := .v 37, a := .s 15, b := .k 3 })] = true := by decide +kernel

theorem test_decode_IALU_W : decodes
    [(0x101901F3, .add64 { wa := false, wb := false, d := .s 4, a := .v 3, b := .k 3 }),
     (0x10DC41A1, .sub64 { wa := true, wb := false, d := .k 1, a := .v 3, b := .v 33 }),
     (0x113FBBA1, .shl64 { wa := false, wb := true, d := .z, a := .q 1, b := .v 33 }),
     (0x11E0BBA1, .shr64 { wa := true, wb := true, d := .v 2, a := .q 1, b := .v 33 }),
     (0x1201ED09, .madw { wa := false, wb := false, d := .v 7, a := .v 90, b := .v 9 }),
     (0x12C96D09, .madws { wa := true, wb := false, d := .v 37, a := .v 90, b := .v 9 }),
     (0x13193F80, .mov64 { wa := false, d := .s 4, a := .id }),
     (0x13DC7F80, .sext64 { wa := true, d := .k 1, a := .id })] = true := by decide +kernel

theorem test_decode_MOVE : decodes
    [(0x141FA000, .mov { wa := false, d := .z, a := .v 64 }),
     (0x14808000, .rdl (.v 2)),
     (0x1501F780, .bcs { wa := false, d := .v 7, a := .s 15 }),
     (0x15894000, .rdp (.v 37)),
     (0x16000180, .wrp false (.v 3)),
     (0x16DC418D, .sel true (.k 1) (.v 3) 13),
     (0x171F8000, .rdw (.z))] = true := by decide +kernel

theorem test_decode_IMM_A : decodes
    [(0x1882EEA5, .addi { wa := true, d := .v 2, a := .q 1, imm := 0xA5 }),
     (0x1907B5FB, .andi { wa := false, d := .v 7, a := .v 90, imm := 0x1FB }),
     (0x1AA5B4A5, .ori { wa := true, d := .v 37, a := .v 90, imm := 0xA5 }),
     (0x1B64FFFB, .xori { wa := false, d := .s 4, a := .id, imm := 0x1FB })] = true := by decide +kernel

theorem test_decode_IMM_B : decodes
    [(0x1CF1FE1D, .shli { wa := true, d := .k 1, a := .id, imm := 0x1D }),
     (0x1D7E801C, .shri { wa := false, d := .z, a := .v 64, imm := 0x1C }),
     (0x1E82801B, .sari { wa := true, d := .v 2, a := .v 64, imm := 0x1B }),
     (0x1F07DFFB, .muli { wa := false, d := .v 7, a := .s 15, imm := 0x1FB })] = true := by decide +kernel

theorem test_decode_IMM_C : decodes
    [(0x208BDFA3, .cmpiEq { wa := true, p := 11, a := .s 15, imm := 0x1A3 }),
     (0x210B07A3, .cmpiLt { wa := false, p := 11, a := .v 3, imm := 0x1A3 }),
     (0x228B07A3, .cmpiLtn { wa := true, p := 11, a := .v 3, imm := 0x1A3 }),
     (0x230BEFA3, .cmpiLe { wa := false, p := 11, a := .q 1, imm := 0x1A3 })] = true := by decide +kernel

theorem test_decode_WIDE : decodes
    [(0x240AF00D, .ldi { d := .v 2, imm := 0x2F00D }),
     (0x261EF00D, .ldih { d := .v 7, imm := 0x2F00D })] = true := by decide +kernel

theorem test_decode_CMP : decodes
    [(0x2843AD60, .cmpEq { wa := true, wb := false, p := 14, a := .v 90, b := .s 0 }),
     (0x28A3BFE0, .cmpNe { wa := false, wb := true, p := 14, a := .id, b := .s 0 }),
     (0x2963BFFE, .cmpLt { wa := true, wb := true, p := 14, a := .id, b := .z }),
     (0x2983A07E, .cmpLe { wa := false, wb := false, p := 14, a := .v 64, b := .z }),
     (0x2A43A07E, .cmpLtn { wa := true, wb := false, p := 14, a := .v 64, b := .z }),
     (0x2AA3B7F3, .cmpLen { wa := false, wb := true, p := 14, a := .s 15, b := .k 3 }),
     (0x2B63B7F3, .tst { wa := true, wb := true, p := 14, a := .s 15, b := .k 3 })] = true := by decide +kernel

theorem test_decode_FCMP : decodes
    [(0x2C0381F3, .fcmpEq { wa := false, wb := false, p := 14, a := .v 3, b := .k 3 }),
     (0x2CC381A1, .fcmpLt { wa := true, wb := false, p := 14, a := .v 3, b := .v 33 }),
     (0x2D23BBA1, .fcmpLe { wa := false, wb := true, p := 14, a := .q 1, b := .v 33 }),
     (0x2DE3BBA1, .fcmpUn { wa := true, wb := true, p := 14, a := .q 1, b := .v 33 })] = true := by decide +kernel

theorem test_decode_PRED : decodes
    [(0x30030289, .pand 12 5 9),
     (0x30830289, .por 12 5 9),
     (0x31030289, .pxor 12 5 9),
     (0x31830289, .pandn 12 5 9),
     (0x32030280, .pnot 12 5),
     (0x32830000, .pset 12),
     (0x33030000, .pclr 12)] = true := by decide +kernel

theorem test_decode_BRANCH : decodes
    [(0x34D5ABCD, .brp true 10 0x5ABCD),
     (0x3504321F, .bra 0x4321F),
     (0x3604321F, .call 0x4321F)] = true := by decide +kernel

theorem test_decode_CTL : decodes
    [(0x38003B80, .jmpr false (.q 1)),
     (0x38C03B80, .callr true (.q 1)),
     (0x39000000, .ret),
     (0x39800000, .reconv),
     (0x3A393FF3, .fork { wa := false, wb := true, d := .s 4, a := .id, b := .k 3 }),
     (0x3A800000, .endF),
     (0x3B000480, .wbase 9),
     (0x3BC0A021, .trl { wa := true, wb := false, d := .v 2, a := .v 64, b := .v 33 })] = true := by decide +kernel

theorem test_decode_FADD : decodes
    [(0x41A1F789, .fadd { fmt := .d, wa := false, wb := true, d := .v 7, a := .s 15, b := .v 9 })] = true := by decide +kernel

theorem test_decode_FSUB : decodes
    [(0x44697789, .fsub { fmt := .f32, wa := true, wb := true, d := .v 37, a := .s 15, b := .v 9 })] = true := by decide +kernel

theorem test_decode_FMUL : decodes
    [(0x48990189, .fmul { fmt := .h2, wa := false, wb := false, d := .s 4, a := .v 3, b := .v 9 })] = true := by decide +kernel

theorem test_decode_FFMA : decodes
    [(0x4D5C41D0, .ffma { fmt := .b2, wa := true, wb := false, d := .k 1, a := .v 3, b := .v 80 })] = true := by decide +kernel

theorem test_decode_FMIN : decodes
    [(0x51BFBBD0, .fmin { fmt := .d, wa := false, wb := true, d := .z, a := .q 1, b := .v 80 })] = true := by decide +kernel

theorem test_decode_FMAX : decodes
    [(0x5460BBD0, .fmax { fmt := .f32, wa := true, wb := true, d := .v 2, a := .q 1, b := .v 80 })] = true := by decide +kernel

theorem test_decode_FMISC : decodes
    [(0x5801ED00, .fabs { wa := false, d := .v 7, a := .v 90 }),
     (0x58C96D00, .fneg { wa := true, d := .v 37, a := .v 90 }),
     (0x59193F80, .fclass { wa := false, d := .s 4, a := .id }),
     (0x59DC7F80, .frndN { wa := true, d := .k 1, a := .id }),
     (0x5A1FA000, .frndZ { wa := false, d := .z, a := .v 64 }),
     (0x5AC0A000, .frndD { wa := true, d := .v 2, a := .v 64 }),
     (0x5B01F780, .frndU { wa := false, d := .v 7, a := .s 15 }),
     (0x5BE977F3, .fscale { wa := true, wb := true, d := .v 37, a := .s 15, b := .k 3 })] = true := by decide +kernel

theorem test_decode_CVT : decodes
    [(0x5C190180, .cvtFS { wa := false, d := .s 4, a := .v 3 }),
     (0x5CDC4180, .cvtSF { wa := true, d := .k 1, a := .v 3 }),
     (0x5D1FBB80, .cvtFN { wa := false, d := .z, a := .q 1 }),
     (0x5DC0BB80, .cvtNF { wa := true, d := .v 2, a := .q 1 }),
     (0x5E01ED09, .packH2 { wa := false, wb := false, d := .v 7, a := .v 90, b := .v 9 }),
     (0x5EC96D09, .packB2 { wa := true, wb := false, d := .v 37, a := .v 90, b := .v 9 }),
     (0x5F193F80, .unpkH { wa := false, d := .s 4, a := .id }),
     (0x5FDC7F80, .unpkB { wa := true, d := .k 1, a := .id })] = true := by decide +kernel

theorem test_decode_CVT8 : decodes
    [(0x601FA050, .packE4 { wa := false, wb := false, d := .z, a := .v 64, b := .v 80 }),
     (0x60C0A050, .packE5 { wa := true, wb := false, d := .v 2, a := .v 64, b := .v 80 }),
     (0x6101F780, .unpkE4 { wa := false, d := .v 7, a := .s 15 }),
     (0x61C97780, .unpkE5 { wa := true, d := .v 37, a := .s 15 }),
     (0x621901E0, .packI8 { wa := false, wb := false, d := .s 4, a := .v 3, b := .s 0 }),
     (0x62DC4180, .unpkI8 { wa := true, d := .k 1, a := .v 3 })] = true := by decide +kernel

theorem test_decode_Q4 : decodes
    [(0x643FBBFE, .qscale { wa := false, wb := true, d := .z, a := .q 1, b := .z }),
     (0x64E0BBFE, .qpack { wa := true, wb := true, d := .v 2, a := .q 1, b := .z }),
     (0x6501ED73, .qunpk { wa := false, wb := false, d := .v 7, a := .v 90, b := .k 3 })] = true := by decide +kernel

theorem test_decode_SFU : decodes
    [(0x68496D00, .rcp { wa := true, d := .v 37, a := .v 90 }),
     (0x68993F80, .rsq { wa := false, d := .s 4, a := .id }),
     (0x695C7F80, .sqrt { wa := true, d := .k 1, a := .id }),
     (0x699FA021, .div { wa := false, wb := false, d := .z, a := .v 64, b := .v 33 }),
     (0x6A40A006, .act { wa := true, d := .v 2, a := .v 64 } 6),
     (0x6A803785, .actld false (.s 15) 5),
     (0x6B000003, .actsw 3)] = true := by decide +kernel

theorem test_decode_QUAD : decodes
    [(0x6C190180, .qxh { wa := false, d := .s 4, a := .v 3 }),
     (0x6CDC4180, .qxv { wa := true, d := .k 1, a := .v 3 }),
     (0x6D1FBB80, .qxd { wa := false, d := .z, a := .q 1 }),
     (0x6DE0BBD0, .qbc { wa := true, wb := true, d := .v 2, a := .q 1, b := .v 80 }),
     (0x6E01ED00, .qadd { wa := false, d := .v 7, a := .v 90 }),
     (0x6EC96D00, .qmax { wa := true, d := .v 37, a := .v 90 }),
     (0x6F193F80, .qmin { wa := false, d := .s 4, a := .id }),
     (0x6F834000, .qhlp 13)] = true := by decide +kernel

theorem test_decode_XLANE : decodes
    [(0x701FA07E, .shflIdx { wa := false, wb := false, d := .z, a := .v 64, b := .z }),
     (0x70C0A07E, .shflUp { wa := true, wb := false, d := .v 2, a := .v 64, b := .z }),
     (0x7121F7F3, .shflDn { wa := false, wb := true, d := .v 7, a := .s 15, b := .k 3 }),
     (0x71E977F3, .shflXor { wa := true, wb := true, d := .v 37, a := .s 15, b := .k 3 }),
     (0x721901F3, .bcast { wa := false, wb := false, d := .s 4, a := .v 3, b := .k 3 }),
     (0x72830280, .voteAny 12 5),
     (0x73030280, .voteAll 12 5),
     (0x73808580, .ballot (.v 2) 11)] = true := by decide +kernel

theorem test_decode_GCOLL : decodes
    [(0x7401ED00, .gredFadd { wa := false, d := .v 7, a := .v 90 }),
     (0x74C96D00, .gredIadd { wa := true, d := .v 37, a := .v 90 }),
     (0x75193F80, .gredFmax { wa := false, d := .s 4, a := .id }),
     (0x75DC7F80, .gredFmin { wa := true, d := .k 1, a := .id }),
     (0x761FA000, .gscanFadd { wa := false, d := .z, a := .v 64 }),
     (0x76C0A000, .gscanIadd { wa := true, d := .v 2, a := .v 64 }),
     (0x7701F780, .matchV { wa := false, d := .v 7, a := .s 15 })] = true := by decide +kernel

theorem test_decode_LD : decodes
    [(0x80A8977A, .ld { w := .s8, ord := .acq, sc := .clu, d := .v 37, a := .s 15, ch := .keep }),
     (0x82A8977B, .ld { w := .b64, ord := .acq, sc := .clu, d := .v 37, a := .s 15, ch := .nol1 })] = true := by decide +kernel

theorem test_decode_ST : decodes
    [(0x8449901B, .st { w := .b8, ord := .rel, sc := .clu, d := .s 4, a := .v 3, ch := .nol1 }),
     (0x8601901B, .st { w := .b128, ord := .rlx, sc := .fib, d := .s 4, a := .v 3, ch := .nol1 })] = true := by decide +kernel

theorem test_decode_LDS : decodes
    [(0x88A9C418, .lds { w := .s8, ord := .acq, sc := .clu, d := .k 1, a := .v 3 }),
     (0x8AA9C418, .lds { w := .b64, ord := .acq, sc := .clu, d := .k 1, a := .v 3 })] = true := by decide +kernel

theorem test_decode_STS : decodes
    [(0x8C49FBB8, .sts { w := .b8, ord := .rel, sc := .clu, d := .z, a := .q 1 }),
     (0x8E01FBB8, .sts { w := .b128, ord := .rlx, sc := .fib, d := .z, a := .q 1 })] = true := by decide +kernel

theorem test_decode_CELL : decodes
    [(0x90280BB8, .ldc { ord := .acq, sc := .clu, d := .v 2, a := .q 1 }),
     (0x90C61ED0, .stc { ord := .rel, sc := .blk, d := .v 7, a := .v 90 }),
     (0x914896D0, .stcMd { ord := .rel, sc := .clu, d := .v 37, a := .v 90 })] = true := by decide +kernel

theorem test_decode_ATOM_A : decodes
    [(0x940D93FB, .aadd { ord := .rlx, sc := .die, d := .s 4, a := .id, use := .nor }),
     (0x94EFC7F8, .afadd { ord := .ar, sc := .dev, d := .k 1, a := .id, use := .plain }),
     (0x9511FA01, .amin { ord := .rlx, sc := .fab, d := .z, a := .v 64, use := .unp }),
     (0x958C0A03, .amax { ord := .rlx, sc := .die, d := .v 2, a := .v 64, use := .nor }),
     (0x966E1F78, .aminn { ord := .ar, sc := .dev, d := .v 7, a := .s 15, use := .plain }),
     (0x96909779, .amaxn { ord := .rlx, sc := .fab, d := .v 37, a := .s 15, use := .unp }),
     (0x970D901B, .aand { ord := .rlx, sc := .die, d := .s 4, a := .v 3, use := .nor }),
     (0x97EFC418, .aor { ord := .ar, sc := .dev, d := .k 1, a := .v 3, use := .plain })] = true := by decide +kernel

theorem test_decode_ATOM_B : decodes
    [(0x9811FBB9, .axor { ord := .rlx, sc := .fab, d := .z, a := .q 1, use := .unp }),
     (0x988C0BBB, .axch { ord := .rlx, sc := .die, d := .v 2, a := .q 1, use := .nor }),
     (0x996E1ED0, .acas { ord := .ar, sc := .dev, d := .v 7, a := .v 90, use := .plain }),
     (0x999096D1, .ainc { ord := .rlx, sc := .fab, d := .v 37, a := .v 90, use := .unp }),
     (0x9A0D93FB, .aadd64 { ord := .rlx, sc := .die, d := .s 4, a := .id, use := .nor }),
     (0x9AEFC7F8, .acas64 { ord := .ar, sc := .dev, d := .k 1, a := .id, use := .plain }),
     (0x9B11FA01, .axch64 { ord := .rlx, sc := .fab, d := .z, a := .v 64, use := .unp }),
     (0x9B8C0A03, .ahadd { ord := .rlx, sc := .die, d := .v 2, a := .v 64, use := .nor })] = true := by decide +kernel

theorem test_decode_SYNC : decodes
    [(0x9C500000, .fence { ord := .rel, sc := .fab }),
     (0x9C800000, .cflush),
     (0x9D680000, .bar { ord := .ar, sc := .clu }),
     (0x9DC9C418, .arrive { ord := .rel, sc := .clu, d := .k 1, a := .v 3 }),
     (0x9E47FBB8, .arriveBk { ord := .rel, sc := .blk, d := .z, a := .q 1 }),
     (0x9E800000, .rfence),
     (0x9F000000, .invl1)] = true := by decide +kernel

theorem test_decode_WAIT : decodes
    [(0xA043AD09, .twph { wa := true, wb := false, p := 14, a := .v 90, b := .v 9 }),
     (0xA0A24309, .twtl true 9 6 (.v 9)),
     (0xA163BFD0, .twge { wa := true, wb := true, p := 14, a := .id, b := .v 80 }),
     (0xA19F8280, .tlrd (.z) 5)] = true := by decide +kernel

theorem test_decode_AP : decodes
    [(0xA421F7E0, .apgo { wa := false, wb := true, d := .v 7, a := .s 15, b := .s 0 }),
     (0xA4800000, .apstop),
     (0xA5190006, .qstat (.s 4) 6),
     (0xA5800005, .qdrain 5),
     (0xA6403B83, .qbind true (.q 1) 3),
     (0xA6E0BBFE, .qreq { wa := true, wb := true, d := .v 2, a := .q 1, b := .z }),
     (0xA701ED73, .qwr { wa := false, wb := false, d := .v 7, a := .v 90, b := .k 3 }),
     (0xA7800000, .apend)] = true := by decide +kernel

theorem test_decode_PF : decodes
    [(0xA80003F9, .pfL1 { ord := .rlx, sc := .fib, a := .id, ch := .strm }),
     (0xA8800201, .pfL2 { ord := .rlx, sc := .fib, a := .v 64, ch := .strm })] = true := by decide +kernel

theorem test_decode_TROLLEY : decodes
    [(0xB000A021, .tcpy { d := .v 2, a := .v 64, b := .v 33 }),
     (0xB081F789, .tgath { d := .v 7, a := .s 15, b := .v 9 }),
     (0xB1097789, .tscat { d := .v 37, a := .s 15, b := .v 9 }),
     (0xB1990189, .tfill { d := .s 4, a := .v 3, b := .v 9 }),
     (0xB21C41D0, .tred { d := .k 1, a := .v 3, b := .v 80 })] = true := by decide +kernel

theorem test_decode_MMA_R : decodes
    [(0xC161ED60, .mmaR { fmt := .e4q4, bsel := 3, d := .v 7, a := .v 90, b := .s 0 })] = true := by decide +kernel

theorem test_decode_MMA_S : decodes
    [(0xC6896D60, .mmaS { fmt := .bfbf, d := .v 37, a := .v 90, b := .s 0 })] = true := by decide +kernel

theorem test_decode_MMAP_R : decodes
    [(0xC9793FE0, .mmapR { fmt := .e4q4, bsel := 3, d := .s 4, a := .id, b := .s 0 })] = true := by decide +kernel

theorem test_decode_MMAP_S : decodes
    [(0xCE9C7FFE, .mmapS { fmt := .bfbf, d := .k 1, a := .id, b := .z })] = true := by decide +kernel

theorem test_decode_MXCTL : decodes
    [(0xD0000000, .mxacq),
     (0xD0800000, .mxrel),
     (0xD101F7F3, .mxdrain { d := .v 7, a := .s 15, b := .k 3 }),
     (0xD1894080, .mxzero (.v 37) true),
     (0xD2000000, .mxacqP),
     (0xD2800000, .mxrelP),
     (0xD31F8000, .mxstat (.z))] = true := by decide +kernel

theorem test_decode_CARR : decodes
    [(0xD400BB80, .cralloc (.v 2) (.q 1)),
     (0xD481ED09, .crload { d := .v 7, a := .v 90, b := .v 9 }),
     (0xD5096D09, .crldv { d := .v 37, a := .v 90, b := .v 9 }),
     (0xD5803F80, .crpin (.id)),
     (0xD6003F80, .crunpin (.id)),
     (0xD6802000, .crfree (.v 64)),
     (0xD700A000, .crstat (.v 2) (.v 64)),
     (0xD7803780, .crdetach (.s 15))] = true := by decide +kernel

theorem test_decode_MEMX : decodes
    [(0xE01FBBFE, .bxc { d := .z, a := .q 1, b := .z }),
     (0xE080BB80, .rdx (.v 2) (.q 1)),
     (0xE101ED73, .ssconv { d := .v 7, a := .v 90, b := .k 3 })] = true := by decide +kernel

theorem test_decode_FAB : decodes
    [(0xE8096D00, .devid (.v 37) (.v 90)),
     (0xE8993FE0, .wlease { d := .s 4, a := .id, b := .s 0 }),
     (0xE91C7FFE, .wrenew { d := .k 1, a := .id, b := .z }),
     (0xE9802000, .wdrop (.v 64)),
     (0xEA008000, .cstat (.v 2))] = true := by decide +kernel

theorem test_decode_LNCH : decodes
    [(0xF021F7F3, .launch { wa := false, wb := true, d := .v 7, a := .s 15, b := .k 3 }),
     (0xF0C97780, .lqstat { wa := true, d := .v 37, a := .s 15 })] = true := by decide +kernel

/-! ### Ill-formed terms -/

theorem test_shift_of_32 : Instr.wordOk (.shli { wa := false, d := .v 0, a := .v 1, imm := 32 }) = false := by decide
theorem test_bsel_of_bfbf : Instr.wordOk (.mmaR { fmt := .bfbf, bsel := 1, d := .s 0, a := .v 0, b := .v 36 }) = false := by decide
theorem test_step_has_no_word : Instr.wordOk .rollback = false ∧ encode .rollback = none := by decide
theorem test_odd_pair : Instr.classesOk (.add64 { wa := false, wb := false, d := .v 3, a := .v 2, b := .v 4 }) = false := by decide
theorem test_id_written : Instr.classesOk (.mov { wa := false, d := .id, a := .v 2 }) = false := by decide
theorem test_inbound_queue_written : Instr.classesOk (.mov { wa := false, d := .q 2, a := .v 2 }) = false := by decide
theorem test_temporary_of_load :
    Instr.tempsOk (.ld { w := .b32, ord := .rlx, sc := .fib, d := .k 0, a := .v 16, ch := .normal }) = false := by decide
theorem test_acquire_at_fibre :
    Instr.ordOk (.ld { w := .b32, ord := .acq, sc := .fib, d := .v 0, a := .v 16, ch := .normal }) = false := by decide
theorem test_com_of_cas : Instr.ordOk (.acas { ord := .rlx, sc := .dev, d := .v 2, a := .v 16, use := .com }) = false := by decide
theorem test_well_formed : Instr.wf (.aadd { ord := .rlx, sc := .dev, d := .v 3, a := .v 8, use := .com }) = true := by decide

/-- R71, R87: reserved majors, minors, scopes and fields that must be zero are rejected by name. -/
theorem test_decode_rejects :
    decode 0xFC000000 = .error .illOpc ∧ decode 0x3C000000 = .error .illOpc ∧ decode 0x17800000 = .error .illOpc ∧
      decode 0x1C00021 = .error .illField := by decide +kernel

/-- R72's worked words. -/
theorem test_decode_worked : decodes
    [(0x180705FB, .addi { wa := false, d := .v 7, a := .v 2, imm := 0x1FB }), (0x2427FFFE, .ldi { d := .v 9, imm := 0x3FFFE }),
     (0x940E0C42, .aadd { ord := .rlx, sc := .dev, d := .v 3, a := .v 8, use := .com }),
     (0xC5993328, .mmaS { fmt := .q4q4, d := .s 4, a := .s 6, b := .v 40 })] = true := by decide +kernel

/-! ### Single steps -/

/-- Register `n` of fibre 0 after one word. -/
def vAfter (i : Instr) (n : Nat) (s : State := base) : Option W32 :=
  match exec i s with
  | .next t => some ((t.fib (.fib 0 0)).cell n).val
  | _ => none

/-- A field of fibre 0 after one word. -/
def fAfter {α : Type} (i : Instr) (f : Fibre → α) (s : State := base) : Option α :=
  match exec i s with
  | .next t => some (f (t.fib (.fib 0 0)))
  | _ => none

def dab (d a b : Reg) : R3 := { wa := false, wb := false, d := d, a := a, b := b }
def da (d a : Reg) : R2 := { wa := false, d := d, a := a }

-- Expected values worked out by hand from R167 to R169: v1 = 3, v2 = -2, v3 = 0x80000001, v6 = 7, v7 = 31, v9 = 40.
theorem test_add_wraps : vAfter (.add (dab (.v 40) (.v 2) (.v 6))) 40 = some 5 := by decide +kernel
theorem test_sub_borrows : vAfter (.sub (dab (.v 40) (.v 1) (.v 6))) 40 = some 0xFFFFFFFC := by decide +kernel
theorem test_min_signed : vAfter (.min (dab (.v 40) (.v 2) (.v 1))) 40 = some 0xFFFFFFFE := by decide +kernel
theorem test_minn_unsigned : vAfter (.minn (dab (.v 40) (.v 2) (.v 1))) 40 = some 3 := by decide +kernel
theorem test_shl_of_40 : vAfter (.shl (dab (.v 40) (.v 2) (.v 9))) 40 = some 0 := by decide +kernel
theorem test_sar_of_40 : vAfter (.sar (dab (.v 40) (.v 3) (.v 9))) 40 = some 0xFFFFFFFF := by decide +kernel
theorem test_rol_by_31 : vAfter (.rol (dab (.v 40) (.v 3) (.v 7))) 40 = some 0xC0000000 := by decide +kernel
theorem test_absd : vAfter (.absd (dab (.v 40) (.v 2) (.v 1))) 40 = some 5 := by decide +kernel
theorem test_bfe : vAfter (.bfe (dab (.v 40) (.v 41) (.v 42))) 40 (withRegs base (.fib 0 0) [(41, 0x12345678), (42, 0x804)]) = some 0x67 := by
  decide +kernel
theorem test_mulh_signed : vAfter (.mulh (dab (.v 40) (.v 3) (.v 2))) 40 = some 0 := by decide +kernel
theorem test_mulhn_unsigned : vAfter (.mulhn (dab (.v 40) (.v 3) (.v 2))) 40 = some 0x7FFFFFFF := by decide +kernel
theorem test_mad_own_destination : vAfter (.mad (dab (.v 0) (.v 1) (.v 6))) 0 = some 26 := by decide +kernel
theorem test_z_discards : vAfter (.add (dab .z (.v 2) (.v 6))) 2 = some 0xFFFFFFFE := by decide +kernel
-- R173's fragment.
theorem test_ldih : vAfter (.ldih { d := .v 41, imm := 0x48D1 }) 41 (withRegs base (.fib 0 0) [(41, 0x1678)]) = some 0x12345678 := by
  decide +kernel
-- v4 = 1.0, v5 = -3.0.
theorem test_fadd : vAfter (.fadd { fmt := .f32, wa := false, wb := false, d := .v 40, a := .v 4, b := .v 5 }) 40 = some 0xC0000000 := by
  decide +kernel
theorem test_ffma : vAfter (.ffma { fmt := .f32, wa := false, wb := false, d := .v 4, a := .v 5, b := .v 5 }) 4 = some 0x41200000 := by
  decide +kernel
theorem test_fclass : vAfter (.fclass (da (.v 40) (.v 5))) 40 = some 2 := by decide +kernel
theorem test_cvt_s_f : vAfter (.cvtSF (da (.v 40) (.v 5))) 40 = some 0xFFFFFFFD := by decide +kernel
theorem test_cvt_n_f_clamps : vAfter (.cvtNF (da (.v 40) (.v 5))) 40 = some 0 := by decide +kernel
theorem test_unpk_h : vAfter (.unpkH (da (.v 40) (.v 42))) 41 (withRegs base (.fib 0 0) [(42, 0x3C000000)]) = some 0x3F800000 := by
  decide +kernel
theorem test_cmp_signed : fAfter (.cmpLt { wa := false, wb := false, p := 5, a := .v 2, b := .v 1 }) Fibre.p = some 0x22 := by decide +kernel
theorem test_cmp_unsigned : fAfter (.cmpLtn { wa := false, wb := false, p := 1, a := .v 2, b := .v 1 }) Fibre.p = some 0 := by decide +kernel
theorem test_brp_inverted : fAfter (.brp true 1 10) Fibre.pc = some 0x104 := by decide +kernel
theorem test_bra_backward : fAfter (.bra 0x7FFFF) Fibre.pc = some 0x100 := by decide +kernel
theorem test_call_link : fAfter (.call 88) (fun f => (f.pc, f.lr)) = some (0x264, 0x104) := by decide +kernel
theorem test_trap_saves : fAfter (.trap 7) (fun f => (f.pc, f.tcause, f.tpc, f.tinfo)) = some (0x800, 0x22, 0x104, 7) := by decide +kernel
-- Bytes lie lowest first (R226).
theorem test_sts_bytes : (match exec (.sts { w := .b16, ord := .rlx, sc := .fib, d := .v 2, a := .v 11 }) base with
    | .next t => t.scratch
    | _ => []) = [(0x40, 0xFE), (0x41, 0xFF)] := by decide +kernel
theorem test_amin_signed : (atomApply 0x22 0xFFFFFFFE 3 0).1 = some 0xFFFFFFFE := by decide +kernel
theorem test_aminn_unsigned : (atomApply 0x24 0xFFFFFFFE 3 0).1 = some 3 := by decide +kernel
theorem test_ainc_wraps : (atomApply 0x2B 0xFFFFFFFF 7 0).1 = some 0 := by decide +kernel
theorem test_end_retires : fAfter .endF Fibre.status = some FStatus.free := by decide +kernel


/-- Time does not pass the 10 us at which a die's controller steps its clock (R427). -/
theorem test_power_cadence : ([10000, 10001].map fun ns => match turn (.tick ns) State.reset with
    | .next _ => true
    | _ => false) = [true, false] := by decide +kernel

/-- A cart whose element has waited CART_AGE. -/
def cartBase : State := { State.reset with clock := 5000, dies := [(1, { carts := [{ dest := 7, since := 3000, slots := 1, elems := [] }] })] }

/-- The default turn makes it leave before more time passes (R403). -/
theorem test_cart_age : (match turn cartBase.defaultTurn cartBase with
    | .next s => (s.die 1).carts.map Cart.leaving
    | _ => []) = [true] := by decide +kernel

/-- A requester's write reaches neither the response area nor, while GO is 1, GO (R425). -/
theorem test_mailbox_write : ([(0, [9]), (0x1FFC, [0, 0, 0, 0])].map fun (x : Nat × List Byte) =>
    match step { base with mailboxes := [(3, { cmd := 2, go := 1, response := [5] })], agenda := [.mailbox 3 x.1 x.2] } with
    | .next t => t.mailboxes
    | _ => []) = List.replicate 2 [(3, { cmd := 2, go := 1, response := [5] })] := by decide +kernel

/-- A stack that becomes hot holds the clock of its die at 1000 MHz at once (R427). -/
theorem test_hot_clock : (match exec .thermLt3 (withArgs { base with dies := [(1, { curClk := 2000 })] } { unit := 4, bytes := List.replicate 16 125 }) with
    | .next t => (t.die 1).curClk
    | _ => 0) = 1000 := by decide +kernel
/-! ### Register words: a witness for every constructor of each row -/

/-- Every word of a list has a row, and fibre 0 of `s` goes on with it. -/
def allProceed {α : Type} (row : Instr → Option α) (s : State) (l : List Instr) : Bool :=
  decide (s.members = some [.fib 0 0]) && l.all fun i => (row i).isSome && decide (s.verdict i noCheck (.fib 0 0) = .go)

theorem row_witness {α : Type} (row : Instr → Option α) (s : State) (l : List Instr) (h : allProceed row s l = true) :
    ∀ i ∈ l, (∃ x, row i = some x) ∧ s.Proceeds i noCheck [.fib 0 0] := by
  intro i hi
  simp only [allProceed, Bool.and_eq_true, decide_eq_true_eq, List.all_eq_true] at h
  obtain ⟨hr, hv⟩ := h.2 i hi
  exact ⟨Option.isSome_iff_exists.1 hr, h.1, fun k hk => by rw [List.mem_singleton.1 hk]; exact .inl hv⟩

def o3 : R3 := { wa := false, wb := false, d := .v 0, a := .v 2, b := .v 8 }
def o3x : R3 := { wa := false, wb := false, d := .v 24, a := .v 16, b := .v 18 }
def o2 : R2 := { wa := false, d := .v 0, a := .v 2 }
def o2x : R2 := { wa := false, d := .v 24, a := .v 16 }
def o2s : R2 := { wa := false, d := .s 1, a := .v 2 }
def oi : RI := { wa := false, d := .v 0, a := .v 2, imm := 7 }
def op3 : PR := { wa := false, wb := false, p := 3, a := .v 2, b := .v 8 }
def opi : PI := { wa := false, p := 3, a := .v 2, imm := 0x1FF }
def of3 (f : FFmt) : F3 := { fmt := f, wa := false, wb := false, d := .v 24, a := .v 16, b := .v 18 }

def ialuA : List Instr := [Instr.add, .sub, .and, .or, .xor, .andn, .min, .max].map fun f => f o3
def integers : List Instr :=
  ialuA ++ [Instr.minn, .maxn, .shl, .shr, .sar, .rol, .absd, .bfe, .mul, .mulh, .mulhn, .mad, .bfi].map fun f => f o3
def immediates : List Instr :=
  ([Instr.addi, .andi, .ori, .xori, .shli, .shri, .sari, .muli].map fun f => f oi) ++ [.ldi { d := .v 0, imm := 5 }, .ldih { d := .v 0, imm := 5 }]
def wides : List Instr :=
  ([Instr.add64, .sub64, .shl64, .shr64, .madw, .madws].map fun f => f o3x) ++ [.mov64 o2x, .sext64 o2x, .rdl (.v 24), .bcs o2s]
def unpacks : List Instr := [Instr.unpkH, .unpkB, .unpkE4, .unpkE5, .unpkI8].map fun f => f o2x
def compares : List Instr :=
  ([Instr.cmpEq, .cmpNe, .cmpLt, .cmpLe, .cmpLtn, .cmpLen, .tst, .fcmpEq, .fcmpLt, .fcmpLe, .fcmpUn].map fun f => f op3) ++
    [Instr.cmpiEq, .cmpiLt, .cmpiLtn, .cmpiLe].map fun f => f opi
def predicates : List Instr := [.pand 1 2 3, .por 1 2 3, .pxor 1 2 3, .pandn 1 2 3, .pnot 1 2, .pset 4, .pclr 4, .qhlp 4]
def floats : List Instr :=
  [Instr.fadd, .fsub, .fmul, .ffma, .fmin, .fmax].flatMap fun f => [FFmt.f32, .h2, .b2, .d].map fun m => f (of3 m)
def moves : List Instr :=
  ([Instr.clz, .popc, .brev, .mov, .fabs, .fneg, .fclass, .frndN, .frndZ, .frndD, .frndU, .cvtFS, .cvtFN, .cvtSF, .cvtNF].map fun f => f o2) ++
    ([Instr.fscale, .packH2, .packB2, .packE4, .packE5, .packI8, .qscale, .qpack, .qunpk].map fun f => f o3) ++
    [.rdp (.v 0), .rdw (.v 0), .sel false (.v 0) (.v 2) 3]
def quads : List Instr := ([Instr.qxh, .qxv, .qxd, .qadd, .qmax, .qmin].map fun f => f o2) ++ [.qbc o3]

theorem witness_IntegerResults : ∀ i ∈ integers, (∃ x, intRow i = some x) ∧ base.Proceeds i noCheck [.fib 0 0] :=
  row_witness _ _ _ (by decide +kernel)

theorem witness_ImmediateResults : ∀ i ∈ immediates, (∃ x, immRow i = some x) ∧ base.Proceeds i noCheck [.fib 0 0] :=
  row_witness _ _ _ (by decide +kernel)

theorem witness_WideResults_1 : ∀ i ∈ wides, (∃ x, wideRow i = some x) ∧ base.Proceeds i noCheck [.fib 0 0] :=
  row_witness _ _ _ (by decide +kernel)

theorem witness_WideResults_2 : ∀ i ∈ unpacks, (∃ x, unpackRow i = some x) ∧ base.Proceeds i noCheck [.fib 0 0] :=
  row_witness _ _ _ (by decide +kernel)

theorem witness_CompareResults : ∀ i ∈ compares, (∃ x, compareRow i = some x) ∧ base.Proceeds i noCheck [.fib 0 0] :=
  row_witness _ _ _ (by decide +kernel)

theorem witness_PredicateResults_1 : ∀ i ∈ predicates, (∃ x, predicateRow i = some x) ∧ base.Proceeds i noCheck [.fib 0 0] :=
  row_witness _ _ _ (by decide +kernel)

theorem witness_PredicateResults_2 : ∃ (wa : Bool) (a : Reg) (s : State) (ks : List FKey), s.Proceeds (.wrp wa a) noCheck ks :=
  ⟨false, .v 14, base, [.fib 0 0], proceeds_of (by decide +kernel)⟩

theorem witness_FloatResults : ∀ i ∈ floats, (∃ x, elementOp i = some x) ∧ base.Proceeds i noCheck [.fib 0 0] :=
  row_witness _ _ _ (by decide +kernel)

theorem witness_MoveResults : ∀ i ∈ moves, (∃ x, moveRow i = some x) ∧ base.Proceeds i noCheck [.fib 0 0] :=
  row_witness _ _ _ (by decide +kernel)

theorem witness_QuadResults : ∀ i ∈ quads, (∃ x, quadRow i = some x) ∧ base.Proceeds i noCheck [.fib 0 0] :=
  row_witness _ _ _ (by decide +kernel)

theorem witness_StatusReads_1 : ∀ i ∈ [Instr.crstat (.v 0) (.v 2), .mxstat (.v 0), .cstat (.v 0)],
    (∃ x, statusRow i = some x) ∧ (base 2).Proceeds i noCheck [.fib 0 0] :=
  row_witness _ _ _ (by decide +kernel)

theorem witness_RegisterWordFrame :
    ∀ i ∈ [Instr.add o3, .ldi { d := .s 1, imm := 5 }, .madw o3x, .cmpEq op3, .pset 4, .ffma (of3 .d), .sel false (.v 0) (.v 2) 3, .unpkH o2x,
      .qadd o2, .cstat (.v 0), .wrp false (.v 14), .tlrd (.v 24) 4, .nop 0],
    (∃ x, (if registerWord i then some () else none) = some x) ∧ base.Proceeds i noCheck [.fib 0 0] :=
  row_witness _ _ _ (by decide +kernel)

theorem witness_IaluA : ∀ i ∈ ialuA, (∃ x, intRow i = some x) ∧ base.Proceeds i noCheck [.fib 0 0] :=
  row_witness _ _ _ (by decide +kernel)

/-! ### Witnesses of the hypotheses of every statement, one of each clause -/

theorem witness_RunEnd : ∃ (o : _) (s : State) (ks : List FKey), s.Proceeds (.trl o) noCheck ks ∧ (∀ k ∈ ks, s.NoHeld k) :=
  ⟨({ wa := false, wb := false, d := .v 1, a := .s 1, b := .z } : R3), base, [.fib 0 0], proceeds_of (by decide +kernel), noHelds_of
    (by decide +kernel)⟩

theorem witness_StatusReads_2 : ∃ (d : _) (q : _) (s : State) (k : FKey), s.Ready (.qstat d q) k :=
  ⟨(Reg.v 1), (2 : BitVec 3), base 1, .fib 0 0, ready_of (by decide +kernel)⟩

theorem witness_StatusReads_3 : ∃ (d : _) (c : _) (s : State) (ks : List FKey), s.Proceeds (.tlrd d c) noCheck ks :=
  ⟨(Reg.v 2), (4 : BitVec 3), base, [.fib 0 0], proceeds_of (by decide +kernel)⟩

theorem witness_QueuePush : ∃ (i : Instr) (q : _) (f : _) (s : State) (k : FKey), result32 i = some (.q q, f) ∧ s.Ready i k ∧ (∀ x ∈
  i.slots, x.rd = true → x.reg ≠ .q q) :=
  ⟨(.add ({ wa := false, wb := false, d := .q 6, a := .v 0, b := .v 1 } : R3) : Instr), _, _,
    { base with cores := [(0, { queues := [(6, { bound := some (0, 0) })] })] }, .fib 0 0, rfl, ready_of (by decide +kernel),
    by decide +kernel⟩

theorem witness_CheckedWordGoes : ∃ (i : Instr) (s : State) (b : Nat) (n : Nat), s.FieldsOk (.fib b n) i ∧ apOnly i = false ∧ privileged i =
  false ∧ s.wordBusy (.fib b n) = false ∧ (∀ t ∈ i.slots, t.rd = true ∨ t.wr = true → ∀ c ∈ s.slotCells (.fib b n) i t, c.1 = true) ∧ (∀ t ∈
  i.slots, t.rd = true → ∀ c ∈ s.slotCells (.fib b n) i t, c.2 = none) ∧ (∀ t ∈ i.slots, ∀ q, t.reg = .q q → (s.queue (s.coreOf (.fib b n))
  q).bound = some (b, n / 32)) ∧ (∀ t m q, (t, m) ∈ i.slots.zipIdx → t.rd = true → t.reg = .q q → (s.inboundEntry (.fib b n) q (earlierPops
  i.slots m q)).isSome = true) ∧ (∀ t ∈ i.slots, ∀ q, t.wr = true → t.reg = .q q → s.outboundFull (.fib b n) q = false) ∧ ((s.fib (.fib b
  n)).pop.any fun x => !x.2) = false :=
  ⟨(.add ({ wa := false, wb := false, d := .v 0, a := .v 1, b := .v 2 } : R3) : Instr), base, 0, 0, fields_of (by decide +kernel), rfl, rfl,
    four (by decide +kernel) ⟨pops_of (by decide +kernel), by decide +kernel⟩⟩

theorem witness_CheckedWordGoes_queue : ∃ (i : Instr) (s : State) (b : Nat) (n : Nat), s.FieldsOk (.fib b n) i ∧ apOnly i = false ∧
  privileged i = false ∧ s.wordBusy (.fib b n) = false ∧ (∀ t ∈ i.slots, t.rd = true ∨ t.wr = true → ∀ c ∈ s.slotCells (.fib b n) i t, c.1 =
  true) ∧ (∀ t ∈ i.slots, t.rd = true → ∀ c ∈ s.slotCells (.fib b n) i t, c.2 = none) ∧ (∀ t ∈ i.slots, ∀ q, t.reg = .q q → (s.queue
  (s.coreOf (.fib b n)) q).bound = some (b, n / 32)) ∧ (∀ t m q, (t, m) ∈ i.slots.zipIdx → t.rd = true → t.reg = .q q → (s.inboundEntry
  (.fib b n) q (earlierPops i.slots m q)).isSome = true) ∧ (∀ t ∈ i.slots, ∀ q, t.wr = true → t.reg = .q q → s.outboundFull (.fib b n) q =
  false) ∧ ((s.fib (.fib b n)).pop.any fun x => !x.2) = false :=
  ⟨(.add ({ wa := false, wb := false, d := .q 6, a := .q 2, b := .q 2 } : R3) : Instr), popBase, 0, 0, fields_of (by decide +kernel), rfl,
    rfl, four (by decide +kernel) ⟨pops_of (by decide +kernel), by decide +kernel⟩⟩

theorem witness_QueueRole : ∃ (i : Instr) (s : State) (b : Nat) (n : Nat) (q : Fin 8), i.isEvent = false ∧ i ≠ .eret ∧ s.members = some
  [.fib b n] ∧ s.isHelper (.fib b n) = false ∧ s.isServed (.fib b n) = false ∧ s.wordBusy (.fib b n) = false ∧ s.illCause (.fib b n) i =
  none ∧ (∃ t ∈ i.slots, t.reg = .q q) ∧ (∀ t ∈ i.slots, ∀ x, t.reg = .q x → x = q) ∧ (s.queue (s.coreOf (.fib b n)) q).bound ≠ some (b, n /
  32) ∧ s.CanTrap b n :=
  ⟨(.add ({ wa := false, wb := false, d := .v 0, a := .q 2, b := .v 1 } : R3) : Instr), base, 0, 0, 2, rfl, nofun, four (by decide +kernel)
    (four (by decide +kernel) (canTrap_of (by decide +kernel)))⟩

theorem witness_QueueRole_push : ∃ (i : Instr) (s : State) (b : Nat) (n : Nat) (q : Fin 8), i.isEvent = false ∧ i ≠ .eret ∧ s.members = some
  [.fib b n] ∧ s.isHelper (.fib b n) = false ∧ s.isServed (.fib b n) = false ∧ s.wordBusy (.fib b n) = false ∧ s.illCause (.fib b n) i =
  none ∧ (∃ t ∈ i.slots, t.reg = .q q) ∧ (∀ t ∈ i.slots, ∀ x, t.reg = .q x → x = q) ∧ (s.queue (s.coreOf (.fib b n)) q).bound ≠ some (b, n /
  32) ∧ s.CanTrap b n :=
  ⟨(.add ({ wa := false, wb := false, d := .q 6, a := .v 2, b := .v 1 } : R3) : Instr), base, 0, 0, 6, rfl, nofun, four (by decide +kernel)
    (four (by decide +kernel) (canTrap_of (by decide +kernel)))⟩

theorem witness_EncodeThenDecode : ∃ (i : Instr), i.wordOk = true :=
  ⟨(.add ({ wa := false, wb := false, d := .v 95, a := .s 15, b := .k 5 } : R3) : Instr), rfl⟩

theorem witness_DecodeThenEncode : ∃ (w : W32) (i : Instr), decode w = .ok i :=
  ⟨0x3488000A, (.brp true 1 10), by decide +kernel⟩

theorem witness_StepRunsWord_agenda : ∃ (s : State) (a : _) (r : _) (k : FKey) (w : _) (i : Instr), (s.agenda = .run a :: r ∨ (s.agenda = []
  ∧ r = [] ∧ s.defaultTurn = .run a)) ∧ s.inReset a = false ∧ s.runner a = some k ∧ (∀ c, a = .ap c → (s.core c).apStop = false) ∧
  ({ s with agenda := r, agent := some a } : State).fetchWord k = .ok w ∧ decode w = .ok i :=
  ⟨{ base with mem := [(0x100, 0x0A), (0x102, 0x88), (0x103, 0x34)], agenda := [.run (.coach 0 0)], agent := none }, (Agent.coach 0 0), ([]
    : List Turn), .fib 0 0, (0x3488000A : W32), (.brp true 1 10), .inl rfl, by decide +kernel, by decide +kernel, nofun, by decide +kernel⟩

theorem witness_StepRunsWord_default : ∃ (s : State) (a : _) (r : _) (k : FKey) (w : _) (i : Instr), (s.agenda = .run a :: r ∨ (s.agenda =
  [] ∧ r = [] ∧ s.defaultTurn = .run a)) ∧ s.inReset a = false ∧ s.runner a = some k ∧ (∀ c, a = .ap c → (s.core c).apStop = false) ∧
  ({ s with agenda := r, agent := some a } : State).fetchWord k = .ok w ∧ decode w = .ok i :=
  ⟨{ base with mem := [(0x100, 0x0A), (0x102, 0x88), (0x103, 0x34)], agent := none }, (Agent.coach 0 0), ([] : List Turn), .fib 0 0,
    (0x3488000A : W32), (.brp true 1 10), .inr ⟨rfl, rfl, by decide +kernel⟩, by decide +kernel, by decide +kernel, nofun,
    by decide +kernel⟩

theorem witness_StepRunsWord_ap : ∃ (s : State) (a : _) (r : _) (k : FKey) (w : _) (i : Instr), (s.agenda = .run a :: r ∨ (s.agenda = [] ∧ r
  = [] ∧ s.defaultTurn = .run a)) ∧ s.inReset a = false ∧ s.runner a = some k ∧ (∀ c, a = .ap c → (s.core c).apStop = false) ∧
  ({ s with agenda := r, agent := some a } : State).fetchWord k = .ok w ∧ decode w = .ok i :=
  ⟨{ apBase with mem := [(0x100, 0x0A), (0x102, 0x88), (0x103, 0x34)], agenda := [.run (.ap 0)], agent := none }, (Agent.ap 0), ([] : List
    Turn), (FKey.ap 0), (0x3488000A : W32), (.brp true 1 10), .inl rfl, by decide +kernel, by decide +kernel, fun c h => by cases h; rfl,
    by decide +kernel⟩

theorem witness_StepTakesEvent : ∃ (s : State) (i : Instr) (x : _) (r : _), s.agenda = .event i x :: r ∧ i.isEvent = true :=
  ⟨{ base with agenda := [.event .scrubStep { unit := 3 }] }, .scrubStep, ({ unit := 3 } : StepArgs), ([] : List Turn), by decide +kernel⟩

theorem witness_StepTakesOther_1 : ∃ (s : State) (r : _) (n : _) (c : _), s.agenda = .upset (.plane n) :: r ∧ s.carriages.at? n = some c ∧
  c.state = .ready ∧ c.slots = true :=
  ⟨{ mxBase false with agenda := [.upset (.plane 0)] }, ([] : List Turn), 0, ({ car with paired := false } : Carriage), by decide +kernel⟩

theorem witness_StepTakesOther_2 : ∃ (s : State) (r : _) (n : _) (im : _), s.agenda = .extendMr n im :: r ∧ 5 ≤ n ∧ n ≤ 7 ∧ 1 ≤ s.bootstat /
  16 % 16 :=
  ⟨{ base with agenda := [.extendMr 5 [1, 2]] }, ([] : List Turn), 5, ([1, 2] : List Byte), by decide +kernel⟩

theorem witness_IllegalWordTraps : ∃ (s : State) (r : _) (b : Nat) (n : Nat) (c : _) (p : _) (w : _) (e : _), s.agenda = .run (.coach c p)
  :: r ∧ s.released = true ∧ ({ s with agenda := r, agent := some (.coach c p) } : State).members = some [.fib b n] ∧ s.runner (.coach c p)
  = some (.fib b n) ∧ ({ s with agenda := r, agent := some (.coach c p) } : State).fetchWord (.fib b n) = .ok w ∧ decode w = .error e ∧
  s.CanTrap b n :=
  ⟨{ base with mem := [(0x103, 0xFC)], agenda := [.run (.coach 0 0)], agent := none }, ([] : List Turn), 0, 0, 0, 0, (0xFC000000 : W32),
    Ill.illOpc, four (by decide +kernel) ⟨by decide +kernel, by decide +kernel, canTrap_of (by decide +kernel)⟩⟩

theorem witness_TrapQueue_1 : ∃ (s : State) (b : Nat) (n : Nat) (x : Trap) (e : TrapEntry) (r : _), (s.fib (.fib b n)).service = false ∧
  (s.gang (b, n / 32)).debug = false ∧ (s.gang (b, n / 32)).trapq = e :: r ∧ r.length < 15 ∧ e.lane ≠ n % 32 ∧ (s.fib (.fib b (n / 32 * 32 +
  e.lane))).wait = .ready :=
  ⟨{ pair with gangs := [((0, 0), { sr := { tvec := 0x800 }, trapq := [{ lane := 1, trap := { cause := 0x22, pc := 0x104 } }] })] }, 0, 0,
    ({ cause := 0x12, pc := 0x100, addr := 0x102 } : Trap), ({ lane := 1, trap := { cause := 0x22, pc := 0x104 } } : TrapEntry), ([] : List
    TrapEntry), by decide +kernel⟩

theorem witness_TrapQueue_2_tvec : ∃ (s : State) (b : Nat) (n : Nat) (x : Trap), (s.gang (b, n / 32)).debug = false ∧ ((s.fib (.fib b
  n)).service = true ∧ x.cause ≠ 0x20 ∧ x.cause ≠ 0x23 ∨ (s.fib (.fib b n)).service = false ∧ 16 ≤ (s.gang (b, n / 32)).trapq.length ∨
  (s.fib (.fib b n)).service = false ∧ (s.gang (b, n / 32)).trapq = [] ∧ (s.gang (b, n / 32)).sr.tvec = 0) :=
  ⟨{ base with gangs := [] }, 0, 0, ({ cause := 0x12, pc := 0x100 } : Trap), by decide +kernel⟩

theorem witness_TrapQueue_2_service : ∃ (s : State) (b : Nat) (n : Nat) (x : Trap), (s.gang (b, n / 32)).debug = false ∧ ((s.fib (.fib b
  n)).service = true ∧ x.cause ≠ 0x20 ∧ x.cause ≠ 0x23 ∨ (s.fib (.fib b n)).service = false ∧ 16 ≤ (s.gang (b, n / 32)).trapq.length ∨
  (s.fib (.fib b n)).service = false ∧ (s.gang (b, n / 32)).trapq = [] ∧ (s.gang (b, n / 32)).sr.tvec = 0) :=
  ⟨base.updFib (.fib 0 0) fun f => { f with service := true }, 0, 0, ({ cause := 0x12, pc := 0x100 } : Trap), by decide +kernel⟩

theorem witness_TrapQueue_2_full : ∃ (s : State) (b : Nat) (n : Nat) (x : Trap), (s.gang (b, n / 32)).debug = false ∧ ((s.fib (.fib b
  n)).service = true ∧ x.cause ≠ 0x20 ∧ x.cause ≠ 0x23 ∨ (s.fib (.fib b n)).service = false ∧ 16 ≤ (s.gang (b, n / 32)).trapq.length ∨
  (s.fib (.fib b n)).service = false ∧ (s.gang (b, n / 32)).trapq = [] ∧ (s.gang (b, n / 32)).sr.tvec = 0) :=
  ⟨{ base with gangs := [((0, 0), { sr := { tvec := 0x800 }, trapq := List.replicate 16 { lane := 1, trap := { cause := 0x22, pc := 0x104 } } })] },
    0, 0, ({ cause := 0x12, pc := 0x100 } : Trap), by decide +kernel⟩

theorem witness_ChecksInOrder_opc : ∃ (i : Instr) (s : State) (b : Nat) (n : Nat) (c : _), i.isEvent = false ∧ i ≠ .eret ∧ s.members = some
  [.fib b n] ∧ s.isHelper (.fib b n) = false ∧ s.isServed (.fib b n) = false ∧ s.wordBusy (.fib b n) = false ∧ ((fibreChecks s (.fib b n)
  i).find? (·.2)).map (·.1) = some c ∧ s.CanTrap b n :=
  ⟨(.apend : Instr), base, 0, 0, 0x01, rfl, four (by decide +kernel) ⟨by decide +kernel, by decide +kernel, canTrap_of (by decide +kernel)⟩⟩

theorem witness_ChecksInOrder_field : ∃ (i : Instr) (s : State) (b : Nat) (n : Nat) (c : _), i.isEvent = false ∧ i ≠ .eret ∧ s.members =
  some [.fib b n] ∧ s.isHelper (.fib b n) = false ∧ s.isServed (.fib b n) = false ∧ s.wordBusy (.fib b n) = false ∧ ((fibreChecks s (.fib b
  n) i).find? (·.2)).map (·.1) = some c ∧ s.CanTrap b n :=
  ⟨(.rdsr (.v 0) 0x16 : Instr), base, 0, 0, 0x02, rfl, four (by decide +kernel) ⟨by decide +kernel, by decide +kernel, canTrap_of
    (by decide +kernel)⟩⟩

theorem witness_ChecksInOrder_opnd : ∃ (i : Instr) (s : State) (b : Nat) (n : Nat) (c : _), i.isEvent = false ∧ i ≠ .eret ∧ s.members = some
  [.fib b n] ∧ s.isHelper (.fib b n) = false ∧ s.isServed (.fib b n) = false ∧ s.wordBusy (.fib b n) = false ∧ ((fibreChecks s (.fib b n)
  i).find? (·.2)).map (·.1) = some c ∧ s.CanTrap b n :=
  ⟨(.add ({ wa := false, wb := false, d := .v 64, a := .v 0, b := .v 1 } : R3) : Instr), base, 0, 0, 0x03, rfl, four (by decide +kernel)
    ⟨by decide +kernel, by decide +kernel, canTrap_of (by decide +kernel)⟩⟩

theorem witness_ChecksInOrder_ord : ∃ (i : Instr) (s : State) (b : Nat) (n : Nat) (c : _), i.isEvent = false ∧ i ≠ .eret ∧ s.members = some
  [.fib b n] ∧ s.isHelper (.fib b n) = false ∧ s.isServed (.fib b n) = false ∧ s.wordBusy (.fib b n) = false ∧ ((fibreChecks s (.fib b n)
  i).find? (·.2)).map (·.1) = some c ∧ s.CanTrap b n :=
  ⟨(.fence { ord := .rlx, sc := .blk } : Instr), base, 0, 0, 0x04, rfl, four (by decide +kernel) ⟨by decide +kernel, by decide +kernel,
    canTrap_of (by decide +kernel)⟩⟩

theorem witness_ChecksInOrder_run : ∃ (i : Instr) (s : State) (b : Nat) (n : Nat) (c : _), i.isEvent = false ∧ i ≠ .eret ∧ s.members = some
  [.fib b n] ∧ s.isHelper (.fib b n) = false ∧ s.isServed (.fib b n) = false ∧ s.wordBusy (.fib b n) = false ∧ ((fibreChecks s (.fib b n)
  i).find? (·.2)).map (·.1) = some c ∧ s.CanTrap b n :=
  ⟨(.nop 0 : Instr), { base with pipes := [(0, { block := 0, members := [0], run := 23 })] }, 0, 0, 0x05, rfl, four (by decide +kernel)
    ⟨by decide +kernel, by decide +kernel, canTrap_of (by decide +kernel)⟩⟩

theorem witness_ChecksInOrder_role : ∃ (i : Instr) (s : State) (b : Nat) (n : Nat) (c : _), i.isEvent = false ∧ i ≠ .eret ∧ s.members = some
  [.fib b n] ∧ s.isHelper (.fib b n) = false ∧ s.isServed (.fib b n) = false ∧ s.wordBusy (.fib b n) = false ∧ ((fibreChecks s (.fib b n)
  i).find? (·.2)).map (·.1) = some c ∧ s.CanTrap b n :=
  ⟨(.mxrel : Instr), base, 0, 0, 0x07, rfl, four (by decide +kernel) ⟨by decide +kernel, by decide +kernel, canTrap_of (by decide +kernel)⟩⟩

theorem witness_ChecksInOrder_priv : ∃ (i : Instr) (s : State) (b : Nat) (n : Nat) (c : _), i.isEvent = false ∧ i ≠ .eret ∧ s.members = some
  [.fib b n] ∧ s.isHelper (.fib b n) = false ∧ s.isServed (.fib b n) = false ∧ s.wordBusy (.fib b n) = false ∧ ((fibreChecks s (.fib b n)
  i).find? (·.2)).map (·.1) = some c ∧ s.CanTrap b n :=
  ⟨(.wrsr (.v 0) 0x10 : Instr), base, 0, 0, 0x08, rfl, four (by decide +kernel) ⟨by decide +kernel, by decide +kernel, canTrap_of
    (by decide +kernel)⟩⟩

theorem witness_SoftwareTraps_1 : ∃ (code : _) (s : State) (b : Nat) (n : Nat), s.Ready (.trap code) (.fib b n) ∧ s.CanTrap b n :=
  ⟨(0x3FFF : BitVec 14), base, 0, 0, ready_of (by decide +kernel), canTrap_of (by decide +kernel)⟩

theorem witness_SoftwareTraps_2 : ∃ (s : State) (b : Nat) (n : Nat), s.Ready .bkpt (.fib b n) ∧ s.CanTrap b n :=
  ⟨base, 0, 0, ready_of (by decide +kernel), canTrap_of (by decide +kernel)⟩

theorem witness_SoftwareTraps_3 : ∃ (code : _) (s : State) (n : Nat), s.Ready (.trap code) (.ctl n) :=
  ⟨(5 : BitVec 14), ctlBase, 0, ready_of (by decide +kernel)⟩

theorem witness_SoftwareTraps_4 : ∃ (s : State) (n : Nat), s.Ready .bkpt (.ctl n) :=
  ⟨ctlBase, 0, ready_of (by decide +kernel)⟩

theorem witness_TrapReturn_1_inner : ∃ (s : State) (b : Nat) (n : Nat) (e : _), s.Ready .eret (.fib b n) ∧ s.NoHeld (.fib b n) ∧ (s.fib
  (.fib b n)).wait = .ready ∧ (s.fib (.fib b n)).service = true ∧ ((s.fib (.fib b n)).continuing = none ∨ (s.fib (.fib b n)).inner = true) ∧
  (s.gang (b, n / 32)).trapq = [e] :=
  ⟨{ (base.updFib (.fib 0 0) fun f => { f with service := true, inner := true, continuing := some { trap := { cause := 0x10, pc := 0x2000 }, page := 9 }, tpc := 0x2000 }) with gangs := [((0, 0), { sr := { tvec := 0x800 }, trapq := [{ lane := 0, trap := { cause := 0x20, pc := 0x2000 } }] })] },
    0, 0, ({ lane := 0, trap := { cause := 0x20, pc := 0x2000 } } : TrapEntry), ready_of (by decide +kernel), noHeld_of (by decide +kernel),
    by decide +kernel, by decide +kernel, .inr (by decide +kernel), by decide +kernel⟩

theorem witness_TrapReturn_1 : ∃ (s : State) (b : Nat) (n : Nat) (e : _), s.Ready .eret (.fib b n) ∧ s.NoHeld (.fib b n) ∧ (s.fib (.fib b
  n)).wait = .ready ∧ (s.fib (.fib b n)).service = true ∧ ((s.fib (.fib b n)).continuing = none ∨ (s.fib (.fib b n)).inner = true) ∧ (s.gang
  (b, n / 32)).trapq = [e] :=
  ⟨{ (base.updFib (.fib 0 0) fun f => { f with service := true, tpc := 0x2000 }) with gangs := [((0, 0), { sr := { tvec := 0x800 }, trapq := [{ lane := 0, trap := { cause := 0x22, pc := 0x2000 } }] })] },
    0, 0, ({ lane := 0, trap := { cause := 0x22, pc := 0x2000 } } : TrapEntry), ready_of (by decide +kernel), noHeld_of (by decide +kernel),
    by decide +kernel, by decide +kernel, .inl (by decide +kernel), by decide +kernel⟩

theorem witness_TrapReturn_2_wait : ∃ (s : State) (b : Nat) (n : Nat) (f : _), s.Ready .eret (.fib b n) ∧ s.NoHeld (.fib b n) ∧ (s.fib (.fib
  b n)).wait = .ready ∧ s.CanTrap b n ∧ (s.fib (.fib b n)).continuing = some f :=
  ⟨base.updFib (.fib 0 0) fun f =>
    { f with tpc := 0x2000, tinfo := 0, continuing := some { trap := { cause := 0x10, pc := 0x2000 }, page := 9 } }, 0, 0,
    ({ trap := { cause := 0x10, pc := 0x2000 }, page := 9 } : PageFault), ready_of (by decide +kernel), noHeld_of (by decide +kernel),
    by decide +kernel, canTrap_of (by decide +kernel), by decide +kernel⟩

theorem witness_TrapReturn_2_replay : ∃ (s : State) (b : Nat) (n : Nat) (f : _), s.Ready .eret (.fib b n) ∧ s.NoHeld (.fib b n) ∧ (s.fib
  (.fib b n)).wait = .ready ∧ s.CanTrap b n ∧ (s.fib (.fib b n)).continuing = some f :=
  ⟨base.updFib (.fib 0 0) fun f =>
    { f with tpc := 0x2000, tinfo := 0x4000000000000000, continuing := some { trap := { cause := 0x10, pc := 0x2000 }, page := 9 } }, 0, 0,
    ({ trap := { cause := 0x10, pc := 0x2000 }, page := 9 } : PageFault), ready_of (by decide +kernel), noHeld_of (by decide +kernel),
    by decide +kernel, canTrap_of (by decide +kernel), by decide +kernel⟩

theorem witness_TrapReturn_2_enter : ∃ (s : State) (b : Nat) (n : Nat) (f : _), s.Ready .eret (.fib b n) ∧ s.NoHeld (.fib b n) ∧ (s.fib
  (.fib b n)).wait = .ready ∧ s.CanTrap b n ∧ (s.fib (.fib b n)).continuing = some f :=
  ⟨base.updFib (.fib 0 0) fun f =>
    { f with tpc := 0x2000, tinfo := 0x8000000000000000, continuing := some { trap := { cause := 0x10, pc := 0x2000 }, page := 9 } }, 0, 0,
    ({ trap := { cause := 0x10, pc := 0x2000 }, page := 9 } : PageFault), ready_of (by decide +kernel), noHeld_of (by decide +kernel),
    by decide +kernel, canTrap_of (by decide +kernel), by decide +kernel⟩

theorem witness_TrapReturn_3 : ∃ (s : State) (n : Nat), s.Ready .eret (.ctl n) ∧ (s.fib (.ctl n)).service = true ∧ (s.fib (.ctl
  n)).continuing = none :=
  ⟨ctlBase.updFib (.ctl 0) fun f => { f with service := true, tpc := 0x2000 }, 0, ready_of (by decide +kernel), by decide +kernel⟩

theorem witness_TrapReturn_4 : ∃ (s : State) (b : Nat) (n : Nat), s.Ready .eret (.fib b n) ∧ s.CanTrap b n ∧ (s.fib (.fib b n)).continuing =
  none :=
  ⟨base, 0, 0, ready_of (by decide +kernel), canTrap_of (by decide +kernel), by decide +kernel⟩

theorem witness_BranchTargets : ∃ (i : Instr) (f : _) (s : State) (ks : List FKey), branchRow i = some f ∧ s.Proceeds i noCheck ks ∧ (∀ a,
  targetReg i = some a → ∀ k ∈ ks, s.isHelper k = false → (s.src64 k a).toNat % 4 = 0) ∧ (∀ k ∈ ks, s.NoHeld k) :=
  ⟨(.callr false (.v 22)), _, trio, [.fib 0 0, .fib 0 1, .fib 0 2], rfl, proceeds_of (by decide +kernel),
    fun a h => by cases h; decide +kernel, noHelds_of (by decide +kernel)⟩

theorem witness_JumpMisaligned_jmpr : ∃ (i : Instr) (a : _) (s : State) (b : Nat) (n : Nat), targetReg i = some a ∧ s.Ready i (.fib b n) ∧
  (s.src64 (.fib b n) a).toNat % 4 ≠ 0 ∧ s.CanTrap b n :=
  ⟨(.jmpr false (.v 0)), (Reg.v 0), base, 0, 0, rfl, ready_of (by decide +kernel), by decide +kernel, canTrap_of (by decide +kernel)⟩

theorem witness_JumpMisaligned_fork : ∃ (i : Instr) (a : _) (s : State) (b : Nat) (n : Nat), targetReg i = some a ∧ s.Ready i (.fib b n) ∧
  (s.src64 (.fib b n) a).toNat % 4 ≠ 0 ∧ s.CanTrap b n :=
  ⟨(.fork ({ wa := false, wb := false, d := .v 2, a := .v 0, b := .v 1 } : R3)), (Reg.v 0), base, 0, 0, rfl, ready_of (by decide +kernel),
    by decide +kernel, canTrap_of (by decide +kernel)⟩

theorem witness_WindowBase : ∃ (m : _) (s : State) (ks : List FKey), s.Proceeds (.wbase m) noCheck ks :=
  ⟨(3 : BitVec 4), base, [.fib 0 0], proceeds_of (by decide +kernel)⟩

theorem witness_Reconvergence_1 : ∃ (s : State) (b : Nat) (n : Nat), s.Ready .reconv (.fib b n) ∧ n ∈ s.liveSlots b ∧ (∀ m ∈ s.liveInGang
  (b, n / 32), m ≠ n → (s.fib (.fib b m)).atReconv.isSome = true ∧ (s.fib (.fib b m)).pc = (s.fib (.fib b n)).pc) :=
  ⟨{ pair with fibres := [(.fib 0 0, fibre 0), (.fib 0 1, { fibre 1 with wait := .reconv 0 })] }, 0, 0, ready_of (by decide +kernel),
    by decide +kernel⟩

theorem witness_Reconvergence_2 : ∃ (s : State) (b : Nat) (n : Nat), s.Ready .reconv (.fib b n) ∧ n ∈ s.liveSlots b ∧ (∃ m ∈ s.liveInGang
  (b, n / 32), m ≠ n ∧ (s.fib (.fib b m)).atReconv = none) ∧ (∀ m ∈ s.liveInGang (b, n / 32), (s.fib (.fib b m)).atReconv.isSome = true →
  (s.fib (.fib b m)).pc ≠ (s.fib (.fib b n)).pc) ∧ 0 < (s.gang (b, n / 32)).sr.rcvwin :=
  ⟨pair, 0, 0, ready_of (by decide +kernel), by decide +kernel⟩

theorem witness_ForkCreates_slot : ∃ (o : _) (s : State) (b : Nat) (n : Nat), s.Ready (.fork o) (.fib b n) ∧ n ∈ s.liveSlots b ∧ s.NoHeld
  (.fib b n) ∧ (s.src64 (.fib b n) o.a).toNat % 4 = 0 ∧ s.outstanding (.fib b n) = [] :=
  ⟨({ wa := false, wb := false, d := .v 2, a := .v 22, b := .v 1 } : R3), pair, 0, 0, ready_of (by decide +kernel), by decide +kernel,
    noHeld_of (by decide +kernel), by decide +kernel⟩

theorem witness_ForkCreates_none : ∃ (o : _) (s : State) (b : Nat) (n : Nat), s.Ready (.fork o) (.fib b n) ∧ n ∈ s.liveSlots b ∧ s.NoHeld
  (.fib b n) ∧ (s.src64 (.fib b n) o.a).toNat % 4 = 0 ∧ s.outstanding (.fib b n) = [] :=
  ⟨({ wa := false, wb := false, d := .v 2, a := .v 22, b := .v 1 } : R3),
    { pair with fibres := (List.range 4).map fun n => (.fib 0 n, fibre n) }, 0, 0, ready_of (by decide +kernel), by decide +kernel,
    noHeld_of (by decide +kernel), by decide +kernel⟩

theorem witness_EndRetires : ∃ (s : State) (b : Nat) (n : Nat), s.Ready .endF (.fib b n) ∧ n ∈ s.liveSlots b ∧ (s.fib (.fib b n)).pop = none
  :=
  ⟨pair, 0, 0, ready_of (by decide +kernel), by decide +kernel⟩

theorem witness_EndRetires_last : ∃ (s : State) (b : Nat) (n : Nat), s.Ready .endF (.fib b n) ∧ n ∈ s.liveSlots b ∧ (s.fib (.fib b n)).pop =
  none :=
  ⟨base, 0, 0, ready_of (by decide +kernel), by decide +kernel⟩

theorem witness_SpecialReads_1 : ∃ (d : _) (r : _) (s : State) (ks : List FKey), s.Proceeds (.rdsr d r) noCheck ks ∧ (∀ k ∈ ks, s.counterOf
  k r.toNat = none) :=
  ⟨(Reg.v 2), (0x000 : BitVec 14), base, [.fib 0 0], proceeds_of (by decide +kernel), by decide +kernel⟩

theorem witness_SpecialReads_1_ctl : ∃ (d : _) (r : _) (s : State) (ks : List FKey), s.Proceeds (.rdsr d r) noCheck ks ∧ (∀ k ∈ ks,
  s.counterOf k r.toNat = none) :=
  ⟨(Reg.v 2), (0x003 : BitVec 14), ctlBase, [.ctl 0], proceeds_of (by decide +kernel), by decide +kernel⟩

theorem witness_SpecialReads_2 : ∃ (d : _) (r : _) (s : State) (k : FKey) (c : _), s.Ready (.rdsr d r) k ∧ s.counterOf k r.toNat = some c :=
  ⟨(Reg.v 2), (0x100 : BitVec 14), { base with slices := [(0, { peak := 7, spills := 9 })] }, .fib 0 0, ((0, false) : Nat × Bool), ready_of
    (by decide +kernel), by decide +kernel⟩

theorem witness_SpecialReads_2_spill : ∃ (d : _) (r : _) (s : State) (k : FKey) (c : _), s.Ready (.rdsr d r) k ∧ s.counterOf k r.toNat =
  some c :=
  ⟨(Reg.v 2), (0x101 : BitVec 14), { base with slices := [(0, { peak := 7, spills := 9 })] }, .fib 0 0, ((0, true) : Nat × Bool), ready_of
    (by decide +kernel), by decide +kernel⟩

theorem witness_SpecialWrites : ∃ (d : _) (r : _) (s : State) (k : FKey), s.Ready (.wrsr d r) k :=
  ⟨(Reg.v 0), (0x012 : BitVec 14), base, .fib 0 0, ready_of (by decide +kernel)⟩

theorem witness_SpecialWrites_ctl : ∃ (d : _) (r : _) (s : State) (k : FKey), s.Ready (.wrsr d r) k :=
  ⟨(Reg.v 0), (0x010 : BitVec 14), ctlBase, (FKey.ctl 0), ready_of (by decide +kernel)⟩

theorem witness_CollectiveResults_1_shflIdx : ∃ (i : Instr) (s : State) (g : _) (ks : List FKey) (d : _) (f : _), s.WholeGang g i ks ∧
  collectiveRow i = some (d, f) :=
  ⟨(.shflIdx ({ wa := false, wb := false, d := .v 2, a := .v 0, b := .v 1 } : R3)), trio, ((0, 0) : Nat × Nat), [.fib 0 0, .fib 0 1, .fib 0
    2], _, _, whole_of (by decide +kernel), rfl⟩

theorem witness_CollectiveResults_1_ballot : ∃ (i : Instr) (s : State) (g : _) (ks : List FKey) (d : _) (f : _), s.WholeGang g i ks ∧
  collectiveRow i = some (d, f) :=
  ⟨(.ballot (.v 2) 1), trio, ((0, 0) : Nat × Nat), [.fib 0 0, .fib 0 1, .fib 0 2], _, _, whole_of (by decide +kernel), rfl⟩

theorem witness_CollectiveResults_1_gscanFadd : ∃ (i : Instr) (s : State) (g : _) (ks : List FKey) (d : _) (f : _), s.WholeGang g i ks ∧
  collectiveRow i = some (d, f) :=
  ⟨(.gscanFadd { wa := false, d := .v 2, a := .v 4 }), trio, ((0, 0) : Nat × Nat), [.fib 0 0, .fib 0 1, .fib 0 2], _, _, whole_of
    (by decide +kernel), rfl⟩

theorem witness_CollectiveResults_1_matchV : ∃ (i : Instr) (s : State) (g : _) (ks : List FKey) (d : _) (f : _), s.WholeGang g i ks ∧
  collectiveRow i = some (d, f) :=
  ⟨(.matchV { wa := false, d := .v 2, a := .v 1 }), trio, ((0, 0) : Nat × Nat), [.fib 0 0, .fib 0 1, .fib 0 2], _, _, whole_of
    (by decide +kernel), rfl⟩

theorem witness_CollectiveResults_1_shflUp : ∃ (i : Instr) (s : State) (g : _) (ks : List FKey) (d : _) (f : _), s.WholeGang g i ks ∧
  collectiveRow i = some (d, f) :=
  ⟨(.shflUp ({ wa := false, wb := false, d := .v 2, a := .v 0, b := .v 12 } : R3)), trio, ((0, 0) : Nat × Nat), [.fib 0 0, .fib 0 1, .fib 0
    2], _, _, whole_of (by decide +kernel), rfl⟩

theorem witness_CollectiveResults_1_shflDn : ∃ (i : Instr) (s : State) (g : _) (ks : List FKey) (d : _) (f : _), s.WholeGang g i ks ∧
  collectiveRow i = some (d, f) :=
  ⟨(.shflDn ({ wa := false, wb := false, d := .v 2, a := .v 0, b := .v 12 } : R3)), trio, ((0, 0) : Nat × Nat), [.fib 0 0, .fib 0 1, .fib 0
    2], _, _, whole_of (by decide +kernel), rfl⟩

theorem witness_CollectiveResults_1_shflXor : ∃ (i : Instr) (s : State) (g : _) (ks : List FKey) (d : _) (f : _), s.WholeGang g i ks ∧
  collectiveRow i = some (d, f) :=
  ⟨(.shflXor ({ wa := false, wb := false, d := .v 2, a := .v 0, b := .v 12 } : R3)), trio, ((0, 0) : Nat × Nat), [.fib 0 0, .fib 0 1, .fib 0
    2], _, _, whole_of (by decide +kernel), rfl⟩

theorem witness_CollectiveResults_1_bcast : ∃ (i : Instr) (s : State) (g : _) (ks : List FKey) (d : _) (f : _), s.WholeGang g i ks ∧
  collectiveRow i = some (d, f) :=
  ⟨(.bcast ({ wa := false, wb := false, d := .v 2, a := .v 0, b := .v 12 } : R3)), trio, ((0, 0) : Nat × Nat), [.fib 0 0, .fib 0 1, .fib 0
    2], _, _, whole_of (by decide +kernel), rfl⟩

theorem witness_CollectiveResults_1_gredFadd : ∃ (i : Instr) (s : State) (g : _) (ks : List FKey) (d : _) (f : _), s.WholeGang g i ks ∧
  collectiveRow i = some (d, f) :=
  ⟨(.gredFadd { wa := false, d := .v 2, a := .v 4 }), trio, ((0, 0) : Nat × Nat), [.fib 0 0, .fib 0 1, .fib 0 2], _, _, whole_of
    (by decide +kernel), rfl⟩

theorem witness_CollectiveResults_1_gredIadd : ∃ (i : Instr) (s : State) (g : _) (ks : List FKey) (d : _) (f : _), s.WholeGang g i ks ∧
  collectiveRow i = some (d, f) :=
  ⟨(.gredIadd { wa := false, d := .v 2, a := .v 0 }), trio, ((0, 0) : Nat × Nat), [.fib 0 0, .fib 0 1, .fib 0 2], _, _, whole_of
    (by decide +kernel), rfl⟩

theorem witness_CollectiveResults_1_gredFmax : ∃ (i : Instr) (s : State) (g : _) (ks : List FKey) (d : _) (f : _), s.WholeGang g i ks ∧
  collectiveRow i = some (d, f) :=
  ⟨(.gredFmax { wa := false, d := .v 2, a := .v 4 }), trio, ((0, 0) : Nat × Nat), [.fib 0 0, .fib 0 1, .fib 0 2], _, _, whole_of
    (by decide +kernel), rfl⟩

theorem witness_CollectiveResults_1_gredFmin : ∃ (i : Instr) (s : State) (g : _) (ks : List FKey) (d : _) (f : _), s.WholeGang g i ks ∧
  collectiveRow i = some (d, f) :=
  ⟨(.gredFmin { wa := false, d := .v 2, a := .v 4 }), trio, ((0, 0) : Nat × Nat), [.fib 0 0, .fib 0 1, .fib 0 2], _, _, whole_of
    (by decide +kernel), rfl⟩

theorem witness_CollectiveResults_1_gscanIadd : ∃ (i : Instr) (s : State) (g : _) (ks : List FKey) (d : _) (f : _), s.WholeGang g i ks ∧
  collectiveRow i = some (d, f) :=
  ⟨(.gscanIadd { wa := false, d := .v 2, a := .v 0 }), trio, ((0, 0) : Nat × Nat), [.fib 0 0, .fib 0 1, .fib 0 2], _, _, whole_of
    (by decide +kernel), rfl⟩

theorem witness_CollectiveResults_2_voteAny : ∃ (i : Instr) (s : State) (g : _) (ks : List FKey) (d : _) (f : _), s.WholeGang g i ks ∧
  voteRow i = some (d, f) :=
  ⟨(.voteAny 2 1), trio, ((0, 0) : Nat × Nat), [.fib 0 0, .fib 0 1, .fib 0 2], _, _, whole_of (by decide +kernel), rfl⟩

theorem witness_CollectiveResults_2_voteAll : ∃ (i : Instr) (s : State) (g : _) (ks : List FKey) (d : _) (f : _), s.WholeGang g i ks ∧
  voteRow i = some (d, f) :=
  ⟨(.voteAll 2 1), trio, ((0, 0) : Nat × Nat), [.fib 0 0, .fib 0 1, .fib 0 2], _, _, whole_of (by decide +kernel), rfl⟩

theorem witness_CollectiveLast_1_ballot : ∃ (i : Instr) (s : State) (g : _) (ks : List FKey) (d : _) (f : _), s.LastOfGang g i ks ∧
  collectiveRow i = some (d, f) :=
  ⟨(.ballot (.v 2) 1), lastBase (.ballot (.v 2) 1), ((0, 0) : Nat × Nat), [.fib 0 0], _, _, last_of (by decide +kernel), rfl⟩

theorem witness_CollectiveLast_1_bcast : ∃ (i : Instr) (s : State) (g : _) (ks : List FKey) (d : _) (f : _), s.LastOfGang g i ks ∧
  collectiveRow i = some (d, f) :=
  ⟨(.bcast ({ wa := false, wb := false, d := .v 2, a := .v 0, b := .v 12 } : R3)), lastBase (.bcast
    ({ wa := false, wb := false, d := .v 2, a := .v 0, b := .v 12 } : R3)), ((0, 0) : Nat × Nat), [.fib 0 0], _, _, last_of
    (by decide +kernel), rfl⟩

theorem witness_CollectiveLast_1_gredIadd : ∃ (i : Instr) (s : State) (g : _) (ks : List FKey) (d : _) (f : _), s.LastOfGang g i ks ∧
  collectiveRow i = some (d, f) :=
  ⟨(.gredIadd { wa := false, d := .v 2, a := .v 0 }), lastBase (.gredIadd { wa := false, d := .v 2, a := .v 0 }), ((0, 0) : Nat × Nat),
    [.fib 0 0], _, _, last_of (by decide +kernel), rfl⟩

theorem witness_CollectiveLast_1_gscanFadd : ∃ (i : Instr) (s : State) (g : _) (ks : List FKey) (d : _) (f : _), s.LastOfGang g i ks ∧
  collectiveRow i = some (d, f) :=
  ⟨(.gscanFadd { wa := false, d := .v 2, a := .v 4 }), lastBase (.gscanFadd { wa := false, d := .v 2, a := .v 4 }), ((0, 0) : Nat × Nat),
    [.fib 0 0], _, _, last_of (by decide +kernel), rfl⟩

theorem witness_CollectiveLast_1_shflXor : ∃ (i : Instr) (s : State) (g : _) (ks : List FKey) (d : _) (f : _), s.LastOfGang g i ks ∧
  collectiveRow i = some (d, f) :=
  ⟨(.shflXor ({ wa := false, wb := false, d := .v 2, a := .v 0, b := .v 12 } : R3)), lastBase (.shflXor
    ({ wa := false, wb := false, d := .v 2, a := .v 0, b := .v 12 } : R3)), ((0, 0) : Nat × Nat), [.fib 0 0], _, _, last_of
    (by decide +kernel), rfl⟩

theorem witness_CollectiveLast_2 : ∃ (i : Instr) (s : State) (g : _) (ks : List FKey) (d : _) (f : _), s.LastOfGang g i ks ∧ voteRow i =
  some (d, f) :=
  ⟨(.voteAny 2 1), lastBase (.voteAny 2 1), ((0, 0) : Nat × Nat), [.fib 0 0], _, _, last_of (by decide +kernel), rfl⟩

theorem witness_CollectiveWaits : ∃ (i : Instr) (s : State) (b : Nat) (n : Nat), ((collectiveRow i).isSome || (voteRow i).isSome) = true ∧
  s.Ready i (.fib b n) ∧ n ∈ s.liveSlots b ∧ (∃ m ∈ s.liveInGang (b, n / 32), m ≠ n ∧ (s.fib (.fib b m)).collAt = none) :=
  ⟨(.voteAny 2 1), pair, 0, 0, rfl, ready_of (by decide +kernel), by decide +kernel⟩

theorem witness_FloatClass : ∃ (o : _) (s : State) (ks : List FKey), s.Proceeds (.fclass o) noCheck ks :=
  ⟨({ wa := false, d := .v 1, a := .v 3 } : R2), base, [.fib 0 0], proceeds_of (by decide +kernel)⟩

theorem witness_StepInvariant : ∃ (s : State) (t : State), s.Inv ∧ step s = .next t :=
  ⟨State.reset, (State.reset.passTime 1).unstall.follow, ⟨by decide +kernel, by decide +kernel, (by decide +kernel : ([] : List
    Nat).Nodup)⟩, rfl⟩

theorem witness_SfuResults : ∃ (i : Instr) (d : _) (f : _) (s : State) (k : FKey), sfuRow i = some (d, f) ∧ s.Ready i k ∧ (∀ o n, i = .act o
  n → (s.table (s.coreOf k) n.toNat).activeBank.state ≠ .loading) :=
  ⟨(.rcp { wa := false, d := .v 1, a := .v 4 }), _, _, base, .fib 0 0, rfl, ready_of (by decide +kernel), nofun⟩

theorem witness_SfuResults_rsq : ∃ (i : Instr) (d : _) (f : _) (s : State) (k : FKey), sfuRow i = some (d, f) ∧ s.Ready i k ∧ (∀ o n, i =
  .act o n → (s.table (s.coreOf k) n.toNat).activeBank.state ≠ .loading) :=
  ⟨(.rsq { wa := false, d := .v 1, a := .v 4 }), _, _, base, .fib 0 0, rfl, ready_of (by decide +kernel), nofun⟩

theorem witness_SfuResults_sqrt : ∃ (i : Instr) (d : _) (f : _) (s : State) (k : FKey), sfuRow i = some (d, f) ∧ s.Ready i k ∧ (∀ o n, i =
  .act o n → (s.table (s.coreOf k) n.toNat).activeBank.state ≠ .loading) :=
  ⟨(.sqrt { wa := false, d := .v 1, a := .v 4 }), _, _, base, .fib 0 0, rfl, ready_of (by decide +kernel), nofun⟩

theorem witness_SfuResults_div : ∃ (i : Instr) (d : _) (f : _) (s : State) (k : FKey), sfuRow i = some (d, f) ∧ s.Ready i k ∧ (∀ o n, i =
  .act o n → (s.table (s.coreOf k) n.toNat).activeBank.state ≠ .loading) :=
  ⟨(.div ({ wa := false, wb := false, d := .v 1, a := .v 4, b := .v 5 } : R3)), _, _, base, .fib 0 0, rfl, ready_of (by decide +kernel),
    nofun⟩

theorem witness_SfuResults_act : ∃ (i : Instr) (d : _) (f : _) (s : State) (k : FKey), sfuRow i = some (d, f) ∧ s.Ready i k ∧ (∀ o n, i =
  .act o n → (s.table (s.coreOf k) n.toNat).activeBank.state ≠ .loading) :=
  ⟨(.act { wa := false, d := .v 1, a := .v 4 } 7), _, _, base, .fib 0 0, rfl, ready_of (by decide +kernel),
    fun o n h => by cases h; decide +kernel⟩

theorem witness_TableWords_1 : ∃ (wa : _) (a : _) (n : _) (s : State) (k : FKey) (bs : _) (p : _), s.Ready (.actld wa a n) k ∧ (s.src64 k
  a).toNat % 64 = 0 ∧ (s.table (s.coreOf k) n.toNat).inactiveBank.state ≠ .loading ∧ s.acqPending k = false ∧ (∀ r ∈ s.reqs, r.core =
  s.coreOf k → r.what ≠ .sfu (some (n.toNat, !(s.table (s.coreOf k) n.toNat).active))) ∧ (s.reading (.actld wa a n)).readVirt k (.actld wa a
  n) .load 3 (s.src64 k a) 4160 = .ok (bs, p) ∧ headerOk bs = true :=
  ⟨false, (Reg.v 16), (2 : BitVec 3), { base with mem := tableImage }, .fib 0 0, (got ([], none) (State.readVirt (State.reading
    ({ base with mem := tableImage }) (.actld false (.v 16) 2)) (.fib 0 0) (.actld false (.v 16) 2) .load 3 0x10000 4160)).1, (got ([],
    none) (State.readVirt (State.reading ({ base with mem := tableImage }) (.actld false (.v 16) 2)) (.fib 0 0) (.actld false (.v 16) 2)
    .load 3 0x10000 4160)).2, ready_of (by decide +kernel), four (by decide +kernel) ⟨ok_pair _ (by decide +kernel), by decide +kernel⟩⟩

theorem witness_TableWords_2 : ∃ (n : _) (s : State) (k : FKey), s.Ready (.actsw n) k ∧ (s.table (s.coreOf k) n.toNat).inactiveBank.state ∉
  [.loading, .poisoned] :=
  ⟨(2 : BitVec 3), base, .fib 0 0, ready_of (by decide +kernel), by decide +kernel⟩

theorem witness_TableWords_3 : ∃ (s : State) (x : _) (n : _) (rest : _), s.table s.args.unit s.args.sub = x ∧ n = (if
  x.inactiveBank.header.isSome = true then 64 else 0) ∧ (x.activeBank.state = .loading → x.activeBank.fault.isSome = true) ∧
  x.inactiveBank.state = .loading ∧ x.inactiveBank.fault = none ∧ x.inactiveBank.restore = none ∧ s.engRead
  { core := s.args.unit, part := x.inactiveBank.part, lid := 0, p := tableParty s.args.unit s.args.sub } (BitVec.ofNat 64
  (x.inactiveBank.addr + n)) (4160 - n) { data := s.args.bytes, code := s.args.opt.getD 0 } = .ok rest :=
  ⟨(withArgs { base with mem := tableImage, cores := [(0, { tables := [(2, { bank1 := { state := .loading, addr := 0x10000 } })] })] }
    { unit := 0, sub := 2 }), ({ bank1 := { state := .loading, addr := 0x10000 } } : ActTable), 0, (got [] (State.engRead (withArgs
    { base with mem := tableImage, cores := [(0, { tables := [(2, { bank1 := { state := .loading, addr := 0x10000 } })] })] }
    { unit := 0, sub := 2 }) { core := 0, part := 0, lid := 0, p := tableParty 0 2 } (0x10000 + 0) (4160 - 0) {})), by decide +kernel,
    by decide +kernel, nofun, by decide +kernel, by decide +kernel, by decide +kernel, ok_got _ (by decide +kernel)⟩

theorem witness_TableWords_3_header : ∃ (s : State) (x : _) (n : _) (rest : _), s.table s.args.unit s.args.sub = x ∧ n = (if
  x.inactiveBank.header.isSome = true then 64 else 0) ∧ (x.activeBank.state = .loading → x.activeBank.fault.isSome = true) ∧
  x.inactiveBank.state = .loading ∧ x.inactiveBank.fault = none ∧ x.inactiveBank.restore = none ∧ s.engRead
  { core := s.args.unit, part := x.inactiveBank.part, lid := 0, p := tableParty s.args.unit s.args.sub } (BitVec.ofNat 64
  (x.inactiveBank.addr + n)) (4160 - n) { data := s.args.bytes, code := s.args.opt.getD 0 } = .ok rest :=
  ⟨(withArgs
    { base with mem := tableImage, cores := [(0, { tables := [(2, { bank1 := { state := .loading, addr := 0x10000, header := some ([1, 0, 0, 4, 4] ++ List.replicate 59 0, false) } })] })] }
    { unit := 0, sub := 2 }),
    ({ bank1 := { state := .loading, addr := 0x10000, header := some ([1, 0, 0, 4, 4] ++ List.replicate 59 0, false) } } : ActTable), 64,
    (got [] (State.engRead (withArgs
    { base with mem := tableImage, cores := [(0, { tables := [(2, { bank1 := { state := .loading, addr := 0x10000, header := some ([1, 0, 0, 4, 4] ++ List.replicate 59 0, false) } })] })] }
    { unit := 0, sub := 2 }) { core := 0, part := 0, lid := 0, p := tableParty 0 2 } (0x10000 + 64) (4160 - 64) {})), by decide +kernel,
    by decide +kernel, nofun, by decide +kernel, by decide +kernel, by decide +kernel, ok_got _ (by decide +kernel)⟩

theorem witness_TableWords_3_poisoned : ∃ (s : State) (x : _) (n : _) (rest : _), s.table s.args.unit s.args.sub = x ∧ n = (if
  x.inactiveBank.header.isSome = true then 64 else 0) ∧ (x.activeBank.state = .loading → x.activeBank.fault.isSome = true) ∧
  x.inactiveBank.state = .loading ∧ x.inactiveBank.fault = none ∧ x.inactiveBank.restore = none ∧ s.engRead
  { core := s.args.unit, part := x.inactiveBank.part, lid := 0, p := tableParty s.args.unit s.args.sub } (BitVec.ofNat 64
  (x.inactiveBank.addr + n)) (4160 - n) { data := s.args.bytes, code := s.args.opt.getD 0 } = .ok rest :=
  ⟨(withArgs
    { base with mem := tableImage, cores := [(0, { tables := [(2, { bank1 := { state := .loading, addr := 0x10000, header := some ([1, 0, 0, 4, 4] ++ List.replicate 59 0, true) } })] })] }
    { unit := 0, sub := 2 }),
    ({ bank1 := { state := .loading, addr := 0x10000, header := some ([1, 0, 0, 4, 4] ++ List.replicate 59 0, true) } } : ActTable), 64,
    (got [] (State.engRead (withArgs
    { base with mem := tableImage, cores := [(0, { tables := [(2, { bank1 := { state := .loading, addr := 0x10000, header := some ([1, 0, 0, 4, 4] ++ List.replicate 59 0, true) } })] })] }
    { unit := 0, sub := 2 }) { core := 0, part := 0, lid := 0, p := tableParty 0 2 } (0x10000 + 64) (4160 - 64) {})), by decide +kernel,
    by decide +kernel, nofun, by decide +kernel, by decide +kernel, by decide +kernel, ok_got _ (by decide +kernel)⟩

theorem witness_Loads_1 : ∃ (o : _) (s : State) (k : FKey) (x : _), s.Ready (.ld o) k ∧ s.Reaches k (.ld o) (if o.ch = .nol1 then .homeLoad
  else .load) o.ord o.sc (s.src64 k o.a) o.w.bytes x :=
  ⟨({ w := .b32, ord := .rlx, sc := .fib, d := .v 30, a := .v 16, ch := .normal } : LdOp), base, .fib 0 0,
    ({ pa := 0x10000, dev := none, pte := pte 0x7FF 1 0xCF } : Target), ready_of (by decide +kernel), reaches_of (by decide +kernel) nofun⟩

theorem witness_Loads_1_acq : ∃ (o : _) (s : State) (k : FKey) (x : _), s.Ready (.ld o) k ∧ s.Reaches k (.ld o) (if o.ch = .nol1 then
  .homeLoad else .load) o.ord o.sc (s.src64 k o.a) o.w.bytes x :=
  ⟨({ w := .b64, ord := .acq, sc := .dev, d := .v 32, a := .v 16, ch := .normal } : LdOp), base, .fib 0 0,
    ({ pa := 0x10000, dev := none, pte := pte 0x7FF 1 0xCF } : Target), ready_of (by decide +kernel), reaches_of (by decide +kernel) nofun⟩

theorem witness_Loads_1_sreg : ∃ (o : _) (s : State) (k : FKey) (x : _), s.Ready (.ld o) k ∧ s.Reaches k (.ld o) (if o.ch = .nol1 then
  .homeLoad else .load) o.ord o.sc (s.src64 k o.a) o.w.bytes x :=
  ⟨({ w := .b64, ord := .rlx, sc := .fib, d := .s 3, a := .v 16, ch := .normal } : LdOp), base, .fib 0 0,
    ({ pa := 0x10000, dev := none, pte := pte 0x7FF 1 0xCF } : Target), ready_of (by decide +kernel), reaches_of (by decide +kernel) nofun⟩

theorem witness_Loads_1_ctl : ∃ (o : _) (s : State) (k : FKey) (x : _), s.Ready (.ld o) k ∧ s.Reaches k (.ld o) (if o.ch = .nol1 then
  .homeLoad else .load) o.ord o.sc (s.src64 k o.a) o.w.bytes x :=
  ⟨({ w := .b64, ord := .rlx, sc := .fib, d := .v 30, a := .v 16, ch := .normal } : LdOp), ctlBase, (FKey.ctl 0),
    ({ pa := 0x10000, dev := none, pte := ctlPte } : Target), ready_of (by decide +kernel),
    reaches_of (by decide +kernel) (fun c h => by cases h; decide +kernel)⟩

theorem witness_Loads_1_ap : ∃ (o : _) (s : State) (k : FKey) (x : _), s.Ready (.ld o) k ∧ s.Reaches k (.ld o) (if o.ch = .nol1 then
  .homeLoad else .load) o.ord o.sc (s.src64 k o.a) o.w.bytes x :=
  ⟨({ w := .b32, ord := .rlx, sc := .fib, d := .v 30, a := .v 16, ch := .normal } : LdOp), apBase, (FKey.ap 0),
    ({ pa := 0x10000, dev := none, pte := pte 0x7FF 1 0xCF } : Target), ready_of (by decide +kernel), reaches_of (by decide +kernel) nofun⟩

theorem witness_Loads_2 : ∃ (o : _) (s : State) (k : FKey) (x : _), s.Ready (.ldc o) k ∧ s.Reaches k (.ldc o) .ldc o.ord o.sc (s.src64 k
  o.a) 16 x :=
  ⟨({ ord := .rlx, sc := .fib, d := .v 32, a := .v 18 } : MOp), base, .fib 0 0, ({ pa := 0x20000, dev := none, pte := pte 0x7FF 2 0x1CF } :
    Target), ready_of (by decide +kernel), reaches_of (by decide +kernel) nofun⟩

theorem witness_Stores_1 : ∃ (o : _) (s : State) (k : FKey) (x : _), s.Ready (.st o) k ∧ s.Reaches k (.st o) .store o.ord o.sc (s.src64 k
  o.a) o.w.bytes x :=
  ⟨({ w := .b64, ord := .rel, sc := .fab, d := .v 0, a := .v 16, ch := .normal } : StOp), base, .fib 0 0,
    ({ pa := 0x10000, dev := none, pte := pte 0x7FF 1 0xCF } : Target), ready_of (by decide +kernel), reaches_of (by decide +kernel) nofun⟩

theorem witness_Stores_1_z : ∃ (o : _) (s : State) (k : FKey) (x : _), s.Ready (.st o) k ∧ s.Reaches k (.st o) .store o.ord o.sc (s.src64 k
  o.a) o.w.bytes x :=
  ⟨({ w := .b8, ord := .rlx, sc := .fib, d := .z, a := .v 16, ch := .normal } : StOp), base, .fib 0 0,
    ({ pa := 0x10000, dev := none, pte := pte 0x7FF 1 0xCF } : Target), ready_of (by decide +kernel), reaches_of (by decide +kernel) nofun⟩

theorem witness_Stores_2_stc : ∃ (md : Bool) (o : _) (s : State) (k : FKey) (x : _), s.Ready (if md then .stcMd o else .stc o) k ∧ s.Reaches
  k (if md then .stcMd o else .stc o) .cellStore o.ord o.sc (s.src64 k o.a) 16 x :=
  ⟨false, ({ ord := .rlx, sc := .fib, d := .v 4, a := .v 18 } : MOp), base, .fib 0 0,
    ({ pa := 0x20000, dev := none, pte := pte 0x7FF 2 0x1CF } : Target), ready_of (by decide +kernel), reaches_of (by decide +kernel) nofun⟩

theorem witness_Stores_2_stcMd : ∃ (md : Bool) (o : _) (s : State) (k : FKey) (x : _), s.Ready (if md then .stcMd o else .stc o) k ∧
  s.Reaches k (if md then .stcMd o else .stc o) .cellStore o.ord o.sc (s.src64 k o.a) 16 x :=
  ⟨true, ({ ord := .rlx, sc := .fib, d := .v 4, a := .v 18 } : MOp), base, .fib 0 0,
    ({ pa := 0x20000, dev := none, pte := pte 0x7FF 2 0x1CF } : Target), ready_of (by decide +kernel), reaches_of (by decide +kernel) nofun⟩

theorem witness_Atomics_aadd : ∃ (i : Instr) (o : _) (op : _) (kd : _) (w : _) (s : State) (k : FKey) (x : _), atomRow i = some (o, op, kd,
  w) ∧ s.Ready i k ∧ s.Reaches k i .atomic o.ord o.sc (s.src64 k o.a) (atomBytes op) x :=
  ⟨(.aadd { ord := .rlx, sc := .dev, d := .v 2, a := .v 16, use := .unp }), _, _, _, _, base, .fib 0 0,
    ({ pa := 0x10000, dev := none, pte := pte 0x7FF 1 0xCF } : Target), rfl, ready_of (by decide +kernel), reaches_of (by decide +kernel)
    nofun⟩

theorem witness_Atomics_afadd : ∃ (i : Instr) (o : _) (op : _) (kd : _) (w : _) (s : State) (k : FKey) (x : _), atomRow i = some (o, op, kd,
  w) ∧ s.Ready i k ∧ s.Reaches k i .atomic o.ord o.sc (s.src64 k o.a) (atomBytes op) x :=
  ⟨(.afadd { ord := .rlx, sc := .dev, d := .v 2, a := .v 16, use := .unp }), _, _, _, _, base, .fib 0 0,
    ({ pa := 0x10000, dev := none, pte := pte 0x7FF 1 0xCF } : Target), rfl, ready_of (by decide +kernel), reaches_of (by decide +kernel)
    nofun⟩

theorem witness_Atomics_amin : ∃ (i : Instr) (o : _) (op : _) (kd : _) (w : _) (s : State) (k : FKey) (x : _), atomRow i = some (o, op, kd,
  w) ∧ s.Ready i k ∧ s.Reaches k i .atomic o.ord o.sc (s.src64 k o.a) (atomBytes op) x :=
  ⟨(.amin { ord := .rlx, sc := .dev, d := .v 2, a := .v 16, use := .unp }), _, _, _, _, base, .fib 0 0,
    ({ pa := 0x10000, dev := none, pte := pte 0x7FF 1 0xCF } : Target), rfl, ready_of (by decide +kernel), reaches_of (by decide +kernel)
    nofun⟩

theorem witness_Atomics_amax : ∃ (i : Instr) (o : _) (op : _) (kd : _) (w : _) (s : State) (k : FKey) (x : _), atomRow i = some (o, op, kd,
  w) ∧ s.Ready i k ∧ s.Reaches k i .atomic o.ord o.sc (s.src64 k o.a) (atomBytes op) x :=
  ⟨(.amax { ord := .rlx, sc := .dev, d := .v 2, a := .v 16, use := .unp }), _, _, _, _, base, .fib 0 0,
    ({ pa := 0x10000, dev := none, pte := pte 0x7FF 1 0xCF } : Target), rfl, ready_of (by decide +kernel), reaches_of (by decide +kernel)
    nofun⟩

theorem witness_Atomics_aminn : ∃ (i : Instr) (o : _) (op : _) (kd : _) (w : _) (s : State) (k : FKey) (x : _), atomRow i = some (o, op, kd,
  w) ∧ s.Ready i k ∧ s.Reaches k i .atomic o.ord o.sc (s.src64 k o.a) (atomBytes op) x :=
  ⟨(.aminn { ord := .rlx, sc := .dev, d := .v 2, a := .v 16, use := .unp }), _, _, _, _, base, .fib 0 0,
    ({ pa := 0x10000, dev := none, pte := pte 0x7FF 1 0xCF } : Target), rfl, ready_of (by decide +kernel), reaches_of (by decide +kernel)
    nofun⟩

theorem witness_Atomics_amaxn : ∃ (i : Instr) (o : _) (op : _) (kd : _) (w : _) (s : State) (k : FKey) (x : _), atomRow i = some (o, op, kd,
  w) ∧ s.Ready i k ∧ s.Reaches k i .atomic o.ord o.sc (s.src64 k o.a) (atomBytes op) x :=
  ⟨(.amaxn { ord := .rlx, sc := .dev, d := .v 2, a := .v 16, use := .unp }), _, _, _, _, base, .fib 0 0,
    ({ pa := 0x10000, dev := none, pte := pte 0x7FF 1 0xCF } : Target), rfl, ready_of (by decide +kernel), reaches_of (by decide +kernel)
    nofun⟩

theorem witness_Atomics_aand : ∃ (i : Instr) (o : _) (op : _) (kd : _) (w : _) (s : State) (k : FKey) (x : _), atomRow i = some (o, op, kd,
  w) ∧ s.Ready i k ∧ s.Reaches k i .atomic o.ord o.sc (s.src64 k o.a) (atomBytes op) x :=
  ⟨(.aand { ord := .rlx, sc := .dev, d := .v 2, a := .v 16, use := .unp }), _, _, _, _, base, .fib 0 0,
    ({ pa := 0x10000, dev := none, pte := pte 0x7FF 1 0xCF } : Target), rfl, ready_of (by decide +kernel), reaches_of (by decide +kernel)
    nofun⟩

theorem witness_Atomics_aor : ∃ (i : Instr) (o : _) (op : _) (kd : _) (w : _) (s : State) (k : FKey) (x : _), atomRow i = some (o, op, kd,
  w) ∧ s.Ready i k ∧ s.Reaches k i .atomic o.ord o.sc (s.src64 k o.a) (atomBytes op) x :=
  ⟨(.aor { ord := .rlx, sc := .dev, d := .v 2, a := .v 16, use := .unp }), _, _, _, _, base, .fib 0 0,
    ({ pa := 0x10000, dev := none, pte := pte 0x7FF 1 0xCF } : Target), rfl, ready_of (by decide +kernel), reaches_of (by decide +kernel)
    nofun⟩

theorem witness_Atomics_axor : ∃ (i : Instr) (o : _) (op : _) (kd : _) (w : _) (s : State) (k : FKey) (x : _), atomRow i = some (o, op, kd,
  w) ∧ s.Ready i k ∧ s.Reaches k i .atomic o.ord o.sc (s.src64 k o.a) (atomBytes op) x :=
  ⟨(.axor { ord := .rlx, sc := .dev, d := .v 2, a := .v 16, use := .unp }), _, _, _, _, base, .fib 0 0,
    ({ pa := 0x10000, dev := none, pte := pte 0x7FF 1 0xCF } : Target), rfl, ready_of (by decide +kernel), reaches_of (by decide +kernel)
    nofun⟩

theorem witness_Atomics_axch : ∃ (i : Instr) (o : _) (op : _) (kd : _) (w : _) (s : State) (k : FKey) (x : _), atomRow i = some (o, op, kd,
  w) ∧ s.Ready i k ∧ s.Reaches k i .atomic o.ord o.sc (s.src64 k o.a) (atomBytes op) x :=
  ⟨(.axch { ord := .rlx, sc := .dev, d := .v 2, a := .v 16, use := .unp }), _, _, _, _, base, .fib 0 0,
    ({ pa := 0x10000, dev := none, pte := pte 0x7FF 1 0xCF } : Target), rfl, ready_of (by decide +kernel), reaches_of (by decide +kernel)
    nofun⟩

theorem witness_Atomics_acas : ∃ (i : Instr) (o : _) (op : _) (kd : _) (w : _) (s : State) (k : FKey) (x : _), atomRow i = some (o, op, kd,
  w) ∧ s.Ready i k ∧ s.Reaches k i .atomic o.ord o.sc (s.src64 k o.a) (atomBytes op) x :=
  ⟨(.acas { ord := .rlx, sc := .dev, d := .v 2, a := .v 16, use := .unp }), _, _, _, _, base, .fib 0 0,
    ({ pa := 0x10000, dev := none, pte := pte 0x7FF 1 0xCF } : Target), rfl, ready_of (by decide +kernel), reaches_of (by decide +kernel)
    nofun⟩

theorem witness_Atomics_ainc : ∃ (i : Instr) (o : _) (op : _) (kd : _) (w : _) (s : State) (k : FKey) (x : _), atomRow i = some (o, op, kd,
  w) ∧ s.Ready i k ∧ s.Reaches k i .atomic o.ord o.sc (s.src64 k o.a) (atomBytes op) x :=
  ⟨(.ainc { ord := .rlx, sc := .dev, d := .v 2, a := .v 16, use := .unp }), _, _, _, _, base, .fib 0 0,
    ({ pa := 0x10000, dev := none, pte := pte 0x7FF 1 0xCF } : Target), rfl, ready_of (by decide +kernel), reaches_of (by decide +kernel)
    nofun⟩

theorem witness_Atomics_aadd64 : ∃ (i : Instr) (o : _) (op : _) (kd : _) (w : _) (s : State) (k : FKey) (x : _), atomRow i = some (o, op,
  kd, w) ∧ s.Ready i k ∧ s.Reaches k i .atomic o.ord o.sc (s.src64 k o.a) (atomBytes op) x :=
  ⟨(.aadd64 { ord := .rlx, sc := .dev, d := .v 2, a := .v 16, use := .unp }), _, _, _, _, base, .fib 0 0,
    ({ pa := 0x10000, dev := none, pte := pte 0x7FF 1 0xCF } : Target), rfl, ready_of (by decide +kernel), reaches_of (by decide +kernel)
    nofun⟩

theorem witness_Atomics_acas64 : ∃ (i : Instr) (o : _) (op : _) (kd : _) (w : _) (s : State) (k : FKey) (x : _), atomRow i = some (o, op,
  kd, w) ∧ s.Ready i k ∧ s.Reaches k i .atomic o.ord o.sc (s.src64 k o.a) (atomBytes op) x :=
  ⟨(.acas64 { ord := .rlx, sc := .dev, d := .v 4, a := .v 16, use := .unp }), _, _, _, _, base, .fib 0 0,
    ({ pa := 0x10000, dev := none, pte := pte 0x7FF 1 0xCF } : Target), rfl, ready_of (by decide +kernel), reaches_of (by decide +kernel)
    nofun⟩

theorem witness_Atomics_axch64 : ∃ (i : Instr) (o : _) (op : _) (kd : _) (w : _) (s : State) (k : FKey) (x : _), atomRow i = some (o, op,
  kd, w) ∧ s.Ready i k ∧ s.Reaches k i .atomic o.ord o.sc (s.src64 k o.a) (atomBytes op) x :=
  ⟨(.axch64 { ord := .rlx, sc := .dev, d := .v 2, a := .v 16, use := .unp }), _, _, _, _, base, .fib 0 0,
    ({ pa := 0x10000, dev := none, pte := pte 0x7FF 1 0xCF } : Target), rfl, ready_of (by decide +kernel), reaches_of (by decide +kernel)
    nofun⟩

theorem witness_Atomics_ahadd : ∃ (i : Instr) (o : _) (op : _) (kd : _) (w : _) (s : State) (k : FKey) (x : _), atomRow i = some (o, op, kd,
  w) ∧ s.Ready i k ∧ s.Reaches k i .atomic o.ord o.sc (s.src64 k o.a) (atomBytes op) x :=
  ⟨(.ahadd { ord := .rlx, sc := .dev, d := .v 2, a := .v 16, use := .unp }), _, _, _, _, base, .fib 0 0,
    ({ pa := 0x10000, dev := none, pte := pte 0x7FF 1 0xCF } : Target), rfl, ready_of (by decide +kernel), reaches_of (by decide +kernel)
    nofun⟩

theorem witness_Atomics_com : ∃ (i : Instr) (o : _) (op : _) (kd : _) (w : _) (s : State) (k : FKey) (x : _), atomRow i = some (o, op, kd,
  w) ∧ s.Ready i k ∧ s.Reaches k i .atomic o.ord o.sc (s.src64 k o.a) (atomBytes op) x :=
  ⟨(.aadd { ord := .rlx, sc := .dev, d := .v 2, a := .v 16, use := .com }), _, _, _, _, base, .fib 0 0,
    ({ pa := 0x10000, dev := none, pte := pte 0x7FF 1 0xCF } : Target), rfl, ready_of (by decide +kernel), reaches_of (by decide +kernel)
    nofun⟩

theorem witness_FarLoadsAndStores_1 : ∃ (o : _) (s : State) (k : FKey) (x : _) (d : _), s.Ready (.ld o) k ∧ s.ReachesFar k (.ld o) (if o.ch
  = .nol1 then .homeLoad else .load) o.ord o.sc (s.src64 k o.a) o.w.bytes x d ∧ s.unacked d < 1024 :=
  ⟨({ w := .b32, ord := .rlx, sc := .fib, d := .v 30, a := .v 20, ch := .normal } : LdOp), farBase 0xCF, .fib 0 0,
    ({ pa := 0x30000, dev := some 5, pte := pte 5 3 0xCF } : Target), 5, ready_of (by decide +kernel), reachesFar_of (by decide +kernel),
    by decide +kernel⟩

theorem witness_FarLoadsAndStores_2 : ∃ (o : _) (s : State) (k : FKey) (x : _) (d : _), s.Ready (.ldc o) k ∧ s.ReachesFar k (.ldc o) .ldc
  o.ord o.sc (s.src64 k o.a) 16 x d ∧ s.unacked d < 1024 :=
  ⟨({ ord := .rlx, sc := .fib, d := .v 32, a := .v 20 } : MOp), farBase 0x1CF, .fib 0 0,
    ({ pa := 0x30000, dev := some 5, pte := pte 5 3 0x1CF } : Target), 5, ready_of (by decide +kernel), reachesFar_of (by decide +kernel),
    by decide +kernel⟩

theorem witness_FarLoadsAndStores_3 : ∃ (o : _) (s : State) (k : FKey) (x : _) (d : _), s.Ready (.st o) k ∧ s.ReachesFar k (.st o) .store
  o.ord o.sc (s.src64 k o.a) o.w.bytes x d ∧ s.unacked d < 1024 ∧ s.CartFree k x.pa :=
  ⟨({ w := .b32, ord := .rlx, sc := .fib, d := .v 0, a := .v 20, ch := .normal } : StOp), farBase 0xCF, .fib 0 0,
    ({ pa := 0x30000, dev := some 5, pte := pte 5 3 0xCF } : Target), 5, ready_of (by decide +kernel), reachesFar_of (by decide +kernel),
    by decide +kernel, ⟨by decide +kernel, by decide +kernel⟩⟩

theorem witness_FarLoadsAndStores_3_wide : ∃ (o : _) (s : State) (k : FKey) (x : _) (d : _), s.Ready (.st o) k ∧ s.ReachesFar k (.st o)
  .store o.ord o.sc (s.src64 k o.a) o.w.bytes x d ∧ s.unacked d < 1024 ∧ s.CartFree k x.pa :=
  ⟨({ w := .b128, ord := .rlx, sc := .fib, d := .v 0, a := .v 20, ch := .normal } : StOp), farBase 0xCF, .fib 0 0,
    ({ pa := 0x30000, dev := some 5, pte := pte 5 3 0xCF } : Target), 5, ready_of (by decide +kernel), reachesFar_of (by decide +kernel),
    by decide +kernel, ⟨by decide +kernel, by decide +kernel⟩⟩

theorem witness_FarLoadsAndStores_3_rel : ∃ (o : _) (s : State) (k : FKey) (x : _) (d : _), s.Ready (.st o) k ∧ s.ReachesFar k (.st o)
  .store o.ord o.sc (s.src64 k o.a) o.w.bytes x d ∧ s.unacked d < 1024 ∧ s.CartFree k x.pa :=
  ⟨({ w := .b32, ord := .rel, sc := .dev, d := .v 0, a := .v 20, ch := .normal } : StOp), farBase 0xCF, .fib 0 0,
    ({ pa := 0x30000, dev := some 5, pte := pte 5 3 0xCF } : Target), 5, ready_of (by decide +kernel), reachesFar_of (by decide +kernel),
    by decide +kernel, ⟨by decide +kernel, by decide +kernel⟩⟩

theorem witness_FarLoadsAndStores_4 : ∃ (md : Bool) (o : _) (s : State) (k : FKey) (x : _) (d : _), s.Ready (if md then .stcMd o else .stc
  o) k ∧ s.ReachesFar k (if md then .stcMd o else .stc o) .cellStore o.ord o.sc (s.src64 k o.a) 16 x d ∧ s.unacked d < 1024 ∧ s.CartFree k
  x.pa :=
  ⟨false, ({ ord := .rlx, sc := .fib, d := .v 4, a := .v 20 } : MOp), farBase 0x1CF, .fib 0 0,
    ({ pa := 0x30000, dev := some 5, pte := pte 5 3 0x1CF } : Target), 5, ready_of (by decide +kernel), reachesFar_of (by decide +kernel),
    by decide +kernel, ⟨by decide +kernel, by decide +kernel⟩⟩

theorem witness_FarLoadsAndStores_4_md : ∃ (md : Bool) (o : _) (s : State) (k : FKey) (x : _) (d : _), s.Ready (if md then .stcMd o else
  .stc o) k ∧ s.ReachesFar k (if md then .stcMd o else .stc o) .cellStore o.ord o.sc (s.src64 k o.a) 16 x d ∧ s.unacked d < 1024 ∧
  s.CartFree k x.pa :=
  ⟨true, ({ ord := .rlx, sc := .fib, d := .v 4, a := .v 20 } : MOp), farBase 0x1CF, .fib 0 0,
    ({ pa := 0x30000, dev := some 5, pte := pte 5 3 0x1CF } : Target), 5, ready_of (by decide +kernel), reachesFar_of (by decide +kernel),
    by decide +kernel, ⟨by decide +kernel, by decide +kernel⟩⟩

theorem witness_FarLoadsAndStores_4_rel : ∃ (md : Bool) (o : _) (s : State) (k : FKey) (x : _) (d : _), s.Ready (if md then .stcMd o else
  .stc o) k ∧ s.ReachesFar k (if md then .stcMd o else .stc o) .cellStore o.ord o.sc (s.src64 k o.a) 16 x d ∧ s.unacked d < 1024 ∧
  s.CartFree k x.pa :=
  ⟨false, ({ ord := .rel, sc := .dev, d := .v 4, a := .v 20 } : MOp), farBase 0x1CF, .fib 0 0,
    ({ pa := 0x30000, dev := some 5, pte := pte 5 3 0x1CF } : Target), 5, ready_of (by decide +kernel), reachesFar_of (by decide +kernel),
    by decide +kernel, ⟨by decide +kernel, by decide +kernel⟩⟩

theorem witness_FarAtomics_unp : ∃ (i : Instr) (o : _) (op : _) (kd : _) (w : _) (s : State) (k : FKey) (x : _) (d : _), atomRow i = some
  (o, op, kd, w) ∧ s.Ready i k ∧ s.ReachesFar k i .atomic o.ord o.sc (s.src64 k o.a) (atomBytes op) x d ∧ s.unacked d < 1024 ∧ s.CartFree k
  x.pa :=
  ⟨(.aadd { ord := .rlx, sc := .fab, d := .v 2, a := .v 20, use := .unp }), _, _, _, _, farBase 0xCF, .fib 0 0,
    ({ pa := 0x30000, dev := some 5, pte := pte 5 3 0xCF } : Target), 5, rfl, ready_of (by decide +kernel), reachesFar_of
    (by decide +kernel), by decide +kernel, ⟨by decide +kernel, by decide +kernel⟩⟩

theorem witness_FarAtomics_com : ∃ (i : Instr) (o : _) (op : _) (kd : _) (w : _) (s : State) (k : FKey) (x : _) (d : _), atomRow i = some
  (o, op, kd, w) ∧ s.Ready i k ∧ s.ReachesFar k i .atomic o.ord o.sc (s.src64 k o.a) (atomBytes op) x d ∧ s.unacked d < 1024 ∧ s.CartFree k
  x.pa :=
  ⟨(.aadd { ord := .rlx, sc := .fab, d := .v 2, a := .v 20, use := .com }), _, _, _, _, farBase 0xCF, .fib 0 0,
    ({ pa := 0x30000, dev := some 5, pte := pte 5 3 0xCF } : Target), 5, rfl, ready_of (by decide +kernel), reachesFar_of
    (by decide +kernel), by decide +kernel, ⟨by decide +kernel, by decide +kernel⟩⟩

theorem witness_FarAtomics_ret : ∃ (i : Instr) (o : _) (op : _) (kd : _) (w : _) (s : State) (k : FKey) (x : _) (d : _), atomRow i = some
  (o, op, kd, w) ∧ s.Ready i k ∧ s.ReachesFar k i .atomic o.ord o.sc (s.src64 k o.a) (atomBytes op) x d ∧ s.unacked d < 1024 ∧ s.CartFree k
  x.pa :=
  ⟨(.axch { ord := .rlx, sc := .fab, d := .v 2, a := .v 20, use := .plain }), _, _, _, _, farBase 0xCF, .fib 0 0,
    ({ pa := 0x30000, dev := some 5, pte := pte 5 3 0xCF } : Target), 5, rfl, ready_of (by decide +kernel), reachesFar_of
    (by decide +kernel), by decide +kernel, ⟨by decide +kernel, by decide +kernel⟩⟩

theorem witness_FarAtomics_acas64 : ∃ (i : Instr) (o : _) (op : _) (kd : _) (w : _) (s : State) (k : FKey) (x : _) (d : _), atomRow i = some
  (o, op, kd, w) ∧ s.Ready i k ∧ s.ReachesFar k i .atomic o.ord o.sc (s.src64 k o.a) (atomBytes op) x d ∧ s.unacked d < 1024 ∧ s.CartFree k
  x.pa :=
  ⟨(.acas64 { ord := .rlx, sc := .fab, d := .v 4, a := .v 20, use := .unp }), _, _, _, _, farBase 0xCF, .fib 0 0,
    ({ pa := 0x30000, dev := some 5, pte := pte 5 3 0xCF } : Target), 5, rfl, ready_of (by decide +kernel), reachesFar_of
    (by decide +kernel), by decide +kernel, ⟨by decide +kernel, by decide +kernel⟩⟩

theorem witness_AtomicValues : ∃ (op : _) (old : W64) (d : W64) (e : W64), 0x20 ≤ op ∧ op ≤ 0x2F :=
  ⟨0x2D, (5 : W64), (3 : W64), (5 : W64), by decide +kernel⟩

theorem witness_HomePerform : ∃ (s : State) (r : _) (n : _), s.reqs.find? (·.id = s.args.item) = some r ∧ r.stage = .queued ∧ r.what.writes
  = true ∧ s.mem.wf = true ∧ s.isFirst r = true ∧ s.open r = true ∧ s.orphaned r.pa = false ∧ n = r.what.bytes :=
  ⟨withArgs
    { base with reqs := [({ id := 3, org := .fibre (.fib 0 0), core := 0, part := 0, va := 0x10004, pa := 0x10004, what := .store 2 0x1234, stage := .queued, slice := 0 } : Req)], nextReq := 4 }
    { item := 3 },
    ({ id := 3, org := .fibre (.fib 0 0), core := 0, part := 0, va := 0x10004, pa := 0x10004, what := .store 2 0x1234, stage := .queued, slice := 0 }
    : Req), 2, by decide +kernel⟩

theorem witness_HomePerform_atom : ∃ (s : State) (r : _) (n : _), s.reqs.find? (·.id = s.args.item) = some r ∧ r.stage = .queued ∧
  r.what.writes = true ∧ s.mem.wf = true ∧ s.isFirst r = true ∧ s.open r = true ∧ s.orphaned r.pa = false ∧ n = r.what.bytes :=
  ⟨withArgs
    { base with mem := [(0x10004, 0xFF)], reqs := [({ id := 3, org := .fibre (.fib 0 0), core := 0, part := 0, va := 0x10004, pa := 0x10004, what := .atom 0x20 .plain 5 0, stage := .queued, slice := 0, dst := .regs [30] } : Req)], nextReq := 4 }
    { item := 3 },
    ({ id := 3, org := .fibre (.fib 0 0), core := 0, part := 0, va := 0x10004, pa := 0x10004, what := .atom 0x20 .plain 5 0, stage := .queued, slice := 0, dst := .regs [30] }
    : Req), 4, by decide +kernel⟩

theorem witness_Scratchpad_1 : ∃ (o : _) (s : State) (k : FKey) (key : _), s.Ready (.lds o) k ∧ s.ScratchAt k o.a o.w.bytes key ∧
  s.scratchWaits k o.ord = false :=
  ⟨({ w := .b32, ord := .rlx, sc := .fib, d := .v 30, a := .v 11 } : LdsOp), { base with scratch := [(0x40, 0x11)] }, .fib 0 0, 0x40,
    ready_of (by decide +kernel), scratch_of 0 64 (by decide +kernel), by decide +kernel⟩

theorem witness_Scratchpad_2 : ∃ (o : _) (s : State) (k : FKey) (key : _), s.Ready (.sts o) k ∧ s.ScratchAt k o.a o.w.bytes key ∧
  s.scratchWaits k o.ord = false ∧ s.scratch.wf = true :=
  ⟨({ w := .b16, ord := .rlx, sc := .fib, d := .v 2, a := .v 11 } : StsOp), { base with scratch := [(0x40, 0x11)] }, .fib 0 0, 0x40,
    ready_of (by decide +kernel), scratch_of 0 64 (by decide +kernel), by decide +kernel⟩

theorem witness_Arrivals_arrive : ∃ (bk : Bool) (o : _) (s : State) (k : FKey) (key : _), s.Ready (if bk then .arriveBk o else .arrive o) k
  ∧ s.ScratchAt k o.a 16 key ∧ s.acqPending k = false ∧ (o.ord = .rel → s.outstanding k = []) ∧ s.scratch.wf = true :=
  ⟨false, ({ ord := .rlx, sc := .blk, d := .v 0, a := .v 11 } : MOp), { base with scratch := [(0x40, 5), (0x4C, 9)] }, .fib 0 0, 0x40,
    ready_of (by decide +kernel), scratch_of 0 64 (by decide +kernel), by decide +kernel⟩

theorem witness_Arrivals_more : ∃ (bk : Bool) (o : _) (s : State) (k : FKey) (key : _), s.Ready (if bk then .arriveBk o else .arrive o) k ∧
  s.ScratchAt k o.a 16 key ∧ s.acqPending k = false ∧ (o.ord = .rel → s.outstanding k = []) ∧ s.scratch.wf = true :=
  ⟨false, ({ ord := .rel, sc := .blk, d := .v 6, a := .v 11 } : MOp), { base with scratch := [(0x40, 5), (0x4C, 9)] }, .fib 0 0, 0x40,
    ready_of (by decide +kernel), scratch_of 0 64 (by decide +kernel), by decide +kernel⟩

theorem witness_Arrivals_zero : ∃ (bk : Bool) (o : _) (s : State) (k : FKey) (key : _), s.Ready (if bk then .arriveBk o else .arrive o) k ∧
  s.ScratchAt k o.a 16 key ∧ s.acqPending k = false ∧ (o.ord = .rel → s.outstanding k = []) ∧ s.scratch.wf = true :=
  ⟨false, ({ ord := .rlx, sc := .blk, d := .z, a := .v 11 } : MOp), { base with scratch := [(0x40, 5), (0x4C, 9)] }, .fib 0 0, 0x40,
    ready_of (by decide +kernel), scratch_of 0 64 (by decide +kernel), by decide +kernel⟩

theorem witness_Arrivals_bk : ∃ (bk : Bool) (o : _) (s : State) (k : FKey) (key : _), s.Ready (if bk then .arriveBk o else .arrive o) k ∧
  s.ScratchAt k o.a 16 key ∧ s.acqPending k = false ∧ (o.ord = .rel → s.outstanding k = []) ∧ s.scratch.wf = true :=
  ⟨true, ({ ord := .rlx, sc := .blk, d := .v 0, a := .v 11 } : MOp), { base with scratch := [(0x40, 5), (0x4C, 9)] }, .fib 0 0, 0x40,
    ready_of (by decide +kernel), scratch_of 0 64 (by decide +kernel), by decide +kernel⟩

theorem witness_Fences_1 : ∃ (o : _) (s : State) (k : FKey), s.Ready (.fence o) k ∧ s.acqPending k = false ∧ s.fencePending k o.ord = false
  ∧ (∀ m ∈ s.fencePeers k o.ord o.sc, s.outstanding m = []) ∧ (fabRelease o.ord o.sc = true → s.fabPending k = false ∧ s.reportable k
  (.fence o) = none) :=
  ⟨({ ord := .acq, sc := .dev } : SyncOp), { base with l1 := [(0, [{ la := 0x200, data := [], exp := 9000 }])] }, .fib 0 0, ready_of
    (by decide +kernel), by decide +kernel⟩

theorem witness_Fences_1_rel : ∃ (o : _) (s : State) (k : FKey), s.Ready (.fence o) k ∧ s.acqPending k = false ∧ s.fencePending k o.ord =
  false ∧ (∀ m ∈ s.fencePeers k o.ord o.sc, s.outstanding m = []) ∧ (fabRelease o.ord o.sc = true → s.fabPending k = false ∧ s.reportable k
  (.fence o) = none) :=
  ⟨({ ord := .rel, sc := .fab } : SyncOp), { base with l1 := [(0, [{ la := 0x200, data := [], exp := 9000 }])] }, .fib 0 0, ready_of
    (by decide +kernel), by decide +kernel⟩

theorem witness_Fences_1_blk : ∃ (o : _) (s : State) (k : FKey), s.Ready (.fence o) k ∧ s.acqPending k = false ∧ s.fencePending k o.ord =
  false ∧ (∀ m ∈ s.fencePeers k o.ord o.sc, s.outstanding m = []) ∧ (fabRelease o.ord o.sc = true → s.fabPending k = false ∧ s.reportable k
  (.fence o) = none) :=
  ⟨({ ord := .ar, sc := .blk } : SyncOp), pair, .fib 0 0, ready_of (by decide +kernel), by decide +kernel⟩

theorem witness_Fences_2 : ∃ (s : State) (k : FKey), s.Ready .cflush k ∧ s.fabPending k = false ∧ s.reportable k .cflush = none :=
  ⟨base, .fib 0 0, ready_of (by decide +kernel), by decide +kernel⟩

theorem witness_Fences_3 : ∃ (s : State) (k : FKey), s.Ready .rfence k :=
  ⟨base, .fib 0 0, ready_of (by decide +kernel)⟩

theorem witness_Fences_4 : ∃ (s : State) (k : FKey), s.Ready .invl1 k :=
  ⟨{ base with l1 := [(0, [{ la := 0x200, data := [], exp := 9000 }])] }, .fib 0 0, ready_of (by decide +kernel)⟩

theorem witness_Fences_5 : ∃ (i : Instr) (o : _) (s : State) (k : FKey), (i = .pfL1 o ∨ i = .pfL2 o) ∧ s.Ready i k ∧ pfCheck o.a s k = .go
  :=
  ⟨(.pfL1 ({ ord := .rlx, sc := .fib, a := .v 16, ch := .normal } : PfOp)), ({ ord := .rlx, sc := .fib, a := .v 16, ch := .normal } : PfOp),
    base, .fib 0 0, .inl rfl, ready_of (by decide +kernel), by decide +kernel⟩

theorem witness_Fences_5_l2 : ∃ (i : Instr) (o : _) (s : State) (k : FKey), (i = .pfL1 o ∨ i = .pfL2 o) ∧ s.Ready i k ∧ pfCheck o.a s k =
  .go :=
  ⟨(.pfL2 ({ ord := .rlx, sc := .fib, a := .v 16, ch := .normal } : PfOp)), ({ ord := .rlx, sc := .fib, a := .v 16, ch := .normal } : PfOp),
    base, .fib 0 0, .inr rfl, ready_of (by decide +kernel), by decide +kernel⟩

theorem witness_Barriers_1 : ∃ (o : _) (s : State) (b : _) (n : _), s.Ready (.bar o) (.fib b n) ∧ n ∈ s.liveSlots b ∧ s.acqPending (.fib b
  n) = false ∧ s.outstanding (.fib b n) = [] ∧ (∀ m ∈ s.liveSlots b, m ≠ n → (s.fib (.fib b m)).atBar.isSome = true) ∧ (∀ u, (s.block
  b).twin = some u → o.sc = .clu → u ≠ b ∧ s.allAtBar u = true) :=
  ⟨({ ord := .ar, sc := .blk } : SyncOp), { pair with fibres := [(.fib 0 0, fibre 0), (.fib 0 1, { fibre 1 with wait := .bar false })] }, 0,
    0, ready_of (by decide +kernel), four (by decide +kernel) (fun u h => by simp [pair, base, blk, State.block, Map.atD, Map.at?] at h)⟩

theorem witness_Barriers_2 : ∃ (o : _) (s : State) (b : _) (n : _), s.Ready (.bar o) (.fib b n) ∧ n ∈ s.liveSlots b ∧ s.acqPending (.fib b
  n) = false ∧ s.outstanding (.fib b n) = [] ∧ ((∃ m ∈ s.liveSlots b, m ≠ n ∧ (s.fib (.fib b m)).atBar = none) ∨ ∃ u, (s.block b).twin =
  some u ∧ o.sc = .clu ∧ u ≠ b ∧ s.allAtBar u = false) :=
  ⟨({ ord := .ar, sc := .clu } : SyncOp), pair, 0, 0, ready_of (by decide +kernel), by decide +kernel, by decide +kernel, by decide +kernel,
    .inl (by decide +kernel)⟩

theorem witness_TryWaits_1 : ∃ (o : _) (s : State) (k : FKey) (key : _), s.Ready (.twph o) k ∧ s.ScratchAt k o.a 16 key ∧ s.acqPending k =
  false :=
  ⟨({ wa := false, wb := false, p := 3, a := .v 11, b := .v 1 } : PR), base, .fib 0 0, 0x40, ready_of (by decide +kernel),
    scratch_of 0 64 (by decide +kernel), by decide +kernel⟩

theorem witness_TryWaits_1_waits : ∃ (o : _) (s : State) (k : FKey) (key : _), s.Ready (.twph o) k ∧ s.ScratchAt k o.a 16 key ∧ s.acqPending
  k = false :=
  ⟨({ wa := false, wb := false, p := 3, a := .v 11, b := .v 13 } : PR), base, .fib 0 0, 0x40, ready_of (by decide +kernel),
    scratch_of 0 64 (by decide +kernel), by decide +kernel⟩

theorem witness_TryWaits_2 : ∃ (wb : _) (p : _) (c : _) (b : _) (s : State) (k : FKey), s.Ready (.twtl wb p c b) k ∧ s.acqPending k = false
  ∧ s.ctxFault (s.coreOf k) c.toNat (s.gangOf k) = none :=
  ⟨false, (3 : Pred), (2 : BitVec 3), (Reg.v 12), { base with cores := [(0, { ctx := [(2, { value := 1, issued := 1 })] })] }, .fib 0 0,
    ready_of (by decide +kernel), by decide +kernel⟩

theorem witness_TryWaits_2_waits : ∃ (wb : _) (p : _) (c : _) (b : _) (s : State) (k : FKey), s.Ready (.twtl wb p c b) k ∧ s.acqPending k =
  false ∧ s.ctxFault (s.coreOf k) c.toNat (s.gangOf k) = none :=
  ⟨false, (3 : Pred), (2 : BitVec 3), (Reg.v 0), base, .fib 0 0, ready_of (by decide +kernel), by decide +kernel⟩

theorem witness_TryWaits_3 : ∃ (o : _) (s : State) (k : FKey) (key : _), s.Ready (.twge o) k ∧ s.ScratchAt k o.a 4 key ∧ s.acqPending k =
  false :=
  ⟨({ wa := false, wb := false, p := 3, a := .v 11, b := .v 13 } : PR), base, .fib 0 0, 0x40, ready_of (by decide +kernel),
    scratch_of 0 64 (by decide +kernel), by decide +kernel⟩

theorem witness_TryWaits_3_waits : ∃ (o : _) (s : State) (k : FKey) (key : _), s.Ready (.twge o) k ∧ s.ScratchAt k o.a 4 key ∧ s.acqPending
  k = false :=
  ⟨({ wa := false, wb := false, p := 3, a := .v 11, b := .v 12 } : PR), base, .fib 0 0, 0x40, ready_of (by decide +kernel),
    scratch_of 0 64 (by decide +kernel), by decide +kernel⟩

theorem witness_TryWaits_4 : ∃ (s : State) (p : _) (h : _), (s.fib s.args.fibre).wait.twPred = some p ∧ (s.fib s.args.fibre).wait.twLimit =
  some h ∧ h ≤ s.cycles (s.coreOf s.args.fibre) :=
  ⟨withArgs
    { (base.updFib (.fib 0 0) fun f => { f with wait := .twtl 3 2 5 100 50 0x3B000000 }) with dies := [(0, { cyc := 150 })], pipes := [] }
    { fibre := .fib 0 0 }, (3 : Pred), 150, by decide +kernel⟩

theorem witness_QueueControl_1 : ∃ (o : _) (s : State) (b : _) (n : _), s.Ready (.apgo o) (.fib b n) ∧ (s.src64 (.fib b n) o.a).toNat % 4 =
  0 ∧ (s.core (s.coreOf (.fib b n))).apOwner = none :=
  ⟨({ wa := false, wb := false, d := .v 2, a := .v 22, b := .v 1 } : R3), base 1, 0, 0, ready_of (by decide +kernel), by decide +kernel⟩

theorem witness_QueueControl_2 : ∃ (s : State) (k : FKey), s.Ready .apstop k :=
  ⟨{ base 1 with cores := [(0, { apOwner := some (0, 0, 0, 1) })] }, .fib 0 0, ready_of (by decide +kernel)⟩

theorem witness_QueueControl_4 : ∃ (q : _) (s : State) (k : FKey), s.Ready (.qdrain q) k ∧ (6 ≤ q.toNat → (s.queue (s.coreOf k)
  q.toNat).entries = []) :=
  ⟨(2 : BitVec 3),
    { base 1 with cores := [(0, { queues := [(2, { bound := some (0, 0), entries := [{ serial := 0, words := List.replicate 32 (some 7), ready := true }], next := 1 })] })] },
    .fib 0 0, ready_of (by decide +kernel), by decide +kernel⟩

theorem witness_QueueControl_3 : ∃ (s : State) (c : _) (r : _) (b : _) (g : _) (l : _) (n : _), s.agenda = .run (.ap c) :: r ∧ s.released =
  true ∧ s.runner (.ap c) = some (.ap c) ∧ (s.core c).apOwner = some (b, g, l, n) ∧ (s.core c).apStop = true :=
  ⟨{ apBase with agenda := [.run (.ap 0)], agent := none, cores := [(0, { apOwner := some (0, 0, 0, 1), apStop := true, ctx := [(7, { issued := 1 })] })] },
    0, ([] : List Turn), 0, 0, 0, 1, by decide +kernel⟩

theorem witness_QueueControl_5 : ∃ (wa : _) (a : _) (q : _) (s : State) (b : _) (n : _), s.Ready (.qbind wa a q) (.fib b n) ∧ (s.src32 (.fib
  b n) a).toNat < ((s.block b).maxf + 31) / 32 ∧ (6 ≤ q.toNat → (s.queue (s.coreOf (.fib b n)) q.toNat).entries = []) :=
  ⟨false, (Reg.v 13), (6 : BitVec 3), base 1, 0, 0, ready_of (by decide +kernel), by decide +kernel⟩

theorem witness_AccessProcessor_1 : ∃ (o : _) (s : State) (c : _) (q : _), s.Ready (.qreq o) (.ap c) ∧ queueNo o.d = q ∧ (s.queue c
  q).entries.length < 64 ∧ (∀ l < 32, ∃ x, s.checkGlobal (.ap c) .load (s.laneAddr (.ap c) o l) = .ok x ∧ x.dev = none ∧ (s.laneAddr (.ap c)
  o l).toNat % 4 = 0 ∧ s.targetWait s (.ap c) (.qreq o) (s.laneAddr (.ap c) o l) false x = .go) :=
  ⟨({ wa := false, wb := false, d := .q 2, a := .v 16, b := .v 10 } : R3), apBase, 0, 2, ready_of (by decide +kernel), by decide +kernel,
    by decide +kernel,
    fun l h => lanes_of (i := .qreq { d := .q 2, a := .v 16, b := .v 10, wa := false, wb := false }) (l := List.range 32) (by decide +kernel) l (List.mem_range.2 h)⟩

theorem witness_AccessProcessor_2 : ∃ (s : State), s.args.sub < 6 ∧ (∃ e ∈ (s.queue s.args.unit s.args.sub).entries, e.serial = s.args.item
  ∧ e.ready = false ∧ ∀ w ∈ e.words, w.isSome = true) :=
  ⟨withArgs
    { base with cores := [(0, { queues := [(2, { entries := [{ serial := 4, words := List.replicate 32 (some 7), ready := false }], next := 5 })] })] }
    { unit := 0, sub := 2, item := 4 }, by decide +kernel,
    ⟨_, List.mem_singleton.2 rfl, rfl, rfl, fun w h => List.all_eq_true.1 (rfl : (List.replicate 32 (some (7 : W32))).all Option.isSome = true) w h⟩⟩

theorem witness_AccessProcessor_3 : ∃ (o : _) (s : State) (c : _) (q : _) (e : _) (r : _), s.Ready (.qwr o) (.ap c) ∧ queueNo o.d = q ∧
  (s.queue c q).entries = e :: r ∧ s.entryComplete (s.queue c q) e = true ∧ s.lanesCheck (.ap c) (.qwr o) o .store (e.present.map (·.1)) =
  .go ∧ (∀ x ∈ e.present, ∃ y, s.checkGlobal (.ap c) .store (s.laneAddr (.ap c) o x.1) = .ok y ∧ y.dev = none) ∧ s.writePendingCount
  (clusterOf (s.coreOf (.ap c))) + e.present.length ≤ 256 :=
  ⟨({ wa := false, wb := false, d := .q 6, a := .v 16, b := .v 10 } : R3),
    { apBase with cores := [(0, { apOwner := some (0, 0, 0, 1), queues := [(6, { bound := some (0, 0), entries := [({ serial := 0, words := (List.replicate 32 none).set 0 (some 7), ready := true } : QEntry)], next := 1 })] })] },
    0, 6, ({ serial := 0, words := (List.replicate 32 none).set 0 (some 7), ready := true } : QEntry), ([] : List QEntry), ready_of
    (by decide +kernel), four (by decide +kernel)
    ⟨fun x h => (lanes_of (i := .qwr { d := .q 6, a := .v 16, b := .v 10, wa := false, wb := false }) (l := [0]) (by decide +kernel) x.1 (by rw [List.mem_singleton.1 h]; decide)).imp fun _ y => ⟨y.1, y.2.1⟩,
    by decide +kernel⟩⟩

theorem witness_AccessProcessor_4 : ∃ (s : State) (c : _) (b : _) (g : _) (l : _) (n : _), s.Ready .apend (.ap c) ∧ (s.core c).apOwner =
  some (b, g, l, n) ∧ ((s.ownReqs (.ap c)).any fun r => r.what.writes) = false :=
  ⟨apBase, 0, 0, 0, 0, 1, ready_of (by decide +kernel), by decide +kernel⟩

theorem witness_TrolleyWords_tcpy : ∃ (i : Instr) (o : _) (kd : _) (cmd : _) (s : State) (k : FKey) (r : _), trolleyRow i = some (o, kd,
  cmd) ∧ s.Ready i k ∧ trolleyCheck i cmd o (s.reading i) k = .go ∧ (s.reading i).recordRead k i (s.src64 k o.a) = .ok r :=
  ⟨(.tcpy ({ d := .v 30, a := .v 16, b := .v 4 } : G3)), _, _, _, shapeBase 0x10 0 0 0x11, .fib 0 0, (shape 0x10 0 0), rfl, ready_of
    (by decide +kernel), by decide +kernel⟩

theorem witness_TrolleyWords_tgath : ∃ (i : Instr) (o : _) (kd : _) (cmd : _) (s : State) (k : FKey) (r : _), trolleyRow i = some (o, kd,
  cmd) ∧ s.Ready i k ∧ trolleyCheck i cmd o (s.reading i) k = .go ∧ (s.reading i).recordRead k i (s.src64 k o.a) = .ok r :=
  ⟨(.tgath ({ d := .v 30, a := .v 16, b := .v 4 } : G3)), _, _, _, shapeBase 0x10 0x10 0x11800 0x11, .fib 0 0, (shape 0x10 0x10 0x11800),
    rfl, ready_of (by decide +kernel), by decide +kernel⟩

theorem witness_TrolleyWords_tscat : ∃ (i : Instr) (o : _) (kd : _) (cmd : _) (s : State) (k : FKey) (r : _), trolleyRow i = some (o, kd,
  cmd) ∧ s.Ready i k ∧ trolleyCheck i cmd o (s.reading i) k = .go ∧ (s.reading i).recordRead k i (s.src64 k o.a) = .ok r :=
  ⟨(.tscat ({ d := .v 30, a := .v 16, b := .v 4 } : G3)), _, _, _, shapeBase 0x10 0x10 0x11800 0x01, .fib 0 0, (shape 0x10 0x10 0x11800),
    rfl, ready_of (by decide +kernel), by decide +kernel⟩

theorem witness_TrolleyWords_tfill : ∃ (i : Instr) (o : _) (kd : _) (cmd : _) (s : State) (k : FKey) (r : _), trolleyRow i = some (o, kd,
  cmd) ∧ s.Ready i k ∧ trolleyCheck i cmd o (s.reading i) k = .go ∧ (s.reading i).recordRead k i (s.src64 k o.a) = .ok r :=
  ⟨(.tfill ({ d := .v 30, a := .v 16, b := .v 4 } : G3)), _, _, _, shapeBase 0x10 0 0 0x11, .fib 0 0, (shape 0x10 0 0), rfl, ready_of
    (by decide +kernel), by decide +kernel⟩

theorem witness_TrolleyWords_tred : ∃ (i : Instr) (o : _) (kd : _) (cmd : _) (s : State) (k : FKey) (r : _), trolleyRow i = some (o, kd,
  cmd) ∧ s.Ready i k ∧ trolleyCheck i cmd o (s.reading i) k = .go ∧ (s.reading i).recordRead k i (s.src64 k o.a) = .ok r :=
  ⟨(.tred ({ d := .v 30, a := .v 16, b := .v 4 } : G3)), _, _, _, shapeBase 0x10 0 0 0x01, .fib 0 0, (shape 0x10 0 0), rfl, ready_of
    (by decide +kernel), by decide +kernel⟩

theorem witness_TrolleySteps_1_out : ∃ (s : State) (op : _) (row : _) (n : _) (u : _), (s.core s.args.unit).trolley.find? (·.id =
  s.args.item) = some op ∧ op.core = s.args.unit ∧ s.args.nats[0]?.getD 0 = row ∧ s.args.nats[1]?.getD 0 = n ∧ s.trolleyReady op = true ∧
  chunkId row n ∈ op.chunks ∧ chunkId row n ∉ op.done ∧ s.chunk op row n = .ok u :=
  ⟨withArgs
    { base 1 with agent := none, mem := cells 0x11000 [1, 2, 3, 4, 5], cores := [(0, { trolley := [trolleyOp 0 0x11], ctx := [(1, { issued := 1 })] })] }
    { unit := 0, item := 4, nats := [1, 0] }, (trolleyOp 0 0x11), 1, 0, (got (withArgs
    { base 1 with agent := none, mem := cells 0x11000 [1, 2, 3, 4, 5], cores := [(0, { trolley := [trolleyOp 0 0x11], ctx := [(1, { issued := 1 })] })] }
    { unit := 0, item := 4, nats := [1, 0] }) (State.chunk (withArgs
    { base 1 with agent := none, mem := cells 0x11000 [1, 2, 3, 4, 5], cores := [(0, { trolley := [trolleyOp 0 0x11], ctx := [(1, { issued := 1 })] })] }
    { unit := 0, item := 4, nats := [1, 0] }) (trolleyOp 0 0x11) 1 0)), four (by decide +kernel) ⟨by decide +kernel, by decide +kernel,
    by decide +kernel, ok_got _ (by decide +kernel)⟩⟩

theorem witness_TrolleySteps_1_in : ∃ (s : State) (op : _) (row : _) (n : _) (u : _), (s.core s.args.unit).trolley.find? (·.id =
  s.args.item) = some op ∧ op.core = s.args.unit ∧ s.args.nats[0]?.getD 0 = row ∧ s.args.nats[1]?.getD 0 = n ∧ s.trolleyReady op = true ∧
  chunkId row n ∈ op.chunks ∧ chunkId row n ∉ op.done ∧ s.chunk op row n = .ok u :=
  ⟨withArgs
    { base 1 with agent := none, mem := cells 0x11000 [1, 2, 3, 4, 5], cores := [(0, { trolley := [trolleyOp 0 9], ctx := [(1, { issued := 1 })] })] }
    { unit := 0, item := 4, nats := [1, 0] }, (trolleyOp 0 9), 1, 0, (got (withArgs
    { base 1 with agent := none, mem := cells 0x11000 [1, 2, 3, 4, 5], cores := [(0, { trolley := [trolleyOp 0 9], ctx := [(1, { issued := 1 })] })] }
    { unit := 0, item := 4, nats := [1, 0] }) (State.chunk (withArgs
    { base 1 with agent := none, mem := cells 0x11000 [1, 2, 3, 4, 5], cores := [(0, { trolley := [trolleyOp 0 9], ctx := [(1, { issued := 1 })] })] }
    { unit := 0, item := 4, nats := [1, 0] }) (trolleyOp 0 9) 1 0)), four (by decide +kernel) ⟨by decide +kernel, by decide +kernel,
    by decide +kernel, ok_got _ (by decide +kernel)⟩⟩

theorem witness_TrolleySteps_2_done : ∃ (s : State) (op : _), (s.core s.args.unit).trolley.find? (·.id = s.args.item) = some op ∧ op.core =
  s.args.unit ∧ (op.aborted = true ∨ ∀ c ∈ op.chunks, c ∈ op.done) :=
  ⟨withArgs
    { base 1 with cores := [(0, { trolley := [{ trolleyOp 0 0x11 with done := [chunkId 0 0, chunkId 1 0] }], ctx := [(1, { issued := 1 })] })] }
    { unit := 0, item := 4 }, ({ trolleyOp 0 0x11 with done := [chunkId 0 0, chunkId 1 0] } : TrolleyOp), by decide +kernel,
    by decide +kernel, .inr (by decide +kernel)⟩

theorem witness_TrolleySteps_2_aborted : ∃ (s : State) (op : _), (s.core s.args.unit).trolley.find? (·.id = s.args.item) = some op ∧ op.core
  = s.args.unit ∧ (op.aborted = true ∨ ∀ c ∈ op.chunks, c ∈ op.done) :=
  ⟨withArgs { base 1 with cores := [(0, { trolley := [{ trolleyOp 0 0x11 with aborted := true }], ctx := [(1, { issued := 1 })] })] }
    { unit := 0, item := 4 }, ({ trolleyOp 0 0x11 with aborted := true } : TrolleyOp), by decide +kernel, by decide +kernel, .inl rfl⟩

theorem witness_EngineWords_mmaR : ∃ (i : Instr) (d : _) (f : _) (chk : _) (s : State) (k : FKey), engineRow i = some (d, f, chk) ∧ s.Ready
  i k ∧ chk s k = .go :=
  ⟨(.mmaR { fmt := .bfbf, bsel := 0, d := .s 5, a := .v 0, b := .v 36 }), _, _, _, mxBase false, .fib 0 0, rfl, ready_of
    (by decide +kernel), by decide +kernel⟩

theorem witness_EngineWords_mmapR : ∃ (i : Instr) (d : _) (f : _) (chk : _) (s : State) (k : FKey), engineRow i = some (d, f, chk) ∧ s.Ready
  i k ∧ chk s k = .go :=
  ⟨(.mmapR { fmt := .bfbf, bsel := 0, d := .s 5, a := .v 0, b := .v 36 }), _, _, _, mxBase true, .fib 0 0, rfl, ready_of
    (by decide +kernel), by decide +kernel⟩

theorem witness_EngineWords_mmaS : ∃ (i : Instr) (d : _) (f : _) (chk : _) (s : State) (k : FKey), engineRow i = some (d, f, chk) ∧ s.Ready
  i k ∧ chk s k = .go :=
  ⟨(.mmaS { fmt := .bfbf, d := .s 5, a := .s 6, b := .v 36 }), _, _, _, mxBase false, .fib 0 0, rfl, ready_of (by decide +kernel),
    by decide +kernel⟩

theorem witness_EngineWords_mmapS : ∃ (i : Instr) (d : _) (f : _) (chk : _) (s : State) (k : FKey), engineRow i = some (d, f, chk) ∧ s.Ready
  i k ∧ chk s k = .go :=
  ⟨(.mmapS { fmt := .bfbf, d := .s 5, a := .s 6, b := .v 36 }), _, _, _, mxBase true, .fib 0 0, rfl, ready_of (by decide +kernel),
    by decide +kernel⟩

theorem witness_EngineWords_mxzero : ∃ (i : Instr) (d : _) (f : _) (chk : _) (s : State) (k : FKey), engineRow i = some (d, f, chk) ∧
  s.Ready i k ∧ chk s k = .go :=
  ⟨(.mxzero (.s 5) false), _, _, _, mxBase false, .fib 0 0, rfl, ready_of (by decide +kernel), by decide +kernel⟩

theorem witness_EngineOwnership_1 : ∃ (s : State) (k : FKey), s.Ready .mxacq k ∧ (s.core (s.coreOf k)).owner = none ∧ (s.core (s.coreOf
  k)).mxq = [] :=
  ⟨base 2, .fib 0 0, ready_of (by decide +kernel), by decide +kernel⟩

theorem witness_EngineOwnership_2 : ∃ (s : State) (k : FKey) (g : _), s.Ready .mxacq k ∧ (s.core (s.coreOf k)).owner = some g ∧ g ≠ s.gangOf
  k ∧ (∀ x ∈ (s.core (s.coreOf k)).mxq, x.1 ≠ s.gangOf k) :=
  ⟨{ base 2 with cores := [(0, { owner := some (7, 0) })] }, .fib 0 0, ((7, 0) : Nat × Nat), ready_of (by decide +kernel),
    by decide +kernel⟩

theorem witness_EngineOwnership_3 : ∃ (s : State) (k : FKey), s.Ready .mxacqP k ∧ s.leaderBlock k = true ∧ (∀ c ∈ [s.coreOf k, partnerOf
  (s.coreOf k)], (s.core c).owner = none ∧ (s.core c).mxq = []) :=
  ⟨{ mxBase true with cores := [] }, .fib 0 0, ready_of (by decide +kernel), by decide +kernel⟩

theorem witness_EngineOwnership_4_rel : ∃ (i : Instr) (s : State) (b : _) (n : _), (i = .mxrel ∨ i = .mxrelP) ∧ s.Ready i (.fib b n) :=
  ⟨Instr.mxrel, mxBase false, 0, 0, .inl rfl, ready_of (by decide +kernel)⟩

theorem witness_EngineOwnership_4_relP : ∃ (i : Instr) (s : State) (b : _) (n : _), (i = .mxrel ∨ i = .mxrelP) ∧ s.Ready i (.fib b n) :=
  ⟨Instr.mxrelP, mxBase true, 0, 0, .inr rfl, ready_of (by decide +kernel)⟩

theorem witness_Absorption_zero : ∃ (s : State) (o : _) (r : _) (i : Nat) (x : Nat) (g : Nat), (s.core s.args.unit).mxOps = o :: r ∧
  s.depsDone o.deps = true ∧ (∀ d ∈ (s.core s.args.unit).drains, d.target ≠ 0) ∧ s.mxBehind s.args.unit o = false ∧ o.segs[o.next]? = some
  (i, x, g) ∧ (∀ w n rows, o.kind ≠ .drain w n rows) :=
  ⟨withArgs
    { mxBase false with agent := none, cores := [(0, { owner := some (0, 0), mxOps := [({ id := 4, fibre := .fib 0 0, desc := 0x100107C00000, kind := .zero false } : MxOp)] })] }
    { unit := 0 }, ({ id := 4, fibre := .fib 0 0, desc := 0x100107C00000, kind := .zero false } : MxOp), ([] : List MxOp), (0 : Nat), (0 :
    Nat), (0 : Nat), four (by decide +kernel) ⟨by decide +kernel, nofun⟩⟩

theorem witness_Absorption_mmaR : ∃ (s : State) (o : _) (r : _) (i : Nat) (x : Nat) (g : Nat), (s.core s.args.unit).mxOps = o :: r ∧
  s.depsDone o.deps = true ∧ (∀ d ∈ (s.core s.args.unit).drains, d.target ≠ 0) ∧ s.mxBehind s.args.unit o = false ∧ o.segs[o.next]? = some
  (i, x, g) ∧ (∀ w n rows, o.kind ≠ .drain w n rows) :=
  ⟨withArgs
    { mxBase false with carriages := [(0, { car with weights := [(1, 0x40), (256, 0x40), (257, 0x41)] })], agent := none, cores := [(0, { owner := some (0, 0), mxOps := [({ id := 4, fibre := .fib 0 0, desc := 0x100107C00000, kind := .mmaR .bfbf 0 ((List.range 32).map fun n => (n, [0x3F803F80], 0)) 0 false } : MxOp)] })] }
    { unit := 0 },
    ({ id := 4, fibre := .fib 0 0, desc := 0x100107C00000, kind := .mmaR .bfbf 0 ((List.range 32).map fun n => (n, [0x3F803F80], 0)) 0 false }
    : MxOp), ([] : List MxOp), (0 : Nat), (0 : Nat), (0 : Nat), four (by decide +kernel) ⟨by decide +kernel, nofun⟩⟩

theorem witness_Absorption_mmaS : ∃ (s : State) (o : _) (r : _) (i : Nat) (x : Nat) (g : Nat), (s.core s.args.unit).mxOps = o :: r ∧
  s.depsDone o.deps = true ∧ (∀ d ∈ (s.core s.args.unit).drains, d.target ≠ 0) ∧ s.mxBehind s.args.unit o = false ∧ o.segs[o.next]? = some
  (i, x, g) ∧ (∀ w n rows, o.kind ≠ .drain w n rows) :=
  ⟨withArgs
    { mxBase false with carriages := [(0, { car with weights := [(1, 0x40), (256, 0x40), (257, 0x41)] })], agent := none, cores := [(0, { owner := some (0, 0), mxOps := [({ id := 4, fibre := .fib 0 0, desc := 0x100107C00000, kind := .mmaS .bfbf 0x2008000 0 false } : MxOp)] })] }
    { unit := 0 }, ({ id := 4, fibre := .fib 0 0, desc := 0x100107C00000, kind := .mmaS .bfbf 0x2008000 0 false } : MxOp), ([] : List MxOp),
    (0 : Nat), (0 : Nat), (0 : Nat), four (by decide +kernel) ⟨by decide +kernel, nofun⟩⟩

theorem witness_Drains_1 : ∃ (o : _) (s : State) (k : FKey), s.Ready (.mxdrain o) k ∧ mxdrainCheck o s k = .go :=
  ⟨({ d := .v 48, a := .s 5, b := .v 40 } : G3), mxBase false, .fib 0 0, ready_of (by decide +kernel), by decide +kernel⟩

theorem witness_Drains_2 : ∃ (s : State) (o : _) (r : _) (g : _) (n : _) (rows : _), (s.core s.args.unit).mxOps = o :: r ∧ s.depsDone o.deps
  = true ∧ (∀ d ∈ (s.core s.args.unit).drains, d.target ≠ 0) ∧ s.mxBehind s.args.unit o = false ∧ o.kind = .drain g n rows :=
  ⟨withArgs
    { mxBase false with agent := none, cores := [(0, { owner := some (0, 0), mxOps := [({ id := 4, fibre := .fib 0 0, desc := 0x100107C00000, kind := .drain [0x8000, 0, 512, 0] 1 [] } : MxOp)] })] }
    { unit := 0 }, ({ id := 4, fibre := .fib 0 0, desc := 0x100107C00000, kind := .drain [0x8000, 0, 512, 0] 1 [] } : MxOp), ([] : List
    MxOp), ([0x8000, 0, 512, 0] : List W32), 1, ([] : List (List DrainPiece)), by decide +kernel⟩

theorem witness_Drains_3_scratch : ∃ (s : State) (d : _), (s.core s.args.unit).drains.find? (·.id = s.args.item) = some d ∧ d.core =
  s.args.unit ∧ d.target ≠ 1 ∧ s.tileOpen d = true ∧ (d.poisoned = none → d.target ≠ 0 → s.visitBarred d.lines = false) :=
  ⟨withArgs
    { base 2 with cores := [(0, { drains := [({ id := 6, core := 0, fibre := .fib 0 0, ticket := 1, target := 0, add := false, ofmt := 0, undo := [none], elems := [(0x40, 0x3F800000)] } : Drain)] })] }
    { unit := 0, item := 6 },
    ({ id := 6, core := 0, fibre := .fib 0 0, ticket := 1, target := 0, add := false, ofmt := 0, undo := [none], elems := [(0x40, 0x3F800000)] }
    : Drain), by decide +kernel⟩

theorem witness_Drains_3_dram : ∃ (s : State) (d : _), (s.core s.args.unit).drains.find? (·.id = s.args.item) = some d ∧ d.core =
  s.args.unit ∧ d.target ≠ 1 ∧ s.tileOpen d = true ∧ (d.poisoned = none → d.target ≠ 0 → s.visitBarred d.lines = false) :=
  ⟨withArgs
    { base 2 with cores := [(0, { drains := [({ id := 6, core := 0, fibre := .fib 0 0, ticket := 1, target := 2, add := false, ofmt := 0, undo := [none], elems := [(0x11000, 0x3F800000)] } : Drain)] })] }
    { unit := 0, item := 6 },
    ({ id := 6, core := 0, fibre := .fib 0 0, ticket := 1, target := 2, add := false, ofmt := 0, undo := [none], elems := [(0x11000, 0x3F800000)] }
    : Drain), by decide +kernel⟩

theorem witness_Drains_3_poisoned : ∃ (s : State) (d : _), (s.core s.args.unit).drains.find? (·.id = s.args.item) = some d ∧ d.core =
  s.args.unit ∧ d.target ≠ 1 ∧ s.tileOpen d = true ∧ (d.poisoned = none → d.target ≠ 0 → s.visitBarred d.lines = false) :=
  ⟨withArgs
    { base 2 with cores := [(0, { drains := [({ id := 6, core := 0, fibre := .fib 0 0, ticket := 1, target := 0, add := false, ofmt := 0, undo := [none], elems := [(0x40, 0x3F800000)], poisoned := some 0x40 } : Drain)] })] }
    { unit := 0, item := 6 },
    ({ id := 6, core := 0, fibre := .fib 0 0, ticket := 1, target := 0, add := false, ofmt := 0, undo := [none], elems := [(0x40, 0x3F800000)], poisoned := some 0x40 }
    : Drain), by decide +kernel⟩

theorem witness_CarriageWords_1 : ∃ (d : _) (a : _) (s : State) (k : FKey), s.Ready (.cralloc d a) k ∧ crallocCheck (.cralloc d a) a s k =
  .go :=
  ⟨(Reg.v 48), (Reg.v 44), mxBase false, .fib 0 0, ready_of (by decide +kernel), by decide +kernel⟩

theorem witness_CarriageWords_1_full : ∃ (d : _) (a : _) (s : State) (k : FKey), s.Ready (.cralloc d a) k ∧ crallocCheck (.cralloc d a) a s
  k = .go :=
  ⟨(Reg.v 48), (Reg.v 44), { mxBase false with partitions := [(0, { cfg := 0xE000000000000001 })] }, .fib 0 0, ready_of (by decide +kernel),
    by decide +kernel⟩

theorem witness_CarriageWords_2 : ∃ (o : _) (s : State) (k : FKey) (n : _) (c : _), s.Ready (.crldv o) k ∧ crldvCheck o s k = .go ∧
  s.carriageAt k (s.src32 k o.b).toNat none = some (n, c) :=
  ⟨({ d := .v 45, a := .v 0, b := .v 36 } : G3), mxBase false, .fib 0 0, 0, car, ready_of (by decide +kernel), by decide +kernel⟩

theorem witness_CarriageWords_3 : ∃ (a : _) (s : State) (k : FKey) (n : _) (c : _), s.Ready (.crpin a) k ∧ crpinCheck a s k = .go ∧
  s.carriageAt k (s.src32 k a).toNat none = some (n, c) :=
  ⟨(Reg.v 36), mxBase false, .fib 0 0, 0, car, ready_of (by decide +kernel), by decide +kernel⟩

theorem witness_CarriageWords_4 : ∃ (a : _) (s : State) (k : FKey) (n : _) (c : _), s.Ready (.crunpin a) k ∧ s.carriageAt k (s.src32 k
  a).toNat none = some (n, c) ∧ c.state ≠ .loading :=
  ⟨(Reg.v 36), mxBase false, .fib 0 0, 0, car, ready_of (by decide +kernel), by decide +kernel⟩

theorem witness_CarriageWords_5 : ∃ (a : _) (s : State) (k : FKey) (n : _) (c : _), s.Ready (.crfree a) k ∧ s.carriageAt k (s.src32 k
  a).toNat none = some (n, c) ∧ c.state ≠ .loading ∧ s.carBusy n c = false :=
  ⟨(Reg.v 36), mxBase false, .fib 0 0, 0, car, ready_of (by decide +kernel), by decide +kernel⟩

theorem witness_CarriageWords_6 : ∃ (a : _) (s : State) (k : FKey) (n : _) (c : _), s.Ready (.crdetach a) k ∧ s.carriageAt k (s.src32 k
  a).toNat none = some (n, c) ∧ c.state ≠ .loading :=
  ⟨(Reg.v 36), mxBase false, .fib 0 0, 0, car, ready_of (by decide +kernel), by decide +kernel⟩

theorem witness_CarriageLoads_1 : ∃ (o : _) (s : State) (k : FKey) (r : _) (n : _) (c : _), s.Ready (.crload o) k ∧ crloadCheck o (s.reading
  (.crload o)) k = .go ∧ (s.reading (.crload o)).recordRead k (.crload o) (s.src64 k o.a) = .ok r ∧ s.carriageAt k (s.src32 k o.b).toNat
  none = some (n, c) ∧ s.smoothPoisoned k c r = none :=
  ⟨({ d := .v 48, a := .v 46, b := .v 36 } : G3), { mxBase false with mem := cells 0x10800 (shape 0x12 0 0) }, .fib 0 0, (shape 0x12 0 0),
    0, car, ready_of (by decide +kernel), by decide +kernel⟩

theorem witness_CarriageLoads_2 : ∃ (s : State) (c : _) (l : _) (c1 : _) (e : _) (w : _) (sd : _), s.carriages.at? s.args.item = some c ∧
  c.load = some l ∧ c.state = .loading ∧ c.loadFault = none ∧ s.depsDone l.deps = true ∧ e = s.loadBy s.args.item c l ∧ c1 =
  { c with tracked := c.tracked && (s.loadHulls e c l.record).isSome, hulls := if c.tracked then (s.loadHulls e c l.record).getD [] else [] }
  ∧ ({ s with carriages := s.carriages.put s.args.item c1 } : State).sourcesFit = true ∧
  ({ s.joins e.p l.deps with carriages := s.carriages.put s.args.item c1 } : State).syncSources.loadPlanes e c1 l (fun row =>
  { data := s.args.bytes.drop (row * (shCols l.record * nibbles (shTfmt l.record) / 2)), code := s.args.opt.getD 0 }) s.args.nats = .ok (w,
  sd) :=
  ⟨loadBase, loadingCar, carLoad, loadingCar, loadEng, (got ([], []) planes).1, (got ([], []) planes).2, four (by decide +kernel) (four
    (by decide +kernel) (ok_pair ([], []) planes_ok))⟩

theorem witness_MemoryExecutorWords_1 : ∃ (o : _) (s : State) (k : FKey) (n : _), s.Ready (.bxc o) k ∧ bxcCheck o s k = .go ∧ s.bankAt k o.a
  = some n :=
  ⟨({ d := .v 30, a := .v 24, b := .v 4 } : G3), withRegs { bankBase [] with agent := some (.coach 0 0) } (.fib 0 0) [(4, 0x05000000), (5,
    0x10), (6, 0), (7, 9)], .fib 0 0, 0, ready_of (by decide +kernel), by decide +kernel⟩

theorem witness_MemoryExecutorWords_2 : ∃ (d : _) (a : _) (s : State) (k : FKey) (r : _) (p : _), s.Ready (.rdx d a) k ∧ rdxCheck d a
  (s.reading (.rdx d a)) k = .go ∧ (s.reading (.rdx d a)).readVirt k (.rdx d a) .load 2 (s.src64 k a) 128 = .ok (r, p) :=
  ⟨(Reg.v 30), (Reg.v 16), withRegs { base 2 with mem := cells 0x10800 rdxBlock } (.fib 0 0) [(16, 0x10800)], .fib 0 0, rdxBlock, (none :
    Option W64), ready_of (by decide +kernel), by decide +kernel⟩

theorem witness_MemoryExecutorWords_3 : ∃ (o : _) (s : State) (n : _), s.Ready (.ssconv o) (.ctl n) ∧ ssconvCheck o s (.ctl n) = .go :=
  ⟨({ d := .v 30, a := .v 13, b := .v 12 } : G3), ctlBase, 0, ready_of (by decide +kernel), by decide +kernel⟩

theorem witness_BankSteps_1_sum : ∃ (i : Instr) (op : _) (total : _) (f : _) (s : State) (n : _) (exe : _) (c : _), bankRow i = some (op,
  total, f) ∧ s.headCmd op = some (n, exe, c) ∧ s.veil.hidden = [] :=
  ⟨.sum, _, _, _, bankBase [cmd 0x01010000 0x40 0 0], 0, false, (cmd 0x01010000 0x40 0 0), rfl, by decide +kernel⟩

theorem witness_BankSteps_1_axpy : ∃ (i : Instr) (op : _) (total : _) (f : _) (s : State) (n : _) (exe : _) (c : _), bankRow i = some (op,
  total, f) ∧ s.headCmd op = some (n, exe, c) ∧ s.veil.hidden = [] :=
  ⟨.axpy, _, _, _, bankBase [cmd 0x02010000 0x40 0 0x3F800000], 0, false, (cmd 0x02010000 0x40 0 0x3F800000), rfl, by decide +kernel⟩

theorem witness_BankSteps_1_maxv : ∃ (i : Instr) (op : _) (total : _) (f : _) (s : State) (n : _) (exe : _) (c : _), bankRow i = some (op,
  total, f) ∧ s.headCmd op = some (n, exe, c) ∧ s.veil.hidden = [] :=
  ⟨.maxv, _, _, _, bankBase [cmd 0x03010000 0x40 0 0], 0, false, (cmd 0x03010000 0x40 0 0), rfl, by decide +kernel⟩

theorem witness_BankSteps_1_copy : ∃ (i : Instr) (op : _) (total : _) (f : _) (s : State) (n : _) (exe : _) (c : _), bankRow i = some (op,
  total, f) ∧ s.headCmd op = some (n, exe, c) ∧ s.veil.hidden = [] :=
  ⟨.copy, _, _, _, bankBase [cmd 0x04010000 0x40 0 0], 0, false, (cmd 0x04010000 0x40 0 0), rfl, by decide +kernel⟩

theorem witness_BankSteps_1_fill : ∃ (i : Instr) (op : _) (total : _) (f : _) (s : State) (n : _) (exe : _) (c : _), bankRow i = some (op,
  total, f) ∧ s.headCmd op = some (n, exe, c) ∧ s.veil.hidden = [] :=
  ⟨.fill, _, _, _, bankBase [cmd 0x05000000 0x40 0 0x3F800000], 0, false, (cmd 0x05000000 0x40 0 0x3F800000), rfl, by decide +kernel⟩

theorem witness_BankSteps_2 : ∃ (s : State) (n : _) (exe : _) (c : _), s.headCmd 6 = some (n, exe, c) ∧ s.veil.hidden = [] :=
  ⟨bankBase [cmd 0x06000000 0x0 0x10 3], 0, false, (cmd 0x06000000 0x0 0x10 3), by decide +kernel⟩

theorem witness_BankFlags_1 : ∃ (s : State) (n : _) (exe : _) (c : _), s.headCmd 7 = some (n, exe, c) ∧ c.started = false ∧ s.flagStored c =
  true ∧ s.flagMatches c = true :=
  ⟨bankBase [cmd 0x07000006 0x0 0x10 5], 0, false, (cmd 0x07000006 0x0 0x10 5), by decide +kernel⟩

theorem witness_BankFlags_2 : ∃ (s : State) (n : _) (exe : _) (c : _), s.headCmd 7 = some (n, exe, c) ∧ c.started = false ∧ s.flagStored c =
  true ∧ s.flagMatches c = false :=
  ⟨bankBase [cmd 0x07000006 0x0 0x10 6], 0, false, (cmd 0x07000006 0x0 0x10 6), by decide +kernel⟩

theorem witness_BankFlags_3 : ∃ (s : State) (n : _) (exe : _) (c : _), s.headCmd 7 = some (n, exe, c) ∧ c.started = false ∧ s.flagStored c =
  false :=
  ⟨{ bankBase [cmd 0x07000006 0x0 0x10 6, { cmd 0x05000000 0x40 0 9 with id := 4, ticket := 2 }] with slices := [] }, 0, false, (cmd
    0x07000006 0x0 0x10 6), by decide +kernel⟩

theorem witness_BankFlags_4 : ∃ (s : State) (n : _) (exe : _) (c : _) (x : _), s.headCmd 7 = some (n, exe, c) ∧ c.since = some x ∧ x +
  Bx.count c * 256000 ≤ s.clock :=
  ⟨{ bankBase [({ cmd 0x07000006 0x0 0x10 6 with started := true, since := some 100 } : BankCmd), { cmd 0x05000000 0x40 0 9 with id := 4, ticket := 2 }] with clock := 300000 },
    0, false, ({ cmd 0x07000006 0x0 0x10 6 with started := true, since := some 100 } : BankCmd), 100, by decide +kernel⟩

theorem witness_BankFlags_5 : ∃ (s : State) (n : _) (exe : _) (c : _), s.headCmd 8 = some (n, exe, c) ∧ s.ssaOk (Bx.a1 c) = true ∧ (Bx.wide
  c = true → s.leasesGone ((windowBase + Bx.a1 c) / 128 :: (s.bankDone.filter fun d => d.bank = n && d.exe = exe).flatMap BankDone.lines ++
  (s.bank n).dirty exe) = true) :=
  ⟨bankBase [cmd 0x08000006 0x4 0 9], 0, false, (cmd 0x08000006 0x4 0 9), by decide +kernel, by decide +kernel, fun _ => by decide +kernel⟩

theorem witness_ExecutorCompletion_1 : ∃ (s : State) (d : _), (s.bankDone.find? fun d => d.bank = s.args.unit && d.exe = decide (s.args.sub
  = 1)) = some d ∧ s.leasesGone d.lines = true :=
  ⟨withArgs { base 2 with bankDone := [({ bank := 0, exe := false, core := 0, ticket := 1, block := 0, lines := [0x200] } : BankDone)] }
    { unit := 0 }, ({ bank := 0, exe := false, core := 0, ticket := 1, block := 0, lines := [0x200] } : BankDone), by decide +kernel⟩

theorem witness_ExecutorCompletion_2 : ∃ (s : State) (d : _) (e : _) (r : _), (s.core s.args.unit).drains.find? (·.id = s.args.item) = some
  d ∧ d.core = s.args.unit ∧ d.target = 1 ∧ d.elems = e :: r ∧ s.tileOpen d = true ∧ (∀ x ∈ [false, true], betweenCmds ((s.bank (bankOf (e.1
  - windowBase))).queue x) = true) :=
  ⟨withArgs
    { bankBase [] with cores := [(0, { drains := [({ id := 6, core := 0, fibre := .fib 0 0, ticket := 1, target := 1, add := false, ofmt := 0, undo := [none], elems := [(0x80000000100, 0x3F800000)] } : Drain)] })] }
    { unit := 0, item := 6 },
    ({ id := 6, core := 0, fibre := .fib 0 0, ticket := 1, target := 1, add := false, ofmt := 0, undo := [none], elems := [(0x80000000100, 0x3F800000)] }
    : Drain), ((0x80000000100, 0x3F800000) : Nat × Nat), ([] : List (Nat × Nat)), by decide +kernel⟩

theorem witness_ExecutorCompletion_3_element : ∃ (s : State) (x : _) (r : _) (u : _), (s.stack s.args.unit).rdx = x :: r ∧ x.fault = none ∧
  s.depsDone x.deps = true ∧ ((s.joins (.reducer s.args.unit) x.deps).follows (opParty x.fibre x.id) (.reducer s.args.unit)).rdxStep
  s.args.unit x = .ok u :=
  ⟨withArgs
    { base 2 with stackTab := [(0, { rdx := [({ id := 8, core := 0, fibre := .fib 0 0, part := 0, block := rdxBlock, ticket := 1, next := 0 } : Reduction)] })] }
    { unit := 0 }, ({ id := 8, core := 0, fibre := .fib 0 0, part := 0, block := rdxBlock, ticket := 1, next := 0 } : Reduction), ([] : List
    Reduction), (got (withArgs
    { base 2 with stackTab := [(0, { rdx := [({ id := 8, core := 0, fibre := .fib 0 0, part := 0, block := rdxBlock, ticket := 1, next := 0 } : Reduction)] })] }
    { unit := 0 }) (State.rdxStep (((withArgs
    { base 2 with stackTab := [(0, { rdx := [({ id := 8, core := 0, fibre := .fib 0 0, part := 0, block := rdxBlock, ticket := 1, next := 0 } : Reduction)] })] }
    { unit := 0 }).joins (.reducer 0) []).follows (opParty (.fib 0 0) 8) (.reducer 0)) 0
    ({ id := 8, core := 0, fibre := .fib 0 0, part := 0, block := rdxBlock, ticket := 1, next := 0 } : Reduction))), by decide +kernel,
    by decide +kernel, by decide +kernel, ok_got _ (by decide +kernel)⟩

theorem witness_ExecutorCompletion_3_flag : ∃ (s : State) (x : _) (r : _) (u : _), (s.stack s.args.unit).rdx = x :: r ∧ x.fault = none ∧
  s.depsDone x.deps = true ∧ ((s.joins (.reducer s.args.unit) x.deps).follows (opParty x.fibre x.id) (.reducer s.args.unit)).rdxStep
  s.args.unit x = .ok u :=
  ⟨withArgs
    { base 2 with stackTab := [(0, { rdx := [({ id := 8, core := 0, fibre := .fib 0 0, part := 0, block := rdxBlock, ticket := 1, next := 1 } : Reduction)] })] }
    { unit := 0 }, ({ id := 8, core := 0, fibre := .fib 0 0, part := 0, block := rdxBlock, ticket := 1, next := 1 } : Reduction), ([] : List
    Reduction), (got (withArgs
    { base 2 with stackTab := [(0, { rdx := [({ id := 8, core := 0, fibre := .fib 0 0, part := 0, block := rdxBlock, ticket := 1, next := 1 } : Reduction)] })] }
    { unit := 0 }) (State.rdxStep (((withArgs
    { base 2 with stackTab := [(0, { rdx := [({ id := 8, core := 0, fibre := .fib 0 0, part := 0, block := rdxBlock, ticket := 1, next := 1 } : Reduction)] })] }
    { unit := 0 }).joins (.reducer 0) []).follows (opParty (.fib 0 0) 8) (.reducer 0)) 0
    ({ id := 8, core := 0, fibre := .fib 0 0, part := 0, block := rdxBlock, ticket := 1, next := 1 } : Reduction))), by decide +kernel,
    by decide +kernel, by decide +kernel, ok_got _ (by decide +kernel)⟩

theorem witness_SliceSteps_1 : ∃ (s : State) (r : _) (k : FKey) (v : _) (p : _), s.reqs.find? (·.id = s.args.item) = some r ∧ r.stage =
  .served v p ∧ r.org = .fibre k ∧ r.what.returns = true ∧ r.hold ≤ s.clock ∧ (p = true → ∀ c, k ≠ .ap c) :=
  ⟨withArgs
    (({ base with reqs := [({ id := 3, org := .fibre (.fib 0 0), core := 0, part := 0, va := 0x10004, pa := 0x10004, what := .load .b32, stage := .served 0x1234 false, slice := 0, dst := .regs [40] } : Req)], nextReq := 4 }
    : State).updFib (.fib 0 0) fun f => { f with regs := f.regs ++ [(40, { full := false })] }) { item := 3 },
    ({ id := 3, org := .fibre (.fib 0 0), core := 0, part := 0, va := 0x10004, pa := 0x10004, what := .load .b32, stage := .served 0x1234 false, slice := 0, dst := .regs [40] }
    : Req), .fib 0 0, 0x1234, false, four (by decide +kernel) ⟨by decide +kernel, nofun⟩⟩

theorem witness_SliceSteps_1_sreg : ∃ (s : State) (r : _) (k : FKey) (v : _) (p : _), s.reqs.find? (·.id = s.args.item) = some r ∧ r.stage =
  .served v p ∧ r.org = .fibre k ∧ r.what.returns = true ∧ r.hold ≤ s.clock ∧ (p = true → ∀ c, k ≠ .ap c) :=
  ⟨withArgs
    { base with reqs := [({ id := 3, org := .fibre (.fib 0 0), core := 0, part := 0, va := 0x10004, pa := 0x10004, what := .load .b32, stage := .served 0x1234 true, slice := 0, dst := .sreg 0 0 3 } : Req)], nextReq := 4, gangs := [((0, 0), { s := [(3, { full := false })] })] }
    { item := 3 },
    ({ id := 3, org := .fibre (.fib 0 0), core := 0, part := 0, va := 0x10004, pa := 0x10004, what := .load .b32, stage := .served 0x1234 true, slice := 0, dst := .sreg 0 0 3 }
    : Req), .fib 0 0, 0x1234, true, four (by decide +kernel) ⟨by decide +kernel, fun _ => nofun⟩⟩

theorem witness_SliceSteps_2 : ∃ (s : State) (r : _), s.reqs.find? (·.id = s.args.item) = some r ∧ r.stage = .inFlight ∧ r.dev = none ∧
  s.depsDone r.deps = true ∧ s.orderHeld r = false ∧ s.args.opt = none ∧ s.orphaned r.pa = false ∧ r.what.writes = true ∧ r.bypasses = false
  ∧ (¬ (32 ≤ s.occupancy r.slice ∨ 0 < s.spilledCount r.slice)) ∧ (s.meets ((s.reqs.filter fun x => decide (x.id ≠ r.id) && (match x.stage
  with | .queued | .spilled => true | _ => false)).map Req.id) r) = none :=
  ⟨withArgs
    { base with reqs := [({ id := 3, org := .fibre (.fib 0 0), core := 0, part := 0, va := 0x10004, pa := 0x10004, what := .store 2 0x1234, stage := .inFlight, slice := 0, dst := .none } : Req)], nextReq := 4 }
    { item := 3 },
    ({ id := 3, org := .fibre (.fib 0 0), core := 0, part := 0, va := 0x10004, pa := 0x10004, what := .store 2 0x1234, stage := .inFlight, slice := 0, dst := .none }
    : Req), by decide +kernel⟩

theorem witness_SliceSteps_3 : ∃ (s : State) (r : _), (s.reqs.find? fun r => decide (r.slice = s.args.unit ∧ r.stage = .spilled)) = some r ∧
  s.occupancy s.args.unit < 32 ∧ (∀ x ∈ s.reqs, x.id = r.id → x.what.writes = true) :=
  ⟨withArgs
    { base with reqs := [({ id := 3, org := .fibre (.fib 0 0), core := 0, part := 0, va := 0x10004, pa := 0x10004, what := .store 2 0x1234, stage := .spilled, slice := 0, dst := .none } : Req)], nextReq := 4 }
    { unit := 0, item := 3 },
    ({ id := 3, org := .fibre (.fib 0 0), core := 0, part := 0, va := 0x10004, pa := 0x10004, what := .store 2 0x1234, stage := .spilled, slice := 0, dst := .none }
    : Req), by decide +kernel, by decide +kernel, by decide +kernel⟩

theorem witness_StackSteps_1 : ∃ (s : State) (g : _) (c : _) (y : _) (k : Nat) (r : _), (s.slice s.args.unit).targets = (g, c, y, k) :: r ∧
  (s.slice s.args.unit).groups < g :=
  ⟨withArgs { base with slices := [(0, { targets := [(2, 384, 5, 1)] })] } { unit := 0 }, 2, 384, 5, 1, ([] : List (Nat × Nat × Nat × Nat)),
    by decide +kernel⟩

theorem witness_StackSteps_2 : ∃ (s : State) (g : _) (c : _) (y : _) (k : Nat) (r : _), (s.slice s.args.unit).targets = (g, c, y, k) :: r ∧
  g < (s.slice s.args.unit).groups ∧ s.queuedBefore s.args.unit = false :=
  ⟨withArgs { base with slices := [(0, { groups := 2, targets := [(0, 384, 5, 1)] })] } { unit := 0 }, 0, 384, 5, 1, ([] : List (Nat × Nat ×
    Nat × Nat)), by decide +kernel⟩

theorem witness_StackSteps_3 : ∃ (s : State), s.args.unit < 12 ∧ (s.args.opt = none ∨ s.args.opt = some 2 ∨ s.args.opt = some 3) ∧
  (s.args.sub < 16 ∨ s.args.sub = 0xFF) ∧ (s.occupancy (controllerOf ((s.args.unit * 2 ^ 29 + (s.stack s.args.unit).scrubNext) * 128)) <
  (s.stack s.args.unit).thr ∨ s.scrubSlots s.args.unit ≠ 0) :=
  ⟨withArgs base { unit := 3 }, by decide +kernel, .inl rfl, by decide +kernel⟩

theorem witness_StackSteps_3_bad : ∃ (s : State), s.args.unit < 12 ∧ (s.args.opt = none ∨ s.args.opt = some 2 ∨ s.args.opt = some 3) ∧
  (s.args.sub < 16 ∨ s.args.sub = 0xFF) ∧ (s.occupancy (controllerOf ((s.args.unit * 2 ^ 29 + (s.stack s.args.unit).scrubNext) * 128)) <
  (s.stack s.args.unit).thr ∨ s.scrubSlots s.args.unit ≠ 0) :=
  ⟨withArgs base { unit := 11, opt := some 3 }, by decide +kernel, .inr (.inr rfl), by decide +kernel⟩

theorem witness_TranslationSteps_1 : ∃ (s : State) (m : _) (size : _) (pte : _), (s.missQ.filter fun m => decide (m.sector = s.args.unit) &&
  m.walking)[s.args.item]? = some m ∧ s.walkBarred m.part (m.page * 65536) = false ∧ s.visitBarred (((s.walkEntries m.part (m.page *
  65536)).filter inDram).map fun a => (homeSlice a 3, a / 128)) = false ∧ s.walk m.part (m.page * 65536) = some (size, pte) :=
  ⟨{ base with mem := walkMem, partitions := [(0, walkPart)], missQ := [{ sector := 0, part := 0, page := 7, waiters := [.agent (.fib 0 0)], walking := true }], agent := none, args := { unit := 0 } },
    ({ sector := 0, part := 0, page := 7, waiters := [.agent (.fib 0 0)], walking := true } : Miss), 16, (pte 0x7FF 7 0xCF),
    by decide +kernel⟩

theorem witness_TranslationSteps_2 : ∃ (s : State) (m : _), (s.missQ.filter fun m => decide (m.sector = s.args.unit) &&
  m.walking)[s.args.item]? = some m ∧ s.walkBarred m.part (m.page * 65536) = false ∧ s.visitBarred (((s.walkEntries m.part (m.page *
  65536)).filter inDram).map fun a => (homeSlice a 3, a / 128)) = false ∧ s.walk m.part (m.page * 65536) = none :=
  ⟨{ base with mem := walkMem, partitions := [(0, walkPart)], missQ := [{ sector := 0, part := 0, page := 9, waiters := [.agent (.fib 0 0)], walking := true }], agent := none, args := { unit := 0 } },
    ({ sector := 0, part := 0, page := 9, waiters := [.agent (.fib 0 0)], walking := true } : Miss), by decide +kernel⟩

theorem witness_TranslationSteps_3 : ∃ (s : State), s.args.unit < 12 :=
  ⟨withArgs base { unit := 0, item := 1 }, by decide +kernel⟩

theorem witness_StopPoints_1 : ∃ (n : _) (s : State) (b : Nat) (m : Nat), s.Ready (.pre n) (.fib b m) ∧ s.NoHeld (.fib b m) ∧
  s.stopRequested b = false :=
  ⟨(0 : BitVec 14), base, 0, 0, ready_of (by decide +kernel), noHeld_of (by decide +kernel), by decide +kernel⟩

theorem witness_StopPoints_2 : ∃ (n : _) (s : State) (b : Nat) (m : Nat) (why : _) (t0 : _) (e : _), s.Ready (.pre n) (.fib b m) ∧ m ∈
  s.liveSlots b ∧ (s.block b).stop = .requested why t0 ∧ (s.fib (.fib b m)).inHandler = false ∧ (s.fib (.fib b m)).pop = none ∧ s.readVirt
  (.fib b m) (.pre n) .load 2 (s.livenessAt (.fib b m) n.toNat) 128 = .ok (e, none) ∧ livenessOk (s.block b) e = true :=
  ⟨(0 : BitVec 14), { base with blocks := [(0, { blk 0 with stop := .requested .switch 100 })] }, 0, 0, StopWhy.switch, 100, (List.replicate
    128 0), ready_of (by decide +kernel), by decide +kernel⟩

theorem witness_StopPoints_2_waits : ∃ (n : _) (s : State) (b : Nat) (m : Nat) (why : _) (t0 : _) (e : _), s.Ready (.pre n) (.fib b m) ∧ m ∈
  s.liveSlots b ∧ (s.block b).stop = .requested why t0 ∧ (s.fib (.fib b m)).inHandler = false ∧ (s.fib (.fib b m)).pop = none ∧ s.readVirt
  (.fib b m) (.pre n) .load 2 (s.livenessAt (.fib b m) n.toNat) 128 = .ok (e, none) ∧ livenessOk (s.block b) e = true :=
  ⟨(0 : BitVec 14), { pair with blocks := [(0, { blk 0 with stop := .requested .switch 100 })] }, 0, 0, StopWhy.switch, 100, (List.replicate
    128 0), ready_of (by decide +kernel), by decide +kernel⟩

theorem witness_StopPoints_3 : ∃ (r : _) (s : State) (b : Nat) (m : Nat) (e : _), s.Ready (.idem r false) (.fib b m) ∧ s.NoHeld (.fib b m) ∧
  s.stopRequested b = false ∧ s.readVirt (.fib b m) (.idem r false) .load 2 (s.regionAt (.fib b m) r.toNat) 32 = .ok (e, none) ∧ regionOk
  (s.block b) (field (s.recordOf (.fib b m)) 0 8) (s.fib (.fib b m)).pc.toNat e = true ∧ (∀ n ∈ regionRegs e, ((s.fib (.fib b m)).cell
  n).full = true) :=
  ⟨0, { base with mem := cells 0x10400 [0, 0, 0, 0, 2, 0, 0, 0, 0, 1] }, 0, 0, ([0, 0, 0, 0, 2, 0, 0, 0, 0, 1] ++ List.replicate 22 0),
    ready_of (by decide +kernel), noHeld_of (by decide +kernel), by decide +kernel⟩

theorem witness_StopPoints_4_end : ∃ (r : _) (s : State) (b : Nat) (m : Nat), s.Ready (.idem r true) (.fib b m) ∧ s.NoHeld (.fib b m) ∧
  s.stopRequested b = false :=
  ⟨0, base.updFib (.fib 0 0) fun f => { f with region := some { index := 0, pc := 0xC0, regs := [], p := 0, wb := 0, lr := 0 } }, 0, 0,
    ready_of (by decide +kernel), noHeld_of (by decide +kernel), by decide +kernel⟩

theorem witness_StopPoints_4_other : ∃ (r : _) (s : State) (b : Nat) (m : Nat), s.Ready (.idem r true) (.fib b m) ∧ s.NoHeld (.fib b m) ∧
  s.stopRequested b = false :=
  ⟨0, base.updFib (.fib 0 0) fun f => { f with region := some { index := 3, pc := 0xC0, regs := [], p := 0, wb := 0, lr := 0 } }, 0, 0,
    ready_of (by decide +kernel), noHeld_of (by decide +kernel), by decide +kernel⟩

theorem witness_RegionWords_1 : ∃ (d : _) (a : _) (s : State) (k : FKey), s.Ready (.devid d a) k ∧ devidCheck a s k = .go :=
  ⟨(Reg.v 30), (Reg.v 20), base, .fib 0 0, ready_of (by decide +kernel), by decide +kernel⟩

theorem witness_RegionWords_2_unreach : ∃ (renew : Bool) (o : _) (s : State) (k : FKey) (x : _), s.Ready (if renew then .wrenew o else
  .wlease o) k ∧ s.acqPending k = false ∧ s.regionCheck k (if renew then .wrenew o else .wlease o) (s.src64 k o.a) = .ok x ∧ s.unacked
  (x.dev.getD 0) < 1024 :=
  ⟨false, ({ d := .v 30, a := .v 20, b := .v 9 } : G3), base, .fib 0 0, ({ pa := 0x30000, dev := some 5, pte := pte 5 3 0xCF } : Target),
    ready_of (by decide +kernel), by decide +kernel⟩

theorem witness_RegionWords_2_asks : ∃ (renew : Bool) (o : _) (s : State) (k : FKey) (x : _), s.Ready (if renew then .wrenew o else .wlease
  o) k ∧ s.acqPending k = false ∧ s.regionCheck k (if renew then .wrenew o else .wlease o) (s.src64 k o.a) = .ok x ∧ s.unacked (x.dev.getD
  0) < 1024 :=
  ⟨false, ({ d := .v 30, a := .v 20, b := .v 9 } : G3), { base with routeTab := routes }, .fib 0 0,
    ({ pa := 0x30000, dev := some 5, pte := pte 5 3 0xCF } : Target), ready_of (by decide +kernel), by decide +kernel⟩

theorem witness_RegionWords_2_renew : ∃ (renew : Bool) (o : _) (s : State) (k : FKey) (x : _), s.Ready (if renew then .wrenew o else .wlease
  o) k ∧ s.acqPending k = false ∧ s.regionCheck k (if renew then .wrenew o else .wlease o) (s.src64 k o.a) = .ok x ∧ s.unacked (x.dev.getD
  0) < 1024 :=
  ⟨true, ({ d := .v 30, a := .v 20, b := .v 9 } : G3), { base with routeTab := routes }, .fib 0 0,
    ({ pa := 0x30000, dev := some 5, pte := pte 5 3 0xCF } : Target), ready_of (by decide +kernel), by decide +kernel⟩

theorem witness_RegionWords_3 : ∃ (a : _) (s : State) (k : FKey) (x : _) (r : _) (v : _) (p : _), s.Ready (.wdrop a) k ∧ s.regionCheck k
  (.wdrop a) (s.src64 k a) = .ok x ∧ s.dropAsk k x = some r ∧ r.stage = .served v p :=
  ⟨(Reg.v 20),
    { base with reqs := [({ id := 3, org := .fibre (.fib 0 0), core := 0, part := 0, va := 0x30000, pa := 0x30000, dev := some 5, what := .wdrop, stage := .served 0 false } : Req)], nextReq := 4 },
    .fib 0 0, ({ pa := 0x30000, dev := some 5, pte := pte 5 3 0xCF } : Target),
    ({ id := 3, org := .fibre (.fib 0 0), core := 0, part := 0, va := 0x30000, pa := 0x30000, dev := some 5, what := .wdrop, stage := .served 0 false }
    : Req), 0, false, ready_of (by decide +kernel), by decide +kernel⟩

theorem witness_RegionWords_4 : ∃ (a : _) (s : State) (k : FKey) (x : _) (h : _) (d : _), s.Ready (.wdrop a) k ∧ s.regionCheck k (.wdrop a)
  (s.src64 k a) = .ok x ∧ x.dev = some d ∧ s.dropAsk k x = none ∧ s.acqPending k = false ∧ s.fabCheck k (.wdrop a) .rel .fab = .go ∧
  s.outstanding k = [] ∧ (∀ r ∈ s.reqs, r.dev = some d → r.pa / 65536 ≠ x.pa / 65536) ∧ s.unreachable d = false ∧ s.held? d x.pa = some h ∧
  s.heldLive h = true ∧ s.unacked d < 1024 :=
  ⟨(Reg.v 20), { base with routeTab := routes, heldLeases := [(regionKey 5 0x30000, lease5)] }, .fib 0 0,
    ({ pa := 0x30000, dev := some 5, pte := pte 5 3 0xCF } : Target), lease5, 5, ready_of (by decide +kernel), by decide +kernel⟩

theorem witness_RegionWords_5 : ∃ (a : _) (s : State) (b : _) (n : _) (x : _) (d : _), s.Ready (.wdrop a) (.fib b n) ∧ s.regionCheck (.fib b
  n) (.wdrop a) (s.src64 (.fib b n) a) = .ok x ∧ x.dev = some d ∧ s.dropAsk (.fib b n) x = none ∧ s.acqPending (.fib b n) = false ∧
  s.fabCheck (.fib b n) (.wdrop a) .rel .fab = .go ∧ s.outstanding (.fib b n) = [] ∧ (∀ r ∈ s.reqs, r.dev = some d → r.pa / 65536 ≠ x.pa /
  65536) ∧ (∀ h, s.held? d x.pa = some h → s.heldLive h = false) ∧ s.CanTrap b n :=
  ⟨(Reg.v 20), { base with routeTab := routes }, 0, 0, ({ pa := 0x30000, dev := some 5, pte := pte 5 3 0xCF } : Target), 5, ready_of
    (by decide +kernel), four (by decide +kernel) (four (by decide +kernel) (canTrap_of (by decide +kernel)))⟩

theorem witness_LaunchWords_1_accepted : ∃ (o : _) (s : State) (k : FKey) (r : _), s.Ready (.launch o) k ∧ launchCheck o (s.reading (.launch
  o)) k = .go ∧ (s.reading (.launch o)).readRecord k (.launch o) (s.src64 k o.a) = .ok (r, none) :=
  ⟨({ wa := false, wb := false, d := .v 30, a := .v 16, b := .v 13 } : R3), { base with mem := cells 0x10000 (rec 0 0) }, .fib 0 0, (rec 0
    0), ready_of (by decide +kernel), by decide +kernel⟩

theorem witness_LaunchWords_1_sig : ∃ (o : _) (s : State) (k : FKey) (r : _), s.Ready (.launch o) k ∧ launchCheck o (s.reading (.launch o))
  k = .go ∧ (s.reading (.launch o)).readRecord k (.launch o) (s.src64 k o.a) = .ok (r, none) :=
  ⟨({ wa := false, wb := false, d := .v 30, a := .v 16, b := .v 13 } : R3), { base with mem := cells 0x10000 ((rec 0 0).set 0x73 1) }, .fib
    0 0, ((rec 0 0).set 0x73 1), ready_of (by decide +kernel), by decide +kernel⟩

theorem witness_LaunchWords_1_invalid : ∃ (o : _) (s : State) (k : FKey) (r : _), s.Ready (.launch o) k ∧ launchCheck o (s.reading (.launch
  o)) k = .go ∧ (s.reading (.launch o)).readRecord k (.launch o) (s.src64 k o.a) = .ok (r, none) :=
  ⟨({ wa := false, wb := false, d := .v 30, a := .v 16, b := .v 13 } : R3), { base with mem := cells 0x10000 ((rec 0 0).set 8 0) }, .fib 0
    0, ((rec 0 0).set 8 0), ready_of (by decide +kernel), by decide +kernel⟩

theorem witness_LaunchWords_1_queue : ∃ (o : _) (s : State) (k : FKey) (r : _), s.Ready (.launch o) k ∧ launchCheck o (s.reading (.launch
  o)) k = .go ∧ (s.reading (.launch o)).readRecord k (.launch o) (s.src64 k o.a) = .ok (r, none) :=
  ⟨({ wa := false, wb := false, d := .v 30, a := .v 16, b := .v 16 } : R3), { base with mem := cells 0x10000 (rec 0 0) }, .fib 0 0, (rec 0
    0), ready_of (by decide +kernel), by decide +kernel⟩

theorem witness_LaunchWords_2 : ∃ (o : _) (s : State) (k : FKey) (p : _) (q : _), s.Ready (.lqstat o) k ∧ s.queueNamed k (s.src32 k
  o.a).toNat = some (p, q) :=
  ⟨({ wa := false, d := .v 30, a := .v 13 } : R2), base, .fib 0 0, 0, 0, ready_of (by decide +kernel), by decide +kernel⟩

theorem witness_LaunchSteps_1 : ∃ (s : State) (l : _), s.launch? s.args.item = some l ∧ s.headOf (queueKey l.part l.queue) = some
  s.args.item ∧ (l.state = .accepted ∨ l.state = .pending) ∧ (∀ o ∈ [0x30, 0x40, 0x50, 0x60], s.depMet l.record o = true) :=
  ⟨withArgs (placing { launch 0 0 with state := .accepted, cursor := 0, placed := 0 }) { item := 1 },
    ({ launch 0 0 with state := .accepted, cursor := 0, placed := 0 } : Launch), by decide +kernel, by decide +kernel, .inl rfl,
    by decide +kernel⟩

theorem witness_LaunchSteps_2 : ∃ (s : State) (lid : _) (l : _) (c : _), s.chosen s.args.unit = some (lid, l) ∧ s.launch? lid = some l ∧
  l.state = .placing ∧ l.paused = false ∧ s.stoppedAhead s.args.unit (s.effPrio lid) = false ∧ Rec.twin l.record = false ∧ s.args.nats = []
  ∧ s.findRoom (s.part s.args.unit).fromNext (blockOfRecord lid l s) false [] = some c :=
  ⟨withArgs (placing { launch 0 0 with state := .placing, cursor := 0, placed := 0 }) { unit := 0 }, 1,
    ({ launch 0 0 with state := .placing, cursor := 0, placed := 0 } : Launch), 0, by decide +kernel⟩

theorem witness_LaunchSteps_3 : ∃ (s : State) (lid : _) (l : _), s.chosen s.args.unit = some (lid, l) ∧ s.launch? lid = some l ∧ l.state =
  .placing ∧ l.paused = false ∧ s.stoppedAhead s.args.unit (s.effPrio lid) = false ∧ Rec.preempt l.record = false ∧ s.findRoom (s.part
  s.args.unit).fromNext (blockOfRecord lid l s) (Rec.twin l.record) [] = none :=
  ⟨withArgs
    { placing { launch 0 0 with state := .placing, cursor := 0, placed := 0 } with partitions := [(0, { cfg := 0xE000000000000000 })] }
    { unit := 0 }, 1, ({ launch 0 0 with state := .placing, cursor := 0, placed := 0 } : Launch), by decide +kernel⟩

theorem witness_LaunchSteps_4 : ∃ (s : State) (x : _), s.blocks.at? s.args.item = some x ∧ s.liveSlots s.args.item = [] ∧ s.blockBusy
  s.args.item = false :=
  ⟨withArgs { base with launches := [(1, { launch 0 0 with sig := some (0, 2, 1) })], fibres := [], pipes := [] } { item := 0 }, (blk 0),
    by decide +kernel⟩

theorem witness_Doorbells_1 : ∃ (s : State) (r : List Byte), s.args.unit < 12 ∧ s.args.sub < 64 ∧ s.released = true ∧ (∀ q ∈ s.reqs, ¬(q.org
  = .host ∧ q.part = s.args.unit ∧ q.lane = s.args.sub)) ∧ (s.part s.args.unit).enabled = false :=
  ⟨withArgs { base with partitions := [] } { unit := 0, sub := 3, word := 0x10000 }, ([] : List Byte), by decide +kernel⟩

theorem witness_Doorbells_2 : ∃ (s : State) (r : List Byte), s.args.unit < 12 ∧ s.args.sub < 64 ∧ s.released = true ∧ (∀ q ∈ s.reqs, ¬(q.org
  = .host ∧ q.part = s.args.unit ∧ q.lane = s.args.sub)) ∧ (s.part s.args.unit).enabled = true ∧ s.args.word.toNat % 64 ≠ 0 :=
  ⟨withArgs base { unit := 0, sub := 3, word := 0x10010 }, ([] : List Byte), by decide +kernel⟩

theorem witness_Doorbells_3 : ∃ (s : State) (r : _), s.args.unit < 12 ∧ s.args.sub < 64 ∧ s.released = true ∧ (∀ q ∈ s.reqs, ¬(q.org = .host
  ∧ q.part = s.args.unit ∧ q.lane = s.args.sub)) ∧ (s.part s.args.unit).enabled = true ∧ s.args.word.toNat % 64 = 0 ∧ s.bellRead s.args.unit
  s.args.bytes 5 s.args.word 256 = .ok r false ∧ Rec.sigValid r = false :=
  ⟨withArgs { base with mem := cells 0x10000 (rec 0 0) ++ walkMem, partitions := [(0, walkPart)] } { unit := 0, sub := 3, word := 0x10000 },
    (rec 0 0), by decide +kernel⟩

theorem witness_Doorbells_3_invalid : ∃ (s : State) (r : _), s.args.unit < 12 ∧ s.args.sub < 64 ∧ s.released = true ∧ (∀ q ∈ s.reqs, ¬(q.org
  = .host ∧ q.part = s.args.unit ∧ q.lane = s.args.sub)) ∧ (s.part s.args.unit).enabled = true ∧ s.args.word.toNat % 64 = 0 ∧ s.bellRead
  s.args.unit s.args.bytes 5 s.args.word 256 = .ok r false ∧ Rec.sigValid r = false :=
  ⟨withArgs { base with mem := cells 0x10000 ((rec 0 0).set 8 0) ++ walkMem, partitions := [(0, walkPart)] }
    { unit := 0, sub := 3, word := 0x10000 }, ((rec 0 0).set 8 0), by decide +kernel⟩

theorem witness_Coaches : ∃ (s : State) (b : _) (n : _), s.args.unit < 384 ∧ s.args.sub < 4 ∧ s.pipes.at? (pipeKey s.args.unit s.args.sub) =
  none ∧ s.headFibre s.args.unit = some (b, n) :=
  ⟨withArgs { pair with pipes := [] } { unit := 0, sub := 1 }, 0, 0, by decide +kernel⟩

theorem witness_Expiries_1 : ∃ (s : State) (x : _) (r : _), s.reconvGroup (s.args.unit, s.args.sub) s.args.word = x :: r ∧ (∀ o, (s.fib
  x).atReconv = some o → o + (s.gang (s.args.unit, s.args.sub)).sr.rcvwin ≤ s.cycles (s.block s.args.unit).core) :=
  ⟨withArgs
    { pair with fibres := [(.fib 0 0, { fibre 0 with wait := .reconv 100 }), (.fib 0 1, fibre 1)], gangs := [((0, 0), { sr := { rcvwin := 64 } })], dies := [(0, { cyc := 200 })] }
    { unit := 0, sub := 0, word := 0x100 }, (FKey.fib 0 0), ([] : List FKey), by decide +kernel, fun o h => by cases h; decide +kernel⟩

theorem witness_Expiries_2 : ∃ (s : State) (n : _) (r : _), (s.gangs.at? (s.args.unit, s.args.sub)).isSome = true ∧ (s.gang (s.args.unit,
  s.args.sub)).sr.tmrcmp ≠ 0 ∧ (s.gang (s.args.unit, s.args.sub)).sr.tmrcmp.toNat ≤ (s.gang (s.args.unit, s.args.sub)).sr.runcyc ∧ (∀ x ∈
  s.fibres, x.2.heldTimer = false ∧ x.2.heldDebug = false) ∧ s.liveInGang (s.args.unit, s.args.sub) = n :: r ∧ (s.fib (.fib s.args.unit
  n)).wait = .ready :=
  ⟨withArgs { base with gangs := [((0, 0), { sr := { tvec := 0x800, tmrcmp := 5, runcyc := 9 } })] } { unit := 0, sub := 0 }, 0, ([] : List
    Nat), by decide +kernel⟩

theorem witness_Expiries_2_out : ∃ (s : State) (n : _) (r : _), (s.gangs.at? (s.args.unit, s.args.sub)).isSome = true ∧ (s.gang
  (s.args.unit, s.args.sub)).sr.tmrcmp ≠ 0 ∧ (s.gang (s.args.unit, s.args.sub)).sr.tmrcmp.toNat ≤ (s.gang (s.args.unit,
  s.args.sub)).sr.runcyc ∧ (∀ x ∈ s.fibres, x.2.heldTimer = false ∧ x.2.heldDebug = false) ∧ s.liveInGang (s.args.unit, s.args.sub) = n :: r
  ∧ (s.fib (.fib s.args.unit n)).wait = .ready :=
  ⟨withArgs { base with pipes := [], gangs := [((0, 0), { sr := { tvec := 0x800, tmrcmp := 5, runcyc := 9 } })] } { unit := 0, sub := 0 },
    0, ([] : List Nat), by decide +kernel⟩

theorem witness_Expiries_3 : ∃ (s : State), s.args.unit < 192 :=
  ⟨withArgs { base with slices := [(5, { peak := 7, spills := 9 })] } { unit := 5, fibre := .fib 0 0, reg := .v 30 }, by decide +kernel⟩

theorem witness_FaultService_1 : ∃ (s : State) (k : FKey) (f : _), (∃ r ∈ s.faultReports, r.part = s.args.unit ∧ r.page = s.args.item ∧
  r.cause = s.args.sub) ∧ k ∈ s.faulted s.args.unit s.args.item s.args.sub ∧ (s.fib k).parkedOn = some f ∧ f.is s.args.item s.args.sub =
  true :=
  ⟨parked, .fib 0 0, fault9, by decide +kernel⟩

theorem witness_FaultService_2 : ∃ (s : State) (b : Nat) (n : Nat) (f : _), (∃ r ∈ s.faultReports, r.part = s.args.unit ∧ r.page =
  s.args.item ∧ r.cause = s.args.sub) ∧ s.faulted s.args.unit s.args.item s.args.sub = [.fib b n] ∧ (s.fib (.fib b n)).parkedOn = some f ∧
  f.is s.args.item s.args.sub = true ∧ s.CanTrap b n :=
  ⟨parked, 0, 0, fault9, four (by decide +kernel) (canTrap_of (by decide +kernel))⟩

theorem witness_FaultService_3 : ∃ (s : State) (b : Nat) (n : Nat) (f : _) (t0 : _), s.args.fibre = .fib b n ∧ (s.fib (.fib b n)).wait =
  .parked f t0 ∧ t0 + 1000000 < s.clock ∧ s.CanTrap b n :=
  ⟨{ parked with clock := 2000000 }, 0, 0, fault9, 100, by decide +kernel, by decide +kernel, by decide +kernel, canTrap_of
    (by decide +kernel)⟩

theorem witness_Debugger_1_in : ∃ (s : State), (s.gangs.at? (s.args.unit, s.args.sub)).isSome = true ∧ s.args.opt = some 1 ∧ (∀ x ∈
  s.fibres, x.2.heldTimer = false ∧ x.2.heldDebug = false) :=
  ⟨withArgs base { unit := 0, sub := 0, opt := some 1 }, by decide +kernel⟩

theorem witness_Debugger_1_out : ∃ (s : State), (s.gangs.at? (s.args.unit, s.args.sub)).isSome = true ∧ s.args.opt = some 1 ∧ (∀ x ∈
  s.fibres, x.2.heldTimer = false ∧ x.2.heldDebug = false) :=
  ⟨withArgs { pair with pipes := [] } { unit := 0, sub := 0, opt := some 1 }, by decide +kernel⟩

theorem witness_Debugger_2 : ∃ (s : State) (n : _), (s.gangs.at? (s.args.unit, s.args.sub)).isSome = true ∧ s.args.opt = none ∧ (∀ x ∈
  s.fibres, x.2.heldTimer = false ∧ x.2.heldDebug = false) ∧ s.liveInGang (s.args.unit, s.args.sub) = [n] ∧ (s.fib (.fib s.args.unit
  n)).wait = .ready ∧ s.inCoach s.args.unit n = false ∧ s.CanTrap s.args.unit n :=
  ⟨withArgs { base with pipes := [] } { unit := 0, sub := 0 }, 0, four (by decide +kernel) ⟨by decide +kernel, by decide +kernel, canTrap_of
    (by decide +kernel)⟩⟩

theorem witness_Debugger_3_1 : ∃ (s : State) (b : Nat) (n : Nat) (m : _), s.args.fibre = .fib b n ∧ (s.fibres.at? (.fib b n)).isSome = true
  ∧ s.args.reg = .v m ∧ (s.fib (.fib b n)).wb.toNat + m < s.declared (.fib b n) :=
  ⟨withArgs (base.updFib (.fib 0 0) fun f => { f with wb := 0 }) { fibre := .fib 0 0, reg := .v 40, word := 0x55 }, 0, 0, 40,
    by decide +kernel⟩

theorem witness_Debugger_3_2 : ∃ (s : State) (b : Nat) (n : Nat) (m : _), s.args.fibre = .fib b n ∧ (s.fibres.at? (.fib b n)).isSome = true
  ∧ s.args.reg = .s m :=
  ⟨withArgs base { fibre := .fib 0 0, reg := .s 4, word := 0x55 }, 0, 0, 4, by decide +kernel⟩

theorem witness_Debugger_4 : ∃ (s : State), (s.gang (s.args.unit, s.args.sub)).debug = true :=
  ⟨withArgs { base with pipes := [], gangs := [((0, 0), { debug := true })], fibres := [(.fib 0 0, { fibre 0 with wait := .debug })] }
    { unit := 0, sub := 0 }, by decide +kernel⟩

theorem witness_Debugger_4_step : ∃ (s : State), (s.gang (s.args.unit, s.args.sub)).debug = true :=
  ⟨withArgs { base with pipes := [], gangs := [((0, 0), { debug := true })], fibres := [(.fib 0 0, { fibre 0 with wait := .debug })] }
    { unit := 0, sub := 0, opt := some 1 }, by decide +kernel⟩

theorem witness_StopSteps_1 : ∃ (s : State), (s.part s.args.unit).enabled = true ∧ (s.part s.args.unit).shadow = true ∧ (s.part
  s.args.unit).pendShadow = false ∧ (s.stopsLeft s.args.unit = true ∨ s.looseLoads s.args.unit = false) :=
  ⟨withArgs base { unit := 0 }, by decide +kernel⟩

theorem witness_StopSteps_2 : ∃ (s : State) (why : _) (t0 : _), (s.block s.args.item).stop = .requested why t0 ∧ (s.block s.args.item).twin
  = none ∧ t0 + (s.part (s.block s.args.item).part).predeadline ≤ s.clock :=
  ⟨withArgs { base with clock := 50000, blocks := [(0, { blk 0 with stop := .requested .switch 100 })] } { item := 0 }, StopWhy.switch, 100,
    by decide +kernel⟩

theorem witness_StopSteps_3 : ∃ (s : State) (t0 : _), (s.part s.args.unit).overSince = some t0 ∧ t0 + 2000 < s.clock ∧ s.overThreshold
  s.args.unit = true :=
  ⟨{ parked with partitions := [(0, { cfg := 0xE000000000000001, overSince := some 100 })] }, 100, by decide +kernel⟩

theorem witness_StopSteps_4_point : ∃ (s : State) (why : _) (d : _), (s.block s.args.item).stop = .stopped why d ∧ why ≠ .rollback ∧
  (s.block s.args.item).twin = none ∧ s.noCoach s.args.item = true ∧ s.enginesQuiet s.args.item = true ∧ s.looseLoads (s.block
  s.args.item).part = false :=
  ⟨withArgs { pair with pipes := [], blocks := [(0, { blk 0 with stop := .stopped .switch false })] } { item := 0 }, StopWhy.switch, false,
    by decide +kernel⟩

theorem witness_StopSteps_4_deadline : ∃ (s : State) (why : _) (d : _), (s.block s.args.item).stop = .stopped why d ∧ why ≠ .rollback ∧
  (s.block s.args.item).twin = none ∧ s.noCoach s.args.item = true ∧ s.enginesQuiet s.args.item = true ∧ s.looseLoads (s.block
  s.args.item).part = false :=
  ⟨withArgs { pair with pipes := [], blocks := [(0, { blk 0 with stop := .stopped .switch true })] } { item := 0 }, StopWhy.switch, true,
    by decide +kernel⟩

theorem witness_StopSteps_5 : ∃ (s : State) (why : _) (c : _), (s.blocks.at? s.args.item).isSome = true ∧ (s.block s.args.item).stop =
  .saved why ∧ (why ≠ .switch → ∀ lid l, s.chosen (s.block s.args.item).part = some (lid, l) → s.effPrio lid ≤ s.effPrio (s.block
  s.args.item).lid) ∧ (why = .faults → s.unresolved s.args.item = false) ∧ (s.block s.args.item).twin = none ∧ s.args.opt = none ∧
  s.args.nats = [] ∧ (s.block s.args.item).image.reissue = [] ∧ s.findRoom (s.part (s.block s.args.item).part).sectors (s.block s.args.item)
  false [] = some c ∧ s.canRestore s.args.item c = true :=
  ⟨withArgs { pair with pipes := [], blocks := [(0, { blk 0 with stop := .saved .switch, units := [] })] } { item := 0 }, StopWhy.switch, 0,
    by decide +kernel, by decide +kernel, nofun, nofun, by decide +kernel⟩

theorem witness_StopSteps_5_preempt : ∃ (s : State) (why : _) (c : _), (s.blocks.at? s.args.item).isSome = true ∧ (s.block s.args.item).stop
  = .saved why ∧ (why ≠ .switch → ∀ lid l, s.chosen (s.block s.args.item).part = some (lid, l) → s.effPrio lid ≤ s.effPrio (s.block
  s.args.item).lid) ∧ (why = .faults → s.unresolved s.args.item = false) ∧ (s.block s.args.item).twin = none ∧ s.args.opt = none ∧
  s.args.nats = [] ∧ (s.block s.args.item).image.reissue = [] ∧ s.findRoom (s.part (s.block s.args.item).part).sectors (s.block s.args.item)
  false [] = some c ∧ s.canRestore s.args.item c = true :=
  ⟨preempted, StopWhy.preempt, 0, by decide +kernel, by decide +kernel,
    fun _ _ _ h => (Option.some_ne_none _ (h.symm.trans (by decide +kernel : preempted.chosen 0 = none))).elim, nofun, by decide +kernel⟩

theorem witness_Rollback_1 : ∃ (s : State) (l : _), s.launch? s.args.item = some l ∧ l.mustRollback = true ∧ l.error = none ∧ 3 ≤
  l.rollbacks :=
  ⟨withArgs
    { base with launches := [(1, { launch 0 2 with mustRollback := true, undo := [(0x203, List.replicate 128 7)], rollbacks := 3 })] }
    { item := 1 }, ({ launch 0 2 with mustRollback := true, undo := [(0x203, List.replicate 128 7)], rollbacks := 3 } : Launch),
    by decide +kernel⟩

theorem witness_Rollback_2 : ∃ (s : State) (l : _), s.launch? s.args.item = some l ∧ l.mustRollback = true ∧ l.error = none ∧ l.rollbacks <
  3 ∧ (∃ b ∈ s.blocksOfLaunch s.args.item, (s.block b).stop.forRollback s.clock ≠ (s.block b).stop) :=
  ⟨withArgs
    { base with launches := [(1, { launch 0 2 with mustRollback := true, undo := [(0x203, List.replicate 128 7)], rollbacks := 0 })] }
    { item := 1 }, ({ launch 0 2 with mustRollback := true, undo := [(0x203, List.replicate 128 7)], rollbacks := 0 } : Launch), four
    (by decide +kernel) ⟨0, by decide +kernel, nofun⟩⟩

theorem witness_Rollback_3 : ∃ (s : State) (l : _), s.launch? s.args.item = some l ∧ l.mustRollback = true ∧ l.error = none ∧ l.rollbacks <
  3 ∧ (∀ b ∈ s.blocksOfLaunch s.args.item, ((∃ d, (s.block b).stop = .stopped .rollback d) ∨ ∃ w, (s.block b).stop = .saved w) ∧ s.toHalt b
  = false ∧ s.quietBlock b = true) ∧ (∀ x ∈ l.undo, ∀ h ∈ homesOf x.1, s.lineOpen undoParty h = true) :=
  ⟨withArgs
    { base with launches := [(1, { launch 0 2 with mustRollback := true, undo := [(0x203, List.replicate 128 7)], rollbacks := 1 })], pipes := [], blocks := [(0, { blk 0 with stop := .stopped .rollback true })] }
    { item := 1 }, ({ launch 0 2 with mustRollback := true, undo := [(0x203, List.replicate 128 7)], rollbacks := 1 } : Launch), four
    (by decide +kernel) ⟨fun b h => by rw [List.mem_singleton.1 h]; exact ⟨.inl ⟨true, rfl⟩, by decide +kernel, by decide +kernel⟩,
    by decide +kernel⟩⟩

theorem witness_CartsAndFlows_1 : ∃ (s : State) (c : _), c ∈ (s.die s.args.unit).carts ∧ c.dest = s.args.item ∧ c.leaving = false ∧ c.since
  + (s.die s.args.unit).cartAge ≤ s.clock :=
  ⟨withArgs { base with dies := [(0, { carts := [{ dest := 5, elems := [3], slots := 1, since := 100, leaving := false }] })] }
    { unit := 0, item := 5 }, ({ dest := 5, elems := [3], slots := 1, since := 100, leaving := false } : Cart), by decide +kernel⟩

theorem witness_CartsAndFlows_2 : ∃ (s : State) (c : _), (s.die s.args.unit).carts.find? Cart.leaving = some c ∧ s.unreachable c.dest =
  false ∧ s.inFlight s.args.unit + c.elems.length ≤ 2048 ∧ s.unacked c.dest < 1024 :=
  ⟨withArgs
    { base with dies := [(0, { carts := [{ dest := 5, elems := [3], slots := 1, since := 100, leaving := true }] })], routeTab := routes, reqs := [remoteReq (.store 4 7) .cart], nextReq := 4 }
    { unit := 0 }, ({ dest := 5, elems := [3], slots := 1, since := 100, leaving := true } : Cart), by decide +kernel⟩

theorem witness_CartsAndFlows_3 : ∃ (s : State) (n : _), s.args.opt = some n ∧ isGroup s.args.item = false ∧ (∃ e ∈ (s.flows.atD
  (s.args.item, s.args.sub) {}).unacked, e.1 = n) :=
  ⟨withArgs { base with flows := [((5, 0), { next := 3, unacked := [(1, [3]), (2, [4])], timeouts := 2 })] }
    { item := 5, sub := 0, opt := some 1 }, 1, by decide +kernel⟩

theorem witness_CartsAndFlows_4_again : ∃ (s : State), isGroup s.args.item = false ∧ (s.flows.atD (s.args.item, s.args.sub) {}).unacked ≠ []
  ∧ (s.flows.atD (s.args.item, s.args.sub) {}).lastAck + (s.die 0).e2eto * 1000 ≤ s.clock :=
  ⟨withArgs { base with clock := 100000, flows := [((5, 0), { next := 3, unacked := [(1, [3])], timeouts := 1 })] } { item := 5, sub := 0 },
    by decide +kernel⟩

theorem witness_CartsAndFlows_4_up : ∃ (s : State), isGroup s.args.item = false ∧ (s.flows.atD (s.args.item, s.args.sub) {}).unacked ≠ [] ∧
  (s.flows.atD (s.args.item, s.args.sub) {}).lastAck + (s.die 0).e2eto * 1000 ≤ s.clock :=
  ⟨withArgs { base with clock := 100000, flows := [((5, 0), { next := 3, unacked := [(1, [3])], timeouts := 3 })] } { item := 5, sub := 0 },
    by decide +kernel⟩

theorem witness_CartsAndFlows_5 : ∃ (s : State), s.args.unit < 128 ∧ s.args.unit ∉ s.failedPorts :=
  ⟨withArgs base { unit := 7 }, by decide +kernel⟩

theorem witness_GoodStatuses_1 : ∃ (s : State) (r : _) (d : _), s.reqs.find? (·.id = s.args.item) = some r ∧ r.dev = some d ∧ (r.stage =
  .sent ∨ r.stage = .remote) ∧ s.depsDone r.deps = true ∧ s.args.opt = none ∧ isGroup d = false ∧ r.held = false ∧ r.what.returns = true ∧
  (∀ b u, r.what ≠ .wlease b u) ∧ r.what ≠ .line ∧ r.what ≠ .wdrop ∧ (∀ n l, r.what ≠ .sig n l) :=
  ⟨withArgs { base with reqs := [remoteReq (.load .b32) .sent], nextReq := 4 } { item := 3, bytes := [1, 2, 3, 4] }, (remoteReq (.load .b32)
    .sent), 5, four (by decide +kernel) (four (by decide +kernel) ⟨nofun, by decide +kernel, by decide +kernel, nofun⟩)⟩

theorem witness_GoodStatuses_2 : ∃ (s : State) (r : _) (d : _), s.reqs.find? (·.id = s.args.item) = some r ∧ r.dev = some d ∧ (r.stage =
  .sent ∨ r.stage = .remote) ∧ s.depsDone r.deps = true ∧ s.args.opt = none ∧ isGroup d = false ∧ r.held = false ∧ r.what.returns = false ∧
  r.what ≠ .line ∧ r.what ≠ .wdrop ∧ (∀ b u, r.what ≠ .wlease b u) :=
  ⟨withArgs { base with reqs := [remoteReq (.store 4 7) .sent], nextReq := 4 } { item := 3 }, (remoteReq (.store 4 7) .sent), 5, four
    (by decide +kernel) (four (by decide +kernel) ⟨by decide +kernel, by decide +kernel, nofun⟩)⟩

theorem witness_GoodStatuses_3 : ∃ (s : State) (r : _) (d : _) (n : _) (l : _) (k : FKey), s.reqs.find? (·.id = s.args.item) = some r ∧
  r.dev = some d ∧ (r.stage = .sent ∨ r.stage = .remote) ∧ s.depsDone r.deps = true ∧ s.args.opt = none ∧ isGroup d = false ∧ r.what = .sig
  n l ∧ r.org = .fibre k :=
  ⟨withArgs { base with reqs := [remoteReq (.sig 1 2) .sent], nextReq := 4 } { item := 3 }, (remoteReq (.sig 1 2) .sent), 5, 1, 2, .fib 0 0,
    by decide +kernel⟩

theorem witness_GoodStatuses_4 : ∃ (s : State) (r : _) (d : _) (us : _), s.reqs.find? (·.id = s.args.item) = some r ∧ r.dev = some d ∧
  (r.stage = .sent ∨ r.stage = .remote) ∧ s.depsDone r.deps = true ∧ s.args.opt = none ∧ isGroup d = false ∧ r.what = .wlease false us ∧
  s.args.word.toNat / 2 ^ 48 ≠ 0 :=
  ⟨withArgs { base with reqs := [remoteReq (.wlease false 10) .sent], nextReq := 4 } { item := 3, word := 0x20000000186A0 }, (remoteReq
    (.wlease false 10) .sent), 5, 10, by decide +kernel⟩

theorem witness_GoodStatuses_5 : ∃ (s : State) (r : _) (d : _), s.reqs.find? (·.id = s.args.item) = some r ∧ r.dev = some d ∧ (r.stage =
  .sent ∨ r.stage = .remote) ∧ s.depsDone r.deps = true ∧ s.args.opt = none ∧ isGroup d = true ∧ r.members = [s.args.sub] ∧ s.args.sub ≠
  s.devId ∧ r.refused = none :=
  ⟨withArgs { base with reqs := [{ remoteReq (.store 4 7) .sent with dev := some 0x500, members := [2] }], nextReq := 4 }
    { item := 3, sub := 2 }, ({ remoteReq (.store 4 7) .sent with dev := some 0x500, members := [2] } : Req), 0x500, by decide +kernel⟩

theorem witness_RefusedStatuses_regs : ∃ (s : State) (r : _) (d : _) (b : _) (n : _) (c : _), s.reqs.find? (·.id = s.args.item) = some r ∧
  r.dev = some d ∧ (r.stage = .sent ∨ r.stage = .remote) ∧ s.depsDone r.deps = true ∧ s.args.opt = some c ∧ c ∈ [0x10, 0x11, 0x15, 0x16,
  0x30, 0x40, 0x41] ∧ r.org = .fibre (.fib b n) ∧ r.copy = none ∧ (isGroup d = false ∨ (r.members = [s.args.sub] ∧ s.args.sub ≠ s.devId ∧
  r.refused = none)) ∧ (∀ x y, r.what ≠ .wlease x y) ∧ r.what ≠ .line ∧ r.what ≠ .wdrop ∧ (∀ x y, r.what ≠ .sig x y) :=
  ⟨withArgs
    { base with reqs := [{ remoteReq (.load .b32) .sent with dst := .regs [40] }], nextReq := 4, fibres := [(.fib 0 0, { fibre 0 with regs := [(40, { full := false })] })], gangs := [((0, 0), { s := [(4, { full := false })], sr := { tvec := 0x800 } })] }
    { item := 3, opt := some 0x40 }, ({ remoteReq (.load .b32) .sent with dst := .regs [40] } : Req), 5, 0, 0, 0x40, four
    (by decide +kernel) (four (by decide +kernel) ⟨.inl (by decide +kernel), nofun, nofun, nofun, nofun⟩)⟩

theorem witness_RefusedStatuses_sreg : ∃ (s : State) (r : _) (d : _) (b : _) (n : _) (c : _), s.reqs.find? (·.id = s.args.item) = some r ∧
  r.dev = some d ∧ (r.stage = .sent ∨ r.stage = .remote) ∧ s.depsDone r.deps = true ∧ s.args.opt = some c ∧ c ∈ [0x10, 0x11, 0x15, 0x16,
  0x30, 0x40, 0x41] ∧ r.org = .fibre (.fib b n) ∧ r.copy = none ∧ (isGroup d = false ∨ (r.members = [s.args.sub] ∧ s.args.sub ≠ s.devId ∧
  r.refused = none)) ∧ (∀ x y, r.what ≠ .wlease x y) ∧ r.what ≠ .line ∧ r.what ≠ .wdrop ∧ (∀ x y, r.what ≠ .sig x y) :=
  ⟨withArgs
    { base with reqs := [{ remoteReq (.load .b32) .sent with dst := .sreg 0 0 4 }], nextReq := 4, fibres := [(.fib 0 0, { fibre 0 with regs := [(40, { full := false })] })], gangs := [((0, 0), { s := [(4, { full := false })], sr := { tvec := 0x800 } })] }
    { item := 3, opt := some 0x40 }, ({ remoteReq (.load .b32) .sent with dst := .sreg 0 0 4 } : Req), 5, 0, 0, 0x40, four
    (by decide +kernel) (four (by decide +kernel) ⟨.inl (by decide +kernel), nofun, nofun, nofun, nofun⟩)⟩

theorem witness_RefusedStatuses_room : ∃ (s : State) (r : _) (d : _) (b : _) (n : _) (c : _), s.reqs.find? (·.id = s.args.item) = some r ∧
  r.dev = some d ∧ (r.stage = .sent ∨ r.stage = .remote) ∧ s.depsDone r.deps = true ∧ s.args.opt = some c ∧ c ∈ [0x10, 0x11, 0x15, 0x16,
  0x30, 0x40, 0x41] ∧ r.org = .fibre (.fib b n) ∧ r.copy = none ∧ (isGroup d = false ∨ (r.members = [s.args.sub] ∧ s.args.sub ≠ s.devId ∧
  r.refused = none)) ∧ (∀ x y, r.what ≠ .wlease x y) ∧ r.what ≠ .line ∧ r.what ≠ .wdrop ∧ (∀ x y, r.what ≠ .sig x y) :=
  ⟨withArgs
    { base with reqs := [{ remoteReq (.store 4 7) .sent with dst := .none }], nextReq := 4, fibres := [(.fib 0 0, { fibre 0 with regs := [(40, { full := false })] })], gangs := [((0, 0), { s := [(4, { full := false })], sr := { tvec := 0x800 } })] }
    { item := 3, opt := some 0x40 }, ({ remoteReq (.store 4 7) .sent with dst := .none } : Req), 5, 0, 0, 0x40, four (by decide +kernel)
    (four (by decide +kernel) ⟨.inl (by decide +kernel), nofun, nofun, nofun, nofun⟩)⟩

theorem witness_RefusedStatuses_full : ∃ (s : State) (r : _) (d : _) (b : _) (n : _) (c : _), s.reqs.find? (·.id = s.args.item) = some r ∧
  r.dev = some d ∧ (r.stage = .sent ∨ r.stage = .remote) ∧ s.depsDone r.deps = true ∧ s.args.opt = some c ∧ c ∈ [0x10, 0x11, 0x15, 0x16,
  0x30, 0x40, 0x41] ∧ r.org = .fibre (.fib b n) ∧ r.copy = none ∧ (isGroup d = false ∨ (r.members = [s.args.sub] ∧ s.args.sub ≠ s.devId ∧
  r.refused = none)) ∧ (∀ x y, r.what ≠ .wlease x y) ∧ r.what ≠ .line ∧ r.what ≠ .wdrop ∧ (∀ x y, r.what ≠ .sig x y) :=
  ⟨withArgs
    { base with reqs := [{ remoteReq (.store 4 7) .sent with dst := .none }], nextReq := 4, cores := [(0, { cartFaults := List.replicate 16 { block := 0, gang := 0, lane := 0, addr := 0, code := 0x40 } })] }
    { item := 3, opt := some 0x40 }, ({ remoteReq (.store 4 7) .sent with dst := .none } : Req), 5, 0, 0, 0x40, four (by decide +kernel)
    (four (by decide +kernel) ⟨.inl (by decide +kernel), nofun, nofun, nofun, nofun⟩)⟩

theorem witness_RefusedStatuses_group : ∃ (s : State) (r : _) (d : _) (b : _) (n : _) (c : _), s.reqs.find? (·.id = s.args.item) = some r ∧
  r.dev = some d ∧ (r.stage = .sent ∨ r.stage = .remote) ∧ s.depsDone r.deps = true ∧ s.args.opt = some c ∧ c ∈ [0x10, 0x11, 0x15, 0x16,
  0x30, 0x40, 0x41] ∧ r.org = .fibre (.fib b n) ∧ r.copy = none ∧ (isGroup d = false ∨ (r.members = [s.args.sub] ∧ s.args.sub ≠ s.devId ∧
  r.refused = none)) ∧ (∀ x y, r.what ≠ .wlease x y) ∧ r.what ≠ .line ∧ r.what ≠ .wdrop ∧ (∀ x y, r.what ≠ .sig x y) :=
  ⟨withArgs { base with reqs := [{ remoteReq (.store 4 7) .sent with dev := some 0x500, members := [2], dst := .none }], nextReq := 4 }
    { item := 3, sub := 2, opt := some 0x11 }, ({ remoteReq (.store 4 7) .sent with dev := some 0x500, members := [2], dst := .none } :
    Req), 0x500, 0, 0, 0x11, four (by decide +kernel) (four (by decide +kernel) ⟨.inr (by decide +kernel), nofun, nofun, nofun, nofun⟩)⟩

theorem witness_PacketArrivals_1 : ∃ (s : State) (p : _), s.args.packet = some p ∧ s.linksUp = true ∧ s.forUs p = true ∧ p.src ≠ s.devId ∧
  p.src ≤ 1057 ∧ p.cls ≤ 3 ∧ p.seq < 2 ^ 32 ∧ packetFits p = true ∧ s.CanSend p.src 1 p.elems.length ∧ p.dstInc.toNat ≠ s.incarnation :=
  ⟨withArgs homeBase { packet := some ({ packet5 { addr := 0x10040, lclass := 3, what := .write [1, 2] } with dstInc := 7 }) },
    ({ packet5 { addr := 0x10040, lclass := 3, what := .write [1, 2] } with dstInc := 7 } : Packet), four (by decide +kernel) (four
    (by decide +kernel) ⟨canSend_of (by decide +kernel), by decide +kernel⟩)⟩

theorem witness_PacketArrivals_2 : ∃ (s : State) (p : _), s.args.packet = some p ∧ s.linksUp = true ∧ s.forUs p = true ∧ p.src ≠ s.devId ∧
  p.src ≤ 1057 ∧ p.cls ≤ 3 ∧ p.seq < 2 ^ 32 ∧ packetFits p = true ∧ s.CanSend p.src 1 p.elems.length ∧ p.dstInc.toNat = s.incarnation ∧
  p.srcInc.toNat ≠ s.peers.atD p.src 0 :=
  ⟨withArgs homeBase { packet := some ({ packet5 { addr := 0x10040, lclass := 3, what := .write [1, 2] } with srcInc := 7 }) },
    ({ packet5 { addr := 0x10040, lclass := 3, what := .write [1, 2] } with srcInc := 7 } : Packet), four (by decide +kernel) (four
    (by decide +kernel) ⟨canSend_of (by decide +kernel), by decide +kernel⟩)⟩

theorem witness_PacketArrivals_3_1 : ∃ (s : State) (p : _), s.args.packet = some p ∧ s.linksUp = true ∧ s.forUs p = true ∧ p.src ≠ s.devId ∧
  p.src ≤ 1057 ∧ p.cls ≤ 3 ∧ p.seq < 2 ^ 32 ∧ packetFits p = true ∧ s.CanSend p.src 1 p.elems.length ∧ p.dstInc.toNat = s.incarnation ∧
  p.srcInc.toNat = s.peers.atD p.src 0 ∧ p.seq = s.expected.atD (flowKey p, p.cls) 0 % 2 ^ 32 ∧ (∀ e ∈ p.elems, s.paOk e.addr = true ∧ (∃ w,
  asWhat e.what = some w ∧ ((∀ a b c d, w ≠ .atom a b c d) ∨ inHost e.addr = false)) ∧ ∃ x, s.admits p.src p.tenant e = some x ∧ cellClash
  e.what (Imp.cell x) = false) :=
  ⟨withArgs homeBase { packet := some (packet5 { addr := 0x10040, lclass := 3, what := .write [1, 2] }) }, (packet5
    { addr := 0x10040, lclass := 3, what := .write [1, 2] }), four (by decide +kernel) (four (by decide +kernel) ⟨canSend_of
    (by decide +kernel), by decide +kernel, by decide +kernel, by decide +kernel,
    fun e h => by rw [List.mem_singleton.1 h]; exact ⟨by decide +kernel, ⟨_, rfl, .inl nofun⟩, importEntry, by decide +kernel, by decide +kernel⟩⟩)⟩

theorem witness_PacketArrivals_3_1_two : ∃ (s : State) (p : _), s.args.packet = some p ∧ s.linksUp = true ∧ s.forUs p = true ∧ p.src ≠
  s.devId ∧ p.src ≤ 1057 ∧ p.cls ≤ 3 ∧ p.seq < 2 ^ 32 ∧ packetFits p = true ∧ s.CanSend p.src 1 p.elems.length ∧ p.dstInc.toNat =
  s.incarnation ∧ p.srcInc.toNat = s.peers.atD p.src 0 ∧ p.seq = s.expected.atD (flowKey p, p.cls) 0 % 2 ^ 32 ∧ (∀ e ∈ p.elems, s.paOk
  e.addr = true ∧ (∃ w, asWhat e.what = some w ∧ ((∀ a b c d, w ≠ .atom a b c d) ∨ inHost e.addr = false)) ∧ ∃ x, s.admits p.src p.tenant e
  = some x ∧ cellClash e.what (Imp.cell x) = false) :=
  ⟨withArgs homeBase
    { packet := some { packet5 ({ addr := 0x10040, lclass := 3, what := .write [1, 2] }) with elems := [{ addr := 0x10040, lclass := 3, what := .write [1, 2] }, { addr := 0x10040, lclass := 3, what := .read 4 }] } },
    ({ packet5 ({ addr := 0x10040, lclass := 3, what := .write [1, 2] }) with elems := [{ addr := 0x10040, lclass := 3, what := .write [1, 2] }, { addr := 0x10040, lclass := 3, what := .read 4 }] }
    : Packet), four (by decide +kernel) (four (by decide +kernel) ⟨canSend_of (by decide +kernel), by decide +kernel, by decide +kernel,
    by decide +kernel,
    fun e h => by rcases List.mem_pair.1 h with rfl | rfl <;> exact ⟨by decide +kernel, ⟨_, rfl, .inl nofun⟩, importEntry, by decide +kernel, by decide +kernel⟩⟩)⟩

theorem witness_PacketArrivals_3_2_1_prot : ∃ (s : State) (p : _) (e : _) (w : _) (c : _), s.args.packet = some p ∧ s.linksUp = true ∧
  s.forUs p = true ∧ p.src ≠ s.devId ∧ p.src ≤ 1057 ∧ p.cls ≤ 3 ∧ p.seq < 2 ^ 32 ∧ packetFits p = true ∧ s.CanSend p.src 1 p.elems.length ∧
  p.dstInc.toNat = s.incarnation ∧ p.srcInc.toNat = s.peers.atD p.src 0 ∧ p.seq = s.expected.atD (flowKey p, p.cls) 0 % 2 ^ 32 ∧ p.elems =
  [e] ∧ asWhat e.what = some w ∧ (c = 0x10 ∧ s.paOk e.addr = false ∨ c = 0x11 ∧ s.paOk e.addr = true ∧ s.admits p.src p.tenant e = none ∨ c
  = 0x16 ∧ s.paOk e.addr = true ∧ ∃ x, s.admits p.src p.tenant e = some x ∧ cellClash e.what (Imp.cell x) = true) :=
  ⟨withArgs { homeBase with importTab := [] } { packet := some (packet5 { addr := 0x10040, lclass := 3, what := .write [1, 2] }) }, (packet5
    { addr := 0x10040, lclass := 3, what := .write [1, 2] }), ({ addr := 0x10040, lclass := 3, what := .write [1, 2] } : PacketElem),
    (.store 2 0x201 : What), 0x11, four (by decide +kernel) (four (by decide +kernel) ⟨canSend_of (by decide +kernel), four
    (by decide +kernel) ⟨rfl, .inr (.inl (by decide +kernel))⟩⟩)⟩

theorem witness_PacketArrivals_3_2_1_np : ∃ (s : State) (p : _) (e : _) (w : _) (c : _), s.args.packet = some p ∧ s.linksUp = true ∧ s.forUs
  p = true ∧ p.src ≠ s.devId ∧ p.src ≤ 1057 ∧ p.cls ≤ 3 ∧ p.seq < 2 ^ 32 ∧ packetFits p = true ∧ s.CanSend p.src 1 p.elems.length ∧
  p.dstInc.toNat = s.incarnation ∧ p.srcInc.toNat = s.peers.atD p.src 0 ∧ p.seq = s.expected.atD (flowKey p, p.cls) 0 % 2 ^ 32 ∧ p.elems =
  [e] ∧ asWhat e.what = some w ∧ (c = 0x10 ∧ s.paOk e.addr = false ∨ c = 0x11 ∧ s.paOk e.addr = true ∧ s.admits p.src p.tenant e = none ∨ c
  = 0x16 ∧ s.paOk e.addr = true ∧ ∃ x, s.admits p.src p.tenant e = some x ∧ cellClash e.what (Imp.cell x) = true) :=
  ⟨withArgs homeBase { packet := some (packet5 { addr := 0xEE6B28000, lclass := 3, what := .write [1, 2] }) }, (packet5
    { addr := 0xEE6B28000, lclass := 3, what := .write [1, 2] }), ({ addr := 0xEE6B28000, lclass := 3, what := .write [1, 2] } :
    PacketElem), (.store 2 0x201 : What), 0x10, four (by decide +kernel) (four (by decide +kernel) ⟨canSend_of (by decide +kernel), four
    (by decide +kernel) ⟨rfl, .inl (by decide +kernel)⟩⟩)⟩

theorem witness_PacketArrivals_3_2_1_cell : ∃ (s : State) (p : _) (e : _) (w : _) (c : _), s.args.packet = some p ∧ s.linksUp = true ∧
  s.forUs p = true ∧ p.src ≠ s.devId ∧ p.src ≤ 1057 ∧ p.cls ≤ 3 ∧ p.seq < 2 ^ 32 ∧ packetFits p = true ∧ s.CanSend p.src 1 p.elems.length ∧
  p.dstInc.toNat = s.incarnation ∧ p.srcInc.toNat = s.peers.atD p.src 0 ∧ p.seq = s.expected.atD (flowKey p, p.cls) 0 % 2 ^ 32 ∧ p.elems =
  [e] ∧ asWhat e.what = some w ∧ (c = 0x10 ∧ s.paOk e.addr = false ∨ c = 0x11 ∧ s.paOk e.addr = true ∧ s.admits p.src p.tenant e = none ∨ c
  = 0x16 ∧ s.paOk e.addr = true ∧ ∃ x, s.admits p.src p.tenant e = some x ∧ cellClash e.what (Imp.cell x) = true) :=
  ⟨withArgs homeBase { packet := some (packet5 { addr := 0x10040, lclass := 3, what := .cellLoad }) }, (packet5
    { addr := 0x10040, lclass := 3, what := .cellLoad }), ({ addr := 0x10040, lclass := 3, what := .cellLoad } : PacketElem), (.ldc : What),
    0x16, four (by decide +kernel) (four (by decide +kernel) ⟨canSend_of (by decide +kernel), four (by decide +kernel) ⟨rfl,
    .inr (.inr ⟨rfl, by decide +kernel, importEntry, by decide +kernel, by decide +kernel⟩)⟩⟩)⟩

theorem witness_PacketArrivals_3_2_2 : ∃ (s : State) (p : _) (e : _) (us : _) (x : _), s.args.packet = some p ∧ s.linksUp = true ∧ s.forUs p
  = true ∧ p.src ≠ s.devId ∧ p.src ≤ 1057 ∧ p.cls ≤ 3 ∧ p.seq < 2 ^ 32 ∧ packetFits p = true ∧ s.CanSend p.src 1 p.elems.length ∧
  p.dstInc.toNat = s.incarnation ∧ p.srcInc.toNat = s.peers.atD p.src 0 ∧ p.seq = s.expected.atD (flowKey p, p.cls) 0 % 2 ^ 32 ∧ p.elems =
  [e] ∧ e.what = .leaseRequest us ∧ s.paOk e.addr = true ∧ s.admits p.src p.tenant e = some x ∧ (s.homeLease (e.addr / 65536)).state = .open
  ∧ s.homeCount < 256 :=
  ⟨withArgs homeBase { packet := some (packet5 { addr := 0x10040, lclass := 3, what := .leaseRequest 10 }) }, (packet5
    { addr := 0x10040, lclass := 3, what := .leaseRequest 10 }), ({ addr := 0x10040, lclass := 3, what := .leaseRequest 10 } : PacketElem),
    10, importEntry, four (by decide +kernel) (four (by decide +kernel) ⟨canSend_of (by decide +kernel), by decide +kernel⟩)⟩

theorem witness_Transit_1 : ∃ (s : State) (p : _) (via : _) (b : _), s.args.packet = some p ∧ s.linksUp = true ∧ packetFits p = true ∧ 1 ≤
  s.args.sub ∧ s.args.sub ≤ 4 ∧ isGroup p.dst = false ∧ p.dst ≠ s.devId ∧ via = (if p.via = some s.devId then none else p.via) ∧ s.nextHop
  (via.getD p.dst) = some b :=
  ⟨withArgs { base with routeTab := [(9, 2 :: List.replicate 15 0)] }
    { packet := some { packet5 { addr := 0x10040, lclass := 3, what := .write [1, 2] } with dst := 9 }, sub := 1 },
    ({ packet5 { addr := 0x10040, lclass := 3, what := .write [1, 2] } with dst := 9 } : Packet), (none : Option Nat), 2, by decide +kernel⟩

theorem witness_Transit_1_via : ∃ (s : State) (p : _) (via : _) (b : _), s.args.packet = some p ∧ s.linksUp = true ∧ packetFits p = true ∧ 1
  ≤ s.args.sub ∧ s.args.sub ≤ 4 ∧ isGroup p.dst = false ∧ p.dst ≠ s.devId ∧ via = (if p.via = some s.devId then none else p.via) ∧ s.nextHop
  (via.getD p.dst) = some b :=
  ⟨withArgs { base with routeTab := [(9, 2 :: List.replicate 15 0), (12, 3 :: List.replicate 15 0)] }
    { packet := some { packet5 { addr := 0x10040, lclass := 3, what := .write [1, 2] } with dst := 9, via := some 12 }, sub := 1 },
    ({ packet5 { addr := 0x10040, lclass := 3, what := .write [1, 2] } with dst := 9, via := some 12 } : Packet), (some 12 : Option Nat), 3,
    by decide +kernel⟩

theorem witness_Transit_2 : ∃ (s : State) (p : _) (n : _), s.args.packet = some p ∧ s.linksUp = true ∧ packetFits p = true ∧ 1 ≤ s.args.sub
  ∧ s.args.sub ≤ 4 ∧ isGroup p.dst = true ∧ s.args.opt = some n ∧ (s.args.nats.drop n = [] ∨ s.args.unit < 128 ∧ s.slotsUsed s.args.unit <
  16) :=
  ⟨withArgs base
    { packet := some { packet5 { addr := 0x10040, lclass := 3, what := .write [1, 2] } with dst := 0x500 }, sub := 1, nats := [2, 3], opt := some 1, unit := 4 },
    ({ packet5 { addr := 0x10040, lclass := 3, what := .write [1, 2] } with dst := 0x500 } : Packet), 1, four (by decide +kernel)
    ⟨by decide +kernel, by decide +kernel, by decide +kernel, .inr (by decide +kernel)⟩⟩

theorem witness_Transit_2_all : ∃ (s : State) (p : _) (n : _), s.args.packet = some p ∧ s.linksUp = true ∧ packetFits p = true ∧ 1 ≤
  s.args.sub ∧ s.args.sub ≤ 4 ∧ isGroup p.dst = true ∧ s.args.opt = some n ∧ (s.args.nats.drop n = [] ∨ s.args.unit < 128 ∧ s.slotsUsed
  s.args.unit < 16) :=
  ⟨withArgs base
    { packet := some { packet5 { addr := 0x10040, lclass := 3, what := .write [1, 2] } with dst := 0x500 }, sub := 1, nats := [2, 3], opt := some 2 },
    ({ packet5 { addr := 0x10040, lclass := 3, what := .write [1, 2] } with dst := 0x500 } : Packet), 2, four (by decide +kernel)
    ⟨by decide +kernel, by decide +kernel, by decide +kernel, .inl rfl⟩⟩

theorem witness_Transit_3 : ∃ (s : State) (x : _), s.args.packet = none ∧ s.linksUp = true ∧ s.transit[s.args.item]? = some x ∧ s.args.nats
  ≠ [] ∧ (∀ b ∈ s.args.nats, b ∈ x.branches) :=
  ⟨withArgs
    { base with transit := [{ packet := { packet5 { addr := 0x10040, lclass := 3, what := .write [1, 2] } with dst := 0x500 }, hop := 1, branches := [2, 3] }] }
    { item := 0, nats := [3] },
    ({ packet := { packet5 { addr := 0x10040, lclass := 3, what := .write [1, 2] } with dst := 0x500 }, hop := 1, branches := [2, 3] } :
    Transit), by decide +kernel⟩

theorem witness_LeaseEnds_1 : ∃ (s : State) (d : _) (e : Nat), (s.homeLease s.args.unit).state = .held d e ∧ e + 200 ≤ s.clock :=
  ⟨withArgs { base with homeLeases := [(1, { state := .held 5 1000, gen := 4 })] } { unit := 1 }, 5, (1000 : Nat), by decide +kernel⟩

theorem witness_LeaseEnds_2 : ∃ (s : State), (s.homeLease s.args.unit).state = .orphaned :=
  ⟨withArgs { base with homeLeases := [(1, { state := .orphaned, gen := 4 })] } { unit := 1 }, by decide +kernel⟩

theorem witness_LeaseEnds_3 : ∃ (s : State) (h : _), s.heldLeases.at? s.args.item = some h ∧ h.gen ≠ 0 ∧ s.heldLive h = false :=
  ⟨withArgs
    { base with heldLeases := [(regionKey 5 0x30000, { lease5 with exp := 1000, dirty := [0x603], present := [0x603], data := [(0x30180, 1)] })] }
    { item := regionKey 5 0x30000 }, ({ lease5 with exp := 1000, dirty := [0x603], present := [0x603], data := [(0x30180, 1)] } :
    HeldLease), by decide +kernel⟩

theorem witness_LeaseEnds_4 : ∃ (s : State), s.args.unit ≤ 1057 ∧ s.args.unit ≠ s.devId ∧ 0 < s.args.word.toNat ∧ s.args.word.toNat < 2 ^ 32
  ∧ s.args.word.toNat ≠ s.peers.atD s.args.unit 0 :=
  ⟨withArgs
    { homeBase with reqs := [remoteReq (.store 4 7) .sent], nextReq := 4, flows := [((5, 0), { next := 3 })], homeLeases := [(1, { state := .held 5 100000, gen := 4 })] }
    { unit := 5, word := 12 }, by decide +kernel⟩

theorem witness_Boot_good : ∃ (s : State) (x : _) (r : _), s.args.images = x :: r ∧ r.length = 3 :=
  ⟨withArgs base
    { images := [{ bytes := [1, 2], signed := true, wellFormed := true }, { bytes := [1, 2], signed := true, wellFormed := true }, { bytes := [1, 2], signed := true, wellFormed := true }, { bytes := [1, 2], signed := true, wellFormed := true }] },
    ({ bytes := [1, 2], signed := true, wellFormed := true } : BootImage), ([{ bytes := [1, 2], signed := true, wellFormed := true },
    { bytes := [1, 2], signed := true, wellFormed := true }, { bytes := [1, 2], signed := true, wellFormed := true }] : List BootImage),
    by decide +kernel⟩

theorem witness_Boot_unsigned : ∃ (s : State) (x : _) (r : _), s.args.images = x :: r ∧ r.length = 3 :=
  ⟨withArgs base
    { images := [{ bytes := [1, 2], signed := false, wellFormed := true }, { bytes := [1, 2], signed := true, wellFormed := true }, { bytes := [1, 2], signed := true, wellFormed := true }, { bytes := [1, 2], signed := true, wellFormed := true }] },
    ({ bytes := [1, 2], signed := false, wellFormed := true } : BootImage), ([{ bytes := [1, 2], signed := true, wellFormed := true },
    { bytes := [1, 2], signed := true, wellFormed := true }, { bytes := [1, 2], signed := true, wellFormed := true }] : List BootImage),
    by decide +kernel⟩

theorem witness_Boot_bad : ∃ (s : State) (x : _) (r : _), s.args.images = x :: r ∧ r.length = 3 :=
  ⟨withArgs base
    { images := [{ bytes := [1, 2], signed := true, wellFormed := false }, { bytes := [1, 2], signed := true, wellFormed := true }, { bytes := [1, 2], signed := true, wellFormed := true }, { bytes := [1, 2], signed := true, wellFormed := true }] },
    ({ bytes := [1, 2], signed := true, wellFormed := false } : BootImage), ([{ bytes := [1, 2], signed := true, wellFormed := true },
    { bytes := [1, 2], signed := true, wellFormed := true }, { bytes := [1, 2], signed := true, wellFormed := true }] : List BootImage),
    by decide +kernel⟩

theorem witness_HostAccess_1 : ∃ (s : State) (n : _), s.args.nats.head? = some n ∧ 0 < n ∧ s.args.item % 128 + n ≤ 128 ∧ hostReaches
  s.args.item = true ∧ s.released = true ∧ s.visitBarred [(homeSlice s.args.item 3, s.args.item / 128)] = false ∧ s.hostWaits s.args.item =
  false ∧ s.writeWaits (homeSlice s.args.item 3, s.args.item / 128) = false :=
  ⟨withArgs { base with mem := [(0x10000, 5)] } { item := 0x10000, nats := [4] }, 4, by decide +kernel⟩

theorem witness_HostAccess_1_hole : ∃ (s : State) (n : _), s.args.nats.head? = some n ∧ 0 < n ∧ s.args.item % 128 + n ≤ 128 ∧ hostReaches
  s.args.item = true ∧ s.released = true ∧ s.visitBarred [(homeSlice s.args.item 3, s.args.item / 128)] = false ∧ s.hostWaits s.args.item =
  false ∧ s.writeWaits (homeSlice s.args.item 3, s.args.item / 128) = false :=
  ⟨withArgs base { item := 0xEE6B28000, nats := [4] }, 4, by decide +kernel⟩

theorem witness_HostAccess_2 : ∃ (s : State), 0 < s.args.bytes.length ∧ s.args.item % 128 + s.args.bytes.length ≤ 128 ∧ hostReaches
  s.args.item = true ∧ s.released = true ∧ s.visitBarred [(homeSlice s.args.item 3, s.args.item / 128)] = false ∧ s.hostWaits s.args.item =
  false ∧ s.lineOpen .host (homeSlice s.args.item 3, s.args.item / 128) = true :=
  ⟨withArgs base { item := 0x10010, bytes := [1, 2, 3] }, by decide +kernel⟩

theorem witness_Attestation_1_1 : ∃ (s : State) (x : _), s.args.unit < 13 ∧ s.released = true ∧ s.mailboxes.at? s.args.unit = some x ∧ x.go
  = 1 ∧ x.cmd = 1 :=
  ⟨withArgs { base with mailboxes := [(3, { cmd := 1, go := 1, nonce := [7] })] } { unit := 3 }, ({ cmd := 1, go := 1, nonce := [7] } :
    Mailbox), by decide +kernel⟩

theorem witness_Attestation_1_2 : ∃ (s : State) (x : _), s.args.unit < 13 ∧ s.released = true ∧ s.mailboxes.at? s.args.unit = some x ∧ x.go
  = 1 ∧ x.cmd ≠ 1 ∧ x.cmd ≠ 2 :=
  ⟨withArgs { base with mailboxes := [(3, { cmd := 9, go := 1, nonce := [7] })] } { unit := 3 }, ({ cmd := 9, go := 1, nonce := [7] } :
    Mailbox), by decide +kernel⟩

theorem witness_Attestation_1_3 : ∃ (s : State) (x : _), s.args.unit < 13 ∧ s.released = true ∧ s.mailboxes.at? s.args.unit = some x ∧ x.go
  = 1 ∧ x.cmd = 2 :=
  ⟨withArgs { base with mailboxes := [(3, { cmd := 2, go := 1, nonce := [7] })] } { unit := 3 }, ({ cmd := 2, go := 1, nonce := [7] } :
    Mailbox), by decide +kernel⟩

theorem witness_Attestation_2_go : ∃ (s : State) (r : _) (m : _) (off : _) (bs : _) (x : _), s.agenda = .mailbox m off bs :: r ∧ m < 13 ∧
  off + bs.length ≤ 0x2000 ∧ s.bootstat % 16 < 2 ∧ s.mailboxes.at? m = some x :=
  ⟨{ base with mailboxes := [(3, { cmd := 2 })], agenda := [.mailbox 3 0x1FFC [1, 0, 0, 0]] }, ([] : List Turn), 3, 0x1FFC, ([1, 0, 0, 0] :
    List Byte), ({ cmd := 2 } : Mailbox), by decide +kernel⟩

theorem witness_Attestation_2_cmd : ∃ (s : State) (r : _) (m : _) (off : _) (bs : _) (x : _), s.agenda = .mailbox m off bs :: r ∧ m < 13 ∧
  off + bs.length ≤ 0x2000 ∧ s.bootstat % 16 < 2 ∧ s.mailboxes.at? m = some x :=
  ⟨{ base with mailboxes := [(3, {})], agenda := [.mailbox 3 0x1F00 [1, 0, 0, 0]] }, ([] : List Turn), 3, 0x1F00, ([1, 0, 0, 0] : List
    Byte), ({} : Mailbox), by decide +kernel⟩

theorem witness_ControlSoftware_1 : ∃ (s : State) (p : _), s.args.unit = p ∧ p < 12 ∧ (∀ y ∈ s.blocks, y.2.part ≠ p) ∧ (∀ l ∈ s.launches,
  l.2.part = p → l.2.state = .retired) ∧ (∀ q < 12, q ≠ p → (s.part q).enabled = true → ∀ x ∈ (s.part q).sectors, s.args.word.toNat.testBit
  x = false) ∧ (s.args.word.toNat.testBit 63 = true → ∃ x < 12, s.args.word.toNat.testBit x = true) ∧ s.args.word.toNat / 2 ^ 52 % 16 ≤ 11
  :=
  ⟨withArgs { base with blocks := [], launches := [] } { unit := 2, word := 0x8020000000000802 }, 2, by decide +kernel, by decide +kernel,
    fun _ h => absurd (show _ ∈ ([] : List (Nat × Block)) from h) List.not_mem_nil,
    fun _ h => absurd (show _ ∈ ([] : List (Nat × Launch)) from h) List.not_mem_nil, by decide +kernel⟩

theorem witness_ControlSoftware_2 : ∃ (s : State), s.args.unit < 12 ∧ (∃ y ∈ s.blocks, y.2.part = s.args.unit) :=
  ⟨withArgs base { unit := 0, word := 0x8000000000000002 }, by decide +kernel⟩

theorem witness_ControlSoftware_3 : ∃ (s : State), s.args.sub = 0 ∧ (s.part s.args.unit).pendShadow = true :=
  ⟨withArgs { base with partitions := [(0, { cfg := 0xE000000000000001, pendShadow := true })] } { unit := 0, sub := 0 }, by decide +kernel⟩

theorem witness_ControlSoftware_4 : ∃ (s : State), s.args.sub = 1 ∧ (s.part s.args.unit).pendUndo = true :=
  ⟨withArgs { base with partitions := [(0, { cfg := 0xE000000000000001, pendUndo := true })] } { unit := 0, sub := 1 }, by decide +kernel⟩

theorem witness_ControlSoftware_5_id : ∃ (s : State), s.args.item % 8 = 0 ∧ s.args.item < 0x1000000 :=
  ⟨withArgs base { item := 0, word := 0x12340000 }, by decide +kernel⟩

theorem witness_ControlSoftware_5_fot : ∃ (s : State), s.args.item % 8 = 0 ∧ s.args.item < 0x1000000 :=
  ⟨withArgs base { item := 0x40, word := 0x12340000 }, by decide +kernel⟩

theorem witness_ControlSoftware_5_import : ∃ (s : State), s.args.item % 8 = 0 ∧ s.args.item < 0x1000000 :=
  ⟨withArgs base { item := 0x20000, word := 0x12340000 }, by decide +kernel⟩

theorem witness_ControlSoftware_5_importEnd : ∃ (s : State), s.args.item % 8 = 0 ∧ s.args.item < 0x1000000 :=
  ⟨withArgs base { item := 0x207F8, word := 0x12340000 }, by decide +kernel⟩

theorem witness_ControlSoftware_5_ptbase : ∃ (s : State), s.args.item % 8 = 0 ∧ s.args.item < 0x1000000 :=
  ⟨withArgs base { item := 0x10048, word := 0x12340000 }, by decide +kernel⟩

theorem witness_ControlSoftware_5_parkthr : ∃ (s : State), s.args.item % 8 = 0 ∧ s.args.item < 0x1000000 :=
  ⟨withArgs base { item := 0x100A8, word := 0x12340000 }, by decide +kernel⟩

theorem witness_ControlSoftware_5_pre : ∃ (s : State), s.args.item % 8 = 0 ∧ s.args.item < 0x1000000 :=
  ⟨withArgs base { item := 0x10030, word := 0x12340000 }, by decide +kernel⟩

theorem witness_ControlSoftware_5_last : ∃ (s : State), s.args.item % 8 = 0 ∧ s.args.item < 0x1000000 :=
  ⟨withArgs base { item := 0xFFFFF8, word := 0x12340000 }, by decide +kernel⟩

theorem witness_ControlSoftware_6 : ∃ (s : State) (g : _), s.fotGranule s.args.item = some g ∧ s.lineOpen (.agent (.ctl 0)) (homeSlice
  s.args.item 3, s.args.item / 128) = true ∧ s.visitBarred [(homeSlice s.args.item 3, s.args.item / 128)] = false :=
  ⟨withArgs { base with fotBase := 0x50000 } { item := 0x50003, word := 2 }, 3, by decide +kernel⟩

theorem witness_ControlSoftware_7 : ∃ (s : State), s.args.item ∈ s.zeroing ∧ s.granuleFree s.args.item = true :=
  ⟨withArgs { base with mem := [(0x10000, 5), (0x20000, 6)], zeroing := [1] } { item := 1 }, by decide +kernel⟩

theorem witness_ThermalAndPower_1_1 : ∃ (s : State) (h : _), s.args.unit < 12 ∧ s.args.bytes.length = 16 ∧ (∀ b ∈ s.args.bytes, b.toNat ≤ h)
  ∧ (∃ b ∈ s.args.bytes, b.toNat = h) ∧ (s.stack s.args.unit).lt1 ≤ h ∧ (s.stack s.args.unit).act1 = false :=
  ⟨withArgs { base with stackTab := [(2, { act1 := false, lt1 := 80 })] } { unit := 2, bytes := List.replicate 15 40 ++ [80] }, 80,
    by decide +kernel⟩

theorem witness_ThermalAndPower_1_2 : ∃ (s : State) (h : _), s.args.unit < 12 ∧ s.args.bytes.length = 16 ∧ (∀ b ∈ s.args.bytes, b.toNat ≤ h)
  ∧ (∃ b ∈ s.args.bytes, b.toNat = h) ∧ (s.stack s.args.unit).lt2 ≤ h ∧ (s.stack s.args.unit).act2 = false :=
  ⟨withArgs { base with stackTab := [(2, { act1 := false, lt1 := 80 })] } { unit := 2, bytes := List.replicate 15 40 ++ [110] }, 110,
    by decide +kernel⟩

theorem witness_ThermalAndPower_1_3 : ∃ (s : State) (h : _), s.args.unit < 12 ∧ s.args.bytes.length = 16 ∧ (∀ b ∈ s.args.bytes, b.toNat ≤ h)
  ∧ (∃ b ∈ s.args.bytes, b.toNat = h) ∧ (s.stack s.args.unit).lt3 ≤ h ∧ (s.stack s.args.unit).act3 = false :=
  ⟨withArgs { base with stackTab := [(2, { act1 := false, lt1 := 80 })] } { unit := 2, bytes := List.replicate 15 40 ++ [115] }, 115,
    by decide +kernel⟩

theorem witness_ThermalAndPower_1_4 : ∃ (s : State) (h : _), s.args.unit < 12 ∧ s.args.bytes.length = 16 ∧ (∀ b ∈ s.args.bytes, b.toNat ≤ h)
  ∧ (∃ b ∈ s.args.bytes, b.toNat = h) ∧ (s.stack s.args.unit).act1 = true ∧ h + 3 ≤ (s.stack s.args.unit).lt1 :=
  ⟨withArgs { base with stackTab := [(2, { act1 := true, lt1 := 80 })] } { unit := 2, bytes := List.replicate 15 40 ++ [77] }, 77,
    by decide +kernel⟩

theorem witness_ThermalAndPower_2 : ∃ (s : State), s.args.unit < 12 :=
  ⟨withArgs base { unit := 2, word := 0x73695F }, by decide +kernel⟩

theorem witness_ThermalAndPower_2_order : ∃ (s : State), s.args.unit < 12 :=
  ⟨withArgs base { unit := 2, word := 0x5F6973 }, by decide +kernel⟩

theorem witness_ThermalAndPower_3 : ∃ (s : State), s.args.unit < 4 ∧ (s.die s.args.unit).powerAt + 10000 ≤ s.clock :=
  ⟨withArgs { base with clock := 20000 } { unit := 1, word := 1300 }, by decide +kernel⟩

theorem witness_ThermalAndPower_3_low : ∃ (s : State), s.args.unit < 4 ∧ (s.die s.args.unit).powerAt + 10000 ≤ s.clock :=
  ⟨withArgs { base with clock := 20000, dies := [(1, { curClk := 2000 })] } { unit := 1, word := 700 }, by decide +kernel⟩

theorem witness_ThermalAndPower_4 : ∃ (s : State), s.args.unit < 2 ∧ s.args.bytes.length ≤ 9216 ∧ s.args.sub < 8 ∧ s.args.sub ∉
  (s.ethPorts.atD s.args.unit {}).holding :=
  ⟨withArgs base { unit := 1, bytes := [1, 2] }, by decide +kernel⟩

theorem witness_ThermalAndPower_5 : ∃ (s : State) (r : _) (n : _) (f : _) (l : _), s.agenda = .ethTake n :: r ∧ s.eth = (n, f) :: l :=
  ⟨{ base with eth := [(1, [7]), (0, [8])], agenda := [.ethTake 1] }, ([] : List Turn), 1, ([7] : List Byte), ([(0, [8])] : List (Nat × List
    Byte)), by decide +kernel⟩

theorem witness_ThermalAndPower_6 : ∃ (s : State) (r : _) (n : _) (p : _) (f : _), s.agenda = .ethSend n p f :: r ∧ n < 2 ∧ p < 8 ∧ f.length
  ≤ 9216 ∧ 1 ≤ s.bootstat / 16 % 16 :=
  ⟨{ base with agenda := [.ethSend 1 3 [7]] }, ([] : List Turn), 1, 3, ([7] : List Byte), by decide +kernel⟩

end Sys2Proof.Tests
end

section
/-!
PROOFS. Context switches (R9, R160, R256, R258, R261): the request of a stop, the stop of the deadline and the native switch-out, the
save of a stopped block and its restore. What each shared operation of a stop changes is said once; the clauses of StopSteps follow.
-/

namespace Sys2Proof.Machine

/-! ### Folds and maps -/

/-- A fold establishes `P` where one of its steps does, from states of which `I` holds, and the later steps keep it. -/
theorem foldl_establishes {α σ : Type} {f : σ → α → σ} {I P : σ → Prop} (hI : ∀ s x, I s → I (f s x)) (hP : ∀ s x, P s → P (f s x))
    {a : α} (ha : ∀ s, I s → P (f s a)) {l : List α} (hm : a ∈ l) {s : σ} (hs : I s) : P (l.foldl f s) := by
  induction l generalizing s with
  | nil => cases hm
  | cons x l ih =>
    rcases List.mem_cons.1 hm with rfl | hm
    · exact List.foldlRecOn l f (ha s hs) fun s h x _ => hP s x h
    · exact ih hm (hI s x hs)

theorem Map.mem_of_at? {κ α : Type} [DecidableEq κ] {m : Map κ α} {k : κ} {v : α} (h : m.at? k = some v) : (k, v) ∈ m := by
  induction m with
  | nil => cases h
  | cons x r ih =>
    obtain ⟨x, w⟩ := x
    by_cases hx : x = k
    · subst hx; simp [Map.at?] at h; simp [h]
    · simp only [Map.at?, hx, if_false] at h; exact List.mem_cons_of_mem _ (ih h)

/-- A map whose entries change in place: what relates every entry to its change relates the values read. -/
theorem Map.atD_map_rel {κ α : Type} [DecidableEq κ] {R : α → α → Prop} {F : κ × α → κ × α} (hF : ∀ x, (F x).1 = x.1) {k : κ} {d : α}
    (h : ∀ v, R v (F (k, v)).2) (hd : R d d) (m : Map κ α) : R (m.atD k d) (Map.atD (m.map F) k d) := by
  induction m with
  | nil => exact hd
  | cons x r ih =>
    obtain ⟨x, v⟩ := x
    have hx : F (x, v) = (x, (F (x, v)).2) := Prod.ext (hF _) rfl
    rw [List.map_cons, hx]
    by_cases e : x = k
    · subst e; simpa [Map.atD, Map.at?] using h v
    · simpa [Map.atD, Map.at?, e] using ih

/-- Where fibres change in place, what relates every fibre to its change relates the fibres read. -/
theorem fib_rel_of_map {R : Fibre → Fibre → Prop} {s t : State} {F : FKey × Fibre → FKey × Fibre} (hf : t.fibres = s.fibres.map F)
    (hk : ∀ x, (F x).1 = x.1) {k : FKey} (h : ∀ f, R f (F (k, f)).2) (hd : R { status := .free } { status := .free }) :
    R (s.fib k) (t.fib k) := by
  unfold State.fib; rw [hf]
  exact Map.atD_map_rel hk h hd _

/-! ### Memory and registers that stay -/

theorem SameMemory.refl (s : State) : SameMemory s s := ⟨rfl, rfl, rfl, rfl, rfl⟩
theorem SameMemory.trans {s t u : State} (h : SameMemory s t) (h' : SameMemory t u) : SameMemory s u := by
  obtain ⟨a, b, c, d, e⟩ := h
  obtain ⟨a', b', c', d', e'⟩ := h'
  exact ⟨a'.trans a, b'.trans b, c'.trans c, d'.trans d, e'.trans e⟩
theorem RegsOnly.sameMemory {s t : State} (h : RegsOnly s t) : SameMemory s t := by rw [h]; exact .refl s
theorem RegsOnly.block {s t : State} (h : RegsOnly s t) (b : Nat) : t.block b = s.block b := by rw [h]; rfl

theorem SameRegs.trans {s t u : State} {k : FKey} (h : SameRegs s t k) (h' : SameRegs t u k) : SameRegs s u k := by
  obtain ⟨a, b, c, d⟩ := h
  obtain ⟨a', b', c', d'⟩ := h'
  exact ⟨a'.trans a, b'.trans b, c'.trans c, d'.trans d⟩

theorem block_of_at? {s : State} {b : Nat} {x : Block} (h : s.blocks.at? b = some x) : s.block b = x := by
  simp [State.block, Map.atD, h]

/-! ### The request of a stop (R258) -/

/-- The stop state that a request for `why` makes of another: it reaches running blocks only. -/
def StopPhase.ask (why : StopWhy) (now : Nat) : StopPhase → StopPhase
  | .running => .requested why now
  | p => p

theorem StopPhase.ask_ask (why : StopWhy) (now : Nat) (p : StopPhase) : (p.ask why now).ask why now = p.ask why now := by cases p <;> rfl

/-- The update of a block in requestStop. -/
theorem ask_stop (why : StopWhy) (now : Nat) (x : Block) :
    (if x.stop = .running then { x with stop := .requested why now } else x).stop = x.stop.ask why now := by
  split
  · next h => rw [h]; rfl
  · next h =>
    cases hx : x.stop with
    | running => exact absurd hx h
    | requested | stopped | saved => rfl

/-- Only the records of blocks change. -/
def BlocksOnly (s t : State) : Prop := t = { s with blocks := t.blocks }

theorem BlocksOnly.refl (s : State) : BlocksOnly s s := rfl
theorem BlocksOnly.trans {s t u : State} (h : BlocksOnly s t) (h' : BlocksOnly t u) : BlocksOnly s u := by
  unfold BlocksOnly at *; rw [h', h]

theorem blocksOnly_requestStop (s : State) (why : StopWhy) (a : Nat) : BlocksOnly s (s.requestStop why a) := by
  unfold State.requestStop; dsimp only; split
  · split <;> rfl
  · rfl

/-- An update that asks a block to stop leaves every stop state as it was, or asked. -/
theorem updBlock_stop_ask {f : Block → Block} {why : StopWhy} {now : Nat} (hf : ∀ x, (f x).stop = x.stop.ask why now) (s : State) (a b : Nat) :
    ((s.updBlock a f).block b).stop = if b = a then (s.block b).stop.ask why now else (s.block b).stop := by
  by_cases h : b = a
  · subst h; simp [hf]
  · simp [h, State.updBlock_block_ne s f h]

theorem requestStop_stop (s : State) (why : StopWhy) (a b : Nat) :
    ((s.requestStop why a).block b).stop = (s.block b).stop ∨ ((s.requestStop why a).block b).stop = (s.block b).stop.ask why s.clock := by
  have hf := fun x => ask_stop why s.clock x
  unfold State.requestStop; dsimp only; split
  · split
    · simp only [updBlock_stop_ask hf]
      split <;> split <;> simp [StopPhase.ask_ask]
    · simp only [updBlock_stop_ask hf]; split <;> simp
  · simp only [updBlock_stop_ask hf]; split <;> simp

theorem requestStop_stop_same (s : State) (why : StopWhy) (b : Nat) :
    ((s.requestStop why b).block b).stop = (s.block b).stop.ask why s.clock := by
  have hf := fun x => ask_stop why s.clock x
  unfold State.requestStop; dsimp only; split
  · split
    · simp only [updBlock_stop_ask hf, if_true]
      split <;> simp [StopPhase.ask_ask]
    · simp only [updBlock_stop_ask hf, if_true]
  · simp only [updBlock_stop_ask hf, if_true]

/-- Every block that runs, of a list whose stop is requested, has its stop requested at the time of the request. -/
theorem requestStops_stop {s : State} {why : StopWhy} {b : Nat} {bs : List Nat} (hb : b ∈ bs) (hr : (s.block b).stop = .running) :
    ((bs.foldl (fun s b => s.requestStop why b) s).block b).stop = .requested why s.clock := by
  have clock : ∀ (t : State) a, (t.requestStop why a).clock = t.clock := fun t a => by rw [blocksOnly_requestStop t why a]
  refine And.right (foldl_establishes
    (I := fun t : State => t.clock = s.clock ∧ ((t.block b).stop = .running ∨ (t.block b).stop = .requested why s.clock))
    (P := fun t : State => t.clock = s.clock ∧ (t.block b).stop = .requested why s.clock) ?_ ?_ ?_ hb ⟨rfl, .inl hr⟩)
  · rintro t a ⟨hc, h⟩
    refine ⟨(clock t a).trans hc, ?_⟩
    rcases requestStop_stop t why a b with e | e <;> rcases h with h | h <;> simp [e, h, hc, StopPhase.ask]
  · rintro t a ⟨hc, h⟩
    refine ⟨(clock t a).trans hc, ?_⟩
    rcases requestStop_stop t why a b with e | e <;> simp [e, h, StopPhase.ask]
  · rintro t ⟨hc, h⟩
    refine ⟨(clock t b).trans hc, ?_⟩
    rw [requestStop_stop_same]
    rcases h with h | h <;> simp [h, hc, StopPhase.ask]

/-- R258: a context switch requests the stop of every running block of its partition. -/
theorem contextSwitchRequest_next {s : State} (he : (s.part s.args.unit).enabled = true) (hsh : (s.part s.args.unit).shadow = true)
    (hp : (s.part s.args.unit).pendShadow = false) (hl : s.stopsLeft s.args.unit = true ∨ s.looseLoads s.args.unit = false) :
    ∃ t, exec .contextSwitchRequest s = .next t ∧ SameMemory s t ∧ t.fibres = s.fibres ∧ t.pipes = s.pipes ∧
      ∀ b x, s.blocks.at? b = some x → x.part = s.args.unit → x.stop = .running → (t.block b).stop = .requested .switch s.clock := by
  have go : (!((s.part s.args.unit).enabled && (s.part s.args.unit).shadow && !(s.part s.args.unit).pendShadow) ||
      (!s.stopsLeft s.args.unit && s.looseLoads s.args.unit)) = false := by
    rcases hl with h | h <;> simp [he, hsh, hp, h]
  show ∃ t, execContextSwitchRequest s = .next t ∧ _
  unfold execContextSwitchRequest
  dsimp only
  rw [if_neg (by rw [go]; decide)]
  generalize hbs : (s.blocks.filter fun b => decide (b.2.part = s.args.unit ∧ b.2.stop = .running)).map (·.1) = bs
  have h1 : BlocksOnly s (bs.foldl (fun s b => s.requestStop .switch b) s) :=
    foldl_rel BlocksOnly.refl BlocksOnly.trans (fun s b => blocksOnly_requestStop s .switch b) bs s
  have stops : ∀ b x, s.blocks.at? b = some x → x.part = s.args.unit → x.stop = .running →
      ((bs.foldl (fun s b => s.requestStop .switch b) s).block b).stop = .requested .switch s.clock := fun b x hx hpart hrun =>
    requestStops_stop (by
      rw [← hbs]
      exact List.mem_map.2 ⟨(b, x), List.mem_filter.2 ⟨Map.mem_of_at? hx, by simp [hpart, hrun]⟩, rfl⟩) (by rw [block_of_at? hx, hrun])
  generalize bs.foldl (fun s b => s.requestStop .switch b) s = s1 at h1 stops
  have memory : SameMemory s s1 := by rw [h1]; exact .refl s
  have fibres : s1.fibres = s.fibres := by rw [h1]
  have pipes : s1.pipes = s.pipes := by rw [h1]
  refine ⟨_, rfl, ?_⟩
  split <;> exact ⟨memory, fibres, pipes, stops⟩

/-! ### The stop of the deadline (R9, R258) -/

/-- Fibres leave the words whose pops they wait to perform: registers become full, and nothing else of them changes. -/
structure Unpopped (s t : State) : Prop where
  regs : RegsOnly s t
  fib : ∀ k, t.fib k = { s.fib k with regs := (t.fib k).regs, pop := (t.fib k).pop }

theorem Unpopped.refl (s : State) : Unpopped s s := ⟨.refl s, fun _ => rfl⟩
theorem Unpopped.trans {s t u : State} (h : Unpopped s t) (h' : Unpopped t u) : Unpopped s u :=
  ⟨h.regs.trans h'.regs, fun k => by rw [h'.fib k, h.fib k]⟩

theorem unpopped_updFib (s : State) (k : FKey) (f : Fibre → Fibre)
    (h : f (s.fib k) = { s.fib k with regs := (f (s.fib k)).regs, pop := (f (s.fib k)).pop }) : Unpopped s (s.updFib k f) :=
  ⟨rfl, fun k' => by
    by_cases e : k' = k
    · subst e; simpa using h
    · rw [State.updFib_fib_ne s f e]⟩

theorem unpopped_setFull (s : State) (k : FKey) (r : Reg) (b : Bool) : Unpopped s (s.setFull k r b) := by
  unfold State.setFull; split
  · dsimp only; split
    · exact unpopped_updFib s k (fun f => { f with regs := _ }) rfl
    · exact .refl s
  · exact ⟨rfl, fun _ => rfl⟩
  · exact .refl s

theorem unpopped_unpop (s : State) (k : FKey) : Unpopped s (s.unpop k) := by
  unfold State.unpop; split
  · exact (unpopped_setFull _ _ _ _).trans (unpopped_updFib _ _ _ rfl)
  · exact .refl s

/-- Coaches that leave their pipes: which ones stay, and what it does to fibres. -/
theorem dropCoaches_law (s : State) (b : Nat) (keep : Coach → Bool) :
    ∃ u, Unpopped s u ∧ s.dropCoaches b keep = { u with pipes := s.pipes.filter fun p => !(decide (p.2.block = b) && !keep p.2) } := by
  have h : Unpopped s (s.pipes.foldl (fun s p => if decide (p.2.block = b) && !keep p.2 then
      p.2.members.foldl (fun s n => s.unpop (.fib b n)) s else s) s) :=
    foldl_rel Unpopped.refl Unpopped.trans (fun s p => by
      split
      · exact foldl_rel Unpopped.refl Unpopped.trans (fun s n => unpopped_unpop s _) _ s
      · exact .refl s) s.pipes s
  refine ⟨_, h, ?_⟩
  have hp : (s.pipes.foldl (fun s p => if decide (p.2.block = b) && !keep p.2 then
      p.2.members.foldl (fun s n => s.unpop (.fib b n)) s else s) s).pipes = s.pipes := by rw [h.regs]
  unfold State.dropCoaches
  dsimp only
  rw [hp]

/-- What the stop of the deadline does to the machine: memory, PCs and predicates stay, the block is stopped, and of its coaches only
those stay that have begun their run. -/
structure HaltsBlock (s t : State) (why : StopWhy) (b : Nat) : Prop where
  memory : SameMemory s t
  fib : ∀ k, (t.fib k).pc = (s.fib k).pc ∧ (t.fib k).p = (s.fib k).p
  stop : (t.block b).stop = .stopped why true
  others : ∀ x, x ≠ b → t.block x = s.block x
  begun : ∀ p ∈ t.pipes, p.2.block = b → p.2.run ≠ 0 ∨ p.2.served ≠ []

theorem stopDeadline_halts (s : State) (why : StopWhy) (b : Nat) : HaltsBlock s (s.stopDeadline why b) why b := by
  obtain ⟨u, hu, e⟩ := dropCoaches_law s b fun c => decide (c.run ≠ 0) || decide (c.served ≠ [])
  unfold State.stopDeadline
  dsimp only
  rw [e]
  refine ⟨?_, fun k => ?_, by simp, fun x hx => ?_, fun p hp hb => ?_⟩
  · exact hu.regs.sameMemory
  · show (u.fib k).pc = _ ∧ (u.fib k).p = _
    rw [hu.fib k]; exact ⟨rfl, rfl⟩
  · rw [State.updBlock_block_ne _ _ hx]; exact hu.regs.block x
  · have hp := (List.mem_filter.1 hp).2
    simpa [hb, or_iff_not_imp_left] using hp

/-- R258: STOP_DEADLINE stops a block whose stop was requested PREDEADLINE ago. -/
theorem stopDeadline_next {s : State} {why : StopWhy} {t0 : Nat} (hs : (s.block s.args.item).stop = .requested why t0)
    (ht : (s.block s.args.item).twin = none) (hd : t0 + (s.part (s.block s.args.item).part).predeadline ≤ s.clock) :
    exec .stopDeadline s = .next (s.stopDeadline why s.args.item) := by
  show execStopDeadline s = _
  have h : s.deadlinePassed s.args.item = some why := by simp [State.deadlinePassed, hs, hd]
  simp [execStopDeadline, h, ht]

/-- R256: NATIVE_SWITCH_OUT stops every block of its partition that runs or is asked to stop. -/
theorem nativeSwitchOut_next {s : State} {t0 : Nat} (ho : (s.part s.args.unit).overSince = some t0) (hc : t0 + 2000 < s.clock)
    (hth : s.overThreshold s.args.unit = true) :
    ∃ t, exec .nativeSwitchOut s = .next t ∧ SameMemory s t ∧
      ∀ b x, s.blocks.at? b = some x → x.part = s.args.unit → x.active = true → (t.block b).stop = .stopped .faults true := by
  show ∃ t, execNativeSwitchOut s = .next t ∧ _
  unfold execNativeSwitchOut
  simp only [ho, hth, hc, decide_true, Bool.and_self, if_true]
  refine ⟨_, rfl, ?_, fun b x hx hp ha => ?_⟩
  · exact SameMemory.trans (.refl s)
      (foldl_rel SameMemory.refl SameMemory.trans (fun s b => (stopDeadline_halts s .faults b).memory) _
        (s.updPart s.args.unit fun x => { x with switching := true }))
  · have mem : b ∈ (s.blocks.filter fun b => decide (b.2.part = s.args.unit) && b.2.active).map (·.1) :=
      List.mem_map.2 ⟨(b, x), List.mem_filter.2 ⟨Map.mem_of_at? hx, by simp [hp, ha]⟩, rfl⟩
    refine foldl_establishes (I := fun _ => True) (P := fun t : State => (t.block b).stop = .stopped .faults true) (fun _ _ _ => trivial)
      (fun t a h => ?_) (fun t _ => (stopDeadline_halts t .faults b).stop) mem trivial
    by_cases e : b = a
    · subst e; exact (stopDeadline_halts t .faults b).stop
    · rw [(stopDeadline_halts t .faults a).others b e]; exact h

/-! ### Grants of the matrix engine (R330, R331) -/

theorem regsOnly_resumeAll (s : State) (ks : List FKey) : RegsOnly s (s.resumeAll ks) :=
  foldl_rel RegsOnly.refl RegsOnly.trans (fun _ _ => regsOnly_updFib _ _ _) ks s

theorem resumeAll_fib_of_not_mem (s : State) {ks : List FKey} {k : FKey} (h : k ∉ ks) : (s.resumeAll ks).fib k = s.fib k :=
  List.foldlRecOn (motive := fun t : State => t.fib k = s.fib k) ks _ rfl fun t ht x hx =>
    (State.updFib_fib_ne t _ fun e : k = x => h (by rwa [e])).trans ht

theorem sameRegs_resumeAll (s : State) (ks : List FKey) (k : FKey) : SameRegs s (s.resumeAll ks) k :=
  foldl_rel (R := fun s t => SameRegs s t k) (fun _ => ⟨rfl, rfl, rfl, rfl⟩) SameRegs.trans (fun s x => by
    by_cases e : k = x
    · subst e; simp [SameRegs, State.resume]
    · simp [SameRegs, State.resume, State.updFib_fib_ne s _ e]) ks s

/-- Of a fibre only the time since which it is ready and its places in queues change. -/
def PlaceOnly (f g : Fibre) : Prop := g = { f with readySince := g.readySince, cursor := g.cursor }

theorem PlaceOnly.refl (f : Fibre) : PlaceOnly f f := rfl
theorem PlaceOnly.trans {f g h : Fibre} (a : PlaceOnly f g) (b : PlaceOnly g h) : PlaceOnly f h := by
  unfold PlaceOnly at *; rw [b, a]
theorem PlaceOnly.wait {f g : Fibre} (h : PlaceOnly f g) : g.wait = f.wait := by rw [h]
theorem PlaceOnly.pc {f g : Fibre} (h : PlaceOnly f g) : g.pc = f.pc := by rw [h]
theorem PlaceOnly.sameRegs {s t : State} {k : FKey} (h : PlaceOnly (s.fib k) (t.fib k)) : SameRegs s t k := by
  unfold SameRegs; rw [h]; exact ⟨rfl, rfl, rfl, rfl⟩

/-- Fibres of a gang whose time of readiness is noted again. -/
def State.readyAgain (s : State) (g : Nat × Nat) (now : Nat) (ns : List Nat) : State :=
  ns.foldl (fun s n => s.updFib (.fib g.1 n) fun f => { f with readySince := now }) s

theorem regsOnly_readyAgain (s : State) (g : Nat × Nat) (now : Nat) (ns : List Nat) : RegsOnly s (s.readyAgain g now ns) :=
  foldl_rel RegsOnly.refl RegsOnly.trans (fun _ _ => regsOnly_updFib _ _ _) ns s

theorem readyAgain_cores (s : State) (g : Nat × Nat) (now : Nat) (ns : List Nat) : (s.readyAgain g now ns).cores = s.cores :=
  List.foldlRecOn (motive := fun t : State => t.cores = s.cores) ns _ rfl fun _ ht _ _ => ht

theorem placeOnly_readyAgain (s : State) (g : Nat × Nat) (now : Nat) (ns : List Nat) (k : FKey) :
    PlaceOnly (s.fib k) ((s.readyAgain g now ns).fib k) :=
  foldl_rel (R := fun s t : State => PlaceOnly (s.fib k) (t.fib k)) (fun _ => .refl _) PlaceOnly.trans (fun s n => by
    by_cases e : k = .fib g.1 n
    · subst e; simp [PlaceOnly]
    · rw [State.updFib_fib_ne s _ e]; exact .refl _) ns s

theorem readyAgain_fib_of_other (s : State) {g : Nat × Nat} (now : Nat) (ns : List Nat) {b n : Nat} (h : b ≠ g.1) :
    (s.readyAgain g now ns).fib (.fib b n) = s.fib (.fib b n) :=
  foldl_rel (R := fun s t : State => t.fib (.fib b n) = s.fib (.fib b n)) (fun _ => rfl) (fun a a' => a'.trans a) (fun s m =>
    State.updFib_fib_ne s _ (by simp [h])) ns s

/-- What the wake of a gang does: fibres that waited for the matrix engine go on, and no register changes. -/
structure Wakes (s t : State) : Prop where
  regs : RegsOnly s t
  sameRegs : ∀ k, SameRegs s t k
  pc : ∀ k, (∀ p, (s.fib k).wait ≠ .mxacq p) → (t.fib k).pc = (s.fib k).pc

/-- A wake is a note of times, the end of the gang's hold, and the resumption of those of its fibres that wait for the engine. -/
theorem wakeOwner_eq (s : State) (g : Nat × Nat) : ∃ now ns ks,
    (∀ k ∈ ks, (∃ n, k = .fib g.1 n) ∧ ∃ p, ((s.readyAgain g now ns).fib k).wait = .mxacq p) ∧
    s.wakeOwner g = ((s.readyAgain g now ns).updGang g fun x => { x with held := false }).resumeAll ks := by
  have parts : ∀ u : State, ∀ k ∈ ((u.gangParts g).map (·.2)).filter fun k => (match (u.fib k).wait with | .mxacq _ => true | _ => false),
      (∃ n, k = .fib g.1 n) ∧ ∃ p, (u.fib k).wait = .mxacq p := fun u k hk => by
    obtain ⟨hk, hw⟩ := List.mem_filter.1 hk
    refine ⟨?_, ?_⟩
    · obtain ⟨x, hx, rfl⟩ := List.mem_map.1 hk
      obtain ⟨n, -, rfl⟩ := List.mem_map.1 hx
      exact ⟨n, rfl⟩
    · split at hw
      · next p hp => exact ⟨p, hp⟩
      · cases hw
  unfold State.wakeOwner
  dsimp only
  by_cases hh : (s.gang g).held = true
  · rw [if_pos hh]
    exact ⟨_, _, _, parts _, rfl⟩
  · rw [if_neg hh]
    exact ⟨0, [], _, parts _, rfl⟩

theorem wakes_wakeOwner (s : State) (g : Nat × Nat) : Wakes s (s.wakeOwner g) := by
  obtain ⟨now, ns, ks, hks, e⟩ := wakeOwner_eq s g
  rw [e]
  have place := placeOnly_readyAgain s g now ns
  refine ⟨?_, fun k => ?_, fun k hk => ?_⟩
  · exact ((regsOnly_readyAgain s g now ns).trans (regsOnly_updGang _ _ _)).trans (regsOnly_resumeAll _ _)
  · exact (place k).sameRegs.trans (sameRegs_resumeAll _ _ _)
  · have hn : k ∉ ks := fun h => by
      obtain ⟨p, hp⟩ := (hks k h).2
      exact hk p ((place k).wait.symm.trans hp)
    rw [resumeAll_fib_of_not_mem _ hn]
    exact (place k).pc

theorem wakeOwner_fib_of_other (s : State) {g : Nat × Nat} {b n : Nat} (h : b ≠ g.1) : (s.wakeOwner g).fib (.fib b n) = s.fib (.fib b n) := by
  obtain ⟨now, ns, ks, hks, e⟩ := wakeOwner_eq s g
  have hn : FKey.fib b n ∉ ks := fun hm => by
    obtain ⟨m, hm⟩ := (hks _ hm).1
    exact h (FKey.fib.inj hm).1
  rw [e, resumeAll_fib_of_not_mem _ hn]
  exact readyAgain_fib_of_other s now ns h

theorem wakeOwner_cores (s : State) (g : Nat × Nat) : (s.wakeOwner g).cores = s.cores := by
  obtain ⟨now, ns, ks, -, e⟩ := wakeOwner_eq s g
  have resume : ∀ u : State, (u.resumeAll ks).cores = u.cores := fun u =>
    List.foldlRecOn (motive := fun t : State => t.cores = u.cores) ks _ rfl fun _ ht _ _ => ht
  rw [e, resume]
  exact readyAgain_cores s g now ns

/-- Gangs leave the owner queues of cores, and none enters. -/
def Shortens (s t : State) : Prop := ∀ c, ∀ q ∈ (t.core c).mxq, q ∈ (s.core c).mxq

theorem shortens_updCore (s : State) (c : Nat) {f : Core → Core} (h : ∀ x, ∀ q ∈ (f x).mxq, q ∈ x.mxq) : Shortens s (s.updCore c f) :=
  fun c' q hq => by
    by_cases e : c' = c
    · subst e; rw [State.updCore_core_same] at hq; exact h _ q hq
    · rwa [State.updCore_core_ne s f e] at hq

/-- What a grant can do: nothing, or its queue's head becomes the owner and is woken. -/
theorem grant_cases (s : State) (c : Nat) : s.grant c = s ∨ ∃ g p u,
    (g, p) ∈ (s.core c).mxq ∧ RegsOnly s u ∧ u.fibres = s.fibres ∧ Shortens s u ∧ s.grant c = u.wakeOwner g := by
  have drop : ∀ (x : Core), ∀ q ∈ x.mxq.drop 1, q ∈ x.mxq := fun x q => List.mem_of_mem_drop
  unfold State.grant
  split
  · next g _ h =>
    exact .inr ⟨g, false, _, List.mem_of_mem_head? h, regsOnly_updCore _ _ _, rfl, shortens_updCore _ _ drop, rfl⟩
  · next g _ h =>
    dsimp only
    split
    · exact .inr ⟨g, true, _, List.mem_of_mem_head? h, (regsOnly_updCore _ _ _).trans (regsOnly_updCore _ _ _), rfl,
        fun c' q hq => shortens_updCore _ _ drop c' q (shortens_updCore _ _ drop c' q hq), rfl⟩
    · exact .inl rfl
  · exact .inl rfl

theorem wakes_grant (s : State) (c : Nat) : Wakes s (s.grant c) := by
  rcases grant_cases s c with e | ⟨g, p, u, -, hu, hf, -, e⟩
  · rw [e]; exact ⟨.refl s, fun _ => ⟨rfl, rfl, rfl, rfl⟩, fun _ _ => rfl⟩
  · rw [e]
    have fib : ∀ k, u.fib k = s.fib k := fun k => by unfold State.fib; rw [hf]
    obtain ⟨regs, same, pc⟩ := wakes_wakeOwner u g
    refine ⟨hu.trans regs, fun k => ?_, fun k hk => ?_⟩
    · have h := same k; unfold SameRegs at *; rwa [fib k] at h
    · rw [← fib k]; exact pc k (by rwa [fib k])

theorem shortens_grant (s : State) (c : Nat) : Shortens s (s.grant c) := by
  rcases grant_cases s c with e | ⟨g, p, u, -, -, -, hs, e⟩
  · rw [e]; exact fun _ _ => id
  · rw [e]
    intro c' q hq
    unfold State.core at hq
    rw [wakeOwner_cores] at hq
    exact hs c' q hq

/-- A grant leaves the fibres of a block alone none of whose gangs waits in the core's queue. -/
theorem grant_fib_of_absent (s : State) {c b : Nat} (n : Nat) (h : ∀ q ∈ (s.core c).mxq, q.1.1 ≠ b) :
    (s.grant c).fib (.fib b n) = s.fib (.fib b n) := by
  rcases grant_cases s c with e | ⟨g, p, u, hm, -, hf, -, e⟩
  · rw [e]
  · rw [e, wakeOwner_fib_of_other u (h _ hm).symm]
    unfold State.fib; rw [hf]

theorem regsOnly_releaseBlock (s : State) (b : Nat) : RegsOnly s (s.releaseBlock b) :=
  (((regsOnly_updCore _ _ _).trans (regsOnly_updCore _ _ _)).trans (wakes_grant _ _).regs).trans (wakes_grant _ _).regs

/-- A block that leaves the owner queues keeps its fibres as they are: only gangs of other blocks are granted. -/
theorem releaseBlock_fib (s : State) (b n : Nat) : (s.releaseBlock b).fib (.fib b n) = s.fib (.fib b n) := by
  unfold State.releaseBlock
  extract_lets c p drop
  have gone : ∀ x, ∀ q ∈ (drop x).mxq, q.1.1 ≠ b := fun x q hq => by simpa using (List.mem_filter.1 hq).2
  have fewer : ∀ x, ∀ q ∈ (drop x).mxq, q ∈ x.mxq := fun x q hq => (List.mem_filter.1 hq).1
  have at_p : ∀ q ∈ (((s.updCore c drop).updCore p drop).core p).mxq, q.1.1 ≠ b := by
    rw [State.updCore_core_same]; exact gone _
  have at_c : ∀ q ∈ (((s.updCore c drop).updCore p drop).core c).mxq, q.1.1 ≠ b := fun q hq => by
    have h := shortens_updCore _ p fewer c q hq
    rw [State.updCore_core_same] at h
    exact gone _ q h
  rw [grant_fib_of_absent _ n fun q hq => at_p q (shortens_grant _ c p q hq), grant_fib_of_absent _ n at_c]
  rfl

/-! ### The save of a stopped block (R258, R261, R327) -/

/-- Only carriages, their source ranges, partitions and launches change. -/
def CarriagesOnly (s t : State) : Prop :=
  t = { s with carriages := t.carriages, dies := t.dies, partitions := t.partitions, launches := t.launches }

theorem CarriagesOnly.refl (s : State) : CarriagesOnly s s := rfl
theorem CarriagesOnly.trans {s t u : State} (h : CarriagesOnly s t) (h' : CarriagesOnly t u) : CarriagesOnly s u := by
  unfold CarriagesOnly at *; rw [h', h]

theorem CarriagesOnly.mem {s t : State} (h : CarriagesOnly s t) : t.mem = s.mem := by rw [h]
theorem CarriagesOnly.scratch {s t : State} (h : CarriagesOnly s t) : t.scratch = s.scratch := by rw [h]
theorem CarriagesOnly.block {s t : State} (h : CarriagesOnly s t) (b : Nat) : t.block b = s.block b := by rw [h]; rfl
theorem CarriagesOnly.fib {s t : State} (h : CarriagesOnly s t) (k : FKey) : t.fib k = s.fib k := by rw [h]; rfl

theorem carriagesOnly_stopCarriages (s : State) (h : Option Nat) (p : Nat) : CarriagesOnly s (s.stopCarriages h p) := rfl
theorem carriagesOnly_stopLoose (s : State) (p : Nat) : CarriagesOnly s (s.stopLoose p) := rfl
theorem carriagesOnly_unpause (s : State) (p : Nat) : CarriagesOnly s (s.unpause p) := rfl

@[simp] theorem dropTrolley_mem (s : State) (p : TrolleyOp → Bool) : (s.dropTrolley p).mem = s.mem := rfl
@[simp] theorem dropTrolley_scratch (s : State) (p : TrolleyOp → Bool) : (s.dropTrolley p).scratch = s.scratch := rfl
@[simp] theorem dropTrolley_fib (s : State) (p : TrolleyOp → Bool) (k : FKey) : (s.dropTrolley p).fib k = s.fib k := rfl

theorem regsOnly_dropAgent (s : State) (k : FKey) (c : Nat) (f : Core → Core) :
    RegsOnly s (({ s with fibres := s.fibres.del k } : State).updCore c f) := rfl
theorem dropAgent_fib_ne (s : State) (c : Nat) (f : Core → Core) {k k' : FKey} (h : k' ≠ k) :
    (({ s with fibres := s.fibres.del k } : State).updCore c f).fib k' = s.fib k' := by
  simp only [State.fib, Map.atD, State.updCore_fibres, Map.at?_del_ne _ h]

/-- An image that spills changes memory in the save area of its partition only (R261). -/
theorem spillImage_read (s : State) (p n : Nat) {a : Nat} (h : a < (s.saveArea p).1 ∨ (s.saveArea p).1 + (s.saveArea p).2 ≤ a) :
    (s.spillImage p n).mem.read a = s.mem.read a := by
  unfold State.spillImage
  split
  next lo m e =>
  rw [e] at h
  split
  · rfl
  · exact Memory.read_writeBytes_of_outside _ _ _ (by simpa using h)

theorem spillImage_scratch (s : State) (p n : Nat) : (s.spillImage p n).scratch = s.scratch := by
  unfold State.spillImage
  dsimp only
  split
  · rfl
  · exact (quiet_markCarriages s _ _).scratch

theorem spillImage_fibres (s : State) (p n : Nat) : (s.spillImage p n).fibres = s.fibres := by
  unfold State.spillImage State.markCarriages
  dsimp only
  split
  · rfl
  · split <;> rfl

/-- The save of a block, in its order: its gangs leave the owner queues and its image may spill, which decides memory and scratchpads;
then its fibres are put as they will come back, after the deadline each as it stands; then its record notes the image. What follows
concerns carriages and launches. -/
theorem saveBlock_law (s : State) (b : Nat) (why : StopWhy) (d : Bool) : ∃ (n : Nat) (u : State) (im : Image),
    CarriagesOnly (u.updBlock b fun y => { y with stop := .saved why, image := im, units := [] }) (s.saveBlock b why d) ∧
    u.mem = ((s.releaseBlock b).spillImage (s.block b).part n).mem ∧ u.scratch = ((s.releaseBlock b).spillImage (s.block b).part n).scratch ∧
    (d = true → ∀ m, u.fib (.fib b m) = (((s.releaseBlock b).spillImage (s.block b).part n).fib (.fib b m)).saved) := by
  unfold State.saveBlock
  extract_lets x c sp own again used regs size bytes s1 s2 s3
  rcases s.saveScratch b sp with ⟨mem, poison⟩
  dsimp -zeta only
  extract_lets im s4 s5 s6
  have h1 : VeilOnly ((s.releaseBlock b).spillImage x.part (size - bytes)) s1 := veilOnly_forget _ _
  have mem3 : s3.mem = s1.mem := by simp only [s3, s2, State.updCore_mem, dropTrolley_mem]
  have scratch3 : s3.scratch = s1.scratch := by simp only [s3, s2, State.updCore_scratch, dropTrolley_scratch]
  have ap : RegsOnly s3 s4 ∧ ∀ m, s4.fib (.fib b m) = s3.fib (.fib b m) := by
    simp only [s4]; split
    · exact ⟨regsOnly_dropAgent _ _ _ _, fun m => dropAgent_fib_ne _ _ _ nofun⟩
    · exact ⟨.refl _, fun _ => rfl⟩
  obtain ⟨regs4, fib4⟩ := ap
  obtain ⟨mem4, scratch4, -⟩ := regs4.sameMemory
  refine ⟨size - bytes, s4, im, ?_, (mem4.trans mem3).trans h1.mem, (scratch4.trans scratch3).trans h1.scratch, fun hd m => ?_⟩
  · have h5 : CarriagesOnly (s4.updBlock b fun y => { y with stop := .saved why, image := im, units := [] }) s5 :=
      carriagesOnly_stopCarriages _ _ _
    have h6 : CarriagesOnly s5 s6 := by
      simp only [s6]; split
      · exact carriagesOnly_stopLoose _ _
      · exact .refl _
    exact (h5.trans h6).trans (carriagesOnly_unpause _ _)
  · have h3 : s3.fib (.fib b m) = s2.fib (.fib b m) := (State.updCore_fib _ _ _ _).trans (dropTrolley_fib _ _ _)
    have h2 : s2.fib (.fib b m) = (s1.fib (.fib b m)).saved := by
      refine fib_rel_of_map (R := fun f g => g = f.saved) (s := s1) (t := s2) rfl ?_ ?_ rfl
      · rintro ⟨k, f⟩; dsimp only; split
        · split <;> rfl
        · rfl
      · intro f; simp [hd]
    rw [fib4 m, h3, h2, h1.fib]

/-- BLOCK_SAVE saves a block that has stopped for a save, once its coaches and engines are done with it. -/
theorem blockSave_next {s : State} {why : StopWhy} {d : Bool} (hs : (s.block s.args.item).stop = .stopped why d) (hw : why ≠ .rollback)
    (ht : (s.block s.args.item).twin = none) (hc : s.noCoach s.args.item = true) (he : s.enginesQuiet s.args.item = true)
    (hl : s.looseLoads (s.block s.args.item).part = false) : exec .blockSave s = .next (s.saveBlock s.args.item why d) := by
  show execBlockSave s = _
  have halted : (s.block s.args.item).halted = true := by
    unfold Block.halted
    rw [hs]
    cases why with
    | rollback => exact absurd rfl hw
    | preempt | switch | faults => rfl
  simp [execBlockSave, hs, ht, halted, hc, he, hl]

/-- R258, R261: a saved block has its image noted; memory keeps every byte outside its partition's save area, scratchpads every byte,
and after the deadline its fibres stand as they will come back. -/
theorem saveBlock_saves (s : State) (b : Nat) (why : StopWhy) (d : Bool) :
    (s.saveBlock b why d).scratch = s.scratch ∧ ((s.saveBlock b why d).block b).stop = .saved why ∧
      (∀ a, a < (s.saveArea (s.block b).part).1 ∨ (s.saveArea (s.block b).part).1 + (s.saveArea (s.block b).part).2 ≤ a →
        (s.saveBlock b why d).mem.read a = s.mem.read a) ∧
      ((s.saveBlock b why d).block b).units = [] ∧ (d = true → ∀ n, (s.saveBlock b why d).fib (.fib b n) = (s.fib (.fib b n)).saved) := by
  obtain ⟨n, u, im, hc, hm, hsc, hf⟩ := saveBlock_law s b why d
  have hr := regsOnly_releaseBlock s b
  have area : (s.releaseBlock b).saveArea (s.block b).part = s.saveArea (s.block b).part := by rw [hr]; rfl
  have block : (s.saveBlock b why d).block b = { u.block b with stop := .saved why, image := im, units := [] } := by
    rw [hc.block, State.updBlock_block_same]
  refine ⟨?_, by rw [block], fun a ha => ?_, by rw [block], fun hd m => ?_⟩
  · rw [hc.scratch, State.updBlock_scratch, hsc, spillImage_scratch, hr]
  · rw [hc.mem, State.updBlock_mem, hm, spillImage_read _ _ _ (by rwa [area]), hr]
  · rw [hc.fib, State.updBlock_fib, hf hd m]
    unfold State.fib
    rw [spillImage_fibres]
    exact congrArg Fibre.saved (releaseBlock_fib s b m)

/-! ### The restore of a saved block (R160, R211, R261, R328, R331) -/

/-- Memory and the records of blocks stay, and of a block's fibres all but their times and their places in queues. -/
structure KeepsBlock (b : Nat) (s t : State) : Prop where
  mem : t.mem = s.mem
  blocks : t.blocks = s.blocks
  fib : ∀ n, PlaceOnly (s.fib (.fib b n)) (t.fib (.fib b n))

theorem KeepsBlock.refl {b : Nat} (s : State) : KeepsBlock b s s := ⟨rfl, rfl, fun _ => .refl _⟩
theorem KeepsBlock.trans {b : Nat} {s t u : State} (h : KeepsBlock b s t) (h' : KeepsBlock b t u) : KeepsBlock b s u :=
  ⟨h'.mem.trans h.mem, h'.blocks.trans h.blocks, fun n => (h.fib n).trans (h'.fib n)⟩
/-- The same fibres. -/
theorem KeepsBlock.of {b : Nat} {s t : State} (hm : t.mem = s.mem) (hb : t.blocks = s.blocks) (hf : t.fibres = s.fibres) : KeepsBlock b s t :=
  ⟨hm, hb, fun n => by unfold State.fib; rw [hf]; exact .refl _⟩
/-- Fibres that change in place. -/
theorem KeepsBlock.ofMap {b : Nat} {s t : State} {F : FKey × Fibre → FKey × Fibre} (hm : t.mem = s.mem) (hb : t.blocks = s.blocks)
    (hf : t.fibres = s.fibres.map F) (hk : ∀ x, (F x).1 = x.1) (hp : ∀ x, PlaceOnly x.2 (F x).2) : KeepsBlock b s t :=
  ⟨hm, hb, fun _ => fib_rel_of_map hf hk (fun v => hp (_, v)) (.refl _)⟩

theorem keepsBlock_updCore {b : Nat} (s : State) (c : Nat) (f : Core → Core) : KeepsBlock b s (s.updCore c f) := .of rfl rfl rfl
theorem keepsBlock_updGang {b : Nat} (s : State) (g : Nat × Nat) (f : Gang → Gang) : KeepsBlock b s (s.updGang g f) := .of rfl rfl rfl
theorem keepsBlock_seesAll {b : Nat} (s : State) (p : Party) : KeepsBlock b s (s.seesAll p) := .of rfl rfl rfl

theorem keepsBlock_freeCarriage {b : Nat} (s : State) (n : Nat) : KeepsBlock b s (s.freeCarriage n) := by
  unfold State.freeCarriage; split
  · exact .refl s
  · exact .of rfl rfl rfl

theorem keepsBlock_enterTenant {b : Nat} (s : State) (c t : Nat) : KeepsBlock b s (s.enterTenant c t) := by
  unfold State.enterTenant; split
  · exact .refl s
  · exact (foldl_rel KeepsBlock.refl KeepsBlock.trans (fun s n => keepsBlock_freeCarriage s n) _ s).trans (.of rfl rfl rfl)

theorem keepsBlock_l1Clear {b : Nat} (s : State) (c : Nat) : KeepsBlock b s (s.l1Clear c) := .of rfl rfl rfl

theorem keepsBlock_moveFaults {b : Nat} (s : State) (x c0 c : Nat) : KeepsBlock b s (s.moveFaults x c0 c) := by
  unfold State.moveFaults; split
  · exact .refl s
  · exact .of rfl rfl rfl

theorem keepsBlock_writeBackCar {b : Nat} (s : State) (n : Nat) (x : Carriage) : KeepsBlock b s (s.writeBackCar n x) := by
  unfold State.writeBackCar; dsimp only; split
  · exact .refl s
  · exact .of rfl rfl rfl

theorem keepsBlock_returnCars {b : Nat} (s : State) (x : Nat) : KeepsBlock b s (s.returnCars x) := by
  unfold State.returnCars
  refine KeepsBlock.trans (foldl_rel KeepsBlock.refl KeepsBlock.trans (fun s y => ?_) _ s) (.of rfl rfl rfl)
  split
  · exact keepsBlock_writeBackCar s _ _
  · exact .refl s

theorem keepsBlock_reloadTable {b : Nat} (s : State) (x c p : Nat) (t : Nat × Nat) : KeepsBlock b s (s.reloadTable x c p t) := by
  unfold State.reloadTable; dsimp only; split
  · exact .refl s
  · exact .of rfl rfl rfl

theorem keepsBlock_emptyQueue {b : Nat} (s : State) (c q : Nat) : KeepsBlock b s (s.emptyQueue c q) := by
  refine .ofMap rfl rfl rfl (fun x => ?_) fun x => ?_
  · dsimp only; split <;> rfl
  · dsimp only; split <;> rfl

theorem keepsBlock_refillQueue {b : Nat} (s : State) (c : Nat) (q : Nat × Queue) :
    KeepsBlock b s ((s.emptyQueue c q.1).updQueue c q.1 fun _ => q.2) := (keepsBlock_emptyQueue s c q.1).trans (.of rfl rfl rfl)

theorem keepsBlock_rejoinMx {b : Nat} (s : State) (x c : Nat) (g : Nat × Bool × Bool) : KeepsBlock b s (s.rejoinMx x c g) := by
  unfold State.rejoinMx; dsimp only; split
  · exact ((keepsBlock_updCore _ _ _).trans (keepsBlock_updGang _ _ _)).trans (keepsBlock_updCore _ _ _)
  · exact (keepsBlock_updCore _ _ _).trans (keepsBlock_updGang _ _ _)

/-- The restore of a block without re-issue records: its record names its core and units, and it runs; memory and its fibres stay. -/
theorem restoreBlock_law (s : State) (b c : Nat) (units : List Nat) (hi : (s.block b).image.reissue = []) :
    ∃ u, KeepsBlock b s u ∧ KeepsBlock b (u.updBlock b fun y =>
      { y with core := c, units := units, order := s.nextBlock, stop := .running, image := {} }) (s.restoreBlock b c units) := by
  unfold State.restoreBlock
  extract_lets x im now s0 mine s1 s2 s3 s4 q5 s5 s6 s7 s8
  have h0 : KeepsBlock b s s0 :=
    ((keepsBlock_enterTenant s c x.tenant).trans (keepsBlock_l1Clear _ (clusterOf c))).trans (keepsBlock_moveFaults _ _ _ _)
  have h1 : KeepsBlock b s0 s1 := .of rfl rfl rfl
  have h3 : KeepsBlock b s2 s3 := .ofMap rfl rfl rfl (fun x => by dsimp only; split <;> rfl) fun x => by dsimp only; split <;> rfl
  have h4 : KeepsBlock b s3 s4 :=
    (keepsBlock_returnCars s3 b).trans (foldl_rel KeepsBlock.refl KeepsBlock.trans (fun s t => keepsBlock_reloadTable s b c x.part t) _ _)
  have hq : KeepsBlock b s4 q5 :=
    foldl_rel KeepsBlock.refl KeepsBlock.trans (fun s q => keepsBlock_refillQueue s c q) _ _
  have h5 : KeepsBlock b q5 s5 := .ofMap rfl rfl rfl (fun x => by dsimp only; split <;> rfl) fun x => by dsimp only; split <;> rfl
  have h6 : KeepsBlock b s5 s6 := by
    simp only [s6]; split
    · exact ⟨rfl, rfl, fun n => by
        show PlaceOnly _ ((s5.setFib (.ap c) _).fib (.fib b n))
        rw [State.setFib_fib_ne s5 _ (by simp)]; exact .refl _⟩
    · exact .refl _
  have h7 : KeepsBlock b s6 s7 :=
    foldl_rel KeepsBlock.refl KeepsBlock.trans (fun s o => (keepsBlock_updCore s _ _).trans (keepsBlock_seesAll _ _)) _ _
  have h8 : s8 = s7 := by simp only [s8, im, x, hi, List.foldl_nil]
  refine ⟨s1, h0.trans h1, ((((h3.trans h4).trans hq).trans h5).trans h6).trans (h7.trans ?_)⟩
  rw [h8]
  exact foldl_rel KeepsBlock.refl KeepsBlock.trans (fun s g => keepsBlock_rejoinMx s b c g) _ _

/-- BLOCK_RESTORE puts a block that may come back on the first core with room, with the lowest free units (R149, R150, R160, R261). -/
theorem blockRestore_next {s : State} {why : StopWhy} {c : Nat} (hb : (s.blocks.at? s.args.item).isSome = true)
    (hs : (s.block s.args.item).stop = .saved why)
    (hp : why ≠ .switch → ∀ lid l, s.chosen (s.block s.args.item).part = some (lid, l) → s.effPrio lid ≤ s.effPrio (s.block s.args.item).lid)
    (ht : (s.block s.args.item).twin = none) (ho : s.args.opt = none) (hn : s.args.nats = [])
    (hr : s.findRoom (s.part (s.block s.args.item).part).sectors (s.block s.args.item) false [] = some c)
    (hc : s.canRestore s.args.item c = true) :
    ∃ u, exec .blockRestore s =
      .next (((s.updPart (s.block s.args.item).part fun y => { y with switching := false }).restoreBlock s.args.item c u).grant c) := by
  have placed : (s.blocks.at? s.args.item).isNone = false := by simpa using hb
  refine ⟨pickUnits (s.unitsUsed c) 16384 0 ((s.block s.args.item).scratch / 128), ?_⟩
  show execBlockRestore s = _
  unfold execBlockRestore
  simp only [ho, ht, hs, hn, hc, placed, hr, Option.isSome_none, State.unitsFor, State.takeUnits, if_true]
  cases hch : s.chosen (s.block s.args.item).part with
  | none => cases why <;> rfl
  | some x =>
    obtain ⟨lid, l⟩ := x
    cases why with
    | switch => rfl
    | preempt | faults | rollback => simp [hp nofun lid l hch]

/-- R160, R211, R261: a restored block runs on its core, and memory, registers and PCs are as they were; only a fibre that waits for
the matrix engine may be granted it and go on. -/
theorem restoreBlock_restores (s : State) (b c : Nat) (units : List Nat) (hi : (s.block b).image.reissue = []) :
    ((s.restoreBlock b c units).grant c).mem = s.mem ∧ (((s.restoreBlock b c units).grant c).block b).stop = .running ∧
      (((s.restoreBlock b c units).grant c).block b).core = c ∧ (((s.restoreBlock b c units).grant c).block b).image = {} ∧
      ∀ n, SameRegs s ((s.restoreBlock b c units).grant c) (.fib b n) ∧ ((∀ p, (s.fib (.fib b n)).wait ≠ .mxacq p) →
        (((s.restoreBlock b c units).grant c).fib (.fib b n)).pc = (s.fib (.fib b n)).pc) := by
  obtain ⟨u, before, after⟩ := restoreBlock_law s b c units hi
  obtain ⟨regs, same, pc⟩ := wakes_grant (s.restoreBlock b c units) c
  have place : ∀ n, PlaceOnly (s.fib (.fib b n)) ((s.restoreBlock b c units).fib (.fib b n)) := fun n => (before.fib n).trans (after.fib n)
  have block : ((s.restoreBlock b c units).grant c).block b =
      { u.block b with core := c, units := units, order := s.nextBlock, stop := .running, image := {} } := by
    rw [regs.block, State.block, after.blocks]
    exact State.updBlock_block_same u b _
  refine ⟨?_, by rw [block], by rw [block], by rw [block], fun n => ⟨?_, fun hw => ?_⟩⟩
  · rw [regs.sameMemory.1, after.mem]; exact before.mem
  · exact (place n).sameRegs.trans (same _)
  · rw [pc _ (by rwa [(place n).wait])]; exact (place n).pc

/-! ### The statement -/

/-- Settles O51: the request of a context switch, the stop at the deadline, the native switch-out, the save and the restore, each from
the law of its operation. -/
theorem stopSteps : Obligations.StopSteps := by
  unfold Obligations.StopSteps
  refine ⟨fun s he hsh hp hl => contextSwitchRequest_next he hsh hp hl, fun s why t0 hs ht hd => ?_,
    fun s t0 ho hc hth => nativeSwitchOut_next ho hc hth, fun s why d hs hw ht hc he hl => ?_,
    fun s why c hb hs hp _ ht ho hn hi hr hc => ?_⟩
  · have h := stopDeadline_halts s why s.args.item
    exact ⟨_, stopDeadline_next hs ht hd, h.memory, fun n => h.fib _, h.stop, h.begun⟩
  · exact ⟨_, blockSave_next hs hw ht hc he hl, saveBlock_saves s s.args.item why d⟩
  · obtain ⟨u, h⟩ := blockRestore_next hb hs hp ht ho hn hr hc
    exact ⟨_, h, restoreBlock_restores (s.updPart _ fun y => { y with switching := false }) s.args.item c u hi⟩

end Sys2Proof.Machine
end

section
/-!
PROOFS. Words of one agent: what the frame of a word does where one live agent performs it alone, and the frames of `UnitFrame`.
-/

namespace Sys2Proof.Machine

/-! ### Frames of units -/

theorem UnitFrame.refl (s : State) (k : FKey) (d : Option Slot) : UnitFrame s s k d :=
  ⟨.refl s, fun _ _ => rfl, fun _ _ => rfl, ⟨rfl, rfl, rfl⟩, fun _ _ _ => rfl⟩

theorem UnitFrame.trans {s t u : State} {k : FKey} {d : Option Slot} (h : UnitFrame s t k d) (h' : UnitFrame t u k d) : UnitFrame s u k d := by
  obtain ⟨p, wb, lr⟩ := h.own
  obtain ⟨p', wb', lr'⟩ := h'.own
  exact ⟨h.memory.trans h'.memory, fun m hm => (h'.others m hm).trans (h.others m hm),
    fun m hm => (h'.cell m (by rw [wb]; exact hm)).trans (h.cell m hm), ⟨p'.trans p, wb'.trans wb, lr'.trans lr⟩,
    fun g n hn => (h'.scell g n hn).trans (h.scell g n hn)⟩

/-- Where memory, fibres and gangs are as before, the frame holds for any destination. -/
theorem UnitFrame.of {s t : State} (hm : SameMemory s t) (hf : t.fibres = s.fibres) (hg : t.gangs = s.gangs) (k : FKey) (d : Option Slot) :
    UnitFrame s t k d := by
  have fib : ∀ m, t.fib m = s.fib m := fun m => by unfold State.fib; rw [hf]
  have gang : ∀ g, t.gang g = s.gang g := fun g => by unfold State.gang; rw [hg]
  exact ⟨hm, fun m _ => fib m, fun m _ => by rw [fib], by rw [fib]; exact ⟨rfl, rfl, rfl⟩, fun g n _ => by rw [gang]⟩

theorem NotesOnly.unitFrame {s t : State} (h : NotesOnly s t) (k : FKey) (d : Option Slot) : UnitFrame s t k d := by
  exact .of (by rw [h]; exact .refl s) (by rw [h]) (by rw [h]) k d

/-! ### The turn of one agent -/

/-- Where the turn is a coach's, `k` is its only member. -/
def State.Alone (s : State) (k : FKey) : Prop :=
  ∀ c p x, s.agent = some (.coach c p) → s.pipes.at? (pipeKey c p) = some x → x.members.map (FKey.fib x.block) = [k]

theorem State.alone_of_members {s : State} {k : FKey} (h : s.members = some [k]) : s.Alone k := fun c p x ha hx => by
  simpa [State.members, ha, hx] using h

theorem State.Alone.of_eq {s t : State} {k : FKey} (h : s.Alone k) (ha : t.agent = s.agent) (hp : t.pipes = s.pipes) : t.Alone k := by
  unfold State.Alone; rw [ha, hp]; exact h

/-- The helpers of a coach whose one member lives: none follows, and the coach stays. -/
theorem syncHelpers_alone {s : State} {c p : Nat} {x : Coach} {k : FKey} (hx : s.pipes.at? (pipeKey c p) = some x)
    (hk : x.members.map (FKey.fib x.block) = [k]) (hh : s.isHelper k = false) :
    s.syncHelpers c p = { s with pipes := s.pipes.put (pipeKey c p) x } := by
  obtain ⟨n, hn, rfl⟩ := List.map_eq_singleton_iff.1 hk
  unfold State.syncHelpers
  simp [hx, hn, hh]
  rw [← hn]

/-- One more word of a coach whose one member lives: only coaches change. -/
theorem countWord_alone {s : State} {k : FKey} (h : s.Alone k) (hh : s.isHelper k = false) : ∃ p, s.countWord = { s with pipes := p } := by
  unfold State.countWord
  split
  · next c p ha =>
    split
    · exact ⟨_, rfl⟩
    · next x hx => exact ⟨_, syncHelpers_alone (k := k) (Map.at?_put_same s.pipes _ _) (h c p x ha hx) hh⟩
  · exact ⟨_, rfl⟩

/-- A word of `k` is over: `k` stands at `pc`; of the rest only coaches, the buffer of fetched lines and the agents that have sent carts
differ. -/
structure Advanced (s t : State) (k : FKey) (pc : W64) : Prop where
  moved : Moved s t
  pc : (t.fib k).pc = pc
  others : OthersSame s t k

/-- An effect leaves the turn to its agent. -/
structure KeepsTurn (s t : State) (k : FKey) : Prop where
  agent : t.agent = s.agent
  pipes : t.pipes = s.pipes
  helper : t.isHelper k = s.isHelper k

theorem KeepsTurn.trans {s t u : State} {k : FKey} (h : KeepsTurn s t k) (h' : KeepsTurn t u k) : KeepsTurn s u k :=
  ⟨h'.agent.trans h.agent, h'.pipes.trans h.pipes, h'.helper.trans h.helper⟩

theorem KeepsTurn.of {s t : State} (ha : t.agent = s.agent) (hp : t.pipes = s.pipes) (hf : t.fibres = s.fibres) (k : FKey) : KeepsTurn s t k :=
  ⟨ha, hp, by unfold State.isHelper State.fib; rw [hf]⟩

theorem NotesOnly.keepsTurn {s t : State} (h : NotesOnly s t) (k : FKey) : KeepsTurn s t k :=
  .of (by rw [h]) (by rw [h]) (by rw [h]) k

theorem Kept.keepsTurn {s t : State} (h : Kept s t) (k : FKey) : KeepsTurn s t k := ⟨h.agent, h.pipes, h.isHelper k⟩

theorem Advanced.unitFrame {s t : State} {k : FKey} {pc : W64} (h : Advanced s t k pc) (d : Option Slot) : UnitFrame s t k d :=
  ⟨by rw [h.moved.dev]; exact .refl s, h.others, fun m _ => by rw [h.moved.fib k]; rfl, by rw [h.moved.fib k]; exact ⟨rfl, rfl, rfl⟩,
    fun g n _ => by rw [show t.gang g = s.gang g by rw [h.moved.dev]; rfl]⟩

theorem Advanced.sameRegs {s t : State} {k : FKey} {pc : W64} (h : Advanced s t k pc) : SameRegs s t k := by
  unfold SameRegs; rw [h.moved.fib k]; exact ⟨rfl, rfl, rfl, rfl⟩

theorem advanced_pc (s : State) (k : FKey) (pc : W64) : Advanced s (s.updFib k fun f => { f with pc := pc }) k pc :=
  ⟨moved_pc s k pc, by simp, fun _ hm => State.updFib_fib_ne s _ hm⟩

/-- What leaves fibres alone may follow. -/
theorem Advanced.then {s t u : State} {k : FKey} {pc : W64} (h : Advanced s t k pc)
    (h' : u = { t with pipes := u.pipes, lineBuf := u.lineBuf, evicted := u.evicted }) : Advanced s u k pc := by
  have fib : ∀ m, u.fib m = t.fib m := fun m => by rw [h']; rfl
  exact ⟨h.moved.trans ⟨by rw [h'], fun m => by rw [fib]⟩, by rw [fib]; exact h.pc, fun m hm => by rw [fib]; exact h.others m hm⟩

/-- What precedes it may leave fibres alone. -/
theorem Advanced.after {s t u : State} {k : FKey} {pc : W64} (h' : t = { s with pipes := t.pipes, lineBuf := t.lineBuf, evicted := t.evicted })
    (h : Advanced t u k pc) : Advanced s u k pc := by
  have fib : ∀ m, t.fib m = s.fib m := fun m => by rw [h']; rfl
  exact ⟨Moved.trans ⟨by rw [h'], fun m => by rw [fib]⟩ h.moved, h.pc, fun m hm => by rw [h.others m hm, fib]⟩

/-- A word is ready for an agent, and its own check lets it go on. -/
theorem State.Ready.verdict {s : State} {i : Instr} {k : FKey} (h : s.Ready i k) (check : State → FKey → Verdict) :
    s.verdict i check k = check s k := by
  simp [State.verdict, h.live, h.go]

theorem State.Ready.proceeds {s : State} {i : Instr} {k : FKey} {check : State → FKey → Verdict} (h : s.Ready i k) (hc : check s k = .go) :
    s.Proceeds i check [k] :=
  ⟨h.sole, fun m hm => by rw [List.mem_singleton.1 hm, h.verdict]; exact .inl hc⟩

theorem State.Ready.performers {s : State} {i : Instr} {k : FKey} {check : State → FKey → Verdict} (h : s.Ready i k) (hc : check s k = .go) :
    s.performers i check [k] = [k] := by
  simp [State.performers, h.verdict, hc]

/-- The state in which a word of one agent takes its effect: the agent has left the pages it has waited for (R276), and the word is
noted (R106). -/
def State.noted1 (s : State) (i : Instr) (k : FKey) : State := (s.leaveMiss k).noteWord i [k]

theorem notesOnly_noted1 (s : State) (i : Instr) (k : FKey) : NotesOnly s (s.noted1 i k) :=
  (notesOnly_leaveMissOf s _).trans (veilOnly_noteWord _ i _).notes

theorem State.Ready.noted {s : State} {i : Instr} {k : FKey} {check : State → FKey → Verdict} (h : s.Ready i k) (hc : check s k = .go) :
    s.noted i check [k] = s.noted1 i k := by
  simp [State.noted, h.performers hc, h.live, State.noted1]

/-- A word of one agent that does not end its run: its effect `v`, then the next PC. -/
theorem issue_one {s v : State} {i : Instr} {k : FKey} {check : State → FKey → Verdict} {eff : State → List FKey → State}
    (h : s.Ready i k) (hc : check s k = .go) (hr : i.runEnding = false) (he : eff (s.noted1 i k) [k] = v)
    (ht : KeepsTurn (s.noted1 i k) v k) : ∃ t, issue i s check eff = .next t ∧ Advanced v t k ((s.fib k).pc + 4) := by
  refine ⟨_, by rw [issue_next (h.proceeds hc), if_neg (by rw [hr]; decide), h.performers hc, h.noted hc, he], ?_⟩
  have notes := notesOnly_noted1 s i k
  have turn := (notes.keepsTurn k).trans ht
  have live : v.isHelper k = false := by rw [turn.helper, h.live]
  have pc : (s.noted1 i k).nextPc k = (s.fib k).pc + 4 := by unfold State.nextPc; rw [notes.fib]
  simp only [List.filter_cons, h.live, Bool.not_false, if_true, List.filter_nil, List.map_cons, List.map_nil, State.setPcs, List.foldl_cons,
    List.foldl_nil, pc]
  have a := advanced_pc (v.dropLines [k]) k ((s.fib k).pc + 4)
  obtain ⟨p, hp⟩ := countWord_alone (s := (v.dropLines [k]).updFib k fun f => { f with pc := (s.fib k).pc + 4 }) (k := k)
    ((State.alone_of_members h.sole).of_eq turn.agent turn.pipes) (by rw [a.moved.isHelper]; exact live)
  rw [hp]
  exact (Advanced.after rfl a).then rfl

theorem onLive_one {s : State} {k : FKey} (h : s.isHelper k = false) (f : State → FKey → State) : s.onLive [k] f = f s k := by
  simp [State.onLive, h]

/-- A word that acts for each live member, of one agent. -/
theorem issue_onLive_one {s v : State} {i : Instr} {k : FKey} {check : State → FKey → Verdict} {f : State → FKey → State}
    (h : s.Ready i k) (hc : check s k = .go) (hr : i.runEnding = false) (he : f (s.noted1 i k) k = v)
    (ht : KeepsTurn (s.noted1 i k) v k) :
    ∃ t, issue i s check (fun s ks => s.onLive ks f) = .next t ∧ Advanced v t k ((s.fib k).pc + 4) :=
  issue_one h hc hr ((onLive_one (by rw [(notesOnly_noted1 s i k).isHelper, h.live]) f).trans he) ht

end Sys2Proof.Machine
end

section
/-!
PROOFS. What a word of one agent leaves alone while its value is on its way (R80), and where a run of bytes stands in scratchpad
storage (R150, R151).
-/

namespace Sys2Proof.Machine

/-! ### A destination left empty (R80) -/

/-- A window register of `k` becomes empty, where it is declared. -/
def State.emptyCell (s : State) (k : FKey) (n : Nat) : State :=
  let f := s.fib k
  if f.wb.toNat + n < s.declared k then
    s.setFib k { f with regs := f.regs.put (f.wb.toNat + n) { (f.cell (f.wb.toNat + n)) with full := false, mark := none } }
  else s

/-- An s register of the gang of `k` becomes empty. -/
def State.emptyS (s : State) (k : FKey) (n : Nat) : State :=
  s.updGang (s.gangOf k) fun g => { g with s := g.s.put n { (g.s.atD n {}) with full := false, mark := none } }

theorem markEmpty_s (s : State) (k : FKey) (x : Slot) {n : Fin 16} (h : x.reg = .s n) : s.markEmpty k x = s.emptyS k n := by
  unfold State.markEmpty; rw [h]; rfl

theorem markEmpty_fields (s : State) (k : FKey) (x : Slot) (h : ∀ n, x.reg ≠ .s n) :
    s.markEmpty k x = x.fields.foldl (fun s n => s.emptyCell k n) s := by
  unfold State.markEmpty
  split
  · next n hn => exact absurd hn (h n)
  · rfl

theorem kept_emptyCell (s : State) (k : FKey) (n : Nat) : Kept s (s.emptyCell k n) := by
  unfold State.emptyCell; dsimp only; split
  · exact kept_updFib s k (fun f => { f with regs := _ }) rfl
  · exact .refl s

theorem kept_emptyS (s : State) (k : FKey) (n : Nat) : Kept s (s.emptyS k n) := kept_updGang s _ _ rfl

theorem emptyCell_fib (s : State) (k : FKey) (n : Nat) : (s.emptyCell k n).fib k = { s.fib k with regs := ((s.emptyCell k n).fib k).regs } := by
  unfold State.emptyCell; dsimp only; split <;> simp

theorem emptyCell_cell_ne (s : State) (k : FKey) {n m : Nat} (h : m ≠ (s.fib k).wb.toNat + n) :
    ((s.emptyCell k n).fib k).cell m = (s.fib k).cell m := by
  unfold State.emptyCell; dsimp only; split
  · simp [Fibre.cell, Map.atD_put_ne _ _ _ h]
  · rfl

theorem unitFrame_emptyCell (s : State) (k : FKey) {n : Nat} {x : Slot} (h : n ∈ x.fields) : UnitFrame s (s.emptyCell k n) k (some x) := by
  refine ⟨(kept_emptyCell s k n).regs.sameMemory, fun m hm => ?_, fun m hm => emptyCell_cell_ne s k (hm x rfl n h), ?_, fun g m _ => ?_⟩
  · unfold State.emptyCell; dsimp only; split
    · exact State.setFib_fib_ne s _ hm
    · rfl
  · rw [emptyCell_fib]; exact ⟨rfl, rfl, rfl⟩
  · unfold State.emptyCell; dsimp only; split <;> rfl

/-- After a word that is yet to return a value its destination is empty, and nothing else of its agent has changed. -/
theorem unitFrame_markEmpty (s : State) (k : FKey) (x : Slot) : UnitFrame s (s.markEmpty k x) k (some x) := by
  by_cases h : ∃ n, x.reg = .s n
  · obtain ⟨n, hn⟩ := h
    rw [markEmpty_s s k x hn]
    refine ⟨(kept_emptyS s k n).regs.sameMemory, fun _ _ => rfl, fun _ _ => rfl, ⟨rfl, rfl, rfl⟩, fun g m hm => ?_⟩
    have hne : m ≠ n := fun e => hm x rfl (e ▸ hn)
    by_cases e : g = s.gangOf k
    · subst e; simp [State.emptyS, Map.atD_put_ne _ _ _ (Fin.val_ne_of_ne hne)]
    · rw [State.emptyS, State.updGang_gang_ne _ _ e]
  · rw [markEmpty_fields s k x fun n hn => h ⟨n, hn⟩]
    exact List.foldlRecOn (motive := fun t => UnitFrame s t k (some x)) x.fields _ (.refl s k _)
      fun t ht n hn => ht.trans (unitFrame_emptyCell t k hn)

theorem kept_markEmpty (s : State) (k : FKey) (x : Slot) : Kept s (s.markEmpty k x) := by
  by_cases h : ∃ n, x.reg = .s n
  · obtain ⟨n, hn⟩ := h
    rw [markEmpty_s s k x hn]; exact kept_emptyS s k n
  · rw [markEmpty_fields s k x fun n hn => h ⟨n, hn⟩]
    exact foldl_rel Kept.refl Kept.trans (fun s n => kept_emptyCell s k n) _ s

theorem emptyCell_cell (s : State) (k : FKey) {n : Nat} (hw : (s.fib k).wb.toNat + n < s.declared k) :
    (((s.emptyCell k n).fib k).cell ((s.fib k).wb.toNat + n)).full = false := by
  simp [State.emptyCell, hw, Fibre.cell]

/-- A cell that is empty stays so while others become empty. -/
theorem emptyCell_cell_full (s : State) (k : FKey) (n : Nat) {m : Nat} (h : ((s.fib k).cell m).full = false) :
    (((s.emptyCell k n).fib k).cell m).full = false := by
  by_cases e : m = (s.fib k).wb.toNat + n
  · unfold State.emptyCell; dsimp only; split
    · simp [Fibre.cell, e]
    · exact h
  · rw [emptyCell_cell_ne s k e]; exact h

theorem emptied_markEmpty (s : State) (k : FKey) (x : Slot) : Emptied (s.markEmpty k x) k x := by
  by_cases h : ∃ n, x.reg = .s n
  · obtain ⟨n, hn⟩ := h
    have hg := (kept_emptyS s k n).gangOf k
    unfold Emptied State.scell
    rw [markEmpty_s s k x hn, hn, hg]
    simp [State.emptyS]
  · have hk := kept_markEmpty s k x
    have hwb := (unitFrame_markEmpty s k x).own.2.1
    have cells : ∀ n ∈ x.fields, (s.fib k).wb.toNat + n < s.declared k → (((s.markEmpty k x).fib k).cell ((s.fib k).wb.toNat + n)).full = false := by
      intro n hn hw
      rw [markEmpty_fields s k x fun n hn => h ⟨n, hn⟩]
      exact foldl_establishes (f := fun s n => State.emptyCell s k n)
        (I := fun t : State => (t.fib k).wb = (s.fib k).wb ∧ t.declared k = s.declared k)
        (P := fun t : State => ((t.fib k).cell ((s.fib k).wb.toNat + n)).full = false)
        (fun t m ⟨hb, hd⟩ => ⟨by rw [emptyCell_fib]; exact hb, ((kept_emptyCell t k m).declared k).trans hd⟩)
        (fun t m ht => emptyCell_cell_full t k m ht)
        (fun t ⟨hb, hd⟩ => by rw [← hb]; exact emptyCell_cell t k (by rw [hb, hd]; exact hw)) hn ⟨rfl, rfl⟩
    unfold Emptied
    split
    · next n hn => exact absurd ⟨n, hn⟩ h
    · intro n hn hw
      rw [hwb, hk.declared] at hw
      have := cells n hn hw
      simp only [State.vcell, hwb, hk.declared, hw, if_true]
      exact this

/-! ### What an agent does not hold, read or stand on -/

/-- Nothing that an agent of this device holds, reads at once or stands on differs: of the machine requests, lines, carts, flows and
launches may. -/
structure Backstage (s t : State) : Prop where
  memory : SameMemory s t
  fibres : t.fibres = s.fibres
  gangs : t.gangs = s.gangs
  blocks : t.blocks = s.blocks
  cores : t.cores = s.cores
  agent : t.agent = s.agent
  pipes : t.pipes = s.pipes

theorem Backstage.refl (s : State) : Backstage s s := ⟨.refl s, rfl, rfl, rfl, rfl, rfl, rfl⟩
theorem Backstage.trans {s t u : State} (h : Backstage s t) (h' : Backstage t u) : Backstage s u :=
  ⟨h.memory.trans h'.memory, h'.fibres.trans h.fibres, h'.gangs.trans h.gangs, h'.blocks.trans h.blocks, h'.cores.trans h.cores,
    h'.agent.trans h.agent, h'.pipes.trans h.pipes⟩

theorem NotesOnly.backstage {s t : State} (h : NotesOnly s t) : Backstage s t := by
  refine ⟨?_, ?_, ?_, ?_, ?_, ?_, ?_⟩ <;> rw [h]
  exact .refl s

section BackstageFacts
variable {s t : State} (h : Backstage s t)
include h

theorem Backstage.fib (k : FKey) : t.fib k = s.fib k := by unfold State.fib; rw [h.fibres]
theorem Backstage.gang (g : Nat × Nat) : t.gang g = s.gang g := by unfold State.gang; rw [h.gangs]
theorem Backstage.block (b : Nat) : t.block b = s.block b := by unfold State.block; rw [h.blocks]
theorem Backstage.core (c : Nat) : t.core c = s.core c := by unfold State.core; rw [h.cores]
theorem Backstage.coreOf (k : FKey) : t.coreOf k = s.coreOf k := by cases k <;> simp [State.coreOf, h.block]
theorem Backstage.gangOf (k : FKey) : t.gangOf k = s.gangOf k := by cases k <;> simp [State.gangOf, h.core]
theorem Backstage.declared (k : FKey) : t.declared k = s.declared k := by cases k <;> simp [State.declared, h.block]
theorem Backstage.keepsTurn (k : FKey) : KeepsTurn s t k := .of h.agent h.pipes h.fibres k
theorem Backstage.unitFrame (k : FKey) (d : Option Slot) : UnitFrame s t k d := .of h.memory h.fibres h.gangs k d
theorem Backstage.vcell (k : FKey) (n : Nat) : t.vcell k n = s.vcell k n := by simp only [State.vcell, h.fib, h.declared]
theorem Backstage.scell (k : FKey) (n : Nat) : t.scell k n = s.scell k n := by simp only [State.scell, h.gangOf, h.gang]
theorem Backstage.emptied {k : FKey} {x : Slot} (he : Emptied s k x) : Emptied t k x := by
  unfold Emptied at *; simpa only [h.fib, h.vcell, h.scell, h.declared] using he

end BackstageFacts

theorem Advanced.emptied {s t : State} {k : FKey} {pc : W64} {x : Slot} (h : Advanced s t k pc) (he : Emptied s k x) : Emptied t k x := by
  unfold Emptied at *
  simpa only [h.moved.vcell, h.moved.scell, h.moved.declared, show (t.fib k).wb = (s.fib k).wb by rw [h.moved.fib k]] using he

/-! ### Runs of bytes -/

theorem Memory.bytes_length (m : Memory) (a n : Nat) : (m.bytes a n).length = n := by
  induction n generalizing a with
  | zero => rfl
  | succ n ih => simp [Memory.bytes, ih]

theorem Memory.bytes_eq_map (m : Memory) (a n : Nat) : m.bytes a n = (List.range n).map fun i => m.read (a + i) := by
  induction n generalizing a with
  | zero => rfl
  | succ n ih =>
    rw [Memory.bytes, ih, List.range_succ_eq_map]
    simp [Function.comp_def, Nat.add_assoc, Nat.add_comm 1]

/-- A part of a run that has been written reads back. -/
theorem Memory.bytes_writeBytes_part {m : Memory} (hw : m.wf = true) (a : Nat) (bs : List Byte) {i n : Nat} (h : i + n ≤ bs.length) :
    (m.writeBytes a bs).bytes (a + i) n = (bs.drop i).take n := by
  rw [Memory.bytes_eq_map]
  refine List.ext_getElem (by simp; omega) fun j hj _ => ?_
  simp only [List.length_map, List.length_range] at hj
  simp only [List.getElem_map, List.getElem_range, List.getElem_take, List.getElem_drop, Nat.add_assoc]
  exact Memory.read_writeBytes hw a bs (by omega)

theorem ofBytes_lt (bs : List Byte) : ofBytes bs < 256 ^ bs.length := by
  induction bs with
  | nil => simp [ofBytes]
  | cons b bs ih =>
    have := b.isLt
    rw [ofBytes, List.length_cons, pow_succ']
    omega

theorem Memory.get_lt (m : Memory) (a n : Nat) : m.get a n < 256 ^ n := by
  have := ofBytes_lt (m.bytes a n)
  rwa [Memory.bytes_length] at this

/-! ### Storage of the scratchpad (R150, R151) -/

/-- A range of an allocation that stands in one line of 128 bytes is contiguous in storage. -/
theorem scratchKey_add (s : State) (b : Nat) {off i : Nat} (h : off % 128 + i < 128) : s.scratchKey b (off + i) = s.scratchKey b off + i := by
  have h1 : (off + i) / 128 = off / 128 := by omega
  have h2 : (off + i) % 128 = off % 128 + i := by omega
  simp [State.scratchKey, h1, h2, Nat.add_assoc]

theorem scratchBytes_eq (s : State) (b : Nat) {off j n : Nat} (h : off % 128 + j + n ≤ 128) :
    s.scratchBytes b (off + j) n = s.scratch.bytes (s.scratchKey b off + j) n := by
  rw [State.scratchBytes, Memory.bytes_eq_map]
  refine List.map_congr_left fun i hi => ?_
  rw [List.mem_range] at hi
  rw [Nat.add_assoc, scratchKey_add s b (by omega), Nat.add_assoc]

theorem scratchGet_eq (s : State) (b : Nat) {off j n : Nat} (h : off % 128 + j + n ≤ 128) :
    s.scratchGet b (off + j) n = s.scratch.get (s.scratchKey b off + j) n := by
  rw [State.scratchGet, scratchBytes_eq s b h]; rfl

theorem scratchPieces_one {off n : Nat} (hn : 0 < n) (h : off % 128 + n ≤ 128) : scratchPieces n off n = [(off, n)] := by
  obtain ⟨m, rfl⟩ : ∃ m, n = m + 1 := ⟨n - 1, by omega⟩
  simp only [scratchPieces, show min (m + 1) (128 - off % 128) = m + 1 by omega, Nat.sub_self]
  cases m <;> rfl

/-- Writing bytes one by one from `a` up. -/
theorem foldl_write_eq (m : Memory) (a : Nat) (bs : List Byte) (i : Nat) :
    (bs.zipIdx i).foldl (fun m x => m.write (a + x.2) x.1) m = m.writeBytes (a + i) bs := by
  induction bs generalizing m i with
  | nil => rfl
  | cons b bs ih => rw [List.zipIdx_cons, List.foldl_cons, ih]; rfl

/-- A write to a range that is contiguous in storage. -/
theorem scratchWrite_scratch (s : State) (w : Writer) (b : Nat) {off : Nat} {bs : List Byte} (h : off % 128 + bs.length ≤ 128) :
    (s.scratchWrite w b off bs).scratch = s.scratch.writeBytes (s.scratchKey b off) bs := by
  have notes := quiet_noteScratch s w b (scratchPieces bs.length off bs.length)
  unfold State.scratchWrite
  generalize (scratchPieces bs.length off bs.length).foldl _ s = t at notes
  have key : ∀ o, t.scratchKey b o = s.scratchKey b o := fun o => by unfold State.scratchKey; rw [notes.notes.block]
  have write := foldl_write_eq t.scratch (s.scratchKey b off) bs 0
  rw [Nat.add_zero] at write
  show bs.zipIdx.foldl (fun m (x : Byte × Nat) => m.write (t.scratchKey b (off + x.2)) x.1) t.scratch = _
  rw [← notes.scratch, ← write]
  refine List.foldl_ext _ _ _ fun m x hx => ?_
  have hi := List.snd_lt_of_mem_zipIdx hx
  rw [key, scratchKey_add s b (by omega)]

/-- What a write to a scratchpad leaves alone. -/
theorem scratchWrite_rest (s : State) (w : Writer) (b off : Nat) (bs : List Byte) :
    (s.scratchWrite w b off bs).mem = s.mem ∧ (s.scratchWrite w b off bs).fibres = s.fibres ∧ (s.scratchWrite w b off bs).agent = s.agent ∧
      (s.scratchWrite w b off bs).pipes = s.pipes := by
  have notes := quiet_noteScratch s w b (scratchPieces bs.length off bs.length)
  unfold State.scratchWrite
  generalize (scratchPieces bs.length off bs.length).foldl _ s = t at notes
  rw [notes]; exact ⟨rfl, rfl, rfl, rfl⟩

end Sys2Proof.Machine
end

section
/-!
PROOFS. Scratchpad accesses and arrival words (R115, R116, R151, R226, R236, R278).
-/

namespace Sys2Proof.Machine

/-! ### Requests -/

theorem veilOnly_noteLate (s : State) (k : FKey) (ord : Order) (b off n : Nat) : VeilOnly s (s.noteLate k ord b off n) := by
  unfold State.noteLate; exact .ite (fun _ => .refl s) fun _ => .of s _

theorem backstage_addReq (s : State) (r : Req) : Backstage s (s.addReq r) := ⟨.refl s, rfl, rfl, rfl, rfl, rfl, rfl⟩

theorem VeilOnly.backstage {s t : State} (h : VeilOnly s t) : Backstage s t := h.notes.backstage

/-- A request that has been added is the one asked. -/
theorem asked_of_append {s t : State} {k : FKey} {r : Req} (h : t.reqs = s.reqs ++ [r]) (ho : r.org = .fibre k) : Asked s t k r.what r.pa r :=
  ⟨by simp [h], by simp [h], ho, rfl, rfl⟩

theorem Advanced.reqs {s t : State} {k : FKey} {pc : W64} (h : Advanced s t k pc) : t.reqs = s.reqs := by rw [h.moved.dev]

theorem Kept.reqs {s t : State} (h : Kept s t) : t.reqs = s.reqs := by rw [h.regs]

/-- Of one live agent, its s register is the one that stands (R77). -/
theorem memDst_one {s : State} {k : FKey} (h : s.isHelper k = false) (x : Slot) : s.memDst [k] k x = s.dstOf k x := by
  unfold State.memDst
  split
  · simp [State.firstLive, h]
  · rfl

/-! ### Where a scratchpad access lies -/

theorem scratchAddr_off {s : State} {b a x off : Nat} (h : s.scratchAddr b a = .ok (x, off)) : off = a % 2 ^ 21 := by
  unfold State.scratchAddr at h
  dsimp only at h
  split at h
  · cases h
  split at h
  · split at h
    · cases h
    · split at h <;> cases h; rfl
  · split at h <;> cases h; rfl

/-- A checked scratchpad access of a power of two of at most 128 bytes stands in one line of storage (R150, R151). -/
theorem State.ScratchAt.place {s : State} {k : FKey} {a : Reg} {n key : Nat} (h : s.ScratchAt k a n key) (hn : n ∣ 128) :
    ∃ b off, s.scratchAt k a = (b, off) ∧ s.scratchAddr (s.gangOf k).1 (s.src32 k a).toNat = .ok (b, off) ∧ key = s.scratchKey b off ∧
      off % 128 + n ≤ 128 := by
  obtain ⟨aligned, b, off, ok, rfl⟩ := h
  refine ⟨b, off, by simp [State.scratchAt, ok], ok, rfl, ?_⟩
  have hoff := scratchAddr_off ok
  have dvd : n ∣ off % 128 := by
    rw [hoff]
    exact (Nat.dvd_mod_iff hn).2 ((Nat.dvd_mod_iff (hn.trans (by decide))).2 (Nat.dvd_of_mod_eq_zero aligned))
  obtain ⟨q, hq⟩ := dvd
  obtain ⟨r, hr⟩ := hn
  have hlt : n * q < n * r := by rw [← hq, ← hr]; omega
  have hqr : q + 1 ≤ r := Nat.lt_of_mul_lt_mul_left hlt
  calc off % 128 + n = n * (q + 1) := by rw [hq, Nat.mul_add, Nat.mul_one]
    _ ≤ n * r := Nat.mul_le_mul_left n hqr
    _ = 128 := hr.symm

theorem State.ScratchAt.check {s : State} {k : FKey} {a : Reg} {n key : Nat} (h : s.ScratchAt k a n key) (i : Instr) :
    s.scratchCheck k i a n false = .go := by
  obtain ⟨aligned, b, off, ok, -⟩ := h
  simp [State.scratchCheck, aligned, ok]

theorem NotesOnly.scratchAt {s t : State} (h : NotesOnly s t) (k : FKey) (a : Reg) : t.scratchAt k a = s.scratchAt k a := by rw [h]; rfl
theorem NotesOnly.scratchKey {s t : State} (h : NotesOnly s t) (b off : Nat) : t.scratchKey b off = s.scratchKey b off := by rw [h]; rfl
theorem NotesOnly.src32 {s t : State} (h : NotesOnly s t) (k : FKey) (r : Reg) : t.src32 k r = s.src32 k r := by rw [h]; rfl
theorem NotesOnly.dataOf {s t : State} (h : NotesOnly s t) (k : FKey) (x : Slot) : t.dataOf k x = s.dataOf k x := by rw [h]; rfl
theorem NotesOnly.dstOf {s t : State} (h : NotesOnly s t) (k : FKey) (x : Slot) : t.dstOf k x = s.dstOf k x := by rw [h]; rfl

/-! ### What is remembered -/

theorem learn_hidden_nil {v : Veil} (h : v.hidden = []) (p : Party) (ids : List Nat) : (v.learn p ids).hidden = [] := by
  simp [Veil.learn, h]

/-- Where nothing is remembered, a word that is noted makes nothing be. -/
theorem noted1_hidden_nil {s : State} (h : s.veil.hidden = []) (i : Instr) (k : FKey) : (s.noted1 i k).veil.hidden = [] := by
  have ordered : ∀ (s : State) ks, s.veil.hidden = [] → (s.ordered i ks).veil.hidden = [] := fun s ks h => by
    unfold State.ordered; split
    · exact h
    · exact List.foldlRecOn (motive := fun t : State => t.veil.hidden = []) ks _ h fun t ht k _ =>
        List.foldlRecOn (motive := fun t : State => t.veil.hidden = []) _ _ ht fun t ht m _ => by
          split
          · exact learn_hidden_nil ht _ _
          · exact ht
  have cross : (if i.quad then (s.leaveMiss k).noteCross [k] sameQuad else s.leaveMiss k).veil.hidden = [] := by
    unfold State.noteCross
    split
    · split <;> exact h
    · exact h
  unfold State.noted1 State.noteWord State.depends
  generalize (if i.quad then (s.leaveMiss k).noteCross [k] sameQuad else s.leaveMiss k) = t at cross
  split
  · exact cross
  · exact ordered _ _ cross

/-! ### LDS and STS (R226, R278) -/

/-- The request of an LDS of one agent: its value is on its way (R226). -/
def State.ldsReq (s : State) (k : FKey) (o : LdsOp) : Req :=
  { id := 0, org := .fibre k, core := s.coreOf k, gang := s.gangOf k, lane := s.laneOf k, part := s.partOf k
    va := (s.src32 k o.a).setWidth 64, pa := 0, what := .lds o.w, ord := o.ord, sc := o.sc
    dst := s.memDst [k] k (wrSlot o.w.kind o.d), word := (Instr.lds o).word, slice := 1001
    stage := .served (ofBytes (s.scratchSeen (.agent k) (s.scratchAt k o.a).1 (s.scratchAt k o.a).2 o.w.bytes))
      (s.scratchPoisoned (s.scratchAt k o.a).1 (s.scratchAt k o.a).2 o.w.bytes) }

/-- What LDS of one agent does: its destination is empty, its request is added; the rest is noted. -/
def State.ldsOne (s : State) (k : FKey) (o : LdsOp) : State :=
  let r := s.ldsReq k o
  let b := (s.scratchAt k o.a).1
  let off := (s.scratchAt k o.a).2
  let s1 := s.markEmpty k (wrSlot o.w.kind o.d)
  (((s1.taintDst k r.dst (s1.scratchFrom (.agent k) b off o.w.bytes)).scratchRead (.agent k) b off o.w.bytes r.acq).noteLate k o.ord b off o.w.bytes).addReq r

theorem ldsOne_law (s : State) (k : FKey) (o : LdsOp) :
    ∃ w, VeilOnly (s.markEmpty k (wrSlot o.w.kind o.d)) w ∧ s.ldsOne k o = w.addReq (s.ldsReq k o) :=
  ⟨_, ((veilOnly_taintDst _ _ _ _).trans (veilOnly_scratchRead _ _ _ _ _ _)).trans (veilOnly_noteLate _ _ _ _ _ _), rfl⟩

theorem ldsOne_unitFrame (s : State) (k : FKey) (o : LdsOp) :
    KeepsTurn s (s.ldsOne k o) k ∧ UnitFrame s (s.ldsOne k o) k (some (wrSlot o.w.kind o.d)) ∧ Emptied (s.ldsOne k o) k (wrSlot o.w.kind o.d) ∧
      (s.ldsOne k o).reqs = s.reqs ++ [{ s.ldsReq k o with id := (s.markEmpty k (wrSlot o.w.kind o.d)).nextReq, since := (s.markEmpty k (wrSlot o.w.kind o.d)).clock }] := by
  obtain ⟨w, hw, e⟩ := ldsOne_law s k o
  have hb := hw.backstage.trans (backstage_addReq w (s.ldsReq k o))
  have hk := kept_markEmpty s k (wrSlot o.w.kind o.d)
  rw [e]
  refine ⟨(hk.keepsTurn k).trans (hb.keepsTurn k), (unitFrame_markEmpty s k _).trans (hb.unitFrame k _), hb.emptied (emptied_markEmpty s k _), ?_⟩
  rw [State.addReq, hw, ← hk.reqs]

theorem execLds_one {s : State} {o : LdsOp} {k : FKey} (h : s.Ready (.lds o) k)
    (hc : s.scratchCheck k (.lds o) o.a o.w.bytes (s.scratchWaits k o.ord) = .go) :
    ∃ t, exec (.lds o) s = .next t ∧ Advanced ((s.noted1 (.lds o) k).ldsOne k o) t k ((s.fib k).pc + 4) := by
  have live : (s.noted1 (.lds o) k).isHelper k = false := by rw [(notesOnly_noted1 s (.lds o) k).isHelper, h.live]
  show ∃ t, execLds o s = .next t ∧ _
  unfold execLds
  exact issue_one h hc rfl (by simp [live, State.ldsOne, State.ldsReq]) (ldsOne_unitFrame _ k o).1

/-- What an agent finds in a range that stands in one line of storage, where nothing is remembered. -/
theorem scratchSeen_of_nil {s : State} (h : s.veil.hidden = []) (p : Party) (b : Nat) {off n : Nat} (hn : 0 < n) (hl : off % 128 + n ≤ 128) :
    s.scratchSeen p b off n = s.scratch.bytes (s.scratchKey b off) n := by
  have bytes := scratchBytes_eq s b (off := off) (j := 0) (n := n) (by omega)
  simp only [Nat.add_zero] at bytes
  simp [State.scratchSeen, scratchPieces_one hn hl, viewed_of_nil h, bytes]

theorem ldW_bytes_dvd (w : LdW) : w.bytes ∣ 128 := by cases w <;> decide
theorem stW_bytes_dvd (w : StW) : w.bytes ∣ 128 := by cases w <;> decide
theorem ldW_bytes_pos (w : LdW) : 0 < w.bytes := by cases w <;> decide

/-- R226: LDS reads its bytes at issue. -/
theorem lds_next {o : LdsOp} {s : State} {k : FKey} {key : Nat} (h : s.Ready (.lds o) k) (ha : s.ScratchAt k o.a o.w.bytes key)
    (hw : s.scratchWaits k o.ord = false) :
    ∃ t r v p, exec (.lds o) s = .next t ∧ (t.fib k).pc = (s.fib k).pc + 4 ∧ Asked s t k (.lds o.w) 0 r ∧
      r.stage = .served v p ∧ (s.veil.hidden = [] → v = s.scratch.get key o.w.bytes) ∧ r.dst = s.dstOf k (wrSlot o.w.kind o.d) ∧
      Emptied t k (wrSlot o.w.kind o.d) ∧ UnitFrame s t k (some (wrSlot o.w.kind o.d)) := by
  obtain ⟨t, ht, adv⟩ := execLds_one h (by rw [hw]; exact ha.check _)
  obtain ⟨b, off, at_, -, rfl, line⟩ := ha.place (ldW_bytes_dvd o.w)
  have notes := notesOnly_noted1 s (.lds o) k
  obtain ⟨-, frame, empty, reqs⟩ := ldsOne_unitFrame (s.noted1 (.lds o) k) k o
  rw [notes.reqs] at reqs
  refine ⟨t, _, _, _, ht, adv.pc, asked_of_append (adv.reqs.trans reqs) rfl, rfl, fun hn => ?_, ?_, adv.emptied empty,
    ((notes.unitFrame k _).trans frame).trans (adv.unitFrame _)⟩
  · rw [notes.scratchAt, at_, scratchSeen_of_nil (noted1_hidden_nil hn _ k) _ b (ldW_bytes_pos o.w) line, notes.scratchKey, notes.scratch]; rfl
  · exact (memDst_one (by rw [notes.isHelper, h.live]) _).trans (notes.dstOf k _)

theorem scratchWrite_keepsTurn (s : State) (w : Writer) (b off : Nat) (bs : List Byte) (k : FKey) : KeepsTurn s (s.scratchWrite w b off bs) k := by
  obtain ⟨-, fibres, agent, pipes⟩ := scratchWrite_rest s w b off bs
  exact .of agent pipes fibres k

/-- A word that writes a range of the scratchpad, of one agent: where the range stands in one line of storage the bytes of the range
change, and nothing else that is told of here. -/
theorem scratchWord_next {i : Instr} {s t : State} {k : FKey} {w : Writer} {b off : Nat} {bs : List Byte} {pc : W64}
    (adv : Advanced ((s.noted1 i k).scratchWrite w b off bs) t k pc) (line : off % 128 + bs.length ≤ 128) :
    t.mem = s.mem ∧ SameRegs s t k ∧ OthersSame s t k ∧ t.scratch = s.scratch.writeBytes (s.scratchKey b off) bs := by
  have notes := notesOnly_noted1 s i k
  obtain ⟨mem, fibres, -, -⟩ := scratchWrite_rest (s.noted1 i k) w b off bs
  have write := scratchWrite_scratch (s.noted1 i k) w b line
  rw [notes.scratch, notes.scratchKey] at write
  have fib : ∀ m, ((s.noted1 i k).scratchWrite w b off bs).fib m = s.fib m := fun m => by
    rw [← notes.fib m]; unfold State.fib; rw [fibres]
  refine ⟨?_, ?_, fun m hm => ?_, ?_⟩
  · rw [adv.moved.dev]; exact mem.trans notes.mem
  · have := adv.sameRegs; unfold SameRegs at *; rwa [fib k] at this
  · rw [adv.others m hm, fib]
  · rw [adv.moved.dev]; exact write

/-- R226: STS writes its bytes, and no other. -/
theorem sts_next {o : StsOp} {s : State} {k : FKey} {key : Nat} (h : s.Ready (.sts o) k) (ha : s.ScratchAt k o.a o.w.bytes key)
    (hw : s.scratchWaits k o.ord = false) (wf : s.scratch.wf = true) :
    ∃ t, exec (.sts o) s = .next t ∧ (t.fib k).pc = (s.fib k).pc + 4 ∧ t.mem = s.mem ∧ SameRegs s t k ∧ OthersSame s t k ∧
      t.scratch.get key o.w.bytes = s.dataOf k (rdSlot o.w.kind o.d) % 2 ^ (8 * o.w.bytes) ∧
      ∀ a, a < key ∨ key + o.w.bytes ≤ a → t.scratch.read a = s.scratch.read a := by
  obtain ⟨b, off, at_, -, rfl, line⟩ := ha.place (stW_bytes_dvd o.w)
  have notes := notesOnly_noted1 s (.sts o) k
  obtain ⟨t, ht, adv⟩ : ∃ t, exec (.sts o) s = .next t ∧ Advanced ((s.noted1 (.sts o) k).scratchWrite
      { who := .agent k, rel := if o.ord = .rel then some o.sc else none } b off (toBytes o.w.bytes (s.dataOf k (rdSlot o.w.kind o.d)))) t k
      ((s.fib k).pc + 4) := by
    show ∃ t, execSts o s = .next t ∧ _
    unfold execSts
    refine issue_onLive_one h (by rw [hw]; exact ha.check _) rfl ?_ ?_
    · dsimp only; rw [notes.scratchAt, at_, notes.dataOf]
    · exact scratchWrite_keepsTurn _ _ _ _ _ k
  obtain ⟨mem, regs, others, write⟩ := scratchWord_next adv (by rwa [toBytes_length])
  refine ⟨t, ht, adv.pc, mem, regs, others, ?_, fun a hout => ?_⟩
  · rw [write]
    exact (Memory.get_put wf _ _ _).trans (by rw [Nat.pow_mul])
  · rw [write]; exact Memory.read_writeBytes_of_outside _ _ _ (by rwa [toBytes_length])

/-! ### Arrival words (R115, R116, R236) -/

/-- The four words of an arrival word read back: TARGET, COUNT, the phase word, REARM. -/
theorem get_writeBytes_words {m : Memory} (hw : m.wf = true) (a : Nat) {w0 w1 w2 w3 : List Byte} (h0 : w0.length = 4) (h1 : w1.length = 4)
    (h2 : w2.length = 4) (h3 : w3.length = 4) :
    let m' := m.writeBytes a (w0 ++ w1 ++ w2 ++ w3)
    m'.get a 4 = ofBytes w0 ∧ m'.get (a + 4) 4 = ofBytes w1 ∧ m'.get (a + 8) 4 = ofBytes w2 ∧ m'.get (a + 12) 4 = ofBytes w3 ∧
      ∀ x, x < a ∨ a + 16 ≤ x → m'.read x = m.read x := by
  have part : ∀ i, i + 4 ≤ 16 → (m.writeBytes a (w0 ++ w1 ++ w2 ++ w3)).get (a + i) 4 =
      ofBytes (((w0 ++ w1 ++ w2 ++ w3).drop i).take 4) := fun i hi => by
    rw [Memory.get, Memory.bytes_writeBytes_part hw a _ (by simp [h0, h1, h2, h3]; omega)]
  have gone : ∀ {w : List Byte} (_ : w.length = 4) i, 4 ≤ i → w.drop i = [] := fun h i hi => List.drop_eq_nil_of_le (by omega)
  refine ⟨(part 0 (by omega)).trans ?_, (part 4 (by omega)).trans ?_, (part 8 (by omega)).trans ?_, (part 12 (by omega)).trans ?_,
    fun x hx => Memory.read_writeBytes_of_outside m a _ (by simpa [h0, h1, h2, h3] using hx)⟩
  · simp [h0]
  · simp [h0, h1]
  · simp [List.drop_append, h0, h1, h2, gone h0]
  · simp [List.drop_append, h0, h1, h2, List.take_of_length_le (Nat.le_of_eq h3), gone h0, gone h1]

theorem ofBytes_toBytes_4 {v : Nat} (h : v < 2 ^ 32) : ofBytes (toBytes 4 v) = v := by
  rw [ofBytes_toBytes]; exact Nat.mod_eq_of_lt h

/-- R116: an arrival update whose word stands in one line of storage writes that word, and does what it says. -/
theorem arrival_done {s : State} (wf : s.scratch.wf = true) (p : Party) (rel : Option Scope) (b : Nat) {off : Nat} (dc dt : Nat) (bk : Bool)
    (line : off % 128 + 16 ≤ 128) (h : ¬(dc = 0 ∧ dt = 0 ∧ bk = false)) :
    ∃ bs : List Byte, bs.length = 16 ∧
      s.arrival p rel b off dc dt bk = s.scratchWrite { who := p, rmw := true, rel := rel, unit := 16 } b off bs ∧
      ArrivalDone s.scratch (s.scratch.writeBytes (s.scratchKey b off) bs) (s.scratchKey b off) dc dt := by
  have word : ∀ i, i + 4 ≤ 16 → s.scratchGet b (off + i) 4 = s.scratch.get (s.scratchKey b off + i) 4 := fun i hi =>
    scratchGet_eq s b (by omega)
  have word0 := word 0 (by omega)
  simp only [Nat.add_zero] at word0
  have lt : ∀ a, s.scratch.get a 4 < 2 ^ 32 := fun a => Memory.get_lt s.scratch a 4
  have go : ¬(dc = 0 ∧ dt = 0 ∧ (!bk) = true) := by simpa using h
  unfold State.arrival
  dsimp only
  rw [if_neg go, word 4 (by omega), word 8 (by omega), word 12 (by omega), word0]
  generalize s.scratchKey b off = key at *
  generalize hw : s.scratch.get (key + 8) 4 = w
  have hwlt : w < 2 ^ 32 := hw ▸ lt (key + 8)
  have bit31 : bits w 31 31 = w / 2 ^ 31 := Nat.mod_eq_of_lt (by omega)
  unfold ArrivalDone
  rw [hw]
  split
  · next hc =>
    refine ⟨_, by simp, rfl, ?_⟩
    obtain ⟨g0, g1, g2, g3, out⟩ := get_writeBytes_words wf key (w0 := toBytes 4 (s.scratch.get (key + 12) 4)) (w1 := toBytes 4 0)
      (w2 := toBytes 4 ((1 - bits w 31 31) * 2 ^ 31 + (if (s.scratch.get key 4 + dt) % 2 ^ 32 < (s.scratch.get (key + 4) 4 + dc) % 2 ^ 32 then 1
        else bits w 30 30) * 2 ^ 30 + (bits w 29 0 + 1) % 2 ^ 30)) (w3 := toBytes 4 (s.scratch.get (key + 12) 4)) (by simp) (by simp) (by simp) (by simp)
    refine ⟨out, ?_⟩
    rw [g0, g1, g2, g3, ofBytes_toBytes_4 (lt _)]
    refine ⟨rfl, rfl, rfl, ?_⟩
    have bit30 : bits w 30 30 = w / 2 ^ 30 % 2 := rfl
    have low : bits w 29 0 = w % 2 ^ 30 := by simp [bits]
    rw [bit31, bit30, low, ofBytes_toBytes_4 (by split <;> omega)]
  · next hc =>
    have rest : s.scratchBytes b (off + 8) 8 = s.scratchBytes b (off + 8) 4 ++ s.scratchBytes b (off + 12) 4 := by
      simp [State.scratchBytes, List.range_succ_eq_map]
    have len : ∀ o, (s.scratchBytes b o 4).length = 4 := fun o => by simp [State.scratchBytes]
    rw [rest, ← List.append_assoc]
    refine ⟨_, by simp [len], rfl, ?_⟩
    obtain ⟨g0, g1, g2, g3, out⟩ := get_writeBytes_words wf key (w0 := toBytes 4 ((s.scratch.get key 4 + dt) % 2 ^ 32))
      (w1 := toBytes 4 ((s.scratch.get (key + 4) 4 + dc) % 2 ^ 32)) (by simp) (by simp) (len (off + 8)) (len (off + 12))
    refine ⟨out, ?_⟩
    rw [g0, g1, g2, g3, ofBytes_toBytes_4 (Nat.mod_lt _ (by decide)), ofBytes_toBytes_4 (Nat.mod_lt _ (by decide))]
    exact ⟨rfl, rfl, (word 8 (by omega)).trans hw, word 12 (by omega)⟩

theorem arrival_keepsTurn (s : State) (p : Party) (rel : Option Scope) (b off dc dt : Nat) (bk : Bool) (k : FKey) :
    KeepsTurn s (s.arrival p rel b off dc dt bk) k := by
  unfold State.arrival
  dsimp only
  split
  · exact .of rfl rfl rfl k
  · split <;> exact scratchWrite_keepsTurn _ _ _ _ _ k

/-- An arrival word of one agent that adds something. -/
theorem arrivalWord_next {i : Instr} {s t : State} {k : FKey} {p : Party} {rel : Option Scope} {b off dc dt : Nat} {bk : Bool} {pc : W64}
    (adv : Advanced ((s.noted1 i k).arrival p rel b off dc dt bk) t k pc) (wf : s.scratch.wf = true) (line : off % 128 + 16 ≤ 128)
    (h : ¬(dc = 0 ∧ dt = 0 ∧ bk = false)) :
    t.mem = s.mem ∧ SameRegs s t k ∧ OthersSame s t k ∧ ArrivalDone s.scratch t.scratch (s.scratchKey b off) dc dt := by
  have notes := notesOnly_noted1 s i k
  obtain ⟨bs, len, write, done⟩ := arrival_done (s := s.noted1 i k) (by rw [notes.scratch]; exact wf) p rel b dc dt bk line h
  rw [write] at adv
  obtain ⟨mem, regs, others, scratch⟩ := scratchWord_next adv (by rw [len]; exact line)
  rw [notes.scratchKey, notes.scratch, ← scratch] at done
  exact ⟨mem, regs, others, done⟩

/-- The check of an arrival word that has nothing to wait for. -/
theorem arriveCheck_go {i : Instr} {o : MOp} {s : State} {k : FKey} {key : Nat} (ha : s.ScratchAt k o.a 16 key) (hw : s.acqPending k = false)
    (hr : o.ord = .rel → s.outstanding k = []) : arriveCheck i o s k = .go := by
  have wait : (s.acqPending k || (decide (o.ord = .rel) && decide (s.outstanding k ≠ []))) = false := by simpa [hw] using hr
  unfold arriveCheck
  rw [wait]
  exact ha.check i

/-- R236: ARRIVE adds its operand to COUNT. -/
theorem arrive_next {o : MOp} {s : State} {k : FKey} {key : Nat} (h : s.Ready (.arrive o) k) (ha : s.ScratchAt k o.a 16 key)
    (hw : s.acqPending k = false) (hr : o.ord = .rel → s.outstanding k = []) (wf : s.scratch.wf = true) :
    ∃ t, exec (.arrive o) s = .next t ∧ (t.fib k).pc = (s.fib k).pc + 4 ∧ t.mem = s.mem ∧ SameRegs s t k ∧ OthersSame s t k ∧
      if s.src32 k o.d = 0 then t.scratch = s.scratch else ArrivalDone s.scratch t.scratch key (s.src32 k o.d).toNat 0 := by
  obtain ⟨b, off, at_, -, rfl, line⟩ := ha.place (by decide)
  have notes := notesOnly_noted1 s (.arrive o) k
  obtain ⟨t, ht, adv⟩ : ∃ t, exec (.arrive o) s = .next t ∧ Advanced ((s.noted1 (.arrive o) k).arrival (.agent k)
      (if o.ord = .rel then some o.sc else none) b off (s.src32 k o.d).toNat 0 false) t k ((s.fib k).pc + 4) := by
    show ∃ t, execArrive o s = .next t ∧ _
    unfold execArrive
    refine issue_onLive_one h (arriveCheck_go ha hw hr) rfl ?_ (arrival_keepsTurn _ _ _ _ _ _ _ _ k)
    unfold State.arriveOne
    rw [notes.scratchAt, at_, notes.src32]; rfl
  refine ⟨t, ht, adv.pc, ?_⟩
  by_cases hz : s.src32 k o.d = 0
  · have same : (s.noted1 (.arrive o) k).arrival (.agent k) (if o.ord = .rel then some o.sc else none) b off (s.src32 k o.d).toNat 0 false =
        s.noted1 (.arrive o) k := by unfold State.arrival; simp [hz]
    rw [same] at adv
    have frame := (notes.unitFrame k none).trans (adv.unitFrame none)
    obtain ⟨mem, scratch, -⟩ := frame.memory
    have regs := adv.sameRegs
    unfold SameRegs at regs ⊢
    rw [notes.fib] at regs
    exact ⟨mem, regs, frame.others, by rw [if_pos hz]; exact scratch⟩
  · obtain ⟨mem, regs, others, done⟩ := arrivalWord_next adv wf line fun hn => hz (BitVec.eq_of_toNat_eq hn.1)
    exact ⟨mem, regs, others, by rw [if_neg hz]; exact done⟩

/-- R236: ARRIVE.BK adds its operand to TARGET. -/
theorem arriveBk_next {o : MOp} {s : State} {k : FKey} {key : Nat} (h : s.Ready (.arriveBk o) k) (ha : s.ScratchAt k o.a 16 key)
    (hw : s.acqPending k = false) (hr : o.ord = .rel → s.outstanding k = []) (wf : s.scratch.wf = true) :
    ∃ t, exec (.arriveBk o) s = .next t ∧ (t.fib k).pc = (s.fib k).pc + 4 ∧ t.mem = s.mem ∧ SameRegs s t k ∧ OthersSame s t k ∧
      ArrivalDone s.scratch t.scratch key 0 (s.src32 k o.d).toNat := by
  obtain ⟨b, off, at_, -, rfl, line⟩ := ha.place (by decide)
  have notes := notesOnly_noted1 s (.arriveBk o) k
  obtain ⟨t, ht, adv⟩ : ∃ t, exec (.arriveBk o) s = .next t ∧ Advanced ((s.noted1 (.arriveBk o) k).arrival (.agent k)
      (if o.ord = .rel then some o.sc else none) b off 0 (s.src32 k o.d).toNat true) t k ((s.fib k).pc + 4) := by
    show ∃ t, execArriveBk o s = .next t ∧ _
    unfold execArriveBk
    refine issue_onLive_one h (arriveCheck_go ha hw hr) rfl ?_ (arrival_keepsTurn _ _ _ _ _ _ _ _ k)
    unfold State.arriveOne
    rw [notes.scratchAt, at_, notes.src32]; rfl
  exact ⟨t, ht, adv.pc, arrivalWord_next adv wf line (by simp)⟩

/-- Settles O31, a word at a time: LDS and STS, then ARRIVE and ARRIVE.BK. -/
theorem scratchpadWords : Obligations.ScratchpadWords := by
  unfold Obligations.ScratchpadWords Claims.Scratchpad Claims.Arrivals
  refine ⟨⟨fun o s k key h ha hw => lds_next h ha hw, fun o s k key h ha hw wf => sts_next h ha hw wf⟩, fun bk o s k key h ha hw hr wf => ?_⟩
  cases bk
  · exact arrive_next h ha hw hr wf
  · exact arriveBk_next h ha hw hr wf

end Sys2Proof.Machine
end

section
/-!
PROOFS. Fences, CFLUSH, RFENCE, INVL1, prefetches and BAR (R105 to R108, R159, R233 to R238, R247).
-/

namespace Sys2Proof.Machine

/-! ### Lines at their homes are no agent's (R224, R281, R286) -/

theorem backstage_startExp (s : State) (home la : Nat) : Backstage s (s.startExp home la) := by
  unfold State.startExp; split
  · exact .refl s
  · exact ⟨.refl s, rfl, rfl, rfl, rfl, rfl, rfl⟩

theorem backstage_updSlice (s : State) (n : Nat) (f : Slice → Slice) : Backstage s (s.updSlice n f) := ⟨.refl s, rfl, rfl, rfl, rfl, rfl, rfl⟩

theorem backstage_foldLine (s : State) (home la : Nat) : Backstage s (s.foldLine home la) := by
  unfold State.foldLine; split
  · exact ⟨.refl s, rfl, rfl, rfl, rfl, rfl, rfl⟩
  · exact .refl s

theorem backstage_useController (s : State) (pa t : Nat) : Backstage s (s.useController pa t) := backstage_updSlice s _ _

theorem backstage_allocate (s : State) (n la : Nat) (strm : Bool) (copy : Option Line) : Backstage s (s.allocate n la strm copy) := by
  have start : ∀ s : State, Backstage s (if copy.isNone then s.startExp n la else s) := fun s => by
    split
    · exact backstage_startExp s n la
    · exact .refl s
  unfold State.allocate
  dsimp only
  split
  · exact (start s).trans (backstage_updSlice _ _ _)
  split
  · exact (start s).trans (backstage_updSlice _ _ _)
  split
  · exact ((backstage_foldLine _ _ _).trans (start _)).trans (backstage_updSlice _ _ _)
  · exact .refl s

theorem backstage_visitLine (s : State) (who home la : Nat) (strm : Bool) : Backstage s (s.visitLine who home la strm) := by
  have call : Backstage s (if home < 192 then s.called home who else s) := by
    split
    · exact backstage_updSlice s _ _
    · exact .refl s
  unfold State.visitLine
  refine call.trans ?_
  generalize (if home < 192 then s.called home who else s) = s
  dsimp only
  split
  · split
    · exact backstage_useController _ _ _
    · exact .refl s
  split
  · exact (backstage_addReq _ _).trans (backstage_updSlice _ _ _)
  · refine Backstage.trans ?_ (backstage_allocate _ _ _ _ _)
    split
    · exact backstage_updSlice _ _ _
    · exact (backstage_updSlice _ _ _).trans (backstage_useController _ _ _)

theorem backstage_grantLease (s : State) (home la exp : Nat) : Backstage s (s.grantLease home la exp) := ⟨.refl s, rfl, rfl, rfl, rfl, rfl, rfl⟩

theorem backstage_serveLease (s : State) (r : Req) : Backstage s (s.serveLease r) := by
  unfold State.serveLease
  dsimp only
  have insert : ∀ (t : State) (m : Map (Nat × Nat) (Nat × Nat)) (c : Nat) (b : Bool) (l : Line),
      Backstage t (({ t with lastLease := m } : State).l1Insert c b l) := fun t _ _ _ _ => ⟨.refl t, rfl, rfl, rfl, rfl, rfl, rfl⟩
  split
  · exact ((backstage_grantLease _ _ _ _).trans (insert _ _ _ _ _)).trans (backstage_allocate _ _ _ _ _)
  · exact (backstage_grantLease _ _ _ _).trans (insert _ _ _ _ _)

theorem backstage_prefetch (s : State) (k : FKey) (i : Instr) (l1 : Bool) (ch : Hint) (va : W64) : Backstage s (s.prefetch k i l1 ch va) := by
  unfold State.prefetch
  dsimp only
  split
  next t _ =>
    split
    · exact .refl s
    · have visit : ∀ who home, Backstage s (if inDram t.pa then s.visitLine who home (t.pa / 128) (decide (ch = .strm)) else s) := fun who home => by
        split
        · exact backstage_visitLine _ _ _ _ _
        · exact .refl s
      split
      · exact visit _ _
      split
      · exact (visit _ _).trans (backstage_serveLease _ _)
      split
      · exact ((visit _ _).trans (backstage_grantLease _ _ _ _)).trans (backstage_allocate _ _ _ _ _)
      · exact visit _ _
  · exact .refl s

theorem backstage_l1Clear (s : State) (c : Nat) : Backstage s (s.l1Clear c) := ⟨.refl s, rfl, rfl, rfl, rfl, rfl, rfl⟩

/-! ### Fences and prefetches of one agent -/

/-- A word that does nothing to its agent but lets it go on. -/
theorem advanced_backstage {i : Instr} {s v t : State} {k : FKey} (h : Backstage (s.noted1 i k) v) (adv : Advanced v t k ((s.fib k).pc + 4)) :
    (t.fib k).pc = (s.fib k).pc + 4 ∧ UnitFrame s t k none :=
  ⟨adv.pc, (((notesOnly_noted1 s i k).backstage.trans h).unitFrame k none).trans (adv.unitFrame none)⟩

/-- What a fence does for one agent. -/
def State.fenceOne (s : State) (k : FKey) (o : SyncOp) : State :=
  let s := s.noteFence (.agent k) o.ord o.sc
  match k with
  | .ctl _ => s
  | _ => if o.ord ≠ .rel ∧ Scope.wide o.sc then s.l1Clear (clusterOf (s.coreOf k)) else s

theorem backstage_fenceOne (s : State) (k : FKey) (o : SyncOp) : Backstage s (s.fenceOne k o) := by
  have note := (veilOnly_noteFence s (.agent k) o.ord o.sc).backstage
  unfold State.fenceOne
  dsimp only
  split
  · exact note
  split
  · exact note.trans (backstage_l1Clear _ _)
  · exact note

/-- An acquire at die scope or wider leaves no leased copy in its cluster's L1 (R107, R111). -/
theorem fenceOne_l1 {s : State} {k : FKey} {o : SyncOp} (ha : o.ord ≠ .rel) (hw : Scope.wide o.sc = true) (hk : ∀ c, k ≠ .ctl c) :
    (s.fenceOne k o).l1.atD (clusterOf (s.coreOf k)) [] = [] := by
  have core := (veilOnly_noteFence s (.agent k) o.ord o.sc).backstage.coreOf k
  unfold State.fenceOne
  dsimp only
  split
  · next c => exact absurd rfl (hk c)
  · rw [if_pos ⟨ha, hw⟩, core]; simp [State.l1Clear]

theorem fenceCheck_go {s : State} {k : FKey} {o : SyncOp} (ha : s.acqPending k = false) (hp : s.fencePending k o.ord = false)
    (hm : ∀ m ∈ s.fencePeers k o.ord o.sc, s.outstanding m = [])
    (hf : fabRelease o.ord o.sc = true → s.fabPending k = false ∧ s.reportable k (.fence o) = none) : fenceCheck o s k = .go := by
  unfold fenceCheck
  by_cases h : fabRelease o.ord o.sc = true
  · obtain ⟨fab, rep⟩ := hf h
    simp [ha, hp, h, fab, State.reportCheck, rep]; exact hm
  · simp [ha, hp, h]; exact hm

/-- R107, R121, R123, R233: a fence with nothing before it goes on. -/
theorem fence_next {s : State} {k : FKey} {o : SyncOp} (h : s.Ready (.fence o) k) (ha : s.acqPending k = false)
    (hp : s.fencePending k o.ord = false) (hm : ∀ m ∈ s.fencePeers k o.ord o.sc, s.outstanding m = [])
    (hf : fabRelease o.ord o.sc = true → s.fabPending k = false ∧ s.reportable k (.fence o) = none) :
    ∃ t, exec (.fence o) s = .next t ∧ (t.fib k).pc = (s.fib k).pc + 4 ∧ UnitFrame s t k none ∧
      (o.ord ≠ .rel → Scope.wide o.sc = true → (∀ c, k ≠ .ctl c) → t.l1.atD (clusterOf (s.coreOf k)) [] = []) := by
  have back := backstage_fenceOne (s.noted1 (.fence o) k) k o
  obtain ⟨t, ht, adv⟩ : ∃ t, exec (.fence o) s = .next t ∧ Advanced ((s.noted1 (.fence o) k).fenceOne k o) t k ((s.fib k).pc + 4) := by
    show ∃ t, execFence o s = .next t ∧ _
    unfold execFence
    exact issue_onLive_one h (fenceCheck_go ha hp hm hf) rfl rfl (back.keepsTurn k)
  obtain ⟨pc, frame⟩ := advanced_backstage back adv
  refine ⟨t, ht, pc, frame, fun hr hw hk => ?_⟩
  rw [adv.moved.dev, ← (notesOnly_noted1 s (.fence o) k).backstage.coreOf k]
  exact fenceOne_l1 hr hw hk

/-- R234: CFLUSH goes on once no element of its core is on its way. -/
theorem cflush_next {s : State} {k : FKey} (h : s.Ready .cflush k) (hf : s.fabPending k = false) (hr : s.reportable k .cflush = none) :
    ∃ t, exec .cflush s = .next t ∧ (t.fib k).pc = (s.fib k).pc + 4 ∧ UnitFrame s t k none := by
  obtain ⟨t, ht, adv⟩ : ∃ t, exec .cflush s = .next t ∧ Advanced (s.noted1 .cflush k) t k ((s.fib k).pc + 4) := by
    show ∃ t, execCflush s = .next t ∧ _
    unfold execCflush
    exact issue_one h (by simp [hf, State.reportCheck, hr]) rfl rfl (.of rfl rfl rfl k)
  exact ⟨t, ht, advanced_backstage (.refl _) adv⟩

/-- What RFENCE does for one agent. -/
def State.rfenceOne (s : State) (k : FKey) : State := s.updCore (s.coreOf k) fun c => { c with recCache := [] }

theorem rfenceOne_keepsTurn (s : State) (k : FKey) : KeepsTurn s (s.rfenceOne k) k := ⟨rfl, rfl, rfl⟩
theorem rfenceOne_unitFrame (s : State) (k : FKey) : UnitFrame s (s.rfenceOne k) k none :=
  ⟨.refl s, fun _ _ => rfl, fun _ _ => rfl, ⟨rfl, rfl, rfl⟩, fun _ _ _ => rfl⟩

/-- R237: RFENCE empties the record cache of its core. -/
theorem rfence_next {s : State} {k : FKey} (h : s.Ready .rfence k) :
    ∃ t, exec .rfence s = .next t ∧ (t.fib k).pc = (s.fib k).pc + 4 ∧ UnitFrame s t k none ∧ (t.core (s.coreOf k)).recCache = [] := by
  have notes := notesOnly_noted1 s .rfence k
  obtain ⟨t, ht, adv⟩ : ∃ t, exec .rfence s = .next t ∧ Advanced ((s.noted1 .rfence k).rfenceOne k) t k ((s.fib k).pc + 4) := by
    show ∃ t, execRfence s = .next t ∧ _
    unfold execRfence
    exact issue_onLive_one h rfl rfl rfl (rfenceOne_keepsTurn _ k)
  refine ⟨t, ht, adv.pc, ((notes.unitFrame k none).trans (rfenceOne_unitFrame _ k)).trans (adv.unitFrame none), ?_⟩
  rw [show t.core (s.coreOf k) = ((s.noted1 .rfence k).rfenceOne k).core (s.coreOf k) by unfold State.core; rw [adv.moved.dev],
    ← notes.backstage.coreOf k]
  simp [State.rfenceOne]

/-- What INVL1 does for one agent. -/
def State.invl1One (s : State) (k : FKey) : State :=
  { ((s.l1Clear (clusterOf (s.coreOf k))).sawHomes (.agent k)).updFib k (fun f => { f with fresh := s.nextReq + 1 }) with nextReq := s.nextReq + 1 }

theorem invl1One_fibres (s : State) (k : FKey) :
    (s.invl1One k).fibres = (s.updFib k fun f => { f with fresh := s.nextReq + 1 }).fibres := rfl

theorem invl1One_fib (s : State) (k : FKey) : (s.invl1One k).fib k = { s.fib k with fresh := s.nextReq + 1 } := by
  rw [← State.updFib_fib_same s k fun f => { f with fresh := s.nextReq + 1 }]
  unfold State.fib
  rw [invl1One_fibres]

theorem invl1One_fib_ne (s : State) {k m : FKey} (h : m ≠ k) : (s.invl1One k).fib m = s.fib m := by
  rw [← State.updFib_fib_ne s (fun f => { f with fresh := s.nextReq + 1 }) h]
  unfold State.fib
  rw [invl1One_fibres]

theorem invl1One_keepsTurn (s : State) (k : FKey) : KeepsTurn s (s.invl1One k) k := ⟨rfl, rfl, by unfold State.isHelper; rw [invl1One_fib]⟩

theorem invl1One_unitFrame (s : State) (k : FKey) : UnitFrame s (s.invl1One k) k none where
  memory := by unfold SameMemory; refine ⟨?_, ?_, ?_, ?_, ?_⟩ <;> rfl
  others m hm := invl1One_fib_ne s hm
  cell m _ := by rw [invl1One_fib]; rfl
  own := by rw [invl1One_fib]; exact ⟨rfl, rfl, rfl⟩
  scell g n _ := by
    have gangs : (s.invl1One k).gangs = s.gangs := rfl
    unfold State.gang
    rw [gangs]

/-- R238: INVL1 leaves no leased copy in the L1 of its cluster. -/
theorem invl1_next {s : State} {k : FKey} (h : s.Ready .invl1 k) :
    ∃ t, exec .invl1 s = .next t ∧ (t.fib k).pc = (s.fib k).pc + 4 ∧ UnitFrame s t k none ∧ t.l1.atD (clusterOf (s.coreOf k)) [] = [] := by
  have notes := notesOnly_noted1 s .invl1 k
  obtain ⟨t, ht, adv⟩ : ∃ t, exec .invl1 s = .next t ∧ Advanced ((s.noted1 .invl1 k).invl1One k) t k ((s.fib k).pc + 4) := by
    show ∃ t, execInvl1 s = .next t ∧ _
    unfold execInvl1
    exact issue_onLive_one h rfl rfl rfl (invl1One_keepsTurn _ k)
  refine ⟨t, ht, adv.pc, ((notes.unitFrame k none).trans (invl1One_unitFrame _ k)).trans (adv.unitFrame none), ?_⟩
  rw [adv.moved.dev, ← notes.backstage.coreOf k]
  simp [State.invl1One, State.sawHomes, State.l1Clear, State.updFib, State.setFib]

/-- R247: a prefetch goes on. -/
theorem pf_next {i : Instr} {l1 : Bool} {o : PfOp} {s : State} {k : FKey} (hx : exec i s = execPf i l1 o s) (hr : i.runEnding = false)
    (h : s.Ready i k) (hc : pfCheck o.a s k = .go) :
    ∃ t, exec i s = .next t ∧ (t.fib k).pc = (s.fib k).pc + 4 ∧ UnitFrame s t k none := by
  have live : (s.noted1 i k).isHelper k = false := by rw [(notesOnly_noted1 s i k).isHelper, h.live]
  have back : Backstage (s.noted1 i k) (((s.noted1 i k).prefetch k i l1 o.ch ((s.noted1 i k).src64 k o.a)).leaveMiss k) :=
    (backstage_prefetch _ _ _ _ _ _).trans (notesOnly_leaveMissOf _ _).backstage
  obtain ⟨t, ht, adv⟩ : ∃ t, exec i s = .next t ∧
      Advanced (((s.noted1 i k).prefetch k i l1 o.ch ((s.noted1 i k).src64 k o.a)).leaveMiss k) t k ((s.fib k).pc + 4) := by
    rw [hx]
    unfold execPf
    exact issue_one h hc hr (by simp only [onLive_one live, List.foldl_cons, List.foldl_nil]) (back.keepsTurn k)
  exact ⟨t, ht, advanced_backstage back adv⟩

/-! ### BAR (R108, R159, R235) -/

/-- Of fibre `k` of `s` only what the end of a run touches differs, and of the machine only coaches and lines that were fetched. -/
structure RunOver (s t : State) : Prop where
  memory : SameMemory s t
  blocks : t.blocks = s.blocks
  fib : ∀ k, t.fib k = { s.fib k with k := (t.fib k).k, lastEnd := (t.fib k).lastEnd, readySince := (t.fib k).readySince }

theorem RunOver.refl (s : State) : RunOver s s := ⟨.refl s, rfl, fun _ => rfl⟩

/-- The end of the run of an agent that waits (R84, R153). -/
theorem runOver_endRun {s : State} {k : FKey} (h : s.Alone k) (hh : s.isHelper k = false) (hw : (s.fib k).wait ≠ .ready) :
    RunOver s s.endRun := by
  unfold State.endRun
  split
  next c p ha =>
    split
    · exact .refl s
    next x hx =>
      have alone := h c p x ha hx
      obtain ⟨n, hn, rfl⟩ := List.map_eq_singleton_iff.1 alone
      rw [syncHelpers_alone hx alone hh, hn]
      simp only [List.foldl_cons, List.foldl_nil]
      have stays : ∀ t : State, (t.fib (.fib x.block n)).wait ≠ .ready → t.boundaryTraps (.fib x.block n) = t := fun t ht => by
        simp [State.boundaryTraps, ht]
      rw [stays _ (by rw [State.updFib_fib_same]; exact hw)]
      refine ⟨.refl s, rfl, fun m => ?_⟩
      by_cases e : m = .fib x.block n
      · subst e; rw [State.updFib_fib_same]; rfl
      · rw [State.updFib_fib_ne _ _ e]; rfl
  · exact .refl s

/-- Fibre `k` has come to a BAR of block or cluster scope; of the others' places nothing has changed. -/
structure Arrived (s t : State) (k : FKey) (clu : Bool) : Prop where
  memory : SameMemory s t
  blocks : t.blocks = s.blocks
  own : (t.fib k).wait = .bar clu ∧ (t.fib k).pc = (s.fib k).pc ∧ (t.fib k).status = (s.fib k).status
  others : ∀ m, m ≠ k → (t.fib m).wait = (s.fib m).wait ∧ (t.fib m).status = (s.fib m).status

/-- A word of one agent that ends its run. -/
theorem issue_ending {s v : State} {i : Instr} {k : FKey} {check : State → FKey → Verdict} {eff : State → List FKey → State}
    {next : State → FKey → W64} {after : State → List FKey → State} (h : s.Ready i k) (hc : check s k = .go) (hr : i.runEnding = true)
    (he : eff (s.noted1 i k) [k] = v) :
    issue i s check eff next after =
      .next (after ((v.dropLines [k]).updFib k fun f => { f with pc := next (s.noted1 i k) k }).endRun [k]) := by
  rw [issue_next (h.proceeds hc), if_pos hr, h.performers hc, h.noted hc, he]
  simp [h.live, State.setPcs]

/-- A fibre waits at a BAR. -/
def State.comeToBar (s : State) (k : FKey) (clu : Bool) : State := s.updFib k fun f => { f with wait := .bar clu }

/-- A fibre has come to a BAR, its run not yet ended. -/
def State.barOne (s : State) (k : FKey) (clu : Bool) : State :=
  ((s.comeToBar k clu).dropLines [k]).updFib k fun f => { f with pc := (s.fib k).pc }

theorem barOne_rest (s : State) (k : FKey) (clu : Bool) : s.barOne k clu =
    { s with fibres := (s.barOne k clu).fibres, lineBuf := (s.barOne k clu).lineBuf, evicted := (s.barOne k clu).evicted } := rfl

theorem barOne_fib_other (s : State) {k m : FKey} (clu : Bool) (h : m ≠ k) : (s.barOne k clu).fib m = s.fib m := by
  have drop : ∀ (t : State) ks m, (t.dropLines ks).fib m = t.fib m := fun _ _ _ => rfl
  rw [State.barOne, State.updFib_fib_ne _ _ h, drop, State.comeToBar, State.updFib_fib_ne _ _ h]

theorem barOne_fib (s : State) (k : FKey) (clu : Bool) : (s.barOne k clu).fib k = { s.fib k with wait := .bar clu } := by
  have drop : ∀ (t : State) ks m, (t.dropLines ks).fib m = t.fib m := fun _ _ _ => rfl
  simp [State.barOne, drop, State.comeToBar]

theorem barOne_alone {s : State} {k : FKey} {clu : Bool} (h : s.Alone k) : (s.barOne k clu).Alone k := h.of_eq (by rw [barOne_rest]) (by rw [barOne_rest])

/-- The fibre that comes to the BAR of `s`, noted. -/
theorem arrived_barOne {s t : State} (h : NotesOnly s t) (k : FKey) (clu : Bool) : Arrived s (t.barOne k clu) k clu where
  memory := by rw [barOne_rest]; exact (h.unitFrame k none).memory
  blocks := by rw [barOne_rest]; exact h.backstage.blocks
  own := by rw [barOne_fib, h.fib]; exact ⟨rfl, rfl, rfl⟩
  others m hm := by rw [barOne_fib_other t clu hm, h.fib]; exact ⟨rfl, rfl⟩

theorem Arrived.then {s t u : State} {k : FKey} {clu : Bool} (h : Arrived s t k clu) (h' : RunOver t u) : Arrived s u k clu where
  memory := h.memory.trans h'.memory
  blocks := h'.blocks.trans h.blocks
  own := by rw [h'.fib]; exact h.own
  others m hm := by rw [h'.fib]; exact h.others m hm

/-- BAR of one agent: it waits, its run ends, and the rendezvous of its block is tested. -/
theorem execBar_one {o : SyncOp} {s : State} {b n : Nat} (h : s.Ready (.bar o) (.fib b n)) (ha : s.acqPending (.fib b n) = false)
    (ho : s.outstanding (.fib b n) = []) :
    ∃ t, Arrived s t (.fib b n) (decide (o.sc = .clu)) ∧ exec (.bar o) s = .next (t.barCheck b) := by
  have notes := notesOnly_noted1 s (.bar o) (.fib b n)
  have live : (s.noted1 (.bar o) (.fib b n)).isHelper (.fib b n) = false := by rw [notes.isHelper, h.live]
  have own := barOne_fib (s.noted1 (.bar o) (.fib b n)) (.fib b n) (decide (o.sc = .clu))
  have arrived := arrived_barOne notes (.fib b n) (decide (o.sc = .clu))
  have alone := ((State.alone_of_members h.sole).of_eq (notes.keepsTurn (.fib b n)).agent notes.pipes)
  refine ⟨_, arrived.then (runOver_endRun (barOne_alone alone) ?_ ?_), ?_⟩
  · unfold State.isHelper at *; rw [own]; exact live
  · rw [own]; simp
  · show execBar o s = _
    unfold execBar
    exact issue_ending h (by simp [ha, ho]) rfl (onLive_one live _)

/-! #### The rendezvous of a block -/

theorem sameMemory_barDone (s : State) (ks : List FKey) (sc : Scope) : SameMemory s (s.barDone ks sc) :=
  ((veilOnly_noteBarrier s ks sc).notes.unitFrame (.ap 0) none).memory.trans (regsOnly_resumeAll _ ks).sameMemory

theorem barDone_fib_of_not_mem (s : State) {ks : List FKey} {k : FKey} (sc : Scope) (h : k ∉ ks) : (s.barDone ks sc).fib k = s.fib k := by
  rw [State.barDone, resumeAll_fib_of_not_mem _ h, (veilOnly_noteBarrier s ks sc).fib]

theorem barDone_block (s : State) (ks : List FKey) (sc : Scope) (b : Nat) : (s.barDone ks sc).block b = s.block b := by
  rw [State.barDone, (regsOnly_resumeAll _ ks).block, (veilOnly_noteBarrier s ks sc).notes.block]

/-- A fibre that is listed once goes on at the next word. -/
theorem resumeAll_fib_of_mem (s : State) {ks : List FKey} {k : FKey} (hk : k ∈ ks) (hn : ks.Nodup) :
    ((s.resumeAll ks).fib k).wait = .ready ∧ ((s.resumeAll ks).fib k).pc = (s.fib k).pc + 4 := by
  induction ks generalizing s with
  | nil => simp at hk
  | cons x xs ih =>
    obtain ⟨hx, hn⟩ := List.nodup_cons.1 hn
    show (((s.resume x).resumeAll xs).fib k).wait = _ ∧ (((s.resume x).resumeAll xs).fib k).pc = _
    by_cases e : k = x
    · subst e
      rw [resumeAll_fib_of_not_mem _ hx]
      simp [State.resume]
    · have ne : (s.resume x).fib k = s.fib k := State.updFib_fib_ne s _ e
      rw [← ne]
      exact ih (s.resume x) ((List.mem_cons.1 hk).resolve_left e) hn

theorem barDone_fib_of_mem (s : State) {ks : List FKey} {k : FKey} (sc : Scope) (hk : k ∈ ks) (hn : ks.Nodup) :
    ((s.barDone ks sc).fib k).wait = .ready ∧ ((s.barDone ks sc).fib k).pc = (s.fib k).pc + 4 := by
  rw [State.barDone, ← (veilOnly_noteBarrier s ks sc).fib]
  exact resumeAll_fib_of_mem _ hk hn

theorem mem_barWaiters {s : State} {b : Nat} {clu : Bool} {k : FKey} :
    k ∈ s.barWaiters b clu ↔ (∃ n ∈ s.liveSlots b, k = .fib b n) ∧ (s.fib k).wait = .bar clu := by
  have bar : ∀ f : Fibre, f.atBar = some clu ↔ f.wait = .bar clu := fun f => by
    unfold Fibre.atBar
    split
    · next c hc => rw [hc, Option.some.injEq, Wait.bar.injEq]
    · next hc => exact ⟨nofun, fun e => absurd e (hc clu)⟩
  simp only [State.barWaiters, List.mem_filter, List.mem_map, decide_eq_true_eq, bar]
  simp only [eq_comm]

theorem barWaiters_nodup (s : State) (b : Nat) (clu : Bool) : (s.barWaiters b clu).Nodup :=
  ((List.nodup_range.filter _).map (fun _ _ e => by simpa using e)).filter _

/-- Waiters of a block at the two scopes differ, and so do those of two blocks. -/
theorem barWaiters_append_nodup (s : State) {b u : Nat} {c d : Bool} (h : b ≠ u ∨ c ≠ d) : (s.barWaiters b c ++ s.barWaiters u d).Nodup := by
  refine List.nodup_append.2 ⟨barWaiters_nodup s b c, barWaiters_nodup s u d, fun k hk k' hk' e => ?_⟩
  subst e
  obtain ⟨⟨n, -, rfl⟩, hc⟩ := mem_barWaiters.1 hk
  obtain ⟨⟨m, -, e⟩, hd⟩ := mem_barWaiters.1 hk'
  rw [hc] at hd
  simp at e hd
  exact h.elim (fun x => x e.1) fun x => x hd

theorem allAtBar_iff {s : State} {b : Nat} : s.allAtBar b = true ↔ ∀ n ∈ s.liveSlots b, (s.fib (.fib b n)).atBar.isSome = true := by
  simp [State.allAtBar]

/-- Whether a block has arrived rests on its own fibres. -/
theorem allAtBar_congr {s t : State} {u : Nat} (hb : t.block u = s.block u)
    (hf : ∀ n, (t.fib (.fib u n)).wait = (s.fib (.fib u n)).wait ∧ (t.fib (.fib u n)).status = (s.fib (.fib u n)).status) :
    t.allAtBar u = s.allAtBar u := by
  simp only [State.allAtBar, State.liveSlots, Fibre.atBar, hb, hf]

theorem barDone_status (s : State) (ks : List FKey) (sc : Scope) (m : FKey) : ((s.barDone ks sc).fib m).status = (s.fib m).status := by
  rw [State.barDone, ← (veilOnly_noteBarrier s ks sc).fib]
  refine foldl_rel (R := fun s t : State => (t.fib m).status = (s.fib m).status) (fun _ => rfl) (fun a a' => a'.trans a) (fun s x => ?_) ks _
  by_cases e : m = x
  · subst e; simp [State.resume]
  · rw [State.resume, State.updFib_fib_ne s _ e]

theorem barDone_liveSlots (s : State) (ks : List FKey) (sc : Scope) (b : Nat) : (s.barDone ks sc).liveSlots b = s.liveSlots b := by
  simp only [State.liveSlots, barDone_block, barDone_status]

/-- The arrival of a block at block scope is no other block's. -/
theorem barDone_allAtBar_other (s : State) {b u : Nat} (h : u ≠ b) :
    (s.barDone (s.barWaiters b false) .blk).allAtBar u = s.allAtBar u :=
  allAtBar_congr (barDone_block s _ _ u) fun n => by
    have out : FKey.fib u n ∉ s.barWaiters b false := fun hm => by
      obtain ⟨⟨m, -, e⟩, -⟩ := mem_barWaiters.1 hm
      exact h (by simp at e; exact e.1)
    rw [barDone_fib_of_not_mem s .blk out]; exact ⟨rfl, rfl⟩

section Rendezvous
variable {s t : State} {b n : Nat} {clu : Bool} (h : Arrived s t (.fib b n) clu) (hn : n ∈ s.liveSlots b)
include h

theorem Arrived.block (x : Nat) : t.block x = s.block x := by unfold State.block; rw [h.blocks]

theorem Arrived.liveSlots (x : Nat) : t.liveSlots x = s.liveSlots x := by
  obtain ⟨-, -, status⟩ := h.own
  have same : ∀ m, (t.fib m).status = (s.fib m).status := fun m => by
    by_cases e : m = .fib b n
    · rw [e, status]
    · obtain ⟨-, hs⟩ := h.others m e
      exact hs
  simp only [State.liveSlots, h.block, same]

theorem Arrived.allAtBar_other {u : Nat} (hu : u ≠ b) : t.allAtBar u = s.allAtBar u :=
  allAtBar_congr (h.block u) fun m => h.others _ (by simp [hu])

/-- Its block has arrived once every other live fibre of it has. -/
theorem Arrived.allAtBar : t.allAtBar b = true ↔ ∀ m ∈ s.liveSlots b, m ≠ n → (s.fib (.fib b m)).atBar.isSome = true := by
  obtain ⟨wait, -, -⟩ := h.own
  rw [allAtBar_iff, h.liveSlots]
  refine forall₂_congr fun m _ => ?_
  by_cases e : m = n
  · subst e; simp [Fibre.atBar, wait]
  · obtain ⟨hw, -⟩ := h.others (.fib b m) (by simp [e])
    simp [e, Fibre.atBar, hw]

/-- While its rendezvous lacks someone, a fibre at a BAR waits (R159, R235). -/
theorem Arrived.lacks (h' : t.allAtBar b = false ∨ ∃ u, (t.block b).twin = some u ∧ clu = true ∧ u ≠ b ∧ t.allAtBar u = false) :
    (t.barCheck b).fib (.fib b n) = t.fib (.fib b n) := by
  unfold State.barCheck
  by_cases all : t.allAtBar b = true
  · obtain ⟨u, hu, rfl, ne, out⟩ := h'.resolve_left (by simp [all])
    obtain ⟨wait, -, -⟩ := h.own
    rw [if_neg (by simp [all]), hu]
    dsimp only
    rw [if_neg (by rw [barDone_allAtBar_other t ne, out]; decide)]
    refine barDone_fib_of_not_mem t .blk fun hm => ?_
    obtain ⟨-, hb⟩ := mem_barWaiters.1 hm
    rw [wait] at hb; exact absurd hb (by simp)
  · rw [if_pos (by simpa using all)]

include hn

theorem Arrived.waits : .fib b n ∈ t.barWaiters b clu := by
  obtain ⟨wait, -, -⟩ := h.own
  exact mem_barWaiters.2 ⟨⟨n, by rw [h.liveSlots]; exact hn, rfl⟩, wait⟩

/-- The last to arrive goes on (R159, R235). -/
theorem Arrived.last (all : t.allAtBar b = true) (twin : ∀ u, (t.block b).twin = some u → clu = true → u ≠ b ∧ t.allAtBar u = true) :
    ((t.barCheck b).fib (.fib b n)).wait = .ready ∧ ((t.barCheck b).fib (.fib b n)).pc = (t.fib (.fib b n)).pc + 4 := by
  have waits := h.waits hn
  unfold State.barCheck
  rw [if_neg (by simp [all])]
  split
  · exact barDone_fib_of_mem t .blk (List.mem_append.2 (by cases clu; exacts [.inl waits, .inr waits])) (barWaiters_append_nodup t (.inr (by decide)))
  next u hu =>
    dsimp only
    cases clu
    · obtain ⟨wait, pc⟩ := barDone_fib_of_mem t .blk waits (barWaiters_nodup t b false)
      have out : ∀ c, FKey.fib b n ∉ (t.barDone (t.barWaiters b false) .blk).barWaiters c true := fun c hc => by
        obtain ⟨-, hb⟩ := mem_barWaiters.1 hc
        rw [wait] at hb; exact absurd hb nofun
      split
      · rw [barDone_fib_of_not_mem _ .clu (by simp [out])]; exact ⟨wait, pc⟩
      · exact ⟨wait, pc⟩
    · obtain ⟨ne, arrived⟩ := twin u hu rfl
      obtain ⟨wait, -, -⟩ := h.own
      have stays : (t.barDone (t.barWaiters b false) .blk).fib (.fib b n) = t.fib (.fib b n) := barDone_fib_of_not_mem t .blk fun hm => by
        obtain ⟨-, hb⟩ := mem_barWaiters.1 hm
        rw [wait] at hb; exact absurd hb (by simp)
      have listed : .fib b n ∈ (t.barDone (t.barWaiters b false) .blk).barWaiters b true :=
        mem_barWaiters.2 ⟨⟨n, by rw [barDone_liveSlots, h.liveSlots]; exact hn, rfl⟩, by rw [stays]; exact wait⟩
      rw [if_pos (by rw [barDone_allAtBar_other t ne]; exact arrived), ← stays]
      exact barDone_fib_of_mem _ .clu (List.mem_append_left _ listed) (barWaiters_append_nodup _ (.inl ne.symm))

end Rendezvous

theorem sameMemory_barCheck (s : State) (b : Nat) : SameMemory s (s.barCheck b) := by
  unfold State.barCheck
  split
  · exact .refl s
  split
  · exact sameMemory_barDone _ _ _
  · dsimp only
    split
    · exact (sameMemory_barDone _ _ _).trans (sameMemory_barDone _ _ _)
    · exact sameMemory_barDone _ _ _

/-- R108, R159, R235: BAR lets its fibre go on where it is the last to arrive. -/
theorem bar_goes_on {o : SyncOp} {s : State} {b n : Nat} (h : s.Ready (.bar o) (.fib b n)) (hn : n ∈ s.liveSlots b)
    (ha : s.acqPending (.fib b n) = false) (ho : s.outstanding (.fib b n) = [])
    (all : ∀ m ∈ s.liveSlots b, m ≠ n → (s.fib (.fib b m)).atBar.isSome = true)
    (twin : ∀ u, (s.block b).twin = some u → o.sc = .clu → u ≠ b ∧ s.allAtBar u = true) :
    ∃ t, exec (.bar o) s = .next t ∧ SameMemory s t ∧ (t.fib (.fib b n)).pc = (s.fib (.fib b n)).pc + 4 ∧ (t.fib (.fib b n)).wait = .ready := by
  obtain ⟨t, arr, ht⟩ := execBar_one h ha ho
  obtain ⟨-, pc, -⟩ := arr.own
  obtain ⟨wait, pc'⟩ := arr.last hn (arr.allAtBar.2 all) fun u hu hc => by
    rw [arr.block] at hu
    obtain ⟨ne, at_⟩ := twin u hu (by simpa using hc)
    exact ⟨ne, by rw [arr.allAtBar_other ne]; exact at_⟩
  exact ⟨_, ht, arr.memory.trans (sameMemory_barCheck t b), by rw [pc', pc], wait⟩

/-- R108, R159, R235: otherwise it waits there. -/
theorem bar_waits {o : SyncOp} {s : State} {b n : Nat} (h : s.Ready (.bar o) (.fib b n))
    (ha : s.acqPending (.fib b n) = false) (ho : s.outstanding (.fib b n) = [])
    (lacks : (∃ m ∈ s.liveSlots b, m ≠ n ∧ (s.fib (.fib b m)).atBar = none) ∨
      ∃ u, (s.block b).twin = some u ∧ o.sc = .clu ∧ u ≠ b ∧ s.allAtBar u = false) :
    ∃ t, exec (.bar o) s = .next t ∧ SameMemory s t ∧ (t.fib (.fib b n)).pc = (s.fib (.fib b n)).pc ∧
      (t.fib (.fib b n)).wait = .bar (decide (o.sc = .clu)) := by
  obtain ⟨t, arr, ht⟩ := execBar_one h ha ho
  obtain ⟨wait, pc, -⟩ := arr.own
  have stays := arr.lacks <| lacks.imp
    (fun ⟨m, hm, ne, out⟩ => Bool.eq_false_iff.2 fun all => by
      have := arr.allAtBar.1 all m hm ne
      rw [out] at this; exact absurd this (by decide))
    fun ⟨u, hu, hc, ne, out⟩ => ⟨u, by rw [arr.block]; exact hu, by simp [hc], ne, by rw [arr.allAtBar_other ne]; exact out⟩
  exact ⟨_, ht, arr.memory.trans (sameMemory_barCheck t b), by rw [stays, pc], by rw [stays, wait]⟩

/-- Settles O32, a word at a time: fences, CFLUSH, RFENCE, INVL1, the prefetches, then both outcomes of BAR. -/
theorem fencesAndBarriers : Obligations.FencesAndBarriers := by
  unfold Obligations.FencesAndBarriers Claims.Fences Claims.Barriers
  refine ⟨⟨fun o s k h ha hp hm hf => fence_next h ha hp hm hf, fun s k h hf hr => cflush_next h hf hr, fun s k h => rfence_next h,
    fun s k h => invl1_next h, fun i o s k hi h hc => ?_⟩, fun o s b n h hn ha ho => ⟨bar_goes_on h hn ha ho, bar_waits h ha ho⟩⟩
  obtain rfl | rfl := hi
  · exact pf_next rfl rfl h hc
  · exact pf_next rfl rfl h hc

end Sys2Proof.Machine
end

section
/-!
PROOFS. Atomics: what they ask for, of this device or of another, and what they compute (R120, R229 to R231, R403).
-/

namespace Sys2Proof.Machine

/-! ### Values (R230, R231) -/

/-- The low half of a 64-bit value. -/
theorem toNat_setWidth_32 (v : W64) : (v.setWidth 32).toNat = v.toNat % 2 ^ 32 := BitVec.toNat_setWidth 32 v
theorem toNat_setWidth_64 (v : W32) : (v.setWidth 64).toNat = v.toNat := BitVec.toNat_setWidth_of_le (by decide)

theorem minS_toNat (a b : W32) :
    (minS a b).toNat = if (BitVec.ofNat 32 a.toNat).toInt ≤ (BitVec.ofNat 32 b.toNat).toInt then a.toNat else b.toNat := by
  simp only [BitVec.ofNat_toNat, BitVec.setWidth_eq]
  unfold minS
  by_cases e : a.toInt = b.toInt
  · simp [BitVec.eq_of_toInt_eq e]
  · by_cases h : a.toInt < b.toInt
    · rw [if_pos (BitVec.slt_iff_toInt_lt.2 h), if_pos (by omega)]
    · rw [if_neg (by rw [BitVec.slt_iff_toInt_lt]; exact h), if_neg (by omega)]

theorem maxS_toNat (a b : W32) :
    (maxS a b).toNat = if (BitVec.ofNat 32 a.toNat).toInt ≤ (BitVec.ofNat 32 b.toNat).toInt then b.toNat else a.toNat := by
  simp only [BitVec.ofNat_toNat, BitVec.setWidth_eq]
  unfold maxS
  by_cases e : a.toInt = b.toInt
  · simp [BitVec.eq_of_toInt_eq e]
  · by_cases h : a.toInt < b.toInt
    · rw [if_pos (BitVec.slt_iff_toInt_lt.2 h), if_pos (by omega)]
    · rw [if_neg (by rw [BitVec.slt_iff_toInt_lt]; exact h), if_neg (by omega)]

theorem minU_toNat (a b : W32) : (minU a b).toNat = min a.toNat b.toNat := by
  unfold minU
  rw [Nat.min_def]
  by_cases h : a.toNat < b.toNat
  · rw [if_pos (by simpa [BitVec.ult] using h), if_pos h.le]
  · rw [if_neg (by simpa [BitVec.ult] using h)]
    split <;> omega

theorem maxU_toNat (a b : W32) : (maxU a b).toNat = max a.toNat b.toNat := by
  unfold maxU
  rw [Nat.max_def]
  by_cases h : a.toNat < b.toNat
  · rw [if_pos (by simpa [BitVec.ult] using h), if_pos h.le]
  · rw [if_neg (by simpa [BitVec.ult] using h)]
    split <;> omega

theorem halves_toNat (f : Nat → Nat → Nat) (a b : W32) :
    (halves (fun x y _ => f x y) a b 0).toNat =
      (f (a.toNat % 2 ^ 16) (b.toNat % 2 ^ 16) + 2 ^ 16 * f (a.toNat / 2 ^ 16) (b.toNat / 2 ^ 16)) % 2 ^ 32 := by
  have ha := a.isLt
  have hb := b.isLt
  have low : ∀ v, bits v 15 0 = v % 2 ^ 16 := fun v => by simp [bits]
  have high : ∀ v, v < 2 ^ 32 → bits v 31 16 = v / 2 ^ 16 := fun v hv => Nat.mod_eq_of_lt (by omega)
  rw [halves, BitVec.toNat_ofNat, low, low, high _ ha, high _ hb]

/-- The 32-bit atomics (R230): the new value, on numbers. -/
theorem atomApply_32 {op : Nat} (h : op ∈ [0x20, 0x21, 0x22, 0x23, 0x24, 0x25, 0x26, 0x27, 0x28, 0x29, 0x2B, 0x2F]) (old d e : W64) :
    (atomApply op old d e).1.map BitVec.toNat = atomNew op (old.toNat % 2 ^ 32) (d.toNat % 2 ^ 32) (e.toNat % 2 ^ 32) ∧
      (atomApply op old d e).2 = old.toNat % 2 ^ 32 := by
  rw [← toNat_setWidth_32 old, ← toNat_setWidth_32 d]
  simp only [List.mem_cons, List.not_mem_nil, or_false] at h
  rcases h with rfl | rfl | rfl | rfl | rfl | rfl | rfl | rfl | rfl | rfl | rfl | rfl <;>
    refine ⟨congrArg some ?_, rfl⟩ <;> rw [toNat_setWidth_64]
  · exact BitVec.toNat_add _ _
  · exact BitVec.toNat_ofNat _ _
  · exact minS_toNat _ _
  · exact maxS_toNat _ _
  · exact minU_toNat _ _
  · exact maxU_toNat _ _
  · exact BitVec.toNat_and _ _
  · exact BitVec.toNat_or _ _
  · exact BitVec.toNat_xor _ _
  · exact BitVec.toNat_add _ _
  · exact halves_toNat fp16.add _ _

/-- ACAS (R231). -/
theorem atomApply_acas (old d e : W64) :
    (atomApply 0x2A old d e).1.map BitVec.toNat = atomNew 0x2A (old.toNat % 2 ^ 32) (d.toNat % 2 ^ 32) (e.toNat % 2 ^ 32) ∧
      (atomApply 0x2A old d e).2 = old.toNat % 2 ^ 32 + if old.toNat % 2 ^ 32 = e.toNat % 2 ^ 32 then 2 ^ 32 else 0 := by
  have same : old.setWidth 32 = e.setWidth 32 ↔ old.toNat % 2 ^ 32 = e.toNat % 2 ^ 32 := by
    rw [← toNat_setWidth_32, ← toNat_setWidth_32, BitVec.toNat_inj]
  simp only [atomApply, atomNew, ← same]
  split
  · simp only [Option.map_some, toNat_setWidth_64, toNat_setWidth_32, and_self]
  · simp only [Option.map_none, toNat_setWidth_32, Nat.add_zero, and_self]

/-- ACAS64 (R231). -/
theorem atomApply_acas64 (old d e : W64) :
    (atomApply 0x2D old d e).1.map BitVec.toNat = atomNew 0x2D old.toNat d.toNat e.toNat ∧
      (atomApply 0x2D old d e).2 = old.toNat + if old.toNat = e.toNat then 2 ^ 64 else 0 := by
  simp only [atomApply, atomNew, BitVec.toNat_inj]
  split
  · exact ⟨rfl, rfl⟩
  · exact ⟨rfl, rfl⟩

/-- R230, R231. -/
theorem atomicValues : Claims.AtomicValues := by
  unfold Claims.AtomicValues
  intro op old d e lo hi
  have full : ∀ v : W64, v.toNat % 2 ^ 64 = v.toNat := fun v => Nat.mod_eq_of_lt v.isLt
  have cases_ : op ∈ [0x20, 0x21, 0x22, 0x23, 0x24, 0x25, 0x26, 0x27, 0x28, 0x29, 0x2B, 0x2F] ∨ op = 0x2A ∨ op = 0x2C ∨ op = 0x2D ∨ op = 0x2E := by
    simp only [List.mem_cons, List.not_mem_nil, or_false]; omega
  rcases cases_ with h | rfl | rfl | rfl | rfl
  · have small : ¬(op = 0x2A ∨ op = 0x2D) ∧ ¬(0x2C ≤ op ∧ op ≤ 0x2E) := by
      simp only [List.mem_cons, List.not_mem_nil, or_false] at h; omega
    simp only [atomBytes, if_neg small.1, if_neg small.2]
    exact atomApply_32 h old d e
  · exact atomApply_acas old d e
  · rw [show 8 * atomBytes 0x2C = 64 from rfl]
    simp only [full]
    exact ⟨congrArg some (BitVec.toNat_add _ _), rfl⟩
  · rw [show 8 * atomBytes 0x2D = 64 from rfl]
    simp only [full]
    exact atomApply_acas64 old d e
  · rw [show 8 * atomBytes 0x2E = 64 from rfl]
    simp only [full]
    exact ⟨rfl, rfl⟩

/-! ### The words (R229, R230) -/

/-- Instruction `i` is the atomic of operation `op` that asks for `w`, which no note bears on. -/
structure AtomWord (i : Instr) (o : AtomOp) (op : Nat) (kd : SlotKind) (w : State → FKey → What) : Prop where
  runs : ∀ s, exec i s = atomic i o op kd w s
  goesOn : i.runEnding = false
  asks : ∀ s k, ∃ x e, w s k = .atom op o.use x e
  notes : ∀ {s t : State}, NotesOnly s t → ∀ k, w t k = w s k

theorem NotesOnly.src64 {s t : State} (h : NotesOnly s t) (k : FKey) (r : Reg) : t.src64 k r = s.src64 k r := by rw [h]; rfl

/-- The rows of 32-bit operands. -/
theorem atomWord_word {i : Instr} {o : AtomOp} {op : Nat} (hx : ∀ s, exec i s = atomic i o op .vs (atom32 op o) s) (hr : i.runEnding = false) :
    AtomWord i o op .vs (atomRow.word op o) := by
  have same : atomRow.word op o = atom32 op o := by
    funext s k
    simp [atomRow.word, atom32]
  exact ⟨by rw [same]; exact hx, hr, fun s k => ⟨_, _, rfl⟩, fun h k => by simp only [atomRow.word, h.src32]⟩

/-- The rows of 64-bit operands. -/
theorem atomWord_dword {i : Instr} {o : AtomOp} {op : Nat} (hx : ∀ s, exec i s = atomic i o op .xs (atom64 op o) s) (hr : i.runEnding = false) :
    AtomWord i o op .xs (atomRow.dword op o) :=
  ⟨hx, hr, fun s k => ⟨_, _, rfl⟩, fun h k => by simp only [atomRow.dword, h.src64]⟩

theorem atomWord_acas (o : AtomOp) : AtomWord (.acas o) o 0x2A .x fun s k =>
    .atom 0x2A o.use (BitVec.ofNat 64 ((s.src64 k o.d).toNat / 2 ^ 32)) (BitVec.ofNat 64 ((s.src64 k o.d).toNat % 2 ^ 32)) := by
  have high : ∀ v : W64, v >>> 32 = BitVec.ofNat 64 (v.toNat / 2 ^ 32) := fun v => BitVec.eq_of_toNat_eq (by
    rw [BitVec.toNat_ushiftRight, BitVec.toNat_ofNat, Nat.shiftRight_eq_div_pow, Nat.mod_eq_of_lt]
    exact Nat.lt_of_le_of_lt (Nat.div_le_self _ _) v.isLt)
  have low : ∀ v : W64, (v.setWidth 32).setWidth 64 = BitVec.ofNat 64 (v.toNat % 2 ^ 32) := fun v => BitVec.eq_of_toNat_eq (by
    rw [toNat_setWidth_64, toNat_setWidth_32, BitVec.toNat_ofNat, Nat.mod_eq_of_lt (a := v.toNat % 2 ^ 32) (by omega)])
  refine ⟨fun s => ?_, rfl, fun s k => ⟨_, _, rfl⟩, fun h k => by simp only [h.src64]⟩
  show execAcas o s = _
  simp only [execAcas, high, low]

theorem atomWord_acas64 (o : AtomOp) : AtomWord (.acas64 o) o 0x2D (.grp 4 4) fun s k =>
    .atom 0x2D o.use (BitVec.ofNat 64 (s.dataOf k (rdSlot (.grp 4 4) o.d) / 2 ^ 64)) (BitVec.ofNat 64 (s.dataOf k (rdSlot (.grp 4 4) o.d))) :=
  ⟨fun _ => rfl, rfl, fun s k => ⟨_, _, rfl⟩, fun h k => by simp only [h.dataOf]⟩

theorem atomWord_ainc (o : AtomOp) : AtomWord (.ainc o) o 0x2B .vs fun _ _ => .atom 0x2B o.use 0 0 :=
  ⟨fun _ => rfl, rfl, fun _ _ => ⟨_, _, rfl⟩, fun _ _ => rfl⟩

/-- Every row of the table is an atomic word. -/
theorem atomWord_of_row {i : Instr} {o : AtomOp} {op : Nat} {kd : SlotKind} {w : State → FKey → What} (h : atomRow i = some (o, op, kd, w)) :
    AtomWord i o op kd w := by
  unfold atomRow at h
  split at h <;> cases h
  case h_11 => exact atomWord_acas _
  case h_12 => exact atomWord_ainc _
  case h_13 => exact atomWord_dword (fun _ => rfl) rfl
  case h_14 => exact atomWord_acas64 _
  case h_15 => exact atomWord_dword (fun _ => rfl) rfl
  all_goals exact atomWord_word (fun _ => rfl) rfl

/-! ### The access of one agent (R220, R232) -/

/-- The destination of an access, if it has one, made empty. -/
def State.emptyDst (s : State) (k : FKey) (d : Option Slot) : State := match d with | none => s | some d => s.markEmpty k d

/-- What goes before the request of an access of one agent: its destination is empty, and what makes a launch non-recoverable is noted. -/
def State.beforeAccess (s : State) (k : FKey) (d : Option Slot) (r : Req) : State := (s.emptyDst k d).noteRecovery k r.what r.dev

/-- What an access of one agent does. -/
def State.accessOne (s : State) (k : FKey) (d : Option Slot) (r : Req) : State := (s.beforeAccess k d r).issueReq k (r.together [(k, r)])

/-- The request of one member is as its fields and the target of its address say. -/
theorem gaccReq_of_target {g : GAcc} {i : Instr} {what : State → FKey → What} {s : State} {ks : List FKey} {k : FKey} {x : Target}
    (h : s.target k (g.acc (what s k)) (s.src64 k g.a) = .ok x) :
    g.req i what s ks k = some (s.mkReq k i (s.src64 k g.a) x g.ch (what s k) g.ord g.sc ((g.dst.map fun d => s.memDst ks k d).getD .none)) := by
  simp only [GAcc.req, h]

theorem access_one {i : Instr} {g : GAcc} {what : State → FKey → What} {zero : Bool} {s : State} {k : FKey} {r : Req} (h : s.Ready i k)
    (hr : i.runEnding = false)
    (hc : s.memCheck k i (g.acc (what s k)) g.ord g.sc (s.src64 k g.a) g.al g.n (((g.req i what s [] k).map Req.cartable).getD false)
      (GAcc.one g i what) = .go)
    (hq : g.req i what (s.noted1 i k) [k] k = some r) (ht : KeepsTurn (s.noted1 i k) ((s.noted1 i k).accessOne k g.dst r) k) :
    ∃ t, access i g what zero s = .next t ∧ Advanced ((s.noted1 i k).accessOne k g.dst r) t k ((s.fib k).pc + 4) := by
  have live : (s.noted1 i k).isHelper k = false := by rw [(notesOnly_noted1 s i k).isHelper, h.live]
  unfold access
  refine issue_one h hc hr ?_ ht
  simp only [List.filterMap_cons, List.filterMap_nil, live, hq, Option.map_some, Bool.false_eq_true, if_false, List.foldl_cons, List.foldl_nil]
  unfold State.accessOne State.beforeAccess State.emptyDst
  cases g.dst <;> rfl

/-! ### What a target rests on (R220, R276) -/

/-- Once an agent has left the pages whose walks have ended, none of them keeps it from its access. -/
theorem replayWaits_leaveMissOf {s t : State} {p : Party} {m : Miss} (hm : m ∈ (s.leaveMissOf p).missQ) : t.replayWaits m p = false := by
  obtain ⟨hm, -⟩ := List.mem_filter.1 hm
  obtain ⟨m, -, rfl⟩ := List.mem_map.1 hm
  unfold State.replayWaits
  split
  · simp
  · next h =>
    have : m.filled = false := by
      cases hf : m.filled
      · rfl
      · exact absurd (by simp [hf]) h
    simp [this]

/-- A target that an agent has found stands once it has left the pages it has waited for, whatever is noted. -/
theorem checkGlobal_noted {s : State} {i : Instr} {k : FKey} {acc : Acc} {va : W64} {x : Target} (h : s.checkGlobal k acc va = .ok x) :
    (s.noted1 i k).checkGlobal k acc va = .ok x := by
  have veil : VeilOnly (s.leaveMiss k) (s.noted1 i k) := veilOnly_noteWord _ i _
  have missQ : (s.noted1 i k).missQ = (s.leaveMissOf (.agent k)).missQ := by rw [veil]; rfl
  have notes := notesOnly_noted1 s i k
  have pte : ∀ c a v n p, (s.noted1 i k).checkPte c a v n p = s.checkPte c a v n p := fun _ _ _ _ _ => by rw [notes]; rfl
  have hit : ∀ c p v, (s.noted1 i k).tlbHit c p v = s.tlbHit c p v := fun _ _ _ => by rw [notes]; rfl
  have core : (s.noted1 i k).coreOf k = s.coreOf k := notes.backstage.coreOf k
  have part : (s.noted1 i k).partOf k = s.partOf k := by rw [notes]; rfl
  unfold State.checkGlobal State.checkFor at *
  rw [core, part, hit]
  split at h
  · cases h
  next hcan =>
  rw [if_neg hcan]
  dsimp only at h ⊢
  split at h
  next e he =>
    split at h
    · cases h
    rw [pte, if_neg]
    · exact h
    · rw [missQ, Option.any_eq_true]
      rintro ⟨m, hm, hw⟩
      rw [replayWaits_leaveMissOf (List.mem_of_find?_eq_some hm)] at hw
      cases hw
  · split at h <;> cases h

theorem target_noted {s : State} {i : Instr} {k : FKey} {acc : Acc} {va : W64} {x : Target} (h : s.target k acc va = .ok x) :
    (s.noted1 i k).target k acc va = .ok x := by
  have notes := notesOnly_noted1 s i k
  have ok : ∀ n, (s.noted1 i k).paOk n = s.paOk n := fun n => by rw [notes]; rfl
  cases k with
  | ctl c => simpa only [State.target, ok] using h
  | fib b n => exact checkGlobal_noted h
  | ap c => exact checkGlobal_noted h

/-! ### Where a request of an atomic goes (R120, R281, R403) -/

/-- What stands between a request and another device is as it was: requests, carts, flows, routes and the leases that are held. -/
structure SamePaths (s t : State) : Prop where
  reqs : t.reqs = s.reqs
  dies : t.dies = s.dies
  flows : t.flows = s.flows
  routes : t.routeTab = s.routeTab
  leases : t.heldLeases = s.heldLeases

theorem SamePaths.refl (s : State) : SamePaths s s := ⟨rfl, rfl, rfl, rfl, rfl⟩
theorem SamePaths.trans {s t u : State} (h : SamePaths s t) (h' : SamePaths t u) : SamePaths s u :=
  ⟨h'.reqs.trans h.reqs, h'.dies.trans h.dies, h'.flows.trans h.flows, h'.routes.trans h.routes, h'.leases.trans h.leases⟩

theorem RegsOnly.samePaths {s t : State} (h : RegsOnly s t) : SamePaths s t := by
  refine ⟨?_, ?_, ?_, ?_, ?_⟩ <;> rw [h]

theorem NotesOnly.samePaths {s t : State} (h : NotesOnly s t) : SamePaths s t := h.kept.regs.samePaths

/-- Request `r` is placed at device `d` of `s`, to which it finds its way: it goes to no group and to no region this device holds, its
device is reached, and a cart and a packet are free for it. -/
structure State.Way (s : State) (r : Req) (d : Nat) : Prop where
  dev : r.dev = some d
  single : isGroup d = false
  free : s.held? d r.pa = none
  up : s.unreachable d = false
  room : s.unacked d < 1024
  cart : (s.die (dieOf r.core)).carts.length < 128

theorem State.Way.of_samePaths {s t : State} {r : Req} {d : Nat} (h : s.Way r d) (hp : SamePaths s t) : t.Way r d :=
  ⟨h.dev, h.single, by unfold State.held?; rw [hp.leases]; exact h.free, by unfold State.unreachable State.route; rw [hp.flows, hp.routes]; exact h.up,
    by unfold State.unacked; rw [hp.flows]; exact h.room, by unfold State.die; rw [hp.dies]; exact h.cart⟩

/-- A request has been issued as the last of all: what it is has not changed on its way. -/
structure Placed (s t : State) (r q : Req) : Prop where
  back : Backstage s t
  reqs : t.reqs = s.reqs ++ [q]
  org : q.org = r.org
  what : q.what = r.what
  pa : q.pa = r.pa
  dev : q.dev = r.dev
  dst : q.dst = r.dst
  core : q.core = r.core

theorem Placed.after {s t u : State} {r q : Req} (h : Placed t u r q) (hb : Backstage s t) (hr : t.reqs = s.reqs) : Placed s u r q :=
  ⟨hb.trans h.back, by rw [h.reqs, hr], h.org, h.what, h.pa, h.dev, h.dst, h.core⟩

theorem placed_addReq {s t : State} {r q : Req} (hb : Backstage s t) (hr : t.reqs = s.reqs) (org : q.org = r.org) (what : q.what = r.what)
    (pa : q.pa = r.pa) (dev : q.dev = r.dev) (dst : q.dst = r.dst) (core : q.core = r.core) :
    Placed s (t.addReq q) r { q with id := t.nextReq, since := t.clock } :=
  ⟨hb.trans (backstage_addReq t q), by rw [State.addReq, hr], org, what, pa, dev, dst, core⟩

theorem backstage_l1Drop (s : State) (c la : Nat) : Backstage s (s.l1Drop c la) := ⟨.refl s, rfl, rfl, rfl, rfl, rfl, rfl⟩
theorem backstage_updDie (s : State) (d : Nat) (f : Die → Die) : Backstage s (s.updDie d f) := ⟨.refl s, rfl, rfl, rfl, rfl, rfl, rfl⟩
theorem backstage_packetIn (s : State) (d c : Nat) (ids : List Nat) : Backstage s (s.packetIn d c ids) := ⟨.refl s, rfl, rfl, rfl, rfl, rfl, rfl⟩

/-- A write to this device: the copy of its cluster's L1 goes, and it is on its way to its home (R279). -/
theorem placed_startWrite (s : State) (r : Req) : Placed s (s.startWrite r) r { r with id := s.nextReq, since := s.clock } :=
  placed_addReq (backstage_l1Drop s _ _) rfl rfl rfl rfl rfl rfl rfl

/-- What goes before an access that is sent by itself: carts leave, and a write drops the copy of its line. -/
def State.beforeDirect (s : State) (r : Req) : State :=
  let ordered := (match r.what with | .atom _ _ _ _ => true | _ => false) && decide (r.ord ≠ .rlx)
  let t := s.flushCarts (dieOf r.core) fun x =>
    decide (x.dev = r.dev) && (ordered || (decide (x.core = r.core) && decide (x.pa / 128 = r.pa / 128)))
  if r.what.writes then t.l1Drop (clusterOf r.core) r.la else t

theorem sendDirect_eq (s : State) (r : Req) : s.sendDirect r =
    ((s.beforeDirect r).packet (r.dev.getD 0) [(s.beforeDirect r).nextReq]).addReq
      { r with stage := .remote, sentAt := (s.beforeDirect r).clock, deps := dedup (r.deps ++ (s.cartBound r).map Req.id) } := rfl

theorem beforeDirect_rest (s : State) (r : Req) : Backstage s (s.beforeDirect r) ∧ (s.beforeDirect r).reqs = s.reqs := by
  unfold State.beforeDirect
  dsimp only
  split
  · exact ⟨(backstage_updDie s _ _).trans (backstage_l1Drop _ _ _), rfl⟩
  · exact ⟨backstage_updDie s _ _, rfl⟩

/-- An access that is sent by itself (R121, R400). -/
theorem placed_sendDirect (s : State) (r : Req) : ∃ q, Placed s (s.sendDirect r) r q ∧ q.stage = .remote := by
  obtain ⟨back, reqs⟩ := beforeDirect_rest s r
  rw [sendDirect_eq]
  exact ⟨_, placed_addReq (back.trans (backstage_packetIn _ _ _ _)) reqs rfl rfl rfl rfl rfl rfl, rfl⟩

/-- A cart that has left still holds what it held. -/
theorem mem_leaveCarts {now : Nat} {p : Cart → Bool} {cs : List Cart} {c : Cart} (h : c ∈ cs) :
    ∃ c' ∈ leaveCarts now p cs, c'.dest = c.dest ∧ c'.elems = c.elems := by
  by_cases hp : (!c.leaving && p c) = true
  · exact ⟨_, List.mem_append_right _ (List.mem_map_of_mem (List.mem_filter.2 ⟨h, hp⟩)), rfl, rfl⟩
  · refine ⟨c, List.mem_append_left _ (List.mem_filter.2 ⟨h, ?_⟩), rfl, rfl⟩
    cases hl : c.leaving <;> simp_all

/-- An atomic meets no cell store (R125). -/
theorem meets_atom {s : State} {ids : List Nat} {r : Req} {op : Nat} {use : Use} {x e : W64} (h : r.what = .atom op use x e) :
    s.meets ids r = none := by
  have both : ∀ w, cellMeet w r.what = .both := fun w => by rw [h]; cases w <;> rfl
  simp [State.meets, both]

/-- A cart holds the request of serial `n` for device `d`. -/
def Die.Holds (x : Die) (d n : Nat) : Prop := ∃ c ∈ x.carts, c.dest = d ∧ n ∈ c.elems

/-- An atomic enters the FILLING cart of its device, or a new one (R403). -/
theorem placed_enterCart {s : State} {r : Req} {op : Nat} {use : Use} {x e : W64} (h : r.what = .atom op use x e)
    (hc : (s.die (dieOf r.core)).carts.length < 128) :
    ∃ t q, s.enterCart r = some t ∧ Placed s t r q ∧ q.stage = .cart ∧ (t.die (dieOf r.core)).Holds (r.dev.getD 0) q.id := by
  have placed := placed_addReq (q := { r with stage := .cart }) (backstage_l1Drop s (clusterOf r.core) r.la) rfl rfl rfl rfl rfl rfl rfl (r := r)
  have enter : ∀ f : Die → Die, Placed s ((((s.l1Drop (clusterOf r.core) r.la).addReq { r with stage := .cart })).updDie (dieOf r.core) f) r
      { r with stage := .cart, id := s.nextReq, since := s.clock } := fun f =>
    ⟨placed.back.trans (backstage_updDie _ _ _), placed.reqs, rfl, rfl, rfl, rfl, rfl, rfl⟩
  have die : ∀ f : Die → Die, ((((s.l1Drop (clusterOf r.core) r.la).addReq { r with stage := .cart })).updDie (dieOf r.core) f).die (dieOf r.core) =
      f (s.die (dieOf r.core)) := fun f => by simp [State.updDie, State.die, State.addReq, State.l1Drop]
  have full : ¬128 ≤ (s.die (dieOf r.core)).carts.length := by omega
  have none_ : ∀ o : Option Cart, (o.bind fun c => s.meets c.elems r) = none := fun o => by cases o <;> simp [meets_atom h]
  unfold State.enterCart
  dsimp only
  rw [none_]
  dsimp only
  split
  next c hf =>
    have hm := List.mem_of_find?_eq_some hf
    have open_ := List.find?_some hf
    split
    · refine ⟨_, _, rfl, enter _, rfl, ?_⟩
      rw [die]
      obtain ⟨c', hc', hd, he⟩ := mem_leaveCarts (now := s.clock) (p := fun c => decide (c.slots = 16)) (List.mem_map_of_mem
        (f := fun y : Cart => if decide (y.dest = r.dev.getD 0) && !y.leaving then { y with elems := y.elems ++ [s.nextReq], slots := y.slots + r.what.cartSlots } else y) hm)
      rw [if_pos open_] at hd he
      refine ⟨c', hc', hd.trans ?_, by rw [he]; simp⟩
      simp only [Bool.and_eq_true, decide_eq_true_eq] at open_
      exact open_.1
    · refine ⟨_, _, rfl, enter _, rfl, ?_⟩
      rw [die]
      exact ⟨_, List.mem_append_right _ (List.mem_singleton.2 rfl), rfl, by simp⟩
  · rw [if_neg full]
    refine ⟨_, _, rfl, enter _, rfl, ?_⟩
    rw [die]
    exact ⟨_, List.mem_append_right _ (List.mem_singleton.2 rfl), rfl, by simp⟩

theorem veilOnly_noteAbroad (s : State) (r : Req) : VeilOnly s (s.noteAbroad r) := by
  unfold State.noteAbroad
  exact .ite (fun _ => .refl s) fun _ => .of s _

/-- Whether an atomic goes into a cart (R120). -/
theorem cartable_atom {r : Req} {d op : Nat} {use : Use} {x e : W64} (h : r.what = .atom op use x e) (hd : r.dev = some d) (hg : isGroup d = false) :
    r.cartable = true ↔ r.ord = .rlx ∧ use ∈ [.unp, .com, .nor, .qnt] := by
  simp [Req.cartable, h, hd, hg]

/-- An atomic on memory of another device goes into a cart, or is sent by itself (R120, R403). -/
theorem placed_far {s : State} {r : Req} {d op : Nat} {use : Use} {x e : W64} (h : r.what = .atom op use x e) (hw : s.Way r d) :
    ∃ t q, s.place r = some t ∧ Placed s t r q ∧
      if r.ord = .rlx ∧ use ∈ [.unp, .com, .nor, .qnt] then q.stage = .cart ∧ (t.die (dieOf r.core)).Holds d q.id else q.stage = .remote := by
  have veil := veilOnly_noteAbroad s r
  have way := hw.of_samePaths veil.notes.samePaths
  have writes : r.what.writes = true := by rw [h]; rfl
  have cart := cartable_atom h hw.dev hw.single
  unfold State.place
  rw [hw.dev]
  dsimp only
  rw [if_neg (by simp [hw.single]), way.free]
  dsimp only
  rw [if_neg (by simp [way.up])]
  by_cases hc : r.ord = .rlx ∧ use ∈ [.unp, .com, .nor, .qnt]
  · obtain ⟨t, q, ht, hp, hs, hh⟩ := placed_enterCart h way.cart
    rw [if_pos (cart.2 hc)]
    rw [hw.dev] at hh
    exact ⟨t, q, ht, hp.after veil.backstage veil.notes.reqs, by rw [if_pos hc]; exact ⟨hs, hh⟩⟩
  · obtain ⟨q, hp, hs⟩ := placed_sendDirect (s.noteAbroad r) r
    rw [if_neg (fun x => hc (cart.1 x)), if_pos writes]
    dsimp only
    rw [if_neg (by have := way.room; omega)]
    exact ⟨_, q, rfl, hp.after veil.backstage veil.notes.reqs, by rw [if_neg hc]; exact hs⟩

/-! ### One agent's atomic -/

theorem nonRecoverable_rest (s : State) (l : Nat) (w : NonRec) :
    Backstage s (s.nonRecoverable l w) ∧ SamePaths s (s.nonRecoverable l w) := by
  unfold State.nonRecoverable
  split
  · split
    · unfold State.updLaunch
      split <;> exact ⟨⟨.refl s, rfl, rfl, rfl, rfl, rfl, rfl⟩, ⟨rfl, rfl, rfl, rfl, rfl⟩⟩
    · exact ⟨.refl s, .refl s⟩
  · exact ⟨.refl s, .refl s⟩

theorem noteRecovery_rest (s : State) (k : FKey) (w : What) (d : Option Nat) :
    Backstage s (s.noteRecovery k w d) ∧ SamePaths s (s.noteRecovery k w d) := by
  unfold State.noteRecovery
  split
  · exact ⟨.refl s, .refl s⟩
  · exact nonRecoverable_rest s _ _
  · split
    · exact nonRecoverable_rest s _ _
    · exact ⟨.refl s, .refl s⟩

theorem emptyDst_rest (s : State) (k : FKey) (d : Option Slot) :
    Kept s (s.emptyDst k d) ∧ UnitFrame s (s.emptyDst k d) k d ∧ ∀ x, d = some x → Emptied (s.emptyDst k d) k x := by
  cases d with
  | none => exact ⟨.refl s, .refl s k none, nofun⟩
  | some x => exact ⟨kept_markEmpty s k x, unitFrame_markEmpty s k x, fun y hy => by cases hy; exact emptied_markEmpty s k x⟩

/-- What an access of one agent does, where its request finds its place. -/
structure Accessed (s t : State) (k : FKey) (d : Option Slot) (r q : Req) : Prop where
  turn : KeepsTurn s t k
  frame : UnitFrame s t k d
  empty : ∀ x, d = some x → Emptied t k x
  reqs : t.reqs = s.reqs ++ [q]
  org : q.org = r.org
  what : q.what = r.what
  pa : q.pa = r.pa
  dev : q.dev = r.dev
  dst : q.dst = r.dst
  core : q.core = r.core

theorem beforeAccess_samePaths (s : State) (k : FKey) (d : Option Slot) (r : Req) : SamePaths s (s.beforeAccess k d r) := by
  obtain ⟨kept, -, -⟩ := emptyDst_rest s k d
  obtain ⟨-, paths⟩ := noteRecovery_rest (s.emptyDst k d) k r.what r.dev
  exact kept.regs.samePaths.trans paths

theorem accessed_of_placed {s t : State} {k : FKey} {d : Option Slot} {r q : Req} (hp : Placed (s.beforeAccess k d r) t r q) :
    Accessed s t k d r q := by
  obtain ⟨kept, frame, empty⟩ := emptyDst_rest s k d
  obtain ⟨back, -⟩ := noteRecovery_rest (s.emptyDst k d) k r.what r.dev
  have back' := back.trans hp.back
  exact ⟨(kept.keepsTurn k).trans (back'.keepsTurn k), frame.trans (back'.unitFrame k d), fun x hx => back'.emptied (empty x hx),
    by rw [hp.reqs, (beforeAccess_samePaths s k d r).reqs], hp.org, hp.what, hp.pa, hp.dev, hp.dst, hp.core⟩

/-- Of this device, an atomic is placed as any write is. -/
theorem issueReq_local {s : State} {k : FKey} {r : Req} (hd : r.dev = none) (hw : r.what.writes = true) (hc : ∀ c, k = .ctl c → inControl r.pa = false) :
    s.issueReq k r = s.startWrite r := by
  have place : s.place r = some (s.startWrite r) := by simp [State.place, hd, hw]
  unfold State.issueReq
  split
  · next c => rw [if_neg (by rw [hc c rfl]; decide), place]; rfl
  · rw [place]; rfl

theorem issueReq_far {s t : State} {k : FKey} {r : Req} (hk : ∀ c, k ≠ .ctl c) (h : s.place r = some t) : s.issueReq k r = t := by
  unfold State.issueReq
  split
  · next c => exact absurd rfl (hk c)
  · rw [h]; rfl

/-! ### The check of an access that reaches its target (R220) -/

/-- A target of this device that has nothing to wait for finds room at its home (R286). -/
theorem room_of_targetWait {s pre : State} {k : FKey} {i : Instr} {va : W64} {writes : Bool} {x : Target} (h : s.targetWait pre k i va writes x = .go)
    (hd : x.dev = none) (hu : pteUc x.pte = false) : s.spillFull (homeSlice x.pa (pteHsec x.pte)) = false := by
  unfold State.targetWait at h
  dsimp only at h
  split at h
  · cases h
  split at h
  · cases h
  next hs => simpa [hd, hu] using hs

/-- A control core's target is its own address (R416). -/
theorem target_ctl {s : State} {c : Nat} {acc : Acc} {va : W64} {x : Target} (h : s.target (.ctl c) acc va = .ok x) :
    x = { pa := va.toNat, dev := none, pte := ctlPte } := by
  unfold State.target at h
  dsimp only at h
  split at h
  · cases h; rfl
  split at h
  · cases h
  split at h
  · cases h
  · cases h; rfl

section Checks
variable {s : State} {i : Instr} {k : FKey} {acc : Acc} {ord : Order} {sc : Scope} {va : W64} {n : Nat} {x : Target} (sole : s.members = some [k])
include sole

/-- Of one agent none comes before it in its word. -/
theorem upTo_nil : (((s.members.getD []).takeWhile fun m => decide (m ≠ k)).filter fun m => !s.isHelper m) = [] := by
  simp [sole]

/-- The check of an access of a fibre or an access processor that has nothing before it to wait for, of this device, or whose request finds
its place. -/
theorem memCheck_of_target (hk : ∀ c, k ≠ .ctl c) (aligned : va.toNat % n = 0) (target : s.target k acc va = .ok x) (acquired : s.acqPending k = false)
    (released : s.fabCheck k i ord sc = .go) (room : s.targetWait s k i va acc.writes x = .go) (cart : Bool) {one : State → FKey → Option State}
    (placed : x.dev = none ∨ ∃ t, one s k = some t) : s.memCheck k i acc ord sc va n n cart one = .go := by
  have pre : ∀ b : Bool, (if b then (([] : List FKey).foldlM one s).getD s else s) = s := fun b => by cases b <;> rfl
  unfold State.memCheck
  dsimp only
  rw [target, upTo_nil sole, pre]
  cases k
  case ctl c => exact absurd rfl (hk c)
  all_goals
    obtain here | ⟨t, ht⟩ := placed
    · simp [aligned, acquired, released, room, here]
    · simp [aligned, acquired, released, room, ht]

theorem memCheck_local (h : s.Reaches k i acc ord sc va n x) (cart : Bool) (one : State → FKey → Option State) :
    s.memCheck k i acc ord sc va n n cart one = .go := by
  obtain ⟨aligned, target, acquired, released, room, here, plain⟩ := h
  by_cases hk : ∀ c, k ≠ .ctl c
  · exact memCheck_of_target sole hk aligned target acquired released room cart (.inl here)
  · obtain ⟨c, rfl⟩ : ∃ c, k = .ctl c := by simpa using hk
    obtain ⟨window, -⟩ := plain c rfl
    have spill := room_of_targetWait room here (by rw [target_ctl target]; show pteUc ctlPte = false; decide)
    unfold State.memCheck
    dsimp only
    rw [if_neg (by simp [aligned, window]), target]
    simp [spill]

theorem memCheck_far {d : Nat} (h : s.ReachesFar k i acc ord sc va n x d) (cart : Bool) {one : State → FKey → Option State} {t : State}
    (placed : one s k = some t) : s.memCheck k i acc ord sc va n n cart one = .go := by
  obtain ⟨aligned, target, acquired, released, room, away, -, -, -⟩ := h
  have hk : ∀ c, k ≠ .ctl c := by
    rintro c rfl
    rw [target_ctl target] at away
    cases away
  exact memCheck_of_target sole hk aligned target acquired released room cart (.inr ⟨t, placed⟩)

end Checks

/-! ### The words of R230 -/

section Words
variable {i : Instr} {o : AtomOp} {op : Nat} {kd : SlotKind} {w : State → FKey → What} (hi : AtomWord i o op kd w)
  {s : State} {k : FKey} {x : Target} (h : s.Ready i k)

/-- The fields of an atomic as an access word. -/
def atomAcc (o : AtomOp) (op : Nat) (kd : SlotKind) : GAcc :=
  { a := o.a, ord := o.ord, sc := o.sc, dst := if o.use = .com then none else some (wrSlot kd o.d), al := atomBytes op, n := atomBytes op }

/-- What an atomic of one agent asks for in state `s`. -/
def State.atomReq (s : State) (i : Instr) (o : AtomOp) (kd : SlotKind) (w : State → FKey → What) (k : FKey) (x : Target) : Req :=
  s.mkReq k i (s.src64 k o.a) x .normal (w s k) o.ord o.sc (if o.use = .com then .none else s.dstOf k (wrSlot kd o.d))

include hi

theorem AtomWord.acc (s : State) (k : FKey) : (atomAcc o op kd).acc (w s k) = .atomic := by
  obtain ⟨x, e, hw⟩ := hi.asks s k
  simp [GAcc.acc, hw, atomAcc, What.acc]

/-- The request of one agent, before and after its word is noted. -/
theorem AtomWord.req (live : s.isHelper k = false) (target : s.target k .atomic (s.src64 k o.a) = .ok x) :
    (atomAcc o op kd).req i w s [k] k = some (s.atomReq i o kd w k x) := by
  rw [gaccReq_of_target (g := atomAcc o op kd) (what := w) (x := x) (by rw [hi.acc]; exact target)]
  unfold State.atomReq atomAcc
  by_cases hc : o.use = .com
  · simp [hc]
  · simp [hc, memDst_one live]

include h

/-- An atomic whose request finds its place is issued (R229). -/
theorem AtomWord.issued {q : Req} {v : State} (target : s.target k .atomic (s.src64 k o.a) = .ok x)
    (check : s.memCheck k i .atomic o.ord o.sc (s.src64 k o.a) (atomBytes op) (atomBytes op)
      ((((atomAcc o op kd).req i w s [] k).map Req.cartable).getD false) (GAcc.one (atomAcc o op kd) i w) = .go)
    (place : ∀ u r, u = (s.noted1 i k).beforeAccess k (atomAcc o op kd).dst r → r = (s.noted1 i k).atomReq i o kd w k x →
      u.issueReq k r = v ∧ Placed u v r q) :
    ∃ t, exec i s = .next t ∧ (t.fib k).pc = (s.fib k).pc + 4 ∧ t.dies = v.dies ∧ Asked s t k (w s k) x.pa q ∧
      if o.use = .com then q.dst = .none ∧ UnitFrame s t k none
      else q.dst = s.dstOf k (wrSlot kd o.d) ∧ Emptied t k (wrSlot kd o.d) ∧ UnitFrame s t k (some (wrSlot kd o.d)) := by
  have notes := notesOnly_noted1 s i k
  have live : (s.noted1 i k).isHelper k = false := by rw [notes.isHelper, h.live]
  have req := hi.req live (by rw [notes.src64]; exact target_noted target)
  obtain ⟨y, e, asks⟩ := hi.asks (s.noted1 i k) k
  obtain ⟨issue, placed⟩ := place _ _ rfl rfl
  have alone : ((s.noted1 i k).atomReq i o kd w k x).together [(k, (s.noted1 i k).atomReq i o kd w k x)] = (s.noted1 i k).atomReq i o kd w k x := by
    simp [Req.together, State.atomReq, State.mkReq, asks]
  have eff : (s.noted1 i k).accessOne k (atomAcc o op kd).dst ((s.noted1 i k).atomReq i o kd w k x) = v := by
    unfold State.accessOne
    rw [alone, issue]
  have acc := accessed_of_placed placed
  obtain ⟨t, ht, adv⟩ : ∃ t, exec i s = .next t ∧ Advanced v t k ((s.fib k).pc + 4) := by
    rw [hi.runs]
    show ∃ t, access i (atomAcc o op kd) w false s = .next t ∧ _
    rw [← eff]
    exact access_one h hi.goesOn (by rw [hi.acc]; exact check) req (by rw [eff]; exact acc.turn)
  have asked := asked_of_append (s := s) (t := t) (k := k) (r := q) (by rw [adv.reqs, acc.reqs, notes.reqs]) acc.org
  rw [acc.what, acc.pa] at asked
  have frame := ((notes.unitFrame k _).trans acc.frame).trans (adv.unitFrame _)
  have dst : q.dst = if o.use = .com then .none else s.dstOf k (wrSlot kd o.d) := by
    rw [acc.dst, ← notes.dstOf]; rfl
  refine ⟨t, ht, adv.pc, by rw [adv.moved.dev], ?_, ?_⟩
  · rw [← hi.notes notes k]; exact asked
  · unfold atomAcc at frame
    by_cases hc : o.use = .com
    · simp only [hc, if_true] at frame dst ⊢
      exact ⟨dst, frame⟩
    · simp only [hc, if_false] at frame dst ⊢
      exact ⟨dst, adv.emptied (acc.empty _ (by simp [atomAcc, hc])), frame⟩

/-- R229: an atomic on memory of this device. -/
theorem AtomWord.next_local (hr : s.Reaches k i .atomic o.ord o.sc (s.src64 k o.a) (atomBytes op) x) :
    ∃ t r, exec i s = .next t ∧ (t.fib k).pc = (s.fib k).pc + 4 ∧ Asked s t k (w s k) x.pa r ∧
      if o.use = .com then r.dst = .none ∧ UnitFrame s t k none
      else r.dst = s.dstOf k (wrSlot kd o.d) ∧ Emptied t k (wrSlot kd o.d) ∧ UnitFrame s t k (some (wrSlot kd o.d)) := by
  obtain ⟨y, e, asks⟩ := hi.asks (s.noted1 i k) k
  obtain ⟨t, ht, pc, -, rest⟩ := hi.issued h (x := x) hr.target (memCheck_local h.sole hr _ _) (fun u r hu hreq => by
    subst hu hreq
    refine ⟨issueReq_local hr.here ?_ fun c hc => ?_, placed_startWrite _ _⟩
    · show ((w (s.noted1 i k) k)).writes = true
      rw [asks]; rfl
    · subst hc
      obtain ⟨window, -⟩ := hr.plain c rfl
      show inControl x.pa = false
      rw [target_ctl hr.target]; exact window)
  exact ⟨t, _, ht, pc, rest⟩

end Words

/-- A request of `k` at a target that it reaches on device `d` finds its way there (R393, R398, R403). -/
theorem way_of_reachesFar {s : State} {i : Instr} {k : FKey} {acc : Acc} {ord : Order} {sc : Scope} {va : W64} {n d : Nat} {x : Target}
    (h : s.ReachesFar k i acc ord sc va n x d) (room : s.unacked d < 1024) (cart : s.CartFree k x.pa) {r : Req} (hd : r.dev = x.dev) (hp : r.pa = x.pa)
    (hc : r.core = s.coreOf k) : s.Way r d :=
  ⟨hd.trans h.away, h.single, by rw [hp]; exact h.free, h.up, room, by rw [hc]; exact cart.1⟩

theorem atomReq_core {s : State} {i : Instr} {o : AtomOp} {kd : SlotKind} {w : State → FKey → What} {k : FKey} {x : Target} (hk : ∀ c, k ≠ .ctl c) :
    (s.atomReq i o kd w k x).core = s.coreOf k := by
  cases k
  case ctl c => exact absurd rfl (hk c)
  all_goals rfl

theorem State.ReachesFar.not_ctl {s : State} {i : Instr} {k : FKey} {acc : Acc} {ord : Order} {sc : Scope} {va : W64} {n d : Nat} {x : Target}
    (h : s.ReachesFar k i acc ord sc va n x d) : ∀ c, k ≠ .ctl c := by
  rintro c rfl
  have away := h.away
  rw [target_ctl h.target] at away
  cases away

/-- R120, R403: an atomic on memory of another device. -/
theorem AtomWord.next_far {i : Instr} {o : AtomOp} {op : Nat} {kd : SlotKind} {w : State → FKey → What} (hi : AtomWord i o op kd w)
    {s : State} {k : FKey} {x : Target} {d : Nat} (h : s.Ready i k) (hr : s.ReachesFar k i .atomic o.ord o.sc (s.src64 k o.a) (atomBytes op) x d)
    (room : s.unacked d < 1024) (cart : s.CartFree k x.pa) :
    ∃ t r, exec i s = .next t ∧ (t.fib k).pc = (s.fib k).pc + 4 ∧ Asked s t k (w s k) x.pa r ∧
      (if o.ord = .rlx ∧ o.use ∈ [.unp, .com, .nor, .qnt] then InCart t r d else r.dev = some d ∧ r.stage = .remote) ∧
      if o.use = .com then r.dst = .none ∧ UnitFrame s t k none
      else r.dst = s.dstOf k (wrSlot kd o.d) ∧ Emptied t k (wrSlot kd o.d) ∧ UnitFrame s t k (some (wrSlot kd o.d)) := by
  have notes := notesOnly_noted1 s i k
  have hk := hr.not_ctl
  obtain ⟨y, e, asks⟩ := hi.asks s k
  obtain ⟨y', e', asks'⟩ := hi.asks (s.noted1 i k) k
  have way := way_of_reachesFar hr room cart (r := s.atomReq i o kd w k x) rfl rfl (atomReq_core hk)
  obtain ⟨p, -, first, -⟩ := placed_far (r := s.atomReq i o kd w k x) asks way
  have one : GAcc.one (atomAcc o op kd) i w s k = some p := by
    unfold GAcc.one
    rw [h.sole]
    show (match (atomAcc o op kd).req i w s [k] k with | some r => s.place r | none => some s) = some p
    rw [hi.req h.live hr.target]
    exact first
  have way' : ((s.noted1 i k).beforeAccess k (atomAcc o op kd).dst ((s.noted1 i k).atomReq i o kd w k x)).Way ((s.noted1 i k).atomReq i o kd w k x) d :=
    (way_of_reachesFar hr room cart (r := (s.noted1 i k).atomReq i o kd w k x) rfl rfl
      ((atomReq_core hk).trans (notes.backstage.coreOf k))).of_samePaths (notes.samePaths.trans (beforeAccess_samePaths _ _ _ _))
  obtain ⟨v, q, place, placed, goes⟩ := placed_far (r := (s.noted1 i k).atomReq i o kd w k x) asks' way'
  obtain ⟨t, ht, pc, dies, asked, rest⟩ := hi.issued h (x := x) hr.target (memCheck_far h.sole hr _ one) (fun u r hu hreq => by
    subst hu hreq
    exact ⟨issueReq_far hk place, placed⟩)
  have dev : q.dev = some d := placed.dev.trans hr.away
  refine ⟨t, q, ht, pc, asked, ?_, rest⟩
  have ord : ((s.noted1 i k).atomReq i o kd w k x).ord = o.ord := rfl
  rw [ord] at goes
  by_cases hc : o.ord = .rlx ∧ o.use ∈ [.unp, .com, .nor, .qnt]
  · rw [if_pos hc] at goes ⊢
    obtain ⟨stage, holds⟩ := goes
    refine ⟨dev, stage, ?_⟩
    rw [placed.core]
    unfold State.die at holds ⊢
    rw [dies]
    exact holds
  · rw [if_neg hc] at goes ⊢
    exact ⟨dev, goes⟩

/-- Settles O30: local atomics, the values, and atomics on memory of another device. -/
theorem atomicWords : Obligations.AtomicWords := by
  unfold Obligations.AtomicWords Claims.Atomics Claims.FarAtomics
  exact ⟨fun i o op kd w row s k x h hr => (atomWord_of_row row).next_local h hr, atomicValues,
    fun i o op kd w row s k x d h hr room cart => (atomWord_of_row row).next_far h hr room cart⟩

end Sys2Proof.Machine
end

section
/-!
PROOFS. The status of an access to another device (R222, R402, R404): the claim of refused elements fails for a fibre's element whose
destination is an entry of a queue. The model sends none such for a fibre (R312), but the claim is of every state, and there the fault
goes to context T7 of the queue's core (R311), so that cores are not as before.
-/

namespace Sys2Proof.Machine

/-- A load of fibre 0 of block 0 from device 5, at that device, whose value is to enter queue 0 of core 0. -/
def queuedElement : Req :=
  { id := 0, org := .fibre (.fib 0 0), core := 0, part := 0, va := 0, pa := 0, dev := some 5, what := .load .b32, dst := .queue 0 0 0 0, stage := .sent }

/-- That load is all that is on its way, its fibre lives, and the event is its refusal with code 0x10. -/
def queuedRefusal : State :=
  { State.reset with
    blocks := [(0, { lid := 0, core := 0 })]
    fibres := [(.fib 0 0, {})]
    reqs := [queuedElement]
    args := { State.reset.args with item := 0, opt := some 0x10 } }

/-- Faults that context T7 of core 0 records after an event. -/
def faultsAfter (i : Instr) (s : State) : Nat :=
  match exec i s with
  | .next t => (t.ctx 0 7).faults.length
  | _ => 0

/-- The refusal is recorded on context T7. -/
theorem queuedRefusal_recorded : faultsAfter .elementStatus queuedRefusal = 1 := by decide

/-- Refutes O54: a refused element of a fibre that returns a value to a queue entry changes its core's contexts. -/
theorem not_statuses : ¬ Obligations.Statuses := by
  unfold Obligations.Statuses Claims.RefusedStatuses
  rintro ⟨-, refused⟩
  obtain ⟨t, next, -, -, returns, -⟩ := refused queuedRefusal queuedElement 5 0 0 0x10 rfl rfl (.inl rfl) (by decide) rfl (by decide) rfl rfl
    (.inl (by decide)) nofun nofun nofun nofun
  obtain ⟨cores, -⟩ := returns rfl
  have after : (t.ctx 0 7).faults.length = 1 := by
    have recorded := queuedRefusal_recorded
    unfold faultsAfter at recorded
    rwa [next] at recorded
  have before : (t.ctx 0 7).faults.length = 0 := by
    unfold State.ctx State.core
    rw [cores]; rfl
  omega

end Sys2Proof.Machine
end

section
/-!
PROOFS. Words that command units, of one agent, and what completing a ticket does (R8, R305); BXC (R372, R373).
-/

namespace Sys2Proof.Machine

/-! ### The frame of a word that commands a unit -/

/-- A map whose entries change in place: a value that is listed is the change of the one listed before. -/
theorem Map.at?_map {κ α : Type} [DecidableEq κ] {F : κ × α → κ × α} (hF : ∀ x, (F x).1 = x.1) (m : Map κ α) (k : κ) :
    Map.at? (m.map F) k = (m.at? k).map fun v => (F (k, v)).2 := by
  induction m with
  | nil => rfl
  | cons x r ih =>
    obtain ⟨x, v⟩ := x
    have hx : F (x, v) = (x, (F (x, v)).2) := Prod.ext (hF _) rfl
    rw [List.map_cons, hx]
    by_cases e : x = k
    · subst e; simp [Map.at?]
    · simpa [Map.at?, e] using ih

/-- The mark that a member has performed the word of the turn: its PC has moved, and the coach counts it served. -/
theorem advanced_markServed (s : State) (k : FKey) :
    Advanced s (s.markServed k) k ((s.fib k).pc + 4) ∧ (s.Alone k → (s.markServed k).Alone k) := by
  have moved := advanced_pc s k ((s.fib k).pc + 4)
  have upd : (s.updFib k fun f => { f with pc := f.pc + 4 }) = s.updFib k fun f => { f with pc := (s.fib k).pc + 4 } := rfl
  unfold State.markServed
  dsimp only
  split
  next c p b n ha =>
    refine ⟨moved.then rfl, fun alone c' p' x hx hp => ?_⟩
    dsimp only at hp
    rw [Map.at?_map (fun x => by split <;> rfl), Option.map_eq_some_iff] at hp
    obtain ⟨y, hy, rfl⟩ := hp
    split <;> exact alone c' p' y hx hy
  · exact ⟨moved, fun alone => alone.of_eq rfl rfl⟩

/-- A word of one agent that commands a unit: its effect `v`, then the next PC. -/
theorem serial_one {s v : State} {i : Instr} {k : FKey} {check : State → FKey → Verdict} {eff : State → FKey → State} (sole : s.members = some [k])
    (live : s.isHelper k = false) (fresh : s.isServed k = false) (hv : s.verdict i check k = .go) (he : eff (s.depends i [k]) k = v)
    (ht : KeepsTurn s v k) (hpc : (v.fib k).pc = (s.fib k).pc) :
    ∃ t, issueSerial i s check eff = .next t ∧ Advanced v t k ((s.fib k).pc + 4) := by
  refine ⟨_, by rw [issueSerial_one sole live fresh hv, he], ?_⟩
  obtain ⟨adv, alone⟩ := advanced_markServed (v.dropLines [k]) k
  obtain ⟨p, hp⟩ := countWord_alone (alone ((State.alone_of_members sole).of_eq ht.agent ht.pipes))
    (by rw [adv.moved.isHelper]; exact ht.helper.trans live)
  rw [hp, ← hpc]
  exact (Advanced.after rfl adv).then rfl

/-! ### A 64-bit result (R77) -/

theorem lead_sole {s : State} {k : FKey} (h : s.members = some [k]) : s.lead k = k := by
  unfold State.lead
  rw [h]
  simp only [Option.getD_some, List.find?_cons, List.find?_nil]
  split <;> rfl

theorem putOnce64_sole {s : State} {k : FKey} (h : s.members = some [k]) (d : Reg) (v : W64) : s.putOnce64 k d v = s.wr k (.wide d v) := by
  unfold State.putOnce64
  cases d with
  | s n => simp [lead_sole h]
  | v n => rfl
  | k n => rfl
  | q n => rfl
  | z => rfl
  | id => rfl

theorem wide_fields (d : Reg) (v : W64) : (Wr.wide d v).fields = (wrSlot .xs d).fields := by cases d <;> rfl

/-- A 64-bit write changes what its slot names, and no more. -/
theorem unitFrame_wide (s : State) (k : FKey) (d : Reg) (v : W64) : UnitFrame s (s.wr k (.wide d v)) k (some (wrSlot .xs d)) := by
  have kept := kept_wr s k (.wide d v)
  have lr : ((s.wr k (.wide d v)).fib k).lr = (s.fib k).lr := by rw [kept.fib k]
  refine ⟨kept.regs.sameMemory, fun m hm => wr_fib_ne s _ hm, fun m hm => ?_, ⟨?_, wr_wb s k k rfl, lr⟩, fun g n hn => ?_⟩
  · refine wr_cell s k k m _ fun _ n hn => hm _ rfl n ?_
    rwa [wide_fields] at hn
  · cases d with
    | v n =>
      obtain ⟨-, p⟩ := setV_k s k k n (v.setWidth 32)
      obtain ⟨-, p'⟩ := setV_k (s.setV k n (v.setWidth 32)) k k (n + 1) ((v >>> 32).setWidth 32)
      exact p'.trans p
    | s n => exact congrArg Fibre.p (setS_fib s k k n v)
    | k n => rfl
    | q n => rfl
    | z => rfl
    | id => rfl
  · cases d with
    | v m => exact congrArg (fun x : Gang => x.s.atD n {}) ((setV_gang _ k (m + 1) _ g).trans (setV_gang s k m _ g))
    | s m => exact setS_scell s k m v g n (.inr fun e => hn _ rfl (congrArg Reg.s (Fin.ext e.symm)))
    | k m => rfl
    | q m => rfl
    | z => rfl
    | id => rfl

theorem wide_cores (s : State) (k : FKey) (d : Reg) (v : W64) : (s.wr k (.wide d v)).cores = s.cores := by
  cases d with
  | v n => exact (setV_cores _ k (n + 1) _).trans (setV_cores s k n _)
  | s n => exact updGang_cores s k n v
  | k n => rfl
  | q n => rfl
  | z => rfl
  | id => rfl

theorem holds64_wide {s : State} {k : FKey} (h : s.isHelper k = false) (d : Reg) (v : W64) : Holds64 s (s.wr k (.wide d v)) k d v := by
  cases d with
  | v n => exact fun hw => lanes_x (s := s) (ks := [k]) (val := fun _ => v) (List.mem_singleton.2 rfl) hw
  | s n =>
    intro _ _
    have gang : (s.setS k n v).gangOf k = s.gangOf k := (kept_setS s k n v).gangOf k
    show (s.setS k n v).scell k n = _
    unfold State.scell
    rw [gang]
    simp [State.setS, h]
  | k n => trivial
  | q n => trivial
  | z => trivial
  | id => trivial

/-! ### What units do -/

/-- Only units, queues of memory and timeline contexts differ. -/
structure UnitStep (s t : State) : Prop where
  units : UnitsOnly s t
  agent : t.agent = s.agent
  blocks : t.blocks = s.blocks
  owner : ∀ c, (t.core c).apOwner = (s.core c).apOwner

theorem UnitStep.refl (s : State) : UnitStep s s := ⟨⟨.refl s, rfl, rfl, rfl⟩, rfl, rfl, fun _ => rfl⟩
theorem UnitStep.trans {s t u : State} (h : UnitStep s t) (h' : UnitStep t u) : UnitStep s u := by
  obtain ⟨mem, fib, gang, pipes⟩ := h.units
  obtain ⟨mem', fib', gang', pipes'⟩ := h'.units
  exact ⟨⟨mem.trans mem', fib'.trans fib, gang'.trans gang, pipes'.trans pipes⟩, h'.agent.trans h.agent, h'.blocks.trans h.blocks,
    fun c => (h'.owner c).trans (h.owner c)⟩

theorem Backstage.unitStep {s t : State} (h : Backstage s t) : UnitStep s t :=
  ⟨⟨h.memory, h.fibres, h.gangs, h.pipes⟩, h.agent, h.blocks, fun c => by rw [h.core]⟩

theorem UnitStep.unitFrame {s t : State} (h : UnitStep s t) (k : FKey) (d : Option Slot) : UnitFrame s t k d := by
  obtain ⟨mem, fib, gang, -⟩ := h.units
  exact .of mem fib gang k d

section UnitStepFacts
variable {s t : State} (h : UnitStep s t)
include h

theorem UnitStep.fib (k : FKey) : t.fib k = s.fib k := by
  obtain ⟨-, fib, -, -⟩ := h.units
  unfold State.fib; rw [fib]
theorem UnitStep.block (b : Nat) : t.block b = s.block b := by unfold State.block; rw [h.blocks]
theorem UnitStep.declared (k : FKey) : t.declared k = s.declared k := by cases k <;> simp [State.declared, h.block]
theorem UnitStep.isHelper (k : FKey) : t.isHelper k = s.isHelper k := by unfold State.isHelper; rw [h.fib]
theorem UnitStep.keepsTurn (k : FKey) : KeepsTurn s t k := by
  obtain ⟨-, -, -, pipes⟩ := h.units
  exact ⟨h.agent, pipes, h.isHelper k⟩
theorem UnitStep.members : t.members = s.members := by
  obtain ⟨-, -, -, pipes⟩ := h.units
  unfold State.members; rw [h.agent, pipes]; simp only [h.owner]

end UnitStepFacts

theorem unitStep_updCtx (s : State) (c x : Nat) (f : Ctx → Ctx) : UnitStep s (s.updCtx c x f) :=
  ⟨⟨.refl s, rfl, rfl, rfl⟩, rfl, rfl, fun i => by
    unfold State.updCtx
    by_cases e : i = c
    · subst e; simp
    · rw [State.updCore_core_ne _ _ e]⟩

theorem unitStep_takeTicket (s : State) (k : FKey) (c x : Nat) : UnitStep s (s.takeTicket k c x).2 := by
  unfold State.takeTicket; dsimp only; exact unitStep_updCtx _ _ _ _

/-- The result of a word that commands a unit, of one agent: what its unit does, its ticket in D, its PC. -/
theorem ticketWord {s u t : State} {k : FKey} {d : Reg} {v : W64} (sole : s.members = some [k]) (live : s.isHelper k = false) (step : UnitStep s u)
    (adv : Advanced (u.putOnce64 k d v) t k ((s.fib k).pc + 4)) :
    WordDone s t k ∧ UnitFrame s t k (some (wrSlot .xs d)) ∧ Holds64 s t k d v := by
  rw [putOnce64_sole (step.members.trans sole)] at adv
  have frame := ((step.unitFrame k (some (wrSlot .xs d))).trans (unitFrame_wide u k d v)).trans (adv.unitFrame _)
  have holds := holds64_wide ((step.isHelper k).trans live) d v
  refine ⟨⟨adv.pc, frame.memory⟩, frame, ?_⟩
  cases d with
  | v n =>
    intro hw
    rw [adv.moved.vcell, adv.moved.vcell]
    exact holds (by rw [step.fib, step.declared]; exact hw)
  | s n =>
    intro _ _
    rw [adv.moved.scell]
    exact holds ((step.isHelper k).trans live) (lead_sole (step.members.trans sole))
  | k n => trivial
  | q n => trivial
  | z => trivial
  | id => trivial

/-- What its turn needs of a word that commands a unit. -/
theorem putOnce64_turn {s u : State} {k : FKey} (sole : s.members = some [k]) (step : UnitStep s u) (d : Reg) (v : W64) :
    KeepsTurn s (u.putOnce64 k d v) k ∧ ((u.putOnce64 k d v).fib k).pc = (s.fib k).pc := by
  rw [putOnce64_sole (step.members.trans sole)]
  have kept := kept_wr u k (.wide d v)
  exact ⟨(step.keepsTurn k).trans (kept.keepsTurn k), (kept.pc k).trans (by rw [step.fib])⟩

/-! ### Tickets (R8, R305) -/

theorem mem_or_le_advance (fuel v : Nat) (done : List Nat) (n : Nat) (h : n ∈ done) :
    n ≤ advance fuel v done ∨ n ∈ done.filter (advance fuel v done < ·) := by
  by_cases hn : n ≤ advance fuel v done
  · exact .inl hn
  · exact .inr (List.mem_filter.2 ⟨h, by simpa using hn⟩)

theorem noteDone_ctx (s : State) (p : Party) (sc : Scope) (c x n : Nat) (hs : List LineHold) (c' x' : Nat) :
    State.ctx { s.noteDone p sc c x n with holds := hs } c' x' = s.ctx c' x' := by
  show ((s.noteDone p sc c x n).core c').ctx.atD x' {} = _
  rw [(veilOnly_noteDone s p sc c x n).notes.core]; rfl

/-- Completing a ticket completes it, and leaves those that are complete so. -/
theorem completed_completeTicket (s : State) (p : Party) (sc : Scope) (c x n : Nat) {m : Nat} (h : m = n ∨ s.Completed c x m) :
    (s.completeTicket p sc c x n).Completed c x m := by
  unfold State.Completed State.completeTicket at *
  rw [State.updCtx_ctx_same, noteDone_ctx]
  dsimp only
  rcases h with rfl | h | h
  · exact mem_or_le_advance _ _ _ _ (List.mem_cons_self ..)
  · exact .inl (h.trans (le_advance _ _ _))
  · exact mem_or_le_advance _ _ _ _ (List.mem_cons_of_mem _ h)

theorem unitStep_completeTicket (s : State) (p : Party) (sc : Scope) (c x n : Nat) : UnitStep s (s.completeTicket p sc c x n) := by
  have note := (veilOnly_noteDone s p sc c x n).backstage
  have holds : ∀ hs, Backstage (s.noteDone p sc c x n) { s.noteDone p sc c x n with holds := hs } := fun hs =>
    ⟨.refl _, rfl, rfl, rfl, rfl, rfl, rfl⟩
  exact (note.trans (holds _)).unitStep.trans (unitStep_updCtx _ _ _ _)

/-! ### BXC (R372, R373) -/

/-- The command that a BXC enters. -/
def State.bxcCmd (s : State) (k : FKey) (o : G3) : BankCmd :=
  { bankCmd (s.groupOf k o.b) with
    id := s.nextReq, core := s.coreOf k, fibre := k, block := (s.gangOf k).1, ticket := s.nextTicket (s.coreOf k) 5, deps := s.outstanding k }

/-- A BXC takes its ticket and enters its command. -/
def State.queueBxc (s : State) (k : FKey) (o : G3) (n : Nat) : State :=
  { (((s.follows (.agent k) (opParty k s.nextReq)).takeTicket k (s.coreOf k) 5).2.updBank n fun b =>
      b.setQueue (Bx.exe (s.bxcCmd k o)) (b.queue (Bx.exe (s.bxcCmd k o)) ++ [s.bxcCmd k o])) with nextReq := s.nextReq + 1 }

/-- What BXC does for one agent, but for its result. -/
def State.enterBxc (s : State) (k : FKey) (o : G3) (n : Nat) : State := (s.queueBxc k o n).nonRecoverable (s.blockOf k).lid .bank

theorem nonRecoverable_banks (s : State) (l : Nat) (w : NonRec) : (s.nonRecoverable l w).banks = s.banks := by
  unfold State.nonRecoverable
  split
  · split
    · unfold State.updLaunch
      split <;> rfl
    · rfl
  · rfl

theorem Bank.queue_setQueue (b : Bank) (exe : Bool) (q : List BankCmd) : (b.setQueue exe q).queue exe = q := by cases exe <;> rfl

theorem unitStep_enterBxc (s : State) (k : FKey) (o : G3) (n : Nat) : UnitStep s (s.enterBxc k o n) := by
  have ticket := (veilOnly_follows s (.agent k) (opParty k s.nextReq)).backstage.unitStep.trans (unitStep_takeTicket _ k (s.coreOf k) 5)
  have queue : ∀ (u : State) m q, Backstage u { u with banks := m, nextReq := q } := fun u _ _ => ⟨.refl u, rfl, rfl, rfl, rfl, rfl, rfl⟩
  obtain ⟨back, -⟩ := nonRecoverable_rest (s.queueBxc k o n) (s.blockOf k).lid .bank
  exact (ticket.trans (queue _ _ _).unitStep).trans back.unitStep

theorem enterBxc_queue (s : State) (k : FKey) (o : G3) (n : Nat) :
    ((s.enterBxc k o n).bank n).queue (Bx.exe (s.bxcCmd k o)) = (s.bank n).queue (Bx.exe (s.bxcCmd k o)) ++ [s.bxcCmd k o] := by
  have entered : (s.queueBxc k o n).bank n =
      (s.bank n).setQueue (Bx.exe (s.bxcCmd k o)) ((s.bank n).queue (Bx.exe (s.bxcCmd k o)) ++ [s.bxcCmd k o]) := Map.atD_put_same _ _ _ _
  have bank : (s.enterBxc k o n).bank n = (s.queueBxc k o n).bank n := by unfold State.bank State.enterBxc; rw [nonRecoverable_banks]
  rw [bank, entered, Bank.queue_setQueue]

/-- A word that passes the checks of R92 names registers of the classes that its slots take (R74). -/
theorem illOpndClass_of_illCause {s : State} {k : FKey} {i : Instr} (h : s.illCause k i = none) : illOpndClass k i = false := by
  by_contra hc
  rw [Bool.not_eq_false] at hc
  simp only [State.illCause, hc, Bool.true_or, if_true] at h
  split_ifs at h

theorem admits_of_ready {s : State} {k : FKey} {i : Instr} {x : Slot} (h : s.Ready i k) (hx : x ∈ i.slots) : x.admits = true := by
  have go := h.go
  unfold State.issueCheck at go
  rw [if_neg fun hb => by rw [if_pos hb] at go; cases go] at go
  split at go
  · cases go
  next hi =>
    have class_ := illOpndClass_of_illCause hi
    unfold illOpndClass at class_
    simp only [Bool.or_eq_false_iff] at class_
    obtain ⟨⟨slots, -⟩, -⟩ := class_
    have := List.any_eq_false.1 slots x hx
    simp only [Bool.or_eq_true, not_or, Bool.not_eq_true', Bool.not_eq_false] at this
    exact this.1

/-- A word that is ready names its group by window registers. -/
theorem group_of_ready {s : State} {k : FKey} {i : Instr} {r : Reg} {a b : Nat} (h : s.Ready i k) (hs : rdSlot (.grp a b) r ∈ i.slots) : ∃ n, r = .v n := by
  have admits := admits_of_ready h hs
  cases r with
  | v n => exact ⟨n, rfl⟩
  | s n => cases admits
  | k n => cases admits
  | q n => cases admits
  | z => cases admits
  | id => cases admits

theorem bankCmd_words {g : List W32} (h : g.length = 4) : [(bankCmd g).w0, (bankCmd g).w1, (bankCmd g).w2, (bankCmd g).w3] = g := by
  match g, h with
  | [_, _, _, _], _ => rfl

theorem bxcCmd_words {s : State} {k : FKey} {o : G3} (h : s.Ready (.bxc o) k) :
    [(s.bxcCmd k o).w0, (s.bxcCmd k o).w1, (s.bxcCmd k o).w2, (s.bxcCmd k o).w3] = s.groupOf k o.b := by
  have slots : (Instr.bxc o).slots = [rdSlot .xs o.a, rdSlot (.grp 4 4) o.b, wrSlot .xs o.d] := rfl
  obtain ⟨n, hn⟩ := group_of_ready (r := o.b) (a := 4) (b := 4) h (by rw [slots]; exact .tail _ (.head _))
  have words := bankCmd_words (g := s.groupOf k o.b) (by simp [State.groupOf, hn])
  unfold State.bxcCmd
  exact words

theorem Advanced.banks {s t : State} {k : FKey} {pc : W64} (h : Advanced s t k pc) : t.banks = s.banks := by rw [h.moved.dev]

/-- R372, R373: BXC enters its command under the next T5 ticket. -/
theorem bxc_next {o : G3} {s : State} {k : FKey} {n : Nat} (h : s.Ready (.bxc o) k) (hc : bxcCheck o s k = .go) (hb : s.bankAt k o.a = some n) :
    ∃ t c, exec (.bxc o) s = .next t ∧ WordDone s t k ∧ UnitFrame s t k (some (wrSlot .xs o.d)) ∧
      (let exe := Bx.exe (bankCmd (s.groupOf k o.b))
      (t.bank n).queue exe = (s.bank n).queue exe ++ [c] ∧ [c.w0, c.w1, c.w2, c.w3] = s.groupOf k o.b ∧ c.step = 0 ∧ c.started = false ∧
        c.ticket = s.nextTicket (s.coreOf k) 5 ∧ c.deps = s.outstanding k ∧
        Holds64 s t k o.d (BitVec.ofNat 64 (s.nextTicket (s.coreOf k) 5))) := by
  have veil := veilOnly_depends s (.bxc o) [k]
  have bank : (s.depends (.bxc o) [k]).bankAt k o.a = some n := by rw [veil]; exact hb
  have cmd : (s.depends (.bxc o) [k]).bxcCmd k o = s.bxcCmd k o := by rw [veil]; rfl
  have ticket : (s.depends (.bxc o) [k]).nextTicket ((s.depends (.bxc o) [k]).coreOf k) 5 = s.nextTicket (s.coreOf k) 5 := by rw [veil]; rfl
  have step := veil.backstage.unitStep.trans (unitStep_enterBxc (s.depends (.bxc o) [k]) k o n)
  obtain ⟨turn, pc⟩ := putOnce64_turn h.sole step o.d (BitVec.ofNat 64 (s.nextTicket (s.coreOf k) 5))
  obtain ⟨t, ht, adv⟩ : ∃ t, exec (.bxc o) s = .next t ∧ Advanced (((s.depends (.bxc o) [k]).enterBxc k o n).putOnce64 k o.d
      (BitVec.ofNat 64 (s.nextTicket (s.coreOf k) 5))) t k ((s.fib k).pc + 4) := by
    show ∃ t, execBxc o s = .next t ∧ _
    unfold execBxc
    refine serial_one h.sole h.live h.fresh (by rw [h.verdict]; exact hc) ?_ turn pc
    rw [bank, ← ticket]
    rfl
  obtain ⟨done, frame, holds⟩ := ticketWord h.sole h.live step adv
  have queue := enterBxc_queue (s.depends (.bxc o) [k]) k o n
  have banks : t.banks = ((s.depends (.bxc o) [k]).enterBxc k o n).banks := by
    rw [adv.banks, putOnce64_sole (step.members.trans h.sole), (regsOnly_wr _ k _)]
  rw [cmd] at queue
  refine ⟨t, s.bxcCmd k o, ht, done, frame, ?_, bxcCmd_words h, rfl, rfl, rfl, rfl, holds⟩
  rw [show t.bank n = ((s.depends (.bxc o) [k]).enterBxc k o n).bank n by unfold State.bank; rw [banks],
    show s.bank n = (s.depends (.bxc o) [k]).bank n by rw [veil]; rfl]
  exact queue

end Sys2Proof.Machine
end

section
/-!
PROOFS. RDX, whose record is read while its word is judged, so that what the read is ordered after must be learnt once and for all
(R106, R380); SSCONV, whose targets may be reached as soon as they are given (R289, R385).
-/

namespace Sys2Proof.Machine

/-! ### Reads of a word while it is judged (R106) -/

/-- What agent `p` has learnt it learns no second time. -/
theorem learn_learn {v : Veil} {p : Party} {ids : List Nat} (h : ∀ x ∈ v.hidden, ids.contains x.id = true → x.known.contains p = true) :
    v.learn p ids = v := by
  have same : (v.hidden.map fun x => if ids.contains x.id && !x.known.contains p then { x with known := p :: x.known } else x) = v.hidden := by
    refine List.map_congr_left (g := id) (fun x hx => ?_) |>.trans (List.map_id _)
    rw [if_neg fun hc => ?_]; rfl
    simp only [Bool.and_eq_true, Bool.not_eq_true'] at hc
    obtain ⟨hid, hk⟩ := hc
    rw [h x hx hid] at hk; cases hk
  unfold Veil.learn
  rw [same]

/-- Agent `k` knows what a release carries, where the release reaches it. -/
def State.Knows (s : State) (k : FKey) (m : Msg) : Prop :=
  s.inScope m.sc 0 m.head (.agent k) = true → ∀ x ∈ s.veil.hidden, m.carry.contains x.id = true → x.known.contains (.agent k) = true

/-- An access of `k` is ordered after one release that its sources depend on. -/
def State.orderAfter (k : FKey) (s : State) (m : Msg) : State :=
  if s.inScope m.sc 0 m.head (.agent k) then { s with veil := s.veil.learn (.agent k) m.carry } else s

theorem ordered_one {s : State} {i : Instr} {k : FKey} (h : (!s.veil.on || !i.accesses) = false) :
    s.ordered i [k] = (s.sourceTaint i k).foldl (State.orderAfter k) s := by
  unfold State.ordered
  rw [if_neg (by rw [h]; decide)]
  rfl

theorem veilOnly_orderAfter (s : State) (k : FKey) (m : Msg) : VeilOnly s (s.orderAfter k m) := by
  unfold State.orderAfter
  exact .ite (fun _ => .of s _) fun _ => .refl s

/-- What is known stays known. -/
theorem knows_orderAfter {s : State} {k : FKey} {m : Msg} (h : s.Knows k m) (m' : Msg) : (s.orderAfter k m').Knows k m := by
  have scope : (s.orderAfter k m').inScope m.sc 0 m.head (.agent k) = s.inScope m.sc 0 m.head (.agent k) := by
    rw [veilOnly_orderAfter s k m']; rfl
  intro hs x hx hc
  rw [scope] at hs
  unfold State.orderAfter at hx
  split at hx
  · obtain ⟨y, hy, rfl⟩ := List.mem_map.1 hx
    split at hc
    · rw [if_pos ‹_›]; simp
    · rw [if_neg ‹_›]; exact h hs y hy hc
  · exact h hs x hx hc

theorem orderAfter_knows (s : State) (k : FKey) (m : Msg) : (s.orderAfter k m).Knows k m := by
  have scope : (s.orderAfter k m).inScope m.sc 0 m.head (.agent k) = s.inScope m.sc 0 m.head (.agent k) := by
    rw [veilOnly_orderAfter s k m]; rfl
  intro hs x hx hc
  rw [scope] at hs
  rw [State.orderAfter, if_pos hs] at hx
  obtain ⟨y, hy, rfl⟩ := List.mem_map.1 hx
  split
  · simp
  next hn =>
    rw [if_neg hn] at hc
    simp only [hc, Bool.true_and, Bool.not_eq_true', Bool.not_eq_false] at hn
    exact hn

theorem orderAfter_of_knows {s : State} {k : FKey} {m : Msg} (h : s.Knows k m) : s.orderAfter k m = s := by
  unfold State.orderAfter
  split
  · next hs => rw [learn_learn (h hs)]
  · rfl

/-- Accesses are ordered once: a second ordering of the same word finds nothing new. -/
theorem ordered_ordered (s : State) (i : Instr) (k : FKey) : (s.ordered i [k]).ordered i [k] = s.ordered i [k] := by
  by_cases h : (!s.veil.on || !i.accesses) = true
  · have same : s.ordered i [k] = s := by unfold State.ordered; rw [if_pos h]
    rw [same, same]
  · rw [Bool.not_eq_true] at h
    have keeps : ∀ (l : List Msg) (t : State), (l.foldl (State.orderAfter k) t).veil.on = t.veil.on ∧ (l.foldl (State.orderAfter k) t).veil.taint = t.veil.taint ∧
        VeilOnly t (l.foldl (State.orderAfter k) t) := fun l t =>
      List.foldlRecOn (motive := fun u : State => u.veil.on = t.veil.on ∧ u.veil.taint = t.veil.taint ∧ VeilOnly t u) l _ ⟨rfl, rfl, .refl t⟩
        fun u ⟨hon, ht, hv⟩ m _ => by
          refine ⟨?_, ?_, hv.trans (veilOnly_orderAfter u k m)⟩ <;> unfold State.orderAfter <;> split <;> assumption
    obtain ⟨on, taint, veil⟩ := keeps (s.sourceTaint i k) s
    have sources : ((s.sourceTaint i k).foldl (State.orderAfter k) s).sourceTaint i k = s.sourceTaint i k := by
      have keys : State.taintKeys ((s.sourceTaint i k).foldl (State.orderAfter k) s) k = s.taintKeys k := by rw [veil]; rfl
      unfold State.sourceTaint Veil.taintAt at *
      rw [taint, keys]
    rw [ordered_one h, ordered_one (by rw [on]; exact h), sources]
    refine List.foldlRecOn (motive := fun u => u = (s.sourceTaint i k).foldl (State.orderAfter k) s) _ _ rfl fun u hu m hm => ?_
    rw [hu]
    exact orderAfter_of_knows (foldl_establishes (I := fun _ => True) (P := fun u : State => u.Knows k m) (fun _ _ _ => trivial)
      (fun u m' h => knows_orderAfter h m') (fun u _ => orderAfter_knows u k m) hm trivial)

/-! ### What a read rests on -/

theorem readFar_veil {s t : State} (h : VeilOnly s t) (k : FKey) (i : Instr) (va : W64) (d fuel pa n : Nat) :
    t.readFar k i va d fuel pa n = s.readFar k i va d fuel pa n := by
  induction fuel generalizing pa n with
  | zero => rfl
  | succ fuel ih =>
    unfold State.readFar
    simp only [ih]
    rw [h]; rfl

/-- A read of virtual memory finds what it finds whatever dependences are noted. -/
theorem readVirt_taint (s : State) (x : Map (FKey × Nat) (List Msg)) (k : FKey) (i : Instr) (acc : Acc) (fuel : Nat) (va : W64) (n : Nat) :
    State.readVirt { s with veil := { s.veil with taint := x } } k i acc fuel va n = s.readVirt k i acc fuel va n := by
  induction fuel generalizing va n with
  | zero => rfl
  | succ fuel ih =>
    unfold State.readVirt
    simp only [ih, readFar_veil (VeilOnly.of s { s.veil with taint := x })]
    rfl

/-! ### RDX (R380) -/

/-- What an RDX reads once its word is judged is what it read then. -/
theorem readVirt_depends {s : State} {i : Instr} {k : FKey} (acc : Acc) (fuel : Nat) (va : W64) (n : Nat) :
    ((s.ordered i [k]).depends i [k]).readVirt k i acc fuel va n = (s.ordered i [k]).readVirt k i acc fuel va n := by
  unfold State.depends
  split
  · rfl
  · rw [List.foldl_cons, List.foldl_nil, ordered_ordered]
    exact readVirt_taint ..

/-- The reduction that an RDX starts, of record `r`. -/
def State.reduction (s : State) (k : FKey) (i : Instr) (r : List Byte) : Reduction :=
  { id := s.nextReq, core := s.coreOf k, fibre := k, part := s.partOf k, block := r, ticket := s.nextTicket (s.coreOf k) 6, word := i.word, deps := s.outstanding k }

/-- An RDX takes its ticket and enters its reduction. -/
def State.enterRdx (s : State) (k : FKey) (i : Instr) (r : List Byte) : State :=
  { (((s.follows (.agent k) (opParty k s.nextReq)).takeTicket k (s.coreOf k) 6).2.updStack (s.rdxStack k r) fun y =>
      { y with rdx := y.rdx ++ [s.reduction k i r] }) with nextReq := s.nextReq + 1 }

theorem unitStep_enterRdx (s : State) (k : FKey) (i : Instr) (r : List Byte) : UnitStep s (s.enterRdx k i r) := by
  have ticket := (veilOnly_follows s (.agent k) (opParty k s.nextReq)).backstage.unitStep.trans (unitStep_takeTicket _ k (s.coreOf k) 6)
  have queue : ∀ (u : State) m q, Backstage u { u with stackTab := m, nextReq := q } := fun u _ _ => ⟨.refl u, rfl, rfl, rfl, rfl, rfl, rfl⟩
  exact ticket.trans (queue _ _ _).unitStep

theorem enterRdx_stack (s : State) (k : FKey) (i : Instr) (r : List Byte) :
    ((s.enterRdx k i r).stack (s.rdxStack k r)).rdx = (s.stack (s.rdxStack k r)).rdx ++ [s.reduction k i r] := by
  have before : (((s.follows (.agent k) (opParty k s.nextReq)).takeTicket k (s.coreOf k) 6).2).stack (s.rdxStack k r) = s.stack (s.rdxStack k r) := by
    rw [veilOnly_follows s (.agent k) (opParty k s.nextReq)]; rfl
  have entered : (s.enterRdx k i r).stack (s.rdxStack k r) = { s.stack (s.rdxStack k r) with rdx := (s.stack (s.rdxStack k r)).rdx ++ [s.reduction k i r] } := by
    rw [← before]
    exact Map.atD_put_same _ _ _ _
  rw [entered]

/-- A word that is ready stays so when only the record of writes differs. -/
theorem State.Ready.of_veil {s t : State} {i : Instr} {k : FKey} (h : s.Ready i k) (hv : VeilOnly s t) : t.Ready i k where
  sole := by rw [hv]; exact h.sole
  live := by rw [hv]; exact h.live
  fresh := by rw [hv]; exact h.fresh
  go := by rw [hv]; exact h.go

theorem reading_sole {s : State} {i : Instr} {k : FKey} (sole : s.members = some [k]) (live : s.isHelper k = false) : s.reading i = s.ordered i [k] := by
  unfold State.reading
  rw [sole]
  simp [live]

theorem Advanced.stackTab {s t : State} {k : FKey} {pc : W64} (h : Advanced s t k pc) : t.stackTab = s.stackTab := by rw [h.moved.dev]

/-- R380: RDX enters its reduction under the next T6 ticket. -/
theorem rdx_next {d a : Reg} {s : State} {k : FKey} {r : List Byte} {p : Option W64} (h : s.Ready (.rdx d a) k)
    (hc : rdxCheck d a (s.reading (.rdx d a)) k = .go) (hr : (s.reading (.rdx d a)).readVirt k (.rdx d a) .load 2 (s.src64 k a) 128 = .ok (r, p)) :
    ∃ t x, exec (.rdx d a) s = .next t ∧ WordDone s t k ∧ UnitFrame s t k (some (wrSlot .xs d)) ∧
      (t.stack (s.rdxStack k r)).rdx = (s.stack (s.rdxStack k r)).rdx ++ [x] ∧ x.block = r ∧ x.next = 0 ∧
      x.ticket = s.nextTicket (s.coreOf k) 6 ∧ x.deps = s.outstanding k ∧
      Holds64 s t k d (BitVec.ofNat 64 (s.nextTicket (s.coreOf k) 6)) := by
  have reads := reading_sole (i := .rdx d a) h.sole h.live
  have first := veilOnly_ordered s (.rdx d a) [k]
  rw [reads] at hc hr
  generalize hu : s.ordered (.rdx d a) [k] = u at *
  have second := veilOnly_depends u (.rdx d a) [k]
  have veil := first.trans second
  generalize hw : u.depends (.rdx d a) [k] = w at *
  have found : w.readVirt k (.rdx d a) .load 2 (w.src64 k a) 128 = .ok (r, p) := by
    rw [← hw, ← hu, readVirt_depends, hu, show (u.depends (.rdx d a) [k]).src64 k a = s.src64 k a by rw [hw, veil]; rfl]
    exact hr
  have stack : w.rdxStack k r = s.rdxStack k r := by rw [veil]; rfl
  have cmd : w.reduction k (.rdx d a) r = s.reduction k (.rdx d a) r := by rw [veil]; rfl
  have tabs : w.stackTab = s.stackTab := by rw [veil]
  have step := veil.backstage.unitStep.trans (unitStep_enterRdx w k (.rdx d a) r)
  have ticket : w.nextTicket (w.coreOf k) 6 = s.nextTicket (s.coreOf k) 6 := by rw [veil]; rfl
  obtain ⟨t, ht, adv⟩ : ∃ t, exec (.rdx d a) s = .next t ∧ Advanced ((w.enterRdx k (.rdx d a) r).putOnce64 k d
      (BitVec.ofNat 64 (s.nextTicket (s.coreOf k) 6))) t k ((s.fib k).pc + 4) := by
    show ∃ t, execRdx d a s = .next t ∧ _
    unfold execRdx
    rw [reads]
    have ready := h.of_veil first
    obtain ⟨turn, pc⟩ := putOnce64_turn ready.sole (second.backstage.unitStep.trans (unitStep_enterRdx w k (.rdx d a) r)) d
      (BitVec.ofNat 64 (s.nextTicket (s.coreOf k) 6))
    rw [show (s.fib k).pc = (u.fib k).pc by rw [first]; rfl]
    refine serial_one ready.sole ready.live ready.fresh (by rw [ready.verdict]; exact hc) ?_ turn pc
    rw [hw, found, ← ticket]
    rfl
  obtain ⟨done, frame, holds⟩ := ticketWord h.sole h.live step adv
  have queue := enterRdx_stack w k (.rdx d a) r
  rw [cmd, stack] at queue
  refine ⟨t, s.reduction k (.rdx d a) r, ht, done, frame, ?_, rfl, rfl, rfl, rfl, holds⟩
  rw [show t.stack = (w.enterRdx k (.rdx d a) r).stack by
      unfold State.stack; rw [adv.stackTab, putOnce64_sole (step.members.trans h.sole), (regsOnly_wr _ k _)],
    show s.stack = w.stack by unfold State.stack; rw [tabs]]
  exact queue

/-! ### SSCONV (R289, R385) -/

/-- The slice's target `y` (core, context and ticket with it) stands, or its ticket is complete. -/
def State.Aimed (s : State) (x : Nat) (y : Nat × Nat × Nat × Nat) : Prop := y ∈ (s.slice x).targets ∨ s.Completed y.2.1 y.2.2.1 y.2.2.2

/-- Steps that settle conversions: targets leave only with their tickets completed; none are issued. -/
structure Converts (s t : State) : Prop where
  units : UnitStep s t
  issued : ∀ c x, (t.ctx c x).issued = (s.ctx c x).issued
  aimed : ∀ x b c n, s.Aimed x (b, c, 5, n) → t.Aimed x (b, c, 5, n)

theorem Converts.refl (s : State) : Converts s s := ⟨.refl s, fun _ _ => rfl, fun _ _ _ _ h => h⟩
theorem Converts.trans {s t u : State} (h : Converts s t) (h' : Converts t u) : Converts s u :=
  ⟨h.units.trans h'.units, fun c x => (h'.issued c x).trans (h.issued c x), fun x b c n ha => h'.aimed x b c n (h.aimed x b c n ha)⟩

theorem backstage_slices (s : State) (m : Map Nat Slice) : Backstage s { s with slices := m } := ⟨.refl s, rfl, rfl, rfl, rfl, rfl, rfl⟩

theorem completeTicket_issued (s : State) (p : Party) (sc : Scope) (c x n c' x' : Nat) :
    ((s.completeTicket p sc c x n).ctx c' x').issued = (s.ctx c' x').issued := by
  by_cases h : c' = c ∧ x' = x
  · obtain ⟨rfl, rfl⟩ := h
    obtain ⟨issued, -⟩ := completeTicket_same s p sc c' x' n
    exact issued
  · rw [completeTicket_other _ _ _ _ _ _ (by tauto)]

/-- Completing a ticket leaves every completed ticket so. -/
theorem completeTicket_completed (s : State) (p : Party) (sc : Scope) (c x n : Nat) {c' x' m : Nat} (h : s.Completed c' x' m) :
    (s.completeTicket p sc c x n).Completed c' x' m := by
  by_cases e : c' = c ∧ x' = x
  · obtain ⟨rfl, rfl⟩ := e
    exact completed_completeTicket s p sc c' x' n (.inr h)
  · unfold State.Completed
    rw [completeTicket_other _ _ _ _ _ _ (by tauto)]
    exact h

theorem completeTicket_slices (s : State) (p : Party) (sc : Scope) (c x n : Nat) : (s.completeTicket p sc c x n).slices = s.slices := by
  unfold State.completeTicket
  rw [State.updCtx_slices, veilOnly_noteDone s p sc c x n]

/-- A slice at its target for a ticket holds any target of that ticket at its head. -/
theorem atTarget_head {x : Slice} {c n : Nat} (h : x.atTarget c n = true) : ∃ g y, x.targets.head? = some (g, c, y, n) := by
  unfold Slice.atTarget at h
  split at h
  next g c' y n' l e =>
    obtain ⟨rfl, rfl, -⟩ := of_decide_eq_true h
    exact ⟨g, y, by rw [e]; rfl⟩
  · cases h

/-- Completing an SSCONV takes its targets away, and no other. -/
theorem converts_endConv (s : State) (c n : Nat) : Converts s (s.endConv c n) := by
  unfold State.endConv
  split
  next all =>
    refine ⟨(backstage_slices s _).unitStep.trans (unitStep_completeTicket ..), fun c' x' => completeTicket_issued .., fun x b c' n' aimed => ?_⟩
    rcases aimed with mem | done
    · unfold State.Aimed State.slice at *
      rw [completeTicket_slices]
      unfold Map.atD at *
      rw [Map.at?_map (fun x => by split <;> rfl)]
      cases hy : s.slices.at? x with
      | none => rw [hy] at mem; cases mem
      | some y =>
        rw [hy] at mem
        have here := List.all_eq_true.1 all _ (Map.mem_of_at? hy)
        simp only [Option.map_some, Option.getD_some] at mem ⊢
        split
        next carries =>
          rw [carries] at here
          obtain ⟨g, z, head⟩ := atTarget_head (x := y) (by simpa using here)
          obtain ⟨r, hr⟩ := List.head?_eq_some_iff.1 head
          rw [hr] at mem ⊢
          rcases List.mem_cons.1 mem with e | rest
          · cases e
            exact .inr (completed_completeTicket _ _ _ _ _ _ (.inl rfl))
          · exact .inl rest
        · exact .inl mem
    · exact .inr (completeTicket_completed _ _ _ _ _ _ done)
  · exact .refl s

theorem converts_endConvs (fuel : Nat) (s : State) : Converts s (State.endConvs fuel s) := by
  induction fuel generalizing s with
  | zero => exact .refl s
  | succ fuel ih =>
    unfold State.endConvs
    dsimp only
    split
    · exact .refl s
    · refine Converts.trans ?_ (ih _)
      exact List.foldlRecOn (motive := fun t => Converts s t) _ _ (.refl s) fun t h x _ => h.trans (by
        split
        · exact converts_endConv t _ _
        · exact .refl t)

theorem converts_startDrains (s : State) : Converts s s.startDrains := by
  refine ⟨(backstage_slices s _).unitStep, fun _ _ => rfl, fun x b c n aimed => ?_⟩
  rcases aimed with mem | done
  · refine .inl ?_
    have same : (s.slice x).targets = (s.startDrains.slice x).targets := by
      unfold State.startDrains State.slice
      dsimp only
      refine Map.atD_map_rel (R := fun v w : Slice => v.targets = w.targets) ?_ ?_ rfl s.slices <;> exact fun _ => rfl
    rwa [← same]
  · exact .inr done

theorem converts_settleConvs (s : State) : Converts s s.settleConvs := (converts_endConvs _ s).trans (converts_startDrains _)

/-- A slice that gets a target of an SSCONV's: `q` numbers the commands queued so far. -/
def Slice.aim (x : Slice) (q : Nat) (y : Nat × Nat × Nat × Nat) : Slice :=
  { x with targets := x.targets ++ [y], base := if x.targets = [] then x.groups else x.base, mark := if x.targets = [] then q else x.mark }

/-- An SSCONV of operands `a` and `b` takes ticket `n` of `c`, and aims the slices it names. -/
def State.aimSlices (s : State) (k : FKey) (c : Nat) (a b : W32) : State :=
  (convSlices a.toNat).foldl (fun t x => t.updSlice x fun y => y.aim s.nextReq (b.toNat, c, 5, s.nextTicket c 5)) (s.takeTicket k c 5).2

theorem updSlice_slice (s : State) (x : Nat) (f : Slice → Slice) : (s.updSlice x f).slice x = f (s.slice x) := Map.atD_put_same _ _ _ _

/-- A target given to a slice stands there; those that stand stay. -/
theorem aimed_updSlice (s : State) (x q : Nat) (y : Nat × Nat × Nat × Nat) :
    y ∈ ((s.updSlice x fun v => v.aim q y).slice x).targets ∧
      ∀ z u, z ∈ (s.slice u).targets → z ∈ ((s.updSlice x fun v => v.aim q y).slice u).targets := by
  refine ⟨by rw [updSlice_slice]; simp [Slice.aim], fun z u hz => ?_⟩
  by_cases e : u = x
  · subst e
    rw [updSlice_slice]
    simp [Slice.aim, hz]
  · rw [show (s.updSlice x fun v => v.aim q y).slice u = s.slice u from Map.atD_put_ne _ _ _ e]
    exact hz

theorem aimSlices_aimed {s : State} {k : FKey} {c : Nat} {a b : W32} {x : Nat} (hx : x ∈ convSlices a.toNat) :
    (s.aimSlices k c a b).Aimed x (b.toNat, c, 5, s.nextTicket c 5) :=
  .inl (foldl_establishes (I := fun _ => True) (P := fun t : State => (b.toNat, c, 5, s.nextTicket c 5) ∈ (t.slice x).targets) (fun _ _ _ => trivial)
    (fun t u h => (aimed_updSlice t u _ _).2 _ _ h) (fun t _ => (aimed_updSlice t x _ _).1) hx trivial)

theorem aimSlices_rest (s : State) (k : FKey) (c : Nat) (a b : W32) :
    UnitStep s (s.aimSlices k c a b) ∧ ((s.aimSlices k c a b).ctx c 5).issued = s.nextTicket c 5 :=
  List.foldlRecOn (motive := fun t : State => UnitStep s t ∧ (t.ctx c 5).issued = s.nextTicket c 5) _ _
    ⟨unitStep_takeTicket s k c 5, by show ((s.updCtx c 5 _).ctx c 5).issued = _; rw [State.updCtx_ctx_same]; rfl⟩
    fun t ⟨step, issued⟩ x _ => ⟨step.trans (backstage_updSlice t x _).unitStep, issued⟩

theorem Advanced.rest {s t : State} {k : FKey} {pc : W64} (h : Advanced s t k pc) : t.slices = s.slices ∧ t.cores = s.cores := by
  rw [h.moved.dev]; exact ⟨rfl, rfl⟩

theorem wr_slices (s : State) (k : FKey) (w : Wr) : (s.wr k w).slices = s.slices := by rw [regsOnly_wr s k w]

/-- R385: SSCONV gives the slices it names their target under the next T5 ticket of its control core. -/
theorem ssconv_next {o : G3} {s : State} {n : Nat} (h : s.Ready (.ssconv o) (.ctl n)) (hc : ssconvCheck o s (.ctl n) = .go) :
    ∃ t, exec (.ssconv o) s = .next t ∧ WordDone s t (.ctl n) ∧ UnitFrame s t (.ctl n) (some (wrSlot .xs o.d)) ∧
      (t.ctx (384 + n) 5).issued = s.nextTicket (384 + n) 5 ∧
      Holds64 s t (.ctl n) o.d (BitVec.ofNat 64 (s.nextTicket (384 + n) 5)) ∧
      ∀ x ∈ convSlices (s.src32 (.ctl n) o.a).toNat,
        ((s.src32 (.ctl n) o.b).toNat, 384 + n, 5, s.nextTicket (384 + n) 5) ∈ (t.slice x).targets ∨
          t.Completed (384 + n) 5 (s.nextTicket (384 + n) 5) := by
  have note := notesOnly_noted1 s (.ssconv o) (.ctl n)
  generalize hu : s.noted1 (.ssconv o) (.ctl n) = u at *
  have ticket : u.nextTicket (384 + n) 5 = s.nextTicket (384 + n) 5 := by rw [note]; rfl
  have srca := note.src32 (.ctl n) o.a
  have srcb := note.src32 (.ctl n) o.b
  obtain ⟨aim, issued⟩ := aimSlices_rest u (.ctl n) (384 + n) (u.src32 (.ctl n) o.a) (u.src32 (.ctl n) o.b)
  have settled := converts_settleConvs (u.aimSlices (.ctl n) (384 + n) (u.src32 (.ctl n) o.a) (u.src32 (.ctl n) o.b))
  have step' := aim.trans settled.units
  have step := note.backstage.unitStep.trans step'
  obtain ⟨turn, -⟩ := putOnce64_turn ((note.backstage.unitStep.members).trans h.sole) step' o.d (BitVec.ofNat 64 (s.nextTicket (384 + n) 5))
  obtain ⟨t, ht, adv⟩ : ∃ t, exec (.ssconv o) s = .next t ∧
      Advanced ((u.aimSlices (.ctl n) (384 + n) (u.src32 (.ctl n) o.a) (u.src32 (.ctl n) o.b)).settleConvs.putOnce64 (.ctl n) o.d
        (BitVec.ofNat 64 (s.nextTicket (384 + n) 5))) t (.ctl n) ((s.fib (.ctl n)).pc + 4) := by
    show ∃ t, execSsconv o s = .next t ∧ _
    refine issue_onLive_one h hc rfl ?_ (by rw [hu]; exact turn)
    rw [hu, ← ticket]
    rfl
  obtain ⟨done, frame, holds⟩ := ticketWord h.sole h.live step adv
  obtain ⟨slices, cores⟩ := adv.rest
  rw [putOnce64_sole (step.members.trans h.sole)] at slices cores
  rw [wr_slices] at slices
  rw [wide_cores] at cores
  have ctx : ∀ c x, t.ctx c x = (u.aimSlices (.ctl n) (384 + n) (u.src32 (.ctl n) o.a) (u.src32 (.ctl n) o.b)).settleConvs.ctx c x := fun c x => by
    unfold State.ctx State.core; rw [cores]
  refine ⟨t, ht, done, frame, by rw [ctx, settled.issued, issued, ticket], holds, fun x hx => ?_⟩
  have aimed := settled.aimed _ _ _ _ (aimSlices_aimed (by rw [srca]; exact hx))
  unfold State.Completed State.slice
  rw [ctx, slices, ← srcb, ← ticket]
  exact aimed

end Sys2Proof.Machine
end

section
/-!
PROOFS. How what bank executors, drains and stack reducers perform is completed (R112, R340, R371, R377, R383), and O41 from it and the
words above.
-/

namespace Sys2Proof.Machine

/-! ### Completion (R371, R377, R383) -/

/-- Completing a ticket changes a context, and what is noted and waited for with it. -/
theorem completeTicket_law (s : State) (p : Party) (sc : Scope) (c x n : Nat) : s.completeTicket p sc c x n =
    { s with veil := (s.completeTicket p sc c x n).veil, holds := (s.completeTicket p sc c x n).holds, cores := (s.completeTicket p sc c x n).cores } := by
  unfold State.completeTicket
  rw [veilOnly_noteDone s p sc c x n]
  rfl

/-- R371: a bank command that is performed completes its ticket. -/
theorem bankCommandComplete_next {s : State} {d : BankDone}
    (hd : (s.bankDone.find? fun d => d.bank = s.args.unit && d.exe = decide (s.args.sub = 1)) = some d) (open_ : s.leasesGone d.lines = true) :
    ∃ t, exec .bankCommandComplete s = .next t ∧ UnitsOnly s t ∧ t.bankDone = s.bankDone.erase d ∧ t.Completed d.core 5 d.ticket := by
  refine ⟨(({ s with bankDone := s.bankDone.erase d } : State).completeTicket d.by_ .die d.core 5 d.ticket), ?_, ?_, ?_,
    completed_completeTicket _ _ _ _ _ _ (.inl rfl)⟩
  · show execBankCommandComplete s = _
    unfold execBankCommandComplete
    rw [hd]
    dsimp only
    rw [if_pos open_]
  · have done : Backstage s { s with bankDone := s.bankDone.erase d } := ⟨.refl s, rfl, rfl, rfl, rfl, rfl, rfl⟩
    obtain ⟨units, -, -, -⟩ := done.unitStep.trans (unitStep_completeTicket ({ s with bankDone := s.bankDone.erase d } : State) d.by_ .die d.core 5 d.ticket)
    exact units
  · rw [completeTicket_law]

/-! ### Tiles at a bank (R340, R341) -/

theorem backstage_updLaunch (s : State) (l : Nat) (f : Launch → Launch) : Backstage s (s.updLaunch l f) := by
  unfold State.updLaunch
  split
  · exact ⟨.refl s, rfl, rfl, rfl, rfl, rfl, rfl⟩
  · exact .refl s

theorem backstage_logUndo (s : State) (l : Option Nat) (pa : Nat) : Backstage s (s.logUndo l pa) := by
  unfold State.logUndo
  dsimp only
  split
  · exact .refl s
  · split
    · exact .refl s
    · split_ifs
      · exact .refl s
      · obtain ⟨back, -⟩ := nonRecoverable_rest s ‹_› .logFull
        exact back
      · exact backstage_updLaunch s _ _

theorem backstage_markCarriages (s : State) (pa n : Nat) : Backstage s (s.markCarriages pa n) := by
  unfold State.markCarriages
  split
  · exact ⟨.refl s, rfl, rfl, rfl, rfl, rfl, rfl⟩
  · exact .refl s

theorem homeWrite_cores (s : State) (l : Option Nat) (w : Writer) (pa : Nat) (bs : List Byte) : (s.homeWrite l w pa bs).cores = s.cores := by
  have logged : Backstage s ((linesOf pa bs.length).foldl (fun s la => s.logUndo l (la * 128)) (s.markCarriages pa bs.length)) :=
    List.foldlRecOn (motive := fun t => Backstage s t) _ _ (backstage_markCarriages s pa bs.length) fun t h la _ => h.trans (backstage_logUndo t l _)
  have noted : ∀ old, Backstage s (((linesOf pa bs.length).foldl (fun s la => s.logUndo l (la * 128)) (s.markCarriages pa bs.length)).noteWrite w false pa old) :=
    fun old => logged.trans (veilOnly_noteWrite _ w false pa old).backstage
  exact (noted _).cores

/-- A tile for DRAM leaves scratchpads, contexts and drains. -/
theorem applyTile_dram (s : State) {d : Drain} (h : d.target = 1) : (s.applyTile d).scratch = s.scratch ∧ (s.applyTile d).cores = s.cores := by
  have elems : ∀ l : List ((Nat × Nat) × Option Nat), (l.foldl (fun s x => s.putElem d x.1 x.2) s).scratch = s.scratch ∧
      (l.foldl (fun s x => s.putElem d x.1 x.2) s).cores = s.cores := fun l =>
    List.foldlRecOn (motive := fun t : State => t.scratch = s.scratch ∧ t.cores = s.cores) l _ ⟨rfl, rfl⟩ fun t ⟨scratch, cores⟩ x _ => by
      unfold State.putElem
      dsimp only
      rw [if_neg (by rw [h]; decide), homeWrite_scratch, homeWrite_cores]
      exact ⟨scratch, cores⟩
  unfold State.applyTile
  split
  · exact ⟨rfl, rfl⟩
  · dsimp only
    rw [if_neg (by rw [h]; decide)]
    exact elems _

theorem updCtx_drains (s : State) (c x : Nat) (f : Ctx → Ctx) (c' : Nat) : ((s.updCtx c x f).core c').drains = (s.core c').drains := by
  unfold State.updCtx
  by_cases e : c' = c
  · subst e; rw [State.updCore_core_same]
  · rw [State.updCore_core_ne _ _ e]

theorem completeTicket_drains (s : State) (p : Party) (sc : Scope) (c x n c' : Nat) :
    ((s.completeTicket p sc c x n).core c').drains = (s.core c').drains := by
  unfold State.completeTicket
  rw [updCtx_drains, veilOnly_noteDone s p sc c x n]
  rfl

theorem launchError_cores (s : State) (l cause : Nat) : (s.launchError l cause).cores = s.cores := by
  unfold State.launchError
  dsimp only
  split
  · split
    · rfl
    · exact (backstage_updLaunch s _ _).cores
  · rfl

theorem recordFault_drains (s : State) (c x : Nat) (e : CtxFault) (c' : Nat) : ((s.recordFault c x e).core c').drains = (s.core c').drains := by
  unfold State.recordFault
  split
  · unfold State.core; rw [launchError_cores]
  · exact updCtx_drains s c x _ c'

/-- A drain that ends has its tile applied, leaves its core's drains, and completes its ticket. -/
theorem finishDrain_done (s : State) (d : Drain) : (s.finishDrain d).mem = (s.applyTile d).mem ∧ (s.finishDrain d).scratch = (s.applyTile d).scratch ∧
    ((s.finishDrain d).core d.core).drains = ((s.applyTile d).core d.core).drains.filter (·.id ≠ d.id) ∧ (s.finishDrain d).Completed d.core 4 d.ticket := by
  unfold State.finishDrain
  refine ⟨?_, ?_, ?_, completed_completeTicket _ _ _ _ _ _ (.inl rfl)⟩
  · rw [completeTicket_law]
    dsimp only
    split
    · exact (quiet_recordFault _ _ _ _).mem
    · rfl
  · rw [completeTicket_law]
    dsimp only
    split
    · exact (quiet_recordFault _ _ _ _).scratch
    · rfl
  · rw [completeTicket_drains]
    split
    · rw [recordFault_drains, State.updCore_core_same]
    · rw [State.updCore_core_same]

/-- R340, R371: a drain's tile is applied at its bank, between two commands. -/
theorem bankDrainApply_next {s : State} {d : Drain} {e : Nat × Nat} {r : List (Nat × Nat)}
    (hd : (s.core s.args.unit).drains.find? (·.id = s.args.item) = some d) (dram : d.target = 1) (elems : d.elems = e :: r)
    (open_ : s.tileOpen d = true) (between : ∀ x ∈ [false, true], betweenCmds ((s.bank (bankOf (e.1 - windowBase))).queue x) = true) :
    ∃ t, exec .bankDrainApply s = .next t ∧ t.mem = (s.applyTile d).mem ∧ t.scratch = s.scratch ∧
      (t.core d.core).drains = (s.core d.core).drains.filter (·.id ≠ d.id) ∧ t.Completed d.core 4 d.ticket := by
  obtain ⟨mem, scratch, drains, done⟩ := finishDrain_done s d
  obtain ⟨tileScratch, tileCores⟩ := applyTile_dram s dram
  refine ⟨s.finishDrain d, ?_, mem, scratch.trans tileScratch, ?_, done⟩
  · have e0 := between false (.head _)
    have e1 := between true (.tail _ (.head _))
    simp only [Bank.queue, Bool.false_eq_true, if_false, if_true] at e0 e1
    show execBankDrainApply s = _
    unfold execBankDrainApply
    rw [hd]
    dsimp only
    rw [if_neg (by rw [dram]; simp), if_pos open_, elems]
    dsimp only
    rw [e0, e1, if_pos (by simp)]
  · rw [drains]; unfold State.core; rw [tileCores]

/-! ### Stack reductions (R383) -/

theorem updStack_stack (s : State) (n : Nat) (f : Stack → Stack) : (s.updStack n f).stack n = f (s.stack n) := Map.atD_put_same _ _ _ _

theorem completeTicket_stack (s : State) (p : Party) (sc : Scope) (c x n m : Nat) : (s.completeTicket p sc c x n).stack m = s.stack m := by
  unfold State.stack
  rw [completeTicket_law]

/-- A reduction that ends leaves its reducer's queue, and completes its ticket. -/
theorem rdxEnd_done (s : State) (n : Nat) (x : Reduction) : (s.rdxEnd n x).mem = s.mem ∧ (s.rdxEnd n x).scratch = s.scratch ∧
    ((s.rdxEnd n x).stack n).rdx = (s.stack n).rdx.filter (·.id ≠ x.id) ∧ (s.rdxEnd n x).Completed x.core 6 x.ticket := by
  unfold State.rdxEnd
  refine ⟨?_, ?_, ?_, completed_completeTicket _ _ _ _ _ _ (.inl rfl)⟩
  · rw [completeTicket_law]; rfl
  · rw [completeTicket_law]; rfl
  · rw [completeTicket_stack]
    exact congrArg Stack.rdx (updStack_stack s n fun y => { y with rdx := y.rdx.filter (·.id ≠ x.id) })

/-- R383: a stack reducer performs the next step of its head block. -/
theorem stackReduction_next {s u : State} {x : Reduction} {r : List Reduction} (head : (s.stack s.args.unit).rdx = x :: r) (sound : x.fault = none)
    (ready : s.depsDone x.deps = true)
    (step : ((s.joins (.reducer s.args.unit) x.deps).follows (opParty x.fibre x.id) (.reducer s.args.unit)).rdxStep s.args.unit x = .ok u) :
    ∃ t, exec .stackReduction s = .next t ∧ t.mem = u.mem ∧ t.scratch = u.scratch ∧
      if x.next < Rd.count x.block then
        (t.stack s.args.unit).rdx = (u.stack s.args.unit).rdx.map fun y => if y.id = x.id then { y with next := y.next + 1 } else y
      else (t.stack s.args.unit).rdx = (u.stack s.args.unit).rdx.filter (·.id ≠ x.id) ∧ t.Completed x.core 6 x.ticket := by
  let rest := (u.leaveMissOf (.reducer s.args.unit)).unclaim (.reducer s.args.unit)
  have exec_ : exec .stackReduction s = .next (if x.next < Rd.count x.block then rest.updRdx s.args.unit x.id fun y => { y with next := y.next + 1 }
      else rest.rdxEnd s.args.unit x) := by
    show execStackReduction s = _
    unfold execStackReduction
    dsimp only
    rw [head]
    dsimp only
    rw [if_neg (by simp [sound, ready]), step]
  rw [exec_]
  refine ⟨_, rfl, ?_⟩
  split
  · refine ⟨rfl, rfl, ?_⟩
    unfold State.updRdx
    rw [updStack_stack]
    rfl
  · obtain ⟨mem, scratch, stack, done⟩ := rdxEnd_done rest s.args.unit x
    exact ⟨mem, scratch, stack, done⟩

/-- Settles O41: a word that commands a unit takes its ticket and queues its command; what completes it is the unit's step. -/
theorem memoryExecutors : Obligations.MemoryExecutors := by
  unfold Obligations.MemoryExecutors Claims.MemoryExecutorWords Claims.ExecutorCompletion
  refine ⟨⟨fun o s k n h hc hb => bxc_next h hc hb, fun d a s k r p h hc hr => rdx_next h hc hr, fun o s n h hc => ssconv_next h hc⟩,
    fun s d hd hl => bankCommandComplete_next hd hl, fun s d e r hd _ ht he ho hb => bankDrainApply_next hd ht he ho hb,
    fun s x r u hx hf hd hs => stackReduction_next hx hf hd hs⟩

end Sys2Proof.Machine
end

section
/-!
PROOFS. The step of the machine: whose turn it is, and what it does (R139, R179, R351, R423).
-/

namespace Sys2Proof.Machine

/-- The turn of an agent that finds a word to execute: the decoded word is executed. -/
theorem runAgent_word {s : State} {a : Agent} {k : FKey} {w : W32} {i : Instr} (hr : s.inReset a = false) (hk : s.runner a = some k)
    (ha : ∀ c, a = .ap c → (s.core c).apStop = false) (hw : ({ s with agent := some a } : State).fetchWord k = .ok w)
    (hd : decode w = .ok i) : runAgent a s = exec i { s with agent := some a } := by
  have word : runAgent.runWord k { s with agent := some a } = exec i { s with agent := some a } := by
    simp only [runAgent.runWord, hw, hd]
  unfold runAgent
  rw [if_neg (by simp [hr]), hk]
  cases a with
  | ap c => simp only [ha c rfl, Bool.false_eq_true, if_false, word]
  | coach c p => exact word
  | ctl n => exact word

theorem step_of_agenda {s : State} {t : Turn} {r : List Turn} (h : s.agenda = t :: r) : step s = closed (turn t { s with agenda := r }) := by
  unfold step; rw [h]

theorem step_of_default {s : State} (h : s.agenda = []) : step s = closed (turn s.defaultTurn { s with agenda := [] }) := by
  have hs : ({ s with agenda := [] } : State) = s := by rw [← h]
  unfold step; rw [h, hs]

/-- R139, R179: the word at the PC of the agent whose turn it is. -/
theorem stepRunsWord : Claims.StepRunsWord := by
  intro s a r k w i hturn hr hk ha hw hd
  have run : step s = closed (runAgent a { s with agenda := r }) := by
    rcases hturn with h | ⟨h, rfl, ht⟩
    · exact step_of_agenda h
    · rw [step_of_default h, ht]; rfl
  rw [run, runAgent_word (s := { s with agenda := r }) hr ?_ ha hw hd]
  · rfl
  · cases a <;> exact hk

/-- The step of a unit, the control complex or the outside world. -/
theorem stepTakesEvent : Claims.StepTakesEvent := by
  intro s i x r h hi
  rw [step_of_agenda h]
  simp only [turn, hi, if_true]
  rfl

/-- R351, R423: an upset of a plane word, and an extension of a measurement register. -/
theorem stepTakesOther : Claims.StepTakesOther := by
  refine ⟨fun s r n c h hc hr hs => ?_, fun s r n im h h5 h7 hb => ?_⟩
  · have up : ({ s with agenda := r } : State).upset (.plane n) =
        some { s with agenda := r, carriages := s.carriages.put n { c with state := .stale } } := by
      simp [State.upset, hc, hr, hs]
    rw [step_of_agenda h, turn, up]; rfl
  · have up : ({ s with agenda := r } : State).firmwareMeasure n im =
        some { s with agenda := r, mr := s.mr.set n (extendMr (s.mr.getD n []) im) } := if_pos ⟨h5, h7, hb⟩
    rw [step_of_agenda h, turn, up]; rfl

/-- Settles O11: words, steps without a word, and what comes from outside. -/
theorem stepRunsTurn : Obligations.StepRunsTurn := ⟨stepRunsWord, stepTakesEvent, stepTakesOther⟩

end Sys2Proof.Machine
end

section
/-!
PROOFS. Reconvergence: a fibre that comes to a rendezvous waits there, and the groups of its gang depart or wait (R158, R159, R182).
-/

namespace Sys2Proof.Machine

/-! ### Lists without duplicates -/

theorem dedup_of_const {α : Type} [DecidableEq α] {l : List α} {a : α} (h : ∀ x ∈ l, x = a) (hl : l ≠ []) : dedup l = [a] := by
  have stays : ∀ l : List α, (∀ x ∈ l, x = a) → l.foldl (fun acc x => if x ∈ acc then acc else x :: acc) [a] = [a] := fun l h =>
    List.foldlRecOn (motive := fun acc => acc = [a]) l _ rfl fun acc hacc x hx => by simp [hacc, h x hx]
  cases l with
  | nil => exact absurd rfl hl
  | cons x l =>
    obtain rfl : x = a := h x List.mem_cons_self
    simp [dedup, stays l fun y hy => h y (List.mem_cons_of_mem _ hy)]

/-! ### A fibre that comes to a rendezvous and waits there (R159) -/

/-- Fibre `k` has come to a rendezvous, where it waits as `w` says; its run is over, and nothing else that a rendezvous looks at differs. -/
structure CameTo (s t : State) (k : FKey) (w : Wait) : Prop where
  memory : SameMemory s t
  rest : t.blocks = s.blocks ∧ t.gangs = s.gangs ∧ t.dies = s.dies
  own : (t.fib k).wait = w ∧ (t.fib k).pc = (s.fib k).pc ∧ (t.fib k).status = (s.fib k).status
  others : ∀ m, m ≠ k → (t.fib m).wait = (s.fib m).wait ∧ (t.fib m).pc = (s.fib m).pc ∧ (t.fib m).status = (s.fib m).status

/-- The end of the run of an agent that waits touches coaches and its fibre alone (R84, R153). -/
theorem endRun_rest {s : State} {k : FKey} (h : s.Alone k) (hh : s.isHelper k = false) (hw : (s.fib k).wait ≠ .ready) :
    s.endRun = { s with fibres := s.endRun.fibres, pipes := s.endRun.pipes } := by
  unfold State.endRun
  split
  next c p ha =>
    split
    · rfl
    next x hx =>
      have alone := h c p x ha hx
      obtain ⟨n, hn, rfl⟩ := List.map_eq_singleton_iff.1 alone
      rw [syncHelpers_alone hx alone hh, hn]
      simp only [List.foldl_cons, List.foldl_nil]
      have stays : ∀ t : State, (t.fib (.fib x.block n)).wait ≠ .ready → t.boundaryTraps (.fib x.block n) = t := fun t ht => by
        simp [State.boundaryTraps, ht]
      rw [stays _ (by rw [State.updFib_fib_same]; exact hw)]
      rfl
  · rfl

/-- A fibre has come to a rendezvous, its run not yet ended. -/
def State.waitOne (s : State) (k : FKey) (w : Wait) : State :=
  ((s.updFib k fun f => { f with wait := w }).dropLines [k]).updFib k fun f => { f with pc := (s.fib k).pc }

theorem waitOne_rest (s : State) (k : FKey) (w : Wait) : s.waitOne k w =
    { s with fibres := (s.waitOne k w).fibres, lineBuf := (s.waitOne k w).lineBuf, evicted := (s.waitOne k w).evicted } := rfl

theorem waitOne_fib (s : State) (k : FKey) (w : Wait) : (s.waitOne k w).fib k = { s.fib k with wait := w } := by
  have drop : ∀ (t : State) ks m, (t.dropLines ks).fib m = t.fib m := fun _ _ _ => rfl
  simp [State.waitOne, drop]

theorem waitOne_fib_ne (s : State) {k m : FKey} (w : Wait) (h : m ≠ k) : (s.waitOne k w).fib m = s.fib m := by
  have drop : ∀ (t : State) ks m, (t.dropLines ks).fib m = t.fib m := fun _ _ _ => rfl
  rw [State.waitOne, State.updFib_fib_ne _ _ h, drop, State.updFib_fib_ne _ _ h]

/-- The end of the run of a fibre that has come to a rendezvous. -/
theorem cameTo_endRun {s t : State} {k : FKey} {w : Wait} (alone : s.Alone k) (live : s.isHelper k = false) (hw : w ≠ .ready)
    (notes : NotesOnly s t) : CameTo s (t.waitOne k w).endRun k w := by
  have own := waitOne_fib t k w
  have alone' : (t.waitOne k w).Alone k :=
    alone.of_eq (by rw [waitOne_rest]; exact (notes.keepsTurn k).agent) (by rw [waitOne_rest]; exact notes.pipes)
  have live' : (t.waitOne k w).isHelper k = false := by unfold State.isHelper at *; rw [own, notes.fib]; exact live
  have waits : ((t.waitOne k w).fib k).wait ≠ .ready := by rw [own]; exact hw
  have ended := runOver_endRun alone' live' waits
  have rest := endRun_rest alone' live' waits
  refine ⟨?_, ⟨?_, ?_, ?_⟩, ?_, fun m hm => ?_⟩
  · exact SameMemory.trans (by rw [waitOne_rest]; exact notes.backstage.memory) ended.memory
  · rw [ended.blocks, waitOne_rest]; exact notes.backstage.blocks
  · rw [rest, waitOne_rest]; exact notes.backstage.gangs
  · rw [rest, waitOne_rest, notes]
  · rw [ended.fib, own, notes.fib]; exact ⟨rfl, rfl, rfl⟩
  · rw [ended.fib, waitOne_fib_ne t w hm, notes.fib]; exact ⟨rfl, rfl, rfl⟩

/-- A word of one agent at which it waits, at its PC. -/
theorem issue_wait {s : State} {i : Instr} {k : FKey} {w : Wait} {check : State → FKey → Verdict} {eff : State → List FKey → State}
    {after : State → List FKey → State} (h : s.Ready i k) (hc : check s k = .go) (hr : i.runEnding = true) (hw : w ≠ .ready)
    (he : eff (s.noted1 i k) [k] = (s.noted1 i k).updFib k fun f => { f with wait := w }) :
    ∃ t, CameTo s t k w ∧ issue i s check eff (fun s k => (s.fib k).pc) after = .next (after t [k]) :=
  ⟨_, cameTo_endRun (State.alone_of_members h.sole) h.live hw (notesOnly_noted1 s i k), issue_ending h hc hr he⟩

section CameToFacts
variable {s t : State} {k : FKey} {w : Wait} (h : CameTo s t k w)
include h

theorem CameTo.block (b : Nat) : t.block b = s.block b := by obtain ⟨hb, -, -⟩ := h.rest; unfold State.block; rw [hb]
theorem CameTo.gang (g : Nat × Nat) : t.gang g = s.gang g := by obtain ⟨-, hg, -⟩ := h.rest; unfold State.gang; rw [hg]
theorem CameTo.cycles (c : Nat) : t.cycles c = s.cycles c := by obtain ⟨-, -, hd⟩ := h.rest; unfold State.cycles State.die; rw [hd]

theorem CameTo.liveSlots (b : Nat) : t.liveSlots b = s.liveSlots b := by
  have same : ∀ m, (t.fib m).status = (s.fib m).status := fun m => by
    by_cases e : m = k
    · subst e; exact h.own.2.2
    · exact (h.others m e).2.2
  simp only [State.liveSlots, h.block, same]

theorem CameTo.liveInGang (g : Nat × Nat) : t.liveInGang g = s.liveInGang g := by simp only [State.liveInGang, h.liveSlots]

end CameToFacts

/-! ### Reconvergence groups (R158) -/

theorem mem_reconvGroup {s : State} {g : Nat × Nat} {pc : W64} {k : FKey} :
    k ∈ s.reconvGroup g pc ↔ (∃ n ∈ s.liveInGang g, k = .fib g.1 n) ∧ (s.fib k).atReconv.isSome = true ∧ (s.fib k).pc = pc := by
  have parts : k ∈ (s.gangParts g).map (·.2) ↔ ∃ n ∈ s.liveInGang g, k = .fib g.1 n := by simp [State.gangParts, eq_comm]
  rw [State.reconvGroup, List.mem_filter, parts, Bool.and_eq_true, decide_eq_true_eq]

theorem reconvGroup_nodup (s : State) (g : Nat × Nat) (pc : W64) : (s.reconvGroup g pc).Nodup := by
  unfold State.reconvGroup State.gangParts
  rw [List.map_map]
  exact (((List.nodup_range.filter _).filter _).map (fun _ _ e => by simpa using e)).filter _

theorem mem_liveInGang {s : State} {b n : Nat} (h : n ∈ s.liveSlots b) : n ∈ s.liveInGang (b, n / 32) := by
  simp [State.liveInGang, h]

/-- The gangs of one agent's word. -/
theorem gangsOf_one (s : State) (k : FKey) : s.gangsOf [k] = [s.gangOf k] := dedup_of_const (by simp) (by simp)

/-- The cycle at which the group that a fibre joins at RECONV was opened: now, where it opens one (R158). -/
def State.opened (s : State) (b n : Nat) : Nat :=
  ((s.reconvGroup (b, n / 32) (s.fib (.fib b n)).pc).head?.bind fun m => (s.fib m).atReconv).getD (s.cycles (s.coreOf (.fib b n)))

/-- RECONV of one agent: it waits in its group, its run ends, and the departure of its gang's groups is tested. -/
theorem execReconv_one {s : State} {b n : Nat} (h : s.Ready .reconv (.fib b n)) :
    ∃ t, CameTo s t (.fib b n) (.reconv (s.opened b n)) ∧ exec .reconv s = .next (t.reconvAll (b, n / 32)) := by
  have notes := notesOnly_noted1 s .reconv (.fib b n)
  have same : (s.noted1 .reconv (.fib b n)).opened b n = s.opened b n := by rw [notes]; rfl
  obtain ⟨t, came, e⟩ := issue_wait (w := .reconv (s.opened b n)) (check := noCheck)
    (eff := fun s ks => s.onLive ks fun s k =>
      let opened := ((s.reconvGroup (s.gangOf k) (s.fib k).pc).head?.bind fun m => (s.fib m).atReconv).getD (s.cycles (s.coreOf k))
      s.updFib k fun f => { f with wait := .reconv opened })
    (after := fun s ks => (s.gangsOf ks).foldl (fun s g => s.reconvAll g) s) h rfl rfl nofun
    ((onLive_one (by rw [notes.isHelper, h.live]) _).trans (by rw [← same]; rfl))
  refine ⟨t, came, ?_⟩
  show execReconv s = _
  unfold execReconv
  rw [e, gangsOf_one]; rfl

/-- R158: a group in which every live fibre of the gang stands departs. -/
theorem reconvAll_whole {t : State} {g : Nat × Nat} {pc : W64} (hl : t.liveInGang g ≠ [])
    (h : ∀ m ∈ t.liveInGang g, (t.fib (.fib g.1 m)).atReconv.isSome = true ∧ (t.fib (.fib g.1 m)).pc = pc) :
    t.reconvAll g = t.resumeAll (t.reconvGroup g pc) := by
  have whole : t.reconvGroup g pc = (t.gangParts g).map (·.2) := by
    refine List.filter_eq_self.2 fun k hk => ?_
    obtain ⟨m, hm, rfl⟩ : ∃ m ∈ t.liveInGang g, FKey.fib g.1 m = k := by simpa [State.gangParts] using hk
    obtain ⟨at_, pc⟩ := h m hm
    simp [at_, pc]
  obtain ⟨x, r, hx⟩ := List.exists_cons_of_ne_nil hl
  have pcs : dedup (((t.gangParts g).map (·.2)).filterMap fun k => if (t.fib k).atReconv.isSome then some (t.fib k).pc else none) = [pc] := by
    obtain ⟨ax, px⟩ := h x (by rw [hx]; exact List.mem_cons_self)
    refine dedup_of_const (fun p hp => ?_) (List.ne_nil_of_mem (a := pc) ?_)
    · obtain ⟨m, hm, -, rfl⟩ : ∃ m ∈ t.liveInGang g, (t.fib (.fib g.1 m)).atReconv.isSome = true ∧ (t.fib (.fib g.1 m)).pc = p := by
        simpa [State.gangParts] using hp
      exact (h m hm).2
    · simpa [State.gangParts] using ⟨x, by simp [hx], ax, px⟩
  obtain ⟨o, ho⟩ := Option.isSome_iff_exists.1 (h x (by rw [hx]; exact List.mem_cons_self)).1
  have opened : (t.reconvGroup g pc).head?.bind (fun k => (t.fib k).atReconv) = some o := by
    rw [whole]; simp [State.gangParts, hx, ho]
  have length : (t.reconvGroup g pc).length = (t.liveInGang g).length := by rw [whole]; simp [State.gangParts]
  unfold State.reconvAll
  rw [pcs, List.foldl_cons, List.foldl_nil]
  unfold State.reconvCheck
  dsimp only
  rw [opened]
  exact if_pos (.inl length)

/-- R158: RECONV of the last live fibre of its gang lets the group go on. -/
theorem reconv_departs {s : State} {b n : Nat} (h : s.Ready .reconv (.fib b n)) (hn : n ∈ s.liveSlots b)
    (hg : ∀ m ∈ s.liveInGang (b, n / 32), m ≠ n →
      (s.fib (.fib b m)).atReconv.isSome = true ∧ (s.fib (.fib b m)).pc = (s.fib (.fib b n)).pc) :
    ∃ t, exec .reconv s = .next t ∧ ∀ m ∈ s.liveInGang (b, n / 32),
      (t.fib (.fib b m)).pc = (s.fib (.fib b n)).pc + 4 ∧ (t.fib (.fib b m)).wait = .ready := by
  obtain ⟨t, came, e⟩ := execReconv_one h
  obtain ⟨wait, pc, -⟩ := came.own
  have all : ∀ m ∈ t.liveInGang (b, n / 32), (t.fib (.fib b m)).atReconv.isSome = true ∧ (t.fib (.fib b m)).pc = (s.fib (.fib b n)).pc := by
    intro m hm
    rw [came.liveInGang] at hm
    by_cases em : m = n
    · subst em; exact ⟨by simp [Fibre.atReconv, wait], pc⟩
    · obtain ⟨ow, op, -⟩ := came.others (.fib b m) (by simp [em])
      obtain ⟨at_, pm⟩ := hg m hm em
      exact ⟨by unfold Fibre.atReconv; rw [ow]; exact at_, op.trans pm⟩
  refine ⟨_, e, fun m hm => ?_⟩
  rw [reconvAll_whole (by rw [came.liveInGang]; exact List.ne_nil_of_mem (mem_liveInGang hn)) all]
  rw [← came.liveInGang] at hm
  obtain ⟨at_, pm⟩ := all m hm
  obtain ⟨w, p⟩ := resumeAll_fib_of_mem t (mem_reconvGroup.2 ⟨⟨m, hm, rfl⟩, at_, pm⟩) (reconvGroup_nodup t _ _)
  exact ⟨by rw [p, pm], w⟩

/-- Fibre `n` of block `b` waits by itself in a group whose window is open, and its gang has another live fibre (R158). -/
structure WaitsAlone (t : State) (b n : Nat) (pc : W64) (opened : Nat) : Prop where
  own : (t.fib (.fib b n)).pc = pc ∧ (t.fib (.fib b n)).wait = .reconv opened
  others : ∀ m ∈ t.liveInGang (b, n / 32), m ≠ n → (t.fib (.fib b m)).atReconv.isSome = true → (t.fib (.fib b m)).pc ≠ pc
  more : (t.liveInGang (b, n / 32)).length ≠ 1
  window : ¬ opened + (t.gang (b, n / 32)).sr.rcvwin ≤ t.cycles (t.block b).core

theorem resumeAll_status (s : State) (ks : List FKey) (m : FKey) : ((s.resumeAll ks).fib m).status = (s.fib m).status :=
  foldl_rel (R := fun s t : State => (t.fib m).status = (s.fib m).status) (fun _ => rfl) (fun a a' => a'.trans a) (fun s x => by
    by_cases e : m = x
    · subst e; simp [State.resume]
    · rw [State.resume, State.updFib_fib_ne s _ e]) ks s

theorem resumeAll_gang (s : State) (ks : List FKey) (g : Nat × Nat) : (s.resumeAll ks).gang g = s.gang g :=
  List.foldlRecOn (motive := fun t : State => t.gang g = s.gang g) ks _ rfl fun _ ht _ _ => ht

theorem resumeAll_liveInGang (s : State) (ks : List FKey) (g : Nat × Nat) : (s.resumeAll ks).liveInGang g = s.liveInGang g := by
  simp only [State.liveInGang, State.liveSlots, (regsOnly_resumeAll s ks).block, resumeAll_status]

/-- The test of any group of its gang leaves it there. -/
theorem WaitsAlone.reconvCheck {t : State} {b n : Nat} {pc : W64} {o : Nat} (h : WaitsAlone t b n pc o) (hn : n ∈ t.liveInGang (b, n / 32))
    (p : W64) : WaitsAlone (t.reconvCheck (b, n / 32) p) b n pc o ∧ n ∈ (t.reconvCheck (b, n / 32) p).liveInGang (b, n / 32) := by
  obtain ⟨hpc, hw⟩ := h.own
  unfold State.reconvCheck
  dsimp only
  split
  · exact ⟨h, hn⟩
  next oldest ho =>
  by_cases e : p = pc
  · subst e
    have alone : t.reconvGroup (b, n / 32) p = [.fib b n] := by
      refine List.perm_singleton.1 ((List.perm_ext_iff_of_nodup (reconvGroup_nodup t _ _) (by simp)).2 fun k => ?_)
      rw [mem_reconvGroup, List.mem_singleton]
      constructor
      · rintro ⟨⟨m, hm, rfl⟩, at_, hp⟩
        by_contra ne
        exact h.others m hm (fun e => ne (by rw [e])) at_ hp
      · rintro rfl
        exact ⟨⟨n, hn, rfl⟩, by simp [Fibre.atReconv, hw], hpc⟩
    rw [alone] at ho ⊢
    obtain rfl : o = oldest := by simpa [Fibre.atReconv, hw] using ho
    rw [if_neg (by rintro (c | c); exacts [h.more c.symm, h.window c])]
    exact ⟨h, hn⟩
  · split
    · have out : FKey.fib b n ∉ t.reconvGroup (b, n / 32) p := fun hm => e ((mem_reconvGroup.1 hm).2.2.symm.trans hpc)
      refine ⟨⟨?_, fun m hm ne at_ => ?_, by rw [resumeAll_liveInGang]; exact h.more, ?_⟩, by rw [resumeAll_liveInGang]; exact hn⟩
      · rw [resumeAll_fib_of_not_mem t out]; exact h.own
      · rw [resumeAll_liveInGang] at hm
        by_cases hk : FKey.fib b m ∈ t.reconvGroup (b, n / 32) p
        · obtain ⟨wait, -⟩ := resumeAll_fib_of_mem t hk (reconvGroup_nodup t _ _)
          rw [Fibre.atReconv, wait] at at_; exact absurd at_ (by decide)
        · rw [resumeAll_fib_of_not_mem t hk] at at_ ⊢
          exact h.others m hm ne at_
      · rw [resumeAll_gang, (regsOnly_resumeAll t _).block, State.cycles, State.die, regsOnly_resumeAll t]; exact h.window
    · exact ⟨h, hn⟩

theorem WaitsAlone.reconvAll {t : State} {b n : Nat} {pc : W64} {o : Nat} (h : WaitsAlone t b n pc o) (hn : n ∈ t.liveInGang (b, n / 32)) :
    WaitsAlone (t.reconvAll (b, n / 32)) b n pc o :=
  (List.foldlRecOn (motive := fun t : State => WaitsAlone t b n pc o ∧ n ∈ t.liveInGang (b, n / 32)) _ _ ⟨h, hn⟩
    fun _ ht p _ => ht.1.reconvCheck ht.2 p).1

/-- R158: RECONV of a fibre that opens a group waits while another live fibre of its gang is elsewhere. -/
theorem reconv_waits {s : State} {b n : Nat} (h : s.Ready .reconv (.fib b n)) (hn : n ∈ s.liveSlots b)
    (hm : ∃ m ∈ s.liveInGang (b, n / 32), m ≠ n ∧ (s.fib (.fib b m)).atReconv = none)
    (hg : ∀ m ∈ s.liveInGang (b, n / 32), (s.fib (.fib b m)).atReconv.isSome = true → (s.fib (.fib b m)).pc ≠ (s.fib (.fib b n)).pc)
    (hw : 0 < (s.gang (b, n / 32)).sr.rcvwin) :
    ∃ t, exec .reconv s = .next t ∧ (t.fib (.fib b n)).pc = (s.fib (.fib b n)).pc ∧
      (t.fib (.fib b n)).wait = .reconv (s.cycles (s.coreOf (.fib b n))) := by
  have opened : s.opened b n = s.cycles (s.coreOf (.fib b n)) := by
    have none : s.reconvGroup (b, n / 32) (s.fib (.fib b n)).pc = [] := List.eq_nil_iff_forall_not_mem.2 fun k hk => by
      obtain ⟨⟨m, hm, rfl⟩, at_, pc⟩ := mem_reconvGroup.1 hk
      exact hg m hm at_ pc
    rw [State.opened, none]; rfl
  obtain ⟨t, came, e⟩ := execReconv_one h
  rw [opened] at came
  obtain ⟨wait, pc, -⟩ := came.own
  have listed : n ∈ t.liveInGang (b, n / 32) := by rw [came.liveInGang]; exact mem_liveInGang hn
  have waits : WaitsAlone t b n (s.fib (.fib b n)).pc (s.cycles (s.coreOf (.fib b n))) := by
    refine ⟨⟨pc, wait⟩, fun m hm ne at_ => ?_, fun one => ?_, ?_⟩
    · obtain ⟨ow, op, -⟩ := came.others (.fib b m) (by simp [ne])
      rw [Fibre.atReconv, ow] at at_
      rw [op]
      exact hg m (by rwa [came.liveInGang] at hm) at_
    · obtain ⟨x, hx⟩ := List.length_eq_one_iff.1 one
      obtain ⟨m, hm, ne, -⟩ := hm
      rw [← came.liveInGang, hx] at hm
      rw [hx] at listed
      exact ne ((List.mem_singleton.1 hm).trans (List.mem_singleton.1 listed).symm)
    · rw [came.gang, came.cycles, came.block]
      show ¬ s.cycles (s.block b).core + _ ≤ s.cycles (s.block b).core
      omega
  obtain ⟨pc', wait'⟩ := (waits.reconvAll listed).own
  exact ⟨_, e, pc', wait'⟩

/-- Settles O19: the last fibre of its gang to come lets the group depart; another opens a group and waits. -/
theorem reconvergence : Obligations.Reconvergence := by
  unfold Obligations.Reconvergence
  exact fun s b n h hn => ⟨reconv_departs h hn, reconv_waits h hn⟩

end Sys2Proof.Machine
end

section
/-!
PROOFS. Coaches: which fibres a free pipe takes, and what becomes of them (R152 to R154, R161).
-/

namespace Sys2Proof.Machine

/-! ### The choice of the head (R161) -/

/-- What a fold picks from a list stands in the list. -/
theorem mem_of_foldl_pick {α : Type} {f : Option α → α → Option α} (hf : ∀ m x, f m x = some x ∨ f m x = m) {l : List α} {z : α}
    (h : l.foldl f none = some z) : z ∈ l :=
  List.foldlRecOn (motive := fun m => ∀ z, m = some z → z ∈ l) l f (fun _ hz => by cases hz) (fun m hm x hx z hz => by
    rcases hf m x with e | e
    · rw [e] at hz; rwa [← Option.some.inj hz]
    · exact hm z (e ▸ hz)) z h

theorem headFibre_mem {s : State} {c : Nat} {x : Nat × Nat} (h : s.headFibre c = some x) : x ∈ s.readyOn c :=
  mem_of_foldl_pick (fun m x => by
    cases m with
    | none => exact .inl rfl
    | some y => dsimp only; split; exacts [.inl rfl, .inr rfl]) h

/-- The head of a new coach is a live fibre that is ready and in no coach. -/
theorem headFibre_ready {s : State} {c b n : Nat} (h : s.headFibre c = some (b, n)) :
    n ∈ s.liveSlots b ∧ s.fibReady b n = true ∧ s.inCoach b n = false := by
  obtain ⟨x, -, hx⟩ := List.mem_flatMap.1 (headFibre_mem h)
  split at hx
  · obtain ⟨m, hm, e⟩ := List.mem_map.1 hx
    obtain ⟨rfl, rfl⟩ := Prod.mk.inj e
    simpa using hm
  · cases hx

/-! ### The members of a coach (R153, R154) -/

theorem mem_quad {q m : Nat} : m ∈ (List.range 4).map (4 * q + ·) ↔ m / 4 = q := by
  rw [List.mem_map]
  constructor
  · rintro ⟨i, hi, rfl⟩
    have := List.mem_range.1 hi
    omega
  · rintro rfl
    exact ⟨m % 4, List.mem_range.2 (Nat.mod_lt _ (by decide)), by omega⟩

theorem mem_quadGroup {s : State} {b q : Nat} {pc : W64} {m : Nat} :
    m ∈ s.quadGroup b q pc ↔ m / 4 = q ∧ s.fibReady b m = true ∧ s.inCoach b m = false ∧ (s.fib (.fib b m)).pc = pc := by
  simp only [State.quadGroup, List.mem_filter, mem_quad, Bool.and_eq_true, Bool.not_eq_true', decide_eq_true_eq, and_assoc]

theorem mem_groupHelpers {s : State} {b q : Nat} {ms : List Nat} {m : Nat} (h : m ∈ s.groupHelpers b q ms) :
    m / 4 = q ∧ s.isHelper (.fib b m) = true := by
  unfold State.groupHelpers at h
  split at h
  · split at h
    · obtain ⟨hm, hh⟩ := List.mem_filter.1 h
      exact ⟨mem_quad.1 hm, hh⟩
    · cases h
  · cases h

/-- The quads of a block from that of slot `n` on, in turn: those of its role with a group at a PC (R153). -/
def State.quadsFrom (s : State) (b n : Nat) (pc : W64) : List Nat :=
  ((List.range ((s.block b).gangs * 8)).map fun i => (n / 4 + i) % ((s.block b).gangs * 8)).filter fun q =>
    decide (s.roleOf (.fib b (4 * q)) = s.roleOf (.fib b n)) && decide (s.quadGroup b q pc ≠ [])

theorem mem_coachMembers {s : State} {b n m : Nat} : m ∈ s.coachMembers b n ↔ m ∈ (s.block b).slotNos ∧
    ∃ q ∈ (s.quadsFrom b n (s.fib (.fib b n)).pc).take 8, m ∈ s.quadGroup b q (s.fib (.fib b n)).pc ∨
      m ∈ s.groupHelpers b q (s.quadGroup b q (s.fib (.fib b n)).pc) := by
  show m ∈ ((s.block b).slotNos.filter fun m => decide (m ∈ ((s.quadsFrom b n (s.fib (.fib b n)).pc).take 8).flatMap fun q =>
    s.quadGroup b q (s.fib (.fib b n)).pc ++ s.groupHelpers b q (s.quadGroup b q (s.fib (.fib b n)).pc))) ↔ _
  simp only [List.mem_filter, decide_eq_true_eq, List.mem_flatMap, List.mem_append]

/-- The role of a fibre is that of its quad's first slot: both stand in one gang. -/
theorem roleOf_quad (s : State) (b m : Nat) : s.roleOf (.fib b (4 * (m / 4))) = s.roleOf (.fib b m) := by
  have gang : 4 * (m / 4) / 32 = m / 32 := by omega
  simp only [State.roleOf, State.blockOf, State.gangOf, gang]

/-- What a member of a new coach is: a helper, or a ready fibre with the head's role and PC. -/
theorem coachMember {s : State} {b n m : Nat} (h : m ∈ s.coachMembers b n) : s.isHelper (.fib b m) = true ∨
    s.fibReady b m = true ∧ s.inCoach b m = false ∧ (s.fib (.fib b m)).pc = (s.fib (.fib b n)).pc ∧ s.roleOf (.fib b m) = s.roleOf (.fib b n) := by
  obtain ⟨-, q, hq, hm | hm⟩ := mem_coachMembers.1 h
  · obtain ⟨rfl, ready, free, pc⟩ := mem_quadGroup.1 hm
    have role := (List.mem_filter.1 (List.mem_of_mem_take hq)).2
    rw [Bool.and_eq_true, decide_eq_true_eq, roleOf_quad] at role
    exact .inr ⟨ready, free, pc, role.1⟩
  · exact .inl (mem_groupHelpers hm).2

/-- At most the fibres of eight quads. -/
theorem coachMembers_length (s : State) (b n : Nat) : (s.coachMembers b n).length ≤ 32 := by
  have inside : s.coachMembers b n ⊆ ((s.quadsFrom b n (s.fib (.fib b n)).pc).take 8).flatMap fun q => (List.range 4).map (4 * q + ·) := fun m hm => by
    obtain ⟨-, q, hq, h⟩ := mem_coachMembers.1 hm
    exact List.mem_flatMap.2 ⟨q, hq, mem_quad.2 (h.elim (fun h => (mem_quadGroup.1 h).1) fun h => (mem_groupHelpers h).1)⟩
  have distinct : (s.coachMembers b n).Nodup := List.nodup_range.filter _
  calc (s.coachMembers b n).length ≤ _ := (List.subperm_of_subset distinct inside).length_le
    _ = ((s.quadsFrom b n (s.fib (.fib b n)).pc).take 8).length * 4 := by simp [List.length_flatMap]
    _ ≤ 8 * 4 := Nat.mul_le_mul_right 4 (by simp)

/-- The head itself is a member. -/
theorem head_mem_coachMembers {s : State} {b n : Nat} (hl : n ∈ s.liveSlots b) (hr : s.fibReady b n = true) (hc : s.inCoach b n = false) :
    n ∈ s.coachMembers b n := by
  have slot : n ∈ (s.block b).slotNos := (List.mem_filter.1 hl).1
  have here : n ∈ s.quadGroup b (n / 4) (s.fib (.fib b n)).pc := mem_quadGroup.2 ⟨rfl, hr, hc, rfl⟩
  have bound : n / 4 < (s.block b).gangs * 8 := by
    have := List.mem_range.1 slot
    unfold Block.gangs
    omega
  obtain ⟨k, hk⟩ : ∃ k, (s.block b).gangs * 8 = k + 1 := ⟨(s.block b).gangs * 8 - 1, by omega⟩
  have first : s.quadsFrom b n (s.fib (.fib b n)).pc = n / 4 :: (s.quadsFrom b n (s.fib (.fib b n)).pc).tail := by
    unfold State.quadsFrom
    rw [hk, List.range_succ_eq_map, List.map_cons, Nat.add_zero, Nat.mod_eq_of_lt (by omega),
      List.filter_cons_of_pos (by simp [roleOf_quad, List.ne_nil_of_mem here]), List.tail_cons]
  exact mem_coachMembers.2 ⟨slot, n / 4, by rw [first]; simp, .inl here⟩

/-! ### The forming of a coach -/

/-- A member of a new coach: its temporaries and await set are gone, and a helper stands at the head's PC (R84, R86, R153). -/
def Fibre.board (pc : W64) (f : Fibre) : Fibre := { f with await := [], k := [], pc := if f.status = .helper then pc else f.pc }

theorem Fibre.board_board (pc : W64) (f : Fibre) : (f.board pc).board pc = f.board pc := by
  unfold Fibre.board; dsimp only; split <;> rfl

/-- The members of a new coach of block `b` board it. -/
def State.boardAll (s : State) (b : Nat) (pc : W64) (ms : List Nat) : State := ms.foldl (fun s m => s.updFib (.fib b m) (Fibre.board pc)) s

theorem board_fib {s : State} {b m : Nat} {pc : W64} {ms : List Nat} (h : m ∈ ms) :
    (s.boardAll b pc ms).fib (.fib b m) = (s.fib (.fib b m)).board pc := by
  have step : ∀ (t : State) x, (t.updFib (.fib b x) (Fibre.board pc)).fib (.fib b m) = t.fib (.fib b m) ∨
      (t.updFib (.fib b x) (Fibre.board pc)).fib (.fib b m) = (t.fib (.fib b m)).board pc := fun t x => by
    by_cases e : m = x
    · subst e; exact .inr (State.updFib_fib_same t _ _)
    · exact .inl (State.updFib_fib_ne t _ (by simp [e]))
  refine foldl_establishes (I := fun t : State => t.fib (.fib b m) = s.fib (.fib b m) ∨ t.fib (.fib b m) = (s.fib (.fib b m)).board pc)
    (P := fun t => t.fib (.fib b m) = (s.fib (.fib b m)).board pc) (fun t x ht => ?_) (fun t x ht => ?_) (fun t ht => ?_) h (.inl rfl)
  · rcases step t x with e | e <;> rcases ht with ht | ht <;> simp [e, ht, Fibre.board_board]
  · rcases step t x with e | e <;> simp [e, ht, Fibre.board_board]
  · rw [State.updFib_fib_same]
    rcases ht with ht | ht <;> simp [ht, Fibre.board_board]

theorem regsOnly_board (s : State) (b : Nat) (pc : W64) (ms : List Nat) :
    RegsOnly s (s.boardAll b pc ms) :=
  foldl_rel RegsOnly.refl RegsOnly.trans (fun _ _ => regsOnly_updFib _ _ _) ms s

/-- COACH_FORM on a free pipe of a core that has a head fibre. -/
theorem coachForm_next {s : State} {b n : Nat} (hc : s.args.unit < 384) (hp : s.args.sub < 4)
    (hfree : s.pipes.at? (pipeKey s.args.unit s.args.sub) = none) (hhead : s.headFibre s.args.unit = some (b, n)) :
    exec .coachForm s =
      .next { s.boardAll b (s.fib (.fib b n)).pc (s.coachMembers b n) with
        pipes := s.pipes.put (pipeKey s.args.unit s.args.sub) { block := b, members := s.coachMembers b n, since := s.clock } } := by
  show execCoachForm s = _
  have regs := regsOnly_board s b (s.fib (.fib b n)).pc (s.coachMembers b n)
  have pipes : (s.boardAll b (s.fib (.fib b n)).pc (s.coachMembers b n)).pipes = s.pipes := by rw [regs]
  unfold execCoachForm
  rw [if_neg (by rw [hfree]; simp; omega), hhead, ← pipes]
  rfl

/-- R152 to R154, R161: what a free pipe takes. -/
theorem coaches : Claims.Coaches := by
  intro s b n hc hp hfree hhead
  obtain ⟨live, ready, free⟩ := headFibre_ready hhead
  have regs := regsOnly_board s b (s.fib (.fib b n)).pc (s.coachMembers b n)
  refine ⟨_, s.coachMembers b n, coachForm_next hc hp hfree hhead, regs.sameMemory, Map.at?_put_same _ _ _, head_mem_coachMembers live ready free,
    coachMembers_length s b n, fun m hm => ?_, fun m hm hh => ?_⟩
  · have fib := board_fib (s := s) (b := b) (pc := (s.fib (.fib b n)).pc) hm
    have pc : ((s.fib (.fib b m)).board (s.fib (.fib b n)).pc).pc = (s.fib (.fib b n)).pc := by
      rcases coachMember hm with hh | ⟨-, -, hpc, -⟩
      · exact if_pos (by simpa [State.isHelper] using hh)
      · simp [Fibre.board, hpc]
    refine ⟨(congrArg Fibre.pc fib).trans pc, congrArg Fibre.k fib, congrArg Fibre.await fib, (congrArg Fibre.regs fib).trans rfl⟩
  · rcases coachMember hm with h | ⟨hr, hi, -, role⟩
    · rw [h] at hh; cases hh
    · exact ⟨hr, hi, role⟩

end Sys2Proof.Machine
end

section
/-!
PROOFS. What time brings: the end of a reconvergence window (R158), the timer of a gang (R253, R262), and the counters of a slice that a
read clears (R91, R287, R315). A trap that is delivered at once serves the timer (R250 to R252).
-/

namespace Sys2Proof.Machine

/-! ### The end of a reconvergence window (R158) -/

theorem reconvWindowExpiry_next {s : State} {x : FKey} {r : List FKey} (hg : s.reconvGroup (s.args.unit, s.args.sub) s.args.word = x :: r)
    (hw : ∀ o, (s.fib x).atReconv = some o → o + (s.gang (s.args.unit, s.args.sub)).sr.rcvwin ≤ s.cycles (s.block s.args.unit).core) :
    exec .reconvWindowExpiry s = .next (s.resumeAll (x :: r)) := by
  show execReconvWindowExpiry s = _
  obtain ⟨-, at_, -⟩ := mem_reconvGroup.1 (show x ∈ s.reconvGroup (s.args.unit, s.args.sub) s.args.word by rw [hg]; exact List.mem_cons_self)
  obtain ⟨o, ho⟩ := Option.isSome_iff_exists.1 at_
  have opened : (s.reconvGroup (s.args.unit, s.args.sub) s.args.word).head?.bind (fun k => (s.fib k).atReconv) = some o := by rw [hg]; exact ho
  have departs : s.reconvCheck (s.args.unit, s.args.sub) s.args.word = s.resumeAll (x :: r) := by
    unfold State.reconvCheck
    dsimp only
    rw [opened]
    dsimp only
    rw [if_pos (.inr (hw o ho)), hg]
  unfold execReconvWindowExpiry
  dsimp only
  rw [opened]
  dsimp only
  rw [if_pos (hw o ho), departs]

theorem reconvWindow_expires {s : State} {x : FKey} {r : List FKey} (hg : s.reconvGroup (s.args.unit, s.args.sub) s.args.word = x :: r)
    (hw : ∀ o, (s.fib x).atReconv = some o → o + (s.gang (s.args.unit, s.args.sub)).sr.rcvwin ≤ s.cycles (s.block s.args.unit).core) :
    ∃ t, exec .reconvWindowExpiry s = .next t ∧ SameMemory s t ∧
      ∀ k ∈ x :: r, (t.fib k).pc = (s.fib k).pc + 4 ∧ (t.fib k).wait = .ready ∧ (t.fib k).regs = (s.fib k).regs := by
  refine ⟨_, reconvWindowExpiry_next hg hw, (regsOnly_resumeAll s _).sameMemory, fun k hk => ?_⟩
  obtain ⟨wait, pc⟩ := resumeAll_fib_of_mem s hk (hg ▸ reconvGroup_nodup s _ _)
  obtain ⟨regs, -⟩ := sameRegs_resumeAll s (x :: r) k
  exact ⟨pc, wait, regs⟩

/-! ### A trap that is delivered at once (R250 to R252) -/

/-- A fibre enters the handler of its gang with a trap (R93, R251). -/
def Fibre.handle (f : Fibre) (x : Trap) (tvec : W64) (now : Nat) : Fibre :=
  { f with
    tcause := BitVec.ofNat 64 x.cause, tpc := x.pc, taddr := x.addr, tinfo := x.info, pc := tvec, wait := .ready, service := true
    inner := f.continuing.isSome, k := [], readySince := now }

/-- A fibre that waits for no pop leaves its coach, and nothing else changes. -/
theorem leaveCoach_rest {s : State} {b n : Nat} (h : (s.fib (.fib b n)).pop = none) :
    s.leaveCoach b n = { s with pipes := (s.leaveCoach b n).pipes } := by
  have stays : s.unpop (.fib b n) = s := by unfold State.unpop; rw [h]
  unfold State.leaveCoach
  rw [stays]

/-- The head of a trap queue that waits for delivery is delivered (R251). -/
theorem deliver_head {s : State} {b n : Nat} {x : Trap} (hq : (s.gang (b, n / 32)).trapq = [{ lane := n % 32, trap := x }])
    (hw : (s.fib (.fib b n)).wait = .queued) (ht : (s.gang (b, n / 32)).sr.tvec ≠ 0) :
    s.deliver (b, n / 32) = s.updFib (.fib b n) fun f => f.handle x (s.gang (b, n / 32)).sr.tvec (s.cycles (s.block b).core) := by
  unfold State.deliver
  rw [hq]
  dsimp only
  rw [Nat.div_add_mod' n 32, if_pos hw, if_neg ht]
  rfl

/-- The trap of a fibre whose trap can be delivered: the fibre leaves its coach, and its trap waits. -/
def State.trapWaits (s : State) (b n : Nat) (x : Trap) : State :=
  (((s.leaveCoach b n).endRunOf (.fib b n)).updGang (b, n / 32) fun g => { g with trapq := g.trapq ++ [{ lane := n % 32, trap := x }] }).updFib
    (.fib b n) fun f => { f with wait := .queued }

section TrapWaits
variable {s : State} {b n : Nat} (h : (s.fib (.fib b n)).pop = none) (x : Trap)
include h

theorem trapWaits_gang : (s.trapWaits b n x).gang (b, n / 32) =
    { s.gang (b, n / 32) with trapq := (s.gang (b, n / 32)).trapq ++ [{ lane := n % 32, trap := x }] } := by
  have gang : (s.leaveCoach b n).gang (b, n / 32) = s.gang (b, n / 32) := by rw [leaveCoach_rest h]; rfl
  simp only [State.trapWaits, State.endRunOf, State.updFib_gang, State.updGang_gang_same, gang]

theorem trapWaits_fib : ∃ now, (s.trapWaits b n x).fib (.fib b n) =
    { s.fib (.fib b n) with k := [], await := [], lastEnd := now, readySince := now, wait := .queued } := by
  have fib : (s.leaveCoach b n).fib (.fib b n) = s.fib (.fib b n) := by rw [leaveCoach_rest h]; rfl
  refine ⟨(s.leaveCoach b n).cycles ((s.leaveCoach b n).coreOf (.fib b n)), ?_⟩
  simp only [State.trapWaits, State.endRunOf, State.updFib_fib_same, State.updGang_fib, fib]

theorem trapWaits_fib_ne {k : FKey} (hk : k ≠ .fib b n) : (s.trapWaits b n x).fib k = s.fib k := by
  rw [State.trapWaits, State.updFib_fib_ne _ _ hk, State.updGang_fib, State.endRunOf, State.updFib_fib_ne _ _ hk, leaveCoach_rest h]; rfl

theorem trapWaits_memory : SameMemory s (s.trapWaits b n x) := by
  have memory : SameMemory s (s.leaveCoach b n) := by rw [leaveCoach_rest h]; exact .refl s
  exact memory.trans (((regsOnly_updFib _ _ _).trans (regsOnly_updGang _ _ _)).trans (regsOnly_updFib _ _ _)).sameMemory

end TrapWaits

/-- Where the trap can be delivered, it enters the queue of its gang, whose head is delivered. -/
theorem enterTrap_waits {s : State} {b n : Nat} (h : s.CanTrap b n) (x : Trap) :
    s.enterTrap b n x = (s.trapWaits b n x).deliver (b, n / 32) := by
  obtain ⟨idle, first, -, free, pop, -⟩ := h
  have gang : ((s.leaveCoach b n).endRunOf (.fib b n)).gang (b, n / 32) = s.gang (b, n / 32) := by rw [leaveCoach_rest pop]; rfl
  have service : (((s.leaveCoach b n).endRunOf (.fib b n)).fib (.fib b n)).service = false := by
    rw [State.endRunOf, State.updFib_fib_same, leaveCoach_rest pop]; exact idle
  unfold State.enterTrap
  dsimp only
  rw [gang, service, if_neg (by simp [free]), if_neg (by simp), if_neg (by simp), if_neg (by simp), if_neg (by simp [first])]
  rfl

theorem enterTrap_eq {s : State} {b n : Nat} (h : s.CanTrap b n) (x : Trap) : ∃ now, s.enterTrap b n x =
    (s.trapWaits b n x).updFib (.fib b n) fun f => f.handle x (s.gang (b, n / 32)).sr.tvec now := by
  have gang := trapWaits_gang h.pop x
  obtain ⟨now, waits⟩ := trapWaits_fib h.pop x
  have vector : ((s.trapWaits b n x).gang (b, n / 32)).sr.tvec = (s.gang (b, n / 32)).sr.tvec := by rw [gang]
  refine ⟨(s.trapWaits b n x).cycles ((s.trapWaits b n x).block b).core, ?_⟩
  rw [enterTrap_waits h, deliver_head (x := x) (by rw [gang, h.first]; rfl) (by rw [waits]) (by rw [vector]; exact h.handler), vector]

/-- R250 to R252: what the fibre has taken. -/
theorem trapped_enterTrap {s : State} {b n : Nat} (h : s.CanTrap b n) (x : Trap) : Trapped s (s.enterTrap b n x) b n x := by
  obtain ⟨now, e⟩ := enterTrap_eq h x
  obtain ⟨now', waits⟩ := trapWaits_fib h.pop x
  obtain ⟨mem, scratch, -⟩ := trapWaits_memory h.pop x
  have own : (s.enterTrap b n x).fib (.fib b n) =
      Fibre.handle { s.fib (.fib b n) with k := [], await := [], lastEnd := now', readySince := now', wait := .queued } x
        (s.gang (b, n / 32)).sr.tvec now := by rw [e, State.updFib_fib_same, waits]
  refine ⟨?_, ?_, ?_, ?_, ?_, ?_, ?_, ?_, ?_, fun k hk => ?_, by rw [e]; exact mem, by rw [e]; exact scratch⟩
  case refine_7 => rw [e, State.updFib_gang, trapWaits_gang h.pop, h.first]; rfl
  case refine_10 => rw [e, State.updFib_fib_ne _ _ hk, trapWaits_fib_ne h.pop x hk]
  all_goals rw [own]; simp [Fibre.handle]

/-! ### The timer of a gang (R253, R262) -/

theorem Map.filter_put {κ α : Type} [DecidableEq κ] {m : Map κ α} {p : κ × α → Bool} {k : κ} {v : α} (h : ∀ x ∈ m, p x = false)
    (hv : p (k, v) = true) : (Map.put m k v).filter p = [(k, v)] := by
  induction m with
  | nil => simp [Map.put, hv]
  | cons x r ih =>
    obtain ⟨y, w⟩ := x
    have rest : r.filter p = [] := List.filter_eq_nil_iff.2 fun z hz => by simp [h z (List.mem_cons_of_mem _ hz)]
    unfold Map.put
    split
    · next e => subst e; rw [List.filter_cons_of_pos hv, rest]
    · rw [List.filter_cons_of_neg (by simp [h (y, w) List.mem_cons_self]), ih fun z hz => h z (List.mem_cons_of_mem _ hz)]

/-- The same special registers of every gang (R90). -/
def SameSr (s t : State) : Prop := ∀ g, (t.gang g).sr = (s.gang g).sr

theorem SameSr.refl (s : State) : SameSr s s := fun _ => rfl
theorem SameSr.trans {s t u : State} (h : SameSr s t) (h' : SameSr t u) : SameSr s u := fun g => (h' g).trans (h g)

theorem sameSr_updGang (s : State) (g : Nat × Nat) {f : Gang → Gang} (h : ∀ x, (f x).sr = x.sr) : SameSr s (s.updGang g f) := fun g' => by
  by_cases e : g' = g
  · subst e; rw [State.updGang_gang_same, h]
  · rw [State.updGang_gang_ne s f e]

theorem sameSr_updFib (s : State) (k : FKey) (f : Fibre → Fibre) : SameSr s (s.updFib k f) := fun _ => rfl

theorem sameSr_leaveCoach (s : State) (b n : Nat) : SameSr s (s.leaveCoach b n) := by
  have unpop : SameSr s (s.unpop (.fib b n)) := by
    unfold State.unpop State.setFull
    split
    · refine SameSr.trans ?_ (sameSr_updFib _ _ _)
      split
      · dsimp only; split
        · exact fun _ => rfl
        · exact .refl s
      · exact sameSr_updGang s _ fun _ => rfl
      · exact .refl s
    · exact .refl s
  exact unpop.trans fun _ => rfl

theorem sameSr_launchError (s : State) (l c : Nat) : SameSr s (s.launchError l c) := by
  unfold State.launchError
  dsimp only
  split
  · split
    · exact fun _ => rfl
    · unfold State.updLaunch; split <;> exact fun _ => rfl
  · exact fun _ => rfl

theorem sameSr_deliver (s : State) (g : Nat × Nat) : SameSr s (s.deliver g) := by
  unfold State.deliver
  split
  · exact .refl s
  · dsimp only
    split
    · split
      · exact sameSr_launchError s _ _
      · exact sameSr_updFib s _ _
    · exact .refl s

/-- A trap leaves the special registers of gangs as they are. -/
theorem sameSr_enterTrap (s : State) (b n : Nat) (x : Trap) : SameSr s (s.enterTrap b n x) := by
  have run : SameSr s ((s.leaveCoach b n).endRunOf (.fib b n)) := (sameSr_leaveCoach s b n).trans (sameSr_updFib _ _ _)
  unfold State.enterTrap
  dsimp only
  refine run.trans ?_
  split
  · exact sameSr_updFib _ _ _
  split
  · exact sameSr_updFib _ _ _
  split
  · exact sameSr_updFib _ _ _
  split
  · exact sameSr_launchError _ _ _
  split
  · exact sameSr_launchError _ _ _
  · refine SameSr.trans (SameSr.trans ?_ (sameSr_updFib _ _ _)) (sameSr_deliver _ _)
    exact sameSr_updGang _ _ fun _ => rfl

theorem sameSr_boundaryTraps (s : State) (b n : Nat) : SameSr s (s.boundaryTraps (.fib b n)) := by
  unfold State.boundaryTraps
  dsimp only
  split
  · exact .refl s
  split
  · exact (sameSr_updFib s _ _).trans (sameSr_enterTrap _ _ _ _)
  split
  · exact (sameSr_updFib s _ _).trans (sameSr_enterTrap _ _ _ _)
  · exact .refl s

/-- Gang `g` has spent its TMRCMP, and its fibre `n` holds the timer (R262). -/
def State.timerHeld (s : State) (b g n : Nat) : State :=
  (s.updGang (b, g) fun y => { y with sr := { y.sr with tmrcmp := 0 } }).updFib (.fib b n) fun f => { f with heldTimer := true }

theorem fib_of_all {s : State} {p : Fibre → Prop} (h : ∀ x ∈ s.fibres, p x.2) (hd : p { status := .free }) (k : FKey) : p (s.fib k) := by
  unfold State.fib Map.atD
  cases e : s.fibres.at? k with
  | none => exact hd
  | some f => exact h _ (Map.mem_of_at? e)

/-- TIMER_EXPIRY where no fibre holds a trap for its run boundary: the lowest live fibre holds the timer to the end of its run, or raises it
at once. -/
theorem timerExpiry_next {s : State} {n : Nat} {r : List Nat} (hs : (s.gangs.at? (s.args.unit, s.args.sub)).isSome = true)
    (h0 : (s.gang (s.args.unit, s.args.sub)).sr.tmrcmp ≠ 0)
    (hc : (s.gang (s.args.unit, s.args.sub)).sr.tmrcmp.toNat ≤ (s.gang (s.args.unit, s.args.sub)).sr.runcyc)
    (hh : ∀ x ∈ s.fibres, x.2.heldTimer = false ∧ x.2.heldDebug = false) (hl : s.liveInGang (s.args.unit, s.args.sub) = n :: r) :
    exec .timerExpiry s = .next (if s.inCoach s.args.unit n = true then s.timerHeld s.args.unit s.args.sub n
      else (s.timerHeld s.args.unit s.args.sub n).boundaryTraps (.fib s.args.unit n)) := by
  have go : ¬((s.gangs.at? (s.args.unit, s.args.sub)).isNone = true ∨ (s.gang (s.args.unit, s.args.sub)).sr.tmrcmp = 0 ∨
      (s.gang (s.args.unit, s.args.sub)).sr.runcyc < (s.gang (s.args.unit, s.args.sub)).sr.tmrcmp.toNat) := by
    rintro (h | h | h)
    · simp [Option.isSome_iff_ne_none.1 hs] at h
    · exact h0 h
    · omega
  have held : (s.timerHeld s.args.unit s.args.sub n).fibres.filter (fun x => x.2.heldTimer || x.2.heldDebug) =
      [(.fib s.args.unit n, (s.timerHeld s.args.unit s.args.sub n).fib (.fib s.args.unit n))] := by
    rw [State.timerHeld, State.updFib_fib_same]
    exact Map.filter_put (fun x hx => by simp [hh x hx]) rfl
  have settled : (s.timerHeld s.args.unit s.args.sub n).settleHeld = if s.inCoach s.args.unit n = true then s.timerHeld s.args.unit s.args.sub n
      else (s.timerHeld s.args.unit s.args.sub n).boundaryTraps (.fib s.args.unit n) := by
    unfold State.settleHeld
    rw [held]
    rfl
  show execTimerExpiry s = _
  unfold execTimerExpiry
  dsimp only
  rw [if_neg go, ← settled]
  change Host.Outcome.next (match (s.liveInGang (s.args.unit, s.args.sub)).head? with | some n => _ | none => _) = _
  rw [hl]
  rfl

section TimerHeld
variable (s : State) (b g n : Nat)

theorem timerHeld_memory : SameMemory s (s.timerHeld b g n) := ((regsOnly_updGang s _ _).trans (regsOnly_updFib _ _ _)).sameMemory
theorem timerHeld_fib : (s.timerHeld b g n).fib (.fib b n) = { s.fib (.fib b n) with heldTimer := true } := State.updFib_fib_same _ _ _
theorem timerHeld_fib_ne {k : FKey} (h : k ≠ .fib b n) : (s.timerHeld b g n).fib k = s.fib k := State.updFib_fib_ne _ _ h
theorem timerHeld_gang : (s.timerHeld b g n).gang (b, g) = { s.gang (b, g) with sr := { (s.gang (b, g)).sr with tmrcmp := 0 } } :=
  by rw [State.timerHeld, State.updFib_gang, State.updGang_gang_same]

end TimerHeld

/-- The trap TIMER of a fibre at its PC (R254, R262). -/
def State.timerTrap (s : State) (k : FKey) : Trap := { cause := 0x20, pc := (s.fib k).pc }

/-- The timer that a fibre between two runs holds is raised. -/
theorem boundaryTraps_timer {s : State} {b n : Nat} (hl : (s.fib (.fib b n)).status = .live) (hw : (s.fib (.fib b n)).wait = .ready)
    (hd : (s.fib (.fib b n)).heldDebug = false) (ht : (s.fib (.fib b n)).heldTimer = true) (hs : (s.fib (.fib b n)).service = false) :
    s.boundaryTraps (.fib b n) =
      (s.updFib (.fib b n) fun f => { f with heldTimer := false }).enterTrap b n (s.timerTrap (.fib b n)) := by
  simp only [State.boundaryTraps, hl, hw, hd, ht, hs]
  rfl

theorem status_of_mem_liveInGang {s : State} {g : Nat × Nat} {n : Nat} (h : n ∈ s.liveInGang g) :
    (s.fib (.fib g.1 n)).status = .live ∧ n / 32 = g.2 := by
  obtain ⟨hl, hg⟩ := List.mem_filter.1 h
  exact ⟨by simpa using (List.mem_filter.1 hl).2, by simpa using hg⟩

/-- What TIMER does to a fibre that no coach holds, where its trap can be delivered. -/
theorem timerHeld_trapped {s : State} {b n : Nat} (hl : (s.fib (.fib b n)).status = .live) (hw : (s.fib (.fib b n)).wait = .ready)
    (hd : (s.fib (.fib b n)).heldDebug = false) (hc : s.CanTrap b n) :
    Trapped s ((s.timerHeld b (n / 32) n).boundaryTraps (.fib b n)) b n (s.timerTrap (.fib b n)) := by
  have own := timerHeld_fib s b (n / 32) n
  rw [boundaryTraps_timer (by rw [own]; exact hl) (by rw [own]; exact hw) (by rw [own]; exact hd) (by rw [own]) (by rw [own]; exact hc.idle)]
  have trap : (s.timerHeld b (n / 32) n).timerTrap (.fib b n) = s.timerTrap (.fib b n) := by simp only [State.timerTrap, own]
  rw [trap]
  generalize hu : (s.timerHeld b (n / 32) n).updFib (.fib b n) (fun f => { f with heldTimer := false }) = u
  have fib : u.fib (.fib b n) = { s.fib (.fib b n) with heldTimer := false } := by rw [← hu, State.updFib_fib_same, own]
  have gang : u.gang (b, n / 32) = { s.gang (b, n / 32) with sr := { (s.gang (b, n / 32)).sr with tmrcmp := 0 } } := by
    rw [← hu, State.updFib_gang, timerHeld_gang]
  have memory : SameMemory s u := by
    rw [← hu]; exact (timerHeld_memory s b (n / 32) n).trans (regsOnly_updFib _ _ _).sameMemory
  have can : u.CanTrap b n := ⟨by rw [fib]; exact hc.idle, by rw [gang]; exact hc.first, by rw [gang]; exact hc.handler, by rw [gang]; exact hc.free,
    by rw [fib]; exact hc.pop, by unfold State.PipesDistinct; rw [← hu]; exact hc.pipes⟩
  obtain ⟨cause, tpc, addr, info, pc, service, queue, temps, ⟨regs, p, wb, lr⟩, others, mem, scratch⟩ :=
    trapped_enterTrap can (s.timerTrap (.fib b n))
  rw [fib] at regs p wb lr
  refine ⟨cause, tpc, addr, info, by rw [pc, gang], service, queue, temps, ⟨regs, p, wb, lr⟩, fun k hk => ?_, mem.trans memory.1, scratch.trans memory.2.1⟩
  rw [others k hk, ← hu, State.updFib_fib_ne _ _ hk, timerHeld_fib_ne s b _ n hk]

/-- R253, R262: the timer is held to the end of the run, or raised at once; TMRCMP is 0. -/
theorem timer_expires {s : State} {n : Nat} {r : List Nat} (hs : (s.gangs.at? (s.args.unit, s.args.sub)).isSome = true)
    (h0 : (s.gang (s.args.unit, s.args.sub)).sr.tmrcmp ≠ 0)
    (hc : (s.gang (s.args.unit, s.args.sub)).sr.tmrcmp.toNat ≤ (s.gang (s.args.unit, s.args.sub)).sr.runcyc)
    (hh : ∀ x ∈ s.fibres, x.2.heldTimer = false ∧ x.2.heldDebug = false) (hl : s.liveInGang (s.args.unit, s.args.sub) = n :: r)
    (hw : (s.fib (.fib s.args.unit n)).wait = .ready) :
    ∃ t, exec .timerExpiry s = .next t ∧ (t.gang (s.args.unit, s.args.sub)).sr.tmrcmp = 0 ∧
      (s.inCoach s.args.unit n = true → (t.fib (.fib s.args.unit n)).heldTimer = true ∧ SameMemory s t) ∧
      (s.inCoach s.args.unit n = false → s.CanTrap s.args.unit n →
        Trapped s t s.args.unit n { cause := 0x20, pc := (s.fib (.fib s.args.unit n)).pc, addr := 0, info := 0 }) := by
  obtain ⟨live, lane⟩ := status_of_mem_liveInGang (show n ∈ s.liveInGang (s.args.unit, s.args.sub) by rw [hl]; exact List.mem_cons_self)
  have debug : (s.fib (.fib s.args.unit n)).heldDebug = false := fib_of_all (p := fun f => f.heldDebug = false) (fun x hx => (hh x hx).2) rfl _
  have spent : ((s.timerHeld s.args.unit s.args.sub n).gang (s.args.unit, s.args.sub)).sr.tmrcmp = 0 := by rw [timerHeld_gang]
  refine ⟨_, timerExpiry_next hs h0 hc hh hl, ?_, fun hi => ?_, fun hi hcan => ?_⟩
  · split
    · exact spent
    · rw [sameSr_boundaryTraps]; exact spent
  · rw [if_pos hi, timerHeld_fib]
    exact ⟨rfl, timerHeld_memory s _ _ _⟩
  · have lane : n / 32 = s.args.sub := lane
    rw [if_neg (by simp [hi]), ← lane]
    exact timerHeld_trapped live hw debug hcan

/-! ### The counters of a slice (R91, R287, R315) -/

/-- What a write of one lane leaves a 32-bit destination at. -/
theorem holds32_wr (s : State) (k : FKey) (d : Reg) (v : W32) : Holds32 s (s.wr k (.reg d v)) k d v := by
  cases d with
  | v n => intro hw; simp [State.wr, setV_vcell, hw]
  | s n =>
    intro hh _
    simp only [State.wr, State.setS, hh, Bool.false_eq_true, if_false]
    show ((s.updGang (s.gangOf k) _).gang (s.gangOf k)).s.atD n {} = _
    rw [State.updGang_gang_same]
    exact Map.atD_put_same ..
  | k n => simp [Holds32, State.wr]
  | q n => trivial
  | z => trivial
  | id => trivial

/-- A read of a slice counter returns it and clears it. -/
theorem readCounter_next {s : State} (name : String) (hn : s.args.unit < 192) (spill : Bool) :
    ∃ t, readCounter name s spill = .next t ∧ SameMemory s t ∧ Holds32 s t s.args.fibre s.args.reg ((s.counter (s.args.unit, spill)).setWidth 32) ∧
      t.slice s.args.unit = if spill then { s.slice s.args.unit with spills := 0 } else { s.slice s.args.unit with peak := s.occupancy s.args.unit } := by
  have regs := regsOnly_wr s s.args.fibre (.reg s.args.reg ((s.counter (s.args.unit, spill)).setWidth 32))
  have held := holds32_wr s s.args.fibre s.args.reg ((s.counter (s.args.unit, spill)).setWidth 32)
  unfold readCounter
  dsimp only
  rw [if_neg (by omega)]
  generalize s.wr s.args.fibre (.reg s.args.reg ((s.counter (s.args.unit, spill)).setWidth 32)) = u at regs held
  have slice : u.slice s.args.unit = s.slice s.args.unit := by rw [regs]; rfl
  have room : u.occupancy s.args.unit = s.occupancy s.args.unit := by rw [regs]; rfl
  refine ⟨_, rfl, regs.sameMemory, ?_, ?_⟩
  · cases hd : s.args.reg <;> rw [hd] at held <;> exact held
  · rw [State.clearCounter, updSlice_slice, slice, room]

theorem counters_read {s : State} (hn : s.args.unit < 192) :
    (∃ t, exec .sqpeakRead s = .next t ∧ SameMemory s t ∧ (t.slice s.args.unit).peak = s.occupancy s.args.unit ∧
      Holds32 s t s.args.fibre s.args.reg (BitVec.ofNat 32 (s.slice s.args.unit).peak)) ∧
    (∃ t, exec .sqspillRead s = .next t ∧ SameMemory s t ∧ (t.slice s.args.unit).spills = 0 ∧
      Holds32 s t s.args.fibre s.args.reg (BitVec.ofNat 32 (s.slice s.args.unit).spills)) := by
  have low : ∀ x : Nat, (BitVec.ofNat 64 x).setWidth 32 = BitVec.ofNat 32 x := fun x => by
    apply BitVec.eq_of_toNat_eq; simp
  obtain ⟨t, ht, hm, hv, hs⟩ := readCounter_next "SQPEAK_READ" hn false
  obtain ⟨u, hu, hm', hv', hs'⟩ := readCounter_next "SQSPILL_READ" hn true
  refine ⟨⟨t, ht, hm, by rw [hs]; rfl, ?_⟩, ⟨u, hu, hm', by rw [hs']; rfl, ?_⟩⟩
  · rwa [State.counter, low] at hv
  · rw [State.counter, low] at hv'
    convert hv' using 1
    apply BitVec.eq_of_toNat_eq; simp

theorem expiries : Claims.Expiries :=
  ⟨fun _ _ _ hg hw => reconvWindow_expires hg hw, fun _ _ _ hs h0 hc hh hl hw => timer_expires hs h0 hc hh hl hw, fun _ hn => counters_read hn⟩

/-- Settles O48: what a free pipe takes, then what time brings. -/
theorem coachesAndExpiries : Obligations.CoachesAndExpiries := ⟨coaches, expiries⟩

end Sys2Proof.Machine
end

section
/-!
PROOFS. Launches enter PLACING, are placed or paused, and retire (R145 to R149, R156).
-/

namespace Sys2Proof.Machine

/-! ### What the steps of a launch leave alone -/

/-- Memory, the blocks and the launches are as before. -/
structure KeepsLaunches (s t : State) : Prop where
  memory : SameMemory s t
  blocks : t.blocks = s.blocks
  launches : t.launches = s.launches

theorem KeepsLaunches.refl (s : State) : KeepsLaunches s s := ⟨.refl s, rfl, rfl⟩
theorem KeepsLaunches.trans {s t u : State} (h : KeepsLaunches s t) (h' : KeepsLaunches t u) : KeepsLaunches s u :=
  ⟨h.memory.trans h'.memory, h'.blocks.trans h.blocks, h'.launches.trans h.launches⟩

theorem RegsOnly.keepsLaunches {s t : State} (h : RegsOnly s t) : KeepsLaunches s t := ⟨h.sameMemory, by rw [h], by rw [h]⟩

theorem keepsLaunches_completeTicket (s : State) (p : Party) (sc : Scope) (c x n : Nat) : KeepsLaunches s (s.completeTicket p sc c x n) := by
  rw [completeTicket_law]
  exact ⟨.refl s, rfl, rfl⟩

theorem keepsLaunches_endImage (s : State) (b : Nat) : KeepsLaunches s (s.endImage b) := by
  have trolley := foldl_rel KeepsLaunches.refl KeepsLaunches.trans
    (fun s (o : TrolleyOp) => keepsLaunches_completeTicket s (opParty o.fibre o.id) (s.trolleyScope o) o.core (groupWord o.group 3 % 4) o.ticket)
    (s.block b).image.trolley s
  unfold State.endImage
  dsimp only
  split
  · exact trolley.trans (keepsLaunches_completeTicket _ _ _ _ _ _)
  · exact trolley

theorem keepsLaunches_launchLearns (s : State) (l b : Nat) : KeepsLaunches s (s.launchLearns l b) := by
  unfold State.launchLearns
  split <;> exact ⟨.refl s, rfl, rfl⟩

theorem keepsLaunches_unbindQueues (s : State) (b : Nat) : KeepsLaunches s (s.unbindQueues b) := by
  unfold State.unbindQueues
  dsimp only
  generalize List.range 8 = qs
  refine foldl_rel KeepsLaunches.refl KeepsLaunches.trans (fun s q => ?_) qs s
  split
  · split
    · exact ⟨.refl s, rfl, rfl⟩
    · exact .refl s
  · exact .refl s

/-! ### Retirement (R146, R157) -/

theorem Map.mem_of_mem_del {κ α : Type} [DecidableEq κ] {m : Map κ α} {k : κ} {x : κ × α} (h : x ∈ Map.del m k) : x ∈ m ∧ x.1 ≠ k := by
  induction m with
  | nil => cases h
  | cons y r ih =>
    obtain ⟨y, w⟩ := y
    by_cases hy : y = k
    · rw [Map.del, if_pos hy] at h
      exact ⟨List.mem_cons_of_mem _ (ih h).1, (ih h).2⟩
    · rw [Map.del, if_neg hy] at h
      rcases List.mem_cons.1 h with rfl | h
      · exact ⟨List.mem_cons_self, hy⟩
      · exact ⟨List.mem_cons_of_mem _ (ih h).1, (ih h).2⟩

/-- A map holds nothing for a key that none of its entries has. -/
theorem Map.at?_eq_none {κ α : Type} [DecidableEq κ] {m : Map κ α} {k : κ} (h : ∀ x ∈ m, x.1 ≠ k) : Map.at? m k = none := by
  induction m with
  | nil => rfl
  | cons y r ih =>
    obtain ⟨y, w⟩ := y
    rw [Map.at?, if_neg (h (y, w) List.mem_cons_self)]
    exact ih fun x hx => h x (List.mem_cons_of_mem _ hx)

section Retire
variable (s : State) (b : Nat)

/-- What taking a block away leaves: memory and launches as they were, and neither its entry nor its fibres. -/
structure BlockGone (s t : State) (b : Nat) : Prop where
  memory : SameMemory s t
  launches : t.launches = s.launches
  blocks : t.blocks = s.blocks.del b
  fibres : ∀ n, t.fibres.at? (.fib b n) = none

theorem blockGone_removeBlock : BlockGone s (s.removeBlock b) b := by
  obtain ⟨memory, blocks, launches⟩ := keepsLaunches_unbindQueues s b
  unfold State.removeBlock
  generalize s.unbindQueues b = u at *
  refine ⟨memory, launches, congrArg (Map.del · b) blocks, fun n => Map.at?_eq_none fun x hx e => ?_⟩
  have other := (List.mem_filter.1 hx).2
  rw [e] at other
  simp at other

theorem unpause_memory (p : Nat) : SameMemory s (s.unpause p) := .refl s
theorem unpause_blocks (p : Nat) : (s.unpause p).blocks = s.blocks := rfl
theorem unpause_fibres (p : Nat) : (s.unpause p).fibres = s.fibres := rfl

theorem launch?_unpause {p l : Nat} {x : Launch} (h : s.launch? l = some x) :
    (s.unpause p).launch? l = some (if x.part = p then { x with paused := false } else x) := by
  have h' : s.launches.at? l = some x := h
  unfold State.launch? State.unpause
  dsimp only
  rw [Map.at?_map (fun y => by split <;> rfl), h']
  simp only [Option.map_some]
  split <;> rfl

/-- The state after a launch is taken out of its queue, before its SIG ticket completes. -/
def State.dropLaunch (s : State) (lid : Nat) (l : Launch) : State :=
  let s1 := s.updLqueue (queueKey l.part l.queue) fun q => { q with held := q.held.filter (· ≠ lid), lastRetired := some lid }
  { s1 with
    launches := s1.launches.del lid
    cores := s1.cores.map fun (c, x) => (c, { x with ctx := x.ctx.map fun (t, y) => (t, { y with rb := y.rb.filter (·.2 ≠ lid) }) }) }

theorem retireLaunch_of_none {lid : Nat} {l : Launch} (h : l.sig = none) : s.retireLaunch lid l = s.dropLaunch lid l := by
  unfold State.retireLaunch
  rw [h]
  rfl

theorem retireLaunch_of_some {lid c x n : Nat} {l : Launch} (h : l.sig = some (c, x, n)) :
    s.retireLaunch lid l = (s.dropLaunch lid l).completeTicket (launchParty lid) .dev c x n := by
  unfold State.retireLaunch
  rw [h]
  rfl

/-- What retirement leaves: memory, blocks and fibres as they were, and the launch gone with its SIG ticket completed. -/
structure Retired (s t : State) (lid : Nat) (l : Launch) : Prop where
  memory : SameMemory s t
  blocks : t.blocks = s.blocks
  fibres : t.fibres = s.fibres
  gone : t.launch? lid = none
  sig : ∀ c u n, l.sig = some (c, u, n) → t.Completed c u n

theorem retired_retireLaunch (lid : Nat) (l : Launch) : Retired s (s.retireLaunch lid l) lid l := by
  have gone : (s.dropLaunch lid l).launch? lid = none := Map.at?_del_same _ _
  match h : l.sig with
  | none =>
    rw [retireLaunch_of_none s h]
    exact ⟨.refl s, rfl, rfl, gone, fun c u n e => by rw [h] at e; cases e⟩
  | some (c, x, n) =>
    rw [retireLaunch_of_some s h]
    have keep := keepsLaunches_completeTicket (s.dropLaunch lid l) (launchParty lid) .dev c x n
    have fibres : ((s.dropLaunch lid l).completeTicket (launchParty lid) .dev c x n).fibres = s.fibres := by rw [completeTicket_law]; rfl
    refine ⟨keep.memory, keep.blocks, fibres, by unfold State.launch?; rw [keep.launches]; exact gone, fun c' u m e => ?_⟩
    rw [h] at e
    cases e
    exact completed_completeTicket _ _ _ _ _ _ (.inl rfl)

/-- The end of a launch is checked without a change of memory, blocks and fibres. -/
theorem launchCheckEnd_rest (lid : Nat) :
    SameMemory s (s.launchCheckEnd lid) ∧ (s.launchCheckEnd lid).blocks = s.blocks ∧ (s.launchCheckEnd lid).fibres = s.fibres := by
  unfold State.launchCheckEnd
  split
  · exact ⟨.refl s, rfl, rfl⟩
  · next l hl =>
    split
    · have r := retired_retireLaunch s lid l
      exact ⟨r.memory, r.blocks, r.fibres⟩
    · exact ⟨.refl s, rfl, rfl⟩

/-- A launch whose blocks have all been placed and are gone retires. -/
theorem launchCheckEnd_retires {lid : Nat} {l : Launch} (h : s.launch? lid = some l) (hr : l.state = .running) (hb : ∀ y ∈ s.blocks, y.2.lid ≠ lid) :
    s.launchCheckEnd lid = s.retireLaunch lid l := by
  have none_ : (s.blocks.any fun b => decide (b.2.lid = lid)) = false := by simpa [List.any_eq_false] using fun x y h => hb (x, y) h
  unfold State.launchCheckEnd
  simp [h, hr, none_]

end Retire

/-- BLOCK_RETIRE before the block is taken away, and before the end of its launch is checked. -/
def State.settleBlock (s : State) (b : Nat) (x : Block) : State := ((s.releaseBlock b).endImage b).launchLearns x.lid b
def State.withoutBlock (s : State) (b : Nat) (x : Block) : State := ((s.settleBlock b x).removeBlock b).unpause x.part

theorem keepsLaunches_settleBlock (s : State) (b : Nat) (x : Block) : KeepsLaunches s (s.settleBlock b x) :=
  ((regsOnly_releaseBlock s b).keepsLaunches.trans (keepsLaunches_endImage _ b)).trans (keepsLaunches_launchLearns _ _ _)

section WithoutBlock
variable (s : State) (b : Nat) (x : Block)

theorem withoutBlock_memory : SameMemory s (s.withoutBlock b x) :=
  ((keepsLaunches_settleBlock s b x).memory.trans (blockGone_removeBlock _ b).memory).trans (unpause_memory _ _)

theorem withoutBlock_blocks : (s.withoutBlock b x).blocks = s.blocks.del b := by
  rw [State.withoutBlock, unpause_blocks, (blockGone_removeBlock _ b).blocks, (keepsLaunches_settleBlock s b x).blocks]

theorem withoutBlock_fibres (n : Nat) : (s.withoutBlock b x).fibres.at? (.fib b n) = none := by
  rw [State.withoutBlock, unpause_fibres]
  exact (blockGone_removeBlock _ b).fibres n

theorem withoutBlock_launch {lid : Nat} {l : Launch} (h : s.launch? lid = some l) :
    (s.withoutBlock b x).launch? lid = some (if l.part = x.part then { l with paused := false } else l) := by
  refine launch?_unpause _ ?_
  unfold State.launch?
  rw [(blockGone_removeBlock _ b).launches, (keepsLaunches_settleBlock s b x).launches]
  exact h

end WithoutBlock

/-- R145, R146: a block without a live fibre retires, and with the last block its launch. -/
theorem blockRetire_next {s : State} {x : Block} (hx : s.blocks.at? s.args.item = some x) (hl : s.liveSlots s.args.item = [])
    (hb : s.blockBusy s.args.item = false) :
    ∃ t, exec .blockRetire s = .next t ∧ SameMemory s t ∧ t.blocks.at? s.args.item = none ∧
      (∀ n, t.fibres.at? (.fib s.args.item n) = none) ∧
      ∀ l, s.launch? x.lid = some l → l.state = .running → (∀ y ∈ s.blocks, y.1 ≠ s.args.item → y.2.lid ≠ x.lid) →
        t.launch? x.lid = none ∧ ∀ c u n, l.sig = some (c, u, n) → t.Completed c u n := by
  obtain ⟨memory, blocks, fibres⟩ := launchCheckEnd_rest (s.withoutBlock s.args.item x) x.lid
  refine ⟨(s.withoutBlock s.args.item x).launchCheckEnd x.lid, ?_, (withoutBlock_memory s _ x).trans memory, ?_, fun n => ?_, fun l h hr ho => ?_⟩
  · show execBlockRetire s = _
    unfold execBlockRetire
    simp only [hx, hl, hb]
    simp [State.withoutBlock, State.settleBlock]
  · rw [blocks, withoutBlock_blocks]
    exact Map.at?_del_same _ _
  · rw [fibres]
    exact withoutBlock_fibres s _ x n
  · have last : ∀ y ∈ (s.withoutBlock s.args.item x).blocks, y.2.lid ≠ x.lid := fun y hy => by
      rw [withoutBlock_blocks] at hy
      obtain ⟨mem, ne⟩ := Map.mem_of_mem_del hy
      exact ho y mem ne
    rw [launchCheckEnd_retires _ (withoutBlock_launch s s.args.item x h) (by split <;> exact hr) last]
    have r := retired_retireLaunch (s.withoutBlock s.args.item x) x.lid (if l.part = x.part then { l with paused := false } else l)
    exact ⟨r.gone, fun c u n e => r.sig c u n (by split <;> exact e)⟩

/-! ### A launch enters PLACING (R147) -/

/-- R147: the head of a queue whose dependences are met enters PLACING. -/
theorem launchDependenceMet_next {s : State} {l : Launch} (h : s.launch? s.args.item = some l)
    (hh : s.headOf (queueKey l.part l.queue) = some s.args.item) (hs : l.state = .accepted ∨ l.state = .pending)
    (hd : ∀ o ∈ [0x30, 0x40, 0x50, 0x60], s.depMet l.record o = true) :
    ∃ t, exec .launchDependenceMet s = .next t ∧ UnitsOnly s t ∧ t.launch? s.args.item = some { l with state := .placing } := by
  have enter : s.canEnter s.args.item l = true := by
    unfold State.canEnter
    rw [List.all_eq_true.2 hd]
    simp [hh, hs]
  obtain ⟨units, -, -, -⟩ := (backstage_updLaunch s s.args.item fun l => { l with state := .placing }).unitStep
  refine ⟨s.updLaunch s.args.item fun l => { l with state := .placing }, ?_, units, State.updLaunch_launchAt_same _ h⟩
  show execLaunchDependenceMet s = _
  unfold execLaunchDependenceMet
  rw [h]
  exact if_pos enter

/-! ### Placement (R149, R156) -/

/-- R149: a launch for which no core has room is paused. -/
theorem blockPlace_pauses {s : State} {lid : Nat} {l : Launch} (hc : s.chosen s.args.unit = some (lid, l)) (h : s.launch? lid = some l)
    (hs : l.state = .placing) (hp : l.paused = false) (ha : s.stoppedAhead s.args.unit (s.effPrio lid) = false) (hr : Rec.preempt l.record = false)
    (hf : s.findRoom (s.part s.args.unit).fromNext (blockOfRecord lid l s) (Rec.twin l.record) [] = none) :
    ∃ t, exec .blockPlace s = .next t ∧ UnitsOnly s t ∧ t.blocks = s.blocks ∧ t.launch? lid = some { l with paused := true } := by
  have paused := backstage_updLaunch s lid fun l => { l with paused := true }
  obtain ⟨units, -, -, -⟩ := paused.unitStep
  refine ⟨s.updLaunch lid fun l => { l with paused := true }, ?_, units, paused.blocks, State.updLaunch_launchAt_same _ h⟩
  have kept : ∀ u : State, u.preempt s.args.unit lid l = u := fun u => by
    unfold State.preempt
    simp [hr]
  show execBlockPlace s = _
  unfold execBlockPlace
  simp [hc, hs, hp, ha, hf, kept]

/-- Only units and what stands in scratchpads and first-level caches differ: what another tenant's block meets on a core (R422). -/
structure Swept (s t : State) : Prop where
  mem : t.mem = s.mem
  blocks : t.blocks = s.blocks
  fibres : t.fibres = s.fibres
  gangs : t.gangs = s.gangs
  launches : t.launches = s.launches
  nextBlock : t.nextBlock = s.nextBlock
  cycles : ∀ c, t.cycles c = s.cycles c

theorem Swept.refl (s : State) : Swept s s := ⟨rfl, rfl, rfl, rfl, rfl, rfl, fun _ => rfl⟩
theorem Swept.trans {s t u : State} (h : Swept s t) (h' : Swept t u) : Swept s u :=
  ⟨h'.mem.trans h.mem, h'.blocks.trans h.blocks, h'.fibres.trans h.fibres, h'.gangs.trans h.gangs, h'.launches.trans h.launches,
    h'.nextBlock.trans h.nextBlock, fun c => (h'.cycles c).trans (h.cycles c)⟩

/-- Putting the sources of what is tracked in step leaves the clocks of the dies alone. -/
theorem cycles_syncSources (s : State) (c : Nat) : s.syncSources.cycles c = s.cycles c := by
  have kept : ∀ (f : Nat → List SrcRange) (l : List Nat) (m : Map Nat Die) (n : Nat),
      ((l.foldl (fun m d => m.upd d {} fun x => { x with sources := f d }) m).atD n {}).cyc = (m.atD n {}).cyc := fun f l => by
    induction l with
    | nil => intro m n; rfl
    | cons d l ih =>
      intro m n
      rw [List.foldl_cons, ih, Map.upd, Map.atD_put]
      split
      · next e => rw [e]
      · rfl
  exact kept _ _ _ _

theorem swept_freeCarriage (s : State) (n : Nat) : Swept s (s.freeCarriage n) := by
  unfold State.freeCarriage
  split
  · exact .refl s
  · exact ⟨rfl, rfl, rfl, rfl, rfl, rfl, fun c => cycles_syncSources _ c⟩

theorem swept_enterTenant (s : State) (c t : Nat) : Swept s (s.enterTenant c t) := by
  unfold State.enterTenant
  split
  · exact .refl s
  · exact (foldl_rel Swept.refl Swept.trans (fun s n => swept_freeCarriage s n) _ s).trans ⟨rfl, rfl, rfl, rfl, rfl, rfl, fun _ => rfl⟩

theorem veilOnly_startFibre (s : State) (lid : Nat) (l : Launch) (k : FKey) : VeilOnly s (s.startFibre lid l k) :=
  (veilOnly_follows s _ _).trans (VeilOnly.foldl (fun s o => by
    split
    · exact veilOnly_noteTicket s _ _ _ _
    · exact .refl s) _ _)

/-- Block number `i` of a launch on core `c`, with its coordinates in the grid (R138). -/
def State.newBlock (s : State) (lid : Nat) (l : Launch) (i c : Nat) (units : List Nat) (twin : Option Nat) : Block :=
  { blockOfRecord lid l s with
    core := c, x := i % Rec.gridx l.record, y := i / Rec.gridx l.record % Rec.gridy l.record
    z := i / (Rec.gridx l.record * Rec.gridy l.record), units := units, twin := twin, order := s.nextBlock }

/-- What the creation of a block does: its entry, its fibres and its gangs are new. -/
structure Created (s t : State) (lid : Nat) (l : Launch) (i c : Nat) (units : List Nat) (twin : Option Nat) : Prop where
  mem : t.mem = s.mem
  launches : t.launches = s.launches
  blocks : t.blocks = s.blocks.put s.nextBlock (s.newBlock lid l i c units twin)
  fibres : t.fibres = s.fibres ++ newFibres s.nextBlock (Rec.fibres l.record) (BitVec.ofNat 64 (Rec.entry l.record)) (s.cycles c)
  gangs : t.gangs = s.gangs ++ newGangs s.nextBlock (Rec.gangs l.record) (Rec.param l.record)

theorem created_createBlock (s : State) (lid : Nat) (l : Launch) (i c : Nat) (units : List Nat) (twin : Option Nat) :
    Created s (s.createBlock lid l i c units twin) lid l i c units twin := by
  have sweep : Swept s ((s.enterTenant c (s.part l.part).tenant).l1Clear (clusterOf c)) :=
    (swept_enterTenant s c _).trans ⟨rfl, rfl, rfl, rfl, rfl, rfl, fun _ => rfl⟩
  unfold State.createBlock
  extract_lets r b s1 shape x s2
  have start : VeilOnly { s1 with blocks := s1.blocks.put b x } s2 := VeilOnly.foldl (fun s n => veilOnly_startFibre s lid l (.fib b n)) _ _
  have fibres : s2.fibres = s.fibres := by rw [start]; exact sweep.fibres
  have gangs : s2.gangs = s.gangs := by rw [start]; exact sweep.gangs
  have clock : s1.cycles c = s.cycles c := sweep.cycles c
  refine ⟨?_, ?_, ?_, ?_, ?_⟩
  · rw [start]; exact sweep.mem
  · rw [start]; exact sweep.launches
  · rw [start]
    show Map.put s1.blocks b x = _
    rw [show s1.blocks = s.blocks from sweep.blocks]
    rfl
  · show s2.fibres ++ newFibres b x.fibres _ (s1.cycles c) = _
    rw [fibres, clock]
    rfl
  · show s2.gangs ++ newGangs b x.gangs _ = _
    rw [gangs]
    rfl

theorem mem_newFibres {b n i : Nat} (h : i < n) (entry : W64) (now : Nat) :
    (FKey.fib b i, ({ pc := entry, readySince := now } : Fibre)) ∈ newFibres b n entry now :=
  List.mem_append_left _ (List.mem_map.2 ⟨i, List.mem_range.2 h, rfl⟩)

theorem mem_newGangs {n : Nat} (b : Nat) (h : 0 < n) (param : Nat) :
    ((b, 0), ({ s := [(0, { val := BitVec.ofNat 64 param })] } : Gang)) ∈ newGangs b n param :=
  List.mem_map.2 ⟨0, List.mem_range.2 h, rfl⟩

/-- The partition's round-robin, once a block has been placed (R149). -/
def State.turnSector (s : State) (p : Nat) : State :=
  s.updPart p fun x => { x with rr := if x.sectors.length = 0 then 0 else (x.rr + 1) % x.sectors.length }

/-- The entry `x` of launch `l` once the next block of `l` has been placed (R146). -/
def Launch.placedOne (l : Launch) (next : Nat) (x : Launch) : Launch :=
  { x with
    cursor := l.cursor + 1
    state := if Rec.blocks l.record ≤ l.cursor + 1 then .running else .placing
    placed := if Rec.blocks l.record ≤ l.cursor + 1 then next else 0 }

/-- R149, R156: the next block of the chosen launch is placed on the core that has room, its fibres at ENTRY with PARAM in s0 of gang 0. -/
theorem blockPlace_places {s : State} {lid c : Nat} {l : Launch} (hc : s.chosen s.args.unit = some (lid, l)) (h : s.launch? lid = some l)
    (hs : l.state = .placing) (hp : l.paused = false) (ha : s.stoppedAhead s.args.unit (s.effPrio lid) = false) (ht : Rec.twin l.record = false)
    (hn : s.args.nats = []) (hf : s.findRoom (s.part s.args.unit).fromNext (blockOfRecord lid l s) false [] = some c) :
    ∃ t, exec .blockPlace s = .next t ∧ t.mem = s.mem ∧
      (∃ x, t.blocks.at? s.nextBlock = some x ∧ x.lid = lid ∧ x.core = c ∧ x.stop = .running ∧
        x.x = l.cursor % Rec.gridx l.record ∧ x.y = l.cursor / Rec.gridx l.record % Rec.gridy l.record ∧
        x.z = l.cursor / (Rec.gridx l.record * Rec.gridy l.record)) ∧
      (∀ n < Rec.fibres l.record,
        (FKey.fib s.nextBlock n, ({ pc := BitVec.ofNat 64 (Rec.entry l.record), readySince := s.cycles c } : Fibre)) ∈ t.fibres) ∧
      (0 < Rec.gangs l.record → ((s.nextBlock, 0), ({ s := [(0, { val := BitVec.ofNat 64 (Rec.param l.record) })] } : Gang)) ∈ t.gangs) ∧
      ∃ m, t.launch? lid = some m ∧ m.cursor = l.cursor + 1 ∧
        m.state = (if Rec.blocks l.record ≤ l.cursor + 1 then .running else .placing) := by
  let units := pickUnits (s.unitsUsed c) 16384 0 (Rec.scratch l.record / 128)
  let s1 := s.createBlock lid l l.cursor c units none
  obtain ⟨mem, launches, blocks, fibres, gangs⟩ := created_createBlock s lid l l.cursor c units none
  have keep := backstage_updLaunch (s1.turnSector s.args.unit) lid (l.placedOne s1.nextBlock)
  have on : s.placeOn lid l c s.args.nats = some s1 := by
    unfold State.placeOn State.takeUnits
    simp only [ht, hn]
    rfl
  have launch : (s1.turnSector s.args.unit).launch? lid = some l := by
    show s1.launches.at? lid = some l
    rw [launches]
    exact h
  refine ⟨(s1.turnSector s.args.unit).updLaunch lid (l.placedOne s1.nextBlock), ?_, keep.memory.1.trans mem,
    ⟨s.newBlock lid l l.cursor c units none, ?_, rfl, rfl, rfl, rfl, rfl, rfl⟩, fun n hn => ?_, fun hg => ?_,
    l.placedOne s1.nextBlock l, State.updLaunch_launchAt_same _ launch, rfl, rfl⟩
  · show execBlockPlace s = _
    unfold execBlockPlace
    simp [hc, hs, hp, ha, ht, hf, on, State.turnSector]
    rfl
  · rw [keep.blocks]
    show s1.blocks.at? _ = _
    rw [blocks]
    exact Map.at?_put_same _ _ _
  · rw [keep.fibres]
    show _ ∈ s1.fibres
    rw [fibres]
    exact List.mem_append_right _ (mem_newFibres hn _ _)
  · rw [keep.gangs]
    show _ ∈ s1.gangs
    rw [gangs]
    exact List.mem_append_right _ (mem_newGangs _ hg _)

/-- Settles O46: a launch enters PLACING, is placed block by block or paused, and retires with its last block. -/
theorem launchSteps : Obligations.LaunchSteps :=
  ⟨fun _ _ => launchDependenceMet_next, fun _ _ _ _ => blockPlace_places, fun _ _ _ => blockPlace_pauses, fun _ _ => blockRetire_next⟩

end Sys2Proof.Machine
end

section
/-!
PROOFS. FORK: a fibre in the lowest free slot, at its address with v0 given, or the answer that no slot is free (R156, R180).
-/

namespace Sys2Proof.Machine

/-! ### Coaches -/

theorem Map.at?_filter {κ α : Type} [DecidableEq κ] {m : Map κ α} {p : κ × α → Bool} {k : κ} {v : α} (h : m.at? k = some v) (hp : p (k, v) = true) :
    Map.at? (m.filter p) k = some v := by
  induction m with
  | nil => cases h
  | cons x r ih =>
    obtain ⟨y, w⟩ := x
    by_cases e : y = k
    · subst e
      obtain rfl : w = v := by simpa [Map.at?] using h
      rw [List.filter_cons_of_pos hp]
      simp [Map.at?]
    · have rest : Map.at? r k = some v := by simpa [Map.at?, e] using h
      rw [List.filter_cons]
      split
      · rw [Map.at?, if_neg e]; exact ih rest
      · exact ih rest

theorem setFull_fib_ne (s : State) {k m : FKey} (r : Reg) (b : Bool) (h : m ≠ k) : (s.setFull k r b).fib m = s.fib m := by
  unfold State.setFull
  split
  · dsimp only
    split
    · exact State.setFib_fib_ne s _ h
    · rfl
  · rfl
  · rfl

theorem unpop_fib_ne (s : State) {k m : FKey} (h : m ≠ k) : (s.unpop k).fib m = s.fib m := by
  unfold State.unpop
  split
  · rw [State.updFib_fib_ne _ _ h, setFull_fib_ne s _ _ h]
  · rfl

theorem leaveCoach_fib_ne (s : State) {b n : Nat} {k : FKey} (h : k ≠ .fib b n) : (s.leaveCoach b n).fib k = s.fib k := unpop_fib_ne s h

/-- A fibre that leaves its coach takes back a pop that waits; beside registers only coaches change. -/
theorem leaveCoach_regsOnly (s : State) (b n : Nat) : RegsOnly { s with pipes := (s.leaveCoach b n).pipes } (s.leaveCoach b n) := by
  have unpop := (unpopped_unpop s (.fib b n)).regs
  unfold State.leaveCoach
  rw [unpop]
  rfl

theorem leaveCoach_memory (s : State) (b n : Nat) : SameMemory s (s.leaveCoach b n) := by rw [leaveCoach_regsOnly]; exact .refl s
theorem leaveCoach_blocks (s : State) (b n : Nat) : (s.leaveCoach b n).blocks = s.blocks := by rw [leaveCoach_regsOnly]
theorem leaveCoach_agent (s : State) (b n : Nat) : (s.leaveCoach b n).agent = s.agent := by rw [leaveCoach_regsOnly]

/-- A fibre that leaves its coach leaves a coach of another fibre alone. -/
theorem leaveCoach_pipe {s : State} {b m n p : Nat} {x : Coach} (hx : s.pipes.at? p = some x) (hm : x.members = [n]) (h : n ≠ m) :
    (s.leaveCoach b m).pipes.at? p = some x := by
  have pipes : (s.unpop (.fib b m)).pipes = s.pipes := by rw [(unpopped_unpop s (.fib b m)).regs]
  unfold State.leaveCoach
  dsimp only
  rw [pipes]
  refine Map.at?_filter ?_ (by simp [hm])
  rw [Map.at?_map (fun y => by split <;> rfl), hx]
  simp only [Option.map_some]
  split
  · have kept : x.members.filter (· ≠ m) = x.members := by simp [hm, h]
    rw [kept]
  · rfl

theorem leaveCoach_alone {s : State} {b m n : Nat} (h : s.members = some [.fib b n]) (hn : n ≠ m) : (s.leaveCoach b m).Alone (.fib b n) := by
  intro c p x ha hx
  rw [leaveCoach_agent] at ha
  obtain ⟨y, hy, alone⟩ : ∃ y, s.pipes.at? (pipeKey c p) = some y ∧ y.members.map (FKey.fib y.block) = [.fib b n] := by
    simpa [State.members, ha] using h
  obtain ⟨i, hi, e⟩ := List.map_eq_singleton_iff.1 alone
  obtain ⟨-, rfl⟩ := FKey.fib.inj e
  rw [leaveCoach_pipe hy hi hn] at hx
  cases hx
  exact alone

/-! ### The end of a run at which nothing is held (R84, R253) -/

theorem boundaryTraps_of_noHeld {s : State} {k : FKey} (h : s.NoHeld k) : s.boundaryTraps k = s := by
  obtain ⟨timer, debug⟩ := h
  unfold State.boundaryTraps
  cases k with
  | fib b n => simp [timer, debug]
  | ap c => rfl
  | ctl n => rfl

/-- The end of the run of an agent that no trap waits for. -/
theorem runOver_endRun_of_noHeld {s : State} {k : FKey} (h : s.Alone k) (hh : s.isHelper k = false) (hn : s.NoHeld k) : RunOver s s.endRun := by
  unfold State.endRun
  split
  next c p ha =>
    split
    · exact .refl s
    next x hx =>
      have alone := h c p x ha hx
      obtain ⟨n, hn', rfl⟩ := List.map_eq_singleton_iff.1 alone
      rw [syncHelpers_alone hx alone hh, hn']
      simp only [List.foldl_cons, List.foldl_nil]
      rw [boundaryTraps_of_noHeld ⟨by rw [State.updFib_fib_same]; exact hn.timer, by rw [State.updFib_fib_same]; exact hn.debug⟩]
      refine ⟨.refl s, rfl, fun m => ?_⟩
      by_cases e : m = .fib x.block n
      · subst e; rw [State.updFib_fib_same]; rfl
      · rw [State.updFib_fib_ne _ _ e]; rfl
  · exact .refl s

/-! ### The new fibre (R156, R180) -/

/-- The fibre that FORK creates. -/
def forkedFibre (pc : W64) (v0 : W32) (now : Nat) : Fibre := { pc := pc, regs := [(0, { val := v0 })], readySince := now }

/-- The new fibre, without the helpers of its quad. -/
def State.newFibre (s : State) (b m : Nat) (pc : W64) (v0 : W32) : State :=
  let u := s.leaveCoach b m
  u.setFib (.fib b m) (forkedFibre pc v0 (u.cycles (u.block b).core))

/-- Helpers for the other slots of a quad. -/
def State.newHelpers (s : State) (b m : Nat) (pc : W64) (l : List Nat) : State :=
  l.foldl (fun s x => if x = m then s else s.setFib (.fib b x) (newHelper pc)) s

theorem spawn_eq (s : State) (b m : Nat) (pc : W64) (v0 : W32) : s.spawn b m pc v0 =
    if (s.quadLeader b m).isNone = true then (s.newFibre b m pc v0).newHelpers b m pc ((List.range 4).map fun i => m / 4 * 4 + i)
    else s.newFibre b m pc v0 := rfl

theorem newHelpers_rest (s : State) (b m : Nat) (pc : W64) (l : List Nat) :
    s.newHelpers b m pc l = { s with fibres := (s.newHelpers b m pc l).fibres } :=
  List.foldlRecOn (motive := fun t : State => t = { s with fibres := t.fibres }) l _ rfl fun t ht x _ => by
    split
    · exact ht
    · rw [ht]; rfl

theorem newHelpers_fib (s : State) {b m : Nat} {pc : W64} {l : List Nat} {k : FKey} (h : ∀ x ∈ l, x ≠ m → k ≠ .fib b x) :
    (s.newHelpers b m pc l).fib k = s.fib k :=
  List.foldlRecOn (motive := fun t : State => t.fib k = s.fib k) l _ rfl fun t ht x hx => by
    split
    · exact ht
    next hm => rw [State.setFib_fib_ne _ _ (h x hx hm)]; exact ht

theorem quadLeader_none {s : State} {b m n : Nat} (h : s.quadLeader b m = none) (hq : n / 4 = m / 4) : (s.fib (.fib b n)).status ≠ .live := by
  have := List.find?_eq_none.1 h n (List.mem_map.2 ⟨n % 4, List.mem_range.2 (by omega), by omega⟩)
  simpa using this

/-- What a new fibre in slot `m` of block `b` leaves of the machine: live fibres, memory and blocks as they were. -/
structure Spawned (s t : State) (b m : Nat) (pc : W64) (v0 : W32) : Prop where
  memory : SameMemory s t
  blocks : t.blocks = s.blocks
  agent : t.agent = s.agent
  pipes : t.pipes = (s.leaveCoach b m).pipes
  child : ∃ now, t.fib (.fib b m) = forkedFibre pc v0 now
  others : ∀ n, n ≠ m → (s.fib (.fib b n)).status = .live → t.fib (.fib b n) = s.fib (.fib b n)

theorem spawned_newFibre (s : State) (b m : Nat) (pc : W64) (v0 : W32) : Spawned s (s.newFibre b m pc v0) b m pc v0 where
  memory := leaveCoach_memory s b m
  blocks := leaveCoach_blocks s b m
  agent := leaveCoach_agent s b m
  pipes := rfl
  child := ⟨_, State.setFib_fib_same _ _ _⟩
  others n hn _ := by
    have ne : FKey.fib b n ≠ .fib b m := by simp [hn]
    rw [State.newFibre, State.setFib_fib_ne _ _ ne, leaveCoach_fib_ne s ne]

theorem spawned_spawn (s : State) (b m : Nat) (pc : W64) (v0 : W32) : Spawned s (s.spawn b m pc v0) b m pc v0 := by
  have new := spawned_newFibre s b m pc v0
  rw [spawn_eq]
  split
  next fresh =>
    have fresh : s.quadLeader b m = none := by simpa using fresh
    have rest := newHelpers_rest (s.newFibre b m pc v0) b m pc ((List.range 4).map fun i => m / 4 * 4 + i)
    refine ⟨?_, by rw [rest]; exact new.blocks, by rw [rest]; exact new.agent, by rw [rest]; exact new.pipes, ?_, fun n hn hl => ?_⟩
    · rw [rest]; exact new.memory
    · rw [newHelpers_fib _ fun x _ hx => by simpa using Ne.symm hx]; exact new.child
    · rw [newHelpers_fib _ fun x hx _ e => ?_]
      · exact new.others n hn hl
      · obtain ⟨i, hi, rfl⟩ := List.mem_map.1 hx
        obtain rfl : n = m / 4 * 4 + i := by simpa using e
        exact quadLeader_none fresh (by have := List.mem_range.1 hi; omega) hl
  · exact new

/-! ### FORK of one agent -/

/-- A word that ends its run names no temporary as its destination (R76). -/
theorem tempDst_of_ready {s : State} {k : FKey} {i : Instr} (h : s.Ready i k) (hr : i.runEnding = true) : tempDst i = false := by
  have go := h.go
  unfold State.issueCheck at go
  rw [if_neg fun hb => by rw [if_pos hb] at go; cases go] at go
  split at go
  · cases go
  next hi =>
    have class_ := illOpndClass_of_illCause hi
    simp only [illOpndClass, hr, Bool.or_true, Bool.true_and, Bool.or_eq_false_iff] at class_
    exact class_.1.2

/-- FORK's destination is a window register, or none (R74, R76). -/
theorem fork_dst {s : State} {k : FKey} {o : R3} (h : s.Ready (.fork o) k) : (∃ n, o.d = .v n) ∨ o.d = .z := by
  have slot : (⟨.v, o.d, false, true, false⟩ : Slot) ∈ (Instr.fork o).slots := by
    show _ ∈ o.slots .v .xs .vs
    exact .tail _ (.tail _ (.head _))
  have admits := admits_of_ready h slot
  have temp : tempDst (.fork o) = false := tempDst_of_ready h rfl
  cases hd : o.d with
  | v n => exact .inl ⟨n, rfl⟩
  | z => exact .inr rfl
  | s n => rw [hd] at admits; cases admits
  | q n => rw [hd] at admits; cases admits
  | id => rw [hd] at admits; cases admits
  | k n =>
    have named : tempDst (.fork o) = true := List.any_eq_true.2 ⟨_, slot, by rw [hd]; rfl⟩
    rw [temp] at named
    cases named

/-- The state in which FORK answers: a fibre in the lowest free slot, and the memory model told of it; or nothing done (R156, R180). -/
def State.forkChild (s : State) (pc : W64) (v0 : W32) (b n : Nat) : State :=
  match s.freeSlot b with
  | some m => ((s.spawn b m pc v0).newAgent (.agent (.fib b m))).follows (.agent (.fib b n)) (.agent (.fib b m))
  | none => s

/-- What FORK answers: the slot, or all ones. -/
def State.forkAnswer (s : State) (b : Nat) : W32 := match s.freeSlot b with | some m => BitVec.ofNat 32 m | none => 0xFFFFFFFF

theorem forkOne_eq (s : State) (o : R3) (pc : W64) (v0 : W32) (b n : Nat) :
    s.forkOne o pc v0 (.fib b n) = (s.forkChild pc v0 b n).wr (.fib b n) (.reg o.d (s.forkAnswer b)) := by
  unfold State.forkOne State.forkChild State.forkAnswer
  dsimp only
  cases s.freeSlot b <;> rfl

/-- What FORK's creation of a fibre leaves to the agent of the turn. -/
structure ForkKeeps (s t : State) (b n : Nat) : Prop where
  memory : SameMemory s t
  blocks : t.blocks = s.blocks
  own : t.fib (.fib b n) = s.fib (.fib b n)
  alone : t.Alone (.fib b n)

theorem forkKeeps_forkChild {s : State} {b n : Nat} (pc : W64) (v0 : W32) (hm : s.members = some [.fib b n])
    (hl : (s.fib (.fib b n)).status = .live) : ForkKeeps s (s.forkChild pc v0 b n) b n := by
  unfold State.forkChild
  split
  next m hm' =>
    have free : (s.fib (.fib b m)).status ≠ .live := by simpa using List.find?_some hm'
    have ne : n ≠ m := fun e => free (e ▸ hl)
    have spawned := spawned_spawn s b m pc v0
    have veil : VeilOnly (s.spawn b m pc v0) _ :=
      (veilOnly_newAgent (s.spawn b m pc v0) (.agent (.fib b m))).trans (veilOnly_follows _ (.agent (.fib b n)) (.agent (.fib b m)))
    refine ⟨?_, ?_, ?_, ?_⟩
    · rw [veil]; exact spawned.memory
    · rw [veil]; exact spawned.blocks
    · rw [veil.fib]; exact spawned.others n ne hl
    · refine (leaveCoach_alone hm ne).of_eq ?_ ?_
      · rw [veil, leaveCoach_agent]; exact spawned.agent
      · rw [veil]; exact spawned.pipes
  · exact ⟨.refl s, rfl, rfl, State.alone_of_members hm⟩

theorem forkChild_child {s : State} {b n m : Nat} (pc : W64) (v0 : W32) (h : s.freeSlot b = some m) :
    ∃ now, (s.forkChild pc v0 b n).fib (.fib b m) = forkedFibre pc v0 now := by
  have veil : VeilOnly (s.spawn b m pc v0) _ :=
    (veilOnly_newAgent (s.spawn b m pc v0) (.agent (.fib b m))).trans (veilOnly_follows _ (.agent (.fib b n)) (.agent (.fib b m)))
  unfold State.forkChild
  rw [h]
  dsimp only
  rw [veil.fib]
  exact (spawned_spawn s b m pc v0).child

/-- The state in which FORK of one agent has been performed, its run not yet ended. -/
def State.forked (s : State) (o : R3) (pc : W64) (v0 : W32) (b n : Nat) : State :=
  (((s.forkChild pc v0 b n).wr (.fib b n) (.reg o.d (s.forkAnswer b))).dropLines [.fib b n]).updFib (.fib b n)
    fun f => { f with pc := (s.fib (.fib b n)).pc + 4 }

theorem execFork_one {s : State} {o : R3} {b n : Nat} (h : s.Ready (.fork o) (.fib b n)) (ha : (s.src64 (.fib b n) o.a).toNat % 4 = 0)
    (ho : s.outstanding (.fib b n) = []) :
    exec (.fork o) s = .next ((s.noted1 (.fork o) (.fib b n)).forked o (s.src64 (.fib b n) o.a) (s.src32 (.fib b n) o.b) b n).endRun := by
  have notes := notesOnly_noted1 s (.fork o) (.fib b n)
  have live : (s.noted1 (.fork o) (.fib b n)).isHelper (.fib b n) = false := by rw [notes.isHelper, h.live]
  show execFork o s = _
  unfold execFork
  rw [issue_ending h (by simp [targetCheck, ha, ho]) rfl rfl]
  simp [live, notes.src64, notes.src32, forkOne_eq]
  rfl

section Forked
variable {s : State} {o : R3} {pc : W64} {v0 : W32} {b n : Nat} (hm : s.members = some [.fib b n]) (hl : (s.fib (.fib b n)).status = .live)
include hm hl

theorem forked_memory : SameMemory s (s.forked o pc v0 b n) :=
  (forkKeeps_forkChild pc v0 hm hl).memory.trans (kept_wr _ _ _).regs.sameMemory

theorem forked_alone : (s.forked o pc v0 b n).Alone (.fib b n) :=
  (forkKeeps_forkChild pc v0 hm hl).alone.of_eq (kept_wr _ _ _).agent (kept_wr _ _ _).pipes

theorem forked_fib : FibreKept { s.fib (.fib b n) with pc := (s.fib (.fib b n)).pc + 4 } ((s.forked o pc v0 b n).fib (.fib b n)) := by
  have kept := (kept_wr (s.forkChild pc v0 b n) (.fib b n) (.reg o.d (s.forkAnswer b))).fib (.fib b n)
  rw [(forkKeeps_forkChild pc v0 hm hl).own] at kept
  have drop : ∀ (t : State) ks m, (t.dropLines ks).fib m = t.fib m := fun _ _ _ => rfl
  unfold State.forked FibreKept at *
  rw [State.updFib_fib_same, drop, kept]

theorem forked_noHeld (h : s.NoHeld (.fib b n)) : (s.forked o pc v0 b n).NoHeld (.fib b n) := by
  have kept := forked_fib (o := o) (pc := pc) (v0 := v0) hm hl
  exact ⟨by rw [kept]; exact h.timer, by rw [kept]; exact h.debug⟩

theorem forked_live : (s.forked o pc v0 b n).isHelper (.fib b n) = false := by
  unfold State.isHelper
  rw [forked_fib hm hl]
  simp [hl]

theorem forked_vcell {x : Fin 96} (hd : o.d = .v x) (hw : (s.fib (.fib b n)).wb.toNat + x < s.declared (.fib b n)) :
    (s.forked o pc v0 b n).vcell (.fib b n) x = { val := s.forkAnswer b } := by
  have keeps := forkKeeps_forkChild pc v0 hm hl
  have declared : (s.forkChild pc v0 b n).declared (.fib b n) = s.declared (.fib b n) := by
    simp only [State.declared, State.block, keeps.blocks]
  have place : ∀ t : State, ((t.dropLines [.fib b n]).updFib (.fib b n) fun f => { f with pc := (s.fib (.fib b n)).pc + 4 }).vcell (.fib b n) x
      = t.vcell (.fib b n) x := fun t => by
    unfold State.vcell
    rw [State.updFib_fib_same]
    rfl
  rw [State.forked, place, hd, State.wr, setV_vcell, if_pos ⟨rfl, rfl, by rw [keeps.own, declared]; exact hw⟩]

omit hm hl in
theorem forked_fib_ne {m : Nat} (h : m ≠ n) : (s.forked o pc v0 b n).fib (.fib b m) = (s.forkChild pc v0 b n).fib (.fib b m) := by
  have ne : FKey.fib b m ≠ .fib b n := by simp [h]
  rw [State.forked, State.updFib_fib_ne _ _ ne]
  exact wr_fib_ne _ _ ne

end Forked

theorem RunOver.vcell {s t : State} (h : RunOver s t) (k : FKey) (n : Nat) : t.vcell k n = s.vcell k n := by
  have declared : t.declared k = s.declared k := by cases k <;> simp [State.declared, State.block, h.blocks]
  unfold State.vcell
  rw [h.fib k, declared]
  rfl

/-- R156, R180: FORK creates a fibre in the lowest free slot and writes its number, or answers that none is free. -/
theorem forkCreates : Claims.ForkCreates := by
  unfold Claims.ForkCreates
  intro o s b n h hn held ha ho
  have run := execFork_one h ha ho
  have notes := notesOnly_noted1 s (.fork o) (.fib b n)
  generalize s.noted1 (.fork o) (.fib b n) = u at run notes
  generalize s.src64 (.fib b n) o.a = pc at run
  generalize s.src32 (.fib b n) o.b = v0 at run
  have sole : u.members = some [.fib b n] := by rw [notes]; exact h.sole
  have live : (s.fib (.fib b n)).status = .live := by simpa using (List.mem_filter.1 hn).2
  have live' : (u.fib (.fib b n)).status = .live := by rw [notes.fib]; exact live
  have slot : u.freeSlot b = s.freeSlot b := by rw [notes]; rfl
  have answer : u.forkAnswer b = s.forkAnswer b := by unfold State.forkAnswer; rw [slot]
  have own := forked_fib (o := o) (pc := pc) (v0 := v0) sole live'
  have held' : u.NoHeld (.fib b n) := ⟨by rw [notes.fib]; exact held.timer, by rw [notes.fib]; exact held.debug⟩
  have ended := runOver_endRun_of_noHeld (forked_alone (o := o) (pc := pc) (v0 := v0) sole live') (forked_live sole live') (forked_noHeld sole live' held')
  generalize (u.forked o pc v0 b n).endRun = t at run ended
  have holds : Holds32 s t (.fib b n) o.d (s.forkAnswer b) := by
    rcases fork_dst h with ⟨x, hd⟩ | hd
    · rw [hd]
      intro hw
      rw [ended.vcell, ← answer]
      exact forked_vcell sole live' hd (by rw [notes.fib, notes.kept.declared]; exact hw)
    · rw [hd]; trivial
  refine ⟨t, run, by rw [ended.fib, own, notes.fib], (notes.backstage.memory.trans (forked_memory sole live')).trans ended.memory, ?_⟩
  unfold State.forkAnswer at holds
  cases hf : s.freeSlot b with
  | none => rw [hf] at holds; exact holds
  | some m =>
    rw [hf] at holds
    have free : (s.fib (.fib b m)).status ≠ .live := by simpa using List.find?_some hf
    have ne : m ≠ n := fun e => free (e ▸ live)
    obtain ⟨now, child⟩ := forkChild_child (n := n) pc v0 (slot.trans hf)
    have fib := ended.fib (.fib b m)
    rw [forked_fib_ne ne, child] at fib
    refine ⟨holds, ?_, ?_, ?_, fun r hr => ?_, ?_, ?_, ?_, ?_⟩
    case refine_4 => rw [fib]; simp [Fibre.cell, forkedFibre, Map.atD, Map.at?, Ne.symm hr]
    all_goals rw [fib]; rfl

end Sys2Proof.Machine
end

section
/-!
PROOFS. END retires its fibre, and what its absence completes gives no fibre another life (R156, R157, R181).
-/

namespace Sys2Proof.Machine

/-! ### What neither ends nor begins a fibre's life -/

/-- Memory, the sizes of blocks and the lives of fibres are as before; and so are the registers of fibre `k` if it no longer lives. -/
structure Spares (k : FKey) (s t : State) : Prop where
  memory : SameMemory s t
  maxf : ∀ b, (t.block b).maxf = (s.block b).maxf
  status : ∀ m, (t.fib m).status = (s.fib m).status
  own : (s.fib k).status ≠ .live → (s.fib k).pop = none → (t.fib k).regs = (s.fib k).regs ∧ (t.fib k).pop = none

section Spares
variable {k : FKey}

theorem Spares.refl (s : State) : Spares k s s := ⟨.refl s, fun _ => rfl, fun _ => rfl, fun _ h => ⟨rfl, h⟩⟩
theorem Spares.trans {s t u : State} (h : Spares k s t) (h' : Spares k t u) : Spares k s u := by
  refine ⟨h.memory.trans h'.memory, fun b => (h'.maxf b).trans (h.maxf b), fun m => (h'.status m).trans (h.status m), fun hl hp => ?_⟩
  obtain ⟨regs, pop⟩ := h.own hl hp
  obtain ⟨regs', pop'⟩ := h'.own (by rw [h.status]; exact hl) pop
  exact ⟨regs'.trans regs, pop'⟩

/-- Where fibres and blocks are as before. -/
theorem Spares.of {s t : State} (hm : SameMemory s t) (hb : t.blocks = s.blocks) (hf : t.fibres = s.fibres) : Spares k s t := by
  have fib : ∀ m, t.fib m = s.fib m := fun m => by unfold State.fib; rw [hf]
  exact ⟨hm, fun b => by unfold State.block; rw [hb], fun m => by rw [fib], fun _ h => by rw [fib]; exact ⟨rfl, h⟩⟩

theorem VeilOnly.spares {s t : State} (h : VeilOnly s t) : Spares k s t := .of h.backstage.memory h.backstage.blocks h.backstage.fibres

/-- A change of one fibre that neither ends nor begins its life nor touches its registers. -/
theorem spares_updFib (s : State) (m : FKey) {f : Fibre → Fibre}
    (h : ∀ x, (f x).status = x.status ∧ (f x).regs = x.regs ∧ (f x).pop = x.pop) : Spares k s (s.updFib m f) := by
  obtain ⟨status, regs, pop⟩ := h (s.fib m)
  refine ⟨.refl s, fun _ => rfl, fun x => ?_, fun _ hp => ?_⟩
  · rw [State.updFib_fib]; split
    · next e => rw [e, status]
    · rfl
  · rw [State.updFib_fib]; split
    · next e => rw [e, regs, pop, ← e]; exact ⟨rfl, hp⟩
    · exact ⟨rfl, hp⟩

theorem Spares.then_updFib {s t : State} (h : Spares k s t) (m : FKey) {f : Fibre → Fibre}
    (hf : ∀ x, (f x).status = x.status ∧ (f x).regs = x.regs ∧ (f x).pop = x.pop) : Spares k s (t.updFib m f) := h.trans (spares_updFib t m hf)

/-- A change of a fibre that lives and goes on to live. -/
theorem spares_updFib_live (s : State) {m : FKey} {f : Fibre → Fibre} (hm : (s.fib m).status = .live) (h : ∀ x, (f x).status = x.status) :
    Spares k s (s.updFib m f) := by
  refine ⟨.refl s, fun _ => rfl, fun x => ?_, fun hl hp => ?_⟩
  · rw [State.updFib_fib]; split
    · next e => rw [e, h]
    · rfl
  · have ne : k ≠ m := fun e => hl (e ▸ hm)
    rw [State.updFib_fib_ne s f ne]; exact ⟨rfl, hp⟩

theorem spares_endRunOf (s : State) (m : FKey) : Spares k s (s.endRunOf m) := by
  unfold State.endRunOf
  exact spares_updFib s m fun _ => ⟨rfl, rfl, rfl⟩

theorem spares_updGang (s : State) (g : Nat × Nat) (f : Gang → Gang) : Spares k s (s.updGang g f) := .of (.refl s) rfl rfl
theorem spares_updCore (s : State) (c : Nat) (f : Core → Core) : Spares k s (s.updCore c f) := .of (.refl s) rfl rfl

theorem spares_dropLines (s : State) (ks : List FKey) : Spares k s (s.dropLines ks) := .of (.refl s) rfl rfl

theorem spares_foldl {α : Type} {f : State → α → State} (h : ∀ s a, Spares k s (f s a)) (l : List α) (s : State) : Spares k s (l.foldl f s) :=
  foldl_rel Spares.refl Spares.trans h l s

/-! #### Traps and coaches -/

theorem spares_unpop (s : State) (m : FKey) : Spares k s (s.unpop m) := by
  have unpop := unpopped_unpop s m
  refine ⟨unpop.regs.sameMemory, fun b => by rw [unpop.regs.block], fun x => by rw [unpop.fib x], fun _ hp => ?_⟩
  by_cases e : k = m
  · have stays : s.unpop m = s := by unfold State.unpop; rw [← e, hp]
    rw [stays]; exact ⟨rfl, hp⟩
  · rw [unpop_fib_ne s e]; exact ⟨rfl, hp⟩

theorem spares_leaveCoach (s : State) (b n : Nat) : Spares k s (s.leaveCoach b n) := (spares_unpop s _).trans (.of (.refl _) rfl rfl)

/-- A change of fibres in place that neither ends nor begins a life nor touches a register. -/
theorem Spares.ofMap {s t : State} {F : FKey × Fibre → FKey × Fibre} (hm : SameMemory s t) (hb : t.blocks = s.blocks)
    (hf : t.fibres = s.fibres.map F) (hk : ∀ x, (F x).1 = x.1)
    (hp : ∀ x, (F x).2.status = x.2.status ∧ (F x).2.regs = x.2.regs ∧ (F x).2.pop = x.2.pop) : Spares k s t := by
  have fib : ∀ m, (t.fib m).status = (s.fib m).status ∧ (t.fib m).regs = (s.fib m).regs ∧ (t.fib m).pop = (s.fib m).pop := fun m =>
    fib_rel_of_map (R := fun f g => g.status = f.status ∧ g.regs = f.regs ∧ g.pop = f.pop) hf hk (fun v => hp (_, v)) ⟨rfl, rfl, rfl⟩
  refine ⟨hm, fun b => by unfold State.block; rw [hb], fun m => (fib m).1, fun _ h => ?_⟩
  obtain ⟨-, regs, pop⟩ := fib k
  exact ⟨regs, pop.trans h⟩

theorem spares_updLaunch (s : State) (l : Nat) (f : Launch → Launch) : Spares k s (s.updLaunch l f) := by
  have back := backstage_updLaunch s l f
  exact .of back.memory back.blocks back.fibres

theorem spares_launchError (s : State) (l c : Nat) : Spares k s (s.launchError l c) := by
  unfold State.launchError
  dsimp only
  have entry : Spares k s (match s.launch? l with
      | some x => if x.error.isSome then s else
        { s.updLaunch l (fun l => { l with error := some c }) with
          queues := s.queues.upd (queueKey x.part x.queue) {} fun q => { q with errors := q.errors ++ [(l, c)] } }
      | none => s) := by
    split
    · split
      · exact .refl s
      · exact (spares_updLaunch s l _).trans (.of (.refl _) rfl rfl)
    · exact .refl s
  refine entry.trans (.ofMap (.refl _) rfl rfl (fun x => ?_) fun x => ?_)
  · split
    · split <;> rfl
    · rfl
  · split
    · split <;> exact ⟨rfl, rfl, rfl⟩
    · exact ⟨rfl, rfl, rfl⟩

theorem spares_deliver (s : State) (g : Nat × Nat) : Spares k s (s.deliver g) := by
  unfold State.deliver
  split
  · exact .refl s
  · dsimp only
    split
    · split
      · exact spares_launchError s _ _
      · exact spares_updFib s _ fun _ => ⟨rfl, rfl, rfl⟩
    · exact .refl s

theorem spares_enterTrap (s : State) (b n : Nat) (x : Trap) : Spares k s (s.enterTrap b n x) := by
  unfold State.enterTrap
  dsimp only
  refine ((spares_leaveCoach s b n).trans (spares_endRunOf _ (.fib b n))).trans ?_
  split
  · exact spares_updFib _ _ fun _ => ⟨rfl, rfl, rfl⟩
  split
  · exact spares_updFib _ _ fun _ => ⟨rfl, rfl, rfl⟩
  split
  · exact spares_updFib _ _ fun _ => ⟨rfl, rfl, rfl⟩
  split
  · exact spares_launchError _ _ _
  split
  · exact spares_launchError _ _ _
  · refine Spares.trans ?_ (spares_deliver _ _)
    refine Spares.then_updFib ?_ _ fun _ => ⟨rfl, rfl, rfl⟩
    exact spares_updGang _ _ _

theorem spares_boundaryTraps (s : State) (b n : Nat) : Spares k s (s.boundaryTraps (.fib b n)) := by
  unfold State.boundaryTraps
  dsimp only
  split
  · exact .refl s
  split
  · refine Spares.trans ?_ (spares_enterTrap _ b n _)
    exact spares_updFib s _ fun _ => ⟨rfl, rfl, rfl⟩
  split
  · refine Spares.trans ?_ (spares_enterTrap _ b n _)
    exact spares_updFib s _ fun _ => ⟨rfl, rfl, rfl⟩
  · exact .refl s

theorem spares_syncHelpers (s : State) (c p : Nat) : Spares k s (s.syncHelpers c p) := by
  unfold State.syncHelpers
  split
  · exact .refl s
  · refine (spares_foldl (fun s n => ?_) _ s).trans (.of (.refl _) rfl rfl)
    split
    · exact spares_updFib s _ fun _ => ⟨rfl, rfl, rfl⟩
    · exact .refl s

theorem spares_endRun (s : State) : Spares k s s.endRun := by
  unfold State.endRun
  split
  · split
    · exact .refl s
    next x _ =>
      refine Spares.trans ?_ (spares_foldl (fun s n => spares_boundaryTraps s x.block n) _ _)
      refine Spares.trans ?_ (spares_foldl (fun s n => ?_) _ _)
      · exact (spares_syncHelpers s _ _).trans (.of (.refl _) rfl rfl)
      · exact spares_updFib s _ fun _ => ⟨rfl, rfl, rfl⟩
  · exact .refl s

/-! #### The end of a gang (R123, R157) -/

theorem spares_resumeAll (s : State) (ks : List FKey) : Spares k s (s.resumeAll ks) :=
  spares_foldl (fun s m => by
    unfold State.resume
    exact spares_updFib s m fun _ => ⟨rfl, rfl, rfl⟩) ks s

theorem spares_wakeOwner (s : State) (g : Nat × Nat) : Spares k s (s.wakeOwner g) := by
  obtain ⟨now, ns, ks, -, e⟩ := wakeOwner_eq s g
  rw [e]
  refine ((spares_foldl (fun s n => ?_) ns s).trans (spares_updGang _ _ _)).trans (spares_resumeAll _ _)
  exact spares_updFib s _ fun _ => ⟨rfl, rfl, rfl⟩

theorem spares_grant (s : State) (c : Nat) : Spares k s (s.grant c) := by
  rcases grant_cases s c with e | ⟨g, p, u, -, hu, hf, -, e⟩
  · rw [e]; exact .refl s
  · rw [e]
    exact (Spares.of hu.sameMemory (by rw [hu]) hf).trans (spares_wakeOwner u g)

theorem spares_releaseMatrix (s : State) (g : Nat × Nat) : Spares k s (s.releaseMatrix g) :=
  (((spares_updCore s _ _).trans (spares_updCore _ _ _)).trans (spares_grant _ _)).trans (spares_grant _ _)

theorem spares_gangEnd (s : State) (g : Nat × Nat) : Spares k s (s.gangEnd g) := by
  unfold State.gangEnd
  dsimp only
  refine Spares.trans ?_ (spares_foldl (fun s t => ?_) _ _)
  · have released : Spares k s ((s.releaseMatrix g).updGang g fun x => { x with trapq := [] }) :=
      (spares_releaseMatrix s g).trans (spares_updGang _ _ _)
    split
    · exact (released.trans (spares_updCore _ _ _)).trans (spares_launchError _ _ _)
    · exact released
  · split
    · refine Spares.trans ?_ (spares_launchError _ _ _)
      exact .of (.refl s) rfl rfl
    · exact .refl s

theorem spares_freeEntries (s : State) (c q : Nat) : Spares k s (s.freeEntries c q) := by
  unfold State.freeEntries
  dsimp only
  split
  · exact .refl s
  · exact .of (.refl s) rfl rfl

/-! #### Rendezvous (R158, R159) -/

/-- Writes of other fibres. -/
theorem spares_lanes (s : State) {ws : List (FKey × List Wr)} (h : ∀ w ∈ ws, (s.fib w.1).status = .live) : Spares k s (s.lanes ws) := by
  have kept := kept_lanes s ws
  refine ⟨kept.regs.sameMemory, fun b => by rw [kept.block], fun m => by rw [kept.fib m], fun hl hp => ?_⟩
  have out : ∀ w ∈ ws, w.1 ≠ k := fun w hw e => hl (e ▸ h w hw)
  have fib : (s.lanes ws).fib k = s.fib k := by
    clear h kept
    induction ws with
    | nil => rfl
    | cons w ws ih =>
      obtain ⟨m, w⟩ := w
      rw [State.lanes, wrs_fib_ne _ _ (out _ List.mem_cons_self).symm, ih fun x hx => out x (List.mem_cons_of_mem _ hx)]
  rw [fib]
  exact ⟨rfl, hp⟩

theorem eachLane_parts {ps : Parts} {d : Reg} {f : Nat → FKey → W32} : ∀ w ∈ eachLane ps d f, ∃ p ∈ ps, p.2 = w.1 := fun w hw => by
  obtain ⟨p, hp, rfl⟩ := List.mem_map.1 hw
  exact ⟨p, hp, rfl⟩

theorem allLanes_parts {ps : Parts} {x : Wr} : ∀ w ∈ allLanes ps x, ∃ p ∈ ps, p.2 = w.1 := fun w hw => by
  obtain ⟨p, hp, rfl⟩ := List.mem_map.1 hw
  exact ⟨p, hp, rfl⟩

/-- Collectives write to their participants alone (R217). -/
theorem collResult_parts (s : State) (ps : Parts) (i : Instr) : ∀ w ∈ collResult s ps i, ∃ p ∈ ps, p.2 = w.1 := by
  unfold collResult
  split
  all_goals first
    | exact eachLane_parts
    | exact allLanes_parts
    | exact fun _ h => nomatch h

theorem collWrites_live (s : State) (g : Nat × Nat) : ∀ w ∈ s.collWrites g, (s.fib w.1).status = .live := by
  intro w hw
  obtain ⟨inst, hi, hw⟩ := List.mem_flatMap.1 hw
  split at hw
  · obtain ⟨p, hp, e⟩ := collResult_parts s inst _ w hw
    obtain ⟨pc, -, rfl⟩ := List.mem_map.1 hi
    obtain ⟨n, hn, rfl⟩ := List.mem_map.1 (List.mem_of_mem_filter hp)
    rw [← e]
    simpa using (List.mem_filter.1 (List.mem_of_mem_filter hn)).2
  · cases hw

theorem spares_collCheck (s : State) (g : Nat × Nat) : Spares k s (s.collCheck g) := by
  unfold State.collCheck
  dsimp only
  split
  · exact .refl s
  · refine ((spares_lanes s (collWrites_live s g)).trans (spares_foldl (fun s inst => ?_) _ _)).trans (spares_resumeAll _ _)
    exact (veilOnly_noteCross s _ _).spares

theorem spares_reconvAll (s : State) (g : Nat × Nat) : Spares k s (s.reconvAll g) := by
  refine spares_foldl (fun s pc => ?_) _ s
  unfold State.reconvCheck
  dsimp only
  split
  · exact .refl s
  · split
    · exact spares_resumeAll s _
    · exact .refl s

theorem spares_barDone (s : State) (ks : List FKey) (sc : Scope) : Spares k s (s.barDone ks sc) :=
  (veilOnly_noteBarrier s ks sc).spares.trans (spares_resumeAll _ _)

theorem spares_barCheck (s : State) (b : Nat) : Spares k s (s.barCheck b) := by
  unfold State.barCheck
  split
  · exact .refl s
  split
  · exact spares_barDone _ _ _
  · dsimp only
    split
    · exact (spares_barDone _ _ _).trans (spares_barDone _ _ _)
    · exact spares_barDone _ _ _

/-! #### Stop points (R258, R259) -/

theorem spares_cancelFills (s : State) (m : FKey) : Spares k s (s.cancelFills m) := .of (.refl s) rfl rfl

theorem spares_dropTraps (s : State) (m : FKey) : Spares k s (s.dropTraps m) := (spares_updGang s _ _).trans (spares_deliver _ _)

theorem spares_discardFibre (s : State) {m : FKey} (n : Snap) (h : (s.fib m).status = .live) : Spares k s (s.discardFibre m n) := by
  have unpop : Spares k s ((s.unpop m).cancelFills m) := (spares_unpop s m).trans (spares_cancelFills _ m)
  unfold State.discardFibre
  refine (unpop.trans ?_).trans (spares_dropTraps _ m)
  exact spares_updFib_live _ (by rw [((spares_unpop (k := k) s m).trans (spares_cancelFills _ m)).status]; exact h) fun _ => rfl

theorem spares_dropCoaches (s : State) (b : Nat) (keep : Coach → Bool) : Spares k s (s.dropCoaches b keep) := by
  unfold State.dropCoaches
  dsimp only
  refine (spares_foldl (fun s p => ?_) _ s).trans (.of (.refl _) rfl rfl)
  split
  · exact spares_foldl (fun s n => spares_unpop s _) _ s
  · exact .refl s

theorem spares_updBlock (s : State) (b : Nat) {f : Block → Block} (h : ∀ x, (f x).maxf = x.maxf) : Spares k s (s.updBlock b f) := by
  refine ⟨.refl _, fun x => ?_, fun _ => rfl, fun _ h => ⟨rfl, h⟩⟩
  by_cases e : x = b
  · subst e; rw [State.updBlock_block_same, h]
  · rw [State.updBlock_block_ne _ _ e]

theorem spares_stopAtPoint (s : State) (b : Nat) (why : StopWhy) : Spares k s (s.stopAtPoint b why) := by
  have left : Spares k s ((s.dropCoaches b fun _ => false).flushBlock b) := 
    (spares_dropCoaches s b fun _ => false).trans (.of (.refl _) rfl rfl)
  unfold State.stopAtPoint
  dsimp only
  generalize (s.dropCoaches b fun _ => false).flushBlock b = u at left
  refine left.trans (Spares.trans ?_ (spares_updBlock _ b ?_))
  · refine List.foldlRecOn (motive := fun t : State => Spares k u t) (u.liveSlots b) _ (.refl u) fun t ht n hn => ?_
    have live : (t.fib (.fib b n)).status = .live := by rw [ht.status]; simpa using (List.mem_filter.1 hn).2
    refine ht.trans ?_
    split
    · split
      · exact spares_discardFibre t _ live
      · exact .refl t
    · exact .refl t
    · exact spares_discardFibre t _ live
    · exact .refl t
  · exact fun _ => rfl

theorem spares_stopCheck (s : State) (b : Nat) : Spares k s (s.stopCheck b) := by
  unfold State.stopCheck
  split
  · dsimp only
    split
    · exact spares_stopAtPoint s b _
    · exact .refl s
  · exact .refl s

/-- What the absence of a fibre completes (R158, R159, R258). -/
theorem spares_afterEnd (s : State) (b g : Nat) : Spares k s (s.afterEnd b g) :=
  (((spares_collCheck s (b, g)).trans (spares_reconvAll _ (b, g))).trans (spares_barCheck _ b)).trans (spares_stopCheck _ b)

end Spares

/-! ### A fibre retires (R156, R181) -/

/-- The fibre leaves its coach, its requests and its trap queue, and becomes a helper with its registers settled. -/
def State.retireOwn (s : State) (b n : Nat) : State :=
  (((s.leaveCoach b n).cancelFills (.fib b n)).updFib (.fib b n) fun f =>
    { f.settleRegs with
      status := .helper, wait := .ready, k := [], await := [], service := false, continuing := none, inner := false, region := none }).dropTraps
    (.fib b n)

/-- A slot of a quad without a live fibre is free. -/
def State.freeOne (s : State) (b m : Nat) : State := (s.leaveCoach b m).updFib (.fib b m) fun f => { f with status := .free, wait := .ready }

/-- The slots of the quad are free where none of them lives. -/
def State.freeQuad (s : State) (b n : Nat) : State :=
  match s.quadLeader b n with
  | some _ => s
  | none => (List.range 4).foldl (fun s i => s.freeOne b (n / 4 * 4 + i)) s

/-- Entries of queues that the fibre alone has still to pop are free (R244). -/
def State.freePops (s : State) (b n : Nat) : State :=
  [0, 1, 2, 3, 4, 5].foldl (fun s q => if (s.queue (s.block b).core q).bound = some (b, n / 32) then s.freeEntries (s.block b).core q else s) s

theorem retireFibre_eq (s : State) (b n : Nat) : s.retireFibre b n =
    if (((s.retireOwn b n).freeQuad b n).freePops b n).liveInGang (b, n / 32) = [] then
      (((s.retireOwn b n).freeQuad b n).freePops b n).gangEnd (b, n / 32)
    else ((s.retireOwn b n).freeQuad b n).freePops b n := rfl

/-- Fibre `k` has retired, its slot now as `x` says, its empty registers zero and full; no other fibre's life has begun or ended. -/
structure Retires (k : FKey) (x : FStatus) (s t : State) : Prop where
  memory : SameMemory s t
  maxf : ∀ b, (t.block b).maxf = (s.block b).maxf
  others : ∀ m, m ≠ k → ((t.fib m).status = .live ↔ (s.fib m).status = .live)
  status : (t.fib k).status = x
  regs : (t.fib k).regs = (s.fib k).settleRegs.regs
  pop : (t.fib k).pop = none

theorem Retires.then {k : FKey} {x : FStatus} {s t u : State} (h : Retires k x s t) (hx : x ≠ .live) (h' : Spares k t u) : Retires k x s u := by
  obtain ⟨regs, pop⟩ := h'.own (by rw [h.status]; exact hx) h.pop
  exact ⟨h.memory.trans h'.memory, fun b => (h'.maxf b).trans (h.maxf b), fun m hm => by rw [h'.status]; exact h.others m hm,
    (h'.status k).trans h.status, regs.trans h.regs, pop⟩

section Retire
variable {s : State} {b n : Nat} (hp : (s.fib (.fib b n)).pop = none)
include hp

theorem retires_retireOwn : Retires (.fib b n) .helper s (s.retireOwn b n) := by
  have stays : s.unpop (.fib b n) = s := by unfold State.unpop; rw [hp]
  have fib : ∀ m, ((s.leaveCoach b n).cancelFills (.fib b n)).fib m = s.fib m := fun m => by
    unfold State.leaveCoach
    rw [stays]
    rfl
  have memory : SameMemory s ((s.leaveCoach b n).cancelFills (.fib b n)) := (leaveCoach_memory s b n).trans (.refl _)
  have blocks : ((s.leaveCoach b n).cancelFills (.fib b n)).blocks = s.blocks := leaveCoach_blocks s b n
  unfold State.retireOwn
  refine Retires.then ?_ nofun (spares_dropTraps _ _)
  generalize (s.leaveCoach b n).cancelFills (.fib b n) = u at fib memory blocks
  refine ⟨memory, fun x => ?_, fun m hm => ?_, ?_, ?_, ?_⟩
  · rw [State.updFib_block, State.block, blocks]; rfl
  · rw [State.updFib_fib_ne _ _ hm, fib]
  · rw [State.updFib_fib_same]
  · rw [State.updFib_fib_same, fib]
  · rw [State.updFib_fib_same, fib]; exact hp

omit hp in
theorem retires_freeOne {t : State} {x : FStatus} {m : Nat} (h : Retires (.fib b n) x s t) (hx : x ≠ .live)
    (hm : (t.fib (.fib b m)).status ≠ .live) :
    Retires (.fib b n) (if m = n then .free else x) s (t.freeOne b m) := by
  have left := h.then hx (spares_leaveCoach t b m)
  have dead : ((t.leaveCoach b m).fib (.fib b m)).status ≠ .live := by rw [(spares_leaveCoach (k := .fib b n) t b m).status]; exact hm
  unfold State.freeOne
  generalize t.leaveCoach b m = u at left dead
  refine ⟨left.memory, left.maxf, fun y hy => ?_, ?_, ?_, ?_⟩
  · rw [← left.others y hy, State.updFib_fib]
    split
    · next e => rw [e]; simp [dead]
    · rfl
  · split
    · next e => rw [e, State.updFib_fib_same]
    · next e => rw [State.updFib_fib_ne _ _ (by simpa using Ne.symm e)]; exact left.status
  · rw [← left.regs, State.updFib_fib]
    split
    · next e => rw [e]
    · rfl
  · rw [State.updFib_fib]
    split
    · next e => rw [← e]; exact left.pop
    · exact left.pop

end Retire

theorem quadLeader_isSome {s : State} {b n : Nat} :
    (s.quadLeader b n).isSome = true ↔ ∃ m, m / 4 = n / 4 ∧ (s.fib (.fib b m)).status = .live := by
  constructor
  · intro h
    obtain ⟨m, hm⟩ := Option.isSome_iff_exists.1 h
    obtain ⟨i, hi, rfl⟩ := List.mem_map.1 (List.mem_of_find?_eq_some hm)
    exact ⟨n / 4 * 4 + i, by have := List.mem_range.1 hi; omega, by simpa using List.find?_some hm⟩
  · rintro ⟨m, hq, hl⟩
    rw [← Option.not_isNone, Bool.not_eq_true', ← Bool.not_eq_true, Option.isNone_iff_eq_none]
    exact fun none => quadLeader_none none hq hl

/-- The slots of a quad none of whose fibres lives are freed, that of the retired fibre among them. -/
theorem retires_freeQuad {s t : State} {b n : Nat} (h : Retires (.fib b n) .helper s t) :
    Retires (.fib b n) (if (t.quadLeader b n).isSome = true then .helper else .free) s (t.freeQuad b n) := by
  unfold State.freeQuad
  cases hm : t.quadLeader b n with
  | some m => exact h
  | none =>
    have step : ∀ {u : State} {x : FStatus} (i : Nat), i < 4 → x ≠ .live → Retires (.fib b n) x s u →
        Retires (.fib b n) (if n / 4 * 4 + i = n then .free else x) s (u.freeOne b (n / 4 * 4 + i)) := fun {u x} i hi hx hu => by
      refine retires_freeOne hu hx ?_
      by_cases e : n / 4 * 4 + i = n
      · rw [e, hu.status]; exact hx
      · have ne : FKey.fib b (n / 4 * 4 + i) ≠ .fib b n := by simpa using e
        rw [Ne, hu.others _ ne, ← h.others _ ne]
        exact quadLeader_none (n := n / 4 * 4 + i) hm (by omega)
    have stays : ∀ {c : Prop} [Decidable c] {x : FStatus}, x ≠ .live → (if c then FStatus.free else x) ≠ .live := fun {c} _ {x} hx => by
      split
      · exact nofun
      · exact hx
    have helper : FStatus.helper ≠ .live := nofun
    have r0 := step 0 (by omega) helper h
    have r1 := step 1 (by omega) (stays helper) r0
    have r2 := step 2 (by omega) (stays (stays helper)) r1
    have r3 := step 3 (by omega) (stays (stays (stays helper))) r2
    have status : (if n / 4 * 4 + 3 = n then FStatus.free else if n / 4 * 4 + 2 = n then .free else if n / 4 * 4 + 1 = n then .free else
        if n / 4 * 4 + 0 = n then .free else .helper) = .free := by
      split_ifs
      all_goals first | rfl | omega
    rw [status] at r3
    exact r3

/-- The status of the slot of a retired fibre (R156). -/
def State.leftStatus (s : State) (b n : Nat) : FStatus :=
  if (s.liveSlots b).any (fun m => decide (m ≠ n ∧ m / 4 = n / 4)) then .helper else .free

theorem mem_liveSlots {s : State} {b m : Nat} : m ∈ s.liveSlots b ↔ m ∈ (s.block b).slotNos ∧ (s.fib (.fib b m)).status = .live := by
  simp [State.liveSlots]

/-- The slots of a block come in whole quads. -/
theorem mem_slotNos_quad {x : Block} {m n : Nat} (h : n ∈ x.slotNos) (hq : m / 4 = n / 4) : m ∈ x.slotNos := by
  unfold Block.slotNos at *
  rw [List.mem_range] at *
  omega

theorem leftStatus_eq {s t : State} {b n : Nat} {x : FStatus} (h : Retires (.fib b n) x s t) (hx : x ≠ .live) (hn : n ∈ (s.block b).slotNos) :
    (if (t.quadLeader b n).isSome = true then FStatus.helper else .free) = s.leftStatus b n := by
  have same : (t.quadLeader b n).isSome = true ↔ (s.liveSlots b).any (fun m => decide (m ≠ n ∧ m / 4 = n / 4)) = true := by
    rw [quadLeader_isSome, List.any_eq_true]
    constructor
    · rintro ⟨m, hq, hl⟩
      have ne : m ≠ n := fun e => hx (by rw [← h.status, ← e]; exact hl)
      exact ⟨m, mem_liveSlots.2 ⟨mem_slotNos_quad hn hq, (h.others (.fib b m) (by simp [ne])).1 hl⟩, by simp [ne, hq]⟩
    · rintro ⟨m, hm, ne⟩
      obtain ⟨ne, hq⟩ : m ≠ n ∧ m / 4 = n / 4 := by simpa using ne
      exact ⟨m, hq, (h.others (.fib b m) (by simp [ne])).2 (mem_liveSlots.1 hm).2⟩
  unfold State.leftStatus
  simp only [same]

theorem leftStatus_ne (s : State) (b n : Nat) : s.leftStatus b n ≠ .live := by
  unfold State.leftStatus
  split <;> exact nofun

theorem retires_retireFibre {s : State} {b n : Nat} (hp : (s.fib (.fib b n)).pop = none) (hn : n ∈ (s.block b).slotNos) :
    Retires (.fib b n) (s.leftStatus b n) s (s.retireFibre b n) := by
  have own := retires_retireOwn hp
  have quad := retires_freeQuad own
  rw [leftStatus_eq own nofun hn] at quad
  have pops : Retires (.fib b n) (s.leftStatus b n) s (((s.retireOwn b n).freeQuad b n).freePops b n) := by
    refine quad.then (leftStatus_ne s b n) ?_
    unfold State.freePops
    generalize [0, 1, 2, 3, 4, 5] = qs
    refine spares_foldl (fun u q => ?_) qs _
    split
    · exact spares_freeEntries u _ q
    · exact .refl u
  rw [retireFibre_eq]
  split
  · exact pops.then (leftStatus_ne s b n) (spares_gangEnd _ _)
  · exact pops

/-! ### END -/

/-- END of one agent: its fibre retires, its run ends, and what its absence completes follows. -/
theorem execEnd_one {s : State} {b n : Nat} (h : s.Ready .endF (.fib b n)) :
    exec .endF s = .next ((((((s.noted1 .endF (.fib b n)).retireFibre b n).dropLines [.fib b n]).updFib (.fib b n)
      fun f => { f with pc := ((s.noted1 .endF (.fib b n)).fib (.fib b n)).pc }).endRun).afterEnd b (n / 32)) := by
  have live : (s.noted1 .endF (.fib b n)).isHelper (.fib b n) = false := by rw [(notesOnly_noted1 s .endF (.fib b n)).isHelper, h.live]
  show execEnd s = _
  unfold execEnd
  refine (issue_ending (v := (s.noted1 .endF (.fib b n)).retireFibre b n) h rfl rfl (onLive_one live _)).trans ?_
  rw [gangsOf_one]
  rfl

theorem liveSlots_of_retires {s t : State} {b n : Nat} {x : FStatus} (h : Retires (.fib b n) x s t) (hx : x ≠ .live) :
    t.liveSlots b = (s.liveSlots b).filter (· ≠ n) := by
  have slots : (t.block b).slotNos = (s.block b).slotNos := by unfold Block.slotNos; rw [h.maxf]
  unfold State.liveSlots
  rw [slots, List.filter_filter]
  refine List.filter_congr fun m _ => ?_
  by_cases e : m = n
  · subst e; simp [h.status, hx]
  · have := h.others (.fib b m) (by simp [e])
    simp [e, this]

/-- R156, R181: END retires its fibre. -/
theorem endRetires : Claims.EndRetires := by
  unfold Claims.EndRetires
  intro s b n h hn hp
  have run := execEnd_one h
  have notes := notesOnly_noted1 s .endF (.fib b n)
  generalize s.noted1 .endF (.fib b n) = u at run notes
  have left : u.leftStatus b n = s.leftStatus b n := by rw [notes]; rfl
  have slot : n ∈ (u.block b).slotNos := by rw [notes.kept.block]; exact (mem_liveSlots.1 hn).1
  have retires := retires_retireFibre (s := u) (by rw [notes.fib]; exact hp) slot
  rw [left] at retires
  have dead := leftStatus_ne s b n
  have moved := (retires.then dead (spares_dropLines _ [.fib b n])).then dead
    (spares_updFib _ (.fib b n) (f := fun f => { f with pc := (u.fib (.fib b n)).pc }) fun _ => ⟨rfl, rfl, rfl⟩)
  have ended := (moved.then dead (spares_endRun _)).then dead (spares_afterEnd _ b (n / 32))
  refine ⟨_, run, notes.backstage.memory.trans ended.memory, ?_, ended.status, ?_⟩
  · rw [liveSlots_of_retires ended dead]
    congr 1
    rw [notes]; rfl
  · rw [ended.regs, notes.fib]

/-- Settles O20: FORK creates a fibre or answers that it could not, and END retires one. -/
theorem fibreLife : Obligations.FibreLife := ⟨forkCreates, endRetires⟩

end Sys2Proof.Machine
end

section
/-!
PROOFS. LAUNCH with a SIG ticket that cannot be stored: the refusal may stop the whole launch, so other fibres do change (R123, R143, R404).
-/

namespace Sys2Proof.Machine

/-! ### The state

Page 3 of partition 0 lies on device 5, to which the route table at reset has no path. The record of the launch stands there and has been
read for the LAUNCH line by line; its SIG is valid, so its ticket has to be stored there too. -/

/-- The registers of the fibre that launches: the record's address in v20, queue 0 in v13. -/
def launcherRegs : Map Nat RegCell := [(13, { val := 0 }), (20, { val := 0x30000 }), (21, { val := 0 }), (30, { val := 0 }), (31, { val := 0 })]

/-- A launch record of one block of two fibres, whose SIG names context 0 of core 0 (R140, R143). -/
def signedRecord : List Byte :=
  toBytes 8 0x100 ++ toBytes 12 (1 + 2 ^ 32 + 2 ^ 64) ++ toBytes 4 (2 + 4 * 2 ^ 16) ++ toBytes 4 64 ++ toBytes 4 1024 ++
    List.replicate 0x53 0 ++ [1] ++ List.replicate 140 0

/-- Page 3 of partition 0: writable, on device 5 (R273). -/
def farPage : Tlb := { part := 0, base := 0x30000, size := 16, pte := BitVec.ofNat 64 (5 * 2 ^ 53 + 0x300CF) }

/-- Two fibres of a block; the first one has the turn. The core's cart-fault record is full (R123). -/
def fullRecord : State :=
  { State.reset with
    bootstat := 0x41
    tlb1 := [(0, [farPage])]
    partitions := [(0, { cfg := 0xE000000000000001 })]
    blocks := [(0, { lid := 1, core := 0, fibres := 2, maxf := 4, regs := 64, scratch := 1024, roles := 0, units := List.range 8, order := 1 })]
    fibres := [(.fib 0 0, { pc := 0x100, p := 0x2, regs := launcherRegs }), (.fib 0 1, { pc := 0x100, p := 0x2 })]
    pipes := [(0, { block := 0, members := [0] })]
    cores := [(0, { cartFaults := List.replicate 16 { block := 0, gang := 0, lane := 0, addr := 0, code := 0x40 } })]
    lineBuf := [(.fib 0 0, 6 * 2 ^ 37 + 0x600, 0, signedRecord.take 128), (.fib 0 0, 6 * 2 ^ 37 + 0x601, 0, signedRecord.drop 128)]
    agent := some (.coach 0 0) }

def launchOperands : R3 := { wa := false, wb := false, d := .v 30, a := .v 20, b := .v 13 }

/-! ### The step -/

theorem fullRecord_ready : fullRecord.Ready (.launch launchOperands) (.fib 0 0) :=
  ⟨by decide +kernel, by decide +kernel, by decide +kernel, by decide +kernel⟩

theorem fullRecord_launchCheck :
    launchCheck launchOperands (fullRecord.reading (.launch launchOperands)) (.fib 0 0) = .go := by decide +kernel

theorem fullRecord_readRecord : (fullRecord.reading (.launch launchOperands)).readRecord (.fib 0 0) (.launch launchOperands)
    (fullRecord.src64 (.fib 0 0) launchOperands.a) = .ok (signedRecord, none) := by decide +kernel

theorem fullRecord_queueNamed : fullRecord.queueNamed (.fib 0 0) (fullRecord.src32 (.fib 0 0) launchOperands.b).toNat = some (0, 0) := by
  decide +kernel

theorem fullRecord_judge : fullRecord.judge 0 0 signedRecord false = none := by decide +kernel

/-- Before the step the second fibre is ready. -/
theorem fullRecord_second_ready : (fullRecord.fib (.fib 0 1)).wait = .ready := by decide +kernel

/-- The wait of a fibre where a step goes on. -/
def waitAfter (o : Out) (k : FKey) : Option Wait :=
  match o with
  | .next t => some (t.fib k).wait
  | _ => none

/-- SIG's store is refused with UNREACH; with the record full that is a launch error, which stops the second fibre too. -/
theorem fullRecord_second_dead : waitAfter (exec (.launch launchOperands) fullRecord) (.fib 0 1) = some .dead := by decide +kernel

/-! ### The refutation -/

/-- A launch whose record passes its checks does not always leave the other fibres as they were. -/
theorem not_launchWords : ¬ Claims.LaunchWords := by
  rintro ⟨hlaunch, -⟩
  obtain ⟨t, hstep, -, hout⟩ := hlaunch launchOperands fullRecord (.fib 0 0) signedRecord fullRecord_ready fullRecord_launchCheck
    fullRecord_readRecord
  simp only [fullRecord_queueNamed, fullRecord_judge] at hout
  obtain ⟨hothers, -⟩ := hout
  have hsame : t.fib (.fib 0 1) = fullRecord.fib (.fib 0 1) := hothers (.fib 0 1) (by decide)
  have hdead : some (t.fib (.fib 0 1)).wait = some .dead := by
    simpa only [hstep, waitAfter] using fullRecord_second_dead
  rw [hsame, fullRecord_second_ready] at hdead
  exact absurd hdead (by decide)

/-- Refutes O47: `OthersSame` is claimed of every accepted launch, but where its SIG stands on a device that is not reached and the core's
cart-fault record is full, the refused store of the ticket is a launch error, and every fibre of the launching block stops. -/
theorem not_launches : ¬ Obligations.Launches := fun h => not_launchWords h.1

end Sys2Proof.Machine
end

section
/-!
PROOFS. Values of the integer words (R166 to R169, R171, R198): what the model computes on bit vectors is what the spec's tables say in whole
numbers.
-/

namespace Sys2Proof.Machine

/-! ### Whole numbers as results (R166) -/

theorem ofInt_toNat {w : Nat} (a : BitVec w) : BitVec.ofInt w a.toNat = a := by
  rw [BitVec.ofInt_natCast, BitVec.ofNat_toNat, BitVec.setWidth_eq]

theorem ofInt_sub {w : Nat} (x y : Int) : BitVec.ofInt w (x - y) = BitVec.ofInt w x - BitVec.ofInt w y := by
  rw [Int.sub_eq_add_neg, BitVec.ofInt_add, BitVec.ofInt_neg, BitVec.sub_eq_add_neg]

/-- A product by a power of two is a shift (R168, R170, R171). -/
theorem ofInt_shiftLeft {w : Nat} (a : BitVec w) (n : Nat) : BitVec.ofInt w (a.toNat * 2 ^ n) = a <<< n := by
  refine BitVec.eq_of_toNat_eq ?_
  rw [BitVec.toNat_shiftLeft, Nat.shiftLeft_eq, ← BitVec.toNat_ofNat, ← BitVec.ofInt_natCast]
  push_cast; rfl

/-- A quotient by a power of two is a shift with zero fill (R168, R170, R171). -/
theorem ofInt_ushiftRight {w : Nat} (a : BitVec w) (n : Nat) : BitVec.ofInt w (a.toNat / 2 ^ n) = a >>> n := by
  refine BitVec.eq_of_toNat_eq ?_
  have h : a.toNat / 2 ^ n < 2 ^ w := Nat.lt_of_le_of_lt (Nat.div_le_self _ _) a.isLt
  rw [BitVec.toNat_ushiftRight, Nat.shiftRight_eq_div_pow, ← Nat.mod_eq_of_lt h, ← BitVec.toNat_ofNat, ← BitVec.ofInt_natCast]
  push_cast; rfl

theorem wrap_natCast (n : Nat) : wrap n = BitVec.ofNat 32 n := BitVec.ofInt_natCast 32 n
theorem wrap_toNat (a : W32) : wrap a.toNat = a := ofInt_toNat a
theorem wrap_toInt (a : W32) : wrap a.toInt = a := BitVec.ofInt_toInt
theorem wrap_add (x y : Int) : wrap (x + y) = wrap x + wrap y := BitVec.ofInt_add x y
theorem wrap_mul (x y : Int) : wrap (x * y) = wrap x * wrap y := BitVec.ofInt_mul x y
theorem wrap_sub (x y : Int) : wrap (x - y) = wrap x - wrap y := ofInt_sub x y
theorem wrap_shiftLeft (a : W32) (n : Nat) : wrap (a.toNat * 2 ^ n) = a <<< n := ofInt_shiftLeft a n
theorem wrap_ushiftRight (a : W32) (n : Nat) : wrap (a.toNat / 2 ^ n) = a >>> n := ofInt_ushiftRight a n

/-- The floor of the quotient of a signed number is a shift with sign fill (R168, R171). -/
theorem floorShift_eq (a : W32) (n : Nat) : floorShift a n = a.sshiftRight n := by
  rw [floorShift, ← wrap_toInt (a.sshiftRight n), BitVec.toInt_sshiftRight, Int.shiftRight_eq_div_pow]
  push_cast; rfl

/-! ### IALU.A and IALU.B (R167, R168) -/

theorem and_value (a b : W32) : BitVec.ofNat 32 (a.toNat &&& b.toNat) = a &&& b := by
  rw [← BitVec.toNat_and, BitVec.ofNat_toNat, BitVec.setWidth_eq]

theorem or_value (a b : W32) : BitVec.ofNat 32 (a.toNat ||| b.toNat) = a ||| b := by
  rw [← BitVec.toNat_or, BitVec.ofNat_toNat, BitVec.setWidth_eq]

theorem xor_value (a b : W32) : BitVec.ofNat 32 (a.toNat ^^^ b.toNat) = a ^^^ b := by
  rw [← BitVec.toNat_xor, BitVec.ofNat_toNat, BitVec.setWidth_eq]

theorem andn_value (a b : W32) : BitVec.ofNat 32 (a.toNat &&& (2 ^ 32 - 1 - b.toNat)) = a &&& ~~~b := by
  refine BitVec.eq_of_toNat_eq ?_
  rw [BitVec.toNat_and, BitVec.toNat_not, BitVec.toNat_ofNat, Nat.mod_eq_of_lt (Nat.lt_of_le_of_lt Nat.and_le_left a.isLt)]

theorem minS_eq (a b : W32) : minS a b = if a.toInt ≤ b.toInt then a else b := by
  simp only [minS, BitVec.slt_iff_toInt_lt]
  split
  · rw [if_pos (by omega)]
  · split
    · exact (BitVec.eq_of_toInt_eq (by omega)).symm
    · rfl

theorem maxS_eq (a b : W32) : maxS a b = if a.toInt ≤ b.toInt then b else a := by
  simp only [maxS, BitVec.slt_iff_toInt_lt]
  split
  · rw [if_pos (by omega)]
  · split
    · exact BitVec.eq_of_toInt_eq (by omega)
    · rfl

theorem minU_eq (a b : W32) : minU a b = if a.toNat ≤ b.toNat then a else b := by
  simp only [minU, BitVec.ult_iff_toNat_lt]
  split
  · rw [if_pos (by omega)]
  · split
    · exact (BitVec.eq_of_toNat_eq (by omega)).symm
    · rfl

theorem maxU_eq (a b : W32) : maxU a b = if a.toNat ≤ b.toNat then b else a := by
  simp only [maxU, BitVec.ult_iff_toNat_lt]
  split
  · rw [if_pos (by omega)]
  · split
    · exact BitVec.eq_of_toNat_eq (by omega)
    · rfl

theorem min_value (a b : W32) : wrap (min a.toInt b.toInt) = minS a b := by
  rw [minS_eq, min_def, apply_ite wrap, wrap_toInt, wrap_toInt]

theorem max_value (a b : W32) : wrap (max a.toInt b.toInt) = maxS a b := by
  rw [maxS_eq, max_def, apply_ite wrap, wrap_toInt, wrap_toInt]

theorem minn_value (a b : W32) : wrap (min a.toNat b.toNat) = minU a b := by
  simp only [minU_eq, min_def, apply_ite wrap, wrap_toNat, Int.ofNat_le]

theorem maxn_value (a b : W32) : wrap (max a.toNat b.toNat) = maxU a b := by
  simp only [maxU_eq, max_def, apply_ite wrap, wrap_toNat, Int.ofNat_le]

theorem sar_value (a b : W32) :
    (if 32 ≤ b.toNat then (if a.toInt < 0 then 0xFFFFFFFF else 0) else floorShift a b.toNat) = sar32 a b := by
  have h : a.toInt < 0 ↔ a.msb = true := by rw [BitVec.msb_eq_toInt, decide_eq_true_iff]
  simp only [sar32, h, floorShift_eq]

theorem rol_value (a b : W32) : wrap (a.toNat * 2 ^ (b.toNat % 32) + a.toNat / 2 ^ (32 - b.toNat % 32)) = rol32 a b := by
  have hr : b.toNat % 32 < 32 := Nat.mod_lt _ (by decide)
  have hd : a <<< (b.toNat % 32) &&& a >>> (32 - b.toNat % 32) = 0#32 := by
    ext i hi
    simp only [BitVec.getElem_and, BitVec.getElem_shiftLeft, BitVec.getElem_ushiftRight, BitVec.getElem_zero]
    by_cases h : i < b.toNat % 32
    · simp [h]
    · simp [BitVec.getLsbD_of_ge a (32 - b.toNat % 32 + i) (by omega)]
  rw [wrap_add, wrap_shiftLeft, wrap_ushiftRight, BitVec.add_eq_or_of_and_eq_zero _ _ hd, rol32, BitVec.rotateLeft_def, Nat.mod_mod]

theorem absd_value (a b : W32) : wrap (if a.toInt ≤ b.toInt then b.toInt - a.toInt else a.toInt - b.toInt) = absd32 a b := by
  rw [absd32, ← wrap_natCast]
  congr 1
  split <;> omega

theorem bfPos_eq (b : W32) : bfPos b = fieldPos b := by simp [bfPos, bits, fieldPos]

theorem bfLen_eq (b : W32) : bfLen b = fieldLen b := by simp [bfLen, bits, fieldLen, bfPos_eq]

theorem bfe_value (a b : W32) : wrap (a.toNat / 2 ^ fieldPos b % 2 ^ fieldLen b) = bfe32 a b := by
  rw [bfe32, bfPos_eq, bfLen_eq, ← wrap_natCast]; push_cast; rfl

/-! ### IALU.C (R169) -/

/-- The upper half of a 64-bit product (R169). -/
theorem wrap_upper_half (x : Int) : wrap (x / 2 ^ 32) = ((BitVec.ofInt 64 x) >>> 32).setWidth 32 := by
  refine BitVec.eq_of_toNat_eq ?_
  simp only [wrap, BitVec.toNat_ofInt, BitVec.toNat_setWidth, BitVec.toNat_ushiftRight, Nat.shiftRight_eq_div_pow]
  omega

theorem mulh_value (a b : W32) : wrap (a.toInt * b.toInt / 2 ^ 32) = mulhS a b := by
  rw [wrap_upper_half, BitVec.ofInt_mul]; rfl

theorem mulhn_value (a b : W32) : wrap (a.toNat * b.toNat / 2 ^ 32) = mulhU a b := by
  rw [wrap_upper_half, BitVec.ofInt_mul, BitVec.ofInt_natCast, BitVec.ofInt_natCast, BitVec.ofNat_toNat, BitVec.ofNat_toNat]; rfl

/-- What the mask of BFI keeps: the field of `n` bits at `p`, in its place (R169). -/
theorem and_fieldMask (x : W32) (p n : Nat) :
    x &&& BitVec.ofNat 32 ((2 ^ n - 1) * 2 ^ p) = wrap (x.toNat / 2 ^ p % 2 ^ n * 2 ^ p) := by
  have e : wrap (x.toNat / 2 ^ p % 2 ^ n * 2 ^ p) = BitVec.ofNat 32 (x.toNat / 2 ^ p % 2 ^ n * 2 ^ p) := by
    rw [← wrap_natCast]; push_cast; rfl
  rw [e]
  refine BitVec.eq_of_getLsbD_eq fun i hi => ?_
  simp only [BitVec.getLsbD_and, BitVec.getLsbD_ofNat, Nat.testBit_mul_two_pow, Nat.testBit_mod_two_pow, Nat.testBit_div_two_pow,
    Nat.testBit_two_pow_sub_one, BitVec.testBit_toNat]
  by_cases hp : p ≤ i
  · simp [hp, hi, Bool.and_comm]
  · simp [hp]

/-- What BFI inserts: the low bits of a, in the field's place (R169). -/
theorem shiftLeft_and_fieldMask (a : W32) (p n : Nat) :
    a <<< p &&& BitVec.ofNat 32 ((2 ^ n - 1) * 2 ^ p) = wrap (a.toNat % 2 ^ n * 2 ^ p) := by
  have e : wrap (a.toNat % 2 ^ n * 2 ^ p) = BitVec.ofNat 32 (a.toNat % 2 ^ n * 2 ^ p) := by rw [← wrap_natCast]; push_cast; rfl
  rw [e]
  refine BitVec.eq_of_getLsbD_eq fun i hi => ?_
  simp only [BitVec.getLsbD_and, BitVec.getLsbD_shiftLeft, BitVec.getLsbD_ofNat, Nat.testBit_mul_two_pow, Nat.testBit_mod_two_pow,
    Nat.testBit_two_pow_sub_one, BitVec.testBit_toNat]
  by_cases hp : p ≤ i
  · simp [hp, hi, Nat.not_lt.mpr hp, Bool.and_comm]
  · simp [hp]

/-- Bits outside a mask and bits inside it add up to the word. -/
theorem and_not_eq_sub (d m : W32) : d &&& ~~~m = d - (d &&& m) := by
  have h : (d &&& ~~~m) &&& (d &&& m) = 0#32 := by ext i; simp; tauto
  have e : d &&& ~~~m ||| d &&& m = d := by
    ext i hi
    cases hm : m[i] <;> simp [hm]
  exact BitVec.eq_sub_iff_add_eq.mpr ((BitVec.add_eq_or_of_and_eq_zero _ _ h).trans e)

theorem bfi_value (a b d : W32) :
    wrap (d.toNat - d.toNat / 2 ^ fieldPos b % 2 ^ fieldLen b * 2 ^ fieldPos b + a.toNat % 2 ^ fieldLen b * 2 ^ fieldPos b) = bfi32 a b d := by
  have h : ∀ m : W32, (d &&& ~~~m) &&& ((a <<< fieldPos b) &&& m) = 0#32 := fun m => by ext i; simp; tauto
  rw [wrap_add, wrap_sub, wrap_toNat, ← and_fieldMask, ← shiftLeft_and_fieldMask, ← and_not_eq_sub,
    BitVec.add_eq_or_of_and_eq_zero _ _ (h _), bfi32, bfPos_eq, bfLen_eq]

/-! ### One source (R169) -/

theorem length_filter_eq_sum {α : Type} (p : α → Bool) (l : List α) : (l.filter p).length = (l.map fun i => if p i then 1 else 0).sum := by
  induction l with
  | nil => rfl
  | cons i l ih => by_cases h : p i = true <;> simp [h, ih, Nat.add_comm]

theorem popc_value (a : W32) : BitVec.ofNat 32 (oneBits a) = popc32 a := by
  rw [oneBits, popc32, length_filter_eq_sum]

/-- The bits of a number below `n`, each with its weight, add up to the number modulo 2^n. -/
theorem sum_bits (x n : Nat) : ((List.range n).map fun i => if x.testBit i then 2 ^ i else 0).sum = x % 2 ^ n := by
  induction n with
  | zero => simp [Nat.mod_one]
  | succ n ih =>
    rw [List.range_succ, List.map_append, List.sum_append, ih, Nat.mod_pow_succ, List.map_singleton, List.sum_singleton,
      Nat.testBit_eq_decide_div_mod_eq]
    rcases Nat.mod_two_eq_zero_or_one (x / 2 ^ n) with e | e <;> simp [e]

/-- The bits of a in reverse, from the lowest of the result up. -/
theorem mirrored_bits (a : W32) : (List.range 32).map ((fun i => if a.getLsbD i then 2 ^ (31 - i) else 0) ∘ fun i => 31 - i) =
    (List.range 32).map fun i => if a.reverse.toNat.testBit i then 2 ^ i else 0 := by
  refine List.map_congr_left fun i hi => ?_
  have hi := List.mem_range.mp hi
  rw [Function.comp_apply, BitVec.testBit_toNat, BitVec.getLsbD_reverse, BitVec.getMsbD, show 31 - (31 - i) = i by omega]
  simp [hi]

theorem brev_value (a : W32) : mirrored a = brev32 a := by
  have hl : List.range 32 = ((List.range 32).map fun i => 31 - i).reverse := by decide
  rw [mirrored, wrap_natCast, hl, List.map_reverse, List.sum_reverse, List.map_map, mirrored_bits, sum_bits,
    Nat.mod_eq_of_lt (BitVec.isLt _), BitVec.ofNat_toNat, BitVec.setWidth_eq, brev32]

theorem length_takeWhile_range {p : Nat → Bool} {k n : Nat} (hk : k < n) (hp : ∀ i < k, p i = true) (hn : p k = false) :
    ((List.range n).takeWhile p).length = k := by
  obtain ⟨m, rfl⟩ := Nat.exists_eq_add_of_lt hk
  rw [Nat.add_assoc, List.range_add, List.range_succ_eq_map, List.takeWhile_append_of_pos (by simpa using hp)]
  simp [hn]

theorem clz_value (a : W32) : BitVec.ofNat 32 (leadingZeros a) = clz32 a := by
  rw [leadingZeros, clz32]
  split
  next h => subst h; decide
  next h =>
    have h0 : a.toNat ≠ 0 := fun e => h (BitVec.eq_of_toNat_eq e)
    have hl : Nat.log2 a.toNat < 32 := (Nat.log2_lt h0).mpr a.isLt
    congr 1
    refine length_takeWhile_range (by omega) (fun i hi => ?_) ?_
    · have : a.toNat < 2 ^ (31 - i) := (Nat.log2_lt h0).mp (by omega)
      rw [← BitVec.testBit_toNat, Nat.testBit_lt_two_pow this, Bool.not_false]
    · rw [← BitVec.testBit_toNat, show 31 - (31 - Nat.log2 a.toNat) = Nat.log2 a.toNat by omega, Nat.testBit_log2 h0, Bool.not_true]

end Sys2Proof.Machine
end

section
/-!
PROOFS. Words that compute on registers only: what each row of R167 to R176, R196 to R205 and R213 writes, said once, and the statements
about their results.
-/

namespace Sys2Proof.Machine

/-- `i` computes on registers only: a member for which it goes on writes what `lane` says, and nothing that the memory model
remembers enters into it. -/
structure Computes (i : Instr) (lane : State → FKey → List Wr) : Prop where
  exec_eq : ∀ s, exec i s = compute i s lane
  runs_on : i.runEnding = false
  blind : ∀ s v q k, lane { s with veil := v, missQ := q } k = lane s k

theorem intRow_computes {i : Instr} {o : R3} {f : W32 → W32 → W32 → W32} (h : intRow i = some (o, f)) :
    Computes i fun s k => [.reg o.d (f (s.src32 k o.a) (s.src32 k o.b (if o.a = o.b then 1 else 0)) (s.src32 k o.d))] := by
  cases i with
  | add => cases h; exact ⟨fun _ => by simp only [wrap_add, wrap_toNat]; rfl, rfl, fun _ _ _ _ => rfl⟩
  | sub => cases h; exact ⟨fun _ => by simp only [wrap_sub, wrap_toNat]; rfl, rfl, fun _ _ _ _ => rfl⟩
  | and => cases h; exact ⟨fun _ => by simp only [and_value]; rfl, rfl, fun _ _ _ _ => rfl⟩
  | or => cases h; exact ⟨fun _ => by simp only [or_value]; rfl, rfl, fun _ _ _ _ => rfl⟩
  | xor => cases h; exact ⟨fun _ => by simp only [xor_value]; rfl, rfl, fun _ _ _ _ => rfl⟩
  | andn => cases h; exact ⟨fun _ => by simp only [andn_value]; rfl, rfl, fun _ _ _ _ => rfl⟩
  | min => cases h; exact ⟨fun _ => by simp only [min_value]; rfl, rfl, fun _ _ _ _ => rfl⟩
  | max => cases h; exact ⟨fun _ => by simp only [max_value]; rfl, rfl, fun _ _ _ _ => rfl⟩
  | minn => cases h; exact ⟨fun _ => by simp only [minn_value]; rfl, rfl, fun _ _ _ _ => rfl⟩
  | maxn => cases h; exact ⟨fun _ => by simp only [maxn_value]; rfl, rfl, fun _ _ _ _ => rfl⟩
  | shl => cases h; exact ⟨fun _ => by simp only [wrap_shiftLeft]; rfl, rfl, fun _ _ _ _ => rfl⟩
  | shr => cases h; exact ⟨fun _ => by simp only [wrap_ushiftRight]; rfl, rfl, fun _ _ _ _ => rfl⟩
  | sar => cases h; exact ⟨fun _ => by simp only [sar_value]; rfl, rfl, fun _ _ _ _ => rfl⟩
  | rol => cases h; exact ⟨fun _ => by simp only [rol_value]; rfl, rfl, fun _ _ _ _ => rfl⟩
  | absd => cases h; exact ⟨fun _ => by simp only [absd_value]; rfl, rfl, fun _ _ _ _ => rfl⟩
  | bfe => cases h; exact ⟨fun _ => by simp only [bfe_value]; rfl, rfl, fun _ _ _ _ => rfl⟩
  | mul => cases h; exact ⟨fun _ => by simp only [wrap_mul, wrap_toNat]; rfl, rfl, fun _ _ _ _ => rfl⟩
  | mulh => cases h; exact ⟨fun _ => by simp only [mulh_value]; rfl, rfl, fun _ _ _ _ => rfl⟩
  | mulhn => cases h; exact ⟨fun _ => by simp only [mulhn_value]; rfl, rfl, fun _ _ _ _ => rfl⟩
  | mad => cases h; exact ⟨fun _ => by simp only [wrap_add, wrap_mul, wrap_toNat]; rfl, rfl, fun _ _ _ _ => rfl⟩
  | bfi => cases h; exact ⟨fun _ => by simp only [bfi_value]; rfl, rfl, fun _ _ _ _ => rfl⟩
  | _ => cases h

/-- A word with one 32-bit destination. -/
theorem Computes.holds32 {i : Instr} {d : Reg} {val : State → FKey → W32} (c : Computes i fun s k => [.reg d (val s k)]) {s : State}
    {ks : List FKey} (h : s.Proceeds i noCheck ks) : ∃ t, exec i s = .next t ∧
      ∀ k, s.Performs i noCheck ks k → Holds32 s t k d (val s k) ∧ (s.isHelper k = false → (t.fib k).pc = (s.fib k).pc + 4) := by
  rw [c.exec_eq]
  exact compute_holds32 h c.runs_on d val fun s v q k => by simpa using c.blind s v q k

/-- A word with one 64-bit destination. -/
theorem Computes.holds64 {i : Instr} {d : Reg} {val : State → FKey → W64} (c : Computes i fun s k => [.wide d (val s k)]) {s : State}
    {ks : List FKey} (h : s.Proceeds i noCheck ks) : ∃ t, exec i s = .next t ∧
      ∀ k, s.Performs i noCheck ks k → Holds64 s t k d (val s k) ∧ (s.isHelper k = false → (t.fib k).pc = (s.fib k).pc + 4) := by
  rw [c.exec_eq]
  exact compute_holds64 h c.runs_on d val fun s v q k => by simpa using c.blind s v q k

/-- A word with a predicate destination. -/
theorem Computes.pred {i : Instr} {p : Pred} {val : State → FKey → Bool} (c : Computes i fun s k => [.pred p (val s k)]) {s : State}
    {ks : List FKey} (h : s.Proceeds i noCheck ks) : ∃ t, exec i s = .next t ∧
      ∀ k, s.Performs i noCheck ks k → t.pred k p = val s k ∧ (s.isHelper k = false → (t.fib k).pc = (s.fib k).pc + 4) := by
  rw [c.exec_eq]
  exact compute_pred h c.runs_on p val fun s v q k => by simpa using c.blind s v q k

theorem integerResults : Claims.IntegerResults := fun _ _ _ h _ _ hs => (intRow_computes h).holds32 hs

theorem shli_value (a : W32) (n : BitVec 9) : wrap (a.toNat * 2 ^ n.toNat) = shl32 a (n.setWidth 32) := by
  have hn : n.toNat % 2 ^ 32 = n.toNat := Nat.mod_eq_of_lt (by omega)
  rw [wrap_shiftLeft, shl32, BitVec.toNat_setWidth, hn]
  split
  next h => exact BitVec.shiftLeft_eq_zero h
  next h => rfl

theorem shri_value (a : W32) (n : BitVec 9) : wrap (a.toNat / 2 ^ n.toNat) = shr32 a (n.setWidth 32) := by
  have hn : n.toNat % 2 ^ 32 = n.toNat := Nat.mod_eq_of_lt (by omega)
  rw [wrap_ushiftRight, shr32, BitVec.toNat_setWidth, hn]
  split
  next h => exact BitVec.ushiftRight_eq_zero h
  next h => rfl

theorem sari_value (a : W32) (n : BitVec 9) : floorShift a n.toNat = sar32 a (n.setWidth 32) := by
  have hn : n.toNat % 2 ^ 32 = n.toNat := Nat.mod_eq_of_lt (by omega)
  rw [floorShift_eq, sar32, BitVec.toNat_setWidth, hn]
  split
  next h =>
    ext i hi
    rw [BitVec.getElem_sshiftRight, dif_neg (by omega), show (0xFFFFFFFF : W32) = BitVec.allOnes 32 by decide]
    cases a.msb
    · exact (BitVec.getElem_zero hi).symm
    · exact (BitVec.getElem_allOnes i hi).symm
  next h => rfl

theorem ldih_value (n : BitVec 18) (d : W32) : wrap (n.toNat * 2 ^ 14 + d.toNat % 2 ^ 14) = (n.setWidth 32 <<< 14) ||| (d &&& 0x3FFF) := by
  have hm : d &&& 0x3FFF#32 = wrap (d.toNat % 2 ^ 14) := by
    simpa [wrap_natCast] using and_fieldMask d 0 14
  have hd : n.setWidth 32 <<< 14 &&& (d &&& 0x3FFF#32) = 0#32 := by
    refine BitVec.eq_of_getLsbD_eq fun i hi => ?_
    by_cases h : i < 14
    · simp [h]
    · have : (0x3FFF#32).getLsbD i = false := Nat.testBit_lt_two_pow (Nat.lt_of_lt_of_le (by decide) (Nat.pow_le_pow_right (by decide) (Nat.le_of_not_lt h)))
      simp [this]
  have hn : wrap (n.toNat * 2 ^ 14) = n.setWidth 32 <<< 14 := by
    rw [← wrap_shiftLeft, BitVec.toNat_setWidth, Nat.mod_eq_of_lt (by omega)]
  rw [wrap_add, hn, ← hm, BitVec.add_eq_or_of_and_eq_zero _ _ hd]; rfl

theorem immRow_computes {i : Instr} {d a : Reg} {f : W32 → W32 → W32} (h : immRow i = some (d, a, f)) :
    Computes i fun s k => [.reg d (f (s.src32 k a) (s.src32 k d))] := by
  cases i with
  | addi => cases h; exact ⟨fun _ => by simp only [wrap_add, wrap_toInt]; rfl, rfl, fun _ _ _ _ => rfl⟩
  | andi => cases h; exact ⟨fun _ => rfl, rfl, fun _ _ _ _ => rfl⟩
  | ori => cases h; exact ⟨fun _ => rfl, rfl, fun _ _ _ _ => rfl⟩
  | xori => cases h; exact ⟨fun _ => rfl, rfl, fun _ _ _ _ => rfl⟩
  | shli => cases h; exact ⟨fun _ => by simp only [shli_value]; rfl, rfl, fun _ _ _ _ => rfl⟩
  | shri => cases h; exact ⟨fun _ => by simp only [shri_value]; rfl, rfl, fun _ _ _ _ => rfl⟩
  | sari => cases h; exact ⟨fun _ => by simp only [sari_value]; rfl, rfl, fun _ _ _ _ => rfl⟩
  | muli => cases h; exact ⟨fun _ => by simp only [wrap_mul, wrap_toInt]; rfl, rfl, fun _ _ _ _ => rfl⟩
  | ldi => cases h; exact ⟨fun _ => rfl, rfl, fun _ _ _ _ => rfl⟩
  | ldih => cases h; exact ⟨fun _ => by simp only [ldih_value]; rfl, rfl, fun _ _ _ _ => rfl⟩
  | _ => cases h

theorem immediateResults : Claims.ImmediateResults := fun _ _ _ _ h _ _ hs => (immRow_computes h).holds32 hs

/-- Settles O4. -/
theorem registerResults : Obligations.RegisterResults := ⟨integerResults, immediateResults⟩

/-! ### 64-bit results (R170, R176) -/

theorem ofInt_toNat_setWidth {v : Nat} (w : Nat) (a : BitVec v) : BitVec.ofInt w a.toNat = a.setWidth w := by
  rw [BitVec.ofInt_natCast, BitVec.ofNat_toNat]

theorem shl64_value (a : W64) (b : W32) : BitVec.ofInt 64 (if 64 ≤ b.toNat then 0 else a.toNat * 2 ^ b.toNat) = shl64 a b := by
  rw [apply_ite (BitVec.ofInt 64), ofInt_shiftLeft]; rfl

theorem shr64_value (a : W64) (b : W32) : BitVec.ofInt 64 (if 64 ≤ b.toNat then 0 else a.toNat / 2 ^ b.toNat) = shr64 a b := by
  rw [apply_ite (BitVec.ofInt 64), ofInt_ushiftRight]; rfl

theorem bcs_value (a : W32) (d : W64) : BitVec.ofInt 64 (a.toNat * 2 ^ 32 + d.toNat % 2 ^ 32) = a ++ d.setWidth 32 := by
  refine BitVec.eq_of_toNat_eq ?_
  rw [BitVec.toNat_append, BitVec.toNat_setWidth, ← Nat.shiftLeft_add_eq_or_of_lt (Nat.mod_lt _ (by decide)), Nat.shiftLeft_eq]
  simp only [BitVec.toNat_ofInt]
  omega

theorem wideRow_computes {i : Instr} {d : Reg} {f : State → FKey → Int} (h : wideRow i = some (d, f)) :
    Computes i fun s k => [.wide d (BitVec.ofInt 64 (f s k))] := by
  cases i with
  | add64 => cases h; exact ⟨fun _ => by simp only [BitVec.ofInt_add, ofInt_toNat]; rfl, rfl, fun _ _ _ _ => rfl⟩
  | sub64 => cases h; exact ⟨fun _ => by simp only [ofInt_sub, ofInt_toNat]; rfl, rfl, fun _ _ _ _ => rfl⟩
  | shl64 => cases h; exact ⟨fun _ => by simp only [shl64_value]; rfl, rfl, fun _ _ _ _ => rfl⟩
  | shr64 => cases h; exact ⟨fun _ => by simp only [shr64_value]; rfl, rfl, fun _ _ _ _ => rfl⟩
  | madw => cases h; exact ⟨fun _ => by simp only [BitVec.ofInt_add, BitVec.ofInt_mul, ofInt_toNat, ofInt_toNat_setWidth]; rfl, rfl, fun _ _ _ _ => rfl⟩
  | madws => cases h; exact ⟨fun _ => by simp only [BitVec.ofInt_add, BitVec.ofInt_mul, ofInt_toNat]; rfl, rfl, fun _ _ _ _ => rfl⟩
  | mov64 => cases h; exact ⟨fun _ => by simp only [ofInt_toNat]; rfl, rfl, fun _ _ _ _ => rfl⟩
  | sext64 => cases h; exact ⟨fun _ => rfl, rfl, fun _ _ _ _ => rfl⟩
  | rdl => cases h; exact ⟨fun _ => by simp only [ofInt_toNat]; rfl, rfl, fun _ _ _ _ => rfl⟩
  | bcs => cases h; exact ⟨fun _ => by simp only [bcs_value]; rfl, rfl, fun _ _ _ _ => rfl⟩
  | _ => cases h

/-! ### UNPK (R201, R202) -/

theorem bits_low (v n : Nat) : v % 2 ^ (n + 1) = bits v n 0 := by rw [bits, Nat.pow_zero, Nat.div_one, Nat.sub_zero]

/-- The two lowest elements of a word as UNPK takes them (R201, R202). -/
theorem unpackRow_two (f : Fmt) (a : W32) (n : Nat) :
    unpackRow.two f a (n + 1) = (f.convert fp32 (bits a.toNat n 0), f.convert fp32 (bits a.toNat (2 * n + 1) (n + 1))) := by
  rw [unpackRow.two, bits_low, bits, bits, show 2 * n + 1 + 1 - (n + 1) = n + 1 by omega, Nat.sub_zero]

theorem bits_div (v n m : Nat) : bits (v / 2 ^ m) n 0 = bits v (n + m) m := by
  rw [bits, bits, Nat.pow_zero, Nat.div_one, show n + m + 1 - m = n + 1 by omega, Nat.sub_zero]

theorem sext8_mod (v : Nat) : ((BitVec.ofNat 8 v).signExtend 32).toNat = sext8 (v % 2 ^ 8) := by
  rw [sext8, show BitVec.ofNat 8 (v % 2 ^ 8) = BitVec.ofNat 8 v from BitVec.eq_of_toNat_eq (by simp)]

theorem unpackRow_computes {i : Instr} {d : Reg} {f : State → FKey → Nat × Nat} (h : unpackRow i = some (d, f)) :
    Computes i fun s k => [.wide d (BitVec.ofNat 64 ((f s k).1 + 2 ^ 32 * (f s k).2))] := by
  cases i with
  | unpkH => cases h; exact ⟨fun _ => by simp only [unpackRow_two _ _ 15]; rfl, rfl, fun _ _ _ _ => rfl⟩
  | unpkB => cases h; exact ⟨fun _ => by simp only [unpackRow_two _ _ 15]; rfl, rfl, fun _ _ _ _ => rfl⟩
  | unpkE4 => cases h; exact ⟨fun _ => by simp only [unpackRow_two _ _ 7]; rfl, rfl, fun _ _ _ _ => rfl⟩
  | unpkE5 => cases h; exact ⟨fun _ => by simp only [unpackRow_two _ _ 7]; rfl, rfl, fun _ _ _ _ => rfl⟩
  | unpkI8 => cases h; exact ⟨fun _ => by simp only [sext8_mod, bits_low _ 7, bits_div _ 7 8]; rfl, rfl, fun _ _ _ _ => rfl⟩
  | _ => cases h

/-- Settles O5. -/
theorem wideResults : Obligations.WideResults :=
  ⟨fun _ _ _ h _ _ hs => (wideRow_computes h).holds64 hs, fun _ _ _ h _ _ hs => (unpackRow_computes h).holds64 hs⟩

/-! ### Compares (R172, R174, R200) -/

/-! ### Compares (R172, R174, R200) -/

theorem holdsEq_iff (a b : W32) : holdsEq a b = true ↔ a = b := decide_eq_true_iff

theorem holdsNe_iff (a b : W32) : holdsNe a b = true ↔ a ≠ b := decide_eq_true_iff

theorem holdsLt_iff (a b : W32) : holdsLt a b = true ↔ a.toInt < b.toInt := BitVec.slt_iff_toInt_lt

theorem holdsLe_iff (a b : W32) : holdsLe a b = true ↔ a.toInt ≤ b.toInt := by
  rw [holdsLe, Bool.not_eq_true', Bool.eq_false_iff, ne_eq, BitVec.slt_iff_toInt_lt, Int.not_lt]

theorem holdsLtn_iff (a b : W32) : holdsLtn a b = true ↔ a.toNat < b.toNat := BitVec.ult_iff_toNat_lt

theorem holdsLen_iff (a b : W32) : holdsLen a b = true ↔ a.toNat ≤ b.toNat := by
  rw [holdsLen, Bool.not_eq_true', Bool.eq_false_iff, ne_eq, BitVec.ult_iff_toNat_lt, Nat.not_lt]

theorem holdsTst_iff (a b : W32) : holdsTst a b = true ↔ ∃ n, a.getLsbD n = true ∧ b.getLsbD n = true := by
  rw [holdsTst, decide_eq_true_iff]
  constructor
  · intro h
    by_contra hn
    refine h (BitVec.eq_of_getLsbD_eq fun i _ => ?_)
    rw [BitVec.getLsbD_and, BitVec.ofNat_eq_ofNat, BitVec.getLsbD_zero, Bool.eq_false_iff, ne_eq, Bool.and_eq_true]
    exact fun hi => hn ⟨i, hi⟩
  · rintro ⟨n, ha, hb⟩ h
    have hn : (a &&& b).getLsbD n = true := by rw [BitVec.getLsbD_and, ha, hb]; rfl
    rw [h, BitVec.ofNat_eq_ofNat, BitVec.getLsbD_zero] at hn
    cases hn

theorem toInt_imm (n : BitVec 9) : (n.signExtend 32).toInt = n.toInt := BitVec.toInt_signExtend_of_le (by decide)

theorem toNat_imm (n : BitVec 9) : (n.setWidth 32).toNat = n.toNat := BitVec.toNat_setWidth_of_le (by decide)

/-- `i` writes predicate `p`: 1 where `f` holds, 0 otherwise. -/
def Compares (i : Instr) (p : Pred) (f : State → FKey → Prop) : Prop :=
  ∃ val : State → FKey → Bool, (Computes i fun s k => [.pred p (val s k)]) ∧ ∀ s k, val s k = true ↔ f s k

theorem Compares.of_laneP {i : Instr} {o : PR} {rel : W32 → W32 → Bool} {f : State → FKey → Prop}
    (he : ∀ s, exec i s = compute i s (laneP o rel)) (hr : i.runEnding = false)
    (hf : ∀ s k, rel (s.src32 k o.a) (compareRow.second s k o) = true ↔ f s k) : Compares i o.p f :=
  ⟨_, ⟨he, hr, fun _ _ _ _ => rfl⟩, hf⟩

theorem Compares.of_lanePI {i : Instr} {o : PI} {rel : W32 → BitVec 9 → Bool} {f : State → FKey → Prop}
    (he : ∀ s, exec i s = compute i s (lanePI o rel)) (hr : i.runEnding = false)
    (hf : ∀ s k, rel (s.src32 k o.a) o.imm = true ↔ f s k) : Compares i o.p f :=
  ⟨_, ⟨he, hr, fun _ _ _ _ => rfl⟩, hf⟩

theorem compareRow_compares {i : Instr} {p : Pred} {f : State → FKey → Prop} (h : compareRow i = some (p, f)) : Compares i p f := by
  cases i with
  | cmpiEq o => cases h; exact .of_lanePI (fun _ => rfl) rfl fun s k => by rw [holdsIEq, holdsEq_iff, ← toInt_imm, BitVec.toInt_inj]
  | cmpiLt o => cases h; exact .of_lanePI (fun _ => rfl) rfl fun s k => by rw [holdsILt, holdsLt_iff, toInt_imm]
  | cmpiLtn o => cases h; exact .of_lanePI (fun _ => rfl) rfl fun s k => by rw [holdsILtn, holdsLtn_iff, toNat_imm]
  | cmpiLe o => cases h; exact .of_lanePI (fun _ => rfl) rfl fun s k => by rw [holdsILe, holdsLe_iff, toInt_imm]
  | cmpEq o => cases h; exact .of_laneP (fun _ => rfl) rfl fun s k => holdsEq_iff _ _
  | cmpNe o => cases h; exact .of_laneP (fun _ => rfl) rfl fun s k => holdsNe_iff _ _
  | cmpLt o => cases h; exact .of_laneP (fun _ => rfl) rfl fun s k => holdsLt_iff _ _
  | cmpLe o => cases h; exact .of_laneP (fun _ => rfl) rfl fun s k => holdsLe_iff _ _
  | cmpLtn o => cases h; exact .of_laneP (fun _ => rfl) rfl fun s k => holdsLtn_iff _ _
  | cmpLen o => cases h; exact .of_laneP (fun _ => rfl) rfl fun s k => holdsLen_iff _ _
  | tst o => cases h; exact .of_laneP (fun _ => rfl) rfl fun s k => holdsTst_iff _ _
  | fcmpEq o => cases h; exact .of_laneP (fun _ => rfl) rfl fun s k => Iff.rfl
  | fcmpLt o => cases h; exact .of_laneP (fun _ => rfl) rfl fun s k => Iff.rfl
  | fcmpLe o => cases h; exact .of_laneP (fun _ => rfl) rfl fun s k => by rw [Bool.or_eq_true]; rfl
  | fcmpUn o => cases h; exact .of_laneP (fun _ => rfl) rfl fun s k => by rw [Bool.or_eq_true]; rfl
  | _ => cases h

theorem compareResults : Claims.CompareResults := by
  intro i p f h s ks hs
  obtain ⟨val, hc, hv⟩ := compareRow_compares h
  obtain ⟨t, ht, hk⟩ := hc.pred hs
  exact ⟨t, ht, fun k hp => ⟨by rw [(hk k hp).1, hv], (hk k hp).2⟩⟩

/-! ### Predicate words (R175, R176, R213) -/

theorem predicateRow_computes {i : Instr} {p : Pred} {f : State → FKey → Bool} (h : predicateRow i = some (p, f)) :
    Computes i fun s k => [.pred p (f s k)] := by
  cases i with
  | pand => cases h; exact ⟨fun _ => rfl, rfl, fun _ _ _ _ => rfl⟩
  | por => cases h; exact ⟨fun _ => rfl, rfl, fun _ _ _ _ => rfl⟩
  | pxor => cases h; exact ⟨fun _ => rfl, rfl, fun _ _ _ _ => rfl⟩
  | pandn => cases h; exact ⟨fun _ => rfl, rfl, fun _ _ _ _ => rfl⟩
  | pnot => cases h; exact ⟨fun _ => rfl, rfl, fun _ _ _ _ => rfl⟩
  | pset => cases h; exact ⟨fun _ => rfl, rfl, fun _ _ _ _ => rfl⟩
  | pclr => cases h; exact ⟨fun _ => rfl, rfl, fun _ _ _ _ => rfl⟩
  | qhlp => cases h; exact ⟨fun _ => rfl, rfl, fun _ _ _ _ => rfl⟩
  | _ => cases h

/-- All sixteen predicates after the writes of all lanes. -/
theorem lanes_preds {s : State} {ks : List FKey} {val : FKey → BitVec 16} {k : FKey} (hk : k ∈ ks) :
    ((s.lanes (ks.map fun k => (k, [Wr.preds (val k)]))).fib k).p = val k := by
  refine lanes_local (f := fun k => [Wr.preds (val k)]) (by simp [Wr.base]) hk (fun t => (t.fib k).p = val k)
    (fun t _ _ => ?_) (fun t k0 h0 _ h => ?_)
  · simp [State.wrs, State.wr]
  · rw [wrs_fib_ne t _ (Ne.symm h0)]; exact h

theorem wrp_next (wa : Bool) (a : Reg) {s : State} {ks : List FKey} (h : s.Proceeds (.wrp wa a) noCheck ks) :
    ∃ t, exec (.wrp wa a) s = .next t ∧ ∀ k, s.Performs (.wrp wa a) noCheck ks k →
      (t.fib k).p = BitVec.ofNat 16 (s.src32 k a).toNat ∧ (s.isHelper k = false → (t.fib k).pc = (s.fib k).pc + 4) := by
  obtain ⟨t, u, v, he, -, hv, hm, hpc, -, -⟩ := compute_law h rfl (fun s k => [Wr.preds ((s.src32 k a).setWidth 16)]) fun _ _ _ _ => rfl
  refine ⟨t, he, fun k hk => ⟨?_, hpc k hk⟩⟩
  rw [BitVec.ofNat_toNat, hm.fib k, hv]
  exact lanes_preds (val := fun k => (s.src32 k a).setWidth 16) (mem_performers.mpr hk)

theorem predicateResults : Claims.PredicateResults :=
  ⟨fun _ _ _ h _ _ hs => (predicateRow_computes h).pred hs, fun wa a _ _ hs => wrp_next wa a hs⟩

/-- Settles O6. -/
theorem predicateAndCompareResults : Obligations.PredicateAndCompareResults := ⟨compareResults, predicateResults⟩

/-! ### One source, moves, conversions, PACK and the 4-bit words (R169, R176, R198, R199, R201 to R205) -/

theorem fabs_value (a : W32) : BitVec.ofNat 32 (a.toNat % 2 ^ 31) = a &&& 0x7FFFFFFF := by
  rw [← wrap_natCast]; simpa using (and_fieldMask a 0 31).symm

theorem fneg_value (a : W32) : BitVec.ofNat 32 (a.toNat + 2 ^ 31) = a ^^^ 0x80000000 := by
  refine BitVec.eq_of_getLsbD_eq fun i hi => ?_
  have hs : (0x80000000 : W32).getLsbD i = decide (31 = i) := (Nat.testBit_two_pow (n := 31) (m := i))
  rw [BitVec.getLsbD_xor, hs, BitVec.getLsbD_ofNat, decide_eq_true hi, Bool.true_and, Nat.add_comm]
  rcases Nat.lt_or_eq_of_le (Nat.le_of_lt_succ hi) with h | rfl
  · rw [Nat.testBit_two_pow_add_gt h, BitVec.testBit_toNat, decide_eq_false (by omega), Bool.xor_false]
  · rw [Nat.testBit_two_pow_add_eq, BitVec.testBit_toNat, decide_eq_true rfl, Bool.xor_true]

theorem satI8_value (a : W32) : (BitVec.ofInt 8 (max (-128) (min 127 a.toInt))).toNat = satI8 a := by
  rw [satI8]; congr 2; split <;> [skip; split] <;> omega

theorem moveRow_computes {i : Instr} {d : Reg} {f : State → FKey → W32} (h : moveRow i = some (d, f)) :
    Computes i fun s k => [.reg d (f s k)] := by
  cases i with
  | clz => cases h; exact ⟨fun _ => by simp only [clz_value]; rfl, rfl, fun _ _ _ _ => rfl⟩
  | popc => cases h; exact ⟨fun _ => by simp only [popc_value]; rfl, rfl, fun _ _ _ _ => rfl⟩
  | brev => cases h; exact ⟨fun _ => by simp only [brev_value]; rfl, rfl, fun _ _ _ _ => rfl⟩
  | mov => cases h; exact ⟨fun _ => rfl, rfl, fun _ _ _ _ => rfl⟩
  | rdp => cases h; exact ⟨fun _ => by simp only [BitVec.ofNat_toNat]; rfl, rfl, fun _ _ _ _ => rfl⟩
  | rdw => cases h; exact ⟨fun _ => by simp only [BitVec.ofNat_toNat]; rfl, rfl, fun _ _ _ _ => rfl⟩
  | sel => cases h; exact ⟨fun _ => rfl, rfl, fun _ _ _ _ => rfl⟩
  | fabs => cases h; exact ⟨fun _ => by simp only [fabs_value]; rfl, rfl, fun _ _ _ _ => rfl⟩
  | fneg => cases h; exact ⟨fun _ => by simp only [fneg_value]; rfl, rfl, fun _ _ _ _ => rfl⟩
  | fclass => cases h; exact ⟨fun _ => rfl, rfl, fun _ _ _ _ => rfl⟩
  | frndN => cases h; exact ⟨fun _ => rfl, rfl, fun _ _ _ _ => rfl⟩
  | frndZ => cases h; exact ⟨fun _ => rfl, rfl, fun _ _ _ _ => rfl⟩
  | frndD => cases h; exact ⟨fun _ => rfl, rfl, fun _ _ _ _ => rfl⟩
  | frndU => cases h; exact ⟨fun _ => rfl, rfl, fun _ _ _ _ => rfl⟩
  | fscale => cases h; exact ⟨fun _ => rfl, rfl, fun _ _ _ _ => rfl⟩
  | cvtFS => cases h; exact ⟨fun _ => rfl, rfl, fun _ _ _ _ => rfl⟩
  | cvtFN => cases h; exact ⟨fun _ => rfl, rfl, fun _ _ _ _ => rfl⟩
  | cvtSF => cases h; exact ⟨fun _ => rfl, rfl, fun _ _ _ _ => rfl⟩
  | cvtNF => cases h; exact ⟨fun _ => rfl, rfl, fun _ _ _ _ => rfl⟩
  | packH2 => cases h; exact ⟨fun _ => by simp only [wrap_natCast]; rfl, rfl, fun _ _ _ _ => rfl⟩
  | packB2 => cases h; exact ⟨fun _ => by simp only [wrap_natCast]; rfl, rfl, fun _ _ _ _ => rfl⟩
  | packE4 => cases h; exact ⟨fun _ => rfl, rfl, fun _ _ _ _ => rfl⟩
  | packE5 => cases h; exact ⟨fun _ => rfl, rfl, fun _ _ _ _ => rfl⟩
  | packI8 => cases h; exact ⟨fun _ => by simp only [satI8_value]; rfl, rfl, fun _ _ _ _ => rfl⟩
  | qscale => cases h; exact ⟨fun _ => rfl, rfl, fun _ _ _ _ => rfl⟩
  | qpack => cases h; exact ⟨fun _ => by simp only [wrap_natCast, bits_low _ 7]; rfl, rfl, fun _ _ _ _ => rfl⟩
  | qunpk => cases h; exact ⟨fun _ => by simp only [bits_low _ 7, bits_low _ 3]; rfl, rfl, fun _ _ _ _ => rfl⟩
  | _ => cases h

/-- Settles O8. -/
theorem moveResults : Obligations.MoveResults := fun _ _ _ h _ _ hs => (moveRow_computes h).holds32 hs

/-! ### IALU.A whole (R167) -/

/-- The word of a row of IALU.A: MAJ 0x01, then the minor (R71, R167). -/
theorem word_of_enc {i : Instr} {o : R3} {maj mn : Nat} (hM : maj < 64) (hm : mn < 8) (he : encodeNat i = o.enc maj mn) :
    i.word.toNat / 2 ^ 23 = maj * 8 + mn := by
  have hw := encR_lt (wa := o.wa) (wb := o.wb) hM hm o.d.field_lt o.a.field_lt o.b.field_lt
  have hb := o.b.field_lt; have ha := o.a.field_lt; have hd := o.d.field_lt
  have h1 := bitOf_lt o.wa; have h2 := bitOf_lt o.wb
  rw [Instr.word, encode, he, R3.enc, Option.map_some, Option.getD_some, BitVec.toNat_ofNat, Nat.mod_eq_of_lt hw, encR]
  omega

/-- What R167 says of a word of row `m` with the function `f` of a and b. -/
theorem ialuA_of_row {m : Nat} {i : Instr} {o : R3} {f : W32 → W32 → W32} {g : W32 → W32 → W32 → W32} (hm : m < 8)
    (he : encodeNat i = o.enc 0x01 m) (hr : intRow i = some (o, g)) (hg : ∀ a b d, g a b d = f a b) :
    (i.wordOk = true → i.word.toNat / 2 ^ 23 = 0x01 * 8 + m) ∧ ∀ s ks, s.Proceeds i noCheck ks → ∃ t, exec i s = .next t ∧
      ∀ k, s.Performs i noCheck ks k → Holds32 s t k o.d (f (s.src32 k o.a) (s.src32 k o.b (if o.a = o.b then 1 else 0))) := by
  refine ⟨fun _ => word_of_enc (by decide) hm he, fun s ks hs => ?_⟩
  obtain ⟨t, ht, hk⟩ := integerResults i o g hr s ks hs
  exact ⟨t, ht, fun k hp => hg .. ▸ (hk k hp).1⟩

/-- Settles O23. -/
theorem ialuA : Obligations.IaluA := by
  intro m i o f hmem
  simp only [List.mem_cons, Prod.mk.injEq, List.not_mem_nil, or_false] at hmem
  rcases hmem with ⟨rfl, rfl, rfl⟩ | ⟨rfl, rfl, rfl⟩ | ⟨rfl, rfl, rfl⟩ | ⟨rfl, rfl, rfl⟩ | ⟨rfl, rfl, rfl⟩ | ⟨rfl, rfl, rfl⟩ |
    ⟨rfl, rfl, rfl⟩ | ⟨rfl, rfl, rfl⟩
  · exact ialuA_of_row (by decide) rfl rfl fun a b _ => by rw [wrap_add, wrap_toNat, wrap_toNat]
  · exact ialuA_of_row (by decide) rfl rfl fun a b _ => by rw [wrap_sub, wrap_toNat, wrap_toNat]
  · exact ialuA_of_row (by decide) rfl rfl fun a b _ => and_value a b
  · exact ialuA_of_row (by decide) rfl rfl fun a b _ => or_value a b
  · exact ialuA_of_row (by decide) rfl rfl fun a b _ => xor_value a b
  · exact ialuA_of_row (by decide) rfl rfl fun a b _ => andn_value a b
  · exact ialuA_of_row (by decide) rfl rfl fun a b _ => (min_value a b).trans (minS_eq a b)
  · exact ialuA_of_row (by decide) rfl rfl fun a b _ => (max_value a b).trans (maxS_eq a b)

end Sys2Proof.Machine
end

section
/-!
PROOFS. TRAP, BKPT and ERET (R185, R186, R250 to R257, R416): a word whose one member takes a trap that is delivered at once, and the returns from
a trap and from a compatibility continuation.
-/

namespace Sys2Proof.Machine

/-! ### A word whose one member takes a trap (R93, R250) -/

/-- The coach of the turn, if it is a coach's, has left its pipe. -/
def State.TurnOver (s : State) : Prop := ∀ c p, s.agent = some (.coach c p) → s.pipes.at? (pipeKey c p) = none

theorem endRun_of_turnOver {s : State} (h : s.TurnOver) : s.endRun = s := by
  unfold State.endRun
  split
  next c p ha => rw [h c p ha]
  next => rfl

theorem countWord_of_turnOver {s : State} (h : s.TurnOver) : s.countWord = s := by
  unfold State.countWord
  split
  next c p ha => rw [h c p ha]
  next => rfl

theorem State.TurnOver.of_eq {s t : State} (h : s.TurnOver) (ha : t.agent = s.agent) (hp : t.pipes = s.pipes) : t.TurnOver := by
  unfold State.TurnOver; rw [ha, hp]; exact h

/-- What no trap looks at: what the memory model remembers, the pages agents wait for, the buffer of fetched lines, and the agents that
have sent carts. -/
def SideOnly (s t : State) : Prop := t = { s with veil := t.veil, missQ := t.missQ, lineBuf := t.lineBuf, evicted := t.evicted }

section SideFacts
variable {s t : State} (h : SideOnly s t)
include h

theorem SideOnly.fib (k : FKey) : t.fib k = s.fib k := by rw [h]; rfl
theorem SideOnly.gang (g : Nat × Nat) : t.gang g = s.gang g := by rw [h]; rfl
theorem SideOnly.memory : SameMemory s t := by rw [h]; exact .refl s

end SideFacts

theorem NotesOnly.side {s t : State} (h : NotesOnly s t) : SideOnly s t := by unfold SideOnly; rw [h]

/-- The verdicts of a trap: those that a member takes and that let the word have no effect for it. -/
def Verdict.traps : Verdict → Bool
  | .trap _ | .reject _ => true
  | _ => false

/-- A word that has no effect but the trap of its one member, after which the turn is over. -/
theorem issue_trap {s : State} {i : Instr} {k : FKey} {check : State → FKey → Verdict} {eff : State → List FKey → State}
    {next : State → FKey → W64} {after : State → List FKey → State} (h : s.Ready i k) (hv : (check s k).traps = true)
    (heff : ∀ u, eff u [] = u) (gone : (s.takeVerdicts [(k, check s k)]).TurnOver) :
    ∃ t, issue i s check eff next after = .next (after t []) ∧
      SideOnly (s.takeVerdicts [(k, check s k)]) t := by
  have verdict := h.verdict check
  generalize hx : check s k = v at *
  have go : (v = .go) = False := by cases v <;> simp [Verdict.traps] at hv ⊢
  have waits : v.waits = false := by cases v <;> simp [Verdict.traps, Verdict.waits] at hv ⊢
  have spend : ∀ u : State, u.spend (k, v) = u := by cases v <;> simp [Verdict.traps, State.spend] at hv ⊢
  have notes := (veilOnly_noteWord (s.takeVerdicts [(k, v)]) i []).notes
  generalize hu : (s.takeVerdicts [(k, v)]).noteWord i [] = u at notes
  have gone' : (u.dropLines []).TurnOver := gone.of_eq (notes.keepsTurn k).agent notes.pipes
  refine ⟨u.dropLines [], ?_, by unfold SideOnly; rw [notes]; rfl⟩
  unfold issue
  rw [h.sole]
  simp [verdict, waits, go, spend, hu, heff, State.setPcs, endRun_of_turnOver gone', countWord_of_turnOver gone']


/-- The coach of the turn whose one member is fibre `n` of block `b` (R153). -/
theorem coach_of_sole {s : State} {b n c p : Nat} (hm : s.members = some [.fib b n]) (ha : s.agent = some (.coach c p)) :
    ∃ x, (pipeKey c p, x) ∈ s.pipes ∧ x.block = b ∧ x.members = [n] := by
  rw [State.members, ha] at hm
  obtain ⟨x, hx, hmap⟩ := Option.map_eq_some_iff.mp hm
  obtain ⟨m, members, e⟩ := List.map_eq_singleton_iff.mp hmap
  cases e
  exact ⟨x, Map.mem_of_at? hx, rfl, members⟩

/-- A fibre that is the only member of its coach leaves no coach behind (R93, R153). -/
theorem turnOver_leaveCoach {s : State} {b n : Nat} (hm : s.members = some [.fib b n]) (hd : s.PipesDistinct)
    (hp : (s.fib (.fib b n)).pop = none) : (s.leaveCoach b n).TurnOver := by
  intro c p ha
  have agent : s.agent = some (.coach c p) := by rw [leaveCoach_rest hp] at ha; exact ha
  have stays : s.unpop (.fib b n) = s := by unfold State.unpop; rw [hp]
  by_contra hc
  obtain ⟨y, hy⟩ := Option.ne_none_iff_exists'.mp hc
  have hy := Map.mem_of_at? hy
  rw [State.leaveCoach, stays, List.mem_filter, List.mem_map] at hy
  obtain ⟨⟨⟨q, z⟩, hz, hzy⟩, members⟩ := hy
  obtain ⟨x, hx, rfl, only⟩ := coach_of_sole hm agent
  have key : q = pipeKey c p := by
    have := congrArg Prod.fst hzy
    dsimp only at this
    split at this <;> exact this
  have one : (q, z) = (pipeKey c p, x) := List.inj_on_of_nodup_map hd hz hx key
  cases one
  simp [only] at hzy
  simp [← hzy] at members

theorem turnOver_enterTrap {s : State} {b n : Nat} (h : s.CanTrap b n) (hm : s.members = some [.fib b n]) (x : Trap) :
    (s.enterTrap b n x).TurnOver := by
  obtain ⟨now, e⟩ := enterTrap_eq h x
  exact (turnOver_leaveCoach hm h.pipes h.pop).of_eq (by rw [e]; simp [State.trapWaits, State.endRunOf])
    (by rw [e]; simp [State.trapWaits, State.endRunOf])

theorem State.CanTrap.of_notes {s t : State} {b n : Nat} (h : s.CanTrap b n) (hn : NotesOnly s t) : t.CanTrap b n := by
  obtain ⟨idle, first, handler, free, pop, pipes⟩ := h
  exact ⟨by rw [hn.fib]; exact idle, by rw [hn.gang]; exact first, by rw [hn.gang]; exact handler, by rw [hn.gang]; exact free,
    by rw [hn.fib]; exact pop, by unfold State.PipesDistinct; rw [hn.pipes]; exact pipes⟩

/-- A trap that is taken in the state in which a word is judged. -/
theorem Trapped.of_side {s s' t t' : State} {b n : Nat} {x : Trap} (h : Trapped s' t b n x) (hs : SideOnly s s') (ht : SideOnly t t') :
    Trapped s t' b n x := by
  obtain ⟨cause, tpc, addr, info, pc, service, queue, temps, kept, others, mem, scratch⟩ := h
  rw [hs.gang] at pc
  rw [hs.fib] at kept
  obtain ⟨mem', scratch', -⟩ := hs.memory
  obtain ⟨mem'', scratch'', -⟩ := ht.memory
  exact ⟨by rw [ht.fib]; exact cause, by rw [ht.fib]; exact tpc, by rw [ht.fib]; exact addr, by rw [ht.fib]; exact info,
    by rw [ht.fib]; exact pc, by rw [ht.fib]; exact service, by rw [ht.gang]; exact queue, by rw [ht.fib]; exact temps,
    by rw [ht.fib]; exact kept, fun k hk => by rw [ht.fib, others k hk, hs.fib], ⟨mem''.trans (mem.trans mem'), scratch''.trans (scratch.trans scratch')⟩⟩

/-- A word whose one member, a fibre, takes a trap that is delivered at once. -/
theorem exec_trapped {s : State} {i : Instr} {b n : Nat} {x : Trap} {check : State → FKey → Verdict} {eff : State → List FKey → State}
    {next : State → FKey → W64} {after : State → List FKey → State} (he : exec i s = issue i s check eff next after)
    (h : s.Ready i (.fib b n)) (can : s.CanTrap b n) (hv : check s (.fib b n) = .trap x) (heff : ∀ u, eff u [] = u)
    (hafter : ∀ u, after u [] = u) : ∃ t, exec i s = .next t ∧ Trapped s t b n x := by
  have notes : NotesOnly s (s.leaveMiss (.fib b n)) := notesOnly_leaveMissOf s _
  have can' := can.of_notes notes
  have sole : (s.leaveMiss (.fib b n)).members = some [.fib b n] := h.sole
  have took : s.takeVerdicts [(.fib b n, check s (.fib b n))] = (s.leaveMiss (.fib b n)).enterTrap b n x := by rw [hv]; rfl
  obtain ⟨t, ht, side⟩ := issue_trap (check := check) (next := next) (after := after) h (by rw [hv]; rfl) heff
    (by rw [took]; exact turnOver_enterTrap can' sole x)
  rw [took] at side
  exact ⟨t, by rw [he, ht, hafter], (trapped_enterTrap can' x).of_side notes.side side⟩

/-- A control core is in no coach (R416). -/
theorem turnOver_of_ctl {s : State} {n : Nat} (hm : s.members = some [.ctl n]) : s.TurnOver := by
  intro c p ha
  by_contra hc
  obtain ⟨x, hx⟩ := Option.ne_none_iff_exists'.mp hc
  simp [State.members, ha, hx, List.map_eq_singleton_iff] at hm

/-- What a control core's trap changes (R416). -/
theorem ctlTrapped_of_side {s s' t : State} {n : Nat} {x : Trap} (hs : SideOnly s s') (ht : SideOnly (s'.ctlTrap n x) t) : CtlTrapped s t n x := by
  have vector : s'.gangSr (.ctl n) = s.ctlSr.atD n {} := by rw [hs]; rfl
  have own : t.fib (.ctl n) = { s.fib (.ctl n) with
      tcause := BitVec.ofNat 64 x.cause, tpc := x.pc, taddr := x.addr, tinfo := x.info, pc := (s.ctlSr.atD n {}).tvec, service := true } := by
    rw [ht.fib, State.ctlTrap, State.updFib_fib_same, hs.fib, vector]
  have memory : SameMemory s t := hs.memory.trans ((regsOnly_updFib _ _ _).sameMemory.trans ht.memory)
  obtain ⟨mem, scratch, -⟩ := memory
  refine ⟨?_, ?_, ?_, ?_, ?_, ?_, ?_, fun k hk => ?_, mem, scratch⟩
  case refine_8 => rw [ht.fib, State.ctlTrap, State.updFib_fib_ne _ _ hk, hs.fib]
  all_goals rw [own]
  exact ⟨rfl, rfl, rfl⟩

/-- A word whose one member, a control core, takes a trap (R416). -/
theorem exec_ctlTrapped {s : State} {i : Instr} {n : Nat} {x : Trap} {check : State → FKey → Verdict} {eff : State → List FKey → State}
    {next : State → FKey → W64} {after : State → List FKey → State} (he : exec i s = issue i s check eff next after)
    (h : s.Ready i (.ctl n)) (hv : check s (.ctl n) = .trap x) (heff : ∀ u, eff u [] = u) (hafter : ∀ u, after u [] = u) :
    ∃ t, exec i s = .next t ∧ CtlTrapped s t n x := by
  have took : s.takeVerdicts [(.ctl n, check s (.ctl n))] = (s.leaveMiss (.ctl n)).ctlTrap n x := by rw [hv]; rfl
  obtain ⟨t, ht, side⟩ := issue_trap (check := check) (next := next) (after := after) h (by rw [hv]; rfl) heff
    (by rw [took]; exact (turnOver_of_ctl h.sole).of_eq rfl rfl)
  rw [took] at side
  exact ⟨t, by rw [he, ht, hafter], ctlTrapped_of_side (notesOnly_leaveMissOf s _).side side⟩

/-- TRAP and BKPT take their trap for every member and do nothing else (R185, R253). -/
theorem exec_trap (code : BitVec 14) (s : State) : exec (.trap code) s =
    issue (.trap code) s (fun s k => .trap { cause := 0x22, pc := s.nextPc k, info := code.setWidth 64 }) fun s _ => s := rfl

theorem exec_bkpt (s : State) : exec .bkpt s = issue .bkpt s (fun s k => .trap { cause := 0x21, pc := s.nextPc k }) fun s _ => s := rfl

/-- Settles O15: the trap is the only verdict of either word, and no member performs it. -/
theorem softwareTraps : Obligations.SoftwareTraps :=
  ⟨fun code s _ _ h can => exec_trapped (exec_trap code s) h can rfl (fun _ => rfl) fun _ => rfl,
    fun s _ _ h can => exec_trapped (exec_bkpt s) h can rfl (fun _ => rfl) fun _ => rfl,
    fun code s _ h => exec_ctlTrapped (exec_trap code s) h rfl (fun _ => rfl) fun _ => rfl,
    fun s _ h => exec_ctlTrapped (exec_bkpt s) h rfl (fun _ => rfl) fun _ => rfl⟩

/-! ### A word of one agent that ends its run, with nothing held (R84, R253) -/

/-- The run of `k` is over and `k` stands at `pc`; of the rest only coaches, the buffer of fetched lines and the agents that have sent
carts differ. -/
structure Ended (s t : State) (k : FKey) (pc : W64) : Prop where
  rest : t = { s with fibres := t.fibres, pipes := t.pipes, lineBuf := t.lineBuf, evicted := t.evicted }
  own : t.fib k = { s.fib k with pc := pc, k := (t.fib k).k, lastEnd := (t.fib k).lastEnd, readySince := (t.fib k).readySince }
  others : OthersSame s t k

theorem Ended.of_endRun {s u : State} {k : FKey} {pc : W64} (h : Ended s u k pc) (alone : u.Alone k) (live : u.isHelper k = false)
    (held : ∀ b n, k = .fib b n → u.NoHeld k) : Ended s u.endRun k pc := by
  unfold State.endRun
  split
  next c p ha =>
    split
    next => exact h
    next x hx =>
      have only := alone c p x ha hx
      obtain ⟨n, hn, rfl⟩ := List.map_eq_singleton_iff.1 only
      rw [syncHelpers_alone hx only live, hn]
      simp only [List.foldl_cons, List.foldl_nil]
      obtain ⟨timer, debug⟩ := held _ _ rfl
      rw [boundaryTraps_of_noHeld ⟨by rw [State.updFib_fib_same]; exact timer, by rw [State.updFib_fib_same]; exact debug⟩]
      refine ⟨?_, ?_, fun m hm => ?_⟩
      · rw [h.rest]; rfl
      · rw [State.updFib_fib_same]
        show ({ u.fib (.fib x.block n) with k := _, lastEnd := _, readySince := _ } : Fibre) = _
        rw [h.own]
      · rw [State.updFib_fib_ne _ _ hm]; exact h.others m hm
  next => exact h

theorem issue_ended {s v : State} {i : Instr} {k : FKey} {check : State → FKey → Verdict} {eff : State → List FKey → State}
    {next : State → FKey → W64} {after : State → List FKey → State} (h : s.Ready i k) (hc : check s k = .go) (hr : i.runEnding = true)
    (he : eff (s.noted1 i k) [k] = v) (turn : KeepsTurn (s.noted1 i k) v k) (held : ∀ b n, k = .fib b n → v.NoHeld k) :
    ∃ t, issue i s check eff next after = .next (after t [k]) ∧ Ended v t k (next (s.noted1 i k) k) := by
  refine ⟨_, issue_ending h hc hr he, ?_⟩
  have turn' := ((notesOnly_noted1 s i k).keepsTurn k).trans turn
  have drop : ∀ m, (v.dropLines [k]).fib m = v.fib m := fun _ => rfl
  generalize hpc : next (s.noted1 i k) k = pc
  have own : ((v.dropLines [k]).updFib k fun f => { f with pc := pc }).fib k = { v.fib k with pc := pc } := by
    rw [State.updFib_fib_same, drop]
  refine Ended.of_endRun ⟨rfl, ?_, fun m hm => ?_⟩ ((State.alone_of_members h.sole).of_eq turn'.agent turn'.pipes) ?_ ?_
  · rw [own]
  · rw [State.updFib_fib_ne _ _ hm, drop]
  · have live : v.isHelper k = false := by rw [turn'.helper, h.live]
    unfold State.isHelper at *; rw [own]; exact live
  · intro b n e
    exact ⟨by rw [own]; exact (held b n e).timer, by rw [own]; exact (held b n e).debug⟩

section EndedFacts
variable {s t : State} {k : FKey} {pc : W64} (h : Ended s t k pc)
include h

theorem Ended.memory : SameMemory s t := by rw [h.rest]; exact .refl s
theorem Ended.blocks : t.blocks = s.blocks := by rw [h.rest]
theorem Ended.gang (g : Nat × Nat) : t.gang g = s.gang g := by rw [h.rest]; rfl
theorem Ended.sameRegs : SameRegs s t k := by unfold SameRegs; rw [h.own]; exact ⟨rfl, rfl, rfl, rfl⟩

end EndedFacts

/-! ### ERET (R186, R251, R257) -/

/-- What ERET finds for a member: the fault that software rejects, ILL_OPC where there is nothing to return from, else it goes on. -/
def eretCheck (s : State) (k : FKey) : Verdict :=
  match (s.fib k).outermost with
  | some pf => if serviceField (s.fib k) = 2 then .reject pf else .go
  | none => if (s.fib k).service then .go else .trap (s.trapOf k .eret 0x01)

/-- What ERET ends for a member. -/
def eretEnds (s : State) (k : FKey) : State :=
  if (s.fib k).outermost.isNone then s.endService k
  else if serviceField (s.fib k) = 0 then s.updFib k fun f => { f with wait := .eret }
  else s.updFib k fun f => { f with continuing := none }

/-- Where a member stands after ERET. -/
def eretNext (s : State) (k : FKey) : W64 :=
  if (s.fib k).outermost.isSome && decide (serviceField (s.fib k) = 0) then (s.fib k).pc else (s.fib k).tpc

/-- What the ends of trap services let in: the next trap of each gang (R251). -/
def eretAfter (s : State) (ks : List FKey) : State :=
  (s.gangsOf (ks.filter fun k => match k with | .fib _ _ => true | _ => false)).foldl (fun s g => s.deliver g) s

theorem exec_eret (s : State) : exec .eret s = issue .eret s eretCheck (fun s ks => s.onLive ks eretEnds) eretNext eretAfter := rfl

theorem eretAfter_nil (s : State) : eretAfter s [] = s := rfl
theorem eretAfter_ctl (s : State) (n : Nat) : eretAfter s [.ctl n] = s := rfl

/-- Where no trap waits for the gang, nothing follows. -/
theorem eretAfter_fib {s : State} {b n : Nat} (h : (s.gang (b, n / 32)).trapq = []) : eretAfter s [.fib b n] = s := by
  show s.deliver (b, n / 32) = s
  unfold State.deliver
  rw [h]

theorem serviceField_eq (f : Fibre) : serviceField f = f.tinfo.toNat / 2 ^ 62 := by
  have := f.tinfo.isLt
  rw [serviceField, bits, Nat.mod_eq_of_lt]
  omega

theorem NotesOnly.eretNext {s t : State} (h : NotesOnly s t) (k : FKey) : eretNext t k = Machine.eretNext s k := by
  unfold Machine.eretNext; rw [h.fib]

theorem regsOnly_endService (s : State) (k : FKey) : RegsOnly s (s.endService k) := by
  cases k <;> rfl

theorem endService_fib (s : State) (k : FKey) : (s.endService k).fib k = { s.fib k with service := false, inner := false } := by
  cases k <;> simp [State.endService]

theorem endService_fib_ne (s : State) {k m : FKey} (h : m ≠ k) : (s.endService k).fib m = s.fib m := by
  cases k <;> simp [State.endService, State.updFib_fib_ne _ _ h]

theorem endService_gang (s : State) (b n : Nat) : (s.endService (.fib b n)).gang (b, n / 32) =
    { s.gang (b, n / 32) with trapq := (s.gang (b, n / 32)).trapq.drop 1 } := by
  simp [State.endService]

theorem keepsTurn_endService (s : State) (k : FKey) : KeepsTurn s (s.endService k) k :=
  ⟨by rw [regsOnly_endService s k], by rw [regsOnly_endService s k], by unfold State.isHelper; rw [endService_fib]⟩

theorem keepsTurn_updFib (s : State) (k : FKey) {f : Fibre → Fibre} (h : (f (s.fib k)).status = (s.fib k).status) :
    KeepsTurn s (s.updFib k f) k :=
  ⟨rfl, rfl, by unfold State.isHelper; rw [State.updFib_fib_same, h]⟩

theorem keepsTurn_eretEnds (s : State) (k : FKey) : KeepsTurn s (eretEnds s k) k := by
  unfold eretEnds
  split
  · exact keepsTurn_endService s k
  · split <;> exact keepsTurn_updFib s k rfl

theorem noHeld_eretEnds {s : State} {k : FKey} (h : s.NoHeld k) : (eretEnds s k).NoHeld k := by
  obtain ⟨timer, debug⟩ := h
  unfold eretEnds
  split
  · exact ⟨by rw [endService_fib]; exact timer, by rw [endService_fib]; exact debug⟩
  · split <;> exact ⟨by rw [State.updFib_fib_same]; exact timer, by rw [State.updFib_fib_same]; exact debug⟩

/-- ERET of one agent that goes on: what it ends, then the end of its run. -/
theorem eret_next {s : State} {k : FKey} (h : s.Ready .eret k) (held : ∀ b n, k = .fib b n → s.NoHeld k) (hc : eretCheck s k = .go) :
    ∃ u t, NotesOnly s u ∧ exec .eret s = .next (eretAfter t [k]) ∧ Ended (eretEnds u k) t k (eretNext s k) := by
  have notes := notesOnly_noted1 s .eret k
  have held' : ∀ b n, k = .fib b n → (eretEnds (s.noted1 .eret k) k).NoHeld k := fun b n e =>
    noHeld_eretEnds ⟨by rw [notes.fib]; exact (held b n e).timer, by rw [notes.fib]; exact (held b n e).debug⟩
  obtain ⟨t, ht, ended⟩ := issue_ended (eff := fun s ks => s.onLive ks eretEnds) (next := eretNext) (after := eretAfter) h hc rfl
    (onLive_one (by rw [notes.isHelper, h.live]) eretEnds) (keepsTurn_eretEnds _ k) held'
  rw [notes.eretNext] at ended
  exact ⟨_, t, notes, (exec_eret s).trans ht, ended⟩

/-- In trap service, and in no continuation that began after it, ERET ends the service. -/
theorem outermost_none {f : Fibre} (h : f.service = true) (hi : f.continuing = none ∨ f.inner = true) : f.outermost = none := by
  unfold Fibre.outermost
  rcases hi with hi | hi <;> simp [h, hi]

/-- Outside trap service, ERET ends the continuation that the fibre stands in, if any. -/
theorem outermost_idle {f : Fibre} (h : f.service = false) : f.outermost = f.continuing := by
  unfold Fibre.outermost; simp [h]

theorem eret_fromService {s : State} {b n : Nat} {e : TrapEntry} (h : s.Ready .eret (.fib b n)) (held : s.NoHeld (.fib b n))
    (hs : (s.fib (.fib b n)).service = true) (hi : (s.fib (.fib b n)).continuing = none ∨ (s.fib (.fib b n)).inner = true)
    (hq : (s.gang (b, n / 32)).trapq = [e]) :
    ∃ t, exec .eret s = .next t ∧ (t.fib (.fib b n)).pc = (s.fib (.fib b n)).tpc ∧ (t.fib (.fib b n)).service = false ∧
      (t.gang (b, n / 32)).trapq = [] ∧ SameRegs s t (.fib b n) ∧ SameMemory s t ∧ OthersSame s t (.fib b n) := by
  have none_ := outermost_none hs hi
  obtain ⟨u, t, notes, ht, ended⟩ := eret_next h (fun _ _ _ => held) (by rw [eretCheck, none_]; simp [hs])
  have ends : eretEnds u (.fib b n) = u.endService (.fib b n) := by unfold eretEnds; rw [notes.fib, none_]; rfl
  have next : eretNext s (.fib b n) = (s.fib (.fib b n)).tpc := by unfold eretNext; rw [none_]; rfl
  rw [ends, next] at ended
  have own := ended.own
  rw [endService_fib, notes.fib] at own
  have queue : (t.gang (b, n / 32)).trapq = [] := by rw [ended.gang, endService_gang, notes.gang, hq]; rfl
  refine ⟨t, by rw [ht, eretAfter_fib queue], by rw [own], by rw [own], queue, by unfold SameRegs; rw [own]; exact ⟨rfl, rfl, rfl, rfl⟩,
    notes.side.memory.trans ((regsOnly_endService u _).sameMemory.trans ended.memory), fun m hm => ?_⟩
  rw [ended.others m hm, endService_fib_ne u hm, notes.fib]

/-- The end of a continuation, where no trap waits for the gang: the fibre changes as `g` says, and its run is over (R257). -/
theorem eret_fromContinuation {s : State} {b n : Nat} {g : Fibre → Fibre} (h : s.Ready .eret (.fib b n)) (held : s.NoHeld (.fib b n))
    (first : (s.gang (b, n / 32)).trapq = []) (hc : eretCheck s (.fib b n) = .go)
    (ends : ∀ u, u.fib (.fib b n) = s.fib (.fib b n) → eretEnds u (.fib b n) = u.updFib (.fib b n) g) :
    ∃ t, exec .eret s = .next t ∧ SameMemory s t ∧ OthersSame s t (.fib b n) ∧ t.fib (.fib b n) =
      { g (s.fib (.fib b n)) with pc := eretNext s (.fib b n), k := (t.fib (.fib b n)).k, lastEnd := (t.fib (.fib b n)).lastEnd,
                                  readySince := (t.fib (.fib b n)).readySince } := by
  obtain ⟨u, t, notes, ht, ended⟩ := eret_next h (fun _ _ _ => held) hc
  rw [ends u (notes.fib _)] at ended
  have own := ended.own
  rw [State.updFib_fib_same, notes.fib] at own
  have queue : (t.gang (b, n / 32)).trapq = [] := by rw [ended.gang, State.updFib_gang, notes.gang, first]
  refine ⟨t, by rw [ht, eretAfter_fib queue], notes.side.memory.trans ((regsOnly_updFib _ _ _).sameMemory.trans ended.memory), fun m hm => ?_, own⟩
  rw [ended.others m hm, State.updFib_fib_ne _ _ hm, notes.fib]

/-- What a trap that is delivered at once leaves in memory. -/
theorem sameMemory_enterTrap {s : State} {b n : Nat} (h : s.CanTrap b n) (x : Trap) : SameMemory s (s.enterTrap b n x) := by
  obtain ⟨now, e⟩ := enterTrap_eq h x
  rw [e]
  exact (trapWaits_memory h.pop x).trans (regsOnly_updFib _ _ _).sameMemory

/-- The end of a continuation whose fault software rejects: the fibre takes it as a trap (R256, R257). -/
theorem eret_rejects {s : State} {b n : Nat} {f : PageFault} (h : s.Ready .eret (.fib b n)) (can : s.CanTrap b n)
    (hf : (s.fib (.fib b n)).continuing = some f) (h2 : serviceField (s.fib (.fib b n)) = 2) :
    ∃ t, exec .eret s = .next t ∧ SameMemory s t ∧ OthersSame s t (.fib b n) ∧ Trapped s t b n f.trap := by
  have hv : eretCheck s (.fib b n) = .reject f := by simp [eretCheck, outermost_idle can.idle, hf, h2]
  have notes : NotesOnly s (s.leaveMiss (.fib b n)) := notesOnly_leaveMissOf s _
  generalize hu : (s.leaveMiss (.fib b n)).updFib (.fib b n) (fun g => { g with continuing := none }) = u
  have took : s.takeVerdicts [(.fib b n, eretCheck s (.fib b n))] = u.enterTrap b n f.trap := by rw [hv, ← hu]; rfl
  have own : u.fib (.fib b n) = { s.fib (.fib b n) with continuing := none } := by rw [← hu, State.updFib_fib_same, notes.fib]
  have others : ∀ k, k ≠ .fib b n → u.fib k = s.fib k := fun k hk => by rw [← hu, State.updFib_fib_ne _ _ hk, notes.fib]
  have gang : ∀ g, u.gang g = s.gang g := fun g => by rw [← hu, State.updFib_gang, notes.gang]
  have memory : SameMemory s u := by rw [← hu]; exact notes.side.memory.trans (regsOnly_updFib _ _ _).sameMemory
  have can' : u.CanTrap b n :=
    ⟨by rw [own]; exact can.idle, by rw [gang]; exact can.first, by rw [gang]; exact can.handler, by rw [gang]; exact can.free,
      by rw [own]; exact can.pop, by unfold State.PipesDistinct; rw [← hu]; exact can.pipes⟩
  obtain ⟨t, ht, side⟩ := issue_trap (check := eretCheck) (eff := fun s ks => s.onLive ks eretEnds) (next := eretNext) (after := eretAfter) h (by rw [hv]; rfl)
    (fun _ => rfl) (by rw [took]; exact turnOver_enterTrap can' (by rw [← hu]; exact h.sole) f.trap)
  rw [took] at side
  have memory' : SameMemory s t := memory.trans ((sameMemory_enterTrap can' f.trap).trans side.memory)
  have ⟨mem, scratch, _⟩ := memory'
  obtain ⟨cause, tpc, addr, info, pc, service, queue, temps, kept, others', -⟩ := (trapped_enterTrap can' f.trap).of_side rfl side
  have others'' : ∀ k, k ≠ .fib b n → t.fib k = s.fib k := fun k hk => (others' k hk).trans (others k hk)
  rw [own] at kept
  rw [gang] at pc
  exact ⟨t, (exec_eret s).trans ht, memory', others'', cause, tpc, addr, info, pc, service, queue, temps, kept, others'', mem, scratch⟩

/-- The end of a compatibility continuation, by its service field (R257). -/
theorem eret_continuation {s : State} {b n : Nat} {f : PageFault} (h : s.Ready .eret (.fib b n)) (held : s.NoHeld (.fib b n))
    (can : s.CanTrap b n) (hf : (s.fib (.fib b n)).continuing = some f) :
    ∃ t, exec .eret s = .next t ∧ SameMemory s t ∧ OthersSame s t (.fib b n) ∧
      match (s.fib (.fib b n)).tinfo.toNat / 2 ^ 62 with
      | 0 => (t.fib (.fib b n)).wait = .eret ∧ (t.fib (.fib b n)).pc = (s.fib (.fib b n)).pc ∧ SameRegs s t (.fib b n)
      | 2 => Trapped s t b n f.trap
      | _ => (t.fib (.fib b n)).pc = (s.fib (.fib b n)).tpc ∧ (t.fib (.fib b n)).continuing = none ∧ SameRegs s t (.fib b n) := by
  have outer : (s.fib (.fib b n)).outermost = some f := (outermost_idle can.idle).trans hf
  rw [← serviceField_eq]
  split
  next h0 =>
    obtain ⟨t, ht, memory, others, own⟩ := eret_fromContinuation (g := fun f => { f with wait := .eret }) h held can.first
      (by simp [eretCheck, outer, h0]) fun u hu => by simp [eretEnds, hu, outer, h0]
    have next : eretNext s (.fib b n) = (s.fib (.fib b n)).pc := by simp [eretNext, outer, h0]
    exact ⟨t, ht, memory, others, by rw [own], by rw [own, next], by unfold SameRegs; rw [own]; exact ⟨rfl, rfl, rfl, rfl⟩⟩
  next h2 => exact eret_rejects h can hf h2
  next n0 n2 =>
    have h0 : serviceField (s.fib (.fib b n)) ≠ 0 := n0
    have h2 : serviceField (s.fib (.fib b n)) ≠ 2 := n2
    obtain ⟨t, ht, memory, others, own⟩ := eret_fromContinuation (g := fun f => { f with continuing := none }) h held can.first
      (by simp [eretCheck, outer, h2]) fun u hu => by simp [eretEnds, hu, outer, h0]
    have next : eretNext s (.fib b n) = (s.fib (.fib b n)).tpc := by simp [eretNext, outer, h0]
    exact ⟨t, ht, memory, others, by rw [own, next], by rw [own], by unfold SameRegs; rw [own]; exact ⟨rfl, rfl, rfl, rfl⟩⟩

/-- ERET of a control core in service (R416). -/
theorem eret_ctl {s : State} {n : Nat} (h : s.Ready .eret (.ctl n)) (hs : (s.fib (.ctl n)).service = true)
    (hf : (s.fib (.ctl n)).continuing = none) :
    ∃ t, exec .eret s = .next t ∧ (t.fib (.ctl n)).pc = (s.fib (.ctl n)).tpc ∧ (t.fib (.ctl n)).service = false ∧ SameRegs s t (.ctl n) ∧
      SameMemory s t := by
  have none_ := outermost_none hs (.inl hf)
  obtain ⟨u, t, notes, ht, ended⟩ := eret_next h (fun _ _ e => by cases e) (by simp [eretCheck, none_, hs])
  have ends : eretEnds u (.ctl n) = u.endService (.ctl n) := by simp [eretEnds, notes.fib, none_]
  have next : eretNext s (.ctl n) = (s.fib (.ctl n)).tpc := by simp [eretNext, none_]
  rw [ends, next] at ended
  have own := ended.own
  rw [endService_fib, notes.fib] at own
  exact ⟨t, by rw [ht, eretAfter_ctl], by rw [own], by rw [own], by unfold SameRegs; rw [own]; exact ⟨rfl, rfl, rfl, rfl⟩,
    notes.side.memory.trans ((regsOnly_endService u _).sameMemory.trans ended.memory)⟩

/-- ERET outside trap service and any continuation (R186). -/
theorem eret_illegal {s : State} {b n : Nat} (h : s.Ready .eret (.fib b n)) (can : s.CanTrap b n)
    (hf : (s.fib (.fib b n)).continuing = none) :
    ∃ t, exec .eret s = .next t ∧
      Trapped s t b n { cause := 0x01, pc := (s.fib (.fib b n)).pc, addr := 0, info := Instr.eret.word.setWidth 64 } := by
  refine exec_trapped (exec_eret s) h can ?_ (fun _ => rfl) fun _ => rfl
  simp [eretCheck, outermost_idle can.idle, hf, can.idle, State.trapOf]

/-- Settles O16: by what ERET ends, and by the service field of a continuation. -/
theorem trapReturn : Obligations.TrapReturn :=
  ⟨fun _ _ _ _ h held _ hs hi hq => eret_fromService h held hs hi hq, fun _ _ _ _ h held _ can hf => eret_continuation h held can hf,
    fun _ _ h hs hf => eret_ctl h hs hf, fun _ _ _ h can hf => eret_illegal h can hf⟩

end Sys2Proof.Machine
end

section
/-!
PROOFS. PRE at which a block stops while a trap waits and TVEC is 0 (R187, R188, R258): the stop discards a handler, and the next trap of its
gang is a launch error.
-/

namespace Sys2Proof.Machine

/-! ### The state

Three fibres of a gang whose block is asked to stop: the first has the turn, at its PRE; the second is in trap service and in an open
region; the trap of the third, in an open region too, waits in the gang's queue. The handler has written 0 to TVEC. -/

/-- A launch record of one block of three fibres; its liveness entries stand at 0x10000 (R140, R260). -/
def livenessRecord : List Byte :=
  toBytes 8 0x100 ++ toBytes 12 (1 + 2 ^ 32 + 2 ^ 64) ++ toBytes 4 (3 + 4 * 2 ^ 16) ++ toBytes 4 64 ++ toBytes 4 1024 ++
    List.replicate 0x60 0 ++ toBytes 8 0x10000 ++ List.replicate 16 0 ++ toBytes 8 1 ++ List.replicate 96 0

/-- The region that the second and the third fibre have opened with an IDEM (R188). -/
def openRegion : Snap := { index := 0, pc := 0xC0, regs := [], p := 0, wb := 0, lr := 0 }

/-- Page 1 of partition 0: this device's own, readable (R273). -/
def nearPage : Tlb := { part := 0, base := 0x10000, size := 16, pte := BitVec.ofNat 64 (0x7FF * 2 ^ 53 + 0x100CF) }

def waitingTrap (lane : Nat) : TrapEntry := { lane := lane, trap := { cause := 0x22, pc := 0x104 } }

def lastStop : State :=
  { State.reset with
    bootstat := 0x41
    tlb1 := [(0, [nearPage])]
    partitions := [(0, { cfg := 0xE000000000000001 })]
    launches := [(1, { part := 0, queue := 0, recAt := 0x10000, record := livenessRecord, state := .running, cursor := 1, placed := 1 })]
    queues := [(0, { held := [1] })]
    blocks := [(0, { lid := 1, core := 0, fibres := 3, maxf := 4, regs := 64, scratch := 1024, roles := 0, units := List.range 8, order := 1,
                     stop := .requested .switch 100 })]
    gangs := [((0, 0), { trapq := [waitingTrap 1, waitingTrap 2] })]
    fibres := [(.fib 0 0, { pc := 0x100 }), (.fib 0 1, { pc := 0x804, service := true, region := some openRegion }),
      (.fib 0 2, { pc := 0x100, wait := .queued, region := some openRegion })]
    pipes := [(0, { block := 0, members := [0] })]
    agent := some (.coach 0 0) }

/-! ### What the step meets and what it leaves -/

theorem lastStop_ready : lastStop.Ready (.pre 0) (.fib 0 0) :=
  ⟨by decide +kernel, by decide +kernel, by decide +kernel, by decide +kernel⟩

/-- The liveness entry of this PRE: 128 bytes of zero, without poison. -/
theorem lastStop_entry : lastStop.readVirt (.fib 0 0) (.pre 0) .load 2 (lastStop.livenessAt (.fib 0 0) (0 : BitVec 16).toNat) 128 =
    .ok (List.replicate 128 0, none) := by decide +kernel

theorem lastStop_livenessOk : livenessOk (lastStop.block 0) (List.replicate 128 0) = true := by decide +kernel

theorem lastStop_live : 0 ∈ lastStop.liveSlots 0 := by decide +kernel

theorem lastStop_notInHandler : (lastStop.fib (.fib 0 0)).inHandler = false := by decide +kernel

/-- The block stops at this PRE; discarding the second fibre's handler delivers the third one's trap, and without a handler (TVEC = 0)
that is a launch error, which stops the fibre at the PRE as well. -/
theorem lastStop_dead : waitAfter (exec (.pre 0) lastStop) (.fib 0 0) = some .dead := by decide +kernel

/-! ### The refutation -/

/-- The last fibre to reach its PRE does not always wait there with its liveness entry. -/
theorem not_waits_at_pre : ¬ ∀ n (s : State) (b m : Nat) why t0 e, s.Ready (.pre n) (.fib b m) → m ∈ s.liveSlots b →
    (s.block b).stop = .requested why t0 → (s.fib (.fib b m)).inHandler = false → (s.fib (.fib b m)).pop = none →
    s.readVirt (.fib b m) (.pre n) .load 2 (s.livenessAt (.fib b m) n.toNat) 128 = .ok (e, none) → livenessOk (s.block b) e = true →
    ∃ t, exec (.pre n) s = .next t ∧ (t.fib (.fib b m)).wait = .pre e := by
  intro h
  obtain ⟨t, hstep, hwait⟩ := h 0 lastStop 0 0 .switch 100 (List.replicate 128 0) lastStop_ready lastStop_live rfl lastStop_notInHandler rfl
    lastStop_entry lastStop_livenessOk
  have hdead : some (t.fib (.fib 0 0)).wait = some .dead := by
    simpa only [hstep, waitAfter] using lastStop_dead
  rw [hwait] at hdead
  exact absurd hdead (by simp)

/-- Refutes O44: it claims that the fibre waits at its PRE also where its block stops at this very step, but the stop discards the handler of
a fibre that stands in a region, so the next trap of its gang is delivered; where TVEC is 0 by then that is a launch error, and every fibre of
the block is stopped, the one at the PRE too. -/
theorem not_stopPoints : ¬ Obligations.StopPoints := by
  rintro ⟨-, hpre, -⟩
  refine not_waits_at_pre fun n s b m why t0 e hready hlive hstop hhandler hpop hentry hok => ?_
  obtain ⟨t, hstep, -, -, hwait, -⟩ := hpre n s b m why t0 e hready hlive hstop hhandler hpop hentry hok
  exact ⟨t, hstep, hwait⟩

end Sys2Proof.Machine
end

section
/-!
PROOFS. Elements and their classes: FADD to FMAX in every format, and the one bit that FCLASS sets (R20, R196, R199).
-/

namespace Sys2Proof.Machine

theorem Computes.congr {i : Instr} {f g : State → FKey → List Wr} (c : Computes i f) (h : ∀ s k, f s k = g s k) : Computes i g :=
  (funext fun s => funext (h s) : f = g) ▸ c

/-! ### FADD to FMAX (R196) -/

theorem bits_high (a : W32) : bits a.toNat 31 16 = a.toNat / 2 ^ 16 := by
  rw [bits]; omega

theorem halves_value (f : Nat → Nat → Nat → Nat) (a b c : W32) : BitVec.ofNat 32 (twoHalves f a b c) = halves f a b c := by
  simp only [twoHalves, halves, bits_high, bits_low _ 15]

theorem laneF_f32 {o : F3} (h : o.fmt = .f32) (op : Fmt → Nat → Nat → Nat → Nat) (s : State) (k : FKey) :
    laneF o op s k = [.reg o.d (BitVec.ofNat 32 (op fp32 (s.src32 k o.a).toNat (s.src32 k o.b).toNat (s.src32 k o.d).toNat))] := by
  rw [laneF, h]

theorem laneF_h2 {o : F3} (h : o.fmt = .h2) (op : Fmt → Nat → Nat → Nat → Nat) (s : State) (k : FKey) :
    laneF o op s k = [.reg o.d (BitVec.ofNat 32 (twoHalves (op fp16) (s.src32 k o.a) (s.src32 k o.b) (s.src32 k o.d)))] := by
  rw [laneF, h, halves_value]

theorem laneF_b2 {o : F3} (h : o.fmt = .b2) (op : Fmt → Nat → Nat → Nat → Nat) (s : State) (k : FKey) :
    laneF o op s k = [.reg o.d (BitVec.ofNat 32 (twoHalves (op bf16) (s.src32 k o.a) (s.src32 k o.b) (s.src32 k o.d)))] := by
  rw [laneF, h, halves_value]

theorem laneF_d {o : F3} (h : o.fmt = .d) (op : Fmt → Nat → Nat → Nat → Nat) (s : State) (k : FKey) :
    laneF o op s k = [.wide o.d (BitVec.ofNat 64 (op fp64 (s.src64 k o.a).toNat (s.src64 k o.b).toNat (s.src64 k o.d).toNat))] := by
  rw [laneF, h]

theorem elementOp_computes {i : Instr} {o : F3} {op : Fmt → Nat → Nat → Nat → Nat} (h : elementOp i = some (o, op)) :
    Computes i (laneF o op) := by
  have blind : ∀ o op s v q k, laneF o op { s with veil := v, missQ := q } k = laneF o op s k := fun _ _ _ _ _ _ => rfl
  cases i with
  | fadd => cases h; exact ⟨fun _ => rfl, rfl, blind _ _⟩
  | fsub => cases h; exact ⟨fun _ => rfl, rfl, blind _ _⟩
  | fmul => cases h; exact ⟨fun _ => rfl, rfl, blind _ _⟩
  | ffma => cases h; exact ⟨fun _ => rfl, rfl, blind _ _⟩
  | fmin => cases h; exact ⟨fun _ => rfl, rfl, blind _ _⟩
  | fmax => cases h; exact ⟨fun _ => rfl, rfl, blind _ _⟩
  | _ => cases h

/-- Settles O7. -/
theorem floatResults : Obligations.FloatResults := by
  intro i o op h s ks hs
  have c := elementOp_computes h
  cases hf : o.fmt with
  | f32 =>
    obtain ⟨t, ht, hk⟩ := (c.congr (laneF_f32 hf op)).holds32 hs
    exact ⟨t, ht, fun k hp => (hk k hp).symm⟩
  | h2 =>
    obtain ⟨t, ht, hk⟩ := (c.congr (laneF_h2 hf op)).holds32 hs
    exact ⟨t, ht, fun k hp => (hk k hp).symm⟩
  | b2 =>
    obtain ⟨t, ht, hk⟩ := (c.congr (laneF_b2 hf op)).holds32 hs
    exact ⟨t, ht, fun k hp => (hk k hp).symm⟩
  | d =>
    obtain ⟨t, ht, hk⟩ := (c.congr (laneF_d hf op)).holds64 hs
    exact ⟨t, ht, fun k hp => (hk k hp).symm⟩

/-! ### FCLASS (R199) -/

/-- What bit `n` of the answer of FCLASS stands for (R199). -/
def InClass (a : W32) (n : Nat) : Prop :=
  let neg := a.toNat / 2 ^ 31 = 1
  let exp := a.toNat / 2 ^ 23 % 2 ^ 8
  let frac := a.toNat % 2 ^ 23
  match n with
  | 0 => neg ∧ exp = 255 ∧ frac = 0
  | 1 => neg ∧ 0 < exp ∧ exp < 255
  | 2 => neg ∧ exp = 0 ∧ frac ≠ 0
  | 3 => neg ∧ exp = 0 ∧ frac = 0
  | 4 => ¬neg ∧ exp = 0 ∧ frac = 0
  | 5 => ¬neg ∧ exp = 0 ∧ frac ≠ 0
  | 6 => ¬neg ∧ 0 < exp ∧ exp < 255
  | 7 => ¬neg ∧ exp = 255 ∧ frac = 0
  | _ => exp = 255 ∧ frac ≠ 0

/-- The bit that FCLASS sets, from the sign, the exponent field and the fraction field (R199). -/
theorem fclass32_eq (x : Nat) : fclass32 x =
    if x / 2 ^ 23 % 2 ^ 8 = 0 then
      (if x % 2 ^ 23 = 0 then (if x / 2 ^ 31 % 2 = 1 then 2 ^ 3 else 2 ^ 4) else if x / 2 ^ 31 % 2 = 1 then 2 ^ 2 else 2 ^ 5)
    else if x / 2 ^ 23 % 2 ^ 8 = 255 then
      (if x % 2 ^ 23 = 0 then (if x / 2 ^ 31 % 2 = 1 then 2 ^ 0 else 2 ^ 7) else 2 ^ 8)
    else if x / 2 ^ 31 % 2 = 1 then 2 ^ 1 else 2 ^ 6 := by
  unfold fclass32 Fmt.decode
  simp only [fp32, beq_iff_eq, Nat.reduceAdd, Nat.reducePow, Nat.reduceSub, Bool.true_and, Bool.not_true, Bool.false_and]
  by_cases hz : x / 8388608 % 256 = 0
  · simp [hz]
  · by_cases hi : x / 8388608 % 256 = 255
    · by_cases hf : x % 8388608 = 0
      · rcases Nat.mod_two_eq_zero_or_one (x / 2147483648) with hn | hn <;> simp [hi, hf, hn]
      · simp [hi, hf]
    · simp [hz, hi]

theorem fclass32_class (a : W32) : ∃ n ≤ 8, fclass32 a.toNat = 2 ^ n ∧ InClass a n := by
  have sign : a.toNat / 2 ^ 31 % 2 = a.toNat / 2 ^ 31 := by omega
  have exp : a.toNat / 2 ^ 23 % 2 ^ 8 < 256 := Nat.mod_lt _ (by decide)
  rw [fclass32_eq, sign]
  split
  next hz =>
    split
    next hf =>
      split
      next hn => exact ⟨3, by decide, rfl, hn, hz, hf⟩
      next hn => exact ⟨4, by decide, rfl, hn, hz, hf⟩
    next hf =>
      split
      next hn => exact ⟨2, by decide, rfl, hn, hz, hf⟩
      next hn => exact ⟨5, by decide, rfl, hn, hz, hf⟩
  next hz =>
    split
    next hi =>
      split
      next hf =>
        split
        next hn => exact ⟨0, by decide, rfl, hn, hi, hf⟩
        next hn => exact ⟨7, by decide, rfl, hn, hi, hf⟩
      next hf => exact ⟨8, by decide, rfl, hi, hf⟩
    next hi =>
      split
      next hn => exact ⟨1, by decide, rfl, hn, by omega, by omega⟩
      next hn => exact ⟨6, by decide, rfl, hn, by omega, by omega⟩

/-- Settles O24. -/
theorem floatClass : Obligations.FloatClass := by
  intro o s ks hs
  obtain ⟨t, ht, hk⟩ := moveResults (.fclass o) o.d _ rfl s ks hs
  refine ⟨t, ht, fun k hp => ?_⟩
  obtain ⟨n, hn, hv, hc⟩ := fclass32_class (s.src32 k o.a)
  exact ⟨n, hn, hv ▸ (hk k hp).1, hc⟩

end Sys2Proof.Machine
end

section
/-!
PROOFS. Words on a quad and words that answer a status (R212, R213, R243, R246, R355, R365, R412): what a lane takes from the others, and what
stands in each field of a status word.
-/

namespace Sys2Proof.Machine

/-! ### Words on a quad (R212, R213) -/

theorem quadMember_fib {s : State} {ks : List FKey} (h : s.members = some ks) (b n l : Nat) :
    s.quadMember (.fib b n) l = if FKey.fib b (n / 4 * 4 + l) ∈ ks then some (.fib b (n / 4 * 4 + l)) else none := by
  simp [State.quadMember, h]

theorem quadVal_fib {s : State} {ks : List FKey} (h : s.members = some ks) (b n : Nat) (a : Reg) (l : Nat) :
    s.quadVal (.fib b n) a l = inQuad s ks (.fib b n) a l := by
  rw [State.quadVal, quadMember_fib h, inQuad]
  by_cases hm : FKey.fib b (n / 4 * 4 + l) ∈ ks <;> simp [hm]

theorem quadVals_fib {s : State} {ks : List FKey} (h : s.members = some ks) (b n : Nat) (a : Reg) :
    s.quadVals (.fib b n) a = (List.range 4).map (addend s ks (.fib b n) a) := by
  refine List.map_congr_left fun l _ => ?_
  rw [quadMember_fib h, addend, inQuad]
  by_cases hm : FKey.fib b (n / 4 * 4 + l) ∈ ks <;> simp [hm]

theorem quadLane_fib (s : State) (b n : Nat) : s.quadLane (.fib b n) = n % 4 := Nat.mod_mod_of_dvd n (by decide)

theorem xor_one_of_lt {l : Nat} (h : l < 4) : l ^^^ 1 = l / 2 * 2 + (1 - l % 2) := by decide +revert
theorem xor_two_of_lt {l : Nat} (h : l < 4) : l ^^^ 2 = (l + 2) % 4 := by decide +revert
theorem xor_three_of_lt {l : Nat} (h : l < 4) : l ^^^ 3 = 3 - l := by decide +revert

/-- `i` writes to `d` what `f` says of a fibre of the coach in its lane of its quad. -/
def QuadComputes (i : Instr) (d : Reg) (f : State → List FKey → FKey → Nat → W32) : Prop :=
  ∃ val : State → FKey → W32, (Computes i fun s k => [.reg d (val s k)]) ∧
    ∀ s ks b n, s.members = some ks → val s (.fib b n) = f s ks (.fib b n) (n % 4)

/-- An exchange with the lane at a distance. -/
theorem QuadComputes.of_exchange {i : Instr} {o : R2} {x : Nat} {g : Nat → Nat} (he : ∀ s, exec i s = compute i s (laneQuad o x))
    (hr : i.runEnding = false) (hg : ∀ l < 4, l ^^^ x = g l) : QuadComputes i o.d fun s ks k n => inQuad s ks k o.a (g n) :=
  ⟨_, ⟨he, hr, fun _ _ _ _ => rfl⟩, fun s ks b n h => by rw [quadLane_fib, hg _ (Nat.mod_lt _ (by decide)), quadVal_fib h]⟩

/-- A reduction of the four lanes. -/
theorem QuadComputes.of_reduction {i : Instr} {o : R2} {f : List Nat → Nat} {g : (Nat → Nat) → Nat}
    (he : ∀ s, exec i s = compute i s (laneQuadRed o f)) (hr : i.runEnding = false) (hg : ∀ x : Nat → Nat, f ((List.range 4).map x) = g x) :
    QuadComputes i o.d fun s ks k _ => BitVec.ofNat 32 (g (addend s ks k o.a)) :=
  ⟨_, ⟨he, hr, fun _ _ _ _ => rfl⟩, fun s ks b n h => by rw [quadVals_fib h, hg]⟩

/-- QMAX and QMIN take the four lanes in order, the first with itself (R37, R213). -/
def quadFold (f : Nat → Nat → Nat) (x : Nat → Nat) : Nat := f (f (f (f (x 0) (x 0)) (x 1)) (x 2)) (x 3)

theorem quadRow_computes {i : Instr} {d : Reg} {f : State → List FKey → FKey → Nat → W32} (h : quadRow i = some (d, f)) :
    QuadComputes i d f := by
  cases i with
  | qxh o => cases h; exact .of_exchange (fun _ => rfl) rfl fun _ => xor_one_of_lt
  | qxv o => cases h; exact .of_exchange (fun _ => rfl) rfl fun _ => xor_two_of_lt
  | qxd o => cases h; exact .of_exchange (fun _ => rfl) rfl fun _ => xor_three_of_lt
  | qbc o =>
    cases h
    exact ⟨fun s k => s.quadVal k o.a (bits (s.src32 k o.b).toNat 1 0), ⟨fun _ => rfl, rfl, fun _ _ _ _ => rfl⟩,
      fun s ks b n h => (quadVal_fib h ..).trans (by rw [← bits_low _ 1]; rfl)⟩
  | qadd o =>
    cases h
    exact .of_reduction (f := pairwise fp32.add 0) (g := fun x => fp32.add (fp32.add (x 0) (x 1)) (fp32.add (x 2) (x 3))) (fun _ => rfl) rfl
      fun _ => rfl
  | qmax o => cases h; exact .of_reduction (f := foldF fp32.max) (g := quadFold fp32.max) (fun _ => rfl) rfl fun _ => rfl
  | qmin o => cases h; exact .of_reduction (f := foldF fp32.min) (g := quadFold fp32.min) (fun _ => rfl) rfl fun _ => rfl
  | _ => cases h

theorem quadResults : Claims.QuadResults := by
  intro i d f h s ks hs
  obtain ⟨val, c, hv⟩ := quadRow_computes h
  obtain ⟨t, ht, hk⟩ := c.holds32 hs
  exact ⟨t, ht, fun b n hp => hv s ks b n hs.1 ▸ hk _ hp⟩

/-! ### Results of live members alone (R157) -/

/-- The result of a member that has written it with the members `ls`, of which none before it writes its s register. -/
theorem holds32_of_lanes {s u t : State} {ls : List FKey} {d : Reg} {val : FKey → W32} {k : FKey} (hu : Kept s u)
    (hwb : ∀ k, (u.fib k).wb = (s.fib k).wb) (hm : Moved (u.lanes (ls.map fun k => (k, [Wr.reg d (val k)]))) t) (hk : k ∈ ls)
    (first : s.isHelper k = false → s.lead k = k → ls.find? (fun m => !u.isHelper m && decide (u.gangOf m = u.gangOf k)) = some k) :
    Holds32 s t k d (val k) := by
  cases d with
  | v n =>
    intro hw
    rw [hm.vcell]
    exact lanes_v hk (window_kept hu hwb hw)
  | s n =>
    intro hh hl
    rw [hm.scell]
    exact lanes_s (val := fun k => (val k).setWidth 64) (fun _ _ => rfl) (first hh hl)
  | k n => exact (congrArg (fun m => m.atD n.val 0) (hm.k k)).trans (lanes_k hk)
  | q n => trivial
  | z => trivial
  | id => trivial

/-- Members that write nothing may be left out. -/
theorem lanes_filter (s : State) (ks : List FKey) (p : FKey → Bool) (f : FKey → List Wr) :
    s.lanes (ks.map fun k => (k, if p k then [] else f k)) = s.lanes ((ks.filter fun k => !p k).map fun k => (k, f k)) := by
  induction ks with
  | nil => rfl
  | cons a l ih => by_cases h : p a = true <;> simp [State.lanes, State.wrs, h, ih]

/-- `i` writes `val` to `d` for each live member for which it goes on; a helper leaves its D. -/
structure ComputesLive (i : Instr) (d : Reg) (val : State → FKey → W32) : Prop where
  exec_eq : ∀ s, exec i s = compute i s fun s k => if s.isHelper k then [] else [.reg d (val s k)]
  runs_on : i.runEnding = false
  blind : ∀ s v q k, val { s with veil := v, missQ := q } k = val s k

theorem ComputesLive.holds32 {i : Instr} {d : Reg} {val : State → FKey → W32} (c : ComputesLive i d val) {s : State} {ks : List FKey}
    (h : s.Proceeds i noCheck ks) : ∃ t, exec i s = .next t ∧
      ∀ k, s.Performs i noCheck ks k → s.isHelper k = false → Holds32 s t k d (val s k) ∧ (t.fib k).pc = (s.fib k).pc + 4 := by
  obtain ⟨t, u, v, he, hu, hv, hm, hpc, -, hp⟩ :=
    compute_law h c.runs_on (fun s k => if s.isHelper k then [] else [Wr.reg d (val s k)]) fun s v q k => by rw [c.blind]; rfl
  have hwb : ∀ k, (u.fib k).wb = (s.fib k).wb := fun k => by rw [hp, popAll_wb, (notesOnly_noted s i noCheck ks).fib]
  rw [lanes_filter] at hv
  refine ⟨t, (c.exec_eq s).trans he, fun k hk hh => ⟨holds32_of_lanes hu hwb (hv ▸ hm) ?_ fun _ hl => ?_, hpc k hk hh⟩⟩
  · exact List.mem_filter.mpr ⟨mem_performers.mpr hk, by rw [hh]; rfl⟩
  · rw [List.find?_filter, ← find_of_lead h hu.isHelper hu.gangOf hk hh hl]
    exact List.find?_congr fun m _ => by rw [hu.isHelper]; cases s.isHelper m <;> simp

/-! ### Status words (R246, R355, R365, R412) -/

/-- A field of a status word, in its place. -/
def fieldOf (x : Nat × Nat × Nat) : Nat := x.2.2 % 2 ^ (x.1 + 1 - x.2.1) * 2 ^ x.2.1

theorem fieldOf_eq (hi lo v : Nat) : fieldOf (hi, lo, v) = v % 2 ^ (hi + 1 - lo) * 2 ^ lo := rfl

/-- A flag of a status word. -/
theorem fieldOf_flag (n : Nat) (b : Bool) : fieldOf (n, n, b.toNat) = if b then 2 ^ n else 0 := by
  rw [fieldOf_eq, Nat.add_sub_cancel_left]; cases b <;> simp

/-- A field that its bits hold. -/
theorem fieldOf_of_lt {hi lo v : Nat} (h : v < 2 ^ (hi + 1 - lo)) : fieldOf (hi, lo, v) = v * 2 ^ lo := by
  rw [fieldOf_eq, Nat.mod_eq_of_lt h]

/-- A field that ends in bit 0. -/
theorem fieldOf_low (hi v : Nat) : fieldOf (hi, 0, v) = v % 2 ^ (hi + 1) := by
  rw [fieldOf_eq, Nat.pow_zero, Nat.mul_one, Nat.sub_zero]

/-- A status word is the sum of its fields, from the highest down. -/
theorem tableWord_cons (x : Nat × Nat × Nat) (rows : List (Nat × Nat × Nat)) :
    tableWord (x :: rows) = BitVec.ofNat 32 (rows.foldl (fun n y => n + fieldOf y) (fieldOf x)) := by
  rw [tableWord, List.map_cons, List.sum_cons]
  congr 1
  show fieldOf x + (rows.map fieldOf).sum = _
  generalize fieldOf x = n
  induction rows generalizing n with
  | nil => rfl
  | cons y l ih => rw [List.map_cons, List.sum_cons, ← Nat.add_assoc, ih, List.foldl_cons]

theorem cstate_no_lt (x : CState) : x.no < 8 := by cases x <;> decide

/-- The row of STATE by its code (R365). -/
theorem carRows_eq (c : Carriage) : carRows c = [(31, 31, true.toNat), (30, 28, c.state.no), (27, 27, c.pinned.toNat), (26, 26, c.tracked.toNat),
    (25, 25, c.paired.toNat), (24, 23, c.form), (22, 22, (Car.side c).toNat), (21, 21, c.smoothed.toNat), (20, 14, c.kp), (13, 12, c.np)] := by
  unfold carRows; cases c.state <;> rfl

theorem tableWord_carRows (c : Carriage) : tableWord (carRows c) = BitVec.ofNat 32 (2 ^ 31 + c.state.no * 2 ^ 28 + (if c.pinned then 2 ^ 27 else 0) +
    (if c.tracked then 2 ^ 26 else 0) + (if c.paired then 2 ^ 25 else 0) + c.form % 4 * 2 ^ 23 + (if Car.side c then 2 ^ 22 else 0) +
    (if c.smoothed then 2 ^ 21 else 0) + c.kp % 128 * 2 ^ 14 + c.np % 4 * 2 ^ 12) := by
  simp only [carRows_eq, tableWord_cons, List.foldl_cons, List.foldl_nil, fieldOf_flag, fieldOf_of_lt (hi := 30) (lo := 28) (cstate_no_lt _)]
  rfl

theorem statusRow_crstat (d a : Reg) : statusRow (.crstat d a) = some (d, fun s k => s.carStatus k (s.src32 k a).toNat) := by
  rw [statusRow]
  congr; funext s k
  unfold State.carStatus
  cases s.carriageAt k (s.src32 k a).toNat none with
  | none => rfl
  | some x => exact tableWord_carRows x.2

theorem matrixState_lt (s : State) (k : FKey) : s.matrixState k < 4 := by
  unfold State.matrixState; dsimp only; split
  · decide
  · split <;> decide

theorem matrixState_eq (s : State) (k : FKey) : s.matrixState k =
    if (s.core (s.coreOf k)).owner = some (s.gangOf k) then 2 else if s.gangOf k ∈ (s.core (s.coreOf k)).mxq.map (·.1) then 1 else 0 := by
  simp only [State.matrixState, List.any_eq_true, decide_eq_true_eq, List.mem_map]

theorem statusRow_mxstat (d : Reg) : statusRow (.mxstat d) = some (d, State.mxStatus) := by
  rw [statusRow]
  congr; funext s k
  simp only [mxRows, ← matrixState_eq, tableWord_cons, List.foldl_cons, List.foldl_nil, fieldOf_flag,
    fieldOf_of_lt (hi := 30) (lo := 29) (matrixState_lt s k)]
  rfl

theorem statusRow_cstat (d : Reg) : statusRow (.cstat d) = some (d, State.cstatWord) := by
  have low : ∀ n, min n 255 < 256 := fun n => by omega
  rw [statusRow]
  congr; funext s k
  simp only [cartRows, tableWord_cons, List.foldl_cons, List.foldl_nil, Nat.min_comm 255, fieldOf_flag,
    fieldOf_of_lt (hi := 15) (lo := 8) (low _), fieldOf_low, Nat.mod_eq_of_lt (b := 2 ^ (7 + 1)) (low _)]
  rfl

theorem qstatus_value (s : State) (c q : Nat) : tableWord (queueRows (s.queue c q)) = s.qstatus c q := by
  have entries := (s.queue c q).entries.length_eq_length_filter_add fun e => e.ready
  have waiting : (s.queue c q).entries.length - ((s.queue c q).entries.filter (·.ready)).length =
      ((s.queue c q).entries.filter fun e => !e.ready).length := by omega
  simp only [queueRows, tableWord_cons, List.foldl_cons, List.foldl_nil, fieldOf_flag, fieldOf_low, State.qstatus, waiting]
  cases (s.queue c q).bound with
  | none => simp [fieldOf_eq]
  | some g => simp [fieldOf_eq]

theorem statusRow_next {i : Instr} {d : Reg} {f : State → FKey → W32} (h : statusRow i = some (d, f)) {s : State} {ks : List FKey}
    (hs : s.Proceeds i noCheck ks) : ∃ t, exec i s = .next t ∧
      ∀ k, s.Performs i noCheck ks k → s.isHelper k = false → Holds32 s t k d (f s k) ∧ (t.fib k).pc = (s.fib k).pc + 4 := by
  cases i with
  | crstat d a =>
    rw [statusRow_crstat] at h; cases h
    exact ComputesLive.holds32 (val := fun s k => s.carStatus k (s.src32 k a).toNat) ⟨fun _ => rfl, rfl, fun _ _ _ _ => rfl⟩ hs
  | mxstat d =>
    rw [statusRow_mxstat] at h; cases h
    exact ComputesLive.holds32 ⟨fun _ => rfl, rfl, fun _ _ _ _ => rfl⟩ hs
  | cstat d =>
    rw [statusRow_cstat] at h; cases h
    obtain ⟨t, ht, hk⟩ := Computes.holds32 (val := State.cstatWord) ⟨fun _ => rfl, rfl, fun _ _ _ _ => rfl⟩ hs
    exact ⟨t, ht, fun k hp hh => ⟨(hk k hp).1, (hk k hp).2 hh⟩⟩
  | _ => cases h

theorem qstat_next {d : Reg} {q : BitVec 3} {s : State} {k : FKey} (h : s.Ready (.qstat d q) k) : ∃ t, exec (.qstat d q) s = .next t ∧
    Holds32 s t k d (s.qstatus (s.coreOf k) q.toNat) ∧ (t.fib k).pc = (s.fib k).pc + 4 := by
  have notes := notesOnly_noted1 s (.qstat d q) k
  have word : (s.noted1 (.qstat d q) k).qstatus ((s.noted1 (.qstat d q) k).coreOf k) q.toNat = s.qstatus (s.coreOf k) q.toNat := by
    rw [notes]; rfl
  obtain ⟨t, ht, adv⟩ := issue_onLive_one (check := noCheck) (f := fun s k => s.wr k (.reg d (s.qstatus (s.coreOf k) q.toNat))) h rfl rfl rfl
    ((kept_wr _ _ _).keepsTurn k)
  rw [word] at adv
  refine ⟨t, ht, ?_, adv.pc⟩
  exact holds32_of_lanes (ls := [k]) (val := fun _ => _) notes.kept (fun m => by rw [notes.fib]) adv.moved (List.mem_singleton_self k)
    fun _ _ => by simp [notes.isHelper, h.live]

theorem tlrd_next {d : Reg} {c : BitVec 3} {s : State} {ks : List FKey} (hs : s.Proceeds (.tlrd d c) noCheck ks) :
    ∃ t, exec (.tlrd d c) s = .next t ∧ ∀ k, s.Performs (.tlrd d c) noCheck ks k →
      Holds64 s t k d (BitVec.ofNat 64 (s.ctx (s.coreOf k) c.toNat).value) ∧ (s.isHelper k = false → (t.fib k).pc = (s.fib k).pc + 4) :=
  Computes.holds64 (val := fun s k => BitVec.ofNat 64 (s.ctx (s.coreOf k) c.toNat).value) ⟨fun _ => rfl, rfl, fun _ _ _ _ => rfl⟩ hs

theorem statusReads : Claims.StatusReads :=
  ⟨fun _ _ _ h _ _ hs => statusRow_next h hs, fun _ _ _ _ h => by rw [qstatus_value]; exact qstat_next h, fun _ _ _ _ hs => tlrd_next hs⟩

/-- Settles O9. -/
theorem quadAndStatusResults : Obligations.QuadAndStatusResults := ⟨quadResults, statusReads⟩

end Sys2Proof.Machine
end

section
/-!
PROOFS. ACTLD where the TLB translates both ends of the image and not the end of its header (R208, R276): the bank is LOADING without a header.
-/

namespace Sys2Proof.Machine

/-! ### The state

The fibre that has the turn loads table 0 from 0x10000. -/

/-- A translation of the one byte at `va`, of partition 0, to the byte at 0x10000 of this device, readable (R273). -/
def byteEntry (va : Nat) : Tlb := { part := 0, base := va, size := 0, pte := BitVec.ofNat 64 (0x7FF * 2 ^ 53 + 0x100CF) }

/-- An image at 0x10000 of which the TLB translates the first byte and the last byte alone. -/
def byteWise : State :=
  { State.reset with
    mem := [(0x10000, 1), (0x10003, 4), (0x10004, 4)]
    tlb1 := [(0, [byteEntry 0x10000, byteEntry 0x1103F])]
    blocks := [(0, { lid := 1, core := 0, fibres := 1, maxf := 1, regs := 64, scratch := 0, roles := 0, units := [0], order := 1 })]
    fibres := [(.fib 0 0, { pc := 0x100, regs := [(16, { val := 0x10000 })] })]
    pipes := [(0, { block := 0, members := [0] })]
    agent := some (.coach 0 0) }

/-- ACTLD of table 0 from the address in v16. -/
def byteLoad : Instr := .actld false (.v 16) 0

theorem byteWise_ready : byteWise.Ready byteLoad (.fib 0 0) :=
  ⟨by decide +kernel, by decide +kernel, by decide +kernel, by decide +kernel⟩

/-- Whether a read of an image answers bytes whose header is valid (R33). -/
def readsTable : Except Verdict (List Byte × Option W64) → Bool
  | .ok (bs, _) => headerOk bs
  | .error _ => false

theorem exists_of_readsTable {x : Except Verdict (List Byte × Option W64)} (h : readsTable x = true) :
    ∃ bs p, x = .ok (bs, p) ∧ headerOk bs = true := by
  cases x with
  | ok v => exact ⟨v.1, v.2, rfl, h⟩
  | error e => cases h

/-- The whole image is read, as both its ends are translated. -/
theorem byteWise_reads :
    readsTable ((byteWise.reading byteLoad).readVirt (.fib 0 0) byteLoad .load 3 (byteWise.src64 (.fib 0 0) (.v 16)) 4160) = true := by
  decide +kernel

/-- Whether the inactive bank of a table holds a header where a step goes on. -/
def headerAfter (o : Out) (c n : Nat) : Option Bool :=
  match o with
  | .next t => some (t.table c n).inactiveBank.header.isSome
  | _ => none

/-- The last byte of the header is not translated: the bank is LOADING without it. -/
theorem byteWise_headless : headerAfter (exec byteLoad byteWise) 0 0 = some false := by decide +kernel

/-- An ACTLD whose image can be read need not keep a header. -/
theorem not_tableWords : ¬ Claims.TableWords := by
  rintro ⟨load, -, -⟩
  obtain ⟨bs, p, hread, hok⟩ := exists_of_readsTable byteWise_reads
  obtain ⟨t, hstep, -, -, -, -, hheader, -⟩ := load false (.v 16) 0 byteWise (.fib 0 0) bs p byteWise_ready (by decide +kernel)
    (by decide +kernel) (by decide +kernel) (by decide +kernel) hread hok
  have headless : some (t.table 0 0).inactiveBank.header.isSome = some false := by
    simpa only [byteLoad, hstep, headerAfter] using byteWise_headless
  rw [show (t.table 0 0).inactiveBank.header.isSome = true from hheader] at headless
  cases headless

/-- Refutes O28: it claims a header in the bank after every ACTLD whose image of 4160 bytes can be read. The model reads the 64 bytes of the
header once more for the bank, and a read looks up its first and its last byte in the TLB: where TLB entries are smaller than the header
(which no walk fills in, and no hypothesis shuts out) the ends of the image can be translated and the end of the header not. -/
theorem not_functionUnits : ¬ Obligations.FunctionUnits := fun h => not_tableWords h.2

end Sys2Proof.Machine
end
